-- ==== Sys2Proof/Word.lean ====
section
/-! DEFINITION. The word types of the KD16 and their plainest arithmetic (R9, R14, R85). -/

namespace Sys2Proof

/-- A byte of memory (R9). -/
abbrev Byte := BitVec 8
/-- A scalar register, an address or a long immediate (R85). -/
abbrev Word := BitVec 64
/-- An instruction word of 96 bits (R14). -/
abbrev IWord := BitVec 96
/-- A gang bank mask, one bit for each hart of a core (R52). -/
abbrev Mask16 := BitVec 16
/-- The 8 KiB of a row or of a row latch (R114). -/
abbrev RowData := BitVec 65536
/-- An element mask of 8192 bits (R179). -/
abbrev LaneMask := BitVec 8192
/-- The 64 bytes of a line or of a sector (R124, R250). -/
abbrev Line := BitVec 512
/-- An accumulator of 80 bits (R172). -/
abbrev Acc80 := BitVec 80

end Sys2Proof
end

