-- ==== Sys2Proof/Config.lean ====
section
/-! DEFINITION. What an implementation fixes: the counts and times of the KD16 (R2, R3, R6, R117), and the free
values that the spec leaves open. -/

namespace Sys2Proof.Config

/-- The byte that a poisoned sector delivers where the spec states none (R124, R125): a free value. -/
opaque freeByte : Nat → Byte

/-- The offsets of the first debt ticks, fixed for the part (R140): a free value. -/
opaque firstTick : Nat → Nat

/-- The correctable errors that a bank finds in what it senses, by time and place (R124): a free value. -/
opaque correctable : Nat → Nat

/-- Whether the route table, with some links out of service, leads to a device: the layout of a route entry is not in the
spec (R415). A free value. -/
opaque routed : List Word → List Nat → Nat → Bool

/-- Which request to another package is dropped when one times out (R415). A free value. -/
opaque timedOut : Nat → Nat

/-- TVAL of the trap that a REF takes in reduced service: the spec names a row index, and a REF has none (R419). A free
value. -/
opaque refTval : Nat → Word

/-- Which of the free accumulator slots a binding takes: the spec names none (R224, R238). A free value. -/
opaque pickSlot : Nat → Nat

/-- Blocks of 64 bytes that a running copy command has moved, or still moves, when it is suspended (R329): a matter of time.
A free value. -/
opaque stopBlocks : Nat → Nat

/-- The units that each core receives for one window of 1024 ck under a power limit: the unit is calibrated per part (R417).
A free value. -/
opaque powerShare : Nat → Nat

/-- The set of a cache or a slice that a line belongs to, and the lines that a set holds: the organisation of sets is not in the
spec (R245). Free values. -/
opaque cacheSet : Nat → Nat
opaque cacheWays : Nat

/-- What the telemetry of the power block reads at a time: the average power and the energy (R416). A free value. -/
opaque telemetry : Nat → Nat × Nat

/-- Row words of one bank: groups, allottable rows of a group (R3). -/
abbrev allottable : Nat := 508
/-- Bytes of a row and of a latch (R3, R114). -/
abbrev rowBytes : Nat := 8192
/-- Bytes of a core's pool (R2). -/
abbrev poolBytes : Nat := 1572864
/-- Bytes that the pool cache of a core never exceeds (R243), and lines of a slice (R255). -/
abbrev cacheBytes : Nat := 1310720
abbrev sliceLines : Nat := 65536
/-- Bytes of a core's vault (R2, R247). -/
abbrev vaultBytes : Nat := 1048576
/-- Cores of a package (R2). -/
abbrev cores : Nat := 2048
/-- Convoys of a hart that may have issued and not retired (R61). -/
abbrev convoyWindow : Nat := 16
/-- Slots of the loop buffer (R72). -/
abbrev loopSlots : Nat := 64
/-- Entries of the translation cache of a core (R279). -/
abbrev atcEntries : Nat := 512
/-- Entries of the matrix queue of a core, and of one gang in it (R227). -/
abbrev matrixQueue : Nat := 16
abbrev matrixPerGang : Nat := 4
/-- Entries of the write queue of a bank (R286). -/
abbrev writeQueue : Nat := 64
/-- Reductions a hart may have outstanding (R296). -/
abbrev redLimit : Nat := 256
/-- Entries of the Sifter's own queue (R343). -/
abbrev sifterQueue : Nat := 4096
/-- Entries of the launch table (R392). -/
abbrev launchEntries : Nat := 4096
/-- The sweep cost that a convoy may not exceed, in ck (R190). -/
abbrev sweepLimit : Nat := 96

end Sys2Proof.Config
end

