-- ==== Sys2Proof/Syntax.lean ====
section
/-! DEFINITION. The instructions of the KD16 as syntax: the instruction words of the opcode map (R40) with their
operands and modifiers as typed fields, and the events of the opcode table with what each event names. -/

namespace Sys2Proof

/-- A scalar register number (R85). -/
abbrev XReg := Fin 64
/-- A predicate number (R85). -/
abbrev PReg := Fin 16
/-- A latch of the hart's own bank, which is also a group number (R114). -/
abbrev Lat := Fin 4
/-- An element mask number (R179). -/
abbrev Msk := Fin 8
/-- A logical accumulator slot (R223). -/
abbrev Acc := Fin 6

/-- The hint of a word (R18). The reserved code is refused by the decoder. -/
inductive Hint where
  | none | giveway | early
deriving DecidableEq, Repr

/-- The fields common to every word but PFX (R14): C, the guard, STALL and HINT. -/
structure Hdr where
  /-- C: the convoy continues with the next word -/
  c : Bool
  /-- GN: guard negate -/
  gn : Bool
  /-- GP: guard predicate -/
  gp : PReg
  /-- STALL, 0 to 63 ck -/
  stall : BitVec 6
  hint : Hint
deriving DecidableEq, Repr

/-- The part of the long immediate that a class-10 operand takes (R35). -/
inductive LongSel where
  | full
  /-- a 32-bit half, sign-extended; true is the high half -/
  | sx (hi : Bool)
  /-- a 32-bit half, zero-extended; true is the high half -/
  | zx (hi : Bool)
deriving DecidableEq, Repr

/-- A scalar source: an x register, the short immediate or a part of the long immediate (R20, R91). -/
inductive Src where
  | x (r : XReg)
  | imm (v : BitVec 18)
  | long (s : LongSel)
deriving DecidableEq, Repr

/-- A destination that is an x or a p register. -/
inductive XP where
  | x (r : XReg)
  | p (r : PReg)
deriving DecidableEq, Repr

/-- A gang-addressed latch `og.bk` (R21, R22). -/
structure GLat where
  bank : Fin 16
  g : Lat
deriving DecidableEq, Repr

/-- A latch source of mark Lg: the hart's own or a latch of the gang (R182). -/
inductive LatRef where
  | own (g : Lat)
  | gang (l : GLat)
deriving DecidableEq, Repr

/-- A lane source of mark Lg or S (R182). -/
inductive LOp where
  | lat (l : LatRef)
  | s (v : Src)
deriving DecidableEq, Repr

/-- The mask modifier of a lane word (R181): ME, MN and MI. -/
structure MaskMod where
  me : Bool
  mn : Bool
  mi : Msk
deriving DecidableEq, Repr

/-- Scalar floating-point formats (R100). -/
inductive FFmt where
  | f64 | f32 | bf16 | f16
deriving DecidableEq, Repr

/-- The rounding field of a scalar floating-point word (R100). -/
inductive FRm where
  | dyn | rne | rtz | rup | rdn
deriving DecidableEq, Repr

/-- Conversion types of FCVT (R106). -/
inductive CvtTy where
  | f64 | f32 | bf16 | f16 | i64 | n64 | i32 | n32
deriving DecidableEq, Repr

/-- Conditions of CMP (R98). -/
inductive Cond where
  | eq | ne | lt | ge | ltn | gen | le | gt | len | gtn | tst | ntst
deriving DecidableEq, Repr

/-- Conditions of FCMP and VFCMP (R105). -/
inductive FCond where
  | eq | ne | lt | le | gt | ge | un | ord
deriving DecidableEq, Repr

/-- Conditions of VCMP (R194). -/
inductive VCond where
  | eq | ne | lt | ge | le | gt
deriving DecidableEq, Repr

/-- Conditions of WAIT (R333). -/
inductive WCond where
  | eq | ne | lt | ge | ltn | gen
deriving DecidableEq, Repr

/-- Operations of PAND (R99). -/
inductive POp where
  | and | or | xor | andn | orn | nand | nor | xnor
deriving DecidableEq, Repr

/-- Sizes of SEXT and ZEXT (R96). -/
inductive ExtSize where
  | b8 | b16 | b32
deriving DecidableEq, Repr

/-- The file pairs of MOV (R97). -/
inductive MovForm where
  | xs (d : XReg) (a : Src)
  | xp (d : XReg) (a : PReg)
  | pp (d : PReg) (a : PReg)
  | px (d : PReg) (a : XReg)
deriving DecidableEq, Repr

/-- Modes of GMASK with a predicate destination (R83). -/
inductive BallotMode where
  | any | all | none
deriving DecidableEq, Repr

/-- The destination of GMASK (R83). -/
inductive GmaskDst where
  | x (d : XReg)
  | p (d : PReg) (mode : BallotMode)
deriving DecidableEq, Repr

/-- Selectors of HARTID (R84). -/
inductive HidSel where
  | bank | gbase | gsize | rank | core | cluster | stand | dev | pcore | phart | hid
deriving DecidableEq, Repr

/-- Forms of ROWQ (R136). -/
inductive RowqForm where
  | state (g : Lat) | plo (g : Lat) | phi (g : Lat) | allot
deriving DecidableEq, Repr

/-- Source formats of VCVT, codes 0x0 to 0xB of R146 (R198). -/
inductive CvtFmt where
  | i8 | n8 | i16 | n16 | i32 | n32 | i64 | f32 | bf16 | f16 | e4m3 | e5m2
deriving DecidableEq, Repr

/-- Wide formats of the scaled conversions (R199). -/
inductive WideFmt where
  | f32 | bf16 | f16
deriving DecidableEq, Repr

/-- B formats of the matrix unit (R218, R233). -/
inductive BFmt where
  | i8 | n8 | bf16 | e4m3 | e5m2 | e2m1 | lq8s | lq8w
deriving DecidableEq, Repr

/-- A formats of the matrix unit (R218, R233). -/
inductive AFmt where
  | i8 | n8 | bf16 | e4m3 | e5m2 | e2m1
deriving DecidableEq, Repr

/-- Formats of ACCRD and ACCWR (R237). -/
inductive AccFmt where
  | i8 | n8 | i16 | n16 | i32 | n32 | f32 | bf16 | f16 | e4m3 | e5m2
deriving DecidableEq, Repr

/-- The completion of an engine operation and its specifier register (R239, R351). -/
inductive CompSpec where
  | none | word (spec : XReg) | bar (spec : XReg)
deriving DecidableEq, Repr

/-- Selectors of TSTAT (R240). -/
inductive TstatSel where
  | slot (a : Acc) | half | budget | satclr (a : Acc)
deriving DecidableEq, Repr

/-- Element types of LD (R263). -/
inductive LdTy where
  | i8 | n8 | i16 | n16 | i32 | n32 | x64
deriving DecidableEq, Repr

/-- Element sizes of ST (R263). -/
inductive StSz where
  | b8 | b16 | b32 | b64
deriving DecidableEq, Repr

/-- The range of CINV and CWB (R268). -/
inductive CRange where
  | all
  | range (base : XReg) (len : Src)
deriving DecidableEq, Repr

/-- Operations of AMOP, AMO, RED and REDV (R269). -/
inductive AOp where
  | add | and | or | xor | min | max | minn | maxn | swap | cas | fadd | fmax
deriving DecidableEq, Repr

/-- Sizes of CAS (R291). -/
inductive CasSize where
  | d | w | q
deriving DecidableEq, Repr

/-- The address form of REDV (R295). -/
inductive RedvForm where
  | disp (b : Src)
  | ix (oi : Lat)
deriving DecidableEq, Repr

/-- Scopes (R296, R302). -/
inductive Scope where
  | agent | hart | gang | core | cluster | stand | package | board | pod | fabric | system
deriving DecidableEq, Repr

/-- Forms of ESTAT (R337). -/
inductive EstatForm where
  | slot (b : Src) | chan (b : Src) | mine
deriving DecidableEq, Repr

/-- Selectors of SFSTAT (R361). -/
inductive SfstatSel where
  | queue | state | rounds
deriving DecidableEq, Repr

/-- The control registers of R380, in the order of their numbers. -/
inductive Csr where
  | vl | vt | rc | ei | tm | tn | gm | hid | ctx | pri | fb | sb | cb | schk | fpc | fps | wdt | tvec | tcause
  | tpc | tval | refm | tscr
deriving DecidableEq, Repr

/-- Selectors of CTXQ (R388). -/
inductive CtxqSel where
  | id | slot | class | nres | time | moves
deriving DecidableEq, Repr

/-- The rings driven by host registers: the four host queues, the journal and the fault log (R395, R410). -/
inductive RingId where
  | queue (c : Fin 4)
  | journal
  | faultLog
deriving DecidableEq, Repr

/-- The element types of REDV (R295). -/
inductive RedvType where
  | i32 | i64 | f32 | bf16
deriving DecidableEq, Repr

/-- Where a request from another package comes from: its device, and the class that the request carries (R138, R287). -/
structure FabricAgent where
  dev : BitVec 21
  cls : Fin 4
deriving DecidableEq, Repr

/-- A request that arrives from another package (R282). A reduction of a line gives the element indices in the line and their values,
in the order in which they apply. -/
inductive FabricReq where
  | read (pa : BitVec 60) (n : Nat)
  | write (pa : BitVec 60) (bytes : List Byte)
  | amo (op : AOp) (w : Bool) (pa : BitVec 60) (b : Word)
  | cas (z : CasSize) (pa : BitVec 60) (cmp new : BitVec 128)
  | red (op : AOp) (w : Bool) (pa : BitVec 60) (b : Word)
  | redv (op : AOp) (t : RedvType) (pa : BitVec 60) (parts : List (Fin 16 × Word))
deriving DecidableEq, Repr

/-- The fabric registers that the host writes (R415). -/
inductive FabricReg where
  | device | board | pod | fsize
  | route (i : Fin 64)
deriving DecidableEq, Repr

/-- Who issued a column access: a resident context, the engine command of a launch, the host, or another package, whose fabric
request carries a class (R138). -/
inductive ColSource where
  | context (core : Fin 2048) (slot : Fin 3)
  | launch (seq : Nat)
  | host
  | fabric (cls : Fin 4)
deriving DecidableEq, Repr

/-- What a column access at a bank's port carries (R137, R138). -/
inductive ColKind where
  | read (n : Nat)
  | write (bytes : List Byte)
deriving DecidableEq, Repr

/-- A host answer to an ATS Translation Request (R281). -/
inductive AtsAnswer where
  | refused
  | granted (host : Word) (r w : Bool)
deriving DecidableEq, Repr

/-- The reason a class change or an end of a quantum starts a switch is carried by the row's own constructor; the
constructors below follow spec/opcode_table.json row by row. -/
inductive Instr where
  -- scalar integer (R93 to R99)
  | add (h : Hdr) (w : Bool) (d : XReg) (a b : Src)
  | sub (h : Hdr) (w : Bool) (d : XReg) (a b : Src)
  | mul (h : Hdr) (w : Bool) (d : XReg) (a b : Src)
  | mulh (h : Hdr) (d : XReg) (a b : Src)
  | mulhn (h : Hdr) (d : XReg) (a b : Src)
  | div (h : Hdr) (w : Bool) (d : XReg) (a b : Src)
  | divn (h : Hdr) (w : Bool) (d : XReg) (a b : Src)
  | rem (h : Hdr) (w : Bool) (d : XReg) (a b : Src)
  | remn (h : Hdr) (w : Bool) (d : XReg) (a b : Src)
  | and (h : Hdr) (d : XReg) (a b : Src)
  | or (h : Hdr) (d : XReg) (a b : Src)
  | xor (h : Hdr) (d : XReg) (a b : Src)
  | andn (h : Hdr) (d : XReg) (a b : Src)
  | shl (h : Hdr) (w : Bool) (d : XReg) (a b : Src)
  | shr (h : Hdr) (w : Bool) (d : XReg) (a b : Src)
  | sar (h : Hdr) (w : Bool) (d : XReg) (a b : Src)
  | rol (h : Hdr) (w : Bool) (d : XReg) (a b : Src)
  | fshl (h : Hdr) (d : XReg) (a b : Src)
  | fshr (h : Hdr) (d : XReg) (a b : Src)
  | bfx (h : Hdr) (pos len1 : BitVec 6) (d : XReg) (a : Src)
  | bfxn (h : Hdr) (pos len1 : BitVec 6) (d : XReg) (a : Src)
  | bfi (h : Hdr) (pos len1 : BitVec 6) (d : XReg) (a : Src)
  | clz (h : Hdr) (w : Bool) (d : XReg) (a : Src)
  | ctz (h : Hdr) (w : Bool) (d : XReg) (a : Src)
  | popc (h : Hdr) (w : Bool) (d : XReg) (a : Src)
  | brev (h : Hdr) (w : Bool) (d : XReg) (a : Src)
  | bswap (h : Hdr) (w : Bool) (d : XReg) (a : Src)
  | min (h : Hdr) (w : Bool) (d : XReg) (a b : Src)
  | max (h : Hdr) (w : Bool) (d : XReg) (a b : Src)
  | minn (h : Hdr) (w : Bool) (d : XReg) (a b : Src)
  | maxn (h : Hdr) (w : Bool) (d : XReg) (a b : Src)
  | abs (h : Hdr) (w : Bool) (d : XReg) (a : Src)
  | sel (h : Hdr) (p : PReg) (neg : Bool) (d : XReg) (a b : Src)
  | mov (h : Hdr) (m : MovForm)
  | sext (h : Hdr) (size : ExtSize) (d : XReg) (a : Src)
  | zext (h : Hdr) (size : ExtSize) (d : XReg) (a : Src)
  | cmp (h : Hdr) (cond : Cond) (w : Bool) (d : XP) (a b : Src)
  | lea (h : Hdr) (k : BitVec 2) (d : XReg) (a b : Src)
  | pand (h : Hdr) (op : POp) (d a b : PReg)
  -- scalar floating point (R100 to R106)
  | fadd (h : Hdr) (f : FFmt) (rm : FRm) (d : XReg) (a b : Src)
  | fsub (h : Hdr) (f : FFmt) (rm : FRm) (d : XReg) (a b : Src)
  | fmul (h : Hdr) (f : FFmt) (rm : FRm) (d : XReg) (a b : Src)
  | fdiv (h : Hdr) (f : FFmt) (rm : FRm) (d : XReg) (a b : Src)
  | fsqrt (h : Hdr) (f : FFmt) (rm : FRm) (d : XReg) (a : Src)
  | fma (h : Hdr) (f : FFmt) (rm : FRm) (np na : Bool) (d : XReg) (a b : Src)
  | fmin (h : Hdr) (f : FFmt) (d : XReg) (a b : Src)
  | fmax (h : Hdr) (f : FFmt) (d : XReg) (a b : Src)
  | fabs (h : Hdr) (f : FFmt) (d : XReg) (a : Src)
  | fneg (h : Hdr) (f : FFmt) (d : XReg) (a : Src)
  | fcmp (h : Hdr) (f : FFmt) (cond : FCond) (d : XP) (a b : Src)
  | fcvt (h : Hdr) (dty sty : CvtTy) (rm : FRm) (d : XReg) (a : Src)
  | fclass (h : Hdr) (f : FFmt) (d : XReg) (a : Src)
  | frnd (h : Hdr) (f : FFmt) (rm : FRm) (d : XReg) (a : Src)
  -- control (R41, R76 to R84, R107, R108)
  | nop (h : Hdr)
  | br (h : Hdr) (disp : Src)
  | brx (h : Hdr) (a : XReg) (b : Src)
  | call (h : Hdr) (l : XReg) (disp : Src)
  | callx (h : Hdr) (l : XReg) (a : XReg) (b : Src)
  | ret (h : Hdr) (a : XReg)
  | subbr (h : Hdr) (d : XReg) (disp : Src) (amount : Src)
  | brd (h : Hdr) (target joinAt : BitVec 18)
  | join (h : Hdr)
  | capt (h : Hdr) (n1 : BitVec 6) (body : BitVec 18)
  | replay (h : Hdr) (n1 : BitVec 6) (body : BitVec 18) (stride : Src)
  | exit (h : Hdr)
  | yield (h : Hdr)
  | gmask (h : Hdr) (d : GmaskDst) (a : PReg)
  | hartid (h : Hdr) (sel : HidSel) (d : XReg)
  -- row control (R126 to R136)
  | act (h : Hdr) (g : Lat) (row : Src)
  | actw (h : Hdr) (g : Lat)
  | wb (h : Hdr) (g : Lat) (row : Src)
  | wbp (h : Hdr) (g : Lat) (row : Src)
  | pre (h : Hdr) (g : Lat)
  | prea (h : Hdr)
  | ref (h : Hdr) (g : Lat)
  | refq (h : Hdr) (d : XReg) (g : Option Lat)
  | rowq (h : Hdr) (d : XReg) (form : RowqForm)
  | rowCommandStart (core : Fin 2048) (bank : Fin 16)
  -- lanes (R191 to R208)
  | setvl (h : Hdr) (d : XReg) (n : Src)
  | setvt (h : Hdr) (d : XReg) (v : Src)
  | vadd (h : Hdr) (m : MaskMod) (d : Lat) (a b : LOp)
  | vsub (h : Hdr) (m : MaskMod) (d : Lat) (a b : LOp)
  | vmul (h : Hdr) (m : MaskMod) (d : Lat) (a b : LOp)
  | vmulh (h : Hdr) (m : MaskMod) (d : Lat) (a b : LOp)
  | vmad (h : Hdr) (m : MaskMod) (d : Lat) (a b : LOp)
  | vmin (h : Hdr) (m : MaskMod) (d : Lat) (a b : LOp)
  | vmax (h : Hdr) (m : MaskMod) (d : Lat) (a b : LOp)
  | vabs (h : Hdr) (m : MaskMod) (d : Lat) (a : LOp)
  | vneg (h : Hdr) (m : MaskMod) (d : Lat) (a : LOp)
  | vand (h : Hdr) (m : MaskMod) (d : Lat) (a b : LOp)
  | vor (h : Hdr) (m : MaskMod) (d : Lat) (a b : LOp)
  | vxor (h : Hdr) (m : MaskMod) (d : Lat) (a b : LOp)
  | vnot (h : Hdr) (m : MaskMod) (d : Lat) (a : LOp)
  | vshl (h : Hdr) (m : MaskMod) (d : Lat) (a b : LOp)
  | vshr (h : Hdr) (m : MaskMod) (d : Lat) (a b : LOp)
  | vsar (h : Hdr) (m : MaskMod) (d : Lat) (a b : LOp)
  | vsadd (h : Hdr) (m : MaskMod) (d : Lat) (a b : LOp)
  | vssub (h : Hdr) (m : MaskMod) (d : Lat) (a b : LOp)
  | vavg (h : Hdr) (m : MaskMod) (d : Lat) (a b : LOp)
  | vclz (h : Hdr) (m : MaskMod) (d : Lat) (a : LOp)
  | vpopc (h : Hdr) (m : MaskMod) (d : Lat) (a : LOp)
  | vfadd (h : Hdr) (m : MaskMod) (d : Lat) (a b : LOp)
  | vfsub (h : Hdr) (m : MaskMod) (d : Lat) (a b : LOp)
  | vfmul (h : Hdr) (m : MaskMod) (d : Lat) (a b : LOp)
  | vfma (h : Hdr) (m : MaskMod) (np na : Bool) (d : Lat) (a b : LOp)
  | vfdiv (h : Hdr) (m : MaskMod) (d : Lat) (a b : LOp)
  | vfsqrt (h : Hdr) (m : MaskMod) (d : Lat) (a : LOp)
  | vfrcp (h : Hdr) (m : MaskMod) (d : Lat) (a : LOp)
  | vfmin (h : Hdr) (m : MaskMod) (d : Lat) (a b : LOp)
  | vfmax (h : Hdr) (m : MaskMod) (d : Lat) (a b : LOp)
  | vfabs (h : Hdr) (m : MaskMod) (d : Lat) (a : LOp)
  | vfneg (h : Hdr) (m : MaskMod) (d : Lat) (a : LOp)
  | vcmp (h : Hdr) (m : MaskMod) (cond : VCond) (d : Msk) (a b : LOp)
  | vfcmp (h : Hdr) (m : MaskMod) (cond : FCond) (d : Msk) (a b : LOp)
  | mand (h : Hdr) (d a b : Msk)
  | mor (h : Hdr) (d a b : Msk)
  | mxor (h : Hdr) (d a b : Msk)
  | mnot (h : Hdr) (d a : Msk)
  | mpopc (h : Hdr) (m : MaskMod) (d : XReg) (a : Msk)
  | mfirst (h : Hdr) (m : MaskMod) (d : XReg) (a : Msk)
  | vsel (h : Hdr) (m : MaskMod) (d : Lat) (a b : LOp)
  | vcvt (h : Hdr) (m : MaskMod) (sty : CvtFmt) (part : BitVec 3) (d : Lat) (a : LatRef)
  | vmxq (h : Hdr) (wf : WideFmt) (seg part : BitVec 4) (d : Lat) (a : LatRef) (b : Lat)
  | vmxd (h : Hdr) (wf : WideFmt) (seg part : BitVec 4) (d : Lat) (a : LatRef) (b : Lat)
  | vlqq (h : Hdr) (wf : WideFmt) (seg part : BitVec 4) (d : Lat) (a : LatRef) (b : Lat)
  | vlqd (h : Hdr) (wf : WideFmt) (seg part : BitVec 4) (d : Lat) (a : LatRef) (b : Lat)
  | vmov (h : Hdr) (m : MaskMod) (d : Lat) (a : LatRef)
  | vsplat (h : Hdr) (m : MaskMod) (d : Lat) (a : Src)
  | vext (h : Hdr) (d : XReg) (a : LatRef) (b : Src)
  | vins (h : Hdr) (d : Lat) (a b : Src)
  | vperm (h : Hdr) (m : MaskMod) (d : Lat) (a : LatRef) (b : Lat)
  | vgath (h : Hdr) (m : MaskMod) (d : Lat) (a : Lat) (b : Lat)
  | vslide (h : Hdr) (m : MaskMod) (d : Lat) (a : LatRef) (b : Src)
  | vcomp (h : Hdr) (m : MaskMod) (d : Lat) (a : LatRef)
  | vexp (h : Hdr) (m : MaskMod) (d : Lat) (a : LatRef)
  | viota (h : Hdr) (rank : Bool) (m : MaskMod) (d : Lat) (b : Src)
  | vreds (h : Hdr) (m : MaskMod) (d : XReg) (a : LatRef) (b : Src)
  | vredmin (h : Hdr) (m : MaskMod) (d : XReg) (a : LatRef) (b : Src)
  | vredmax (h : Hdr) (m : MaskMod) (d : XReg) (a : LatRef) (b : Src)
  | vfreds (h : Hdr) (m : MaskMod) (wide : Bool) (d : XReg) (a : LatRef) (b : Src)
  | vscan (h : Hdr) (m : MaskMod) (excl : Bool) (d : Lat) (a : LatRef) (b : Option Msk)
  | vsortk (h : Hdr) (m : MaskMod) (desc : Bool) (d : Lat) (a : LatRef) (b : Lat)
  | vuniq (h : Hdr) (m : MaskMod) (last : Bool) (d : Msk) (a : LatRef)
  | vectorSegmentStart (core : Fin 2048) (bank : Fin 16)
  -- shuffle bus (R215)
  | rshuf (h : Hdr) (d a : Lat) (b : Src)
  | rbcast (h : Hdr) (d a : Lat) (b : Src)
  | rxch (h : Hdr) (d a : Lat) (b : Src)
  | rrot (h : Hdr) (d a : Lat) (b : Src)
  | rseg (h : Hdr) (d a : Lat)
  | busSlotGrant (core : Fin 2048)
  -- matrix unit and accumulators (R233 to R240)
  | tload (h : Hdr) (bf : BFmt) (half : Bool) (tile : GLat) (scale : Option GLat)
  | tmma (h : Hdr) (af : AFmt) (half : Bool) (kq : BitVec 2) (z : Bool) (aseg : BitVec 3) (d : Acc) (a : GLat)
      (scale : Option GLat)
  | accz (h : Hdr) (edge : Bool) (a : Acc)
  | accrd (h : Hdr) (fmt : AccFmt) (d : Lat) (a : Acc) (row : Src)
  | accwr (h : Hdr) (fmt : AccFmt) (d : Acc) (a : Lat) (row : Src)
  | accclm (h : Hdr) (int : Bool) (d : PReg) (a : Acc)
  | accrel (h : Hdr) (a : Acc)
  | accsv (h : Hdr) (comp : CompSpec) (addr : XReg) (a : Acc)
  | accld (h : Hdr) (comp : CompSpec) (a : Acc) (addr : XReg)
  | tstat (h : Hdr) (sel : TstatSel) (d : XReg)
  | matrixOpStart (core : Fin 2048) (k : Fin 16)
  | matrixOpComplete (core : Fin 2048) (k : Fin 16)
  | accTransferComplete (core : Fin 2048) (k : Nat)
  -- pool and scalar memory (R261 to R269)
  | ld (h : Hdr) (ty : LdTy) (na : Bool) (d : XReg) (base : XReg) (disp : Src)
  | st (h : Hdr) (sz : StSz) (na : Bool) (s : XReg) (base : XReg) (disp : Src)
  | lde (h : Hdr) (d : XReg) (base : XReg) (disp : Src)
  | ste (h : Hdr) (s : XReg) (base : XReg) (disp : Src)
  | ldf (h : Hdr) (d : XReg) (base : XReg) (disp : Src)
  | stf (h : Hdr) (s : XReg) (base : XReg) (disp : Src)
  | tagr (h : Hdr) (blk : Bool) (d : XReg) (base : XReg) (disp : Src)
  | tagw (h : Hdr) (blk : Bool) (s : XReg) (base : XReg) (disp : Src)
  | pref (h : Hdr) (ex : Bool) (base : XReg) (disp : Src)
  | ldv (h : Hdr) (n1 : BitVec 3) (d : XReg) (base : XReg) (disp : Src)
  | stv (h : Hdr) (n1 : BitVec 3) (s : XReg) (base : XReg) (disp : Src)
  | cinv (h : Hdr) (r : CRange)
  | cwb (h : Hdr) (r : CRange)
  | amop (h : Hdr) (op : AOp) (w : Bool) (d : XReg) (a : XReg) (b : Src)
  | tagWaitRetry (core : Fin 2048) (bank : Fin 16)
  | tagWaitTimeout (core : Fin 2048) (bank : Fin 16)
  | cacheLineEvict (core : Fin 2048) (pa : BitVec 60)
  | proxyEvict (stand : Fin 16) (pa : BitVec 60)
  | hwPrefetch (core : Fin 2048) (pa : BitVec 60)
  -- global memory and bank atomics (R291 to R298)
  | amo (h : Hdr) (op : AOp) (w : Bool) (d : XReg) (a : XReg) (b : Src)
  | cas (h : Hdr) (size : CasSize) (d : XReg) (a : XReg) (b : XReg)
  | red (h : Hdr) (op : AOp) (w : Bool) (a : XReg) (b : Src)
  | redv (h : Hdr) (m : MaskMod) (op : AOp) (d : Lat) (a : XReg) (form : RedvForm)
  | redf (h : Hdr) (scope : Scope)
  | pgq (h : Hdr) (pa : Bool) (d : XReg) (base : XReg) (disp : Src)
  | writeQueueAccept (k : Nat)
  | writeQueueApply (core : Fin 2048) (bank : Fin 16)
  | atomicResultReturn (core : Fin 2048) (bank : Fin 16)
  | columnAccessArrival (pa : BitVec 60) (kind : ColKind) (by_ : ColSource)
  | columnAccessServe (core : Fin 2048) (bank : Fin 16)
  | pageWalk (core : Fin 2048) (bank : Fin 16) (va : Word)
  | atsCompletion (core : Fin 2048) (ctx : BitVec 12) (va : Word) (answer : AtsAnswer)
  | atsInvalidation (host : Word) (len : Word)
  -- fences (R312 to R314)
  | fence (h : Hdr) (scope : Scope) (pred succ : BitVec 8)
  | ifence (h : Hdr)
  -- engines and waits (R333 to R342)
  | enq (h : Hdr) (m : MaskMod) (d : Msk) (a : Lat) (n : Src)
  | enq1 (h : Hdr) (d : XReg) (a : XReg)
  | estat (h : Hdr) (form : EstatForm) (d : XReg)
  | esusp (h : Hdr) (d : XReg) (b : Src)
  | bari (h : Hdr) (a : XReg) (b : Src)
  | barp (h : Hdr) (d : XReg) (a : XReg) (b : Src)
  | bara (h : Hdr) (d : XReg) (a : XReg) (b : Src)
  | barw (h : Hdr) (d : XReg) (a : XReg) (b : Src)
  | wait (h : Hdr) (cond : WCond) (d : XReg) (a : XReg) (b : Src)
  | waitv (h : Hdr) (all : Bool) (n1 : BitVec 3) (d : XReg) (a : XReg)
  | barrierWaitWake (core : Fin 2048) (bank : Fin 16)
  | wordWaitSatisfied (core : Fin 2048) (bank : Fin 16)
  | copyCommandStart (core : Fin 2048) (ch : Fin 8)
  | copyCompletion (core : Fin 2048) (slot : Fin 32)
  | copyFault (core : Fin 2048) (slot : Fin 32)
  | copyPermissionStop (core : Fin 2048) (slot : Fin 32)
  | savedCommandReentry (core : Fin 2048) (slot : Fin 3)
  -- Sifter (R355 to R361)
  | sfcfg (h : Hdr) (d : PReg) (a : XReg) (b : Src)
  | sfpush (h : Hdr) (m : MaskMod) (d : XReg) (a : Lat) (n : Src)
  | sfround (h : Hdr) (comp : CompSpec) (list : XReg) (max : Src)
  | sfdrain (h : Hdr) (rel : Bool) (comp : CompSpec) (dst : XReg) (max : Src)
  | sfstat (h : Hdr) (sel : SfstatSel) (d : XReg)
  | sifterRound (core : Fin 2048)
  | sifterDrainRun (core : Fin 2048)
  | pushEnterQueue (core : Fin 2048)
  | sifterSave (core : Fin 2048)
  -- system (R382 to R388)
  | csrr (h : Hdr) (d : XReg) (csr : Csr)
  | csrw (h : Hdr) (csr : Csr) (a : Src)
  | csrs (h : Hdr) (csr : Csr) (a : Src)
  | csrc (h : Hdr) (csr : Csr) (a : Src)
  | trap (h : Hdr) (code : BitVec 8) (a : Src)
  | eret (h : Hdr)
  | halt (h : Hdr) (a : Src)
  | wdog (h : Hdr) (d : XReg) (set : Option Src)
  | ctxq (h : Hdr) (sel : CtxqSel) (d : XReg)
  | bkpt (h : Hdr) (a : BitVec 18)
  -- the long immediate (R34)
  | pfx (imm : Word)
  -- launch (R404 to R407)
  | launch (h : Hdr) (d : XReg) (base : XReg) (disp : Src)
  | depdec (h : Hdr) (d : XReg) (a : XReg) (n : Src)
  | depq (h : Hdr) (d : XReg) (a : XReg)
  -- traps taken at a boundary, refresh and the watchdog
  | softwareTrapTaken (core : Fin 2048) (bank : Fin 16)
  | engineTrapTaken (core : Fin 2048) (bank : Fin 16)
  | debtTick (core : Fin 2048) (bank : Fin 16)
  | hotChange (stand : Fin 16) (hot : Bool)
  | autoRefInsert (core : Fin 2048) (bank : Fin 16) (g : Lat)
  | refreshDeadlineTrap (core : Fin 2048) (bank : Fin 16)
  | forcedRefresh (core : Fin 2048) (bank : Fin 16) (g : Lat)
  | watchdogExpiry (core : Fin 2048) (slot : Fin 3)
  -- the scheduler of a core
  | class0Request (core : Fin 2048)
  | quantumExpiry (core : Fin 2048)
  | idleYield (core : Fin 2048)
  | ageingPromotion (core : Fin 2048) (slot : Fin 3)
  | contextSwitch (core : Fin 2048)
  | eviction (core : Fin 2048) (slot : Fin 3)
  | admission (seq : Nat) (k : Nat) (core : Fin 2048) (slot : Fin 3)
  | debugStop (core : Fin 2048) (slot : Fin 3)
  | debugArm (ctx : BitVec 12) (on : Bool)
  | debugStopRequest (ctx : BitVec 12)
  | debugResume (ctx : BitVec 12)
  -- launches
  | queueEntryConsume (c : Fin 4)
  | qtail (c : Fin 4) (v : Word)
  | launchLeaveWaits (seq : Nat)
  | launchEnd (seq : Nat)
  | placementEnd (seq : Nat) (k : Nat)
  | journalHead (v : Word)
  | faultLogHead (v : Word)
  | fresRetry (seq : BitVec 62)
  | fresDeliver (seq : BitVec 62)
  | fresEnd (seq : BitVec 62)
  | tqseq (v : Word)
  -- the host interface
  | tinv (v : Word)
  | tinvl (v : Word)
  | translationInvalidationDone
  | errstClear (v : Word)
  | deviceReset
  | placeEnable (v : Word)
  /-- a write of PLIM; none: the host reads the power block -/
  | plim (v : Option Word)
  /-- a write of a register; none: the host reads it -/
  | fabricConfigWrite (r : FabricReg) (v : Option Word)
  /-- a host write at an offset of BAR0; none: the host reads there -/
  | registerWrite (off : BitVec 20) (v : Option Word)
  | hostBar2Read (off : BitVec 36) (n : Nat)
  | hostBar2Write (off : BitVec 36) (bytes : List Byte)
  | hostBar4Access (off : BitVec 32) (write : Option Word)
  | linkReset
  | serviceMailbox (core : Fin 2048) (bank : Fin 16) (g : Lat)
  | fabricArrival (src : FabricAgent) (req : FabricReq)
  | linkFailure (link : Fin 32)
  | fabricRequestTimeout
  | budgetWindow
  | retentionMeasurement (core : Fin 2048) (bank : Fin 16) (g : Lat) (weak : Bool)
  | trainingComplete
  | fullServiceEntry
  | bankOwnPrecharge (core : Fin 2048) (bank : Fin 16) (g : Lat)
  | commandSuspensionStop (core : Fin 2048) (slot : Fin 32) (blocks : Nat)
  | watchdogTrapTaken (core : Fin 2048) (bank : Fin 16)
  | qsize (r : RingId) (v : Word)
  | qbase (r : RingId) (v : Word)
  | tableQueryResult
  | rowTagWrite (core : Fin 2048) (bank : Fin 16) (g : Lat) (row : Fin 512) (tag : BitVec 4)
deriving DecidableEq, Repr

end Sys2Proof
end

