-- ==== Sys2Proof/WellFormed.lean ====
section
/-! DEFINITION. Which instructions are well formed: the operand classes and field values that the encoding tables of the
spec accept (R15, R24, R33, R90, R91, R101, R107, R181, R199, R233, R261, R291, R312, R333, R355, R382, R404). -/

namespace Sys2Proof

/-- A guard of `p0` is not negated (R15). -/
def Hdr.wf (h : Hdr) : Bool := !(h.gn && h.gp == 0)
/-- A terminal word ends its convoy (R33). -/
def Hdr.wfTerm (h : Hdr) : Bool := h.wf && !h.c
/-- A terminal word whose guard must be `p0` (R77, R79, R382). -/
def Hdr.wfPlain (h : Hdr) : Bool := !h.c && !h.gn && h.gp == 0

/-- Not a short immediate (R101). -/
def Src.notImm : Src → Bool
  | .imm _ => false
  | _ => true
/-- Not a long immediate. -/
def Src.notLong : Src → Bool
  | .long _ => false
  | _ => true
/-- Not a register: a displacement of class 01 or class 10. -/
def Src.notX : Src → Bool
  | .x _ => false
  | _ => true

/-- ME = 0 makes MI and MN zero (R181). -/
def MaskMod.wf (m : MaskMod) : Bool := m.me || (!m.mn && m.mi == 0)
/-- A mask is required (R196, R204). -/
def MaskMod.wfOn (m : MaskMod) : Bool := m.me

/-- The types of FCVT that are integers (R106). -/
def CvtTy.isInt : CvtTy → Bool
  | .i64 | .n64 | .i32 | .n32 => true
  | _ => false

/-- `pos + len` within 64 bits (R95). -/
def bfWf (pos len1 : BitVec 6) : Bool := pos.toNat + len1.toNat + 1 ≤ 64

/-- AMO operations (R291). -/
def AOp.forAmo : AOp → Bool
  | .cas => false
  | _ => true
/-- RED and REDV operations (R291). -/
def AOp.forRed : AOp → Bool
  | .swap | .cas => false
  | _ => true

/-- The latch is the hart's own latch `g`. -/
def LatRef.isOwn (l : LatRef) (g : Lat) : Bool :=
  match l with
  | .own k => k == g
  | .gang _ => false

/-- The words that write a second latch keep it apart from the others (R199, R200, R207). A source in file 6 is never
that latch, though a hart's own bank may be named there: the model's choice (log 39). -/
def scaleApart (d : Lat) (a : LatRef) (b : Lat) : Bool := b != d && !a.isOwn b

/-- Whether an instruction is well formed; an event row is, whatever it names. -/
def Instr.wellFormed : Instr → Bool
  | .add h _ _ _ _ | .sub h _ _ _ _ | .mul h _ _ _ _ | .mulh h _ _ _ | .mulhn h _ _ _ | .div h _ _ _ _
  | .divn h _ _ _ _ | .rem h _ _ _ _ | .remn h _ _ _ _ | .and h _ _ _ | .or h _ _ _ | .xor h _ _ _
  | .andn h _ _ _ | .shl h _ _ _ _ | .shr h _ _ _ _ | .sar h _ _ _ _ | .rol h _ _ _ _ | .fshl h _ _ _
  | .fshr h _ _ _ => h.wf
  | .bfx h p l _ _ | .bfxn h p l _ _ | .bfi h p l _ _ => h.wf && bfWf p l
  | .clz h _ _ _ | .ctz h _ _ _ | .popc h _ _ _ | .brev h _ _ _ | .bswap h _ _ _ | .min h _ _ _ _ | .max h _ _ _ _
  | .minn h _ _ _ _ | .maxn h _ _ _ _ | .abs h _ _ _ | .sel h _ _ _ _ _ | .mov h _ | .sext h _ _ _ | .zext h _ _ _
  | .cmp h _ _ _ _ _ | .lea h _ _ _ _ | .pand h _ _ _ _ => h.wf
  | .fadd h _ _ _ a b | .fsub h _ _ _ a b | .fmul h _ _ _ a b | .fdiv h _ _ _ a b | .fma h _ _ _ _ _ a b
  | .fmin h _ _ a b | .fmax h _ _ a b | .fcmp h _ _ _ a b => h.wf && a.notImm && b.notImm
  | .fsqrt h _ _ _ a | .fabs h _ _ a | .fneg h _ _ a | .fclass h _ _ a | .frnd h _ _ _ a => h.wf && a.notImm
  | .fcvt h dty sty _ _ a => h.wf && !(dty.isInt && sty.isInt) && (sty.isInt || a.notImm)
  | .nop h => h.wf
  | .br h d => h.wfTerm && d.notX
  | .brx h _ b => h.wfTerm && b.notLong
  | .call h _ d => h.wfTerm && d.notX
  | .callx h _ _ b => h.wfTerm && b.notLong
  | .ret h _ => h.wfTerm
  | .subbr h _ d _ => h.wfTerm && d.notX
  | .brd h _ _ => h.wfTerm
  | .join h => h.wfPlain
  | .capt h _ _ => h.wf
  | .replay h _ _ s => h.wfPlain && s.notLong
  | .exit h | .yield h => h.wfTerm
  | .gmask h _ _ | .hartid h _ _ => h.wf
  | .act h _ _ | .actw h _ | .wb h _ _ | .wbp h _ _ | .pre h _ | .prea h | .ref h _ | .refq h _ _ | .rowq h _ _ => h.wf
  | .rowCommandStart _ _ => true
  | .setvl h _ _ | .setvt h _ _ => h.wf
  | .vadd h m _ _ _ | .vsub h m _ _ _ | .vmul h m _ _ _ | .vmulh h m _ _ _ | .vmad h m _ _ _ | .vmin h m _ _ _
  | .vmax h m _ _ _ | .vabs h m _ _ | .vneg h m _ _ | .vand h m _ _ _ | .vor h m _ _ _ | .vxor h m _ _ _
  | .vnot h m _ _ | .vshl h m _ _ _ | .vshr h m _ _ _ | .vsar h m _ _ _ | .vsadd h m _ _ _ | .vssub h m _ _ _
  | .vavg h m _ _ _ | .vclz h m _ _ | .vpopc h m _ _ | .vfadd h m _ _ _ | .vfsub h m _ _ _ | .vfmul h m _ _ _
  | .vfma h m _ _ _ _ _ | .vfdiv h m _ _ _ | .vfsqrt h m _ _ | .vfrcp h m _ _ | .vfmin h m _ _ _ | .vfmax h m _ _ _
  | .vfabs h m _ _ | .vfneg h m _ _ | .vcmp h m _ _ _ _ | .vfcmp h m _ _ _ _ | .mpopc h m _ _ | .mfirst h m _ _ =>
      h.wf && m.wf
  | .mand h _ _ _ | .mor h _ _ _ | .mxor h _ _ _ | .mnot h _ _ => h.wf
  | .vsel h m _ _ _ | .vcomp h m _ _ | .vexp h m _ _ => h.wf && m.wfOn
  | .vcvt h m _ _ _ _ => h.wf && m.wf
  | .vmxq h _ _ _ d a b | .vlqq h _ _ _ d a b => h.wf && scaleApart d a b
  | .vmxd h _ _ _ _ _ _ | .vlqd h _ _ _ _ _ _ => h.wf
  | .vmov h m _ _ | .vsplat h m _ _ | .vperm h m _ _ _ | .vgath h m _ _ _ | .vslide h m _ _ _ | .vreds h m _ _ _
  | .vredmin h m _ _ _ | .vredmax h m _ _ _ | .vfreds h m _ _ _ _ | .vscan h m _ _ _ _ | .vuniq h m _ _ _ =>
      h.wf && m.wf
  | .vext h _ _ _ | .vins h _ _ _ => h.wf
  | .viota h rank m _ _ => h.wf && m.wf && (!rank || m.wfOn)
  | .vsortk h m _ d a b => h.wf && m.wf && scaleApart d a b
  | .vectorSegmentStart _ _ => true
  | .rshuf h _ _ _ | .rbcast h _ _ _ | .rxch h _ _ _ | .rrot h _ _ _ | .rseg h _ _ => h.wf
  | .busSlotGrant _ => true
  | .tload h _ _ _ _ | .tmma h _ _ _ _ _ _ _ _ | .accz h _ _ | .accrd h _ _ _ _ | .accwr h _ _ _ _ | .accclm h _ _ _
  | .accrel h _ | .accsv h _ _ _ | .accld h _ _ _ | .tstat h _ _ => h.wf
  | .matrixOpStart _ _ | .matrixOpComplete _ _ | .accTransferComplete _ _ => true
  | .ld h _ _ _ _ d | .st h _ _ _ _ d | .lde h _ _ d | .ste h _ _ d | .ldf h _ _ d | .stf h _ _ d | .tagr h _ _ _ d
  | .tagw h _ _ _ d | .pref h _ _ d => h.wf && d.notX
  | .ldv h n1 r _ d | .stv h n1 r _ d => h.wf && d.notX && decide (r.val + n1.toNat < 64)
  | .cinv h _ | .cwb h _ | .amop h _ _ _ _ _ => h.wf
  | .tagWaitRetry _ _ | .tagWaitTimeout _ _ | .cacheLineEvict _ _ | .proxyEvict _ _ | .hwPrefetch _ _ => true
  | .amo h op _ _ _ _ => h.wf && op.forAmo
  | .cas h sz d _ b => h.wf && (sz != .q || (d.val % 2 == 0 && b.val % 2 == 0))
  | .red h op _ _ _ => h.wf && op.forRed
  | .redv h m op _ _ _ => h.wf && m.wf && op.forRed
  | .redf h _ | .pgq h _ _ _ _ => h.wf
  | .writeQueueAccept _ | .writeQueueApply _ _ | .atomicResultReturn _ _ | .columnAccessArrival _ _ _
  | .columnAccessServe _ _ | .pageWalk _ _ _ | .atsCompletion _ _ _ _ | .atsInvalidation _ _ => true
  | .fence h _ _ _ | .ifence h => h.wf
  | .enq h m _ _ _ => h.wf && m.wf
  | .enq1 h _ a => h.wf && decide (a.val ≤ 56)
  | .estat h _ _ | .esusp h _ _ | .bari h _ _ | .barp h _ _ _ | .bara h _ _ _ | .barw h _ _ _ | .wait h _ _ _ _
  | .waitv h _ _ _ _ => h.wf
  | .barrierWaitWake _ _ | .wordWaitSatisfied _ _ | .copyCommandStart _ _ | .copyCompletion _ _ | .copyFault _ _
  | .copyPermissionStop _ _ | .savedCommandReentry _ _ => true
  | .sfcfg h _ _ _ => h.wf
  | .sfpush h m _ _ _ => h.wf && m.wf
  | .sfround h _ _ _ | .sfdrain h _ _ _ _ | .sfstat h _ _ => h.wf
  | .sifterRound _ | .sifterDrainRun _ | .pushEnterQueue _ | .sifterSave _ => true
  | .csrr h _ _ | .csrw h _ _ | .csrs h _ _ | .csrc h _ _ => h.wf
  | .trap h code _ => h.wfTerm && decide (1 ≤ code.toNat) && decide (code.toNat ≤ 0x1A)
  | .eret h => h.wfPlain
  | .halt h _ => h.wfTerm
  | .wdog h _ _ | .ctxq h _ _ => h.wf
  | .bkpt h _ => h.wfTerm
  | .pfx _ => true
  | .launch h _ _ d => h.wf && d.notX
  | .depdec h _ _ _ | .depq h _ _ => h.wf
  | .softwareTrapTaken _ _ | .engineTrapTaken _ _ | .debtTick _ _ | .hotChange _ _ | .autoRefInsert _ _ _
  | .refreshDeadlineTrap _ _ | .forcedRefresh _ _ _ | .watchdogExpiry _ _ | .class0Request _ | .quantumExpiry _
  | .idleYield _ | .ageingPromotion _ _ | .contextSwitch _ | .eviction _ _ | .admission _ _ _ _ | .debugStop _ _
  | .debugArm _ _ | .debugStopRequest _ | .debugResume _ | .queueEntryConsume _ | .qtail _ _ | .launchLeaveWaits _
  | .launchEnd _ | .placementEnd _ _ | .journalHead _ | .faultLogHead _ | .fresRetry _ | .fresDeliver _ | .fresEnd _
  | .tqseq _ | .tinv _ | .tinvl _ | .translationInvalidationDone | .errstClear _ | .deviceReset | .placeEnable _
  | .plim _ | .fabricConfigWrite _ _ | .registerWrite _ _ | .hostBar2Read _ _ | .hostBar2Write _ _
  | .hostBar4Access _ _ | .linkReset | .serviceMailbox _ _ _ | .fabricArrival _ _ | .linkFailure _
  | .fabricRequestTimeout | .budgetWindow | .retentionMeasurement _ _ _ _ | .trainingComplete | .fullServiceEntry
  | .bankOwnPrecharge _ _ _ | .commandSuspensionStop _ _ _ | .watchdogTrapTaken _ _ | .qsize _ _ | .qbase _ _
  | .tableQueryResult | .rowTagWrite _ _ _ _ _ => true

/-- The header of an instruction word; an event and PFX have none. -/
def Instr.hdr? : Instr → Option Hdr
  | .add h _ _ _ _ | .sub h _ _ _ _ | .mul h _ _ _ _ | .mulh h _ _ _ | .mulhn h _ _ _ | .div h _ _ _ _
  | .divn h _ _ _ _ | .rem h _ _ _ _ | .remn h _ _ _ _ | .and h _ _ _ | .or h _ _ _ | .xor h _ _ _
  | .andn h _ _ _ | .shl h _ _ _ _ | .shr h _ _ _ _ | .sar h _ _ _ _ | .rol h _ _ _ _ | .fshl h _ _ _
  | .fshr h _ _ _ | .bfx h _ _ _ _ | .bfxn h _ _ _ _ | .bfi h _ _ _ _
  | .clz h _ _ _ | .ctz h _ _ _ | .popc h _ _ _ | .brev h _ _ _ | .bswap h _ _ _ | .min h _ _ _ _ | .max h _ _ _ _
  | .minn h _ _ _ _ | .maxn h _ _ _ _ | .abs h _ _ _ | .sel h _ _ _ _ _ | .mov h _ | .sext h _ _ _ | .zext h _ _ _
  | .cmp h _ _ _ _ _ | .lea h _ _ _ _ | .pand h _ _ _ _
  | .fadd h _ _ _ _ _ | .fsub h _ _ _ _ _ | .fmul h _ _ _ _ _ | .fdiv h _ _ _ _ _ | .fma h _ _ _ _ _ _ _
  | .fmin h _ _ _ _ | .fmax h _ _ _ _ | .fcmp h _ _ _ _ _
  | .fsqrt h _ _ _ _ | .fabs h _ _ _ | .fneg h _ _ _ | .fclass h _ _ _ | .frnd h _ _ _ _ | .fcvt h _ _ _ _ _
  | .nop h | .br h _ | .brx h _ _ | .call h _ _ | .callx h _ _ _ | .ret h _ | .subbr h _ _ _ | .brd h _ _
  | .join h | .capt h _ _ | .replay h _ _ _ | .exit h | .yield h | .gmask h _ _ | .hartid h _ _
  | .act h _ _ | .actw h _ | .wb h _ _ | .wbp h _ _ | .pre h _ | .prea h | .ref h _ | .refq h _ _ | .rowq h _ _
  | .setvl h _ _ | .setvt h _ _
  | .vadd h _ _ _ _ | .vsub h _ _ _ _ | .vmul h _ _ _ _ | .vmulh h _ _ _ _ | .vmad h _ _ _ _ | .vmin h _ _ _ _
  | .vmax h _ _ _ _ | .vabs h _ _ _ | .vneg h _ _ _ | .vand h _ _ _ _ | .vor h _ _ _ _ | .vxor h _ _ _ _
  | .vnot h _ _ _ | .vshl h _ _ _ _ | .vshr h _ _ _ _ | .vsar h _ _ _ _ | .vsadd h _ _ _ _ | .vssub h _ _ _ _
  | .vavg h _ _ _ _ | .vclz h _ _ _ | .vpopc h _ _ _ | .vfadd h _ _ _ _ | .vfsub h _ _ _ _ | .vfmul h _ _ _ _
  | .vfma h _ _ _ _ _ _ | .vfdiv h _ _ _ _ | .vfsqrt h _ _ _ | .vfrcp h _ _ _ | .vfmin h _ _ _ _ | .vfmax h _ _ _ _
  | .vfabs h _ _ _ | .vfneg h _ _ _ | .vcmp h _ _ _ _ _ | .vfcmp h _ _ _ _ _ | .mpopc h _ _ _ | .mfirst h _ _ _
  | .mand h _ _ _ | .mor h _ _ _ | .mxor h _ _ _ | .mnot h _ _
  | .vsel h _ _ _ _ | .vcomp h _ _ _ | .vexp h _ _ _ | .vcvt h _ _ _ _ _
  | .vmxq h _ _ _ _ _ _ | .vlqq h _ _ _ _ _ _ | .vmxd h _ _ _ _ _ _ | .vlqd h _ _ _ _ _ _
  | .vmov h _ _ _ | .vsplat h _ _ _ | .vperm h _ _ _ _ | .vgath h _ _ _ _ | .vslide h _ _ _ _ | .vreds h _ _ _ _
  | .vredmin h _ _ _ _ | .vredmax h _ _ _ _ | .vfreds h _ _ _ _ _ | .vscan h _ _ _ _ _ | .vuniq h _ _ _ _
  | .vext h _ _ _ | .vins h _ _ _ | .viota h _ _ _ _ | .vsortk h _ _ _ _ _
  | .rshuf h _ _ _ | .rbcast h _ _ _ | .rxch h _ _ _ | .rrot h _ _ _ | .rseg h _ _
  | .tload h _ _ _ _ | .tmma h _ _ _ _ _ _ _ _ | .accz h _ _ | .accrd h _ _ _ _ | .accwr h _ _ _ _ | .accclm h _ _ _
  | .accrel h _ | .accsv h _ _ _ | .accld h _ _ _ | .tstat h _ _
  | .ld h _ _ _ _ _ | .st h _ _ _ _ _ | .lde h _ _ _ | .ste h _ _ _ | .ldf h _ _ _ | .stf h _ _ _ | .tagr h _ _ _ _
  | .tagw h _ _ _ _ | .pref h _ _ _ | .ldv h _ _ _ _ | .stv h _ _ _ _ | .cinv h _ | .cwb h _ | .amop h _ _ _ _ _
  | .amo h _ _ _ _ _ | .cas h _ _ _ _ | .red h _ _ _ _ | .redv h _ _ _ _ _ | .redf h _ | .pgq h _ _ _ _
  | .fence h _ _ _ | .ifence h | .enq h _ _ _ _ | .enq1 h _ _
  | .estat h _ _ | .esusp h _ _ | .bari h _ _ | .barp h _ _ _ | .bara h _ _ _ | .barw h _ _ _ | .wait h _ _ _ _
  | .waitv h _ _ _ _ | .sfcfg h _ _ _ | .sfpush h _ _ _ _ | .sfround h _ _ _ | .sfdrain h _ _ _ _ | .sfstat h _ _
  | .csrr h _ _ | .csrw h _ _ | .csrs h _ _ | .csrc h _ _ | .trap h _ _ | .eret h | .halt h _ | .wdog h _ _
  | .ctxq h _ _ | .bkpt h _ | .launch h _ _ _ | .depdec h _ _ _ | .depq h _ _ => some h
  | _ => none

/-- An instruction that has an encoding: the words of the opcode map (R40), PFX among them. -/
def Instr.isWord (i : Instr) : Bool :=
  match i with
  | .pfx _ => true
  | _ => i.hdr?.isSome

end Sys2Proof
end

