-- ==== Sys2Proof/Decode.lean ====
section
/-! DEFINITION. The decoder of instruction words (R14 to R37, R40 and the encoding tables of each family), total, with a
name for each way a word is refused; and after it the encoder, written from the same tables. -/

namespace Sys2Proof

/-- Why a word is no instruction; each is the Illegal instruction of R37. -/
inductive DecodeErr where
  /-- OPC 0x000 (R37) -/
  | opcodeZero
  /-- an opcode that R40 does not assign -/
  | opcodeUnassigned
  /-- a negated `p0` (R15) -/
  | guardReserved
  /-- a guard other than `p0` on a word that takes none (R77, R79, R382) -/
  | guardNotPlain
  /-- HINT 0b11 (R18) -/
  | hintReserved
  /-- a nonzero undefined MOD bit or a reserved MOD value (R19, R90) -/
  | modReserved
  /-- an operand class, file or index that the entry does not accept (R20, R21, R24) -/
  | operand
  /-- a nonzero unused field (R24) -/
  | fieldNotZero
  /-- a reserved selector of a class-10 operand (R35) -/
  | longSelector
  /-- a control-register number that R380 does not assign -/
  | csrUnassigned
  /-- a terminal word with C = 1 (R33) -/
  | terminalContinues
  /-- a scale or permutation latch that aliases another operand (R199, R200, R207) -/
  | latchOverlap
  /-- a PFX with C = 0 or a nonzero bit in [84:64] (R34, R36) -/
  | pfxFields
  /-- fewer than 12 bytes -/
  | short
deriving DecidableEq, Repr

/-- The result of decoding. -/
abbrev DecM := Except DecodeErr

/-- The fields of a word (R14). -/
structure Fields where
  opc : BitVec 10
  c : Bool
  gn : Bool
  gp : BitVec 4
  stall : BitVec 6
  hint : BitVec 2
  mod : BitVec 12
  d : BitVec 20
  a : BitVec 20
  b : BitVec 20
deriving DecidableEq, Repr

/-- The fields of a 96-bit word (R14). -/
def Fields.ofWord (w : IWord) : Fields where
  opc := w.extractLsb' 86 10
  c := w.getLsbD 85
  gn := w.getLsbD 84
  gp := w.extractLsb' 80 4
  stall := w.extractLsb' 74 6
  hint := w.extractLsb' 72 2
  mod := w.extractLsb' 60 12
  d := w.extractLsb' 40 20
  a := w.extractLsb' 20 20
  b := w.extractLsb' 0 20

/-- The 96-bit word with these fields (R14). -/
def Fields.toWord (f : Fields) : IWord :=
  f.opc ++ BitVec.ofBool f.c ++ BitVec.ofBool f.gn ++ f.gp ++ f.stall ++ f.hint ++ f.mod ++ f.d ++ f.a ++ f.b

/-- The opcode field of a word in memory (R14). -/
def opcOf (w : IWord) : Nat := (w.extractLsb' 86 10).toNat
/-- The C bit of a word in memory (R14). -/
def contOf (w : IWord) : Bool := w.getLsbD 85
/-- A field of class 10 (R20). -/
def isLongField (v : BitVec 20) : Bool := v.toNat / 2 ^ 18 == 2
/-- Whether some operand field of the word has class 10 (R36). -/
def Fields.hasLong (f : Fields) : Bool := isLongField f.d || isLongField f.a || isLongField f.b

/-! ### Operand fields -/

/-- A register of file code `file` with `n` legal indices (R21). -/
def pReg (file n : Nat) (v : BitVec 20) : DecM (Fin n) :=
  if h : file * 2 ^ 14 ≤ v.toNat ∧ v.toNat - file * 2 ^ 14 < n then .ok ⟨v.toNat - file * 2 ^ 14, h.2⟩
  else .error .operand
/-- An `x` register (file 0). -/
def pX (v : BitVec 20) : DecM XReg := pReg 0 64 v
/-- A predicate (file 1). -/
def pP (v : BitVec 20) : DecM PReg := pReg 1 16 v
/-- A latch of the hart's own bank (file 2). -/
def pO (v : BitVec 20) : DecM Lat := pReg 2 4 v
/-- An element mask (file 3). -/
def pM (v : BitVec 20) : DecM Msk := pReg 3 8 v
/-- An accumulator slot (file 4). -/
def pA (v : BitVec 20) : DecM Acc := pReg 4 6 v
/-- A gang-addressed latch (file 6): [5:2] bank, [1:0] group. -/
def pG (v : BitVec 20) : DecM GLat := do
  let k ← pReg 6 64 v
  .ok ⟨⟨k.val / 4, by omega⟩, ⟨k.val % 4, by omega⟩⟩
/-- An unused field (R24). -/
def pZero (v : BitVec 20) : DecM Unit := if v = 0 then .ok () else .error .fieldNotZero
/-- The selector of a class-10 field (R35). -/
def pLong (v : BitVec 20) : DecM LongSel :=
  let n := v.toNat % 2 ^ 18
  if n % 2 ^ 15 ≠ 0 then .error .longSelector
  else match n / 2 ^ 15 with
    | 0 => .ok .full
    | 2 => .ok (.sx false)
    | 3 => .ok (.sx true)
    | 4 => .ok (.zx false)
    | 5 => .ok (.zx true)
    | _ => .error .longSelector
/-- A short immediate (class 01). -/
def pImm (v : BitVec 20) : DecM (BitVec 18) :=
  if v.toNat / 2 ^ 18 = 1 then .ok (v.extractLsb' 0 18) else .error .operand
/-- A scalar source: `x`, class 01 or class 10 (R91, R182). -/
def pSrc (v : BitVec 20) : DecM Src :=
  match v.toNat / 2 ^ 18 with
  | 0 => Src.x <$> pX v
  | 1 => .ok (.imm (v.extractLsb' 0 18))
  | 2 => Src.long <$> pLong v
  | _ => .error .operand
/-- A source restricted to the forms that `ok` accepts. -/
def pSrcIf (ok : Src → Bool) (v : BitVec 20) : DecM Src := do
  let s ← pSrc v
  if ok s then .ok s else .error .operand
/-- A displacement: class 01 or class 10 (R107, R261). -/
def pDisp (v : BitVec 20) : DecM Src := pSrcIf Src.notX v
/-- An `x` register or class 10 (R101). -/
def pF (v : BitVec 20) : DecM Src := pSrcIf Src.notImm v
/-- An `x` register or class 01 (R79, R107). -/
def pXI (v : BitVec 20) : DecM Src := pSrcIf Src.notLong v
/-- An `x` or a `p` destination. -/
def pXP (v : BitVec 20) : DecM XP :=
  if v.toNat / 2 ^ 14 = 1 then XP.p <$> pP v else XP.x <$> pX v
/-- A latch source of mark Lg (R182). -/
def pLg (v : BitVec 20) : DecM LatRef :=
  if v.toNat / 2 ^ 14 = 6 then LatRef.gang <$> pG v else LatRef.own <$> pO v
/-- A source of mark Lg or S (R182). -/
def pLS (v : BitVec 20) : DecM LOp :=
  if v.toNat / 2 ^ 14 = 6 ∨ v.toNat / 2 ^ 14 = 2 then LOp.lat <$> pLg v else LOp.s <$> pSrc v
/-- An optional operand: all zero, or the operand. -/
def pOpt {α : Type} (p : BitVec 20 → DecM α) (v : BitVec 20) : DecM (Option α) :=
  if v = 0 then .ok none else some <$> p v

/-! ### Headers and modifiers -/

/-- The HINT (R18). -/
def Hint.code : Hint → Nat
  | .none => 0 | .giveway => 1 | .early => 2
/-- The HINT (R18), read. -/
def Hint.ofCode : Nat → DecM Hint
  | 0 => .ok .none | 1 => .ok .giveway | 2 => .ok .early | _ => .error .hintReserved

/-- The F of R100. -/
def FFmt.code : FFmt → Nat
  | .f64 => 0 | .f32 => 1 | .bf16 => 2 | .f16 => 3
/-- The F of R100, read. -/
def FFmt.ofCode : Nat → DecM FFmt
  | 0 => .ok .f64 | 1 => .ok .f32 | 2 => .ok .bf16 | 3 => .ok .f16 | _ => .error .modReserved

/-- The RM of R100. -/
def FRm.code : FRm → Nat
  | .dyn => 0 | .rne => 1 | .rtz => 2 | .rup => 3 | .rdn => 4
/-- The RM of R100, read. -/
def FRm.ofCode : Nat → DecM FRm
  | 0 => .ok .dyn | 1 => .ok .rne | 2 => .ok .rtz | 3 => .ok .rup | 4 => .ok .rdn | _ => .error .modReserved

/-- The types of R106. -/
def CvtTy.code : CvtTy → Nat
  | .f64 => 0 | .f32 => 1 | .bf16 => 2 | .f16 => 3 | .i64 => 4 | .n64 => 5 | .i32 => 6 | .n32 => 7
/-- The types of R106, read. -/
def CvtTy.ofCode : Nat → DecM CvtTy
  | 0 => .ok .f64 | 1 => .ok .f32 | 2 => .ok .bf16 | 3 => .ok .f16 | 4 => .ok .i64 | 5 => .ok .n64 | 6 => .ok .i32
  | 7 => .ok .n32 | _ => .error .modReserved

/-- The conditions of R98. -/
def Cond.code : Cond → Nat
  | .eq => 0 | .ne => 1 | .lt => 2 | .ge => 3 | .ltn => 4 | .gen => 5 | .le => 6 | .gt => 7 | .len => 8 | .gtn => 9
  | .tst => 10 | .ntst => 11
/-- The conditions of R98, read. -/
def Cond.ofCode : Nat → DecM Cond
  | 0 => .ok .eq | 1 => .ok .ne | 2 => .ok .lt | 3 => .ok .ge | 4 => .ok .ltn | 5 => .ok .gen | 6 => .ok .le
  | 7 => .ok .gt | 8 => .ok .len | 9 => .ok .gtn | 10 => .ok .tst | 11 => .ok .ntst | _ => .error .modReserved

/-- The conditions of R105. -/
def FCond.code : FCond → Nat
  | .eq => 0 | .ne => 1 | .lt => 2 | .le => 3 | .gt => 4 | .ge => 5 | .un => 6 | .ord => 7
/-- The conditions of R105, read. -/
def FCond.ofCode : Nat → DecM FCond
  | 0 => .ok .eq | 1 => .ok .ne | 2 => .ok .lt | 3 => .ok .le | 4 => .ok .gt | 5 => .ok .ge | 6 => .ok .un
  | 7 => .ok .ord | _ => .error .modReserved

/-- The conditions of R194. -/
def VCond.code : VCond → Nat
  | .eq => 0 | .ne => 1 | .lt => 2 | .ge => 3 | .le => 4 | .gt => 5
/-- The conditions of R194, read. -/
def VCond.ofCode : Nat → DecM VCond
  | 0 => .ok .eq | 1 => .ok .ne | 2 => .ok .lt | 3 => .ok .ge | 4 => .ok .le | 5 => .ok .gt | _ => .error .modReserved

/-- The conditions of R333. -/
def WCond.code : WCond → Nat
  | .eq => 0 | .ne => 1 | .lt => 2 | .ge => 3 | .ltn => 4 | .gen => 5
/-- The conditions of R333, read. -/
def WCond.ofCode : Nat → DecM WCond
  | 0 => .ok .eq | 1 => .ok .ne | 2 => .ok .lt | 3 => .ok .ge | 4 => .ok .ltn | 5 => .ok .gen
  | _ => .error .modReserved

/-- The operations of R99. -/
def POp.code : POp → Nat
  | .and => 0 | .or => 1 | .xor => 2 | .andn => 3 | .orn => 4 | .nand => 5 | .nor => 6 | .xnor => 7
/-- The operations of R99, read. -/
def POp.ofCode : Nat → DecM POp
  | 0 => .ok .and | 1 => .ok .or | 2 => .ok .xor | 3 => .ok .andn | 4 => .ok .orn | 5 => .ok .nand | 6 => .ok .nor
  | 7 => .ok .xnor | _ => .error .modReserved

/-- The sizes of R96. -/
def ExtSize.code : ExtSize → Nat
  | .b8 => 0 | .b16 => 1 | .b32 => 2
/-- The sizes of R96, read. -/
def ExtSize.ofCode : Nat → DecM ExtSize
  | 0 => .ok .b8 | 1 => .ok .b16 | 2 => .ok .b32 | _ => .error .modReserved

/-- The modes of R83. -/
def BallotMode.code : BallotMode → Nat
  | .any => 0 | .all => 1 | .none => 2
/-- The modes of R83, read. -/
def BallotMode.ofCode : Nat → DecM BallotMode
  | 0 => .ok .any | 1 => .ok .all | 2 => .ok .none | _ => .error .modReserved

/-- The selectors of R84. -/
def HidSel.code : HidSel → Nat
  | .bank => 0 | .gbase => 1 | .gsize => 2 | .rank => 3 | .core => 4 | .cluster => 5 | .stand => 6 | .dev => 7
  | .pcore => 8 | .phart => 9 | .hid => 10
/-- The selectors of R84, read. -/
def HidSel.ofCode : Nat → DecM HidSel
  | 0 => .ok .bank | 1 => .ok .gbase | 2 => .ok .gsize | 3 => .ok .rank | 4 => .ok .core | 5 => .ok .cluster
  | 6 => .ok .stand | 7 => .ok .dev | 8 => .ok .pcore | 9 => .ok .phart | 10 => .ok .hid | _ => .error .modReserved

/-- The format codes of R146. -/
def CvtFmt.code : CvtFmt → Nat
  | .i8 => 0 | .n8 => 1 | .i16 => 2 | .n16 => 3 | .i32 => 4 | .n32 => 5 | .i64 => 6 | .f32 => 7 | .bf16 => 8
  | .f16 => 9 | .e4m3 => 10 | .e5m2 => 11
/-- The format codes of R146, read. -/
def CvtFmt.ofCode : Nat → DecM CvtFmt
  | 0 => .ok .i8 | 1 => .ok .n8 | 2 => .ok .i16 | 3 => .ok .n16 | 4 => .ok .i32 | 5 => .ok .n32 | 6 => .ok .i64
  | 7 => .ok .f32 | 8 => .ok .bf16 | 9 => .ok .f16 | 10 => .ok .e4m3 | 11 => .ok .e5m2 | _ => .error .modReserved

/-- The WF of R199. -/
def WideFmt.code : WideFmt → Nat
  | .f32 => 0 | .bf16 => 1 | .f16 => 2
/-- The WF of R199, read. -/
def WideFmt.ofCode : Nat → DecM WideFmt
  | 0 => .ok .f32 | 1 => .ok .bf16 | 2 => .ok .f16 | _ => .error .modReserved

/-- The BF codes of R233. -/
def BFmt.code : BFmt → Nat
  | .i8 => 0 | .n8 => 1 | .bf16 => 8 | .e4m3 => 10 | .e5m2 => 11 | .e2m1 => 12 | .lq8s => 13 | .lq8w => 14
/-- The BF codes of R233, read. -/
def BFmt.ofCode : Nat → DecM BFmt
  | 0 => .ok .i8 | 1 => .ok .n8 | 8 => .ok .bf16 | 10 => .ok .e4m3 | 11 => .ok .e5m2 | 12 => .ok .e2m1
  | 13 => .ok .lq8s | 14 => .ok .lq8w | _ => .error .modReserved

/-- The AF codes of R233. -/
def AFmt.code : AFmt → Nat
  | .i8 => 0 | .n8 => 1 | .bf16 => 8 | .e4m3 => 10 | .e5m2 => 11 | .e2m1 => 12
/-- The AF codes of R233, read. -/
def AFmt.ofCode : Nat → DecM AFmt
  | 0 => .ok .i8 | 1 => .ok .n8 | 8 => .ok .bf16 | 10 => .ok .e4m3 | 11 => .ok .e5m2 | 12 => .ok .e2m1
  | _ => .error .modReserved

/-- The format codes of R237. -/
def AccFmt.code : AccFmt → Nat
  | .i8 => 0 | .n8 => 1 | .i16 => 2 | .n16 => 3 | .i32 => 4 | .n32 => 5 | .f32 => 7 | .bf16 => 8 | .f16 => 9
  | .e4m3 => 10 | .e5m2 => 11
/-- The format codes of R237, read. -/
def AccFmt.ofCode : Nat → DecM AccFmt
  | 0 => .ok .i8 | 1 => .ok .n8 | 2 => .ok .i16 | 3 => .ok .n16 | 4 => .ok .i32 | 5 => .ok .n32 | 7 => .ok .f32
  | 8 => .ok .bf16 | 9 => .ok .f16 | 10 => .ok .e4m3 | 11 => .ok .e5m2 | _ => .error .modReserved

/-- The TY of R263. -/
def LdTy.code : LdTy → Nat
  | .i8 => 0 | .n8 => 1 | .i16 => 2 | .n16 => 3 | .i32 => 4 | .n32 => 5 | .x64 => 6
/-- The TY of R263, read. -/
def LdTy.ofCode : Nat → DecM LdTy
  | 0 => .ok .i8 | 1 => .ok .n8 | 2 => .ok .i16 | 3 => .ok .n16 | 4 => .ok .i32 | 5 => .ok .n32 | 6 => .ok .x64
  | _ => .error .modReserved

/-- The SZ of R263. -/
def StSz.code : StSz → Nat
  | .b8 => 0 | .b16 => 1 | .b32 => 2 | .b64 => 3
/-- The SZ of R263, read. -/
def StSz.ofCode : Nat → DecM StSz
  | 0 => .ok .b8 | 1 => .ok .b16 | 2 => .ok .b32 | 3 => .ok .b64 | _ => .error .modReserved

/-- The OP of R269. -/
def AOp.code : AOp → Nat
  | .add => 0 | .and => 1 | .or => 2 | .xor => 3 | .min => 4 | .max => 5 | .minn => 6 | .maxn => 7 | .swap => 8
  | .cas => 9 | .fadd => 10 | .fmax => 11
/-- The OP of R269, read. -/
def AOp.ofCode : Nat → DecM AOp
  | 0 => .ok .add | 1 => .ok .and | 2 => .ok .or | 3 => .ok .xor | 4 => .ok .min | 5 => .ok .max | 6 => .ok .minn
  | 7 => .ok .maxn | 8 => .ok .swap | 9 => .ok .cas | 10 => .ok .fadd | 11 => .ok .fmax | _ => .error .modReserved

/-- The SIZE of R291. -/
def CasSize.code : CasSize → Nat
  | .d => 0 | .w => 1 | .q => 2
/-- The SIZE of R291, read. -/
def CasSize.ofCode : Nat → DecM CasSize
  | 0 => .ok .d | 1 => .ok .w | 2 => .ok .q | _ => .error .modReserved

/-- The scope codes of R296 and R302. -/
def Scope.code : Scope → Nat
  | .agent => 0 | .hart => 1 | .gang => 2 | .core => 3 | .cluster => 4 | .stand => 5 | .package => 6 | .board => 7
  | .pod => 8 | .fabric => 9 | .system => 10
/-- The scope codes of R296 and R302, read. -/
def Scope.ofCode : Nat → DecM Scope
  | 0 => .ok .agent | 1 => .ok .hart | 2 => .ok .gang | 3 => .ok .core | 4 => .ok .cluster | 5 => .ok .stand
  | 6 => .ok .package | 7 => .ok .board | 8 => .ok .pod | 9 => .ok .fabric | 10 => .ok .system
  | _ => .error .modReserved

/-- The SEL of R355. -/
def SfstatSel.code : SfstatSel → Nat
  | .queue => 0 | .state => 1 | .rounds => 2
/-- The SEL of R355, read. -/
def SfstatSel.ofCode : Nat → DecM SfstatSel
  | 0 => .ok .queue | 1 => .ok .state | 2 => .ok .rounds | _ => .error .modReserved

/-- The CSR numbers of R380. -/
def Csr.code : Csr → Nat
  | .vl => 0 | .vt => 1 | .rc => 2 | .ei => 3 | .tm => 4 | .tn => 5 | .gm => 6 | .hid => 7 | .ctx => 8 | .pri => 9
  | .fb => 10 | .sb => 11 | .cb => 12 | .schk => 13 | .fpc => 14 | .fps => 15 | .wdt => 16 | .tvec => 17
  | .tcause => 18 | .tpc => 19 | .tval => 20 | .refm => 21 | .tscr => 22
/-- The CSR numbers of R380, read. -/
def Csr.ofCode : Nat → DecM Csr
  | 0 => .ok .vl | 1 => .ok .vt | 2 => .ok .rc | 3 => .ok .ei | 4 => .ok .tm | 5 => .ok .tn | 6 => .ok .gm
  | 7 => .ok .hid | 8 => .ok .ctx | 9 => .ok .pri | 10 => .ok .fb | 11 => .ok .sb | 12 => .ok .cb | 13 => .ok .schk
  | 14 => .ok .fpc | 15 => .ok .fps | 16 => .ok .wdt | 17 => .ok .tvec | 18 => .ok .tcause | 19 => .ok .tpc
  | 20 => .ok .tval | 21 => .ok .refm | 22 => .ok .tscr | _ => .error .csrUnassigned

/-- The SEL of R388. -/
def CtxqSel.code : CtxqSel → Nat
  | .id => 0 | .slot => 1 | .class => 2 | .nres => 3 | .time => 4 | .moves => 5
/-- The SEL of R388, read. -/
def CtxqSel.ofCode : Nat → DecM CtxqSel
  | 0 => .ok .id | 1 => .ok .slot | 2 => .ok .class | 3 => .ok .nres | 4 => .ok .time | 5 => .ok .moves
  | _ => .error .modReserved

/-- The header of a word (R14, R15, R18). -/
def Fields.hdr (f : Fields) : DecM Hdr := do
  if f.gn && f.gp == 0 then .error .guardReserved
  let hint ← Hint.ofCode f.hint.toNat
  .ok ⟨f.c, f.gn, f.gp.toFin, f.stall, hint⟩
/-- A terminal word has C = 0 (R33). -/
def term (h : Hdr) : DecM Unit := if h.c then .error .terminalContinues else .ok ()
/-- A guard of `p0` (R77, R79, R382). -/
def plain (h : Hdr) : DecM Unit := if h.gn || h.gp != 0 then .error .guardNotPlain else .ok ()
/-- MOD, whose value must be below `n`. -/
def Fields.modBelow (f : Fields) (n : Nat) : DecM Nat :=
  if f.mod.toNat < n then .ok f.mod.toNat else .error .modReserved
/-- All MOD bits RZF (R19). -/
def Fields.noMod (f : Fields) : DecM Unit := if f.mod = 0 then .ok () else .error .modReserved
/-- MOD[11] is W and the other bits are below `n` (R89). -/
def Fields.modW (f : Fields) (n : Nat) : DecM (Bool × Nat) :=
  if f.mod.toNat % 2 ^ 11 < n then .ok (f.mod.getLsbD 11, f.mod.toNat % 2 ^ 11) else .error .modReserved
/-- The mask modifier, with MOD[11:5] below `n` (R181). -/
def Fields.mask (f : Fields) (n : Nat) : DecM (MaskMod × Nat) :=
  let v := f.mod.toNat
  let m : MaskMod := ⟨f.mod.getLsbD 3, f.mod.getLsbD 4, ⟨v % 8, by omega⟩⟩
  if v / 32 < n ∧ m.wf then .ok (m, v / 32) else .error .modReserved
/-- The same with a mask required (R196, R204). -/
def Fields.maskOn (f : Fields) (n : Nat) : DecM (MaskMod × Nat) := do
  let r ← f.mask n
  if r.1.me then .ok r else .error .modReserved
/-- The layout of the scaled conversions (R199): WF, SEG and PART. -/
def Fields.scaled (f : Fields) : DecM (WideFmt × BitVec 4 × BitVec 4) := do
  let wf ← WideFmt.ofCode (f.mod.toNat % 4)
  if f.mod.toNat < 2 ^ 10 then .ok (wf, f.mod.extractLsb' 2 4, f.mod.extractLsb' 6 4) else .error .modReserved
/-- F and RM of R100, with MOD[11:5] below `n`. -/
def Fields.fp (f : Fields) (n : Nat) : DecM (FFmt × FRm × Nat) := do
  let fmt ← FFmt.ofCode (f.mod.toNat % 4)
  let rm ← FRm.ofCode (f.mod.toNat / 4 % 8)
  if f.mod.toNat / 32 < n then .ok (fmt, rm, f.mod.toNat / 32) else .error .modReserved
/-- F alone, RM being RZF, with MOD[11:5] below `n` (R104, R105). -/
def Fields.fpNoRm (f : Fields) (n : Nat) : DecM (FFmt × Nat) := do
  let fmt ← FFmt.ofCode (f.mod.toNat % 4)
  if f.mod.toNat / 4 % 8 = 0 ∧ f.mod.toNat / 32 < n then .ok (fmt, f.mod.toNat / 32) else .error .modReserved
/-- COMP and its specifier (R233, R355). -/
def pComp (code : Nat) (v : BitVec 20) : DecM CompSpec :=
  match code with
  | 0 => do pZero v; .ok .none
  | 1 => CompSpec.word <$> pX v
  | 2 => CompSpec.bar <$> pX v
  | _ => .error .modReserved
/-- Bit `k` of a number. -/
def nbit (n k : Nat) : Bool := n / 2 ^ k % 2 == 1

/-! ### The forms that families share -/

/-- D, A and B of a two-source scalar word (R91). -/
def two (f : Fields) (k : XReg → Src → Src → Instr) : DecM Instr := do
  .ok (k (← pX f.d) (← pSrc f.a) (← pSrc f.b))
/-- A two-source word with W (R89). -/
def twoW (f : Fields) (k : Bool → XReg → Src → Src → Instr) : DecM Instr := do
  let m ← f.modW 1
  two f (k m.1)
/-- A two-source word without modifiers. -/
def two0 (f : Fields) (k : XReg → Src → Src → Instr) : DecM Instr := do
  f.noMod
  two f k
/-- A one-source word with W (R89, R91). -/
def oneW (f : Fields) (k : Bool → XReg → Src → Instr) : DecM Instr := do
  let m ← f.modW 1
  pZero f.b
  .ok (k m.1 (← pX f.d) (← pSrc f.a))
/-- A bit-field word (R95). -/
def bitField (f : Fields) (k : BitVec 6 → BitVec 6 → XReg → Src → Instr) : DecM Instr := do
  pZero f.b
  let pos := f.mod.extractLsb' 0 6
  let len1 := f.mod.extractLsb' 6 6
  if bfWf pos len1 then .ok (k pos len1 (← pX f.d) (← pSrc f.a)) else .error .modReserved
/-- SEXT and ZEXT (R96). -/
def extend (f : Fields) (k : ExtSize → XReg → Src → Instr) : DecM Instr := do
  let m ← f.modBelow 4
  pZero f.b
  .ok (k (← ExtSize.ofCode m) (← pX f.d) (← pSrc f.a))
/-- A two-source floating-point word (R100, R101). -/
def fp2 (f : Fields) (k : FFmt → FRm → XReg → Src → Src → Instr) : DecM Instr := do
  let m ← f.fp 1
  .ok (k m.1 m.2.1 (← pX f.d) (← pF f.a) (← pF f.b))
/-- A one-source floating-point word with RM. -/
def fp1 (f : Fields) (k : FFmt → FRm → XReg → Src → Instr) : DecM Instr := do
  let m ← f.fp 1
  pZero f.b
  .ok (k m.1 m.2.1 (← pX f.d) (← pF f.a))
/-- FMIN and FMAX (R104). -/
def fpMin (f : Fields) (k : FFmt → XReg → Src → Src → Instr) : DecM Instr := do
  let m ← f.fpNoRm 1
  .ok (k m.1 (← pX f.d) (← pF f.a) (← pF f.b))
/-- FABS, FNEG and FCLASS (R104, R106). -/
def fpSign (f : Fields) (k : FFmt → XReg → Src → Instr) : DecM Instr := do
  let m ← f.fpNoRm 1
  pZero f.b
  .ok (k m.1 (← pX f.d) (← pF f.a))
/-- A lane word of two sources (R182, R192). -/
def lane2 (f : Fields) (k : MaskMod → Lat → LOp → LOp → Instr) : DecM Instr := do
  let m ← f.mask 1
  .ok (k m.1 (← pO f.d) (← pLS f.a) (← pLS f.b))
/-- A lane word of one source. -/
def lane1 (f : Fields) (k : MaskMod → Lat → LOp → Instr) : DecM Instr := do
  let m ← f.mask 1
  pZero f.b
  .ok (k m.1 (← pO f.d) (← pLS f.a))
/-- A mask word of two sources (R195). -/
def mask2 (f : Fields) (k : Msk → Msk → Msk → Instr) : DecM Instr := do
  f.noMod
  .ok (k (← pM f.d) (← pM f.a) (← pM f.b))
/-- MPOPC and MFIRST (R195). -/
def maskCount (f : Fields) (k : MaskMod → XReg → Msk → Instr) : DecM Instr := do
  let m ← f.mask 1
  pZero f.b
  .ok (k m.1 (← pX f.d) (← pM f.a))
/-- A scaled conversion, with the latches kept apart when the word writes its scale latch (R199, R200). -/
def scaledConv (f : Fields) (writes : Bool) (k : WideFmt → BitVec 4 → BitVec 4 → Lat → LatRef → Lat → Instr) :
    DecM Instr := do
  let m ← f.scaled
  let d ← pO f.d
  let a ← pLg f.a
  let b ← pO f.b
  if writes && !scaleApart d a b then .error .latchOverlap
  .ok (k m.1 m.2.1 m.2.2 d a b)
/-- VREDS, VREDMIN and VREDMAX (R205). -/
def reduce (f : Fields) (k : MaskMod → XReg → LatRef → Src → Instr) : DecM Instr := do
  let m ← f.mask 1
  .ok (k m.1 (← pX f.d) (← pLg f.a) (← pSrc f.b))
/-- VCOMP and VEXP (R204). -/
def compress (f : Fields) (k : MaskMod → Lat → LatRef → Instr) : DecM Instr := do
  let m ← f.maskOn 1
  pZero f.b
  .ok (k m.1 (← pO f.d) (← pLg f.a))
/-- A shuffle-bus word with B (R215). -/
def bus (f : Fields) (k : Lat → Lat → Src → Instr) : DecM Instr := do
  f.noMod
  .ok (k (← pO f.d) (← pO f.a) (← pSrc f.b))
/-- A row word that names a group only (R126). -/
def rowG (f : Fields) (k : Lat → Instr) : DecM Instr := do
  f.noMod
  pZero f.a
  pZero f.b
  .ok (k (← pO f.d))
/-- A row word with a row number (R126). -/
def rowR (f : Fields) (k : Lat → Src → Instr) : DecM Instr := do
  f.noMod
  pZero f.b
  .ok (k (← pO f.d) (← pSrc f.a))
/-- A memory word `[xa+d]` with the register in D (R261). -/
def memD (f : Fields) (k : XReg → XReg → Src → Instr) : DecM Instr := do
  .ok (k (← pX f.d) (← pX f.a) (← pDisp f.b))
/-- An address word with the operand of mark S in B: D, A and B (R333). -/
def objB (f : Fields) (k : XReg → XReg → Src → Instr) : DecM Instr := do
  f.noMod
  .ok (k (← pX f.d) (← pX f.a) (← pSrc f.b))
/-- A word with no operand and no modifier. -/
def bare (f : Fields) (i : Instr) : DecM Instr := do
  f.noMod
  pZero f.d
  pZero f.a
  pZero f.b
  .ok i
/-- The range of CINV and CWB (R261). -/
def pRange (f : Fields) : DecM CRange := do
  let m ← f.modBelow 2
  pZero f.d
  if m = 1 then
    if f.a = 0 ∧ f.b = 0 then .ok .all else .error .modReserved
  else .ok (.range (← pX f.a) (← pSrc f.b))
/-- The scale operand of TLOAD and TMMA (R233). -/
def pScale (on : Bool) (v : BitVec 20) : DecM (Option GLat) :=
  if on then some <$> pG v else do pZero v; .ok none
/-- A CSR word that writes (R382). -/
def csrWrite (f : Fields) (k : Csr → Src → Instr) : DecM Instr := do
  f.noMod
  pZero f.b
  let n ← pReg 5 16384 f.d
  .ok (k (← Csr.ofCode n.val) (← pSrc f.a))

/-! ### The families -/

/-- The scalar integer words (R93 to R99). -/
def decInt (f : Fields) (h : Hdr) : DecM Instr :=
  match f.opc.toNat with
  | 0x001 => twoW f (.add h)
  | 0x002 => twoW f (.sub h)
  | 0x003 => twoW f (.mul h)
  | 0x004 => two0 f (.mulh h)
  | 0x005 => two0 f (.mulhn h)
  | 0x006 => twoW f (.div h)
  | 0x007 => twoW f (.divn h)
  | 0x008 => twoW f (.rem h)
  | 0x009 => twoW f (.remn h)
  | 0x00A => two0 f (.and h)
  | 0x00B => two0 f (.or h)
  | 0x00C => two0 f (.xor h)
  | 0x00D => two0 f (.andn h)
  | 0x00E => twoW f (.shl h)
  | 0x00F => twoW f (.shr h)
  | 0x010 => twoW f (.sar h)
  | 0x011 => twoW f (.rol h)
  | 0x012 => two0 f (.fshl h)
  | 0x013 => two0 f (.fshr h)
  | 0x014 => bitField f (.bfx h)
  | 0x015 => bitField f (.bfxn h)
  | 0x016 => bitField f (.bfi h)
  | 0x017 => oneW f (.clz h)
  | 0x018 => oneW f (.ctz h)
  | 0x019 => oneW f (.popc h)
  | 0x01A => oneW f (.brev h)
  | 0x01B => oneW f (.bswap h)
  | 0x01C => twoW f (.min h)
  | 0x01D => twoW f (.max h)
  | 0x01E => twoW f (.minn h)
  | 0x01F => twoW f (.maxn h)
  | 0x020 => oneW f (.abs h)
  | 0x021 => do
    let m ← f.modBelow 32
    two f (.sel h ⟨m % 16, by omega⟩ (nbit m 4))
  | 0x022 => do
    f.noMod
    pZero f.b
    if f.d.toNat / 2 ^ 14 = 1 then
      let d ← pP f.d
      if f.a.toNat / 2 ^ 14 = 1 then .ok (.mov h (.pp d (← pP f.a))) else .ok (.mov h (.px d (← pX f.a)))
    else
      let d ← pX f.d
      if f.a.toNat / 2 ^ 14 = 1 then .ok (.mov h (.xp d (← pP f.a))) else .ok (.mov h (.xs d (← pSrc f.a)))
  | 0x023 => extend f (.sext h)
  | 0x024 => extend f (.zext h)
  | 0x025 => do
    let m ← f.modW 16
    .ok (.cmp h (← Cond.ofCode m.2) m.1 (← pXP f.d) (← pSrc f.a) (← pSrc f.b))
  | 0x026 => do
    let m ← f.modBelow 4
    two f (.lea h (BitVec.ofNat 2 m))
  | 0x027 => do
    let m ← f.modBelow 8
    .ok (.pand h (← POp.ofCode m) (← pP f.d) (← pP f.a) (← pP f.b))
  | _ => .error .opcodeUnassigned

/-- The scalar floating-point words (R100 to R106). -/
def decFp (f : Fields) (h : Hdr) : DecM Instr :=
  match f.opc.toNat with
  | 0x080 => fp2 f (.fadd h)
  | 0x081 => fp2 f (.fsub h)
  | 0x082 => fp2 f (.fmul h)
  | 0x083 => fp2 f (.fdiv h)
  | 0x084 => fp1 f (.fsqrt h)
  | 0x085 => do
    let m ← f.fp 4
    .ok (.fma h m.1 m.2.1 (nbit m.2.2 0) (nbit m.2.2 1) (← pX f.d) (← pF f.a) (← pF f.b))
  | 0x086 => fpMin f (.fmin h)
  | 0x087 => fpMin f (.fmax h)
  | 0x088 => fpSign f (.fabs h)
  | 0x089 => fpSign f (.fneg h)
  | 0x08A => do
    let m ← f.fpNoRm 16
    .ok (.fcmp h m.1 (← FCond.ofCode m.2) (← pXP f.d) (← pF f.a) (← pF f.b))
  | 0x08B => do
    let m ← f.modBelow 2048
    pZero f.b
    let dty ← CvtTy.ofCode (m % 16)
    let sty ← CvtTy.ofCode (m / 16 % 16)
    let rm ← FRm.ofCode (m / 256)
    if dty.isInt && sty.isInt then .error .modReserved
    .ok (.fcvt h dty sty rm (← pX f.d) (← pSrcIf (fun s => sty.isInt || s.notImm) f.a))
  | 0x08C => fpSign f (.fclass h)
  | 0x08D => fp1 f (.frnd h)
  | _ => .error .opcodeUnassigned

/-- The control words (R41, R76 to R84, R107). -/
def decControl (f : Fields) (h : Hdr) : DecM Instr :=
  match f.opc.toNat with
  | 0x0C0 => bare f (.nop h)
  | 0x0C1 => do
    term h
    f.noMod
    pZero f.d
    pZero f.b
    .ok (.br h (← pDisp f.a))
  | 0x0C2 => do
    term h
    f.noMod
    pZero f.d
    .ok (.brx h (← pX f.a) (← pXI f.b))
  | 0x0C3 => do
    term h
    f.noMod
    pZero f.b
    .ok (.call h (← pX f.d) (← pDisp f.a))
  | 0x0C4 => do
    term h
    f.noMod
    .ok (.callx h (← pX f.d) (← pX f.a) (← pXI f.b))
  | 0x0C5 => do
    term h
    f.noMod
    pZero f.d
    pZero f.b
    .ok (.ret h (← pX f.a))
  | 0x0C6 => do
    term h
    f.noMod
    .ok (.subbr h (← pX f.d) (← pDisp f.a) (← pSrc f.b))
  | 0x0C7 => do
    term h
    f.noMod
    pZero f.d
    .ok (.brd h (← pImm f.a) (← pImm f.b))
  | 0x0C8 => do
    term h
    plain h
    bare f (.join h)
  | 0x0C9 => do
    let m ← f.modBelow 64
    pZero f.d
    pZero f.b
    .ok (.capt h (BitVec.ofNat 6 m) (← pImm f.a))
  | 0x0CA => do
    term h
    plain h
    let m ← f.modBelow 64
    pZero f.d
    .ok (.replay h (BitVec.ofNat 6 m) (← pImm f.a) (← pXI f.b))
  | 0x0CB => do
    term h
    bare f (.exit h)
  | 0x0CC => do
    term h
    bare f (.yield h)
  | 0x0CD => do
    let m ← f.modBelow 4
    pZero f.b
    let a ← pP f.a
    if f.d.toNat / 2 ^ 14 = 1 then .ok (.gmask h (.p (← pP f.d) (← BallotMode.ofCode m)) a)
    else do
      f.noMod
      .ok (.gmask h (.x (← pX f.d)) a)
  | 0x0CE => do
    let m ← f.modBelow 16
    pZero f.a
    pZero f.b
    .ok (.hartid h (← HidSel.ofCode m) (← pX f.d))
  | _ => .error .opcodeUnassigned

/-- The row-control words (R126). -/
def decRow (f : Fields) (h : Hdr) : DecM Instr :=
  match f.opc.toNat with
  | 0x100 => rowR f (.act h)
  | 0x101 => rowG f (.actw h)
  | 0x102 => rowR f (.wb h)
  | 0x103 => rowR f (.wbp h)
  | 0x104 => rowG f (.pre h)
  | 0x105 => bare f (.prea h)
  | 0x106 => rowG f (.ref h)
  | 0x107 => do
    let m ← f.modBelow 2
    pZero f.b
    if m = 1 then do
      pZero f.a
      .ok (.refq h (← pX f.d) none)
    else .ok (.refq h (← pX f.d) (some (← pO f.a)))
  | 0x108 => do
    let m ← f.modBelow 4
    pZero f.b
    let d ← pX f.d
    match m with
    | 0 => .ok (.rowq h d (.state (← pO f.a)))
    | 1 => .ok (.rowq h d (.plo (← pO f.a)))
    | 2 => .ok (.rowq h d (.phi (← pO f.a)))
    | _ => do
      pZero f.a
      .ok (.rowq h d .allot)
  | _ => .error .opcodeUnassigned

/-- The lane words (R191 to R208). -/
def decLane (f : Fields) (h : Hdr) : DecM Instr :=
  match f.opc.toNat with
  | 0x140 => do
    f.noMod
    pZero f.b
    .ok (.setvl h (← pX f.d) (← pSrc f.a))
  | 0x141 => do
    f.noMod
    pZero f.b
    .ok (.setvt h (← pX f.d) (← pSrc f.a))
  | 0x142 => lane2 f (.vadd h)
  | 0x143 => lane2 f (.vsub h)
  | 0x144 => lane2 f (.vmul h)
  | 0x145 => lane2 f (.vmulh h)
  | 0x146 => lane2 f (.vmad h)
  | 0x147 => lane2 f (.vmin h)
  | 0x148 => lane2 f (.vmax h)
  | 0x149 => lane1 f (.vabs h)
  | 0x14A => lane1 f (.vneg h)
  | 0x14B => lane2 f (.vand h)
  | 0x14C => lane2 f (.vor h)
  | 0x14D => lane2 f (.vxor h)
  | 0x14E => lane1 f (.vnot h)
  | 0x14F => lane2 f (.vshl h)
  | 0x150 => lane2 f (.vshr h)
  | 0x151 => lane2 f (.vsar h)
  | 0x152 => lane2 f (.vsadd h)
  | 0x153 => lane2 f (.vssub h)
  | 0x154 => lane2 f (.vavg h)
  | 0x155 => lane1 f (.vclz h)
  | 0x156 => lane1 f (.vpopc h)
  | 0x157 => lane2 f (.vfadd h)
  | 0x158 => lane2 f (.vfsub h)
  | 0x159 => lane2 f (.vfmul h)
  | 0x15A => do
    let m ← f.mask 4
    .ok (.vfma h m.1 (nbit m.2 0) (nbit m.2 1) (← pO f.d) (← pLS f.a) (← pLS f.b))
  | 0x15B => lane2 f (.vfdiv h)
  | 0x15C => lane1 f (.vfsqrt h)
  | 0x15D => lane1 f (.vfrcp h)
  | 0x15E => lane2 f (.vfmin h)
  | 0x15F => lane2 f (.vfmax h)
  | 0x160 => lane1 f (.vfabs h)
  | 0x161 => lane1 f (.vfneg h)
  | 0x162 => do
    let m ← f.mask 16
    .ok (.vcmp h m.1 (← VCond.ofCode m.2) (← pM f.d) (← pLS f.a) (← pLS f.b))
  | 0x163 => do
    let m ← f.mask 16
    .ok (.vfcmp h m.1 (← FCond.ofCode m.2) (← pM f.d) (← pLS f.a) (← pLS f.b))
  | 0x164 => mask2 f (.mand h)
  | 0x165 => mask2 f (.mor h)
  | 0x166 => mask2 f (.mxor h)
  | 0x167 => do
    f.noMod
    pZero f.b
    .ok (.mnot h (← pM f.d) (← pM f.a))
  | 0x168 => maskCount f (.mpopc h)
  | 0x169 => maskCount f (.mfirst h)
  | 0x16A => do
    let m ← f.maskOn 1
    .ok (.vsel h m.1 (← pO f.d) (← pLS f.a) (← pLS f.b))
  | 0x16B => do
    let m ← f.mask 128
    pZero f.b
    .ok (.vcvt h m.1 (← CvtFmt.ofCode (m.2 % 16)) (BitVec.ofNat 3 (m.2 / 16)) (← pO f.d) (← pLg f.a))
  | 0x16C => scaledConv f true (.vmxq h)
  | 0x16D => scaledConv f false (.vmxd h)
  | 0x16E => scaledConv f true (.vlqq h)
  | 0x16F => scaledConv f false (.vlqd h)
  | 0x170 => do
    let m ← f.mask 1
    pZero f.b
    .ok (.vmov h m.1 (← pO f.d) (← pLg f.a))
  | 0x171 => do
    let m ← f.mask 1
    pZero f.b
    .ok (.vsplat h m.1 (← pO f.d) (← pSrc f.a))
  | 0x172 => do
    f.noMod
    .ok (.vext h (← pX f.d) (← pLg f.a) (← pSrc f.b))
  | 0x173 => do
    f.noMod
    .ok (.vins h (← pO f.d) (← pSrc f.a) (← pSrc f.b))
  | 0x174 => do
    let m ← f.mask 1
    .ok (.vperm h m.1 (← pO f.d) (← pLg f.a) (← pO f.b))
  | 0x175 => do
    let m ← f.mask 1
    .ok (.vslide h m.1 (← pO f.d) (← pLg f.a) (← pSrc f.b))
  | 0x176 => compress f (.vcomp h)
  | 0x177 => compress f (.vexp h)
  | 0x178 => do
    let m ← f.mask 1
    .ok (.vgath h m.1 (← pO f.d) (← pO f.a) (← pO f.b))
  | 0x179 => do
    let m ← f.mask 2
    pZero f.a
    if m.2 = 1 ∧ m.1.me = false then .error .modReserved
    .ok (.viota h (m.2 == 1) m.1 (← pO f.d) (← pSrc f.b))
  | 0x17A => reduce f (.vreds h)
  | 0x17B => reduce f (.vredmin h)
  | 0x17C => reduce f (.vredmax h)
  | 0x17D => do
    let m ← f.mask 2
    .ok (.vfreds h m.1 (m.2 == 1) (← pX f.d) (← pLg f.a) (← pSrc f.b))
  | 0x17E => do
    let m ← f.mask 2
    .ok (.vscan h m.1 (m.2 == 1) (← pO f.d) (← pLg f.a) (← pOpt pM f.b))
  | 0x17F => do
    let m ← f.mask 2
    let d ← pO f.d
    let a ← pLg f.a
    let b ← pO f.b
    if !scaleApart d a b then .error .latchOverlap
    .ok (.vsortk h m.1 (m.2 == 1) d a b)
  | 0x180 => do
    let m ← f.mask 2
    pZero f.b
    .ok (.vuniq h m.1 (m.2 == 1) (← pM f.d) (← pLg f.a))
  | _ => .error .opcodeUnassigned

/-- The shuffle-bus words (R215). -/
def decBus (f : Fields) (h : Hdr) : DecM Instr :=
  match f.opc.toNat with
  | 0x200 => bus f (.rshuf h)
  | 0x201 => bus f (.rbcast h)
  | 0x202 => bus f (.rxch h)
  | 0x203 => bus f (.rrot h)
  | 0x204 => do
    f.noMod
    pZero f.b
    .ok (.rseg h (← pO f.d) (← pO f.a))
  | _ => .error .opcodeUnassigned

/-- The matrix and accumulator words (R233). -/
def decMatrix (f : Fields) (h : Hdr) : DecM Instr :=
  match f.opc.toNat with
  | 0x220 => do
    let m ← f.modBelow 64
    pZero f.d
    .ok (.tload h (← BFmt.ofCode (m % 16)) (nbit m 4) (← pG f.a) (← pScale (nbit m 5) f.b))
  | 0x221 => do
    let m := f.mod.toNat
    .ok (.tmma h (← AFmt.ofCode (m % 16)) (nbit m 4) (f.mod.extractLsb' 5 2) (nbit m 8) (f.mod.extractLsb' 9 3)
      (← pA f.d) (← pG f.a) (← pScale (nbit m 7) f.b))
  | 0x222 => do
    let m ← f.modBelow 2
    pZero f.a
    pZero f.b
    .ok (.accz h (m == 1) (← pA f.d))
  | 0x223 => do
    let m ← f.modBelow 16
    .ok (.accrd h (← AccFmt.ofCode m) (← pO f.d) (← pA f.a) (← pSrc f.b))
  | 0x224 => do
    let m ← f.modBelow 16
    .ok (.accwr h (← AccFmt.ofCode m) (← pA f.d) (← pO f.a) (← pSrc f.b))
  | 0x225 => do
    let m ← f.modBelow 2
    pZero f.b
    .ok (.accclm h (m == 1) (← pP f.d) (← pA f.a))
  | 0x226 => do
    f.noMod
    pZero f.a
    pZero f.b
    .ok (.accrel h (← pA f.d))
  | 0x227 => do
    let m ← f.modBelow 4
    .ok (.accsv h (← pComp m f.b) (← pX f.d) (← pA f.a))
  | 0x228 => do
    let m ← f.modBelow 4
    .ok (.accld h (← pComp m f.b) (← pA f.d) (← pX f.a))
  | 0x229 => do
    let m ← f.modBelow 4
    pZero f.b
    let d ← pX f.d
    match m with
    | 0 => .ok (.tstat h (.slot (← pA f.a)) d)
    | 1 => do
      pZero f.a
      .ok (.tstat h .half d)
    | 2 => do
      pZero f.a
      .ok (.tstat h .budget d)
    | _ => .ok (.tstat h (.satclr (← pA f.a)) d)
  | _ => .error .opcodeUnassigned

/-- The pool and scalar memory words (R261). -/
def decPool (f : Fields) (h : Hdr) : DecM Instr :=
  match f.opc.toNat with
  | 0x260 => do
    let m ← f.modBelow 16
    memD f (.ld h (← LdTy.ofCode (m % 8)) (nbit m 3))
  | 0x261 => do
    let m ← f.modBelow 16
    if nbit m 2 then .error .modReserved
    memD f (.st h (← StSz.ofCode (m % 4)) (nbit m 3))
  | 0x262 => do
    f.noMod
    memD f (.lde h)
  | 0x263 => do
    f.noMod
    memD f (.ste h)
  | 0x264 => do
    f.noMod
    memD f (.ldf h)
  | 0x265 => do
    f.noMod
    memD f (.stf h)
  | 0x266 => do
    let m ← f.modBelow 2
    memD f (.tagr h (m == 1))
  | 0x267 => do
    let m ← f.modBelow 2
    memD f (.tagw h (m == 1))
  | 0x268 => do
    let m ← f.modBelow 2
    pZero f.d
    .ok (.pref h (m == 1) (← pX f.a) (← pDisp f.b))
  | 0x269 => do
    let m ← f.modBelow 8
    let d ← pX f.d
    if d.val + m < 64 then memD f (.ldv h (BitVec.ofNat 3 m)) else .error .modReserved
  | 0x26A => do
    let m ← f.modBelow 8
    let d ← pX f.d
    if d.val + m < 64 then memD f (.stv h (BitVec.ofNat 3 m)) else .error .modReserved
  | 0x26B => do
    .ok (.cinv h (← pRange f))
  | 0x26C => do
    .ok (.cwb h (← pRange f))
  | 0x26D => do
    let m ← f.modW 16
    .ok (.amop h (← AOp.ofCode m.2) m.1 (← pX f.d) (← pX f.a) (← pSrc f.b))
  | _ => .error .opcodeUnassigned

/-- The global memory and atomic words (R291). -/
def decGlobal (f : Fields) (h : Hdr) : DecM Instr :=
  match f.opc.toNat with
  | 0x2A0 => do
    let m ← f.modW 16
    let op ← AOp.ofCode m.2
    if !op.forAmo then .error .modReserved
    .ok (.amo h op m.1 (← pX f.d) (← pX f.a) (← pSrc f.b))
  | 0x2A1 => do
    let m ← f.modBelow 4
    let sz ← CasSize.ofCode m
    let d ← pX f.d
    let b ← pX f.b
    if sz == .q && !(d.val % 2 == 0 && b.val % 2 == 0) then .error .modReserved
    .ok (.cas h sz d (← pX f.a) b)
  | 0x2A2 => do
    let m ← f.modW 16
    let op ← AOp.ofCode m.2
    if !op.forRed then .error .modReserved
    pZero f.d
    .ok (.red h op m.1 (← pX f.a) (← pSrc f.b))
  | 0x2A3 => do
    let m ← f.mask 32
    let op ← AOp.ofCode (m.2 % 16)
    if !op.forRed then .error .modReserved
    let d ← pO f.d
    let a ← pX f.a
    if m.2 / 16 = 1 then .ok (.redv h m.1 op d a (.ix (← pO f.b))) else .ok (.redv h m.1 op d a (.disp (← pSrc f.b)))
  | 0x2A4 => do
    let m ← f.modBelow 16
    pZero f.d
    pZero f.a
    pZero f.b
    .ok (.redf h (← Scope.ofCode m))
  | 0x2A5 => do
    let m ← f.modBelow 2
    .ok (.pgq h (m == 1) (← pX f.d) (← pX f.a) (← pSrc f.b))
  | _ => .error .opcodeUnassigned

/-- The fences (R312, R314). -/
def decFence (f : Fields) (h : Hdr) : DecM Instr :=
  match f.opc.toNat with
  | 0x2C0 => do
    let m ← f.modBelow 16
    pZero f.d
    pZero f.b
    let a ← pImm f.a
    if a.toNat < 2 ^ 16 then .ok (.fence h (← Scope.ofCode m) (a.extractLsb' 0 8) (a.extractLsb' 8 8))
    else .error .operand
  | 0x2C1 => bare f (.ifence h)
  | _ => .error .opcodeUnassigned

/-- The engine words and waits (R333). -/
def decEngine (f : Fields) (h : Hdr) : DecM Instr :=
  match f.opc.toNat with
  | 0x2D0 => do
    let m ← f.mask 1
    .ok (.enq h m.1 (← pM f.d) (← pO f.a) (← pSrc f.b))
  | 0x2D1 => do
    f.noMod
    pZero f.b
    let a ← pX f.a
    if a.val ≤ 56 then .ok (.enq1 h (← pX f.d) a) else .error .modReserved
  | 0x2D2 => do
    let m ← f.modBelow 4
    pZero f.a
    let d ← pX f.d
    match m with
    | 0 => .ok (.estat h (.slot (← pSrc f.b)) d)
    | 1 => .ok (.estat h (.chan (← pSrc f.b)) d)
    | 2 => do
      pZero f.b
      .ok (.estat h .mine d)
    | _ => .error .modReserved
  | 0x2D3 => do
    f.noMod
    pZero f.a
    .ok (.esusp h (← pX f.d) (← pSrc f.b))
  | 0x2D4 => do
    f.noMod
    pZero f.d
    .ok (.bari h (← pX f.a) (← pSrc f.b))
  | 0x2D5 => objB f (.barp h)
  | 0x2D6 => objB f (.bara h)
  | 0x2D7 => objB f (.barw h)
  | 0x2D8 => do
    let m ← f.modBelow 8
    .ok (.wait h (← WCond.ofCode m) (← pX f.d) (← pX f.a) (← pSrc f.b))
  | 0x2D9 => do
    let m ← f.modBelow 16
    pZero f.b
    .ok (.waitv h (nbit m 0) (BitVec.ofNat 3 (m / 2)) (← pX f.d) (← pX f.a))
  | _ => .error .opcodeUnassigned

/-- The Sifter words (R355). -/
def decSifter (f : Fields) (h : Hdr) : DecM Instr :=
  match f.opc.toNat with
  | 0x2F0 => do
    f.noMod
    .ok (.sfcfg h (← pP f.d) (← pX f.a) (← pSrc f.b))
  | 0x2F1 => do
    let m ← f.mask 1
    .ok (.sfpush h m.1 (← pX f.d) (← pO f.a) (← pSrc f.b))
  | 0x2F2 => do
    let m ← f.modBelow 4
    .ok (.sfround h (← pComp m f.b) (← pX f.d) (← pSrc f.a))
  | 0x2F3 => do
    let m ← f.modBelow 8
    .ok (.sfdrain h (nbit m 2) (← pComp (m % 4) f.b) (← pX f.d) (← pSrc f.a))
  | 0x2F4 => do
    let m ← f.modBelow 4
    pZero f.a
    pZero f.b
    .ok (.sfstat h (← SfstatSel.ofCode m) (← pX f.d))
  | _ => .error .opcodeUnassigned

/-- The system words (R382). -/
def decSystem (f : Fields) (h : Hdr) : DecM Instr :=
  match f.opc.toNat with
  | 0x300 => do
    f.noMod
    pZero f.b
    let n ← pReg 5 16384 f.a
    .ok (.csrr h (← pX f.d) (← Csr.ofCode n.val))
  | 0x301 => csrWrite f (.csrw h)
  | 0x302 => csrWrite f (.csrs h)
  | 0x303 => csrWrite f (.csrc h)
  | 0x304 => do
    term h
    let m ← f.modBelow 256
    pZero f.d
    pZero f.b
    if 1 ≤ m ∧ m ≤ 0x1A then .ok (.trap h (BitVec.ofNat 8 m) (← pSrc f.a)) else .error .modReserved
  | 0x305 => do
    term h
    plain h
    bare f (.eret h)
  | 0x306 => do
    term h
    f.noMod
    pZero f.d
    pZero f.b
    .ok (.halt h (← pSrc f.a))
  | 0x307 => do
    let m ← f.modBelow 2
    pZero f.b
    let d ← pX f.d
    if m = 1 then .ok (.wdog h d (some (← pSrc f.a)))
    else do
      pZero f.a
      .ok (.wdog h d none)
  | 0x308 => do
    let m ← f.modBelow 8
    pZero f.a
    pZero f.b
    .ok (.ctxq h (← CtxqSel.ofCode m) (← pX f.d))
  | 0x309 => do
    term h
    f.noMod
    pZero f.d
    pZero f.b
    .ok (.bkpt h (← pImm f.a))
  | _ => .error .opcodeUnassigned

/-- The launch words (R404). -/
def decLaunch (f : Fields) (h : Hdr) : DecM Instr :=
  match f.opc.toNat with
  | 0x340 => do
    f.noMod
    memD f (.launch h)
  | 0x341 => objB f (.depdec h)
  | 0x342 => do
    f.noMod
    pZero f.b
    .ok (.depq h (← pX f.d) (← pX f.a))
  | _ => .error .opcodeUnassigned

/-- PFX (R34): C = 1, [84:64] zero, the immediate in [63:0]. -/
def decPfx (f : Fields) : DecM Instr :=
  if f.c ∧ f.gn = false ∧ f.gp = 0 ∧ f.stall = 0 ∧ f.hint = 0 ∧ f.mod.toNat < 16 then
    .ok (.pfx (f.mod.extractLsb' 0 4 ++ f.d ++ f.a ++ f.b))
  else .error .pfxFields

/-- The instruction of a word given by its fields (R37, R40). -/
def decodeFields (f : Fields) : DecM Instr := do
  if f.opc = 0 then .error .opcodeZero
  if f.opc = 0x350 then decPfx f
  else do
    let h ← f.hdr
    match f.opc.toNat / 0x40, f.opc.toNat / 0x10 with
    | 0x0, _ => decInt f h
    | 0x2, _ => decFp f h
    | 0x3, _ => decControl f h
    | 0x4, _ => decRow f h
    | 0x5, _ => decLane f h
    | 0x6, _ => decLane f h
    | 0x8, 0x20 => decBus f h
    | 0x8, 0x22 => decMatrix f h
    | 0x9, _ => decPool f h
    | 0xA, _ => decGlobal f h
    | 0xB, 0x2C => decFence f h
    | 0xB, 0x2D => decEngine f h
    | 0xB, 0x2F => decSifter f h
    | 0xC, _ => decSystem f h
    | 0xD, _ => decLaunch f h
    | _, _ => .error .opcodeUnassigned

/-- The instruction of a 96-bit word. -/
def decode (w : IWord) : DecM Instr := decodeFields (Fields.ofWord w)

/-- The little-endian word in the first 12 of these bytes (R9, R14). -/
def wordOfBytes (bs : List Byte) : IWord :=
  bs.take 12 |>.foldr (fun b acc => (acc <<< 8) ||| b.setWidth 96) 0

/-- The 12 bytes of a word, from the lowest address up (R9). -/
def bytesOfWord (w : IWord) : List Byte := (List.range 12).map fun k => w.extractLsb' (8 * k) 8

/-- The decoder on any bytes: an instruction and the bytes after it, or the name of the refusal. -/
def decodeBytes (bs : List Byte) : DecM (Instr × List Byte) :=
  if bs.length < 12 then .error .short
  else do
    let i ← decode (wordOfBytes bs)
    .ok (i, bs.drop 12)

/-- The instruction that the decoder reads from the bits `w` of an instruction of `nbits` bits. Every instruction word is
one 96-bit word stored least significant byte first, so bit 0 is the least significant bit of the first byte. -/
def decodeTableWord (nbits w : Nat) : Option Instr :=
  if nbits ≤ 96 then
    match decodeBytes (bytesOfWord (BitVec.ofNat 96 (w % 2 ^ nbits))) with
    | .ok (i, _) => some i
    | .error _ => none
  else none

/-- Whether every class-10 field of the word stands in a field whose entry accepts class 10 (R36). -/
def Fields.longAccepted (f : Fields) : Bool :=
  !isLongField f.d && (!isLongField f.a || acceptsA) && (!isLongField f.b || acceptsB)
where
  o : Nat := f.opc.toNat
  m : Nat := f.mod.toNat
  within (x y : Nat) : Bool := x ≤ o && o ≤ y
  acceptsA : Bool :=
    within 0x001 0x026 || within 0x080 0x08D || o == 0x0C1 || o == 0x0C3 || o == 0x0C6 || o == 0x100 || o == 0x102
      || o == 0x103 || within 0x140 0x163 || o == 0x16A || o == 0x171 || o == 0x173 || o == 0x2F2 || o == 0x2F3
      || within 0x301 0x304 || o == 0x306 || (o == 0x307 && nbit m 0)
  acceptsB : Bool :=
    within 0x001 0x013 || within 0x01C 0x01F || o == 0x021 || o == 0x025 || o == 0x026 || within 0x080 0x083
      || within 0x085 0x087 || o == 0x08A || o == 0x0C6 || within 0x142 0x148 || within 0x14B 0x14D
      || within 0x14F 0x154 || within 0x157 0x15B || o == 0x15E || o == 0x15F || o == 0x162 || o == 0x163
      || o == 0x16A || o == 0x172 || o == 0x173 || o == 0x175 || within 0x179 0x17D || within 0x200 0x203
      || o == 0x223 || o == 0x224 || within 0x260 0x26A || ((o == 0x26B || o == 0x26C) && !nbit m 0) || o == 0x26D
      || o == 0x2A0 || o == 0x2A2 || (o == 0x2A3 && !nbit m 9) || o == 0x2A5 || o == 0x2D0
      || (o == 0x2D2 && m % 4 != 2) || within 0x2D3 0x2D8 || o == 0x2F0 || o == 0x2F1 || o == 0x340 || o == 0x341

/-! ### The encoder -/

/-- A register field (R21). -/
def eReg (file k : Nat) : BitVec 20 := BitVec.ofNat 20 (file * 2 ^ 14 + k)
/-- An `x` register. -/
def eX (r : XReg) : BitVec 20 := eReg 0 r.val
/-- A predicate. -/
def eP (r : PReg) : BitVec 20 := eReg 1 r.val
/-- A latch of the hart's own bank. -/
def eO (g : Lat) : BitVec 20 := eReg 2 g.val
/-- An element mask. -/
def eM (m : Msk) : BitVec 20 := eReg 3 m.val
/-- An accumulator slot. -/
def eA (a : Acc) : BitVec 20 := eReg 4 a.val
/-- A control register. -/
def eC (c : Csr) : BitVec 20 := eReg 5 c.code
/-- A gang-addressed latch. -/
def eG (l : GLat) : BitVec 20 := eReg 6 (l.bank.val * 4 + l.g.val)
/-- A short immediate. -/
def eImm (v : BitVec 18) : BitVec 20 := 1#2 ++ v
/-- A class-10 field (R35). -/
def eLong : LongSel → BitVec 20
  | .full => 0x80000
  | .sx false => 0x90000
  | .sx true => 0x98000
  | .zx false => 0xA0000
  | .zx true => 0xA8000
/-- A scalar source. -/
def eSrc : Src → BitVec 20
  | .x r => eX r
  | .imm v => eImm v
  | .long s => eLong s
/-- An `x` or `p` destination. -/
def eXP : XP → BitVec 20
  | .x r => eX r
  | .p r => eP r
/-- A latch source. -/
def eLg : LatRef → BitVec 20
  | .own g => eO g
  | .gang l => eG l
/-- A lane source. -/
def eLS : LOp → BitVec 20
  | .lat l => eLg l
  | .s v => eSrc v
/-- An optional operand. -/
def eOpt {α : Type} (e : α → BitVec 20) : Option α → BitVec 20
  | none => 0
  | some x => e x
/-- A bit as a number. -/
def b2n (b : Bool) : Nat := if b then 1 else 0
/-- MOD with W (R89). -/
def mW (w : Bool) (n : Nat) : BitVec 12 := BitVec.ofNat 12 (b2n w * 2 ^ 11 + n)
/-- MOD with the mask modifier and MOD[11:5] (R181). -/
def mMask (m : MaskMod) (n : Nat) : BitVec 12 :=
  BitVec.ofNat 12 (m.mi.val + 8 * b2n m.me + 16 * b2n m.mn + 32 * n)
/-- MOD of the floating-point words (R100). -/
def mFp (f : FFmt) (rm : FRm) (n : Nat) : BitVec 12 := BitVec.ofNat 12 (f.code + 4 * rm.code + 32 * n)
/-- MOD of the scaled conversions (R199). -/
def mScaled (wf : WideFmt) (seg part : BitVec 4) : BitVec 12 :=
  BitVec.ofNat 12 (wf.code + 4 * seg.toNat + 64 * part.toNat)
/-- A MOD value. -/
def mN (n : Nat) : BitVec 12 := BitVec.ofNat 12 n
/-- COMP (R233). -/
def CompSpec.code : CompSpec → Nat
  | .none => 0 | .word _ => 1 | .bar _ => 2
/-- The specifier field. -/
def eComp : CompSpec → BitVec 20
  | .none => 0
  | .word r => eX r
  | .bar r => eX r
/-- The fields of a word with this header. -/
def mk (h : Hdr) (opc : Nat) (mod : BitVec 12) (d a b : BitVec 20) : Fields where
  opc := BitVec.ofNat 10 opc
  c := h.c
  gn := h.gn
  gp := BitVec.ofFin h.gp
  stall := h.stall
  hint := BitVec.ofNat 2 h.hint.code
  mod := mod
  d := d
  a := a
  b := b

/-- The fields of an instruction; none for an event, which has no encoding. -/
def encodeFields : Instr → Option Fields
  | .add h w d a b => some (mk h 0x001 (mW w 0) (eX d) (eSrc a) (eSrc b))
  | .sub h w d a b => some (mk h 0x002 (mW w 0) (eX d) (eSrc a) (eSrc b))
  | .mul h w d a b => some (mk h 0x003 (mW w 0) (eX d) (eSrc a) (eSrc b))
  | .mulh h d a b => some (mk h 0x004 0 (eX d) (eSrc a) (eSrc b))
  | .mulhn h d a b => some (mk h 0x005 0 (eX d) (eSrc a) (eSrc b))
  | .div h w d a b => some (mk h 0x006 (mW w 0) (eX d) (eSrc a) (eSrc b))
  | .divn h w d a b => some (mk h 0x007 (mW w 0) (eX d) (eSrc a) (eSrc b))
  | .rem h w d a b => some (mk h 0x008 (mW w 0) (eX d) (eSrc a) (eSrc b))
  | .remn h w d a b => some (mk h 0x009 (mW w 0) (eX d) (eSrc a) (eSrc b))
  | .and h d a b => some (mk h 0x00A 0 (eX d) (eSrc a) (eSrc b))
  | .or h d a b => some (mk h 0x00B 0 (eX d) (eSrc a) (eSrc b))
  | .xor h d a b => some (mk h 0x00C 0 (eX d) (eSrc a) (eSrc b))
  | .andn h d a b => some (mk h 0x00D 0 (eX d) (eSrc a) (eSrc b))
  | .shl h w d a b => some (mk h 0x00E (mW w 0) (eX d) (eSrc a) (eSrc b))
  | .shr h w d a b => some (mk h 0x00F (mW w 0) (eX d) (eSrc a) (eSrc b))
  | .sar h w d a b => some (mk h 0x010 (mW w 0) (eX d) (eSrc a) (eSrc b))
  | .rol h w d a b => some (mk h 0x011 (mW w 0) (eX d) (eSrc a) (eSrc b))
  | .fshl h d a b => some (mk h 0x012 0 (eX d) (eSrc a) (eSrc b))
  | .fshr h d a b => some (mk h 0x013 0 (eX d) (eSrc a) (eSrc b))
  | .min h w d a b => some (mk h 0x01C (mW w 0) (eX d) (eSrc a) (eSrc b))
  | .max h w d a b => some (mk h 0x01D (mW w 0) (eX d) (eSrc a) (eSrc b))
  | .minn h w d a b => some (mk h 0x01E (mW w 0) (eX d) (eSrc a) (eSrc b))
  | .maxn h w d a b => some (mk h 0x01F (mW w 0) (eX d) (eSrc a) (eSrc b))
  | .bfx h pos len1 d a => some (mk h 0x014 (len1 ++ pos) (eX d) (eSrc a) 0)
  | .bfxn h pos len1 d a => some (mk h 0x015 (len1 ++ pos) (eX d) (eSrc a) 0)
  | .bfi h pos len1 d a => some (mk h 0x016 (len1 ++ pos) (eX d) (eSrc a) 0)
  | .clz h w d a => some (mk h 0x017 (mW w 0) (eX d) (eSrc a) 0)
  | .ctz h w d a => some (mk h 0x018 (mW w 0) (eX d) (eSrc a) 0)
  | .popc h w d a => some (mk h 0x019 (mW w 0) (eX d) (eSrc a) 0)
  | .brev h w d a => some (mk h 0x01A (mW w 0) (eX d) (eSrc a) 0)
  | .bswap h w d a => some (mk h 0x01B (mW w 0) (eX d) (eSrc a) 0)
  | .abs h w d a => some (mk h 0x020 (mW w 0) (eX d) (eSrc a) 0)
  | .sel h p neg d a b => some (mk h 0x021 (mN (p.val + 16 * b2n neg)) (eX d) (eSrc a) (eSrc b))
  | .mov h (.xs d a) => some (mk h 0x022 0 (eX d) (eSrc a) 0)
  | .mov h (.xp d a) => some (mk h 0x022 0 (eX d) (eP a) 0)
  | .mov h (.pp d a) => some (mk h 0x022 0 (eP d) (eP a) 0)
  | .mov h (.px d a) => some (mk h 0x022 0 (eP d) (eX a) 0)
  | .sext h size d a => some (mk h 0x023 (mN size.code) (eX d) (eSrc a) 0)
  | .zext h size d a => some (mk h 0x024 (mN size.code) (eX d) (eSrc a) 0)
  | .cmp h cond w d a b => some (mk h 0x025 (mW w cond.code) (eXP d) (eSrc a) (eSrc b))
  | .lea h k d a b => some (mk h 0x026 (mN k.toNat) (eX d) (eSrc a) (eSrc b))
  | .pand h op d a b => some (mk h 0x027 (mN op.code) (eP d) (eP a) (eP b))
  | .fadd h f rm d a b => some (mk h 0x080 (mFp f rm 0) (eX d) (eSrc a) (eSrc b))
  | .fsub h f rm d a b => some (mk h 0x081 (mFp f rm 0) (eX d) (eSrc a) (eSrc b))
  | .fmul h f rm d a b => some (mk h 0x082 (mFp f rm 0) (eX d) (eSrc a) (eSrc b))
  | .fdiv h f rm d a b => some (mk h 0x083 (mFp f rm 0) (eX d) (eSrc a) (eSrc b))
  | .fsqrt h f rm d a => some (mk h 0x084 (mFp f rm 0) (eX d) (eSrc a) 0)
  | .fma h f rm np na d a b => some (mk h 0x085 (mFp f rm (b2n np + 2 * b2n na)) (eX d) (eSrc a) (eSrc b))
  | .fmin h f d a b => some (mk h 0x086 (mFp f .dyn 0) (eX d) (eSrc a) (eSrc b))
  | .fmax h f d a b => some (mk h 0x087 (mFp f .dyn 0) (eX d) (eSrc a) (eSrc b))
  | .fabs h f d a => some (mk h 0x088 (mFp f .dyn 0) (eX d) (eSrc a) 0)
  | .fneg h f d a => some (mk h 0x089 (mFp f .dyn 0) (eX d) (eSrc a) 0)
  | .fcmp h f cond d a b => some (mk h 0x08A (mFp f .dyn cond.code) (eXP d) (eSrc a) (eSrc b))
  | .fcvt h dty sty rm d a => some (mk h 0x08B (mN (dty.code + 16 * sty.code + 256 * rm.code)) (eX d) (eSrc a) 0)
  | .fclass h f d a => some (mk h 0x08C (mFp f .dyn 0) (eX d) (eSrc a) 0)
  | .frnd h f rm d a => some (mk h 0x08D (mFp f rm 0) (eX d) (eSrc a) 0)
  | .nop h => some (mk h 0x0C0 0 0 0 0)
  | .br h disp => some (mk h 0x0C1 0 0 (eSrc disp) 0)
  | .brx h a b => some (mk h 0x0C2 0 0 (eX a) (eSrc b))
  | .call h l disp => some (mk h 0x0C3 0 (eX l) (eSrc disp) 0)
  | .callx h l a b => some (mk h 0x0C4 0 (eX l) (eX a) (eSrc b))
  | .ret h a => some (mk h 0x0C5 0 0 (eX a) 0)
  | .subbr h d disp amount => some (mk h 0x0C6 0 (eX d) (eSrc disp) (eSrc amount))
  | .brd h target joinAt => some (mk h 0x0C7 0 0 (eImm target) (eImm joinAt))
  | .join h => some (mk h 0x0C8 0 0 0 0)
  | .capt h n1 body => some (mk h 0x0C9 (mN n1.toNat) 0 (eImm body) 0)
  | .replay h n1 body stride => some (mk h 0x0CA (mN n1.toNat) 0 (eImm body) (eSrc stride))
  | .exit h => some (mk h 0x0CB 0 0 0 0)
  | .yield h => some (mk h 0x0CC 0 0 0 0)
  | .gmask h (.x d) a => some (mk h 0x0CD 0 (eX d) (eP a) 0)
  | .gmask h (.p d mode) a => some (mk h 0x0CD (mN mode.code) (eP d) (eP a) 0)
  | .hartid h sel d => some (mk h 0x0CE (mN sel.code) (eX d) 0 0)
  | .act h g row => some (mk h 0x100 0 (eO g) (eSrc row) 0)
  | .actw h g => some (mk h 0x101 0 (eO g) 0 0)
  | .wb h g row => some (mk h 0x102 0 (eO g) (eSrc row) 0)
  | .wbp h g row => some (mk h 0x103 0 (eO g) (eSrc row) 0)
  | .pre h g => some (mk h 0x104 0 (eO g) 0 0)
  | .prea h => some (mk h 0x105 0 0 0 0)
  | .ref h g => some (mk h 0x106 0 (eO g) 0 0)
  | .refq h d none => some (mk h 0x107 (mN 1) (eX d) 0 0)
  | .refq h d (some g) => some (mk h 0x107 0 (eX d) (eO g) 0)
  | .rowq h d (.state g) => some (mk h 0x108 0 (eX d) (eO g) 0)
  | .rowq h d (.plo g) => some (mk h 0x108 (mN 1) (eX d) (eO g) 0)
  | .rowq h d (.phi g) => some (mk h 0x108 (mN 2) (eX d) (eO g) 0)
  | .rowq h d .allot => some (mk h 0x108 (mN 3) (eX d) 0 0)
  | .setvl h d n => some (mk h 0x140 0 (eX d) (eSrc n) 0)
  | .setvt h d v => some (mk h 0x141 0 (eX d) (eSrc v) 0)
  | .vadd h m d a b => some (mk h 0x142 (mMask m 0) (eO d) (eLS a) (eLS b))
  | .vsub h m d a b => some (mk h 0x143 (mMask m 0) (eO d) (eLS a) (eLS b))
  | .vmul h m d a b => some (mk h 0x144 (mMask m 0) (eO d) (eLS a) (eLS b))
  | .vmulh h m d a b => some (mk h 0x145 (mMask m 0) (eO d) (eLS a) (eLS b))
  | .vmad h m d a b => some (mk h 0x146 (mMask m 0) (eO d) (eLS a) (eLS b))
  | .vmin h m d a b => some (mk h 0x147 (mMask m 0) (eO d) (eLS a) (eLS b))
  | .vmax h m d a b => some (mk h 0x148 (mMask m 0) (eO d) (eLS a) (eLS b))
  | .vabs h m d a => some (mk h 0x149 (mMask m 0) (eO d) (eLS a) 0)
  | .vneg h m d a => some (mk h 0x14A (mMask m 0) (eO d) (eLS a) 0)
  | .vand h m d a b => some (mk h 0x14B (mMask m 0) (eO d) (eLS a) (eLS b))
  | .vor h m d a b => some (mk h 0x14C (mMask m 0) (eO d) (eLS a) (eLS b))
  | .vxor h m d a b => some (mk h 0x14D (mMask m 0) (eO d) (eLS a) (eLS b))
  | .vnot h m d a => some (mk h 0x14E (mMask m 0) (eO d) (eLS a) 0)
  | .vshl h m d a b => some (mk h 0x14F (mMask m 0) (eO d) (eLS a) (eLS b))
  | .vshr h m d a b => some (mk h 0x150 (mMask m 0) (eO d) (eLS a) (eLS b))
  | .vsar h m d a b => some (mk h 0x151 (mMask m 0) (eO d) (eLS a) (eLS b))
  | .vsadd h m d a b => some (mk h 0x152 (mMask m 0) (eO d) (eLS a) (eLS b))
  | .vssub h m d a b => some (mk h 0x153 (mMask m 0) (eO d) (eLS a) (eLS b))
  | .vavg h m d a b => some (mk h 0x154 (mMask m 0) (eO d) (eLS a) (eLS b))
  | .vclz h m d a => some (mk h 0x155 (mMask m 0) (eO d) (eLS a) 0)
  | .vpopc h m d a => some (mk h 0x156 (mMask m 0) (eO d) (eLS a) 0)
  | .vfadd h m d a b => some (mk h 0x157 (mMask m 0) (eO d) (eLS a) (eLS b))
  | .vfsub h m d a b => some (mk h 0x158 (mMask m 0) (eO d) (eLS a) (eLS b))
  | .vfmul h m d a b => some (mk h 0x159 (mMask m 0) (eO d) (eLS a) (eLS b))
  | .vfma h m np na d a b => some (mk h 0x15A (mMask m (b2n np + 2 * b2n na)) (eO d) (eLS a) (eLS b))
  | .vfdiv h m d a b => some (mk h 0x15B (mMask m 0) (eO d) (eLS a) (eLS b))
  | .vfsqrt h m d a => some (mk h 0x15C (mMask m 0) (eO d) (eLS a) 0)
  | .vfrcp h m d a => some (mk h 0x15D (mMask m 0) (eO d) (eLS a) 0)
  | .vfmin h m d a b => some (mk h 0x15E (mMask m 0) (eO d) (eLS a) (eLS b))
  | .vfmax h m d a b => some (mk h 0x15F (mMask m 0) (eO d) (eLS a) (eLS b))
  | .vfabs h m d a => some (mk h 0x160 (mMask m 0) (eO d) (eLS a) 0)
  | .vfneg h m d a => some (mk h 0x161 (mMask m 0) (eO d) (eLS a) 0)
  | .vcmp h m cond d a b => some (mk h 0x162 (mMask m cond.code) (eM d) (eLS a) (eLS b))
  | .vfcmp h m cond d a b => some (mk h 0x163 (mMask m cond.code) (eM d) (eLS a) (eLS b))
  | .mand h d a b => some (mk h 0x164 0 (eM d) (eM a) (eM b))
  | .mor h d a b => some (mk h 0x165 0 (eM d) (eM a) (eM b))
  | .mxor h d a b => some (mk h 0x166 0 (eM d) (eM a) (eM b))
  | .mnot h d a => some (mk h 0x167 0 (eM d) (eM a) 0)
  | .mpopc h m d a => some (mk h 0x168 (mMask m 0) (eX d) (eM a) 0)
  | .mfirst h m d a => some (mk h 0x169 (mMask m 0) (eX d) (eM a) 0)
  | .vsel h m d a b => some (mk h 0x16A (mMask m 0) (eO d) (eLS a) (eLS b))
  | .vcvt h m sty part d a => some (mk h 0x16B (mMask m (sty.code + 16 * part.toNat)) (eO d) (eLg a) 0)
  | .vmxq h wf seg part d a b => some (mk h 0x16C (mScaled wf seg part) (eO d) (eLg a) (eO b))
  | .vmxd h wf seg part d a b => some (mk h 0x16D (mScaled wf seg part) (eO d) (eLg a) (eO b))
  | .vlqq h wf seg part d a b => some (mk h 0x16E (mScaled wf seg part) (eO d) (eLg a) (eO b))
  | .vlqd h wf seg part d a b => some (mk h 0x16F (mScaled wf seg part) (eO d) (eLg a) (eO b))
  | .vmov h m d a => some (mk h 0x170 (mMask m 0) (eO d) (eLg a) 0)
  | .vsplat h m d a => some (mk h 0x171 (mMask m 0) (eO d) (eSrc a) 0)
  | .vext h d a b => some (mk h 0x172 0 (eX d) (eLg a) (eSrc b))
  | .vins h d a b => some (mk h 0x173 0 (eO d) (eSrc a) (eSrc b))
  | .vperm h m d a b => some (mk h 0x174 (mMask m 0) (eO d) (eLg a) (eO b))
  | .vslide h m d a b => some (mk h 0x175 (mMask m 0) (eO d) (eLg a) (eSrc b))
  | .vcomp h m d a => some (mk h 0x176 (mMask m 0) (eO d) (eLg a) 0)
  | .vexp h m d a => some (mk h 0x177 (mMask m 0) (eO d) (eLg a) 0)
  | .vgath h m d a b => some (mk h 0x178 (mMask m 0) (eO d) (eO a) (eO b))
  | .viota h rank m d b => some (mk h 0x179 (mMask m (b2n rank)) (eO d) 0 (eSrc b))
  | .vreds h m d a b => some (mk h 0x17A (mMask m 0) (eX d) (eLg a) (eSrc b))
  | .vredmin h m d a b => some (mk h 0x17B (mMask m 0) (eX d) (eLg a) (eSrc b))
  | .vredmax h m d a b => some (mk h 0x17C (mMask m 0) (eX d) (eLg a) (eSrc b))
  | .vfreds h m wide d a b => some (mk h 0x17D (mMask m (b2n wide)) (eX d) (eLg a) (eSrc b))
  | .vscan h m excl d a b => some (mk h 0x17E (mMask m (b2n excl)) (eO d) (eLg a) (eOpt eM b))
  | .vsortk h m desc d a b => some (mk h 0x17F (mMask m (b2n desc)) (eO d) (eLg a) (eO b))
  | .vuniq h m last d a => some (mk h 0x180 (mMask m (b2n last)) (eM d) (eLg a) 0)
  | .rshuf h d a b => some (mk h 0x200 0 (eO d) (eO a) (eSrc b))
  | .rbcast h d a b => some (mk h 0x201 0 (eO d) (eO a) (eSrc b))
  | .rxch h d a b => some (mk h 0x202 0 (eO d) (eO a) (eSrc b))
  | .rrot h d a b => some (mk h 0x203 0 (eO d) (eO a) (eSrc b))
  | .rseg h d a => some (mk h 0x204 0 (eO d) (eO a) 0)
  | .tload h bf half tile scale => some (mk h 0x220 (mN (bf.code + 16 * b2n half + 32 * b2n scale.isSome)) 0 (eG tile) (eOpt eG scale))
  | .tmma h af half kq z aseg d a scale =>
      some (mk h 0x221 (mN (af.code + 16 * b2n half + 32 * kq.toNat + 128 * b2n scale.isSome + 256 * b2n z
        + 512 * aseg.toNat)) (eA d) (eG a) (eOpt eG scale))
  | .accz h edge a => some (mk h 0x222 (mN (b2n edge)) (eA a) 0 0)
  | .accrd h fmt d a row => some (mk h 0x223 (mN fmt.code) (eO d) (eA a) (eSrc row))
  | .accwr h fmt d a row => some (mk h 0x224 (mN fmt.code) (eA d) (eO a) (eSrc row))
  | .accclm h int d a => some (mk h 0x225 (mN (b2n int)) (eP d) (eA a) 0)
  | .accrel h a => some (mk h 0x226 0 (eA a) 0 0)
  | .accsv h comp addr a => some (mk h 0x227 (mN comp.code) (eX addr) (eA a) (eComp comp))
  | .accld h comp a addr => some (mk h 0x228 (mN comp.code) (eA a) (eX addr) (eComp comp))
  | .tstat h (.slot a) d => some (mk h 0x229 0 (eX d) (eA a) 0)
  | .tstat h .half d => some (mk h 0x229 (mN 1) (eX d) 0 0)
  | .tstat h .budget d => some (mk h 0x229 (mN 2) (eX d) 0 0)
  | .tstat h (.satclr a) d => some (mk h 0x229 (mN 3) (eX d) (eA a) 0)
  | .ld h ty na d base disp => some (mk h 0x260 (mN (ty.code + 8 * b2n na)) (eX d) (eX base) (eSrc disp))
  | .st h sz na s base disp => some (mk h 0x261 (mN (sz.code + 8 * b2n na)) (eX s) (eX base) (eSrc disp))
  | .lde h d base disp => some (mk h 0x262 0 (eX d) (eX base) (eSrc disp))
  | .ste h s base disp => some (mk h 0x263 0 (eX s) (eX base) (eSrc disp))
  | .ldf h d base disp => some (mk h 0x264 0 (eX d) (eX base) (eSrc disp))
  | .stf h s base disp => some (mk h 0x265 0 (eX s) (eX base) (eSrc disp))
  | .tagr h blk d base disp => some (mk h 0x266 (mN (b2n blk)) (eX d) (eX base) (eSrc disp))
  | .tagw h blk s base disp => some (mk h 0x267 (mN (b2n blk)) (eX s) (eX base) (eSrc disp))
  | .pref h ex base disp => some (mk h 0x268 (mN (b2n ex)) 0 (eX base) (eSrc disp))
  | .ldv h n1 d base disp => some (mk h 0x269 (mN n1.toNat) (eX d) (eX base) (eSrc disp))
  | .stv h n1 s base disp => some (mk h 0x26A (mN n1.toNat) (eX s) (eX base) (eSrc disp))
  | .cinv h .all => some (mk h 0x26B (mN 1) 0 0 0)
  | .cinv h (.range base len) => some (mk h 0x26B 0 0 (eX base) (eSrc len))
  | .cwb h .all => some (mk h 0x26C (mN 1) 0 0 0)
  | .cwb h (.range base len) => some (mk h 0x26C 0 0 (eX base) (eSrc len))
  | .amop h op w d a b => some (mk h 0x26D (mW w op.code) (eX d) (eX a) (eSrc b))
  | .amo h op w d a b => some (mk h 0x2A0 (mW w op.code) (eX d) (eX a) (eSrc b))
  | .cas h size d a b => some (mk h 0x2A1 (mN size.code) (eX d) (eX a) (eX b))
  | .red h op w a b => some (mk h 0x2A2 (mW w op.code) 0 (eX a) (eSrc b))
  | .redv h m op d a (.disp b) => some (mk h 0x2A3 (mMask m op.code) (eO d) (eX a) (eSrc b))
  | .redv h m op d a (.ix oi) => some (mk h 0x2A3 (mMask m (op.code + 16)) (eO d) (eX a) (eO oi))
  | .redf h scope => some (mk h 0x2A4 (mN scope.code) 0 0 0)
  | .pgq h pa d base disp => some (mk h 0x2A5 (mN (b2n pa)) (eX d) (eX base) (eSrc disp))
  | .fence h scope pred succ => some (mk h 0x2C0 (mN scope.code) 0 (eImm (0#2 ++ succ ++ pred)) 0)
  | .ifence h => some (mk h 0x2C1 0 0 0 0)
  | .enq h m d a n => some (mk h 0x2D0 (mMask m 0) (eM d) (eO a) (eSrc n))
  | .enq1 h d a => some (mk h 0x2D1 0 (eX d) (eX a) 0)
  | .estat h (.slot b) d => some (mk h 0x2D2 0 (eX d) 0 (eSrc b))
  | .estat h (.chan b) d => some (mk h 0x2D2 (mN 1) (eX d) 0 (eSrc b))
  | .estat h .mine d => some (mk h 0x2D2 (mN 2) (eX d) 0 0)
  | .esusp h d b => some (mk h 0x2D3 0 (eX d) 0 (eSrc b))
  | .bari h a b => some (mk h 0x2D4 0 0 (eX a) (eSrc b))
  | .barp h d a b => some (mk h 0x2D5 0 (eX d) (eX a) (eSrc b))
  | .bara h d a b => some (mk h 0x2D6 0 (eX d) (eX a) (eSrc b))
  | .barw h d a b => some (mk h 0x2D7 0 (eX d) (eX a) (eSrc b))
  | .wait h cond d a b => some (mk h 0x2D8 (mN cond.code) (eX d) (eX a) (eSrc b))
  | .waitv h all n1 d a => some (mk h 0x2D9 (mN (b2n all + 2 * n1.toNat)) (eX d) (eX a) 0)
  | .sfcfg h d a b => some (mk h 0x2F0 0 (eP d) (eX a) (eSrc b))
  | .sfpush h m d a n => some (mk h 0x2F1 (mMask m 0) (eX d) (eO a) (eSrc n))
  | .sfround h comp list max => some (mk h 0x2F2 (mN comp.code) (eX list) (eSrc max) (eComp comp))
  | .sfdrain h rel comp dst max => some (mk h 0x2F3 (mN (comp.code + 4 * b2n rel)) (eX dst) (eSrc max) (eComp comp))
  | .sfstat h sel d => some (mk h 0x2F4 (mN sel.code) (eX d) 0 0)
  | .csrr h d csr => some (mk h 0x300 0 (eX d) (eC csr) 0)
  | .csrw h csr a => some (mk h 0x301 0 (eC csr) (eSrc a) 0)
  | .csrs h csr a => some (mk h 0x302 0 (eC csr) (eSrc a) 0)
  | .csrc h csr a => some (mk h 0x303 0 (eC csr) (eSrc a) 0)
  | .trap h code a => some (mk h 0x304 (mN code.toNat) 0 (eSrc a) 0)
  | .eret h => some (mk h 0x305 0 0 0 0)
  | .halt h a => some (mk h 0x306 0 0 (eSrc a) 0)
  | .wdog h d none => some (mk h 0x307 0 (eX d) 0 0)
  | .wdog h d (some a) => some (mk h 0x307 (mN 1) (eX d) (eSrc a) 0)
  | .ctxq h sel d => some (mk h 0x308 (mN sel.code) (eX d) 0 0)
  | .bkpt h a => some (mk h 0x309 0 0 (eImm a) 0)
  | .launch h d base disp => some (mk h 0x340 0 (eX d) (eX base) (eSrc disp))
  | .depdec h d a n => some (mk h 0x341 0 (eX d) (eX a) (eSrc n))
  | .depq h d a => some (mk h 0x342 0 (eX d) (eX a) 0)
  | .pfx imm =>
      some ⟨0x350, true, false, 0, 0, 0, 0#8 ++ imm.extractLsb' 60 4, imm.extractLsb' 40 20, imm.extractLsb' 20 20,
        imm.extractLsb' 0 20⟩
  | _ => none

/-- The word of an instruction; the all-zero word, which is no instruction, for an event. -/
def encode (i : Instr) : IWord :=
  match encodeFields i with
  | some f => f.toWord
  | none => 0

end Sys2Proof
end

