-- ==== Sys2Proof/Machine/Num.lean ====
section
/-! DEFINITION. Number formats and the order of arithmetic: element formats, exact values, rounding, saturation, flushing,
stochastic bits, block scales, the lattice quantiser and the accumulator word (R88, R102, R146 to R175). -/

namespace Sys2Proof.Machine

/-! ### Integers as bit patterns (R88, R148, R154) -/

/-- `v[n-1:0]` read as a two's-complement integer. -/
def sintOf (n : Nat) (v : Nat) : Int :=
  let u := v % 2 ^ n
  if 2 * u < 2 ^ n then (u : Int) else (u : Int) - 2 ^ n
/-- The `n`-bit pattern of an integer, wrapped modulo 2^n. -/
def wrapTo (n : Nat) (v : Int) : Nat := (v % (2 ^ n : Int)).toNat

/-- The flags in the places of FPS (R158). -/
abbrev Flags := BitVec 7
/-- No flag. -/
def fl0 : Flags := 0
/-- Invalid operation. -/
def flNV : Flags := 1
/-- Division by zero. -/
def flDZ : Flags := 2
/-- Overflow. -/
def flOF : Flags := 4
/-- Underflow. -/
def flUF : Flags := 8
/-- Inexact. -/
def flNX : Flags := 16
/-- LQ8 shell overflow. -/
def flLQO : Flags := 32
/-- Integer saturation by a lane word. -/
def flSAT : Flags := 64
/-- A flag when a condition holds. -/
def flIf (c : Bool) (f : Flags) : Flags := if c then f else 0

/-! ### Formats (R146, R149, R172) -/

/-- The floating-point formats, with the accumulator word. -/
inductive FF where
  | f64 | f32 | bf16 | f16 | e4m3 | e5m2 | e2m1 | acc80
deriving DecidableEq, Repr

/-- Width of the stored pattern. -/
def FF.width : FF → Nat
  | .f64 => 64 | .f32 => 32 | .bf16 => 16 | .f16 => 16 | .e4m3 => 8 | .e5m2 => 8 | .e2m1 => 4 | .acc80 => 80
/-- Bits below the leading bit of the significand. -/
def FF.mbits : FF → Nat
  | .f64 => 52 | .f32 => 23 | .bf16 => 7 | .f16 => 10 | .e4m3 => 3 | .e5m2 => 2 | .e2m1 => 1 | .acc80 => 66
/-- Bits of the exponent field. -/
def FF.ebits : FF → Nat
  | .f64 => 11 | .f32 => 8 | .bf16 => 8 | .f16 => 5 | .e4m3 => 4 | .e5m2 => 5 | .e2m1 => 2 | .acc80 => 12
/-- The exponent bias. -/
def FF.bias : FF → Int
  | .f64 => 1023 | .f32 => 127 | .bf16 => 127 | .f16 => 15 | .e4m3 => 7 | .e5m2 => 15 | .e2m1 => 1 | .acc80 => 2047
/-- Formats whose all-ones exponent holds infinities and NaNs. -/
def FF.hasInf : FF → Bool
  | .e4m3 | .e2m1 => false
  | _ => true
/-- Exponent of the smallest normal. -/
def FF.emin (f : FF) : Int := 1 - f.bias
/-- Exponent of the largest finite. -/
def FF.emax (f : FF) : Int := (2 ^ f.ebits : Int) - (if f.hasInf then 2 else 1) - f.bias
/-- Significand of the largest finite, as an integer of `mbits + 1` bits. -/
def FF.maxSig (f : FF) : Nat := 2 ^ (f.mbits + 1) - (if f = .e4m3 then 2 else 1)

/-- The place of the exponent field: the accumulator word stores its leading bit (R172). -/
def FF.expAt (f : FF) : Nat := if f = .acc80 then 67 else f.mbits

/-- The sign bit of a format. -/
def FF.signBit (f : FF) (neg : Bool) : Nat := if neg then 2 ^ (f.width - 1) else 0
/-- The canonical NaN (R102, R150, R172); e2m1 has none and takes +0. -/
def FF.cnan : FF → Nat
  | .f64 => 0x7FF8000000000000 | .f32 => 0x7FC00000 | .bf16 => 0x7FC0 | .f16 => 0x7E00 | .e4m3 => 0x7F | .e5m2 => 0x7E
  | .e2m1 => 0 | .acc80 => 0x7FFE0000000000000000
/-- The largest finite of a sign. -/
def FF.max (f : FF) (neg : Bool) : Nat :=
  f.signBit neg + (f.emax + f.bias).toNat * 2 ^ f.expAt
    + (if f = .acc80 then f.maxSig else f.maxSig - 2 ^ f.mbits)
/-- The infinity of a sign. -/
def FF.inf (f : FF) (neg : Bool) : Nat := f.signBit neg + (2 ^ f.ebits - 1) * 2 ^ f.expAt

/-- A number as a format stores it: a NaN, an infinity, or (−1)^neg × m × 2^e. -/
inductive Num where
  | nan (signalling : Bool)
  | inf (neg : Bool)
  | fin (neg : Bool) (m : Nat) (e : Int)
deriving DecidableEq, Repr

/-- The number that a pattern stands for (R149, R172). -/
def FF.decode (f : FF) (bits : Nat) : Num :=
  let neg := bits / 2 ^ (f.width - 1) % 2 == 1
  let ex := bits / 2 ^ f.expAt % 2 ^ f.ebits
  let frac := bits % 2 ^ f.expAt
  if f.hasInf && ex == 2 ^ f.ebits - 1 then
    if frac == 0 then .inf neg
    else .nan (frac / 2 ^ (f.mbits - 1) % 2 == 0)
  else if f == .e4m3 && ex == 15 && frac == 7 then .nan false
  else if f == .acc80 then .fin neg frac ((if ex == 0 then f.emin else (ex : Int) - f.bias) - f.mbits)
  else if ex == 0 then .fin neg frac (f.emin - f.mbits)
  else .fin neg (2 ^ f.mbits + frac) ((ex : Int) - f.bias - f.mbits)

/-- A zero. -/
def Num.isZero : Num → Bool
  | .fin _ m _ => m == 0
  | _ => false
/-- A NaN. -/
def Num.isNan : Num → Bool
  | .nan _ => true
  | _ => false
/-- A signalling NaN. -/
def Num.isSnan : Num → Bool
  | .nan s => s
  | _ => false
/-- The sign. -/
def Num.neg? : Num → Bool
  | .nan _ => false
  | .inf n => n
  | .fin n _ _ => n
/-- The number with its sign inverted. -/
def Num.negate : Num → Num
  | .nan s => .nan s
  | .inf n => .inf (!n)
  | .fin n m e => .fin (!n) m e
/-- Invalid for a signalling NaN. -/
def Num.snanFlag (a : Num) : Flags := flIf a.isSnan flNV
/-- The number times a power of two. -/
def Num.scale (k : Int) : Num → Num
  | .fin n m e => .fin n m (e + k)
  | a => a

/-! ### Exact magnitudes -/

/-- The magnitude of an exact result: a fraction times a power of two, or the square root of one. -/
inductive Mag where
  | rat (m d : Nat) (e : Int)
  | root (m : Nat) (e : Int)
deriving DecidableEq, Repr

/-- The integer square root, rounded down. -/
def isqrt (n : Nat) : Nat := go (Nat.log2 n / 2 + 1) 0
where
  go : Nat → Nat → Nat
  | 0, r => r
  | b + 1, r => if (r + 2 ^ b) * (r + 2 ^ b) ≤ n then go b (r + 2 ^ b) else go b r

/-- The magnitude times 2^k rounded down, and whether that is exact. -/
def Mag.floorMul (k : Int) : Mag → Nat × Bool
  | .rat m d e =>
    let t := e + k
    if 0 ≤ t then
      let x := m * 2 ^ t.toNat
      (x / d, x % d == 0)
    else
      let y := d * 2 ^ (-t).toNat
      (m / y, m % y == 0)
  | .root m e =>
    let t := e + 2 * k
    let (x, ex) := if 0 ≤ t then (m * 2 ^ t.toNat, true) else (m / 2 ^ (-t).toNat, m % 2 ^ (-t).toNat == 0)
    let r := isqrt x
    (r, ex && r * r == x)
/-- Zero. -/
def Mag.isZero : Mag → Bool
  | .rat m _ _ => m == 0
  | .root m _ => m == 0
/-- The floor of the base-2 logarithm of a nonzero magnitude. -/
def Mag.log2 (a : Mag) : Int :=
  match a with
  | .rat m d e =>
    let e0 := (Nat.log2 m : Int) - Nat.log2 d + e
    if 1 ≤ ((Mag.rat m d e).floorMul (-e0)).1 then e0 else e0 - 1
  | .root m e => ((Nat.log2 m : Int) + e) / 2

/-- An exact result: a NaN, an infinity, or a signed magnitude. -/
inductive Ex where
  | nan
  | inf (neg : Bool)
  | fin (neg : Bool) (a : Mag)
deriving DecidableEq, Repr

/-- A number as an exact result. -/
def Num.ex : Num → Ex
  | .nan _ => .nan
  | .inf n => .inf n
  | .fin n m e => .fin n (.rat m 1 e)

/-! ### Rounding (R151 to R155) -/

/-- The rounding modes (R151). -/
inductive Rnd where
  | rne | rtz | rup | rdn | sr
deriving DecidableEq, Repr
/-- The mode of a code of VT; a lane word with a reserved one fails its checks (R176). -/
def Rnd.ofCode : Nat → Rnd
  | 1 => .rtz | 2 => .rup | 3 => .rdn | 4 => .sr | _ => .rne

/-- Whether a magnitude whose integer part at a quantum is `n` rounds up; `at32` is its floor at 2^32 per quantum, `at2`
at 2 per quantum, `exact` and `exact2` whether those floors are exact (R151, R155). -/
def roundsUp (rm : Rnd) (neg : Bool) (n : Nat) (exact : Bool) (at2 : Nat × Bool) (at32 : Nat) (h : Nat) : Bool :=
  if exact then false
  else match rm with
    | .rne => at2.1 % 2 == 1 && (!at2.2 || n % 2 == 1)
    | .rtz => false
    | .rup => !neg
    | .rdn => neg
    | .sr => 2 ^ 32 ≤ at32 - n * 2 ^ 32 + h

/-- A magnitude rounded at the quantum 2^q: the multiple, and whether it is exact. -/
def Mag.roundAt (a : Mag) (q : Int) (rm : Rnd) (neg : Bool) (h : Nat) : Nat × Bool :=
  let n := a.floorMul (-q)
  let up := roundsUp rm neg n.1 n.2 (a.floorMul (1 - q)) (if rm = .sr then (a.floorMul (32 - q)).1 else 0) h
  (if up then n.1 + 1 else n.1, n.2)

/-- The result of an overflow, with OF and NX (R153). -/
def overflowTo (f : FF) (neg : Bool) (rm : Rnd) (sat : Bool) : Nat × Flags :=
  let toMax := sat || f == .e2m1 || rm == .rtz || (rm == .rup && neg) || (rm == .rdn && !neg)
  (if toMax then f.max neg else if f == .e4m3 then f.cnan else f.inf neg, flOF ||| flNX)

/-- An infinity stored in a format (R153). -/
def infTo (f : FF) (neg : Bool) (sat : Bool) : Nat × Flags :=
  match f with
  | .e4m3 => (if sat then f.max neg else f.cnan, flNV)
  | .e2m1 => (f.max neg, flNV)
  | _ => (f.inf neg, fl0)

/-- The pattern of (−1)^neg × n × 2^q, with `n` of at most `mbits + 1` bits. -/
def FF.encode (f : FF) (neg : Bool) (n : Nat) (q : Int) : Nat :=
  if n < 2 ^ f.mbits then f.signBit neg + n
  else f.signBit neg + (q + f.mbits + f.bias).toNat * 2 ^ f.expAt + (if f = .acc80 then n else n - 2 ^ f.mbits)

/-- RoundTo of a finite nonzero magnitude (R152). -/
def roundFin (f : FF) (neg : Bool) (a : Mag) (rm : Rnd) (sat : Bool) (h : Nat) : Nat × Flags :=
  let e := a.log2
  let q := max e f.emin - f.mbits
  let top := f.emax - f.mbits
  let fl := a.floorMul (-q)
  let beyond := top < q || (q == top && (f.maxSig < fl.1 || (fl.1 == f.maxSig && !fl.2)))
  let rm' := if rm == .sr && beyond then .rne else rm
  let (n, exact) := a.roundAt q rm' neg h
  let (n, q) := if n = 2 ^ (f.mbits + 1) then (2 ^ f.mbits, q + 1) else (n, q)
  if top < q || (q == top && f.maxSig < n) then overflowTo f neg rm' sat
  else (f.encode neg n q, flIf (!exact) flNX ||| flIf (e < f.emin && !exact) flUF)

/-- RoundTo (R152). -/
def roundTo (v : Ex) (f : FF) (rm : Rnd) (sat : Bool := false) (h : Nat := 0) : Nat × Flags :=
  match v with
  | .nan => (f.cnan, flIf (f == .e2m1) flNV)
  | .inf n => infTo f n sat
  | .fin n a => if a.isZero then (f.signBit n, fl0) else roundFin f n a rm sat h

/-- A finite value rounded to an integer, and whether that is exact (R106, R154). -/
def roundInt (neg : Bool) (a : Mag) (rm : Rnd) (h : Nat) : Int × Bool :=
  let (n, exact) := a.roundAt 0 rm neg h
  (if neg then -(n : Int) else n, exact)

/-- Mix32 (R155). -/
def mix32 (u : Nat) : Nat :=
  let u := u % 2 ^ 32
  let u := u ^^^ (u >>> 16)
  let u := u * 0x85EBCA6B % 2 ^ 32
  let u := u ^^^ (u >>> 13)
  let u := u * 0xC2B2AE35 % 2 ^ 32
  u ^^^ (u >>> 16)
/-- StochBits of an element index under a seed (R155). -/
def stochBits (seed i : Nat) : Nat := mix32 (seed ^^^ (i * 0x9E3779B9 % 2 ^ 32))
/-- The advance of SEED (R155). -/
def nextSeed (seed : Nat) : Nat := (seed * 1664525 + 1013904223) % 2 ^ 32

/-! ### Flushing (R156) -/

/-- Whether a number is finite, nonzero and below the smallest normal of `g`. -/
def Num.tiny (g : FF) : Num → Bool
  | .fin _ m e => m != 0 && decide ((Nat.log2 m : Int) + e < g.emin)
  | _ => false
/-- FlushCheck of an input whose block scale is applied. -/
def flushIn (on : Bool) (g : FF) (x : Num) : Num :=
  if on && x.tiny g then .fin x.neg? 0 0 else x
/-- FlushCheck of a result of format `f`, judged against `g` after a block scale 2^k. -/
def flushOut (on : Bool) (f g : FF) (k : Int) (r : Nat × Flags) : Nat × Flags :=
  let x := (f.decode r.1).scale k
  if on && x.tiny g then (f.signBit x.neg?, r.2 ||| flUF ||| flNX) else r
/-- FlushCheck of an input pattern. -/
def flushBits (on : Bool) (f : FF) (bits : Nat) : Nat :=
  let x := f.decode bits
  if on && x.tiny f then f.signBit x.neg? else bits

/-! ### Exact arithmetic on numbers (R104, R150, R152) -/

/-- A product, with the flags it raises. -/
def mulNum (a b : Num) : Num × Flags :=
  let fl := a.snanFlag ||| b.snanFlag
  match a, b with
  | .nan _, _ => (.nan false, fl)
  | _, .nan _ => (.nan false, fl)
  | .inf s, _ => if b.isZero then (.nan false, flNV) else (.inf (s != b.neg?), fl)
  | _, .inf s => if a.isZero then (.nan false, flNV) else (.inf (s != a.neg?), fl)
  | .fin s m e, .fin t n g => (.fin (s != t) (m * n) (e + g), fl)

/-- The least exponent of the finite terms. -/
def minExp (ts : List Num) : Int :=
  ts.foldl (fun acc t => match t with
    | .fin _ m e => if m != 0 && decide (e < acc) then e else acc
    | _ => acc) 0
/-- A finite term as a multiple of 2^g, for g at or below its exponent. -/
def Num.units (g : Int) : Num → Int
  | .fin n m e => let v : Int := m * 2 ^ (e - g).toNat; if n then -v else v
  | _ => 0

/-- The exact sum of terms, with the sign rule of R152 for a zero sum; invalid for a signalling NaN or infinities of both signs,
whatever else stands among the terms (R205). -/
def sumNum (ts : List Num) (rdn : Bool) : Ex × Flags :=
  let pos := ts.any (· == .inf false)
  let neg := ts.any (· == .inf true)
  let fl := flIf (ts.any Num.isSnan || (pos && neg)) flNV
  if ts.any Num.isNan then (.nan, fl)
  else
    if pos && neg then (.nan, flNV)
    else if pos then (.inf false, fl)
    else if neg then (.inf true, fl)
    else
      let g := minExp ts
      let s := ts.foldl (fun (acc : Int) t => acc + t.units g) 0
      if s != 0 then (.fin (s < 0) (.rat s.natAbs 1 g), fl)
      else if ts.all (fun t => t.isZero && t.neg?) then (.fin true (.rat 0 1 0), fl)
      else if ts.all (fun t => t.isZero && !t.neg?) then (.fin false (.rat 0 1 0), fl)
      else (.fin rdn (.rat 0 1 0), fl)

/-- ±(a × b) ± c with one rounding to come (R104). -/
def fmaNum (a b c : Num) (np na rdn : Bool) : Ex × Flags :=
  let p := mulNum a b
  let s := sumNum [if np then p.1.negate else p.1, if na then c.negate else c] rdn
  (s.1, p.2 ||| s.2)

/-- A quotient (R104). -/
def divNum (a b : Num) : Ex × Flags :=
  let fl := a.snanFlag ||| b.snanFlag
  match a, b with
  | .nan _, _ => (.nan, fl)
  | _, .nan _ => (.nan, fl)
  | .inf _, .inf _ => (.nan, flNV)
  | .inf s, .fin t _ _ => (.inf (s != t), fl)
  | .fin s _ _, .inf t => (.fin (s != t) (.rat 0 1 0), fl)
  | .fin s m e, .fin t n g =>
    if n = 0 then if m = 0 then (.nan, flNV) else (.inf (s != t), flDZ)
    else (.fin (s != t) (.rat m n (e - g)), fl)

/-- A square root (R104). -/
def sqrtNum (a : Num) : Ex × Flags :=
  match a with
  | .nan s => (.nan, flIf s flNV)
  | .inf true => (.nan, flNV)
  | .inf false => (.inf false, fl0)
  | .fin s m e =>
    if m = 0 then (.fin s (.rat 0 1 0), fl0)
    else if s then (.nan, flNV)
    else (.fin false (.root m e), fl0)

/-- The order of two numbers, none when one is a NaN; −0 equals +0. -/
def cmpNum (a b : Num) : Option Ordering :=
  match a, b with
  | .nan _, _ => none
  | _, .nan _ => none
  | .inf s, .inf t => some (compare t.toNat s.toNat)
  | .inf s, _ => some (if s then .lt else .gt)
  | _, .inf t => some (if t then .gt else .lt)
  | a, b =>
    let g := minExp [a, b]
    some (compare (a.units g) (b.units g))

/-- FMIN and FMAX on patterns (R104). -/
def minMaxBits (f : FF) (wantMax : Bool) (a b : Nat) : Nat × Flags :=
  let x := f.decode a
  let y := f.decode b
  let fl := x.snanFlag ||| y.snanFlag
  if x.isNan && y.isNan then (f.cnan, fl)
  else if x.isNan then (b, fl)
  else if y.isNan then (a, fl)
  else if x.isZero && y.isZero then
    let neg := if wantMax then x.neg? && y.neg? else x.neg? || y.neg?
    (f.signBit neg, fl)
  else match cmpNum x y with
    | some .lt => (if wantMax then b else a, fl)
    | _ => (if wantMax then a else b, fl)

/-- The condition of FCMP and VFCMP, and the flags (R105). -/
def fcondNum (c : FCond) (a b : Num) : Bool × Flags :=
  let o := cmpNum a b
  let quiet := a.snanFlag ||| b.snanFlag
  let loud := flIf (a.isNan || b.isNan) flNV
  match c with
  | .eq => (o == some .eq, quiet)
  | .ne => (o != some .eq, quiet)
  | .lt => (o == some .lt, loud)
  | .le => (o == some .lt || o == some .eq, loud)
  | .gt => (o == some .gt, loud)
  | .ge => (o == some .gt || o == some .eq, loud)
  | .un => (o.isNone, quiet)
  | .ord => (o.isSome, quiet)

/-- The class of a pattern, as a bit number (R106). -/
def classBits (f : FF) (bits : Nat) : Nat :=
  match f.decode bits with
  | .nan s => if s then 8 else 9
  | .inf n => if n then 0 else 7
  | .fin n m e =>
    if m = 0 then if n then 3 else 4
    else if (Num.fin n m e).tiny f then if n then 2 else 5
    else if n then 1 else 6

/-- A number rounded to an integral value, for FRND. -/
def rintNum (a : Num) (rm : Rnd) : Ex × Flags :=
  match a with
  | .nan s => (.nan, flIf s flNV)
  | .inf n => (.inf n, fl0)
  | .fin n m e => (.fin n (.rat ((Mag.rat m 1 e).roundAt 0 rm n 0).1 1 0), fl0)

/-- A number converted to an integer of a range, clamped (R106, R154). -/
def toInt (a : Num) (lo hi : Int) (rm : Rnd) (h : Nat) : Int × Flags :=
  match a with
  | .nan _ => (0, flNV)
  | .inf n => (if n then lo else hi, flNV)
  | .fin n m e =>
    let (v, exact) := roundInt n (.rat m 1 e) rm h
    if hi < v then (hi, flNV) else if v < lo then (lo, flNV) else (v, flIf (!exact) flNX)

/-- An integer as a number. -/
def intNum (v : Int) : Num := .fin (v < 0) v.natAbs 0

/-! ### Element formats of VT (R146) -/

/-- The format codes of VT. -/
inductive VFmt where
  | i8 | n8 | i16 | n16 | i32 | n32 | i64 | f32 | bf16 | f16 | e4m3 | e5m2 | e2m1 | lq8s | lq8w | illegal
deriving DecidableEq, Repr

/-- The format of a code. -/
def VFmt.ofCode : Nat → VFmt
  | 0 => .i8 | 1 => .n8 | 2 => .i16 | 3 => .n16 | 4 => .i32 | 5 => .n32 | 6 => .i64 | 7 => .f32 | 8 => .bf16 | 9 => .f16
  | 10 => .e4m3 | 11 => .e5m2 | 12 => .e2m1 | 13 => .lq8s | 14 => .lq8w | _ => .illegal
/-- The code of a format. -/
def VFmt.code : VFmt → Nat
  | .i8 => 0 | .n8 => 1 | .i16 => 2 | .n16 => 3 | .i32 => 4 | .n32 => 5 | .i64 => 6 | .f32 => 7 | .bf16 => 8 | .f16 => 9
  | .e4m3 => 10 | .e5m2 => 11 | .e2m1 => 12 | .lq8s => 13 | .lq8w => 14 | .illegal => 15
/-- Bits of an element. -/
def VFmt.bits : VFmt → Nat
  | .i8 => 8 | .n8 => 8 | .i16 => 16 | .n16 => 16 | .i32 => 32 | .n32 => 32 | .i64 => 64 | .f32 => 32 | .bf16 => 16
  | .f16 => 16 | .e4m3 => 8 | .e5m2 => 8 | .e2m1 => 4 | .lq8s => 2 | .lq8w => 4 | .illegal => 8
/-- Elements of an 8 KiB latch. -/
def VFmt.perLatch (f : VFmt) : Nat := if f = .illegal then 0 else 65536 / f.bits
/-- The integer formats. -/
def VFmt.isInt : VFmt → Bool
  | .i8 | .n8 | .i16 | .n16 | .i32 | .n32 | .i64 => true
  | _ => false
/-- The signed integer formats. -/
def VFmt.isSigned : VFmt → Bool
  | .i8 | .i16 | .i32 | .i64 => true
  | _ => false
/-- The lattice formats. -/
def VFmt.isLq : VFmt → Bool
  | .lq8s | .lq8w => true
  | _ => false
/-- Formats that can take a block scale. -/
def VFmt.takesScale : VFmt → Bool
  | .e4m3 | .e5m2 | .e2m1 | .lq8s | .lq8w => true
  | _ => false
/-- The floating-point format of a code, where it is one. -/
def VFmt.ff? : VFmt → Option FF
  | .f32 => some .f32 | .bf16 => some .bf16 | .f16 => some .f16 | .e4m3 => some .e4m3 | .e5m2 => some .e5m2
  | .e2m1 => some .e2m1 | _ => none
/-- Elements governed by one mask bit (R180). -/
def VFmt.q (f : VFmt) : Nat := max 1 (8 / f.bits)

/-- An element of an integer format as an integer. -/
def VFmt.int (f : VFmt) (v : Nat) : Int := if f.isSigned then sintOf f.bits v else ((v % 2 ^ f.bits : Nat) : Int)
/-- The least value of an integer format. -/
def VFmt.lo (f : VFmt) : Int := if f.isSigned then -(2 ^ (f.bits - 1) : Int) else 0
/-- The greatest value of an integer format. -/
def VFmt.hi (f : VFmt) : Int := if f.isSigned then (2 ^ (f.bits - 1) : Int) - 1 else (2 ^ f.bits : Int) - 1
/-- SatTo (R154): the pattern and the SAT flag. -/
def VFmt.satTo (f : VFmt) (v : Int) : Nat × Flags :=
  if v < f.lo then (wrapTo f.bits f.lo, flSAT) else if f.hi < v then (wrapTo f.bits f.hi, flSAT)
  else (wrapTo f.bits v, fl0)
/-- Nar (R192): saturating under SAT = 1, wrapping otherwise. -/
def VFmt.nar (f : VFmt) (sat : Bool) (v : Int) : Nat × Flags :=
  if sat then f.satTo v else (wrapTo f.bits v, fl0)

/-! ### Block scales (R161 to R163) -/

/-- The largest magnitude of finite numbers: its floor logarithm, none when all are zero. -/
def maxLog2 (vs : List Num) : Option Int :=
  vs.foldl (fun acc v => match v with
    | .fin _ m e =>
      if m = 0 then acc
      else
        let l := (Nat.log2 m : Int) + e
        some (match acc with
          | none => l
          | some k => max k l)
    | _ => acc) none
/-- A NaN or an infinity among the elements. -/
def anySpecial (vs : List Num) : Bool :=
  vs.any fun v => match v with
    | .fin _ _ _ => false
    | _ => true
/-- MxScale and LqScale with their emax (R163, R167). -/
def blockScale (emax : Int) (vs : List Num) : Nat × Flags :=
  if anySpecial vs then (0xFF, flNV)
  else match maxLog2 vs with
    | none => (0, fl0)
    | some l => ((min (max (l - emax + 127) 0) 254).toNat, fl0)
/-- emax of a narrow format (R163, R167). -/
def VFmt.emaxOf : VFmt → Int
  | .e4m3 => 8 | .e5m2 => 15 | .e2m1 => 2 | .lq8w => 2 | _ => 0

/-! ### The lattice formats (R164 to R171) -/

/-- Bits of one offset of a lattice format. -/
def VFmt.lqBits (f : VFmt) : Nat := if f = .lq8w then 4 else 2
/-- The coset bit of a point. -/
def lqCoset (f : VFmt) (p : Nat) : Nat := p / 2 ^ (8 * f.lqBits - 1) % 2
/-- The offsets d0 to d7 of a point (R164, R165). -/
def lqOffsets (f : VFmt) (p : Nat) : List Int :=
  let w := f.lqBits
  let d (k : Nat) : Int := sintOf w (p / 2 ^ (w * k))
  let low := (List.range 7).foldl (fun acc k => acc + p / 2 ^ (w * k) % 2) 0 % 2
  let high := p / 2 ^ (7 * w) % 2 ^ (w - 1)
  (List.range 7).map d ++ [sintOf w (2 * high + low)]
/-- The point with a coset and offsets. -/
def lqPoint (f : VFmt) (c : Nat) (d : List Int) : Nat :=
  let w := f.lqBits
  let lows := (List.range 7).foldl (fun acc k => acc + wrapTo w (d.getD k 0) * 2 ^ (w * k)) 0
  lows + wrapTo w (d.getD 7 0) / 2 * 2 ^ (7 * w) + c * 2 ^ (8 * w - 1)
/-- Coordinate i of a point, in halves times a scale byte: LqDecode (R166). -/
def lqCoord (f : VFmt) (p : Nat) (i : Nat) (e : Nat) : Num :=
  if e = 0xFF then .nan false
  else
    let v := 2 * (lqOffsets f p).getD i 0 + lqCoset f p
    .fin (v < 0) v.natAbs ((e : Int) - 128)

/-- Element e of a latch's data read under a format, with its block scale byte where it has one (R149, R161, R166). -/
def VFmt.num (f : VFmt) (data e : Nat) (scale : Option Nat) : Num :=
  if f.isLq then
    let w := 8 * f.lqBits
    lqCoord f (data / 2 ^ (w * (e / 8)) % 2 ^ w) (e % 8) (scale.getD 127)
  else match f.ff? with
    | none => intNum (f.int (data / 2 ^ (f.bits * e)))
    | some g =>
      let x := g.decode (data / 2 ^ (f.bits * e) % 2 ^ f.bits)
      match scale with
      | none => x
      | some k => if k = 0xFF then .nan false else x.scale ((k : Int) - 127)

/-- An integer scaled by 2^s rounded to the nearest integer, ties to even. -/
def rneShift (s : Nat) (v : Int) : Int :=
  let f := v / 2 ^ s
  let r := v - f * 2 ^ s
  if 2 * r < 2 ^ s then f else if 2 * r > 2 ^ s then f + 1 else if f % 2 = 0 then f else f + 1
/-- The index of the largest magnitude, the lowest on a tie. -/
def argMaxAbs (es : List Int) : Nat :=
  (es.zipIdx.foldl (fun (acc : Nat × Nat) p => if acc.1 < p.1.natAbs then (p.1.natAbs, p.2) else acc)
    (0, 0)).2
/-- z of a coset, scaled by 2^s (s ≥ 1). -/
def lqZ (s : Nat) (ys : List Int) (k : Nat) : List Int := ys.map fun y => y - k * 2 ^ (s - 1)
/-- Cand (R168), on coordinates scaled by 2^s. -/
def lqCand (s : Nat) (ys : List Int) (k : Nat) : List Int :=
  let z := lqZ s ys k
  let q := z.map (rneShift s)
  if q.foldl (· + ·) 0 % 2 = 0 then q
  else
    let err := (z.zip q).map fun p => p.1 - p.2 * 2 ^ s
    let j := argMaxAbs err
    q.set j (if 0 ≤ err.getD j 0 then q.getD j 0 + 1 else q.getD j 0 - 1)
/-- Dist (R168), scaled by 2^2s. -/
def lqDist (s : Nat) (ys : List Int) (k : Nat) (q : List Int) : Int :=
  ((lqZ s ys k).zip q).foldl (fun acc p => acc + (p.1 - p.2 * 2 ^ s) * (p.1 - p.2 * 2 ^ s)) 0
/-- The box of a lattice format (R166). -/
def VFmt.lqMin (f : VFmt) : Int := -(2 ^ (f.lqBits - 1) : Int)
def VFmt.lqMax (f : VFmt) : Int := (2 ^ (f.lqBits - 1) : Int) - 1
/-- Rep (R170). -/
def lqRep (f : VFmt) (s : Nat) (ys : List Int) (k : Nat) : List Int :=
  let z := lqZ s ys k
  let c := (lqCand s ys k).map fun v => min (max v f.lqMin) f.lqMax
  if c.foldl (· + ·) 0 % 2 = 0 then c
  else
    let d := (z.zip c).map fun p => p.1 - p.2 * 2 ^ s
    let j := argMaxAbs d
    let cj := c.getD j 0
    let step : Int := if 0 ≤ d.getD j 0 then 1 else -1
    let near := cj + step
    c.set j (if f.lqMin ≤ near ∧ near ≤ f.lqMax then near else cj - step)
/-- The point stored for eight finite coordinates, whether it overflows the shell, and whether it is inexact (R168 to
R170). The coordinates are y = v / 2^(e − 127). -/
def lqQuantise (f : VFmt) (ys : List Num) : Nat × Flags :=
  let g := minExp ys
  let s := max 1 (-g).toNat
  let us := ys.map (Num.units (-(s : Int)))
  let q0 := lqCand s us 0
  let q1 := lqCand s us 1
  let pick (a b : List Int) : Nat × List Int := if lqDist s us 1 b < lqDist s us 0 a then (1, b) else (0, a)
  let best := pick q0 q1
  let inBox := best.2.all fun v => f.lqMin ≤ v && v ≤ f.lqMax
  let stored := if inBox then best else pick (lqRep f s us 0) (lqRep f s us 1)
  let exact := ((lqZ s us stored.1).zip stored.2).all fun p => p.1 == p.2 * 2 ^ s
  (lqPoint f stored.1 stored.2, flIf (!inBox) flLQO ||| flIf (!exact) flNX)

/-! ### The accumulator (R172 to R175) -/

/-- A term truncated toward zero to a multiple of 2^g. -/
def truncUnits (g : Int) : Num → Int
  | .fin n m e =>
    let v : Int := if g ≤ e then m * 2 ^ (e - g).toNat else ((m / 2 ^ (g - e).toNat : Nat) : Int)
    if n then -v else v
  | _ => 0
/-- MacStep in float mode (R174). -/
def macStep (acc : Nat) (ps : List (Num × Num)) : Nat :=
  let prods := ps.map fun p => (mulNum p.1 p.2).1
  let ts := FF.acc80.decode acc :: prods
  let pos := ts.any (· == .inf false)
  let neg := ts.any (· == .inf true)
  if ts.any Num.isNan || (pos && neg) then FF.acc80.cnan
  else if pos then FF.acc80.inf false
  else if neg then FF.acc80.inf true
  else match maxLog2 ts with
    | none => 0
    | some e =>
      let g := e - 96
      let s := ts.foldl (fun (a : Int) t => a + truncUnits g t) 0
      if s = 0 then 0 else (roundTo (.fin (s < 0) (.rat s.natAbs 1 g)) .acc80 .rne).1
/-- SatTo into 80 bits: the pattern, and whether it clamped (R173). -/
def satAcc (v : Int) : Nat × Bool :=
  if v < -(2 ^ 79 : Int) then (wrapTo 80 (-(2 ^ 79 : Int)), true)
  else if (2 ^ 79 : Int) - 1 < v then (wrapTo 80 ((2 ^ 79 : Int) - 1), true)
  else (wrapTo 80 v, false)

end Sys2Proof.Machine
end

