-- ==== Sys2Proof/Machine/State.lean ====
section
/-! DEFINITION. The state of a KD16 package as plain data, the reasons a step can stop, and the state after reset. Sparse
tables are lists of a key and a value; a key that is not listed has the value that the table's reader names. -/

namespace Sys2Proof.Machine

/-- Bytes by address. -/
abbrev Memory := List Host.Cell

/-! ### Banks (R114 to R144) -/

/-- A row latch with its record (R114, R115). -/
structure LatchRec where
  valid : Bool := false
  /-- the format tag; 0xF is raw -/
  tag : BitVec 4 := 0xF
  /-- the source row, 0x1FF for none -/
  src : BitVec 9 := 0x1FF
  /-- one bit for each 64-byte sector -/
  poison : BitVec 128 := 0
  data : RowData := 0
deriving DecidableEq, Repr

/-- The architectural state of a group (R116). -/
inductive GroupState where
  | free
  | opened (i : Nat)
  | writing (i : Nat)
deriving DecidableEq, Repr

/-- The array write of a WB that the next PRE performs (R131). -/
structure ArrayWrite where
  row : Nat
  data : RowData
  poison : BitVec 128
deriving DecidableEq, Repr

/-- A subarray group of a bank: its latch, its claims, its scoreboard and its refresh state (R114 to R143). -/
structure Group where
  latch : LatchRec := {}
  gs : GroupState := .free
  phy : Bool := false
  sa : Nat := 0
  pr : Nat := 0
  lr : Nat := 0
  lw : Nat := 0
  ro : Nat := 0
  /-- the row of the last column access, and until when its activation may serve another one (R137) -/
  col : Option (Nat × Nat) := none
  /-- the ends of the column accesses of the model's own that the group is taken for, one after the other (R137, R138) -/
  stack : List Nat := []
  pend : Option ArrayWrite := none
  debt : Int := 0
  rptr : Fin 64 := 0
  /-- the time at which DLP was set -/
  dlp : Option Nat := none
  force : Bool := false
deriving DecidableEq, Repr

/-- What a row command does at the bank (R128 to R134); `row` is a physical row and `i` the row index of the word.
`held`: the group was OPEN at this row when the word took effect. -/
inductive RowOp where
  | act (row i : Nat)
  | actw
  | wb (row : Nat) (held : Bool)
  | wbp (row : Nat) (held : Bool)
  | pre
  /-- the precharge of a WBP that has written (R132) -/
  | close
  | ref
  /-- the bank's own write of a latch to a spill row, and its activation of a spill row into a latch with a saved record, each
  with its precharge, at a context switch (R144) -/
  | spill (row : Nat)
  | restore (row : Nat) (tag : BitVec 4) (src : BitVec 9)
deriving DecidableEq, Repr

/-- A row command waiting in its queue or at the bank (R60, R119). -/
structure RowCmd where
  g : Lat
  op : RowOp
  /-- the convoy of its gang that issued it (R61) -/
  cv : Nat := 0
  /-- the cycle at which it reached the head of its queue, and so the bank (R119) -/
  t0 : Option Nat := none
  /-- its place among the entries of the bank's queues -/
  n : Nat := 0
  /-- a part of the PREA whose earlier part stands before it (R133) -/
  joined : Bool := false
deriving DecidableEq, Repr

/-- An entry of the vector-arithmetic queue, a sweep segment or a bus word, waiting for its latches and its bus slots, or a sweep
of the vector-store queue (R60, R189, R214). Latches are numbers bank × 4 + group. -/
structure VecSeg where
  /-- the convoy of its gang that issued it, and the place of its word in the convoy -/
  cv : Nat
  pos : Nat := 0
  /-- its place among the entries of the bank's queues -/
  n : Nat := 0
  rd : List Nat
  wr : List Nat
  time : Nat
  /-- an element-wise word; it goes on with the chain of the entry before it (R189) -/
  elem : Bool := false
  chain : Bool := false
  /-- the latches that earlier words of its chain touch, which it follows there group by group -/
  along : List Nat := []
  /-- it stands in the vector-store queue (R60) -/
  store : Bool := false
  /-- its requests for bus slots (R211) -/
  reqs : List Nat := []
  /-- a bus word: it ends when its last stream has (R214) -/
  stream : Bool := false
deriving DecidableEq, Repr

/-- A column access waiting at the port (R137, R138). -/
structure ColAccess where
  pa : Nat
  kind : ColKind
  cls : Nat
  /-- it is the host's (R408, R420) -/
  host : Bool := false
deriving DecidableEq, Repr

/-- The element of a reduction: an integer of a width, or a floating-point format (R288). -/
inductive RedElt where
  | int (bits : Nat)
  | fp (f : FF)
  /-- a CAS of another package: its bytes and its compare value (R282, R293) -/
  | cas (bytes cmp : Nat)
deriving DecidableEq, Repr

/-- An entry of the write queue: operations on a line accepted and not yet applied to the array (R286). -/
structure WqEntry where
  pa : Nat
  n : Nat
  /-- the operation and type of the reductions that it holds, while only those may join it (R288) -/
  red : Option (AOp × RedElt) := none
deriving DecidableEq, Repr

/-- A bank (R2, R119, R140, R286). -/
structure Bank where
  groups : Vector Group 4 := Vector.replicate 4 {}
  rowQ : List RowCmd := []
  /-- the vector-arithmetic queue, with the sweeps of the vector-store queue (R60) -/
  segs : List VecSeg := []
  /-- entries that have started and not ended: their convoys and their ends (R61) -/
  running : List (Nat × Nat) := []
  /-- the end and the start of the last segment that the lane unit started, and the end of the last sweep of the store queue (R60,
  R189) -/
  lane : Nat := 0
  laneAt : Nat := 0
  out : Nat := 0
  cols : List ColAccess := []
  wq : List WqEntry := []
  /-- the cycle of the last acceptance, and the place of what was accepted in the order of one cycle (R287) -/
  wqLast : Nat × Nat := (0, 0)
  /-- the time of the last debt tick, and how many there were -/
  lastTick : Nat := 0
  ticks : Nat := 0
deriving DecidableEq, Repr

/-! ### Harts (R85, R71) -/

/-- A scalar-side register. -/
inductive Reg where
  | x (r : XReg)
  | p (r : PReg)
deriving DecidableEq, Repr

/-- A fixed-latency result in flight; it lands at nominal time `due` (R67). -/
structure Due where
  reg : Reg
  val : Word
  due : Nat
  /-- an interlocked result stands over it: it lands nothing, and the checking scoreboard still sees it (R67, R69) -/
  covered : Bool := false
deriving DecidableEq, Repr

/-- A register write of the convoy being executed, newest first; `lat` is its fixed latency, none when the result is
interlocked (R67, R68). -/
structure ConvWrite where
  reg : Reg
  val : Word
  lat : Option Nat
deriving DecidableEq, Repr

/-- The result of an AMO or CAS on its way back (R293, R297). -/
structure Flight where
  reg : XReg
  val : Word
  /-- the convoy of its gang that issued it (R61) -/
  cv : Nat := 0
deriving DecidableEq, Repr

/-- A software trap waiting for the boundary (R384, R406). -/
structure SwTrap where
  cause : Nat
  tval : Word
  tpc : Word
  /-- raised by TRAP or BKPT -/
  sw : Bool
deriving DecidableEq, Repr

/-- An engine trap waiting for the boundary (R327, R373). -/
structure EngTrap where
  cause : Nat
  tval : Word
deriving DecidableEq, Repr

/-- A hart of a resident context (R71, R85, R362 to R380). -/
structure Hart where
  x : Vector Word 64 := Vector.replicate 64 0
  p : Vector Bool 16 := (Vector.replicate 16 false).set 0 true
  due : List Due := []
  conv : List ConvWrite := []
  flight : Option Flight := none
  vl : BitVec 16 := 0
  vt : BitVec 16 := 0x000F
  masks : Vector LaneMask 8 := Vector.replicate 8 0
  rc : Word := 0
  ei : Word := 0
  tm : Word := 64
  tn : Word := 512
  schk : Word := 0
  fpc : Word := 0
  fps : Word := 0
  /-- AUTO and ATH; DLP is computed -/
  refm : Word := 5
  tcause : Word := 0
  tpc : Word := 0
  tval : Word := 0
  tscr : Word := 0
  /-- the shadow of GM and of the stack depth (R374) -/
  shGm : Mask16 := 0
  shDepth : Nat := 0
  /-- the barrier list: scratchpad offsets (R332) -/
  bars : Vector (Option Nat) 4 := Vector.replicate 4 none
  /-- reductions sent and not yet accepted (R296) -/
  redOut : Nat := 0
  /-- the software traps that wait, oldest first (R373) -/
  swTraps : List SwTrap := []
  engTraps : List EngTrap := []
  /-- a refresh-deadline trap is pending (R143, R373) -/
  refTrap : Bool := false
deriving DecidableEq, Repr

/-- A failed check: its cause, TVAL and detail (R38, R58). -/
structure Fail where
  cause : Nat
  tval : Word
  detail : Nat := 0
  /-- for a page fault: the access code of R284 -/
  access : Nat := 0
  /-- raised by TRAP or BKPT (R371) -/
  sw : Bool := false
deriving DecidableEq, Repr

/-! ### Gangs (R50 to R66) -/

/-- A record of the divergence stack (R54). -/
structure DsRec where
  j : Word
  ma : Mask16
  mw : Mask16
  pw : Word
deriving DecidableEq, Repr

/-- A gang's record of a weight half (R222). -/
structure HalfRec where
  valid : Bool := false
  bf : Nat := 0
  bsc : Bool := false
  rank : Nat := 0
  g : Nat := 0
  srank : Nat := 0
  sg : Nat := 0
deriving DecidableEq, Repr

/-- What a word that waits at the pool asks of it (R258, R341, R342). -/
inductive PoolCond where
  /-- the tag it needs; `never` when an earlier tag word of the convoy writes that tag (R259) -/
  | tag (want never : Bool)
  /-- a barrier past a phase, or broken -/
  | barrier (phase : Nat)
  | word (c : WCond) (b : Word)
  /-- any or all of n words full -/
  | full (all : Bool) (n : Nat)
deriving DecidableEq, Repr

/-- A condition of a word on a hart, at a pool-window offset (R259, R333). -/
structure WaitCond where
  bank : Nat
  off : Nat
  on : PoolCond
deriving DecidableEq, Repr

/-- What a convoy waits for before any word of it takes effect (R32). -/
inductive WaitOn where
  /-- a row command that is to fill or read a latch (R62) -/
  | latch (bank : Nat) (g : Lat)
  /-- the start of every row command of a hart (R135, R136) -/
  | rows (bank : Nat)
  /-- the gang's matrix operations (R62, R227) -/
  | ops
  /-- the result of an AMO or CAS of a hart (R67) -/
  | result (bank : Nat)
  /-- the conditions of words that wait at the pool, in their order (R259, R333) -/
  | pool (l : List WaitCond)
  /-- the limits of the matrix queue (R227) -/
  | matrix
  /-- the ACCLD that writes a slot, or is to (R227) -/
  | load (slot : Nat)
  /-- the reductions of a hart: that no more than so many are outstanding (R296, R297) -/
  | reductions (bank : Nat) (most : Nat)
  /-- the Sifter (R353) -/
  | engine
  /-- a fence, with the banks whose pending array writes it waits for (R312) -/
  | fence (banks : List Nat)
  /-- a fence on the operations that a hart has forked (R312) -/
  | forks (bank : Nat)
  /-- the earlier convoys of a hart (R63, R81, R386) -/
  | retire (bank : Nat)
  /-- the end of the earlier work of a hart, reductions and matrix operations included (R81, R386) -/
  | finish (bank : Nat)
  /-- room in the loop buffer (R72) -/
  | buffer
  /-- power credit, for a convoy of so many units (R417) -/
  | power (units : Nat)
  /-- the host's answer to a translation request: the context and the address (R281) -/
  | ats (ctx : BitVec 12) (va : Nat)
  /-- room in the journal (R411) -/
  | journal
  /-- the lines of a CINV or CWB, of which this one is done at this try (R268) -/
  | lines (inv : Bool) (line : Nat)
deriving DecidableEq, Repr

/-- A waiting convoy: what for, since when, whether it is to be tried again, and when it was tried last. -/
structure Waiting where
  on : WaitOn
  since : Nat
  retry : Bool
  tried : Nat := 0
  /-- when it first came to the pool, if it has (R260) -/
  pool : Option Nat := none
deriving DecidableEq, Repr

/-- A replay in progress (R79). -/
structure Replay where
  /-- the REPLAY word -/
  at_ : Word
  body : Word
  n : Nat
  stride : Src
deriving DecidableEq, Repr

/-- A page fault reported to the host and not resolved (R283 to R285). -/
structure FaultTicket where
  seq : Nat
  va : Word
  detail : Nat
  access : Nat
  bank : Nat
  tpc : Word
  resolved : Option Nat
deriving DecidableEq, Repr

/-- A convoy that has issued and not retired (R61), and the state of its gang and harts as it found them, to which the gang
returns if the convoy is discarded (R64). -/
structure Retiring where
  /-- its number among the convoys of its gang -/
  id : Nat
  /-- some word of it has acted on more than the harts and their queues (R63) -/
  acted : Bool
  /-- the entries that it placed in the vector-side queues -/
  placed : Nat
  /-- a VSORTK or VGATH (R190) -/
  long : Bool
  /-- the latches that its entries touch -/
  lats : List Nat
  pc : Word
  gm : Mask16
  ds : List DsRec
  n : Nat
  entry : Bool
  harts : List (Nat × Hart)
  /-- the state of each group and its latch, by bank × 4 + group -/
  groups : List (Nat × GroupState × LatchRec)
deriving DecidableEq, Repr

/-- A gang of a resident context (R50). -/
structure Gang where
  size : Nat
  gm : Mask16
  pc : Word
  ds : List DsRec := []
  n : Nat := 0
  /-- the clock before which its next convoy does not issue: STALL kept in real time (R66) -/
  earliest : Nat := 0
  halves : Vector HalfRec 2 := Vector.replicate 2 {}
  wait : Option Waiting := none
  /-- what its convoy waited for when the context was last pre-empted (R400) -/
  held : Option WaitOn := none
  replay : Option Replay := none
  /-- the number of its next convoy, and the convoys that have issued and not retired, oldest first (R61) -/
  cv : Nat := 0
  window : List Retiring := []
  /-- the gangs that a YIELD waits for, and its time limit (R82) -/
  yieldTo : Option (List Nat × Nat) := none
  /-- PERIOD of a pending watchdog trap (R379) -/
  wdTrap : Option Word := none
  faults : List FaultTicket := []
  /-- the failed checks of the convoy that met a page fault (R283) -/
  faultFails : List (Nat × Fail) := []
  /-- the pc was set by trap entry or by the launch, and its target checks are still to come (R31, R374, R391) -/
  entry : Bool := false
  /-- harts that have not exited -/
  live : Mask16 := 0
  ended : Bool := false
deriving DecidableEq, Repr

/-! ### The convoy being executed -/

/-- The chained segments of a convoy counted so far on a hart: closed time and the longest pass of the open segment
(R189, R190). -/
structure Sweep where
  closed : Nat := 0
  pass : Nat := 0
  /-- the last word continued an open chain -/
  chained : Bool := false
  /-- VT as the SETVT words of the convoy leave it (R190) -/
  vt : Option (BitVec 16) := none
  /-- a SETVT stands behind a word that waits or whose check has failed on the hart: what VT it would leave is not known -/
  lost : Bool := false
deriving DecidableEq, Repr

/-! ### The matrix unit and the accumulator store (R222 to R231) -/

/-- A physical accumulator slot (R223). `cells` lists the nonzero accumulators by index m × 512 + n. -/
structure AccSlot where
  /-- the residence key and the logical index it is bound to -/
  bound : Option (Nat × Fin 6) := none
  int : Bool := false
  satf : Bool := false
  cells : List (Nat × Acc80) := []
deriving DecidableEq, Repr

/-- The completion of an engine operation (R239, R328, R351): the offset and value, or the barrier and count. -/
inductive Comp where
  | none
  | word (off : Nat) (val : Word)
  | bar (off : Nat) (count : Nat)
deriving DecidableEq, Repr

/-- An entry of a translation cache (R279): a page of a context and where it lies. -/
structure AtcEntry where
  ctx : BitVec 12
  /-- page base and size as a power of two -/
  va : Nat
  log : Nat
  leaf : Nat × Nat
  /-- the host page of a HOST leaf: its address and permissions (R281) -/
  ats : Option (Word × Bool × Bool) := none
deriving DecidableEq, Repr

/-- An ACCSV or ACCLD in progress (R239). -/
structure AccXfer where
  res : Nat
  bank : Nat
  slot : Nat
  load : Bool
  /-- ACCSV: the image as it was read, by offset (R225) -/
  image : Memory
  va : Word
  /-- the pages of its range as they were translated when its word took effect -/
  pages : List AtcEntry
  comp : Comp
deriving DecidableEq, Repr

/-- An operation of the matrix queue (R227), with what it took when its convoy took effect. -/
inductive MxOp where
  | tload (half : Bool) (tile : GLat) (scale : Option GLat)
  | tmma (af : AFmt) (half : Bool) (kq : Nat) (z : Bool) (aseg : Nat) (slot : Fin 6) (a : GLat) (scale : Option GLat)
      (half_ : HalfRec) (m ke n : Nat)
  /-- the slot that the word binds, with its logical index and mode, and its result -/
  | accclm (bind : Option (Fin 6 × Fin 6 × Bool)) (slot : Option (Fin 6)) (d : PReg) (v : Bool) (banks : List Nat)
  | accrel (slot : Option (Fin 6))
  /-- an ACCSV or ACCLD, which begins its transfer at its place in the queue -/
  | move (slot : Fin 6) (x : AccXfer)
  /-- TSTAT, with what `.half` and `.budget` read at its place in the queue -/
  | tstat (sel : TstatSel) (slot : Option (Fin 6)) (d : XReg) (banks : List Nat) (v : Nat)
  | accz (edge : Bool) (slot : Fin 6) (m n : Nat)
  /-- the parts of an ACCRD: the latch, the first row and the 8 KiB that each hart writes -/
  | accrd (slot : Fin 6) (parts : List (GLat × Nat × RowData))
  /-- the parts of an ACCWR, in rising rank: the latch and the first row of each hart -/
  | accwr (fmt : AccFmt) (slot : Fin 6) (parts : List (GLat × Nat))
deriving DecidableEq, Repr

/-- An entry of the matrix queue (R227). -/
structure MxEntry where
  /-- the residence key and the first bank of the gang -/
  res : Nat
  base : Nat
  /-- the convoy of the gang that it comes from -/
  cv : Nat := 0
  word : IWord
  op : MxOp
  /-- TM and TN of the hart that issued it (R366) -/
  tm : Word := 0
  tn : Word := 0
  /-- it has started, a TMMA its compute; and when it is over -/
  started : Bool := false
  doneAt : Nat := 0
  nextRow : Nat := 0
  /-- a TMMA: when its broadcast began, and when the refill of its half is over (R229) -/
  beganAt : Option Nat := none
  halfAt : Nat := 0
  /-- its request for bus slots (R228) -/
  req : Option Nat := none
deriving DecidableEq, Repr

/-- What a weight half copies (R222): the gang it was loaded for while the copy is current, the latches it is a copy of
(as bank × 4 + group), and WD (R231). -/
structure HalfCopy where
  owner : Option (Nat × Nat) := none
  lats : List Nat := []
  wd : Nat := 0
deriving DecidableEq, Repr

/-! ### The copy engine (R315 to R329) -/

/-- A layout record (R321). -/
structure Layout where
  rank : Nat
  pgf : Bool
  fmt : Nat
  bic : Nat
  nib : Bool
  fill : Nat
  dims : List Nat
  strides : List Nat
  origins : List Int
  extents : List Nat
  /-- the 96 bytes as captured -/
  raw : Nat
deriving DecidableEq, Repr

/-- A command (R319) with its captured layout records. -/
structure CopyCmd where
  chan : Fin 8
  comp : Nat
  slay : Word
  dlay : Word
  sbase : Word
  dbase : Word
  soff : Nat
  sval : Nat
  resoff : Nat
  src : Layout
  dst : Layout
deriving DecidableEq, Repr

/-- State of a command slot (R317). -/
inductive SlotState where
  | queued | running | faulted
deriving DecidableEq, Repr

/-- An occupied command slot (R315). -/
structure CopySlot where
  res : Nat
  bank : Nat
  state : SlotState
  cmd : CopyCmd
  /-- order of acceptance -/
  age : Nat
  /-- stream bytes performed -/
  done : Nat
  /-- the last fault record that the command has made -/
  fault : Nat := 0
deriving DecidableEq, Repr

/-- A saved command of a context (R329). -/
structure SavedCmd where
  bank : Nat
  cmd : CopyCmd
  /-- its place in the order of acceptance -/
  age : Nat := 0
  /-- the fault record of one that was FAULTED (R327) -/
  fault : Nat := 0
deriving DecidableEq, Repr

/-! ### The Sifter (R343 to R361) -/

/-- A constraint record as 128 bits (R344). -/
abbrev SiftRec := BitVec 128

/-- A Sifter operation (R348, R360). -/
structure SiftOp where
  drain : Bool
  rel : Bool
  bank : Nat
  /-- the list or destination address -/
  addr : Word
  max : Nat
  comp : Comp
  /-- the time of its start, and the records in the queue then; of the first operation only -/
  start : Nat := 0
  q0 : Nat := 0
deriving DecidableEq, Repr

/-- A push whose sweep has not ended (R346): when it ends, its hart, and its records. -/
structure SiftPush where
  done : Nat
  bank : Nat
  recs : List SiftRec
deriving DecidableEq, Repr

/-- The Sifter's state for its context (R343, R346, R361). -/
structure SiftState where
  /-- the residence key, and the launch and placement -/
  res : Nat
  seq : Nat
  k : Nat
  cap : Nat
  /-- the spill buffer, an own-vault address already converted -/
  buf : Word
  queue : List SiftRec := []
  pushes : List SiftPush := []
  ops : List SiftOp := []
  rounds : Nat := 0
  lastK : Nat := 0
deriving DecidableEq, Repr

/-- The Sifter of a core (R343). -/
inductive Sifter where
  | free
  | bound (s : SiftState)
  | saving (s : SiftState)
deriving DecidableEq, Repr

/-! ### Cores (R2, R72, R210, R279, R363) -/

/-- A capture of the loop buffer (R72): its convoys, and when it was replayed last. -/
structure Capture where
  res : Nat
  body : Word
  n : Nat
  convoys : List (Word × List IWord)
  used : Nat
deriving DecidableEq, Repr

/-- How far a switch has come (R367): the drain, the spill of the outgoing latches, or the restore of the incoming ones. -/
inductive SwitchPhase where
  | drain | spill | restore
deriving DecidableEq, Repr

/-- A switch in progress or requested on a core: to which slot (R400). -/
structure SwitchReq where
  dest : Option (Fin 3)
  at_ : Nat
  class0 : Bool
  phase : SwitchPhase := .drain
deriving DecidableEq, Repr

/-- A slot of the shuffle bus: when it frees, and whether the matrix unit holds it (R210, R212). -/
structure BusSlot where
  free : Nat := 0
  matrix : Bool := false
  /-- the request of a lane word that holds it until the segments of the word have ended (R211) -/
  owner : Option Nat := none
deriving DecidableEq, Repr

/-- A request for the shuffle bus (R211, R212): its number, its age, how long it holds a slot, the slots that it has yet to be
given, whether it takes every slot at once, and whether it holds them for the segments of its word. -/
structure BusReq where
  id : Nat
  age : Nat
  time : Nat
  need : Nat
  all : Bool
  held : Bool := false
  /-- an A-row broadcast of the matrix unit, by first bank of its gang (R212) -/
  matrix : Bool := false
deriving DecidableEq, Repr

/-- A core (R2). -/
structure Core where
  issuing : Option (Fin 3) := none
  /-- first bank of the gang that issued last (R65) -/
  last : Nat := 15
  switch : Option SwitchReq := none
  halves : Vector HalfCopy 2 := Vector.replicate 2 {}
  acc : Vector AccSlot 6 := Vector.replicate 6 {}
  mx : List MxEntry := []
  xfers : List AccXfer := []
  /-- the four bus slots, and the requests waiting (R210, R212) -/
  bus : Vector BusSlot 4 := Vector.replicate 4 {}
  busQ : List BusReq := []
  /-- the requests that have all their slots, with the cycle of the last grant, and the number of the next one -/
  busDone : List (Nat × Nat) := []
  nextReq : Nat := 0
  loops : List Capture := []
  slots : Vector (Option CopySlot) 32 := Vector.replicate 32 none
  ages : Nat := 0
  sifter : Sifter := .free
  atc : List AtcEntry := []
  /-- power credit; none: that of a core that has had no charge (R417) -/
  credit : Option Int := none
deriving DecidableEq, Repr

/-! ### Residences (R362 to R364, R389) -/

/-- State of a residence (R364, R377). -/
inductive ResState where
  | resident | faultWaiting | stopped
deriving DecidableEq, Repr

/-- A context resident on a core (R363). -/
structure Residence where
  seq : Nat
  k : Nat
  ctx : BitVec 12
  cls : Fin 4
  hmask : Mask16
  /-- log2 of the gang size -/
  gl : Nat
  /-- pool space and its bounds (R241) -/
  fb : Nat
  sb : Nat
  cb : Nat
  abase : Nat
  acount : Nat
  twl : Nat
  /-- scratchpad bytes by pool-window offset, the offsets of full words, and of poisoned words (R244, R257) -/
  scratch : Memory := []
  full : List Nat := []
  bad : List Nat := []
  /-- the frame bytes (R242) -/
  frames : Memory := []
  wdt : Word := 0
  wdCount : Nat := 0
  tvec : Word := 0
  lwdt : Bool
  ltvec : Bool
  state : ResState := .resident
  /-- a breakpoint asks for a debugger stop (R377, R384) -/
  stopReq : Bool := false
  /-- the context's latches are in the spill rows (R364) -/
  spilled : Bool := false
  /-- time as the issuing context here since admission, and since it was last switched in; whether it has yet to issue a
  convoy since then -/
  issued : Nat := 0
  quantum : Nat := 0
  fresh : Bool := true
  lastIssue : Nat := 0
  /-- it issues for one quantum ahead of every class but 0 (R400) -/
  aged : Bool := false
  saved : List SavedCmd := []
  /-- the matrix entries of a context that is switched out (R230) -/
  mx : List MxEntry := []
deriving DecidableEq, Repr

/-! ### Launches (R389 to R403) -/

/-- The fields of a launch record (R389). -/
structure LaunchRec where
  entry : Word
  gl : Nat
  cls : Fin 4
  ctx : BitVec 12
  twl : Nat
  aclm : Nat
  aint : Nat
  lwdt : Bool
  ltvec : Bool
  hfl : Bool
  move : Bool
  hmask : Mask16
  coreset : Word
  abase : Nat
  acount : Nat
  sb : Nat
  cb : Nat
  wdtp : Nat
  tvec : Word
  save : Word
  dep : Nat
  stream : Nat
  compl : Word
  wait0 : Word
  wait1 : Word
  args : List Word
  wset : Word
deriving DecidableEq, Repr

/-- State of a launch (R392). An entry holds `ended` once the writes of its end have been made; `Device.stateOf` is ENDED before. -/
inductive LaunchState where
  | dep | waits | ready | running | ended
deriving DecidableEq, Repr

/-- The first kill of a launch (R376, R403). -/
structure KillInfo where
  cause : Nat
  tpc : Word
  tval : Word
  bank : Nat
  core : Nat
deriving DecidableEq, Repr

/-- Where a placement is (R364, R397). -/
inductive PlaceState where
  | waiting
  | resident (core : Nat) (slot : Fin 3)
  | saved
  | ended
deriving DecidableEq, Repr

/-- A placement of a launch (R390). -/
structure Placement where
  k : Nat
  home : Nat
  state : PlaceState := .waiting
  /-- a first admission has created the harts -/
  begun : Bool := false
  moves : Nat := 0
  /-- what the save area holds in the device's own layout: the Sifter's state (R353, R365) -/
  sift : Option SiftState := none
  /-- gangs as they left residence, by first bank -/
  gangs : List (Nat × Gang) := []
  /-- harts as they left residence, by bank -/
  harts : List (Nat × Hart) := []
  /-- watchdog count and scheduling times carried with the context -/
  wdCount : Nat := 0
  /-- matrix entries of its gangs that have not completed (R230) -/
  mx : List MxEntry := []
  /-- saved commands, WDT and TVEC (R329, R366) -/
  saved : List SavedCmd := []
  wdt : Word := 0
  tvec : Word := 0
  /-- the poisoned words of its scratchpad, by offset (R125) -/
  bad : List Nat := []
deriving DecidableEq, Repr

/-- An entry of the launch table (R392). -/
structure Launch where
  seq : Nat
  record : LaunchRec
  cores : List Nat
  wset : List (Nat × Nat)
  counter : Nat
  state : LaunchState
  err : Bool := false
  killed : Option KillInfo := none
  /-- the completion write could not be made (R401) -/
  cwf : Bool := false
  /-- the source of the posting and the poster's handle (R403) -/
  source : Nat
  parent : Nat
  recAddr : Word
  places : List Placement
  /-- the cores on which a placement has been resident (R253, R398) -/
  ran : List Nat := []
  /-- its release flush has been made for a launch that waited on it (R402) -/
  flushed : Bool := false
  budget : Nat := 0
deriving DecidableEq, Repr

/-- A launch that has ended and whose release flush is deferred (R402). -/
structure Deferred where
  seq : Nat
  stream : Nat
  cores : List Nat
  /-- the cores on which a placement has run (R253) -/
  ran : List Nat := []
deriving DecidableEq, Repr

/-! ### Caches outside the cores (R250 to R255) -/

/-- A line that the pool cache of a core holds (R250, R252, R253). -/
structure CacheLine where
  core : Nat
  /-- line number: array address / 64 -/
  line : Nat
  data : Line
  bad : Bool
  /-- a line of the core's own stand that its bank does not hold as it is -/
  dirty : Bool := true
deriving DecidableEq, Repr

/-- A line in a slice of a stand, which HomeSlice names: a clean copy of a line of the stand (R252), or a proxy copy of another
stand's, where marks are the bytes written (R253). -/
structure Proxy where
  stand : Nat
  line : Nat
  data : Line
  marks : BitVec 64
  bad : Bool
deriving DecidableEq, Repr

/-- A reduction on its way to a bank (R294, R296). -/
structure RedReq where
  /-- the hart it counts for: residence key and bank -/
  res : Nat
  bank : Nat
  op : AOp
  /-- the element -/
  elt : RedElt
  /-- the elements of one line, in their order: address and value -/
  parts : List (Nat × Nat)
  /-- when it was sent -/
  sent : Nat
  /-- the class of the context that sent it (R286) -/
  cls : Nat
  /-- its place among the arrivals of one cycle at a port (R287) -/
  rank : Nat
  /-- since when it has waited at the port -/
  arrived : Option Nat := none
  /-- an AMO or CAS of another package, which joins no entry (R282, R288) -/
  atomic : Bool := false
deriving DecidableEq, Repr

/-- A translation request to the host (R281). -/
structure AtsReq where
  core : Nat
  ctx : BitVec 12
  va : Nat
deriving DecidableEq, Repr

/-! ### The host interface, the fabric, power and service (R395, R408 to R419) -/

/-- A ring driven by four registers (R395, R410). -/
structure Ring where
  base : Word := 0
  log : Nat := 0
  head : Nat := 0
  tail : Nat := 0
deriving DecidableEq, Repr

/-- An unanswered fault record (R284, R285). -/
structure FaultRec where
  seq : Nat
  launch : Nat
  ctx : BitVec 12
  core : Nat
  slot : Fin 3
  bank : Nat
  base : Nat
  /-- the command slot of an engine fault -/
  cmd : Option Nat
  va : Word
  tpc : Word
  detail : Nat
  access : Nat
  /-- the record is in the ring -/
  written : Bool
deriving DecidableEq, Repr

/-- The host's registers (R409 to R414). -/
structure HostRegs where
  hwd : Bool := false
  rlost : Bool := false
  flfull : Bool := false
  redp : Nat := 0
  rsvc : Bool := true
  /-- the read-only fields of IDR: FORM of a KD16-S, no Menan controller, the stepping -/
  form : BitVec 2 := 0
  menan : Bool := false
  stepping : BitVec 8 := 0xB0
  winbase : Word := 0
  place : Bool := false
  tqseq : Word := 0
  tqres : Word := 0
  tqPending : Bool := false
  rtbase : Word := 0
  tinv : Word := 0
  tinvl : Word := 0
  tinvs : Nat := 0
  /-- TINV written, and its invalidation started -/
  tinvSet : Bool := false
  tinvRun : Bool := false
  /-- contexts with debugging armed, and with a stop requested -/
  armed : List Nat := []
  stops : List Nat := []
  pview : BitVec 12 := 0
  /-- the four MSI-X vectors raised, as counts -/
  msi : Vector Nat 4 := Vector.replicate 4 0
  /-- the last data returned to the host, none for a poisoned completion -/
  reply : Option (List Byte) := some []
deriving DecidableEq, Repr

/-- The fabric block (R415). -/
structure Fabric where
  dev : Nat := 0
  board : Nat := 0
  pod : Nat := 0
  fsize : Nat := 0
  routes : Vector Word 64 := Vector.replicate 64 0
  down : List Nat := []
  /-- the next request to another package gets no reply (R415) -/
  mute : Bool := false
deriving DecidableEq, Repr

/-- The power block (R416, R417). -/
structure Power where
  plim : Nat := 3600
  average : Nat := 0
  energy : Nat := 0
  /-- the windows of 1024 ck that have been served (R417) -/
  windows : Nat := 0
  /-- the credit of a core that has had no charge -/
  idle : Int := 0
deriving DecidableEq, Repr

/-- Service counters of a group (R418). -/
structure SvcCount where
  corrected : Nat := 0
  poisoned : Nat := 0
  forced : Nat := 0
  /-- the last measurement of retention found less than twice the period, and all of them, the newest first -/
  weak : Bool := false
  history : List Bool := []
deriving DecidableEq, Repr

/-- The pace of the debt ticks up to a time at which it changed: the stands that were HOT, and reduced service (R6, R140). -/
structure Pace where
  until_ : Nat
  hot : BitVec 16
  rsvc : Bool
deriving DecidableEq, Repr

/-- The package. -/
structure Device where
  /-- the clock, in ck -/
  now : Nat := 0
  /-- DRAM bytes by physical address, poisoned sectors by address / 64 (R121, R124) -/
  mem : Memory := []
  memBad : List Nat := []
  /-- row tags that are not raw, by row number (R123) -/
  rowTags : List (Nat × Nat) := []
  /-- vault bytes by core × 2^20 + offset, poisoned words by address / 8 (R247, R125) -/
  vault : Memory := []
  vaultBad : List Nat := []
  /-- host memory by host address (R281) -/
  host : Memory := []
  cores : List (Nat × Core) := []
  banks : List (Nat × Bank) := []
  ress : List (Nat × Residence) := []
  gangs : List (Nat × Gang) := []
  harts : List (Nat × Hart) := []
  /-- lines in pool caches and in slices, the most recently used first (R245, R255) -/
  lines : List CacheLine := []
  proxies : List Proxy := []
  portQ : List RedReq := []
  ats : List AtsReq := []
  /-- ATS invalidation requests, by address and length, whose completions are yet to be sent, and those that were sent (R281) -/
  atsInv : List (Word × Word) := []
  atsDone : List (Word × Word) := []
  /-- starts of row operations on each row die in the last 16 ck, and the core granted last (R120) -/
  dies : List (Nat × List Nat) := []
  dieLast : List (Nat × Nat) := []
  /-- stands that are HOT, by their temperature or by the plan of the service unit (R140, R418) -/
  hot : BitVec 16 := 0
  /-- stands that are HOT by their temperature (R140, R418) -/
  warm : BitVec 16 := 0
  /-- the paces of the debt ticks before now, the latest first -/
  paces : List Pace := []
  launches : List Launch := []
  deferred : List Deferred := []
  nextSeq : Nat := 1
  queues : Vector Ring 4 := Vector.replicate 4 {}
  /-- the last round of 16 ck in which a queue entry was taken, and the queues that it has passed (R396) -/
  served : Nat × Nat := (0, 0)
  journal : Ring := {}
  faultLog : Ring := {}
  faultSeq : Nat := 1
  faults : List FaultRec := []
  regs : HostRegs := {}
  fabric : Fabric := {}
  power : Power := {}
  svc : List (Nat × SvcCount) := []
  trained : Bool := false
  /-- the core that issued last: a part of the model's choice of who moves -/
  turn : Nat := 0
deriving DecidableEq, Repr

/-- The convoy being executed (R32). -/
structure Issue where
  core : Nat := 0
  slot : Fin 3 := 0
  base : Nat := 0
  active : Bool := false
  /-- start of the convoy, the address of its first word (R190), which a body convoy has elsewhere (R80), and the address of the word -/
  start : Word := 0
  head : Word := 0
  addr : Word := 0
  /-- the words after this one -/
  rest : List IWord := []
  /-- the immediate of the PFX before this word -/
  pfx : Option Word := none
  /-- the device as the convoy found it -/
  undo : Option Device := none
  fails : List (Nat × Fail) := []
  hold : Option WaitOn := none
  /-- where control goes when it does not fall through -/
  target : Option Word := none
  stall : Nat := 0
  sweeps : List (Nat × Sweep) := []
  /-- the convoy is one of a replayed body (R79) -/
  replay : Bool := false
  /-- power units charged so far (R231, R417) -/
  charge : Nat := 0
  /-- units of its words that are charged as they are performed: the rows of a TMMA (R231) -/
  later : Nat := 0
  /-- the pool conditions so far, and the words whose tags its tag words write (R259) -/
  conds : List WaitCond := []
  tagWrites : List Nat := []
  /-- some word has acted on more than the harts and their queues (R63) -/
  acted : Bool := false
  /-- a VSORTK or VGATH is in the convoy (R190) -/
  long : Bool := false
  /-- the convoy returns from a handler: every result lands at its end (R70) -/
  lands : Bool := false
  /-- the request for bus slots of the word being executed, and the remote latches it is for (R211) -/
  bus : Option (Nat × List Nat) := none
  /-- the latches of the gang's banks as the lane word being executed found them, for its remote sources (R185) -/
  view : List (Nat × Vector LatchRec 4) := []
deriving DecidableEq, Repr

/-- Who moves: an event of the opcode table, or the issue of a gang. -/
inductive Turn where
  | event (i : Instr)
  | issue (core base : Nat)
deriving DecidableEq, Repr

/-- The machine: the package, the convoy being executed, and the agenda of the agents. -/
structure State where
  dev : Device := {}
  iss : Issue := {}
  /-- who moves next; with an empty agenda a fixed choice moves -/
  agenda : List Turn := []
deriving DecidableEq, Repr

/-- Why a machine stops with a fault. -/
inductive Fault where
  /-- An instruction word is executed although no gang is there to execute it. Raised by every word's meaning when the
  named gang does not exist; step never asks for it. Safe. -/
  | noGang
deriving DecidableEq, Repr

/-- Why a step has no meaning. -/
inductive Refusal where
  /-- An instruction that this model gives no meaning. Raised by the arms of `exec` that have none. Safe. -/
  | notModelled (mnemonic : String)
deriving DecidableEq, Repr

/-- The machine right after device reset: reduced service, no launch, every bank idle (R408, R419). -/
def State.reset : State := {}

end Sys2Proof.Machine
end

