-- ==== Sys2Proof/Machine/Mem.lean ====
section
/-! DEFINITION. Sparse tables kept as sorted lists, and memory as a canonical list of addresses and bytes (R9). A byte
that is not listed reads as zero: the contents of DRAM, SRAM and host memory after reset are undefined (R121, R408), so
this reading is a DESIGN CHOICE of the model, unsafe, in log entry 1. -/

namespace Sys2Proof.Machine

/-! ### Tables -/

/-- The value of a key, or none. -/
def lookupK {α : Type} (k : Nat) : List (Nat × α) → Option α
  | [] => none
  | p :: l => if p.1 = k then some p.2 else lookupK k l
/-- The value of a key, or a default. -/
def lookupD {α : Type} (d : α) (k : Nat) (l : List (Nat × α)) : α := (lookupK k l).getD d
/-- The table with a key set, in rising order of keys. -/
def insertK {α : Type} (k : Nat) (a : α) : List (Nat × α) → List (Nat × α)
  | [] => [(k, a)]
  | p :: l => if k < p.1 then (k, a) :: p :: l else if p.1 = k then (k, a) :: l else p :: insertK k a l
/-- The table without a key. -/
def eraseK {α : Type} (k : Nat) (l : List (Nat × α)) : List (Nat × α) := l.filter fun p => p.1 != k
/-- A set of numbers with one more, in rising order. -/
def insertN (k : Nat) : List Nat → List Nat
  | [] => [k]
  | n :: l => if k < n then k :: n :: l else if n = k then n :: l else n :: insertN k l
/-- A set of numbers with one less. -/
def eraseN (k : Nat) (l : List Nat) : List Nat := l.filter (· != k)
/-- A set of numbers with one set or cleared. -/
def putN (on : Bool) (k : Nat) (l : List Nat) : List Nat := if on then insertN k l else eraseN k l
/-- A list without its element at an index. -/
def dropIdx {α : Type} (i : Nat) (l : List α) : List α := l.take i ++ l.drop (i + 1)

/-! ### Memory -/

/-- What an address that is not listed reads as. -/
def Memory.blank : Byte := 0
/-- One byte. -/
def Memory.byte (m : Memory) (a : Nat) : Byte := lookupD Memory.blank a m
/-- `n` bytes as a little-endian number (R9). -/
def Memory.read (m : Memory) (a n : Nat) : Nat :=
  m.foldl (fun acc c => if a ≤ c.1 ∧ c.1 < a + n then acc + c.2.toNat * 2 ^ (8 * (c.1 - a)) else acc) 0
/-- The listed cells of a little-endian number of `n` bytes at an address. -/
def cellsOf (a : Nat) : Nat → Nat → List Host.Cell
  | 0, _ => []
  | n + 1, v =>
    if v = 0 then []
    else if v % 256 = 0 then cellsOf (a + 1) n (v / 256)
    else (a, BitVec.ofNat 8 v) :: cellsOf (a + 1) n (v / 256)
/-- Memory after `n` bytes are written (R9). -/
def Memory.write (m : Memory) (a n v : Nat) : Memory :=
  m.filter (fun c => c.1 < a) ++ cellsOf a n v ++ m.filter (fun c => a + n ≤ c.1)
/-- Memory with a list of bytes written from an address on. -/
def Memory.writeBytes (m : Memory) (a : Nat) (bs : List Byte) : Memory :=
  m.write a bs.length (bs.foldr (fun b acc => acc * 256 + b.toNat) 0)
/-- A list of bytes read from an address on. -/
def Memory.readBytes (m : Memory) (a n : Nat) : List Byte :=
  let v := m.read a n
  (List.range n).map fun k => BitVec.ofNat 8 (v / 2 ^ (8 * k))
/-- Addresses rise strictly from a bound. -/
def Memory.sorted (lo : Nat) : Memory → Bool
  | [] => true
  | c :: l => lo ≤ c.1 && Memory.sorted (c.1 + 1) l
/-- The canonical form: addresses strictly rising, and no entry equal to what an unlisted address reads as. -/
def Memory.wf (m : Memory) : Bool := Memory.sorted 0 m && m.all fun c => c.2 != Memory.blank

end Sys2Proof.Machine
end

