-- ==== Sys2Proof/Machine/Access.lean ====
section
/-! DEFINITION. The keys and accessors of the tables of a package: cores, banks, residences, gangs and harts (R2, R49, R50,
R363). A core or a bank that no table lists is as device reset left it. -/

namespace Sys2Proof.Machine

/-- The key of the residence in a resident slot of a core. -/
def resKey (core : Nat) (slot : Fin 3) : Nat := core * 3 + slot.val
/-- The core of a residence key. -/
def resCore (rk : Nat) : Nat := rk / 3
/-- The resident slot of a residence key. -/
def resSlot (rk : Nat) : Fin 3 := ⟨rk % 3, Nat.mod_lt _ (by decide)⟩
/-- The key of the hart of a residence on a bank, or of the gang whose first bank it is. -/
def hartKey (rk bank : Nat) : Nat := rk * 16 + bank
/-- The key of a bank of a core. -/
def bankKey (core bank : Nat) : Nat := core * 16 + bank

/-- The number of a core, a bank or a resident slot as an event names it. -/
def finCore (n : Nat) : Fin 2048 := ⟨n % 2048, Nat.mod_lt _ (by decide)⟩
/-- A bank. -/
def finBank (n : Nat) : Fin 16 := ⟨n % 16, Nat.mod_lt _ (by decide)⟩
/-- A resident slot. -/
def finSlot (n : Nat) : Fin 3 := ⟨n % 3, Nat.mod_lt _ (by decide)⟩

namespace Device

/-- A core. -/
def core (d : Device) (c : Nat) : Core := lookupD {} c d.cores
/-- The package with a core set. -/
def setCore (d : Device) (c : Nat) (x : Core) : Device := { d with cores := insertK c x d.cores }
/-- The interval of the debt ticks of a stand at a pace (R6, R140). -/
def tickEvery (hot : BitVec 16) (rsvc : Bool) (stand : Nat) : Nat :=
  (if hot.getLsbD stand then 525000 else 1050000) / (if rsvc then 2 else 1)
/-- The offset of the first debt tick of a bank: fixed for the part, different on every bank, and within the interval in force
after device reset (R140). -/
def firstOffset (key : Nat) : Nat := (key + Config.firstTick 0) % 32768 + 32768 * (Config.firstTick (key + 1) % 16)
/-- The debt ticks before a time, from their number and the last of them, at one pace (R140). -/
def ticksTo (offset every from_ till : Nat) (k : Nat × Nat) : Nat × Nat :=
  let next := if k.1 = 0 then offset else max from_ (k.2 + every)
  if till ≤ next then k else (k.1 + (till - next - 1) / every + 1, next + (till - next - 1) / every * every)
/-- The pace of the debt ticks up to now. -/
def pace (d : Device) : Pace := { until_ := d.now, hot := d.hot, rsvc := d.regs.rsvc }
/-- The number of debt ticks of a bank before now, and the last of them (R140). -/
def ticksSoFar (d : Device) (key : Nat) : Nat × Nat :=
  let stand := key / 16 / 128
  let run := (d.paces.reverse ++ [d.pace]).foldl (fun (x : Nat × Nat × Nat) (p : Pace) =>
    (p.until_, ticksTo (firstOffset key) (tickEvery p.hot p.rsvc stand) x.1 p.until_ x.2)) (0, 0, 0)
  run.2
/-- A bank that nothing has used since device reset: its debt has risen with its ticks, and from the second on each tick has been
answered by one inserted REF in each group, as R141 and R142 have it for a bank without a running hart. -/
def idleBank (d : Device) (key : Nat) : Bank :=
  let group (g : Nat) : Group :=
    { debt := min 1 (d.ticksSoFar key).1, rptr := Fin.ofNat 64 ((d.ticksSoFar key).1 - 1)
      sa := if (d.ticksSoFar key).1 < 2 then 0 else (d.ticksSoFar key).2 + 4 * g + 96
      ro := if (d.ticksSoFar key).1 < 2 then 0 else (d.ticksSoFar key).2 + 4 * g + 4 }
  { groups := #v[group 0, group 1, group 2, group 3]
    lastTick := (d.ticksSoFar key).2, ticks := (d.ticksSoFar key).1 }
/-- A bank of a core. -/
def bank (d : Device) (c b : Nat) : Bank := lookupD (d.idleBank (bankKey c b)) (bankKey c b) d.banks
/-- The package with a bank set. -/
def setBank (d : Device) (c b : Nat) (x : Bank) : Device := { d with banks := insertK (bankKey c b) x d.banks }
/-- A residence. -/
def res? (d : Device) (rk : Nat) : Option Residence := lookupK rk d.ress
/-- The package with a residence set. -/
def setRes (d : Device) (rk : Nat) (x : Residence) : Device := { d with ress := insertK rk x d.ress }
/-- A gang of a residence, by its first bank. -/
def gang? (d : Device) (rk b : Nat) : Option Gang := lookupK (hartKey rk b) d.gangs
/-- The package with a gang set. -/
def setGang (d : Device) (rk b : Nat) (x : Gang) : Device := { d with gangs := insertK (hartKey rk b) x d.gangs }
/-- A hart of a residence. -/
def hart (d : Device) (rk h : Nat) : Hart := lookupD {} (hartKey rk h) d.harts
/-- The package with a hart set. -/
def setHart (d : Device) (rk h : Nat) (x : Hart) : Device := { d with harts := insertK (hartKey rk h) x d.harts }
/-- The package with a residence changed, if it exists. -/
def modRes (d : Device) (rk : Nat) (f : Residence → Residence) : Device :=
  match d.res? rk with
  | some x => d.setRes rk (f x)
  | none => d
/-- The package with a gang changed, if it exists. -/
def modGang (d : Device) (rk b : Nat) (f : Gang → Gang) : Device :=
  match d.gang? rk b with
  | some x => d.setGang rk b (f x)
  | none => d
/-- The package with a hart changed. -/
def modHart (d : Device) (rk h : Nat) (f : Hart → Hart) : Device := d.setHart rk h (f (d.hart rk h))
/-- The package with a core changed. -/
def modCore (d : Device) (c : Nat) (f : Core → Core) : Device := d.setCore c (f (d.core c))
/-- The power credit of a core (R417). -/
def credit (d : Device) (c : Nat) : Int := (d.core c).credit.getD d.power.idle
/-- Units charged to a core (R417). -/
def charge (d : Device) (c n : Nat) : Device := d.modCore c fun x => { x with credit := some (d.credit c - n) }
/-- The package with a bank changed. -/
def modBank (d : Device) (c b : Nat) (f : Bank → Bank) : Device := d.setBank c b (f (d.bank c b))
/-- A group of a bank. -/
def group (d : Device) (c b : Nat) (g : Lat) : Group := (d.bank c b).groups[g.val]
/-- The package with a group changed. -/
def modGroup (d : Device) (c b : Nat) (g : Lat) (f : Group → Group) : Device :=
  d.modBank c b fun x => { x with groups := x.groups.set g.val (f x.groups[g.val]) }
/-- The latch of a group. -/
def latch (d : Device) (c b : Nat) (g : Lat) : LatchRec := (d.group c b g).latch
/-- A weight half after a write of a latch: a copy of it is current no more (R222). -/
def loseHalf (n : Nat) (h : HalfCopy) : HalfCopy :=
  if h.lats.contains n then { h with owner := none } else h
/-- A latch is about to be written: a weight half that is a copy of it is current no more (R222). -/
def copyLost (d : Device) (c b : Nat) (g : Lat) : Device :=
  let n := b * 4 + g.val
  let hit := (d.core c).halves.toList.any fun h => h.owner.isSome && h.lats.contains n
  if hit then d.modCore c fun x => { x with halves := x.halves.map (loseHalf n) } else d
/-- The package with a latch set. -/
def setLatch (d : Device) (c b : Nat) (g : Lat) (l : LatchRec) : Device :=
  (d.copyLost c b g).modGroup c b g fun x => { x with latch := l }
/-- The launch with a handle. -/
def launch? (d : Device) (seq : Nat) : Option Launch := d.launches.find? fun l => l.seq == seq
/-- The package with the launch of a handle changed. -/
def modLaunch (d : Device) (seq : Nat) (f : Launch → Launch) : Device :=
  { d with launches := d.launches.map fun l => if l.seq == seq then f l else l }
/-- The gangs of a residence, by first bank. -/
def gangsOf (d : Device) (rk : Nat) : List (Nat × Gang) :=
  (d.gangs.filter fun p => p.1 / 16 == rk).map fun p => (p.1 % 16, p.2)
/-- The harts of a residence, by bank. -/
def hartsOf (d : Device) (rk : Nat) : List (Nat × Hart) :=
  (d.harts.filter fun p => p.1 / 16 == rk).map fun p => (p.1 % 16, p.2)
/-- The package with every gang of a residence changed. -/
def mapGangs (d : Device) (rk : Nat) (f : Gang → Gang) : Device :=
  { d with gangs := d.gangs.map fun p => if p.1 / 16 = rk then (p.1, f p.2) else p }
/-- The package with every hart of a residence changed. -/
def mapHarts (d : Device) (rk : Nat) (f : Hart → Hart) : Device :=
  { d with harts := d.harts.map fun p => if p.1 / 16 = rk then (p.1, f p.2) else p }
/-- The package without the gangs and harts of a residence. -/
def dropHarts (d : Device) (rk : Nat) : Device :=
  { d with gangs := d.gangs.filter fun p => p.1 / 16 != rk
           harts := d.harts.filter fun p => p.1 / 16 != rk }
/-- The residences of a core, with their slots. -/
def resOfCore (d : Device) (c : Nat) : List (Fin 3 × Residence) :=
  (d.ress.filter fun p => p.1 / 3 == c).map fun p => (resSlot p.1, p.2)

/-- A hart as the later convoys of a gang that have not retired found it, changed as it has been since (R64). -/
def modFound (d : Device) (rk base cv b : Nat) (f : Hart → Hart) : Device :=
  d.modGang rk base fun g => { g with window := g.window.map fun w =>
    if cv < w.id then { w with harts := w.harts.map fun p => if p.1 = b then (p.1, f p.2) else p } else w }

end Device

/-! ### Banks in a mask -/

/-- The banks of a mask, rising (R52). -/
def banksOf (m : Mask16) : List Nat := (List.range 16).filter fun h => m.getLsbD h
/-- The mask of one bank. -/
def bitOf (h : Nat) : Mask16 := (1#16) <<< h
/-- The mask of a list of banks. -/
def maskOf (l : List Nat) : Mask16 := l.foldl (fun m h => m ||| bitOf h) 0
/-- The banks of a gang (R50). -/
def gangMask (base size : Nat) : Mask16 := maskOf ((List.range size).map (base + ·))

/-! ### Code addresses (R25, R26) -/

/-- A valid code address. -/
def codeOk (a : Nat) : Bool := a % 64 % 12 == 0 && a % 64 != 60
/-- WordIndex. -/
def wordIndex (a : Nat) : Nat := 5 * (a / 64) + a % 64 / 12
/-- WordAddr, for an index modulo 5 × 2^58. -/
def wordAddr (w : Nat) : Nat := 64 * (w % (5 * 2 ^ 58) / 5) + 12 * (w % 5)
/-- NextWord. -/
def nextWord (a : Word) : Word := BitVec.ofNat 64 (wordAddr (wordIndex a.toNat + 1))
/-- The word at a displacement counted in words (R26). -/
def wordDisp (a : Word) (disp : Int) : Word :=
  BitVec.ofNat 64 (wordAddr ((((wordIndex a.toNat : Nat) : Int) + disp) % (5 * 2 ^ 58 : Int)).toNat)

/-! ### Registers (R23, R67 to R70) -/

/-- `x0` and `p0` are fixed (R23). -/
def Reg.fixed : Reg → Bool
  | .x r => r == 0
  | .p r => r == 0
/-- A predicate as a word. -/
def boolWord (b : Bool) : Word := if b then 1 else 0

/-- A result in flight, as an interlocked result of a register leaves it: one of that register lands nothing any more (R67). -/
def Due.cover (r : Reg) (e : Due) : Due := if e.reg = r then { e with covered := true } else e

namespace Hart

/-- The landed value of a register. -/
def landed (t : Hart) : Reg → Word
  | .x r => if r = 0 then 0 else t.x[r.val]
  | .p r => if r = 0 then 1 else boolWord t.p[r.val]
/-- A register as a word of the convoy reads it: a write of the convoy, else the landed value (R32, R67). -/
def get (t : Hart) (r : Reg) : Word :=
  if r.fixed then t.landed r
  else match t.conv.find? fun w => w.reg == r with
    | some w => w.val
    | none => t.landed r
/-- An `x` register as a word of the convoy reads it. -/
def getX (t : Hart) (r : XReg) : Word := t.get (.x r)
/-- A predicate as a word of the convoy reads it. -/
def getP (t : Hart) (r : PReg) : Bool := t.get (.p r) != 0
/-- A register written in the registers themselves. -/
def setReg (t : Hart) (r : Reg) (v : Word) : Hart :=
  match r with
  | .x r => if r = 0 then t else { t with x := t.x.set r.val v }
  | .p r => if r = 0 then t else { t with p := t.p.set r.val (v != 0) }
/-- A register written by a word of the convoy, with its fixed latency, or none when interlocked. -/
def put (t : Hart) (r : Reg) (v : Word) (lat : Option Nat) : Hart :=
  if r.fixed then t
  else { t with conv := { reg := r, val := v, lat := lat } :: t.conv
                flight := match t.flight with
                  | some f => if Reg.x f.reg == r then none else some f
                  | none => none }
/-- A result in flight placed after those due no later (R67). -/
def insertDue (e : Due) : List Due → List Due
  | [] => [e]
  | q :: l => if e.due < q.due then e :: q :: l else q :: insertDue e l
/-- One write of a convoy at nominal time `n` taking its course (R67). -/
def commitWrite (n : Nat) (t : Hart) (w : ConvWrite) : Hart :=
  match w.lat with
  | some l => { t with due := insertDue { reg := w.reg, val := w.val, due := n + l } t.due }
  | none =>
    let t := { t with due := t.due.map (Due.cover w.reg) }
    match t.flight with
    | some f => if Reg.x f.reg == w.reg then t else t.setReg w.reg w.val
    | none => t.setReg w.reg w.val
/-- The writes of a convoy at nominal time `n` taking their course. -/
def commit (n : Nat) (t : Hart) : Hart := t.conv.reverse.foldl (commitWrite n) { t with conv := [] }
/-- The result of a word that has waited in a queue of the vector side: it lands over every earlier write of its register
(R67). -/
def receive (t : Hart) (r : Reg) (v : Word) : Hart :=
  { t with conv := t.conv.filter fun w => w.reg != r, due := t.due.map (Due.cover r) }.setReg r v
/-- A result in flight lands (R67). -/
def landDue (t : Hart) (e : Due) : Hart := if e.covered then t else t.setReg e.reg e.val
/-- The result of an atomic on its way landed (R293). -/
def landFlight (t : Hart) : Hart :=
  match t.flight with
  | some f => { t.setReg (.x f.reg) f.val with flight := none }
  | none => t
/-- The results due by nominal time `n` landed, in the order of their due times. -/
def land (n : Nat) (t : Hart) : Hart :=
  (t.due.filter fun e => e.due ≤ n).foldl landDue
    { t with due := t.due.filter fun e => n < e.due }
/-- Every fixed-latency result landed (R70). -/
def landAll (t : Hart) : Hart := t.due.foldl landDue { t with due := [] }
/-- The shared trap fields: HM of TCAUSE (R371). -/
def hm (t : Hart) : Bool := t.tcause.getLsbD 10
/-- Sticky flags raised in FPS (R158). -/
def raise (t : Hart) (f : Flags) : Hart := { t with fps := t.fps ||| BitVec.zeroExtend 64 f }
/-- The format of VT (R176). -/
def fmt (t : Hart) : VFmt := VFmt.ofCode (t.vt.extractLsb' 0 4).toNat

end Hart

end Sys2Proof.Machine
end

