-- ==== Sys2Proof/Machine/Array.lean ====
section
/-! DEFINITION. The array of a package and the ports of its banks: physical addresses, poison, the clock, the scoreboard, the
effect of row commands, refresh, and what a column access does at its group (R117 to R120, R124, R125, R128 to R144, R271,
R369, R379, R388, R415, R418, R419). -/

namespace Sys2Proof.Machine

/-! ### Bytes inside a line -/

/-- `n` bytes of a number from a byte offset on. -/
def getBytes (v off n : Nat) : Nat := v / 2 ^ (8 * off) % 2 ^ (8 * n)
/-- A number with `n` bytes from a byte offset on replaced. -/
def putBytes (v off n w : Nat) : Nat :=
  v % 2 ^ (8 * off) + w % 2 ^ (8 * n) * 2 ^ (8 * off) + v / 2 ^ (8 * (off + n)) * 2 ^ (8 * (off + n))
/-- `n` undefined bytes at a place and time: a free value (R124, R125). -/
def freeBytes (now a n : Nat) : Nat :=
  (List.range n).foldl (fun acc k => acc + (Config.freeByte (now * 2 ^ 64 + a + k)).toNat * 2 ^ (8 * k)) 0

/-! ### Physical addresses -/

/-- Where a physical address leads. -/
inductive Stor where
  /-- a DRAM array: an own address below 2^39, another package's above 2^60 -/
  | dram (key : Nat)
  /-- a byte of a vault, by core × 2^20 + offset -/
  | vault (v : Nat)
  /-- an address that names nothing in reduced service (R419) -/
  | nothing
  /-- an address of another package to which a request is dropped by the fabric (R415): its place in the array -/
  | dropped (key : Nat)
deriving DecidableEq, Repr

/-- The array address of the first byte of a physical row (R271). -/
def rowKey (core bank g row : Nat) : Nat := (((core * 16 + bank) * 4 + g) * 512 + row) * 8192
/-- The home stand of an array address (R251). -/
def homeStand (key : Nat) : Option Nat := if key < 2 ^ 39 then some (key / 2 ^ 35) else none
/-- The home slice of an array address within its home stand (R251). -/
def homeSlice (key : Nat) : Nat :=
  (List.range 8).foldl (fun n k => n ^^^ (key / 2 ^ (4 * k + 6) % 16)) (key / 2 ^ 38 % 2)
/-- A line is local to a stand (R251). -/
def atHome (line stand : Nat) : Bool := homeStand (64 * line) == some stand
/-- The package core whose bank holds an array address. -/
def keyCore (key : Nat) : Nat := key / 2 ^ 28 % 2048
/-- The bank that holds an array address. -/
def keyBank (key : Nat) : Nat := key / 2 ^ 24 % 16
/-- The group and the row of an array address (R271). -/
def keyGroup (key : Nat) : Lat := ⟨key / 2 ^ 22 % 4, Nat.mod_lt _ (by decide)⟩
/-- The physical row of an array address. -/
def keyRow (key : Nat) : Nat := key / 2 ^ 13 % 512

/-- PERIOD of a watchdog register (R378). -/
def wdPeriod (v : Word) : Nat := v.toNat % 2 ^ 32
/-- WDT written: the count is loaded anew (R378). -/
def Residence.setWdt (r : Residence) (v : Word) : Residence := { r with wdt := v, wdCount := wdPeriod v * 1024 }
/-- The watchdog of a residence reaches 0 within the next `n` ck (R379). -/
def Residence.wdPasses (r : Residence) (n : Nat) : Bool := wdPeriod r.wdt != 0 && n != 0 && r.wdCount ≤ n
/-- The watchdog of a residence after `n` ck: at 0 it is loaded anew, and counts on (R379). -/
def Residence.wdRun (r : Residence) (n : Nat) : Residence :=
  { r with wdCount := if r.wdPasses n then wdPeriod r.wdt * 1024 - (n - r.wdCount) % (wdPeriod r.wdt * 1024) else r.wdCount - n }

namespace Device

/-- Where a 60-bit physical address leads (R271, R282, R415, R419). -/
def stor (d : Device) (pa : Nat) : Stor :=
  if pa / 2 ^ 39 = d.fabric.dev then
    let k := pa % 2 ^ 39
    if d.regs.rsvc then
      if k / 2 ^ 20 % 256 = 0 then .vault (k / 2 ^ 28 * 2 ^ 20 + k % 2 ^ 20) else .nothing
    else .dram k
  else if !d.fabric.mute && Config.routed d.fabric.routes.toList d.fabric.down (pa / 2 ^ 39) then .dram (2 ^ 60 + pa)
  else .dropped (2 ^ 60 + pa)

/-- An error bit of ERRST set, with vector 2 when it changes from 0 to 1 (R409). -/
def raise (d : Device) (was : Bool) (set : HostRegs → HostRegs) : Device :=
  let r := set d.regs
  { d with regs := if was then r else { r with msi := r.msi.set 2 (r.msi[2] + 1) } }
/-- HWD set (R409). -/
def setHwd (d : Device) : Device := d.raise d.regs.hwd fun r => { r with hwd := true }
/-- A request dropped: RLOST is set (R415). -/
def setLost (d : Device) : Device :=
  { d with fabric := { d.fabric with mute := false } }.raise d.regs.rlost fun r => { r with rlost := true }
/-- FLFULL set (R411). -/
def setFull (d : Device) : Device := d.raise d.regs.flfull fun r => { r with flfull := true }
/-- A vector raised (R408, R410). -/
def notify (d : Device) (v : Fin 4) : Device :=
  { d with regs := { d.regs with msi := d.regs.msi.set v.val (d.regs.msi[v.val] + 1) } }

/-! ### The array (R124, R125) -/

/-- `n` bytes of one sector of the array, and whether the sector is poisoned. -/
def arrRead (d : Device) (key n : Nat) : Nat × Bool := (d.mem.read key n, d.memBad.contains (key / 64))
/-- `n` bytes written in one sector of the array, with the poison state of the data. -/
def arrWrite (d : Device) (key n v : Nat) (bad : Bool) : Device :=
  let was := d.memBad.contains (key / 64)
  { d with mem := d.mem.write key n v
           memBad := putN (if n = 64 then bad else bad || was) (key / 64) d.memBad }
/-- The poisoned sectors of a row, as a latch's poison bits. -/
def rowPoison (d : Device) (key : Nat) : BitVec 128 :=
  d.memBad.foldl (fun m s => if key / 64 ≤ s ∧ s < key / 64 + 128 then m ||| (1#128 <<< (s - key / 64)) else m) 0
/-- A row written whole with its poison (R125, R130). -/
def rowWrite (d : Device) (key : Nat) (data : RowData) (poison : BitVec 128) : Device :=
  { d with
    mem := d.mem.write key 8192 data.toNat
    memBad := (List.range 128).foldl (fun m k => if poison.getLsbD k then insertN (key / 64 + k) m else m)
      (d.memBad.filter fun s => s < key / 64 || key / 64 + 128 ≤ s) }
/-- The data of a row; a poisoned sector gives undefined bytes (R124). -/
def rowRead (d : Device) (key : Nat) : RowData :=
  let bad := d.rowPoison key
  BitVec.ofNat 65536 ((List.range 128).foldl (fun v k =>
    if bad.getLsbD k then putBytes v (64 * k) 64 (freeBytes d.now (key + 64 * k) 64) else v) (d.mem.read key 8192))

/-- The pending array write of a group performed, whole and at once (R131, R254, R289). -/
def performPend (d : Device) (c b : Nat) (g : Lat) : Device :=
  match (d.group c b g).pend with
  | none => d
  | some w =>
    let key := rowKey c b g.val w.row
    let d := d.rowWrite key w.data w.poison
    { d with
      lines := d.lines.filter fun l => l.line < key / 64 || key / 64 + 128 ≤ l.line || l.core / 128 != c / 128
      proxies := d.proxies.filter fun p => p.line < key / 64 || key / 64 + 128 ≤ p.line || p.stand != c / 128 }
    |>.modBank c b (fun x => { x with wq := x.wq.filter fun e => e.pa < key || key + 8192 ≤ e.pa })
    |>.modGroup c b g (fun x => { x with pend := none })
/-- The sense amplifiers of a group closed at a time, which performs a pending WB (R131, R133, R137). -/
def closeSense (d : Device) (c b : Nat) (g : Lat) (t : Nat) : Device :=
  (d.performPend c b g).modGroup c b g fun x => { x with phy := false, sa := t + 24 }

/-! ### The clock (R379, R388, R400) -/

/-- A residence issues on its core (R363). -/
def issues (d : Device) (p : Nat × Residence) : Bool := (d.core (p.1 / 3)).issuing == some (resSlot p.1) && p.2.state == .resident
/-- The watchdog of a residence counts (R379). -/
def wdCounts (d : Device) (p : Nat × Residence) : Bool := d.issues p || p.2.state == .faultWaiting
/-- A watchdog trap made pending for every gang of a context on its core (R379). -/
def wdExpire (d : Device) (p : Nat × Residence) : Device :=
  d.mapGangs p.1 fun g => if g.ended then g else { g with wdTrap := some (BitVec.ofNat 64 (wdPeriod p.2.wdt)) }
/-- `n` ck pass: the watchdogs of issuing and fault-waiting contexts count (R379), and so do the times of the issuing ones
(R388, R400). -/
def elapse (n : Nat) (d : Device) : Device :=
  let e : Device := { d with
    now := d.now + n
    ress := d.ress.map fun p =>
      let r := if d.wdCounts p then p.2.wdRun n else p.2
      (p.1, if d.issues p then { r with issued := r.issued + n, quantum := r.quantum + n, lastIssue := d.now + n - 1 } else r) }
  (d.ress.filter fun p => d.wdCounts p && p.2.wdPasses n).foldl wdExpire e
/-- One ck passes. -/
def tick (d : Device) : Device := d.elapse 1
/-- The clock at a time that has come, or that a convoy waits for. -/
def advanceTo (d : Device) (t : Nat) : Device := if t ≤ d.now then d else d.elapse (t - d.now)

end Device

/-! ### Row commands (R60, R119, R126) -/

/-- The queue of a row command: vector-load 0, vector-store 1; what the bank does of its own stands in neither (R60, R126,
R132, R144). -/
def RowOp.queue : RowOp → Nat
  | .act _ _ | .actw | .ref => 0
  | .wb _ _ | .wbp _ _ | .pre => 1
  | .close | .spill _ | .restore _ _ _ => 2
/-- A command of the bank's own: the precharge of a WBP, and those of a switch. -/
def RowOp.own (o : RowOp) : Bool := o.queue == 2
/-- Commands that read or write the latch. -/
def RowOp.latch : RowOp → Bool
  | .act _ _ | .actw | .wb _ _ | .wbp _ _ | .spill _ | .restore _ _ _ => true
  | .pre | .close | .ref => false
/-- Commands that a waiting class-0 column access holds back (R138). -/
def RowOp.held : RowOp → Bool
  | .act _ _ | .wb _ _ | .wbp _ _ | .ref => true
  | .actw | .pre | .close | .spill _ | .restore _ _ _ => false
/-- Commands that take a slot of the die window (R120). -/
def RowOp.slot : RowOp → Bool
  | .act _ _ | .actw | .wb _ _ | .wbp _ _ | .spill _ | .restore _ _ _ => true
  | .pre | .close | .ref => false
/-- A group that is WRITING (R116). -/
def GroupState.isWriting : GroupState → Bool
  | .writing _ => true
  | _ => false
/-- Commands that a precharge of the same bank follows of itself. -/
def RowOp.closes : RowOp → Bool
  | .wbp _ _ | .spill _ | .restore _ _ _ => true
  | _ => false

/-- The key of the row die above a bank (R120). -/
def dieKey (core bank : Nat) : Nat := core / 128 * 16 + bank
/-- The key of a group, for counters and tags. -/
def groupKey (core bank : Nat) (g : Lat) : Nat := (core * 16 + bank) * 4 + g.val
/-- The number of a latch of a core among the latches of its banks. -/
def latchNo (bank : Nat) (g : Lat) : Nat := bank * 4 + g.val
/-- The latch of a number. -/
def latchOf (n : Nat) : Nat × Lat := (n / 4, ⟨n % 4, Nat.mod_lt _ (by decide)⟩)

namespace Bank

/-- A row operation in a group starts no earlier than tRRD after the last one in every other group (R117, R119); a column access that
is to activate its row tRRD later or more has not activated it yet (R137). -/
def spaced (k : Bank) (g : Lat) (t : Nat) : Nat :=
  (List.finRange 4 ++ List.finRange 4 ++ List.finRange 4).foldl (fun t h =>
    let ro := k.groups[h.val].ro
    if h = g || t + 8 ≤ ro then t else max t ro) t
/-- The earliest start of a command at its bank, but for the die window and the hold of class-0 accesses (R119). -/
def rowReady (k : Bank) (g : Lat) (op : RowOp) (t0 : Nat) : Nat :=
  let x := k.groups[g.val]
  match op with
  | .act _ _ | .restore _ _ _ => max (max (k.spaced g t0) x.sa) x.lw
  | .actw => max (k.spaced g t0) x.lw
  | .wb _ held | .wbp _ held => max (if held && x.phy then k.spaced g t0 else max (k.spaced g t0) x.sa) x.lr
  | .spill _ => max (max (k.spaced g t0) x.sa) x.lr
  | .ref => max (k.spaced g t0) x.sa
  | .pre | .close => if x.phy then max t0 x.pr else t0
/-- A command with the entries of its queue before it: it has come to the head when there are none, and a part of a PREA has when the
parts before it have (R60, R119, R133). A sweep of the vector-store queue stands before the commands that came later. -/
def atHead (k : Bank) (before : List RowCmd) (r : RowCmd) : Bool :=
  let l := before.filter fun e => e.op.queue == r.op.queue
  r.op.own
    || ((l.isEmpty || (r.joined && l.all fun e => e.t0.isSome))
      && !(r.op.queue == 1 && k.segs.any fun s => s.store && s.n < r.n))
/-- The commands that have come to the head of their queue reach the bank now (R119). -/
def arrive (now : Nat) (k : Bank) : Bank :=
  { k with rowQ := k.rowQ.foldl (fun l r =>
      l ++ [if r.t0.isNone && k.atHead l r then { r with t0 := some now } else r]) [] }
/-- The place of the next entry of the bank's queues. -/
def nextPlace (k : Bank) : Nat :=
  k.segs.foldl (fun m s => max m (s.n + 1)) (k.rowQ.foldl (fun m r => max m (r.n + 1)) 0)

end Bank

namespace Device

/-! ### The die window (R120) -/

/-- Starts on a row die in the 15 ck before a time (R120). -/
def dieStarts (d : Device) (c b t : Nat) : Nat :=
  ((lookupD [] (dieKey c b) d.dies).filter fun u => u ≤ t && t < u + 16).length
/-- DieSlot (R120). -/
def dieSlot (d : Device) (c b : Nat) (t : Nat) : Nat :=
  ((List.range 17).find? fun k => d.dieStarts c b (t + k) < 64).elim (t + 16) (t + ·)
/-- A start entered in the window of its row die. -/
def dieStart (d : Device) (c b t : Nat) : Device :=
  { d with dies := insertK (dieKey c b) (t :: (lookupD [] (dieKey c b) d.dies).filter fun u => t < u + 16) d.dies
           dieLast := insertK (dieKey c b) c d.dieLast }

/-! ### Starting a command (R128 to R134, R144, R289) -/

/-- The entries of the write queue for a row applied: they are in the array already (R286, R289). -/
def applyRow (d : Device) (c b : Nat) (key : Nat) : Device :=
  d.modBank c b fun x => { x with wq := x.wq.filter fun e => e.pa < key || key + 8192 ≤ e.pa }
/-- A counter of the service unit changed (R418). -/
def modSvc (d : Device) (c b : Nat) (g : Lat) (f : SvcCount → SvcCount) : Device :=
  { d with svc := insertK (groupKey c b g) (f (lookupD {} (groupKey c b g) d.svc)) d.svc }
/-- A row of a group is sensed: the bank corrects and counts the correctable errors that it finds (R124, R418). How many there
are is a free value. -/
def sensed (d : Device) (c b : Nat) (g : Lat) (key : Nat) : Device :=
  d.modSvc c b g fun v => { v with corrected := v.corrected + Config.correctable (d.now * 2 ^ 64 + key) }
/-- A row is activated into its latch: what the bank counts (R124, R418). -/
def sensedRow (d : Device) (c b : Nat) (g : Lat) (key : Nat) : Device :=
  let bad := d.rowPoison key
  let n := ((List.range 128).filter fun k => bad.getLsbD k).length
  let d := d.sensed c b g key
  if n = 0 then d else d.modSvc c b g fun x => { x with poisoned := x.poisoned + n }
/-- One REF of a group at a time (R134, R143). -/
def refresh (d : Device) (c b : Nat) (g : Lat) (t : Nat) : Device :=
  d.modGroup c b g fun x =>
    let debt := max (x.debt - 1) (-8)
    { x with rptr := x.rptr + 1, debt := debt, sa := t + 96, ro := t + 4
             dlp := if debt < 8 then none else x.dlp, force := x.force && 4 < debt }
/-- RowTag (R123). -/
def rowTag (d : Device) (c b : Nat) (g : Lat) (row : Nat) : BitVec 4 :=
  BitVec.ofNat 4 (lookupD 15 (groupKey c b g * 512 + row) d.rowTags)
/-- A row activated into its latch at a time, with the record that the latch takes (R128, R144). -/
def activate (d : Device) (c b : Nat) (g : Lat) (row t : Nat) (tag : BitVec 4) (src : BitVec 9) : Device :=
  let key := rowKey c b g.val row
  let d := (d.applyRow c b key).sensedRow c b g key
  let data := d.rowRead key
  let bad := d.rowPoison key
  (d.copyLost c b g).modGroup c b g fun x =>
    { x with latch := { valid := true, tag := tag, src := src, poison := bad, data := data }
             phy := true, lr := t + 24, lw := t + 24, pr := t + 56, ro := t + 4 }
/-- A latch driven into a row at a time; the row is written when the group is precharged (R130, R131). -/
def drive (d : Device) (c b : Nat) (g : Lat) (row t : Nat) : Device :=
  d.modGroup c b g fun x =>
    { x with pend := some { row := row, data := x.latch.data, poison := x.latch.poison }, phy := true
             pr := max x.pr (t + 44), lw := max x.lw (t + 16), ro := t + 4 }
/-- A command started at a time: its effect on the latch, the array and the scoreboard; those of a switch are charged here (R417). -/
def startRow (d : Device) (c b : Nat) (cmd : RowCmd) (t : Nat) : Device :=
  let d := if cmd.op.slot then d.dieStart c b t else d
  let g := cmd.g
  match cmd.op with
  | .act row i => d.activate c b g row t (d.rowTag c b g row) (BitVec.ofNat 9 i)
  | .restore row tag src => (d.activate c b g row t tag src).charge c 16
  | .actw =>
    (d.copyLost c b g).modGroup c b g fun x =>
      { x with latch := { valid := true }, lr := t + 4, lw := t + 4, ro := t + 4 }
  | .wb row _ | .wbp row _ => d.drive c b g row t
  | .spill row => (d.drive c b g row t).charge c 16
  | .pre | .close => if (d.group c b g).phy then d.closeSense c b g t else d
  | .ref => d.refresh c b g t
/-- The command at an index of the queue of a bank started at a time; a WBP and the commands of a switch leave their precharge
to the bank (R132, R144). -/
def startAt (d : Device) (c b : Nat) (p : Nat × RowCmd × Nat) : Device :=
  let d := d.startRow c b p.2.1 p.2.2
  d.modBank c b fun x =>
    Bank.arrive d.now { x with rowQ := x.rowQ.take p.1
        ++ (if p.2.1.op.closes then [{ p.2.1 with op := .close, t0 := none }] else []) ++ x.rowQ.drop (p.1 + 1) }

/-! ### The debt tick (R6, R140) -/

/-- The interval of the debt ticks of a bank. -/
def debtInterval (d : Device) (c : Nat) : Nat := tickEvery d.hot d.regs.rsvc (c / 128)
/-- The time of the next debt tick of a bank: the first at its offset, and each later one an interval after the last. A tick
that is pending when the interval changes falls at the last one plus the new interval; the spec says so for a change of HOT,
and that the end of reduced service does the same is the model's choice (log 27). -/
def nextTick (d : Device) (c b : Nat) : Nat :=
  let k := d.bank c b
  if k.ticks = 0 then firstOffset (bankKey c b) else k.lastTick + d.debtInterval c

/-! ### Refresh of a bank's own (R140 to R143, R369) -/

/-- The harts of a residence that have not ended. -/
def liveHarts (d : Device) (rk : Nat) : Mask16 := (d.gangsOf rk).foldl (fun m p => m ||| p.2.live) 0
/-- The hart that owns the refresh of a bank: that of the issuing context, if it has not exited (R141). -/
def refOwner (d : Device) (c b : Nat) : Option Hart :=
  match (d.core c).issuing with
  | some s =>
    let rk := resKey c s
    if (d.liveHarts rk).getLsbD b then some (d.hart rk b) else none
  | none => none
/-- The threshold of automatic mode, none in program mode (R141, R419). -/
def refThreshold (d : Device) (c b : Nat) : Option Nat :=
  match d.refOwner c b with
  | some t =>
    if t.refm.getLsbD 0 || d.regs.rsvc then some (max 1 (t.refm.toNat / 2 % 8)) else none
  | none => some 2
/-- A context of a core is of class 0. -/
def slotClass0 (d : Device) (c : Nat) (s : Fin 3) : Bool :=
  match d.res? (resKey c s) with
  | some r => r.cls == 0
  | none => false
/-- Inserted refreshes of a core are held for a class-0 switch: from the request to the issue of the first convoy (R369). -/
def refHeld (d : Device) (c : Nat) : Bool :=
  match (d.core c).switch with
  | some q => q.class0
  | none => match (d.core c).issuing with
    | some s => match d.res? (resKey c s) with
      | some r => r.cls == 0 && r.fresh && r.quantum < 640
      | none => false
    | none => false
/-- A row command of the hart to a group has reached the head of its queue and waits (R142). -/
def rowWaits (d : Device) (c b : Nat) (g : Lat) : Bool :=
  (d.bank c b).rowQ.any fun r => r.g == g && r.t0.isSome && !r.op.own
/-- DLP has stood for 65,536 ck, or a forced refresh is under way (R143). -/
def forcedDue (d : Device) (c b : Nat) (g : Lat) : Bool :=
  let x := d.group c b g
  !d.refHeld c && (x.force || match x.dlp with
    | some t => t + 65536 ≤ d.now
    | none => false)
/-- Automatic mode inserts a REF into a group ahead of the hart's waiting commands (R142). -/
def urgentDue (d : Device) (c b : Nat) (g : Lat) : Bool :=
  (d.refThreshold c b).isSome && !d.refHeld c && (d.group c b g).debt == 8
/-- Automatic mode inserts a REF into a group (R142). -/
def autoRefDue (d : Device) (c b : Nat) (g : Lat) : Bool :=
  match d.refThreshold c b with
  | none => false
  | some n =>
    let x := d.group c b g
    d.urgentDue c b g
      || (!d.refHeld c && decide ((n : Int) ≤ x.debt) && !x.phy && x.pend.isNone && x.sa ≤ d.now && !d.rowWaits c b g)
/-- The bank has an inserted REF to start before any command of the hart to a group (R142, R143). -/
def refFirst (d : Device) (c b : Nat) (g : Lat) : Bool := d.forcedDue c b g || d.urgentDue c b g
/-- The sense amplifiers of a group are held, or a WB has yet to write its row. -/
def ampsHeld (d : Device) (c b : Nat) (g : Lat) : Bool := (d.group c b g).phy || (d.group c b g).pend.isSome
/-- Held sense amplifiers released by a precharge of the bank's own, at the earliest (R116, R137). -/
def ownClose (d : Device) (c b : Nat) (g : Lat) : Device :=
  if d.ampsHeld c b g then d.closeSense c b g (max d.now (d.group c b g).pr) else d
/-- The time at which a REF of the bank's own goes on: it releases held sense amplifiers first (R137, R142). -/
def insertTime (d : Device) (c b : Nat) (g : Lat) : Nat :=
  if d.ampsHeld c b g then max d.now (d.group c b g).pr else (d.bank c b).rowReady g .ref d.now
/-- One move of a REF that the bank inserts: it releases held sense amplifiers, or with none held the REF starts (R134, R142), with its
units (R417). -/
def insertRef (d : Device) (c b : Nat) (g : Lat) : Device :=
  if d.ampsHeld c b g then d.ownClose c b g
  else (d.refresh c b g ((d.bank c b).rowReady g .ref d.now)).charge c 8
/-- One move of a forced refresh, which is counted as it begins (R143, R418). -/
def forceRef (d : Device) (c b : Nat) (g : Lat) : Device :=
  let d := if (d.group c b g).force then d
    else (d.modGroup c b g fun x => { x with force := true }).modSvc c b g fun v => { v with forced := v.forced + 1 }
  d.insertRef c b g
/-- Every REF of a forced refresh of a group that is due, one after the other, ahead of a column access (R143). -/
def forceAll (d : Device) (c b : Nat) (g : Lat) : Nat → Device
  | 0 => d
  | n + 1 => if d.forcedDue c b g then forceAll (d.forceRef c b g) c b g n else d

/-! ### Column accesses at a group (R124, R137 to R139) -/

/-- The first command of the hart to a group that is queued, with its index. -/
def firstOn (d : Device) (c b : Nat) (g : Lat) : Option (Nat × RowCmd) :=
  ((d.bank c b).rowQ.zipIdx.find? fun p => p.1.g == g).map fun p => (p.2, p.1)
/-- The next command of the hart to a group releases it (R139). -/
def releaseNext (d : Device) (c b : Nat) (g : Lat) : Bool :=
  match d.firstOn c b g with
  | some p => match p.2.op with
    | .pre | .close => true
    | .wbp _ held => held && (d.group c b g).phy
    | _ => false
  | none => false
/-- The sense amplifiers of a group released for a column access: by the hart's next command there where that has reached the bank and
releases them (R139), else by the bank's own precharge (R137). -/
def release (d : Device) (c b : Nat) (g : Lat) : Device :=
  match d.firstOn c b g with
  | some p =>
    if (d.group c b g).phy && d.releaseNext c b g && p.2.t0.isSome then
      let t := (d.bank c b).rowReady g p.2.op (p.2.t0.getD d.now)
      let d := d.startAt c b (p.1, p.2, max d.now (if p.2.op.slot then d.dieSlot c b t else t))
      let d := d.ownClose c b g
      d.modBank c b fun k => { k with rowQ := match k.rowQ.findIdx? fun r => r.g == g && r.op == .close with
        | some i => if p.2.op.closes then dropIdx i k.rowQ else k.rowQ
        | none => k.rowQ }
    else d.ownClose c b g
  | none => d.ownClose c b g
/-- The time from which a column access of a class may have a group that is free: one of class 0 goes between the accesses of the
model's own that wait there one after the other, each of which it then delays (R137, R138). -/
def colFrom (now cls : Nat) (x : Group) : Nat :=
  match cls, x.stack.find? fun e => now < e with
  | 0, some e => if e < now + 80 then e else now
  | _, _ => x.sa
/-- The activation of a column access of a class at a time, with the accesses that it goes before delayed (R137, R138). -/
def colTake (now t cls row : Nat) (x : Group) : Group :=
  let l := x.stack.filter fun e => now < e
  if t < x.sa then { x with sa := x.sa + 80, col := some (row, t + 56), stack := l.map fun e => if t < e then e + 80 else e }
  else
    { x with sa := t + 80, ro := t + 4, col := some (row, t + 56)
             stack := if cls = 0 then l else (if l.isEmpty && now < x.sa then [x.sa] else l) ++ [t + 80] }
/-- A column access to a row: it waits for a forced refresh (R143), for the release of the group (R137, R139), and for the
scoreboard; then its activation holds the group. Accesses to a row whose activation has not ended share it. -/
def colUse (d : Device) (c b : Nat) (g : Lat) (key : Nat) (cls : Nat := 4) : Device :=
  let d := (d.forceAll c b g 24).release c b g
  let x := d.group c b g
  let row := keyRow key
  let shared := match x.col with
    | some p => p.1 == row && d.now ≤ p.2
    | none => false
  if shared then d
  else
    let t := max ((d.bank c b).spaced g d.now) (colFrom d.now cls x)
    (d.sensed c b g key).modGroup c b g (colTake d.now t cls row)
/-- A column access at an address of the array of this package, of a class where it is that of a known agent. -/
def releaseFor (d : Device) (key : Nat) (cls : Nat := 4) : Device :=
  if key < 2 ^ 39 then d.colUse (keyCore key) (keyBank key) (keyGroup key) key cls else d

end Device

end Sys2Proof.Machine
end

