-- ==== Sys2Proof/Machine/Store.lean ====
section
/-! DEFINITION. The storage of a package above the array: the vaults, the pool caches and proxy copies, host memory and the
scratchpads (R125, R241 to R254, R309). -/

namespace Sys2Proof.Machine

namespace Device

/-! ### Vaults (R247, R248) -/

/-- `n` bytes of a vault, and whether a word of them is poisoned. -/
def vaultRead (d : Device) (v n : Nat) : Nat × Bool :=
  (d.vault.read v n, d.vaultBad.any fun w => v / 8 ≤ w && w ≤ (v + n - 1) / 8)
/-- Poison of SRAM words after a write of `n` bytes: words covered whole take the state of the data, others keep theirs. -/
def sramBad (l : List Nat) (a n : Nat) (bad : Bool) : List Nat :=
  let ws := (List.range ((a + n - 1) / 8 + 1 - a / 8)).map (a / 8 + ·)
  if n = 0 then l
  else ws.foldl (fun m w => if bad then insertN w m else if a ≤ 8 * w ∧ 8 * w + 8 ≤ a + n then eraseN w m else m) l
/-- `n` bytes written to a vault. -/
def vaultWrite (d : Device) (v n w : Nat) (bad : Bool) : Device :=
  { d with vault := d.vault.write v n w, vaultBad := sramBad d.vaultBad v n bad }

/-! ### Pool caches and slices (R243, R245, R250 to R255) -/

/-- Physical pool bytes that a core allots to a context (R243). -/
def poolShare (fb sb cb : Nat) : Nat := 16384 + (sb - fb) + (Config.poolBytes - cb)
/-- The lines that the pool cache of a core has room for: the physical remainder, capped (R243). -/
def cacheLines (d : Device) (core : Nat) : Nat :=
  min Config.cacheBytes
    (Config.poolBytes - (d.resOfCore core).foldl (fun n q => n + poolShare q.2.fb q.2.sb q.2.cb) 0) / 64
/-- The lines that the pool cache of a core holds, the most recently used first. -/
def linesOf (d : Device) (core : Nat) : List CacheLine := d.lines.filter fun c => c.core == core
/-- The copy of a line in the pool cache of a core. -/
def copy? (d : Device) (core line : Nat) : Option CacheLine := d.lines.find? fun c => c.core == core && c.line == line
/-- The dirty copy of a line in a pool cache of its home stand. -/
def dirty? (d : Device) (line : Nat) : Option CacheLine := d.lines.find? fun c => c.dirty && c.line == line
/-- The package without the copy of a line in the pool cache of a core. -/
def dropCopy (d : Device) (core line : Nat) : Device :=
  { d with lines := d.lines.filter fun c => !(c.core == core && c.line == line) }
/-- The package without the copies of a line in the pool caches of a stand. -/
def dropCopies (d : Device) (stand line : Nat) : Device :=
  { d with lines := d.lines.filter fun c => !(c.core / 128 == stand && c.line == line) }
/-- Every copy of a line on its home stand invalidated (R254). -/
def dropLine (d : Device) (line : Nat) : Device :=
  { d with lines := d.lines.filter fun c => !(c.line == line && atHome line (c.core / 128))
           proxies := d.proxies.filter fun p => !(p.line == line && atHome line p.stand) }
/-- What a cached access on the home stand sees, in one line (R252). -/
def homeRead (d : Device) (key n : Nat) : Nat × Bool :=
  match d.dirty? (key / 64) with
  | some c => (getBytes c.data.toNat (key % 64) n, c.bad)
  | none => d.arrRead key n
/-- After a column write of a line no reduction joins an entry that is there already (R288). -/
def wqClose (d : Device) (key : Nat) : Device :=
  if key < 2 ^ 39 then d.modBank (keyCore key) (keyBank key) fun k =>
    { k with wq := k.wq.map fun e => if e.pa / 64 = key / 64 then { e with red := none } else e }
  else d
/-- A dirty copy written to its bank, as a column write, and kept clean (R252, R268): when the bank first has to write a whole row
over the line, the copy is gone (R254). -/
def cleanHome (d : Device) (line : Nat) : Device :=
  match d.dirty? line with
  | none => d
  | some _ =>
    let d := d.releaseFor (64 * line)
    match d.dirty? line with
    | none => d
    | some c =>
      let d := (d.wqClose (64 * line)).arrWrite (64 * line) 64 c.data.toNat c.bad
      { d with lines := d.lines.map fun e => if e.line = line then { e with dirty := false } else e }
/-- A dirty copy recalled: written to its bank and dropped (R252, R253, R254). -/
def recallLine (d : Device) (line : Nat) : Device :=
  match d.dirty? line with
  | some c => (d.cleanHome line).dropCopy c.core line
  | none => d
/-- A line leaves the pool cache of a core; a dirty one is written to its bank first (R245, R252). -/
def evictLine (d : Device) (core line : Nat) : Device :=
  match d.copy? core line with
  | some c => if c.dirty then d.recallLine line else d.dropCopy core line
  | none => d
/-- The least recently used lines of a pool cache leave it, until it holds no more than so many (R245). -/
def trimCache (d : Device) (core n : Nat) : Device :=
  ((d.linesOf core).drop n).foldl (fun d c => d.evictLine core c.line) d
/-- Room for a line in the pool cache of a core: the least recently used of the others leave it (R245). -/
def cacheRoom (d : Device) (core line : Nat) : Device :=
  (((d.linesOf core).filter fun c => c.line != line).drop (d.cacheLines core - 1)).foldl (fun d c => d.evictLine core c.line) d
/-- A line enters a pool cache as the most recently used (R245). -/
def holdLine (d : Device) (c : CacheLine) : Device :=
  let d := (d.cacheRoom c.core c.line).dropCopy c.core c.line
  { d with lines := c :: d.lines }
/-- A column write at the bank, in one sector (R125, R254). -/
def bankWrite (d : Device) (key n v : Nat) (bad : Bool) : Device :=
  let d := (d.releaseFor key).wqClose key
  if n = 64 then (d.dropLine (key / 64)).arrWrite key n v bad
  else ((d.recallLine (key / 64)).dropLine (key / 64)).arrWrite key n v bad
/-- The copy of a line in a slice of a stand. -/
def proxy? (d : Device) (stand line : Nat) : Option Proxy := d.proxies.find? fun p => p.stand == stand && p.line == line
/-- Where a line of the array is reached now: that of another package by a request on the fabric (R415). -/
def lineStor (d : Device) (line : Nat) : Stor := if 64 * line < 2 ^ 60 then .dram (64 * line) else d.stor (64 * line - 2 ^ 60)
/-- The marked bytes of a proxy copy written at its home, as a column write (R253, R288). -/
def putMarked (d : Device) (p : Proxy) : Device :=
  let d := (d.releaseFor (64 * p.line)).wqClose (64 * p.line)
  let old := d.homeRead (64 * p.line) 64
  let v := (List.range 64).foldl (fun v k =>
    if p.marks.getLsbD k then putBytes v k 1 (getBytes p.data.toNat k 1) else v) old.1
  let whole := p.marks == BitVec.allOnes 64
  (d.dropLine p.line).arrWrite (64 * p.line) 64 v (p.bad || (!whole && old.2))
/-- The marked bytes of a proxy copy written home, and the marks cleared (R253); a request that the fabric drops is lost (R415). -/
def writeHome (d : Device) (p : Proxy) : Device :=
  if p.marks = 0 then d
  else
    let d := match d.lineStor p.line with
      | .dropped _ => d.setLost
      | _ => d.putMarked p
    { d with proxies := d.proxies.map fun q =>
        if q.stand = p.stand ∧ q.line = p.line then { q with marks := 0 } else q }
/-- The package without the copy of a line in a slice: with a proxy copy go the copies that are kept coherent with it (R253). -/
def dropProxy (d : Device) (stand line : Nat) : Device :=
  let d := if atHome line stand then d else d.dropCopies stand line
  { d with proxies := d.proxies.filter fun q => !(q.stand == stand && q.line == line) }
/-- A line of a slice written home and dropped. -/
def flushProxy (d : Device) (stand line : Nat) : Device :=
  match d.proxy? stand line with
  | some p => (d.writeHome p).dropProxy stand line
  | none => d
/-- The lines of a slice of a stand, the most recently used first (R255). -/
def sliceOf (d : Device) (stand slice : Nat) : List Proxy :=
  d.proxies.filter fun p => p.stand == stand && homeSlice (64 * p.line) == slice
/-- Room for a line in its slice of a stand: the least recently used of the others leave it (R253, R255). -/
def sliceRoom (d : Device) (stand line : Nat) : Device :=
  (((d.sliceOf stand (homeSlice (64 * line))).filter fun q => q.line != line).drop (Config.sliceLines - 1)).foldl
    (fun d q => d.flushProxy q.stand q.line) d
/-- A line enters its slice as the most recently used (R253, R255). -/
def setProxy (d : Device) (p : Proxy) : Device :=
  let d := d.sliceRoom p.stand p.line
  { d with proxies := p :: d.proxies.filter fun q => !(q.stand == p.stand && q.line == p.line) }
/-- A line as its home slice or its bank serves it, when no pool cache of its home stand holds it dirty (R137, R252): the slice of
a line of this package keeps a clean copy. -/
def homeFetch (d : Device) (line : Nat) : Device × Nat × Bool :=
  match homeStand (64 * line) with
  | none => (d, d.arrRead (64 * line) 64)
  | some stand =>
    let d := d.sliceRoom stand line
    match d.proxy? stand line with
    | some p => (d.setProxy p, p.data.toNat, p.bad)
    | none =>
      let d := d.releaseFor (64 * line)
      let r := d.arrRead (64 * line) 64
      (d.setProxy { stand := stand, line := line, data := BitVec.ofNat 512 r.1, marks := 0, bad := r.2 }, r)
/-- A load of a line by a core of its home stand: from its pool cache, from the owner, from the home slice or from the bank
(R252). A line that another cache owns stays there, dirty, and is not copied. Room is made before the line is taken: a line that leaves
may bring about the array write of a row. With `na` a line that misses is not kept (R263). -/
def homeLoad (d : Device) (core line : Nat) (na : Bool := false) : Device × Nat × Bool :=
  let d := d.cacheRoom core line
  match d.copy? core line with
  | some c => (d.holdLine c, c.data.toNat, c.bad)
  | none => match d.dirty? line with
    | some c => (d, c.data.toNat, c.bad)
    | none =>
      let r := d.homeFetch line
      if na then r
      else (r.1.holdLine { core := core, line := line, data := BitVec.ofNat 512 r.2.1, bad := r.2.2, dirty := false }, r.2)
/-- The proxy copy of a line in a stand, filled when absent from the coherent view of its home, which recalls a dirty copy
(R253). -/
def fillProxy (d : Device) (stand line : Nat) : Device × Proxy :=
  let d := d.sliceRoom stand line
  match d.proxy? stand line with
  | some p => (d, p)
  | none =>
    let r := (d.recallLine line).homeFetch line
    (r.1, { stand := stand, line := line, data := BitVec.ofNat 512 r.2.1, marks := 0, bad := r.2.2 })
/-- A line that the core's pool cache holds dirty, or its stand as a proxy copy, written home, where the copy stays, clean; CINV
drops the core's copy and the proxy copy of the stand (R268). -/
def cleanLine (d : Device) (core : Nat) (inv : Bool) (line : Nat) : Device :=
  let d := match d.dirty? line with
    | some c => if c.core = core then d.cleanHome line else d
    | none => d
  let d := if inv then d.dropCopy core line else d
  if atHome line (core / 128) then d
  else match d.proxy? (core / 128) line with
    | some p => if inv then d.flushProxy (core / 128) line else d.writeHome p
    | none => d
/-- The bits of the bytes of a line from an offset on. -/
def byteMarks (off n : Nat) : BitVec 64 := BitVec.ofNat 64 ((2 ^ n - 1) * 2 ^ off)
/-- The copy that a core's pool cache holds of a proxy copy. -/
def proxyCopy (p : Proxy) (core : Nat) : CacheLine :=
  { core := core, line := p.line, data := p.data, bad := p.bad, dirty := false }
/-- A column write at the bank of an array address, or at the vault that stands for it (R254, R419). -/
def colWrite (d : Device) (st : Stor) (n v : Nat) (bad : Bool := false) : Device :=
  match st with
  | .dram key => d.bankWrite key n v bad
  | .vault a => d.vaultWrite a n v bad
  | .nothing => d
  | .dropped _ => d.setLost
/-- A column read: the array, or the vault that stands for it (R254, R309). -/
def colRead (d : Device) (st : Stor) (n : Nat) : Device × Nat × Bool :=
  match st with
  | .dram key =>
    let d := d.releaseFor key
    (d, d.arrRead key n)
  | .vault a => (d, d.vaultRead a n)
  | .nothing => (d, 0, false)
  | .dropped _ => (d.setLost, 0, true)
/-- Where an access of a core goes: a line that its stand holds needs no request on the fabric (R253, R415). -/
def nearby (d : Device) (core : Nat) (st : Stor) : Stor :=
  match st with
  | .dropped key => if (d.proxy? (core / 128) (key / 64)).isSome then .dram key else st
  | st => st
/-- A line that misses in the pool cache of a core is not to be kept there (R263). -/
def passes (d : Device) (core line : Nat) (na : Bool) : Bool := na && (d.copy? core line).isNone
/-- A cached read by a core, in one line (R252, R253); in reduced service nothing is cached (R419). -/
def cachedRead (d : Device) (core : Nat) (st : Stor) (n : Nat) (na : Bool := false) : Device × Nat × Bool :=
  match d.nearby core st with
  | .dram key =>
    if d.regs.rsvc then d.colRead st n
    else if atHome (key / 64) (core / 128) then
      let r := d.homeLoad core (key / 64) na
      (r.1, getBytes r.2.1 (key % 64) n, r.2.2)
    else
      let pass := d.passes core (key / 64) na
      let r := (if pass then d else d.cacheRoom core (key / 64)).fillProxy (core / 128) (key / 64)
      let e := r.1.setProxy r.2
      (if pass then e else e.holdLine (proxyCopy r.2 core), getBytes r.2.data.toNat (key % 64) n, r.2.bad)
  | st => d.colRead st n
/-- A cached write by a core, in one line, which owns the line first (R252, R253, R125); with `na` one that misses goes past the pool
cache (R263). In reduced service nothing is cached (R419). -/
def cachedWrite (d : Device) (core : Nat) (st : Stor) (n v : Nat) (na : Bool := false) : Device :=
  match d.nearby core st with
  | .dram key =>
    if d.regs.rsvc then d.colWrite st n v
    else if atHome (key / 64) (core / 128) then
      if d.passes core (key / 64) na then d.colWrite st n v
      else
        let r := d.homeLoad core (key / 64)
        (r.1.dropLine (key / 64)).holdLine
          { core := core, line := key / 64, bad := r.2.2 && n != 64
            data := BitVec.ofNat 512 (putBytes r.2.1 (key % 64) n v) }
    else
      let pass := d.passes core (key / 64) na
      let r := (if pass then d else d.cacheRoom core (key / 64)).fillProxy (core / 128) (key / 64)
      let p := { r.2 with data := BitVec.ofNat 512 (putBytes r.2.data.toNat (key % 64) n v)
                          marks := r.2.marks ||| byteMarks (key % 64) n, bad := r.2.bad && n != 64 }
      let e := (r.1.setProxy p).dropCopies (core / 128) (key / 64)
      if pass then e else e.holdLine (proxyCopy p core)
  | st => d.colWrite st n v

/-! ### A physical address as the device's own reads and writes see it (rings, tables, save areas) -/

/-- `n` bytes at a physical address within a row or a vault. -/
def physRead (d : Device) (pa n : Nat) : Nat :=
  match d.stor pa with
  | .dram key => d.mem.read key n
  | .vault a => d.vault.read a n
  | _ => 0
/-- What such a read does beside answering: column accesses (R137), or a request that the fabric drops (R415). -/
def physTouch (d : Device) (pa n : Nat) : Device :=
  (List.range ((pa + n + 63) / 64 - pa / 64)).foldl (fun d k => (d.colRead (d.stor (64 * (pa / 64 + k))) 64).1) d
/-- `n` bytes written at a physical address, line by line. -/
def physWrite (d : Device) (pa n v : Nat) : Device :=
  (List.range ((pa + n + 63) / 64 - pa / 64)).foldl (fun d k =>
    let lo := max pa (64 * (pa / 64 + k))
    let hi := min (pa + n) (64 * (pa / 64 + k) + 64)
    d.colWrite (d.stor lo) (hi - lo) (v / 2 ^ (8 * (lo - pa))))
    d

end Device

/-! ### Scratchpads (R241, R244, R257) -/

namespace Residence

/-- `n` bytes at a pool-window offset, and whether a word of them is poisoned. -/
def read (r : Residence) (off n : Nat) : Nat × Bool :=
  (r.scratch.read off n, r.bad.any fun w => off / 8 ≤ w && w ≤ (off + n - 1) / 8)
/-- `n` bytes written at a pool-window offset; tags stay. -/
def write (r : Residence) (off n v : Nat) (bad : Bool := false) : Residence :=
  { r with scratch := r.scratch.write off n v, bad := Device.sramBad r.bad off n bad }
/-- The tag of a word, by offset (R257). -/
def tag (r : Residence) (off : Nat) : Bool := r.full.contains (off / 8)
/-- A tag written. -/
def setTag (r : Residence) (off : Nat) (v : Bool) : Residence := { r with full := putN v (off / 8) r.full }

end Residence

end Sys2Proof.Machine
end

