-- ==== Sys2Proof/Machine/Xlate.lean ====
section
/-! DEFINITION. Translation: page tables, bank skews, translation caches, permissions, the windows, and the checked access
of a word to memory (R241, R246, R262, R270 to R281, R419). -/

namespace Sys2Proof.Machine

/-- A leaf entry with the size of its page as a power of two (R273). -/
structure Leaf where
  low : Nat
  oa : Nat
  log : Nat
deriving DecidableEq, Repr

namespace Leaf

/-- Read permitted. -/
def r (l : Leaf) : Bool := nbit l.low 2
/-- Write permitted. -/
def w (l : Leaf) : Bool := nbit l.low 3
/-- The OA is a host address. -/
def isHost (l : Leaf) : Bool := nbit l.low 5
/-- Execution permitted; a HOST leaf reads it as 0. -/
def x (l : Leaf) : Bool := nbit l.low 4 && !l.isHost
/-- Bank skew. -/
def bsk (l : Leaf) : Nat := l.low / 2 ^ 8 % 8
/-- Element format tag. -/
def fmt (l : Leaf) : Nat := l.low / 2 ^ 11 % 16
/-- Block geometry. -/
def blkg (l : Leaf) : Nat := l.low / 2 ^ 15 % 64

end Leaf

/-! ### Bank skew (R276, R277) -/

/-- An array address from its fields, below the device (R271). -/
def paFields (core bank g row byte : Nat) : Nat := (((core * 16 + bank) * 4 + g) * 512 + row) * 8192 + byte
/-- Decode for BSK 0, 1 and 2. -/
def unskew (bsk u : Nat) : Nat :=
  let f (lo n : Nat) : Nat := u / 2 ^ lo % 2 ^ n
  match bsk with
  | 0 => paFields (f 28 11) (f 15 4) (f 13 2) (f 19 9) (f 0 13)
  | 1 => paFields (f 28 11) (f 6 4) (f 17 2) (f 19 9) (f 10 7 * 64 + f 0 6)
  | _ => paFields (f 35 4 * 128 + f 32 3 * 16 + f 6 4) (f 17 4) (f 21 2) (f 23 9) (f 10 7 * 64 + f 0 6)
/-- Decode3 of an offset in a 2 MiB page whose frame address is `u` (R277). -/
def unskew3 (u o : Nat) : Nat :=
  let x := o / 64
  let k := x % 17
  let w := x / 17
  let r0 := u / 2 ^ 19 % 512
  let g := u / 2 ^ 13 % 4
  let core := u / 2 ^ 28 % 2048
  if k < 16 then paFields core k g (r0 + w / 128) (w % 128 * 64 + o % 64)
  else paFields core (w % 16) g (r0 + 16) (w / 16 * 64 + o % 64)

namespace Device

/-- The physical address of a byte of a device page (R276, R277, R419). -/
def leafPa (d : Device) (l : Leaf) (off : Nat) : Nat :=
  if d.regs.rsvc then l.oa + off
  else
    let u := (l.oa + off) % 2 ^ 39
    l.oa / 2 ^ 39 * 2 ^ 39 + (if l.bsk = 3 then unskew3 (l.oa % 2 ^ 39) off else unskew l.bsk u)

/-! ### Walks (R272 to R274) -/

/-- The result of a walk. -/
inductive WalkR where
  | ok (l : Leaf)
  | fault (detail : Nat)
deriving DecidableEq, Repr

/-- Whether some byte of a device page decodes to a row above 507, or lies outside one vault in reduced service. -/
def pageBad (d : Device) (l : Leaf) : Bool :=
  if d.regs.rsvc then l.oa / 2 ^ 20 % 256 != 0
  else if l.bsk = 3 then 507 < l.oa / 2 ^ 19 % 512 + 16
  else 507 < unskew l.bsk ((l.oa + 2 ^ l.log - 1) % 2 ^ 39) / 8192 % 512
/-- The checks of a leaf entry at a level (R273, R274, R419). Of an entry that meets several rows of the table of R274 the spec does not
say which is reported: the lowest detail code is, DESIGN CHOICE (log 66). -/
def leafCheck (d : Device) (level : Nat) (low oa : Nat) : WalkR :=
  let log := if level = 0 then 16 else if level = 1 then 21 else 30
  let l : Leaf := { low := low, oa := oa, log := log }
  if 3 ≤ level || 4 ≤ l.bsk || (l.isHost && (l.bsk != 0 || l.fmt != 0 || l.blkg != 0)) then .fault 1
  else if d.regs.rsvc && !l.isHost && (level != 0 || l.bsk != 0) then .fault 1
  else if oa / 2 ^ 60 != 0 || oa % 2 ^ log != 0 then .fault 2
  else if !l.isHost && (d.pageBad l || (l.bsk == 3 && level != 1)) then .fault 2
  else if !l.isHost && d.fabric.fsize < oa / 2 ^ 39 then .fault 3
  else .ok l
/-- The index of a virtual address at a level (R272). -/
def walkIndex (level va : Nat) : Nat :=
  match level with
  | 4 => va / 2 ^ 48 % 256
  | 3 => va / 2 ^ 39 % 512
  | 2 => va / 2 ^ 30 % 512
  | 1 => va / 2 ^ 21 % 512
  | _ => va / 2 ^ 16 % 32
/-- Whether a table of a level may lie at an address (R272, R274, R419). -/
def tableOk (d : Device) (level t : Nat) : Bool :=
  let size := if level = 4 then 4096 else if level = 0 then 512 else 8192
  t / 2 ^ 60 == 0 && t % size == 0 && t / 2 ^ 39 == d.fabric.dev && d.stor t != .nothing
/-- Sixteen bytes of a table; a poisoned sector gives undefined bytes (R125). -/
def walkRead (d : Device) (pa : Nat) : Nat :=
  let r := (d.colRead (d.stor pa) 16).2
  if r.2 then freeBytes d.now pa 16 else r.1
/-- The levels of a walk from a table on; each entry is read as a column access (R137). -/
def walkFrom (d : Device) (va : Nat) : Nat → Nat → Device × WalkR
  | level, t =>
    let a := t + 16 * walkIndex level va
    let d := d.physTouch a 16
    let e := d.walkRead a
    let low := e % 2 ^ 64
    let oa := e / 2 ^ 64
    if low % 2 = 0 then (d, .fault 0)
    else if low / 2 ^ 6 % 4 != 0 || low / 2 ^ 21 != 0 then (d, .fault 1)
    else if nbit low 1 then (d, d.leafCheck level low oa)
    else match level with
      | 0 => (d, .fault 1)
      | level + 1 =>
        if low / 4 % 2 ^ 19 != 0 then (d, .fault 1)
        else if !d.tableOk level oa then (d, .fault 2)
        else walkFrom d va level oa
/-- A walk of a context's tables (R272, R414), with its column accesses. -/
def walked (d : Device) (ctx : BitVec 12) (va : Nat) : Device × WalkR :=
  let a := d.regs.rtbase.toNat + 8 * ctx.toNat
  let d := d.physTouch a 8
  let root := d.physRead a 8
  if root = 0 then (d, .fault 0)
  else if !d.tableOk 4 root then (d, .fault 2)
  else d.walkFrom va 4 root
/-- The result of a walk. -/
def walk (d : Device) (ctx : BitVec 12) (va : Nat) : WalkR := (d.walked ctx va).2

/-! ### Translation caches (R279 to R281) -/

/-- A translation. -/
inductive Xl where
  | page (l : Leaf)
  | host (l : Leaf) (base : Word) (r w : Bool)
  | fault (detail : Nat)
  /-- the host's answer is awaited (R281) -/
  | pending (l : Leaf)
deriving DecidableEq, Repr

end Device

/-- Whether an entry covers an address of a context. -/
def AtcEntry.covers (e : AtcEntry) (ctx : BitVec 12) (va : Nat) : Bool :=
  e.ctx == ctx && e.va / 2 ^ e.log == va / 2 ^ e.log
/-- The translation that an entry gives. -/
def AtcEntry.xl (e : AtcEntry) : Device.Xl :=
  let l : Leaf := { low := e.leaf.1, oa := e.leaf.2, log := e.log }
  if l.isHost then
    match e.ats with
    | some (b, r, w) => .host l b r w
    | none => .pending l
  else .page l

/-- An entry of a HOST leaf meets a range of host addresses (R281). -/
def AtcEntry.meets (e : AtcEntry) (host len : Nat) : Bool :=
  nbit e.leaf.1 5 && e.leaf.2 < host + len && host < e.leaf.2 + 2 ^ e.log

namespace Device

/-- The accumulator transfers that entries of a matrix queue are to begin (R227, R239). -/
def queuedMoves (l : List MxEntry) : List AccXfer :=
  l.filterMap fun e => match e.op with
    | .move _ x => some x
    | _ => none
/-- Every accumulator transfer that has been translated and not completed: in progress, in a queue, or with a context that is switched
out or saved (R230, R239). -/
def transfers (d : Device) : List AccXfer :=
  d.cores.flatMap (fun p => p.2.xfers ++ queuedMoves p.2.mx) ++ d.ress.flatMap (fun p => queuedMoves p.2.mx)
    ++ d.launches.flatMap fun l => l.places.flatMap fun p => queuedMoves p.mx
/-- An access that uses a host translation within a range has not been performed: an accumulator transfer holds it (R281). -/
def atsBusy (d : Device) (v : Word × Word) : Bool :=
  d.transfers.any fun x => x.pages.any fun e => e.meets v.1.toNat v.2.toNat
/-- The completions of the invalidation requests that nothing holds back any more are sent, in their order (R281). -/
def sendAts (d : Device) : Device :=
  { d with atsInv := d.atsInv.filter d.atsBusy, atsDone := d.atsDone ++ d.atsInv.filter fun v => !d.atsBusy v }

/-- The package with an entry in a core's translation cache as the one used last; beyond 512 the least recently used goes
(R279). -/
def putAtc (d : Device) (core : Nat) (e : AtcEntry) : Device :=
  d.modCore core fun c =>
    { c with atc := (e :: c.atc.filter fun o => !(o.ctx == e.ctx && o.va == e.va && o.log == e.log)).take Config.atcEntries }
/-- The translation of an address below 2^56 for a context on a core: from its cache, or by a walk that fills it. -/
def translate (d : Device) (core : Nat) (ctx : BitVec 12) (va : Nat) : Device × Xl :=
  match (d.core core).atc.find? fun e => e.covers ctx va with
  | some e => (d.putAtc core e, e.xl)
  | none =>
    let x := d.walked ctx va
    match x.2 with
    | .fault k => (x.1, .fault k)
    | .ok l =>
      let e : AtcEntry := { ctx := ctx, va := va / 2 ^ l.log * 2 ^ l.log, log := l.log, leaf := (l.low, l.oa) }
      (x.1.putAtc core e, e.xl)

end Device

/-! ### The addresses of a context that lead to a line (R256, R268) -/

/-- The inverse of the decoding of a page offset: the unskewed address of an array address, for BSK 0, 1 and 2 (R276). -/
def skewed (bsk p : Nat) : Nat :=
  let f (lo n : Nat) : Nat := p / 2 ^ lo % 2 ^ n
  match bsk with
  | 0 => f 28 11 * 2 ^ 28 + f 13 9 * 2 ^ 19 + f 24 4 * 2 ^ 15 + f 22 2 * 2 ^ 13 + f 0 13
  | 1 => f 28 11 * 2 ^ 28 + f 13 9 * 2 ^ 19 + f 22 2 * 2 ^ 17 + f 6 7 * 2 ^ 10 + f 24 4 * 2 ^ 6 + f 0 6
  | _ => f 35 4 * 2 ^ 35 + f 32 3 * 2 ^ 32 + f 13 9 * 2 ^ 23 + f 22 2 * 2 ^ 21 + f 24 4 * 2 ^ 17 + f 6 7 * 2 ^ 10
      + f 28 4 * 2 ^ 6 + f 0 6
/-- The offset in a page with BSK 3, whose frame address is `u`, of an array address (R277). -/
def skewed3 (u p : Nat) : Nat :=
  let row := p / 2 ^ 13 % 512 - u / 2 ^ 19 % 512
  let bank := p / 2 ^ 24 % 16
  let line := p / 64 % 128
  (if row < 16 then (row * 128 + line) * 17 + bank else (line * 16 + bank) * 17 + 16) * 64 + p % 64

namespace Device

/-- The offset in a device page at which a line of an array lies, if it lies in the page. -/
def offsetOf (d : Device) (l : Leaf) (line : Nat) : Option Nat :=
  let key := 64 * line
  let pa := if key < 2 ^ 39 then d.fabric.dev * 2 ^ 39 + key else key - 2 ^ 60
  let off := if d.regs.rsvc then pa - l.oa
    else if l.bsk = 3 then skewed3 (l.oa % 2 ^ 39) (pa % 2 ^ 39)
    else (skewed l.bsk (pa % 2 ^ 39) + 2 ^ 39 - l.oa % 2 ^ 39) % 2 ^ 39
  if off < 2 ^ l.log && !l.isHost && d.stor (d.leafPa l off) == .dram key then some off else none
/-- The indices of the entries of a table that hold something. -/
def tableIdx (d : Device) (t size : Nat) : List Nat :=
  let pick (base : Nat) (l : List Nat) : List Nat :=
    (l.filter fun a => base ≤ a && a < base + size).map fun a => (a - base) / 16
  match d.stor t with
  | .dram key =>
    (pick key (d.mem.map fun c => c.1)
      ++ d.memBad.flatMap fun s => pick key [64 * s, 64 * s + 16, 64 * s + 32, 64 * s + 48]).dedup
  | .vault v => (pick v (d.vault.map fun c => c.1) ++ (d.vaultBad.flatMap fun w => pick v [8 * w])).dedup
  | _ => []
/-- The first addresses of the pages that a table of a level maps, from an address on. -/
def pagesFrom (d : Device) (base : Nat) : Nat → Nat → List Nat
  | level, t =>
    let span : Nat := match level with
      | 4 => 2 ^ 48
      | 3 => 2 ^ 39
      | 2 => 2 ^ 30
      | 1 => 2 ^ 21
      | _ => 2 ^ 16
    let size : Nat := match level with
      | 4 => 4096
      | 0 => 512
      | _ => 8192
    (d.tableIdx t size).flatMap fun k =>
      let e := d.walkRead (t + 16 * k)
      if e % 2 = 0 then []
      else if nbit e 1 then [base + k * span]
      else match level with
        | 0 => []
        | level + 1 => if d.tableOk level (e / 2 ^ 64) then pagesFrom d (base + k * span) level (e / 2 ^ 64) else []
/-- The first addresses of the pages of a context. -/
def pagesOf (d : Device) (ctx : BitVec 12) : List Nat :=
  let root := d.physRead (d.regs.rtbase.toNat + 8 * ctx.toNat) 8
  if root = 0 || !d.tableOk 4 root then [] else d.pagesFrom 0 4 root
/-- The addresses, each the first of a line, at which a context on a core finds a line: of the pages that its translation
cache or its tables map. -/
def lineVas (d : Device) (core : Nat) (ctx : BitVec 12) (line : Nat) : List Nat :=
  let cached := ((d.core core).atc.filter fun e => e.ctx == ctx).map AtcEntry.va
  (cached ++ d.pagesOf ctx).filterMap fun va =>
    match (d.translate core ctx va).2 with
    | .page l => (d.offsetOf l line).bind fun off =>
        let w := va / 2 ^ l.log * 2 ^ l.log + off
        match (d.translate core ctx w).2 with
        | .page m => if m == l then some w else none
        | _ => none
    | _ => none

end Device

/-- Access kinds, in the order of the access codes of R284. -/
inductive Acc where
  | fetch | read | write | atomic | copyRead | copyWrite
deriving DecidableEq, Repr

/-- The access code of R284. -/
def Acc.code : Acc → Nat
  | .fetch => 0 | .read => 1 | .write => 2 | .atomic => 3 | .copyRead => 4 | .copyWrite => 5
/-- Whether the R bit is needed (R275). -/
def Acc.needR : Acc → Bool
  | .read | .copyRead | .atomic => true
  | _ => false
/-- Whether the W bit is needed (R275). -/
def Acc.needW : Acc → Bool
  | .write | .copyWrite | .atomic => true
  | _ => false

/-- Where a checked access goes. -/
inductive Place where
  | mem (st : Stor)
  | host (a : Nat)
  | pool (off : Nat)
deriving DecidableEq, Repr

/-- The result of checking an access. -/
inductive AccR where
  | ok (p : Place)
  | fail (f : Fail)
  | wait (w : WaitOn)
deriving DecidableEq, Repr

/-- A page fault at an address (R283). -/
def pageFault (va : Nat) (k : Acc) (detail : Nat) : Fail :=
  { cause := 0x0C, tval := BitVec.ofNat 64 va, detail := detail, access := k.code }
/-- A failed check with a cause and TVAL. -/
def failAt (cause : Nat) (tval : Nat) : Fail := { cause := cause, tval := BitVec.ofNat 64 tval }

namespace Device

/-- Translation and permission of a global address (R262 step 3, R274, R275, R281). -/
def globalAt (d : Device) (core : Nat) (ctx : BitVec 12) (k : Acc) (va : Nat) : Device × AccR :=
  let t := d.translate core ctx va
  let off (l : Leaf) : Nat := va % 2 ^ l.log
  (t.1, match t.2 with
    | .fault n => .fail (pageFault va k n)
    | .pending l =>
      if k = .fetch || k = .atomic || (k.needR && !l.r) || (k.needW && !l.w) then .fail (failAt 0x0D va)
      else .wait (.ats ctx va)
    | .page l =>
      if (k == .fetch && !l.x) || (k.needR && !l.r) || (k.needW && !l.w) then .fail (failAt 0x0D va)
      else .ok (.mem (t.1.stor (t.1.leafPa l (off l))))
    | .host l b r w =>
      if k = .fetch || k = .atomic || (k.needR && !l.r) || (k.needW && !l.w) then .fail (failAt 0x0D va)
      else if (k.needR && !r) || (k.needW && !w) then .fail (pageFault va k 4)
      else .ok (.host (b.toNat + off l)))

end Device

/-! ### Windows (R241, R246, R247) -/

/-- What an address names before translation. -/
inductive Region where
  | global
  | frames (off : Nat)
  | scratch (off : Nat)
  /-- a byte of a vault: core × 2^20 + offset -/
  | vault (v : Nat)
  | nowhere
deriving DecidableEq, Repr

/-- The base of the local pool window. -/
def poolWindow : Nat := 0xFFFFF00000000000
/-- The base of the own vault window. -/
def ownWindow : Nat := 0xFFFFF10000000000
/-- The base of the package vault window. -/
def packageWindow : Nat := 0xFFFFF40000000000

namespace Device

/-- Whether the launch of a residence has a core in its core set. -/
def inCoreSet (d : Device) (r : Residence) (n : Nat) : Bool :=
  match d.launch? r.seq with
  | some l => l.cores.contains n
  | none => false
/-- The region of an address as a residence on a core sees it (R241, R246, R247). -/
def region (d : Device) (core : Nat) (r : Residence) (va : Nat) : Region :=
  if va < 2 ^ 56 then .global
  else if poolWindow ≤ va && va < poolWindow + Config.poolBytes then
    let o := va - poolWindow
    if o < r.fb then .frames o else if o < r.sb then .scratch o else .nowhere
  else if ownWindow ≤ va && va < ownWindow + Config.vaultBytes then .vault (core * 2 ^ 20 + (va - ownWindow))
  else if packageWindow ≤ va && va < packageWindow + 2048 * Config.vaultBytes then
    let o := va - packageWindow
    if d.inCoreSet r (o / 2 ^ 20) then .vault o else .nowhere
  else .nowhere

end Device

/-- The regions that a word admits (R262). -/
structure Admits where
  scratch : Bool := true
  frames : Bool := false
  vault : Bool := true
  global : Bool := true
deriving DecidableEq, Repr

namespace Device

/-- Steps 2 and 3 of R262 for an access of a residence on a core. -/
def checkAt (d : Device) (core : Nat) (r : Residence) (ad : Admits) (k : Acc) (va : Nat) : Device × AccR :=
  let no : Device × AccR := (d, .fail (failAt 0x0D va))
  match d.region core r va with
  | .global => if ad.global then d.globalAt core r.ctx k va else no
  | .frames o => if ad.frames then (d, .ok (.pool o)) else no
  | .scratch o => if ad.scratch then (d, .ok (.pool o)) else no
  | .vault v => if ad.vault then (d, .ok (.mem (.vault v))) else no
  | .nowhere => no

/-- `n` bytes read at a place by the scalar side of a hart of a core, in one line, and whether they are poisoned (R252,
R253, R263, R281). A frame reads as last saved (R242). -/
def readAt (d : Device) (core rk : Nat) (p : Place) (n : Nat) (na : Bool := false) : Device × Nat × Bool :=
  match p with
  | .mem st => d.cachedRead core st n na
  | .host a => (d, d.host.read a n, false)
  | .pool o =>
    match d.res? rk with
    | some r => if o < r.fb then (d, r.frames.read o n, false) else (d, r.read o n)
    | none => (d, 0, false)
/-- `n` bytes written at a place by the scalar side of a hart of a core, in one line. -/
def writeAt (d : Device) (core rk : Nat) (p : Place) (n v : Nat) (na : Bool := false) : Device :=
  match p with
  | .mem st => d.cachedWrite core st n v na
  | .host a => { d with host := d.host.write a n v }
  | .pool o => d.modRes rk fun r => r.write o n v

end Device

end Sys2Proof.Machine
end

