-- ==== Sys2Proof/Machine/RowPort.lean ====
section
/-! DEFINITION. The queues of a bank and the shuffle-bus slots of a core: when a row command or a sweep segment may start, and
what the work of a convoy does that a later word of the same convoy depends on (R60, R62, R119, R120, R138, R139, R189, R210 to
R214). -/

namespace Sys2Proof.Machine

/-- An entry that a later one of its gang must not overtake, for a latch that both touch (R62). -/
def VecSeg.bars (p q : VecSeg) : Bool :=
  (p.cv < q.cv || (p.cv == q.cv && p.pos < q.pos))
    && (p.wr.any (fun n => q.rd.contains n || q.wr.contains n) || p.rd.any q.wr.contains)
/-- A slot is free at a time. -/
def BusSlot.isFree (x : BusSlot) (t : Nat) : Bool := x.owner.isNone && x.free ≤ t
/-- A request goes before another: the older one, and on equal age that of the matrix unit (R212). -/
def BusReq.before (p q : BusReq) : Bool := p.age < q.age || (p.age == q.age && p.matrix && !q.matrix)
/-- A slot that a request holds, held until a time, and then free if the request is over. -/
def BusSlot.until_ (id t : Nat) (over_ : Bool) (x : BusSlot) : BusSlot :=
  if x.owner = some id then { x with free := max x.free t, owner := if over_ then none else x.owner } else x
/-- A bank from which an entry has started. -/
def Bank.started (k : Bank) (now e : Nat) (s : VecSeg) : Bank :=
  Bank.arrive now { k with
    segs := k.segs.erase s
    running := (k.running.filter fun r => now < r.2) ++ [(s.cv, e)]
    lane := if s.store then k.lane else e, laneAt := if s.store then k.laneAt else now
    out := if s.store then e else k.out }

namespace Device

/-- Every group of a bank closed physically and architecturally (R145). -/
def closeBank (d : Device) (c b : Nat) : Device :=
  (List.finRange 4).foldl (fun d g =>
    (d.ownClose c b g).modGroup c b g fun x => { x with gs := .free })
    (d.modBank c b fun x => { x with rowQ := [] })

/-! ### When a row command may start (R119, R120, R138, R139) -/

/-- A command goes first at the die window: it is of a class-0 context, or of a class-0 switch (R120). -/
def class0 (d : Device) (c : Nat) (cmd : RowCmd) : Bool :=
  match cmd.op with
  | .spill _ | .restore _ _ _ => (d.core c).switch.any SwitchReq.class0
  | _ => (d.core c).issuing.any (d.slotClass0 c)
/-- A waiting class-0 column access holds back a command of the hart to a group, unless the command is exempt (R138,
R139). -/
def classHold (d : Device) (c b : Nat) (cmd : RowCmd) : Bool :=
  let k := d.bank c b
  let exempt := match cmd.op with
    | .wbp _ held => held && k.groups[cmd.g.val].phy
    | _ => false
  cmd.op.held && !exempt && k.cols.any fun a => a.cls == 0 && keyGroup a.pa == cmd.g
/-- A segment that touches a latch waits on some bank of the core (R62). -/
def segBusy (d : Device) (c b : Nat) (g : Lat) : Bool :=
  let n := latchNo b g
  (List.range 16).any fun h => (d.bank c h).segs.any fun s => s.rd.contains n || s.wr.contains n
/-- A reduction that a hart has sent before waits at the port for a row (R303). -/
def redWaits (d : Device) (c b : Nat) (g : Lat) (op : RowOp) : Bool :=
  match op with
  | .act row _ | .wb row _ | .wbp row _ =>
    let key := rowKey c b g.val row
    d.portQ.any fun q => resCore q.res == c && q.bank == b && q.parts.any fun p => match d.stor p.1 with
      | .dram a => key ≤ a && a < key + 8192
      | _ => false
  | _ => false
/-- A command has reached the bank and has no earlier one before it on its group, and nothing else holds it (R60, R119, R142,
R143). -/
def rowFree (d : Device) (c b : Nat) (earlier : List RowCmd) (cmd : RowCmd) : Bool :=
  cmd.t0.isSome && !(earlier.any fun e => e.g == cmd.g)
  && !(cmd.op.latch && d.segBusy c b cmd.g) && !d.classHold c b cmd && !d.redWaits c b cmd.g cmd.op
  && (cmd.op == .close || !d.refFirst c b cmd.g)
/-- The commands of a bank that may start, in order, with the times they may start at. -/
def rowStarts (d : Device) (c b : Nat) : List (Nat × RowCmd × Nat) :=
  let k := d.bank c b
  (k.rowQ.zipIdx.filter fun p => d.rowFree c b (k.rowQ.take p.2) p.1).map fun p =>
    let t := k.rowReady p.1.g p.1.op (p.1.t0.getD d.now)
    (p.2, p.1, if p.1.op.slot then d.dieSlot c b (max d.now t) else t)
/-- The turn of a core in the rotating order of its die: those after the core granted last. Where none has been granted, core 0 of the
stand comes first; R120 does not say which: DESIGN CHOICE (log 20). -/
def dieOrder (d : Device) (c b : Nat) : Nat := (c + 127 - lookupD 127 (dieKey c b) d.dieLast % 128) % 128
/-- A command may take a slot of its die now: fewer commands that go first wait for one than there are slots (R120). -/
def dieTurn (d : Device) (c b : Nat) (cmd : RowCmd) : Bool :=
  let rank (e : Nat) (r : RowCmd) : Nat × Nat × Nat := (if d.class0 e r then 0 else 1, r.t0.getD d.now, d.dieOrder e b)
  let before (p q : Nat × Nat × Nat) : Bool :=
    p.1 < q.1 || (p.1 == q.1 && (p.2.1 < q.2.1 || (p.2.1 == q.2.1 && p.2.2 < q.2.2)))
  let first (p : Nat × Bank) : Bool :=
    let e := p.1 / 16
    e / 128 == c / 128 && p.1 % 16 == b && e != c && (d.rowStarts e b).any fun q =>
      q.2.1.op.slot && q.2.2 ≤ d.now && before (rank e q.2.1) (rank c cmd)
  !cmd.op.slot || (d.banks.filter first).length < 64 - d.dieStarts c b d.now
/-- The row command of a bank that starts next, when one may start now: the oldest (R119, R120). -/
def rowNext (d : Device) (c b : Nat) : Option (Nat × RowCmd × Nat) :=
  let older (p q : Nat × RowCmd × Nat) : Bool := p.2.1.t0.getD d.now < q.2.1.t0.getD d.now
  (((d.rowStarts c b).filter fun p => p.2.2 ≤ d.now && d.dieTurn c b p.2.1).foldl (fun o p => match o with
    | none => some p
    | some q => if older p q then some p else some q) none).map fun p => (p.1, p.2.1, d.now)

/-! ### Sweep segments (R60, R62, R189, R213, R214) -/

/-- The entries at the heads of the vector-arithmetic queue and of the vector-store queue of a bank (R60). -/
def segHeads (k : Bank) : List VecSeg :=
  (k.segs.find? fun s => !s.store).toList
    ++ ((k.segs.find? VecSeg.store).filter fun s => !(k.rowQ.any fun r => r.op.queue == 1 && r.n < s.n)).toList
/-- An earlier entry of its gang has yet to start that it must not overtake, on whatever bank (R62, R213). -/
def segBarred (d : Device) (c : Nat) (s : VecSeg) : Bool := (List.range 16).any fun b => (d.bank c b).segs.any fun p => p.bars s
/-- The time at which the latches of an entry and the unit that it runs in allow it (R119, R189). -/
def segReady (d : Device) (c b : Nat) (s : VecSeg) : Nat :=
  let k := d.bank c b
  let at_ (n : Nat) : Group := d.group c (latchOf n).1 (latchOf n).2
  let own (l : List Nat) : List Nat := l.filter fun n => !s.along.contains n
  (own s.wr).foldl (fun t n => max t (at_ n).lw) ((own s.rd).foldl (fun t n => max t (at_ n).lr)
    (max d.now (if s.store then k.out else if s.chain then k.laneAt else k.lane)))
/-- Nothing but bus slots keeps an entry at the head of its queue from starting now. -/
def segOpen (d : Device) (c b : Nat) (s : VecSeg) : Bool :=
  (segHeads (d.bank c b)).contains s && !d.segBarred c s && d.segReady c b s ≤ d.now
/-- The entries of a core that wait with a request for bus slots, by bank. -/
def segsOf (d : Device) (c id : Nat) : List (Nat × VecSeg) :=
  (List.range 16).flatMap fun b => ((d.bank c b).segs.filter fun s => s.reqs.contains id).map fun s => (b, s)

/-! ### The shuffle bus (R210 to R212) -/

/-- A request put to the bus, with its number. -/
def busAsk (d : Device) (c : Nat) (time need : Nat) (all : Bool) (held : Bool := false) (matrix : Bool := false) : Device × Nat :=
  let n := (d.core c).nextReq
  (d.modCore c fun x =>
    { x with nextReq := n + 1
             busQ := x.busQ ++ [{ id := n, age := d.now, time := time, need := need, all := all, held := held
                                  matrix := matrix }] }, n)
/-- When a request had all its slots. -/
def busAt (d : Device) (c id : Nat) : Option Nat := lookupK id (d.core c).busDone
/-- The slots of a core that are free now. -/
def busFree (d : Device) (c : Nat) : List (Fin 4) := (List.finRange 4).filter fun i => (d.core c).bus[i.val].isFree d.now
/-- The slots that the matrix unit holds now. -/
def busMatrix (d : Device) (c : Nat) : List (Fin 4) :=
  (List.finRange 4).filter fun i => d.now < (d.core c).bus[i.val].free && (d.core c).bus[i.val].matrix
/-- A request waits for slots alone: the entries that it is for are at the heads of their queues and may start, on every bank of its
word (R214; for a lane word the model's choice, log 53). -/
def busOpen (d : Device) (c : Nat) (q : BusReq) : Bool := q.matrix || (d.segsOf c q.id).all fun p => d.segOpen c p.1 p.2
/-- The request that a free slot goes to: the oldest, but for a broadcast while the matrix unit holds two slots or a switch is
asked for (R212). Of requests of equal age of which none is the matrix unit's R212 names no first: the model takes the one asked for
first, DESIGN CHOICE (log 61). -/
def busFirst (d : Device) (c : Nat) : Option BusReq :=
  let l := (d.core c).busQ.filter fun q =>
    !(q.matrix && (2 ≤ (d.busMatrix c).length || (d.core c).switch.isSome)) && d.busOpen c q
  l.foldl (fun o q => match o with
    | none => some q
    | some p => if BusReq.before q p then some q else some p) none
/-- The slots that a request takes now: every slot that the matrix unit does not hold, together, or one (R211, R212). -/
def busTake (d : Device) (c : Nat) (q : BusReq) : List (Fin 4) :=
  let free := d.busFree c
  if q.all then if free.length + (d.busMatrix c).length = 4 then free else [] else free.take 1
/-- The slots given to the request whose turn it is, when it can take them: for the time of a stream, or until the segments of its word
have ended (R211, R212). -/
def busGrant (d : Device) (c : Nat) : Device :=
  match d.busFirst c with
  | none => d
  | some q =>
    let take := d.busTake c q
    if take.isEmpty then d
    else
      let done := q.all || q.need ≤ 1
      let slot : BusSlot :=
        if q.held then { free := d.now, owner := some q.id } else { free := d.now + q.time, matrix := q.matrix }
      d.modCore c fun x =>
        { x with
          bus := take.foldl (fun v i => v.set i.val slot) x.bus
          busQ := if done then x.busQ.filter fun r => r.id != q.id
                  else x.busQ.map fun r => if r.id = q.id then { r with need := r.need - 1 } else r
          busDone := if done then insertK q.id d.now x.busDone else x.busDone }
/-- A slot can be given now. -/
def busCan (d : Device) (c : Nat) : Bool :=
  match d.busFirst c with
  | none => false
  | some q => !(d.busTake c q).isEmpty
/-- A request that asks for more slots. -/
def busMore (d : Device) (c id need : Nat) : Device :=
  d.modCore c fun x => { x with busQ := x.busQ.map fun q => if q.id = id then { q with need := need } else q }
/-- A request withdrawn, and the slots that it holds given back. -/
def busDrop (d : Device) (c id : Nat) : Device :=
  d.modCore c fun x => { x with busQ := x.busQ.filter fun r => r.id != id, busDone := eraseK id x.busDone
                                bus := x.bus.map (BusSlot.until_ id d.now true) }

/-! ### The start of a segment (R189, R211, R214) -/

/-- An entry has the bus slots that it asked for. -/
def segGranted (d : Device) (c : Nat) (s : VecSeg) : Bool := s.reqs.all fun id => (d.busAt c id).isSome
/-- The entry of a bank that may start now. -/
def segNext (d : Device) (c b : Nat) : Option VecSeg := (d.bank c b).segs.find? fun s => d.segGranted c s && d.segOpen c b s
/-- An entry of a bank may start now. -/
def segCan (d : Device) (c b : Nat) : Bool := (d.segNext c b).isSome
/-- When an entry that starts now ends: a bus word 4 ck after its last stream (R214), a sweep after its time, and no earlier than the
word that it follows group by group (R189). -/
def segEnd (d : Device) (c b : Nat) (s : VecSeg) : Nat :=
  if s.stream then s.reqs.foldl (fun e id => max e ((d.busAt c id).getD d.now + 20)) d.now
  else if s.chain then max (d.bank c b).lane (d.now + s.time) else d.now + s.time
/-- The latches of an entry that has started: they are ready for the other use when it ends (R119, R189, R214). -/
def segLatches (d : Device) (c e : Nat) (s : VecSeg) : Device :=
  let d := s.rd.foldl (fun d n => d.modGroup c (latchOf n).1 (latchOf n).2 fun x => { x with lw := max x.lw e }) d
  s.wr.foldl (fun d n => d.modGroup c (latchOf n).1 (latchOf n).2 fun x =>
    { x with lr := max x.lr e, lw := max x.lw e }) d
/-- The requests of an entry that has started: a lane word holds its slots until its last segment has ended (R211). -/
def segReqs (d : Device) (c e : Nat) (s : VecSeg) : Device :=
  s.reqs.foldl (fun d id =>
    let over_ := (d.segsOf c id).isEmpty
    d.modCore c fun x => { x with bus := x.bus.map (BusSlot.until_ id e over_)
                                  busDone := if over_ then eraseK id x.busDone else x.busDone }) d
/-- The entry of a bank that may start now starts; a bus word does on every bank at once (R214). -/
def startSeg (d : Device) (c b : Nat) : Device :=
  match d.segNext c b with
  | none => d
  | some s =>
    let l := if s.stream then s.reqs.flatMap (d.segsOf c) else [(b, s)]
    let e := d.segEnd c b s
    let d := l.foldl (fun d p => d.modBank c p.1 fun k => k.started d.now e p.2) d
    let d := l.foldl (fun d p => d.segLatches c e p.2) d
    d.segReqs c e s

/-! ### Work of a convoy that a later word of the convoy depends on (R32, R62) -/

/-- An inserted REF that goes before a waiting command of a bank, and when (R142, R143). -/
def rowRef (d : Device) (c b : Nat) : Option (Lat × Nat) :=
  ((d.bank c b).rowQ.find? fun r => r.op != .close && d.refFirst c b r.g).map fun r => (r.g, d.insertTime c b r.g)
/-- The move of an inserted REF. -/
def rowRefMove (d : Device) (c b : Nat) (g : Lat) : Device := if d.forcedDue c b g then d.forceRef c b g else d.insertRef c b g
/-- What the queues of a bank do now: an inserted REF or the next row command. -/
def bankStep (d : Device) (c b : Nat) : Option Device :=
  match (d.rowRef c b).filter fun p => p.2 ≤ d.now with
  | some p => some (d.rowRefMove c b p.1)
  | none => (d.rowNext c b).map (d.startAt c b)
/-- What the bus and the queues of the banks of a core do now, if anything. -/
def coreStep (d : Device) (c : Nat) : Option Device :=
  if d.busCan c then some (d.busGrant c)
  else match (List.range 16).find? (d.segCan c) with
    | some b => some (d.startSeg c b)
    | none => (List.range 16).findSome? (d.bankStep c)
/-- The next time at which they may do something. -/
def coreWhen (d : Device) (c : Nat) : Option Nat :=
  let slots := (d.core c).bus.toList.map BusSlot.free
  let bank (b : Nat) : List Nat :=
    (segHeads (d.bank c b)).map (d.segReady c b) ++ (d.rowRef c b).toList.map Prod.snd
      ++ (d.rowStarts c b).map fun p => max (d.now + 1) p.2.2
  ((slots ++ (List.range 16).flatMap bank).filter fun t => d.now < t).min?
/-- The queues of the banks of a core run until those of one bank are empty, as time passes (R32, R62); a class-0 hold stops them. -/
def settleBank (d : Device) (c b : Nat) : Nat → Device
  | 0 => d
  | k + 1 =>
    if (d.bank c b).segs.isEmpty && (d.bank c b).rowQ.isEmpty then d
    else match d.coreStep c with
      | some e => settleBank e c b k
      | none => match d.coreWhen c with
        | some t => settleBank (d.advanceTo t) c b k
        | none => d
/-- Moves enough to empty the queues of a core. -/
def settleMoves (d : Device) (c : Nat) : Nat :=
  (List.range 16).foldl (fun n b => n + 8 * ((d.bank c b).segs.length + (d.bank c b).rowQ.length))
    (8 * (d.core c).busQ.length + 64)

end Device

end Sys2Proof.Machine
end

