-- ==== Sys2Proof/Machine/MatrixCore.lean ====
section
/-! DEFINITION. The matrix unit: operand geometry, the steps of a TMMA, and the effect of each entry of the matrix queue
(R172 to R175, R218 to R222, R227 to R231, R234 to R237). -/

namespace Sys2Proof.Machine

/-! ### Formats (R218) -/

/-- The lane format of a B format. -/
def bVfmt : BFmt → VFmt
  | .i8 => .i8 | .n8 => .n8 | .bf16 => .bf16 | .e4m3 => .e4m3 | .e5m2 => .e5m2 | .e2m1 => .e2m1 | .lq8s => .lq8s
  | .lq8w => .lq8w
/-- The lane format of an A format. -/
def aVfmt : AFmt → VFmt
  | .i8 => .i8 | .n8 => .n8 | .bf16 => .bf16 | .e4m3 => .e4m3 | .e5m2 => .e5m2 | .e2m1 => .e2m1
/-- The lane format of an accumulator format (R237). -/
def accVfmt : AccFmt → VFmt
  | .i8 => .i8 | .n8 => .n8 | .i16 => .i16 | .n16 => .n16 | .i32 => .i32 | .n32 => .n32 | .f32 => .f32 | .bf16 => .bf16
  | .f16 => .f16 | .e4m3 => .e4m3 | .e5m2 => .e5m2
/-- Kh: values along K in a weight half. -/
def VFmt.kh : VFmt → Nat
  | .bf16 => 64 | .e2m1 | .lq8w => 256 | .lq8s => 512 | _ => 128
/-- Kd: values along K that one A row consumes. -/
def aKd : AFmt → Nat
  | .bf16 => 64 | .e2m1 => 256 | _ => 128
/-- The pairings of R218. -/
def pairs (b : VFmt) (a : AFmt) : Bool :=
  match b with
  | .bf16 => a == .bf16
  | .e4m3 | .e5m2 | .lq8w | .lq8s => a == .e4m3 || a == .e5m2
  | .e2m1 => a == .e2m1
  | .i8 | .n8 => a == .i8 || a == .n8
  | _ => false
/-- Accumulator rows that one latch holds (R237). -/
def accNr (f : AccFmt) : Nat := 16 / ((accVfmt f).bits / 8)

/-! ### Accumulators (R223, R225) -/

namespace AccSlot

/-- Accumulator (m, n) at its index m × 512 + n. -/
def get (s : AccSlot) (i : Nat) : Acc80 := lookupD 0 i s.cells
/-- An accumulator written. -/
def put (s : AccSlot) (i : Nat) (v : Acc80) : AccSlot :=
  { s with cells := if v = 0 then eraseK i s.cells else insertK i v s.cells }

end AccSlot

/-- Bytes of an image. -/
def imageBytes : Nat := 327744
/-- The image of a slot. -/
def AccSlot.image (s : AccSlot) : Memory :=
  (s.cells.flatMap fun p => cellsOf (10 * p.1) 10 p.2.toNat) ++ cellsOf 327680 2 (s.int.toNat + s.satf.toNat * 2 ^ 8)

/-! ### What an operation touches (R227) -/

/-- The half record of the gang. -/
def Gang.half (g : Gang) (half : Bool) : HalfRec := g.halves[half.toNat]'(by cases half <;> decide)
/-- K positions that a TMMA takes: TM.KE, or all for 0 (R221). -/
def keOf (f : AFmt) (ke : Nat) : Nat := if ke = 0 then aKd f else ke

/-- The number of a gang latch among the latches of the core. -/
def gangLatch (base : Nat) (l : GLat) : Nat := latchNo (base + l.bank.val) l.g
/-- The latches of the tile and the scale latch that a half record names (R222, R234). -/
def HalfRec.lats (r : HalfRec) (base : Nat) : List Nat :=
  (List.range 8).map (fun j => (base + r.rank + j) * 4 + r.g) ++ if r.bsc then [(base + r.srank) * 4 + r.sg] else []

namespace MxEntry

/-- The slot it reads or writes. -/
def slot? (e : MxEntry) : Option (Fin 6) :=
  match e.op with
  | .tload .. => none
  | .tmma _ _ _ _ _ s .. | .accz _ s _ _ | .accrd s _ | .accwr _ s _ | .move s _ => some s
  | .accclm _ s _ _ _ | .accrel s | .tstat _ s _ _ _ => s
/-- The free slot that a queued ACCCLM is to bind, with its logical index (R238). -/
def claims (e : MxEntry) : Option (Fin 6 × Fin 6) :=
  match e.op with
  | .accclm (some b) _ _ _ _ => some (b.1, b.2.1)
  | _ => none
/-- It binds or frees a slot (R238). -/
def binds (e : MxEntry) : Bool :=
  match e.op with
  | .accclm (some _) _ _ _ _ | .accrel (some _) => true
  | _ => false
/-- An ACCLD of a slot. -/
def loads (e : MxEntry) (k : Fin 6) : Bool :=
  match e.op with
  | .move s x => x.load && s == k
  | _ => false
/-- A TSTAT, which waits for every earlier operation of its gang (R240). -/
def isStat (e : MxEntry) : Bool :=
  match e.op with
  | .tstat .. => true
  | _ => false
/-- The register that it writes on some harts (R68). -/
def dest (e : MxEntry) (b : Nat) : Option Reg :=
  match e.op with
  | .tstat _ _ d l _ => if l.contains b then some (.x d) else none
  | .accclm _ _ d _ l => if l.contains b then some (.p d) else none
  | _ => none
/-- The half it reads or writes, and whether it writes it. -/
def half? (e : MxEntry) : Option (Bool × Bool) :=
  match e.op with
  | .tload h .. => some (h, true)
  | .tmma _ h .. => some (h, false)
  | _ => none
/-- The latches that a TMMA reads by its broadcasts (R228). -/
def aReads (e : MxEntry) : List Nat :=
  match e.op with
  | .tmma _ _ _ _ _ _ a s _ _ _ _ => gangLatch e.base a :: s.toList.map (gangLatch e.base)
  | _ => []
/-- A TMMA whose broadcast is yet to begin. -/
def toBegin (e : MxEntry) : Bool :=
  match e.op with
  | .tmma .. => e.beganAt.isNone
  | _ => false
/-- The latches it reads. -/
def reads (e : MxEntry) : List Nat :=
  match e.op with
  | .tload _ t s =>
    ((List.range 8).map fun j => latchNo (e.base + t.bank.val + j) t.g) ++ (s.toList.map (gangLatch e.base))
  | .tmma _ _ _ _ _ _ a s r _ _ _ => gangLatch e.base a :: s.toList.map (gangLatch e.base) ++ r.lats e.base
  | .accwr _ _ ps => ps.map fun p => gangLatch e.base p.1
  | _ => []
/-- The latches it writes. -/
def writes (e : MxEntry) : List Nat :=
  match e.op with
  | .accrd _ ps => ps.map fun p => gangLatch e.base p.1
  | _ => []
/-- A later operation waits for an earlier one of its context (R227). -/
def after (e o : MxEntry) : Bool :=
  e.res == o.res &&
  ((e.isStat && e.base == o.base) || (e.slot?.isSome && e.slot? == o.slot?)
  || (match e.half?, o.half? with
      | some p, some q => p.1 == q.1 && (p.2 || q.2)
      | _, _ => false)
  || e.writes.any (fun n => o.reads.contains n || o.writes.contains n) || e.reads.any o.writes.contains)

end MxEntry

namespace Device

/-! ### Operands of a TMMA (R219, R220) -/

/-- A latch of a core by its number. -/
def latchAt (d : Device) (c n : Nat) : LatchRec := d.latch c (n / 4) ⟨n % 4, Nat.mod_lt _ (by decide)⟩
/-- A byte of a latch. -/
def latchByte (l : LatchRec) (k : Nat) : Nat := getBytes l.data.toNat k 1
/-- BElem (R219). -/
def bElem (d : Device) (c base : Nat) (r : HalfRec) (k n : Nat) : Num :=
  let f := VFmt.ofCode r.bf
  let j := n / 64
  let e := n % 64 * f.kh + k
  let scale := if r.bsc then
      some (latchByte (d.latchAt c ((base + r.srank) * 4 + r.sg)) (j * 1024 + e / 32))
    else none
  f.num (d.latchAt c ((base + r.rank + j) * 4 + r.g)).data.toNat e scale
/-- AElem (R220). -/
def aElem (d : Device) (c base : Nat) (af : AFmt) (a : GLat) (scale : Option GLat) (aseg m k : Nat) : Num :=
  let e := m * aKd af + k
  (aVfmt af).num (d.latchAt c (gangLatch base a)).data.toNat e
    (scale.map fun s => latchByte (d.latchAt c (gangLatch base s)) (aseg * 1024 + e / 32))
/-- One bits of a number of `n` bits. -/
def onesOf (n v : Nat) : Nat := ((List.range n).filter fun k => nbit v k).length
/-- WD of the half that a record names (R231). -/
def halfOnes (d : Device) (c base : Nat) (r : HalfRec) : Nat :=
  ((List.range 8).foldl (fun acc j => acc + onesOf 65536 (d.latchAt c ((base + r.rank + j) * 4 + r.g)).data.toNat) 0) / 512
/-- The units of the rows of a TMMA from one row to another (R231). -/
def rowUnits (d : Device) (c base : Nat) (a : GLat) (wd lo hi : Nat) : Nat :=
  let v := (d.latchAt c (gangLatch base a)).data.toNat
  let row (m : Nat) : Nat := v / 2 ^ (1024 * m) % 2 ^ 1024
  (List.range (hi - lo)).foldl (fun acc k =>
    let m := lo + k
    let before := if m = 0 then 0 else row (m - 1)
    acc + 8 + (onesOf 1024 (row m ^^^ before) + wd) / 64) 0

/-! ### Units (R231, R417) -/

/-- Units charged to the budget counter of a residence's launch (R231). -/
def spend (d : Device) (rk n : Nat) : Device :=
  match d.res? rk with
  | some r => d.modLaunch r.seq fun l => { l with budget := (l.budget + n) % 2 ^ 64 }
  | none => d

/-! ### The effect of an operation -/

/-- A physical slot changed. -/
def modSlot (d : Device) (c : Nat) (s : Fin 6) (f : AccSlot → AccSlot) : Device :=
  d.modCore c fun x => { x with acc := x.acc.set s.val (f x.acc[s.val]) }
/-- The physical slot bound to a logical one of a residence. -/
def slotOf (d : Device) (c rk : Nat) (i : Sys2Proof.Acc) : Option (Fin 6) :=
  (List.finRange 6).find? fun k => (d.core c).acc[k.val].bound == some (rk, i)
/-- The matrix entries of the contexts resident on a core: those in its queue, and those of contexts that are switched out. -/
def mxAll (d : Device) (c : Nat) : List MxEntry := (d.core c).mx ++ (d.resOfCore c).flatMap fun p => p.2.mx
/-- The free physical slots of a core: neither bound nor about to be by an ACCCLM in the queue (R224, R227). -/
def freeSlots (d : Device) (c : Nat) : List (Fin 6) :=
  let taken := (d.mxAll c).filterMap fun e => e.claims.map Prod.fst
  (List.finRange 6).filter fun k => (d.core c).acc[k.val].bound.isNone && !taken.contains k
/-- A free physical slot; which of them is a free value. -/
def freeSlot (d : Device) (c : Nat) : Option (Fin 6) :=
  let l := d.freeSlots c
  l[Config.pickSlot d.now % l.length]?
/-- A slot bound, zeroed, with SATF clear. -/
def bindSlot (d : Device) (c rk : Nat) (k : Fin 6) (i : Sys2Proof.Acc) (int : Bool) : Device :=
  d.modSlot c k fun _ => { bound := some (rk, i), int := int }
/-- A slot freed. -/
def freeUp (d : Device) (c : Nat) (k : Fin 6) : Device := d.modSlot c k fun _ => {}

/-- One step of one accumulator (R174, R175, R235). -/
def mxStep (int : Bool) (start : Acc80) (ps : List (Num × Num)) : Acc80 × Bool :=
  if int then
    let r := satAcc (sintOf 80 start.toNat
      + ps.foldl (fun acc p => acc + p.1.units 0 * p.2.units 0) (0 : Int))
    (BitVec.ofNat 80 r.1, r.2)
  else (BitVec.ofNat 80 (macStep start.toNat ps), false)
/-- One row of a TMMA into a slot: positions at or beyond KE contribute +0 products (R221, R235). -/
def mxRow (d : Device) (c base : Nat) (af : AFmt) (kq : Nat) (z : Bool) (aseg : Nat) (a : GLat) (scale : Option GLat)
    (r : HalfRec) (ke n m : Nat) (slot : AccSlot) : AccSlot :=
  let k0 := if (VFmt.ofCode r.bf).isLq then 128 * kq else 0
  (List.range n).foldl (fun slot col =>
    let step (acc : Acc80 × Bool) (s : Nat) : Acc80 × Bool :=
      let ps := ((List.range 64).map (64 * s + ·)).filterMap fun k =>
        if k < ke then some (d.aElem c base af a scale aseg m k, d.bElem c base r (k0 + k) col) else none
      let x := mxStep slot.int (if z && s == 0 then 0 else acc.1) ps
      (x.1, acc.2 || x.2)
    let v := (List.range (aKd af / 64)).foldl step (slot.get (m * 512 + col), false)
    let slot := slot.put (m * 512 + col) v.1
    { slot with satf := slot.satf || v.2 }) slot
/-- A weight half filled as a copy of the latches that a record names (R222). -/
def fillHalf (d : Device) (c res base : Nat) (half : Bool) (r : HalfRec) : Device :=
  d.modCore c fun x => { x with halves := x.halves.set (half.toNat) { owner := some (res, base), lats := r.lats base
                                                                      wd := d.halfOnes c base r } (by cases half <;> decide) }
/-- The copy in a half is that of a gang and current (R222). -/
def copyOk (d : Device) (c res base : Nat) (half : Bool) : Bool :=
  ((d.core c).halves[half.toNat]'(by cases half <;> decide)).owner == some (res, base)
/-- The rows of a TMMA from one to another performed, with their charge (R231, R235). -/
def mxRows (d : Device) (c : Nat) (e : MxEntry) (hi : Nat) : Device :=
  match e.op with
  | .tmma af half kq z aseg slot a scale r _ ke n =>
    let d := if d.copyOk c e.res e.base half then d else d.fillHalf c e.res e.base half r
    let wd := ((d.core c).halves[half.toNat]'(by cases half <;> decide)).wd
    let units := d.rowUnits c e.base a wd e.nextRow hi
    let out := (List.range (hi - e.nextRow)).foldl (fun s k =>
      d.mxRow c e.base af kq z aseg a scale r (keOf af ke) n (e.nextRow + k) s) (d.core c).acc[slot.val]
    ((d.modSlot c slot fun _ => out).spend e.res units).charge c units
  | _ => d
/-- A float or integer element placed in an accumulator (R237). -/
def accOf (int : Bool) (f : VFmt) (data e : Nat) : Acc80 :=
  if int then BitVec.ofInt 80 (f.int (data / 2 ^ (f.bits * e)))
  else BitVec.ofNat 80 (roundTo (f.num data e none).ex .acc80 .rne).1
/-- The word of a slot that TSTAT reads (R240). -/
def slotWord (d : Device) (c rk : Nat) (slot : Fin 6) : Nat :=
  let x := (d.core c).acc[slot.val]
  1 + x.int.toNat * 2 + x.satf.toNat * 2 ^ 2
    + ((d.core c).xfers.any fun x => x.res == rk && x.slot == slot.val).toNat * 2 ^ 3 + slot.val * 2 ^ 4
/-- The 16 bits of a half that TSTAT reads (R240). -/
def halfWord (d : Device) (c rk base : Nat) (half : Bool) : Nat :=
  match d.gang? rk base with
  | none => 0
  | some g =>
    let r := g.half half
    if r.valid then
      1 + (d.copyOk c rk base half).toNat * 2 + r.bf * 2 ^ 2 + r.bsc.toNat * 2 ^ 6 + r.rank * 2 ^ 8 + r.g * 2 ^ 12
    else 0
/-- The budget counter of the launch of a residence (R231). -/
def budgetOf (d : Device) (rk : Nat) : Nat :=
  match d.res? rk with
  | some r => match d.launch? r.seq with
    | some l => l.budget
    | none => 0
  | none => 0
/-- What TSTAT reads of a slot (R240). -/
def slotStat (d : Device) (c rk : Nat) (slot : Option (Fin 6)) : Nat :=
  match slot with
  | some k => d.slotWord c rk k
  | none => 0
/-- What TSTAT.half reads (R240). -/
def halfStat (d : Device) (c rk base : Nat) : Nat := d.halfWord c rk base false + d.halfWord c rk base true * 2 ^ 16
/-- What TSTAT writes as it completes: of a slot as it is then, else what was there at its place in the queue (R227, R240). -/
def statOf (d : Device) (c rk : Nat) (sel : TstatSel) (slot : Option (Fin 6)) (v : Nat) : Nat :=
  match sel with
  | .slot _ | .satclr _ => d.slotStat c rk slot
  | .half | .budget => v
/-- The result of a word of the queue received by its harts, and by them as the later convoys found them (R64, R67, R68). -/
def deliver (d : Device) (e : MxEntry) (r : Reg) (v : Word) (banks : List Nat) : Device :=
  banks.foldl (fun d h => (d.modHart e.res h fun t => t.receive r v).modFound e.res e.base e.cv h fun t => t.receive r v) d
/-- The effect of an entry of the matrix queue as it completes (R234 to R240). -/
def mxPerform (d : Device) (c : Nat) (e : MxEntry) : Device :=
  match e.op with
  | .tload half t s =>
    let r : HalfRec := { valid := true, bsc := s.isSome, rank := t.bank.val, g := t.g.val
                         srank := (s.map fun l => l.bank.val).getD 0, sg := (s.map fun l => l.g.val).getD 0 }
    d.fillHalf c e.res e.base half r
  | .tmma _ _ _ _ _ _ _ _ _ m _ _ => d.mxRows c e m
  | .accz edge slot m n =>
    d.modSlot c slot fun s =>
      if edge then { s with cells := s.cells.filter fun p => !(p.1 / 512 < m && p.1 % 512 < n) }
      else { s with cells := [], satf := false }
  | .accrd _ parts =>
    parts.foldl (fun d p =>
      let b := e.base + p.1.bank.val
      (d.copyLost c b p.1.g).modGroup c b p.1.g fun x =>
        { x with latch := { x.latch with valid := true, poison := 0, data := p.2.2 }
                 lr := max x.lr (d.now + 1), lw := max x.lw (d.now + 1) }) d
  | .accwr fmt slot parts =>
    parts.foldl (fun d p =>
      let data := (d.latchAt c (gangLatch e.base p.1)).data.toNat
      d.modSlot c slot fun s => (List.range (accNr fmt * 512)).foldl (fun s k =>
        s.put (p.2 * 512 + k) (accOf s.int (accVfmt fmt) data k)) s) d
  | .accclm bind _ p v banks =>
    let d := match bind with
      | some b => d.bindSlot c e.res b.1 b.2.1 b.2.2
      | none => d
    d.deliver e (.p p) (boolWord v) banks
  | .accrel slot => match slot with
    | some k => d.freeUp c k
    | none => d
  | .move slot x =>
    let x := if x.load then x else { x with image := (d.core c).acc[slot.val].image }
    d.modCore c fun y => { y with xfers := y.xfers ++ [x] }
  | .tstat sel slot r banks v =>
    let v := d.statOf c e.res sel slot v
    let d := match sel, slot with
      | .satclr _, some k => d.modSlot c k fun x => { x with satf := false }
      | _, _ => d
    d.deliver e (.x r) (BitVec.ofNat 64 v) banks

/-! ### The queue (R227 to R229) -/

/-- The time from an operation's start to its completion, that of a TMMA from the start of its compute, and the bus slots that it
takes (R228, R229). -/
def mxTime (e : MxEntry) : Nat × Nat :=
  match e.op with
  | .tload _ _ s => (20, s.toList.length)
  | .tmma _ _ _ _ _ _ _ s _ m _ _ => (8 * (m - e.nextRow) + 12, 1 + s.toList.length)
  | .accz _ _ _ _ | .accrd _ _ | .accwr _ _ _ => (16, 0)
  | .accclm _ _ _ _ _ | .accrel _ | .move _ _ => (1, 0)
  | .tstat _ _ _ _ _ => (2, 0)
/-- Latches of a core may be read and written by an operation now (R62, R119, R227). -/
def mxLatches (d : Device) (c : Nat) (reads writes : List Nat) : Bool :=
  let free (n : Nat) : Bool :=
    !(d.segBusy c (n / 4) ⟨n % 4, Nat.mod_lt _ (by decide)⟩)
      && !((d.bank c (n / 4)).rowQ.any fun r => r.g.val == n % 4 && r.op.latch)
  let x (n : Nat) : Group := (d.bank c (n / 4)).groups[n % 4]'(Nat.mod_lt _ (by decide))
  reads.all (fun n => free n && (x n).lr ≤ d.now) && writes.all fun n => free n && (x n).lw ≤ d.now
/-- The lane units that an operation passes its latches through (R228). -/
def mxLanes (e : MxEntry) : List Nat :=
  match e.op with
  | .tload _ t _ => (List.range 8).map (e.base + t.bank.val + ·)
  | _ => []
/-- The context of a residence goes on: no fault, kill or debugger holds it. -/
def goesOn (d : Device) (rk : Nat) : Bool :=
  match d.res? rk with
  | some r => r.state == .resident
  | none => false
/-- The matrix unit works for a context: it issues, and no switch has been asked for (R230). -/
def mxServes (d : Device) (c rk : Nat) : Bool :=
  (d.core c).issuing.map (resKey c) == some rk && (d.core c).switch.isNone && d.goesOn rk
/-- An operation may start: what it waits for in the queue, the transfers that are writing its slot, or for a TSTAT any slot of its
gang, its latches and its lane units allow it (R227, R228, R240). -/
def mxFree (d : Device) (c k : Nat) (e : MxEntry) : Bool :=
  let x := d.core c
  !e.started && d.mxServes c e.res && (x.mx.take k).all (fun o => !e.after o) && d.mxLatches c e.reads e.writes
    && !(x.xfers.any fun t => t.load && t.res == e.res &&
      (e.slot?.any (fun k => t.slot == k.val) || (e.isStat && t.bank == e.base)))
    && (mxLanes e).all fun b => (d.bank c b).lane ≤ d.now
/-- A TMMA may begin its broadcasts: no earlier operation is to write the latches that they read, and those are ready (R227 to
R229). -/
def mxBegins (d : Device) (c k : Nat) (e : MxEntry) : Bool :=
  d.mxServes c e.res && ((d.core c).mx.take k).all (fun o => !(e.aReads.any o.writes.contains)) && d.mxLatches c e.aReads []
/-- Entry k of the queue may move on now: it has the bus slots that it asked for, or it is free to ask, or to go on without
(R212, R227, R228). -/
def mxCanStart (d : Device) (c k : Nat) : Bool :=
  match (d.core c).mx[k]? with
  | none => false
  | some e => (if e.toBegin then d.mxBegins c k e else d.mxFree c k e) && match e.req with
    | some id => (d.busAt c id).isSome
    | none => true
/-- A weight half filled for a TMMA, when its copy is not current (R222). -/
def refill (d : Device) (c : Nat) (e : MxEntry) : Device :=
  match e.op with
  | .tmma _ half _ _ _ _ _ _ r _ _ _ => if d.copyOk c e.res e.base half then d else d.fillHalf c e.res e.base half r
  | _ => d
/-- The copy that an operation computes with is current. -/
def halfOk (d : Device) (c : Nat) (e : MxEntry) : Bool :=
  match e.half? with
  | some (half, false) => d.copyOk c e.res e.base half
  | _ => true
/-- An earlier operation in the queue has the half of an operation. -/
def halfTaken (d : Device) (c k : Nat) (e : MxEntry) : Bool :=
  ((d.core c).mx.take k).any fun o => match e.half?, o.half? with
    | some p, some q => p.1 == q.1
    | _, _ => false
/-- The cycle from which the compute of an operation that is free to start runs: that of a TMMA from 16 ck after its broadcast began,
and from when its half is ready (R229). -/
def computeAt (d : Device) (c : Nat) (e : MxEntry) : Nat :=
  match e.beganAt with
  | none => d.now
  | some t => max (t + 16) (if d.halfOk c e then max d.now e.halfAt else d.now + 20)
/-- Entry k of the queue moves on: it asks for its bus slots, each for 16 ck; a TMMA that has them begins its broadcast, and refills a
half that is free and not current; else the entry starts (R212, R222, R228, R229). -/
def mxStart (d : Device) (c k : Nat) : Device :=
  match (d.core c).mx[k]? with
  | none => d
  | some e =>
    let t := mxTime e
    if t.2 ≠ 0 && e.req.isNone && e.beganAt.isNone then
      let q := d.busAsk c 16 t.2 false false true
      q.1.modCore c fun x => { x with mx := x.mx.set k { e with req := some q.2 } }
    else
      let d := match e.req with
        | some id => d.busDrop c id
        | none => d
      if e.toBegin then
        let fill := !d.halfOk c e && !d.halfTaken c k e
        let d := if fill then d.refill c e else d
        d.modCore c fun x =>
          { x with mx := x.mx.set k { e with beganAt := some d.now, halfAt := if fill then d.now + 20 else 0, req := none } }
      else
        let from_ := d.computeAt c e
        let d := d.refill c e
        let d := (mxLanes e).foldl (fun d b => d.modBank c b fun x => { x with lane := max x.lane (d.now + 16) }) d
        d.modCore c fun x => { x with mx := x.mx.set k { e with started := true, doneAt := from_ + t.1, req := none } }
/-- The operations of a context performed, in queue order, for a later word of the convoy that put entries into the queue
(R32, R227). -/
def settleMx (d : Device) (c rk : Nat) : Device :=
  let q := (d.core c).mx.filter fun e => e.res == rk
  let d := q.foldl (fun d e => match e.req with
    | some id => d.busDrop c id
    | none => d) d
  q.foldl (fun d e => d.mxPerform c e) (d.modCore c fun x => { x with mx := x.mx.filter fun e => e.res != rk })
/-- A result of the matrix queue that a register of a hart is to receive (R68). -/
def mxDest (d : Device) (rk b : Nat) (r : Reg) : Bool := (d.core (resCore rk)).mx.any fun e => e.res == rk && e.dest b == some r

end Device

end Sys2Proof.Machine
end

