-- ==== Sys2Proof/Machine/Ops.lean ====
section
/-! DEFINITION. The operations that every word shares: registers in flight, the array write of a precharge, barrier objects,
kill, page faults, taking a trap, and the execution of one word of a convoy on the active harts of a gang (R32, R38, R58,
R66 to R70, R131, R283, R330 to R332, R374, R376). -/

namespace Sys2Proof.Machine

/-! ### Time, journalling and the sense amplifiers -/

/-- The journal or fault log is full, or disabled (R410, R411). -/
def Ring.full (r : Ring) : Bool := r.log == 0 || (r.tail + 1) % 2 ^ r.log == r.head % 2 ^ r.log
/-- A ring is empty: its indices are taken modulo its size (R395, R410), so a ring of LOG = 0 is. -/
def Ring.empty (r : Ring) : Bool := r.head % 2 ^ r.log == r.tail % 2 ^ r.log
/-- The address of the entry at an index, for entries of `n` bytes. -/
def Ring.entry (r : Ring) (n k : Nat) : Nat := r.base.toNat + n * (k % 2 ^ r.log)

namespace Device

/-- An entry of 32 bytes written to the journal, its TAIL advanced and its vector raised (R410). -/
def journalWrite (d : Device) (v : Nat) : Device :=
  let r := d.journal
  ({ d.physWrite (r.entry 32 r.tail) 32 v with
      journal := { r with tail := (r.tail + 1) % 2 ^ r.log } }).notify 0
/-- A fault record as its 32 bytes (R284). -/
def faultBytes (f : FaultRec) : Nat :=
  let eng := if f.cmd.isSome then 1 else 0
  f.va.toNat
    + (f.ctx.toNat + f.bank * 2 ^ 12 + f.core * 2 ^ 16 + eng * 2 ^ 27 + f.access * 2 ^ 28 + f.detail * 2 ^ 31) * 2 ^ 64
    + (match f.cmd with
        | some k => k
        | none => f.tpc.toNat) * 2 ^ 128
    + f.seq * 2 ^ 192
/-- One unwritten fault record written to the fault log, or FLFULL set when the ring is full (R410, R411). -/
def faultWrite (d : Device) (f : FaultRec) : Device :=
  if f.written then d
  else
    let r := d.faultLog
    if r.full then d.setFull
    else
      ({ d.physWrite (r.entry 32 r.tail) 32 (faultBytes f) with
          faultLog := { r with tail := (r.tail + 1) % 2 ^ r.log }
          faults := d.faults.map fun (g : FaultRec) => if g.seq = f.seq then { g with written := true } else g }).notify 1
/-- Every unwritten fault record written, oldest first, while the ring has room. -/
def flushFaults (d : Device) : Device := d.faults.foldl faultWrite d

end Device

/-! ### Barrier objects (R330 to R332) -/

/-- A barrier object. -/
structure Bar where
  pend : Int
  arr : Mask16
  phase : Nat
  exp : Nat
  memb : Mask16
  waitm : Mask16
  brk : Bool
  /-- bits [127:121] -/
  hi : Nat
deriving DecidableEq, Repr

namespace Bar

/-- The fields of 16 bytes. -/
def ofNat (v : Nat) : Bar where
  pend := sintOf 40 v
  arr := BitVec.ofNat 16 (v / 2 ^ 40)
  phase := v / 2 ^ 56 % 256
  exp := v / 2 ^ 64 % 2 ^ 24
  memb := BitVec.ofNat 16 (v / 2 ^ 88)
  waitm := BitVec.ofNat 16 (v / 2 ^ 104)
  brk := nbit v 120
  hi := v / 2 ^ 121 % 128
/-- The 16 bytes of the fields. -/
def toNat (b : Bar) : Nat :=
  wrapTo 40 b.pend + b.arr.toNat * 2 ^ 40 + b.phase * 2 ^ 56 + b.exp * 2 ^ 64 + b.memb.toNat * 2 ^ 88
    + b.waitm.toNat * 2 ^ 104 + (if b.brk then 2 ^ 120 else 0) + b.hi * 2 ^ 121
/-- Complete (R331). -/
def complete (b : Bar) : Bar :=
  { b with phase := (b.phase + 1) % 256, pend := b.exp, arr := 0, waitm := 0 }
/-- PEND is in the 40-bit range. -/
def fits (v : Int) : Bool := decide (-(2 ^ 39 : Int) ≤ v) && decide (v < 2 ^ 39)
/-- PEND moved by a signed amount; a nonzero amount that leaves zero completes the phase unless the barrier is broken. -/
def move (b : Bar) (c : Int) : Bar :=
  let b := { b with pend := b.pend + c }
  if c != 0 && b.pend == 0 && !b.brk then b.complete else b

end Bar

/-- The barrier object at an offset. -/
def Residence.bar (r : Residence) (off : Nat) : Bar := Bar.ofNat (r.read off 16).1
/-- A barrier object written. -/
def Residence.setBar (r : Residence) (off : Nat) (b : Bar) : Residence := r.write off 16 b.toNat
/-- The arrival of an engine operation with a count; out of range it breaks the barrier (R328, R331). -/
def Residence.engineArrive (r : Residence) (off count : Nat) : Residence :=
  let b := r.bar off
  if Bar.fits (b.pend - count) then r.setBar off (b.move (-(count : Int))) else r.setBar off { b with brk := true }
/-- What the exit of a hart does to one listed object (R332). -/
def Residence.exitBar (r : Residence) (h : Nat) (off : Nat) : Residence :=
  let b := r.bar off
  if b.memb.getLsbD h then
    let arrived := b.arr.getLsbD h
    let b := { b with memb := b.memb &&& ~~~ bitOf h, exp := (b.exp + 2 ^ 24 - 1) % 2 ^ 24 }
    r.setBar off (if arrived then b else if Bar.fits (b.pend - 1) then b.move (-1) else { b with brk := true })
  else r
/-- What a kill does to one listed object of a hart (R332). -/
def Residence.killBar (r : Residence) (h : Nat) (off : Nat) : Residence :=
  let b := r.bar off
  if b.memb.getLsbD h && !b.arr.getLsbD h then r.setBar off { b with brk := true } else r

namespace Device

/-- The harts that wait at barriers show in WAITM (R341). -/
def showWaits (d : Device) (rk : Nat) (l : List WaitCond) : Device :=
  l.foldl (fun (d : Device) (c : WaitCond) => match c.on with
    | .barrier _ => d.modRes rk fun r =>
      let b := r.bar c.off
      r.setBar c.off { b with waitm := b.waitm ||| bitOf c.bank }
    | _ => d) d

/-- A hart waits on the completion of a command: at its word, at its barrier, or in a fence on what it has forked (R285). -/
def waitsOn (d : Device) (rk bank : Nat) (c : CopyCmd) : Bool :=
  (d.gangsOf rk).any fun p => match p.2.wait with
    | some w => match w.on with
      | .pool l => l.any fun q => q.bank == bank && match q.on with
        | .barrier _ => c.comp == 2 && q.off == c.soff
        | .full _ n => c.comp == 1 && q.off ≤ c.soff && c.soff < q.off + 8 * n
        | .tag _ _ | .word _ _ => c.comp == 1 && q.off == c.soff
      | .forks h => h == bank
      | _ => false
    | none => false
/-- A context is pre-empted while one of its commands is faulted and the hart that issued the command waits on it (R285, R327). -/
def cmdStops (d : Device) (rk : Nat) : Bool :=
  (d.core (resCore rk)).slots.toList.any fun o => match o with
    | some k => k.res == rk && k.state == .faulted && d.waitsOn rk k.bank k.cmd
    | none => false
/-- The state of a context as its faulted commands leave it. -/
def stopForCmd (d : Device) (rk : Nat) : Device :=
  if d.cmdStops rk then d.modRes rk fun r => if r.state = .resident then { r with state := .faultWaiting } else r else d

/-! ### Kill (R332, R376) -/

/-- One residence of a killed launch stopped: its barriers break, its harts stop, its commands are dropped, and the rows its
banks hold are released. -/
def stopRes (d : Device) (rk : Nat) : Device :=
  let c := resCore rk
  let live := banksOf (d.liveHarts rk)
  let d := live.foldl (fun d h => (d.hart rk h).bars.toList.foldl (fun d e =>
    match e with
    | some off => d.modRes rk fun r => r.killBar h off
    | none => d) d) d
  let issuing := (d.core c).issuing == some (resSlot rk)
  let d := if issuing then live.foldl (fun d h => d.closeBank c h) d else d
  let d := d.mapGangs rk fun g => { g with gm := 0, live := 0, ended := true, wait := none, replay := none }
  let d := d.mapHarts rk fun t => { t with swTraps := [], engTraps := [], flight := none, conv := [] }
  (d.modRes rk fun r => { r with saved := [] }).modCore c fun x =>
    { x with mx := x.mx.filter fun e => e.res != rk
             slots := x.slots.map fun o => match o with
               | some k => if k.res = rk then none else some k
               | none => none
             loops := x.loops.filter fun l => l.res != rk }
/-- A launch ended by error: the first kill is the one recorded (R376). -/
def kill (d : Device) (seq : Nat) (k : KillInfo) : Device :=
  match d.launch? seq with
  | none => d
  | some l =>
    if l.killed.isSome then d
    else
      let d := l.places.foldl (fun d p => match p.state with
        | .resident c s => d.stopRes (resKey c s)
        | _ => d) d
      Device.sendAts <| d.modLaunch seq fun l =>
        { l with killed := some k
                 places := l.places.map fun p => match p.state with
                   | .waiting | .saved => { p with state := .ended }
                   | _ => p }
/-- A kill by a hart of a residence. -/
def killBy (d : Device) (rk bank cause : Nat) (tpc tval : Word) : Device :=
  match d.res? rk with
  | some r => d.kill r.seq { cause := cause, tpc := tpc, tval := tval, bank := bank, core := resCore rk }
  | none => d

/-! ### Taking a trap (R58, R70, R283, R374) -/

/-- The trap registers of one active hart as the handler finds them (R371, R374). -/
def trapHart (f : Fail) (tpc : Word) (sym : Bool) (gm : Mask16) (depth : Nat) (t : Hart) : Hart :=
  let t := t.landAll
  { t with
    tcause := BitVec.ofNat 64 (f.cause % 256 + (if sym then 2 ^ 8 else 0) + (if f.sw then 2 ^ 9 else 0) + 2 ^ 10
                + f.detail % 2 ^ 16 * 2 ^ 16)
    tpc := tpc, tval := f.tval, shGm := gm, shDepth := depth }
/-- The failing hart of the lowest bank (R58). -/
def lowestFail : List (Nat × Fail) → Option (Nat × Fail)
  | [] => none
  | p :: l => match lowestFail l with
    | none => some p
    | some q => if q.1 < p.1 then some q else some p
/-- A trap taken by a gang: each failing hart with its own cause, every other active hart in sympathy with the lowest
failing bank; with HM = 1 or no handler the launch is killed (R58, R374). -/
def takeTrap (d : Device) (rk base : Nat) (tpc : Word) (fails : List (Nat × Fail)) : Device :=
  match d.res? rk, d.gang? rk base, lowestFail fails with
  | some r, some g, some low =>
    let act := banksOf g.gm
    if r.tvec = 0 || act.any fun h => (d.hart rk h).hm then d.killBy rk low.1 low.2.cause tpc low.2.tval
    else
      let d := ((List.range g.size).map (base + ·)).foldl (fun d h => d.modHart rk h Hart.landAll) d
      let d := act.foldl (fun d h =>
        let own := lookupK h fails
        d.modHart rk h (trapHart (own.getD low.2) tpc own.isNone g.gm g.ds.length)) d
      d.setGang rk base { g with pc := r.tvec, entry := true, wait := none, replay := none, yieldTo := none }
  | _, _, _ => d

/-- A page fault of a convoy: the gang takes the host's path, with a fault record for each faulting hart (R283, R284). -/
def takePageFault (d : Device) (rk base : Nat) (tpc : Word) (fails : List (Nat × Fail)) : Device :=
  match d.res? rk, d.gang? rk base with
  | some r, some g =>
    let pf := fails.filter fun p => p.2.cause == 0x0C
    let n := d.faultSeq
    let tickets : List FaultTicket := pf.zipIdx.map fun q =>
      { seq := n + q.2, va := q.1.2.tval, detail := q.1.2.detail, access := q.1.2.access, bank := q.1.1, tpc := tpc
        resolved := none }
    let recs : List FaultRec := tickets.map fun t =>
      { seq := t.seq, launch := r.seq, ctx := r.ctx, core := resCore rk, slot := resSlot rk, bank := t.bank, base := base, cmd := none
        va := t.va, tpc := tpc, detail := t.detail, access := t.access, written := false }
    let d := d.setGang rk base { g with faults := tickets, faultFails := fails, wait := none, replay := none }
    let d := d.modRes rk fun r => { r with state := .faultWaiting }
    ({ d with faults := d.faults ++ recs, faultSeq := n + pf.length }).flushFaults
  | _, _ => d

/-- What a convoy with failed checks does to its gang (R58, R283). -/
def takeFails (d : Device) (rk base : Nat) (tpc : Word) (fails : List (Nat × Fail)) : Device :=
  if fails.any fun p => p.2.cause == 0x0C then d.takePageFault rk base tpc fails
  else d.takeTrap rk base tpc fails

/-- The return from a handler (R385): GM and the divergence stack as they were at the trap, HM cleared on the harts that
run again, and the pc at the given target. -/
def trapReturn (d : Device) (rk base : Nat) (gm : Mask16) (depth : Nat) : Device :=
  let d := d.modGang rk base fun g => { g with gm := gm, ds := g.ds.drop (g.ds.length - depth) }
  (banksOf gm).foldl (fun d h => d.modHart rk h fun t => { t with tcause := t.tcause &&& ~~~ (1#64 <<< 10) }) d

end Device

/-! ### Convoys that have issued and not retired (R61, R63, R64, R82, R190) -/

/-! ### Waits at the pool (R257 to R260, R333, R341, R342) -/

/-- The comparison of WAIT (R98, R333, R342). -/
def wcondHolds (c : WCond) (v : Nat) (b : Word) : Bool :=
  let v := BitVec.ofNat 64 v
  match c with
  | .eq => v == b | .ne => v != b | .lt => sintOf 64 v.toNat < sintOf 64 b.toNat | .ge => sintOf 64 b.toNat ≤ sintOf 64 v.toNat
  | .ltn => v.toNat < b.toNat | .gen => b.toNat ≤ v.toNat
/-- The tags of n words from an offset, as a number. -/
def Residence.tags (r : Residence) (off n : Nat) : Nat :=
  (List.range n).foldl (fun v j => v + (r.tag (off + 8 * j)).toNat * 2 ^ j) 0
/-- A tag condition, which has the limit of R260. -/
def PoolCond.isTag : PoolCond → Bool
  | .tag _ _ => true
  | _ => false
/-- A condition holds at the pool of a residence (R258, R341, R342). -/
def WaitCond.holds (r : Residence) (c : WaitCond) : Bool :=
  match c.on with
  | .tag want never => !never && r.tag c.off == want
  | .barrier ph => let b := r.bar c.off; b.phase != ph || b.brk
  | .word o v => wcondHolds o (r.read c.off 8).1 v
  | .full all n => let t := r.tags c.off n; if all then t == 2 ^ n - 1 else t != 0
/-- A barrier condition, which has no limit (R341). -/
def PoolCond.isBarrier : PoolCond → Bool
  | .barrier _ => true
  | _ => false
/-- A condition of WAIT or WAITV, which has the limit of R260 (R342). -/
def PoolCond.isWord : PoolCond → Bool
  | .word _ _ | .full _ _ => true
  | _ => false
/-- Every condition holds at the pool of a residence. -/
def Device.allHold (d : Device) (rk : Nat) (l : List WaitCond) : Bool :=
  match d.res? rk with
  | some r => l.all (WaitCond.holds r)
  | none => false
namespace Device

/-- Entries of a bank's queues that a convoy placed and that have not started. -/
def bankLeft (d : Device) (c b cv : Nat) : Nat :=
  let k := d.bank c b
  (k.rowQ.filter fun r => r.cv == cv && !r.op.own).length + (k.segs.filter fun s => s.cv == cv).length
/-- Some word of a convoy of the hart on a bank has not completed: a row command or a sweep, or an atomic whose result is on its way. -/
def bankBusy (d : Device) (rk b cv : Nat) : Bool :=
  let c := resCore rk
  d.bankLeft c b cv != 0 || ((d.bank c b).running.any fun r => r.1 == cv && d.now < r.2)
    || (d.hart rk b).flight.any fun f => f.cv == cv
/-- The banks of a gang. -/
def gangBanks (base size : Nat) : List Nat := (List.range size).map (base + ·)
/-- Entries that a convoy placed on the banks of its gang and that have not started. -/
def convoyLeft (d : Device) (c base size cv : Nat) : Nat :=
  (gangBanks base size).foldl (fun n b => n + d.bankLeft c b cv) 0
/-- The convoys of a gang that have retired leave its window (R61). -/
def prune (d : Device) (rk base : Nat) (g : Gang) : Gang :=
  { g with window := g.window.dropWhile fun w => !((gangBanks base g.size).any fun b => d.bankBusy rk b w.id) }
/-- The convoys of a hart that have issued and not retired (R61). -/
def inFlight (d : Device) (rk b : Nat) (g : Gang) : Nat := (g.window.dropWhile fun w => !d.bankBusy rk b w.id).length
/-- A hart of the gang has as many convoys in flight as it may (R61). -/
def windowFull (d : Device) (rk : Nat) (g : Gang) : Bool := (banksOf g.gm).any fun b => Config.convoyWindow ≤ d.inFlight rk b g
/-- A VSORTK or VGATH of a gang has not finished: at a pre-emption it is abandoned, with every convoy after it, so none of those begins
before (R64, R190; log 40). -/
def longRuns (d : Device) (rk base : Nat) (g : Gang) : Bool :=
  g.window.any fun w => w.long && (gangBanks base g.size).any fun b => d.bankBusy rk b w.id
/-- Some vector-side word of a convoy has begun, or a word of it has acted (R64). -/
def begun (d : Device) (c base size : Nat) (w : Retiring) : Bool := w.acted || d.convoyLeft c base size w.id < w.placed
/-- Where the convoys of a gang that are discarded at a pre-emption begin: after the last that has begun, or at a VSORTK or VGATH
that has not finished (R64, R190). -/
def discardFrom (d : Device) (rk base : Nat) (g : Gang) : Nat :=
  let kept := g.window.zipIdx.foldl (fun n p => if d.begun (resCore rk) base g.size p.1 then p.2 + 1 else n) 0
  let long := g.window.findIdx fun w => w.long && (gangBanks base g.size).any fun b => d.bankBusy rk b w.id
  min kept long
/-- A hart as a discarded convoy found it; what other agents have done to it since stays. -/
def restoreHart (w t : Hart) : Hart :=
  { w with conv := [], flight := t.flight, redOut := t.redOut, swTraps := t.swTraps, engTraps := t.engTraps, refTrap := t.refTrap }
/-- The convoys of a gang that have not begun are discarded: the gang is as the first of them found it (R64). -/
def discard (d : Device) (rk base : Nat) : Device :=
  let c := resCore rk
  match d.gang? rk base with
  | none => d
  | some g =>
    let g := d.prune rk base g
    let d := d.setGang rk base g
    match g.window.drop (d.discardFrom rk base g) with
    | [] => d
    | w :: l =>
      let touched := (w :: l).flatMap Retiring.lats
      let reqs := (gangBanks base g.size).flatMap fun b =>
        (d.bank c b).segs.flatMap fun s => if w.id ≤ s.cv then s.reqs else []
      let d := reqs.foldl (fun d id => d.busDrop c id) d
      let d := (gangBanks base g.size).foldl (fun d b => d.modBank c b fun k =>
        Bank.arrive d.now { k with
          rowQ := k.rowQ.filter fun r => r.op.own || r.cv < w.id
          segs := k.segs.filter fun s => s.cv < w.id
          running := k.running.filter fun r => r.1 < w.id
          lane := min k.lane ((k.running.filter fun r => r.1 < w.id).foldl (fun t r => max t r.2) 0)
          out := min k.out ((k.running.filter fun r => r.1 < w.id).foldl (fun t r => max t r.2) 0) }) d
      let d := w.harts.foldl (fun d p => d.modHart rk p.1 (restoreHart p.2)) d
      let d := w.groups.foldl (fun d p =>
        let q := latchOf p.1
        d.modGroup c q.1 q.2 fun x => { x with gs := p.2.1, latch := if touched.contains p.1 then p.2.2 else x.latch }) d
      d.setGang rk base { g with
        pc := w.pc, gm := w.gm, ds := w.ds, n := w.n, entry := w.entry, cv := w.id, replay := none
        window := g.window.take (d.discardFrom rk base g) }
/-- A pre-emption of a context: convoys that have not begun are discarded, and so are waiting ones, whose conditions are kept (R64,
R260, R341, R400). -/
def preempt (d : Device) (rk : Nat) : Device :=
  let d := d.mapGangs rk fun g => { g with held := g.wait.map Waiting.on }
  let d := (d.gangsOf rk).foldl (fun d p => d.discard rk p.1) d
  d.mapGangs rk fun g => { g with wait := none, replay := none }
/-- No gang of a residence that yielded waits for a gang any more: it has issued a convoy or is not ready (R82). -/
def yielded (d : Device) (rk base : Nat) : Device :=
  d.mapGangs rk fun g => { g with yieldTo := g.yieldTo.map fun p => (p.1.filter (· != base), p.2) }

/-- A convoy waits for power credit (R417): the context is not of class 0 or has issued since it was switched in. -/
def throttled (d : Device) (core rk units : Nat) : Bool :=
  d.credit core ≤ 0 && units != 0 &&
    match d.res? rk with
    | some r => !(r.cls == 0 && r.fresh)
    | none => false
/-- A row command has yet to fill or read a latch (R62). -/
def latchWaits (d : Device) (c b : Nat) (g : Lat) : Bool := (d.bank c b).rowQ.any fun r => r.g == g && r.op.latch
/-- A matrix operation of a gang has not completed (R62, R227). -/
def mxWaits (d : Device) (rk base : Nat) : Bool := (d.core (resCore rk)).mx.any fun e => e.res == rk && e.base == base
/-- A convoy of a hart has not retired (R60, R62, R63): a row command has not started, a sweep has not ended, or the result of an
atomic has not come back. -/
def unretired (d : Device) (rk b : Nat) : Bool :=
  let c := resCore rk
  let k := d.bank c b
  k.rowQ.any (fun r => !r.op.own) || !k.segs.isEmpty || d.now < max k.lane k.out || (d.hart rk b).flight.isSome
    || match (d.core c).sifter with
      | .bound f => f.res == rk && f.pushes.any fun p => p.bank == b
      | _ => false
/-- Work of a hart remains (R81, R386): convoys that have not retired, precharges, matrix operations or reductions. -/
def unfinished (d : Device) (rk base b : Nat) : Bool :=
  !(d.bank (resCore rk) b).rowQ.isEmpty || d.unretired rk b || d.mxWaits rk base || 0 < (d.hart rk b).redOut
/-- A copy or Sifter operation that a hart forked has not completed (R300, R312). -/
def forked (d : Device) (c rk h : Nat) : Bool :=
  let x := d.core c
  (x.slots.toList.any fun o => match o with
    | some k => k.res == rk && k.bank == h
    | none => false)
  || (match d.res? rk with
      | some r => r.saved.any fun k => k.bank == h
      | none => false)
  || (match x.sifter with
      | .bound f => f.res == rk && f.ops.any fun o => o.bank == h
      | _ => false)
/-- What a convoy of a gang waits for has not come. A wait that is judged only by trying the convoy again is not held here. -/
def stillHeld (d : Device) (rk base : Nat) : WaitOn → Bool
  | .latch b g => d.latchWaits (resCore rk) b g
  | .rows b => !(d.bank (resCore rk) b).rowQ.isEmpty
  | .ops => d.mxWaits rk base
  | .result b => (d.hart rk b).flight.isSome
      || (d.core (resCore rk)).mx.any fun e => e.res == rk && (e.dest b).isSome
  | .reductions b most => most < (d.hart rk b).redOut
  | .retire b => d.unretired rk b
  | .finish b => d.unfinished rk base b
  | .power units => d.throttled (resCore rk) rk units
  | .forks b => d.forked (resCore rk) rk b
  | .load k => (d.core (resCore rk)).xfers.any (fun x => x.load && x.slot == k)
      || (d.core (resCore rk)).mx.any fun e => e.loads ⟨k % 6, Nat.mod_lt _ (by decide)⟩
  | .pool l => !d.allHold rk l
  | .ats _ _ => true
  | .lines _ _ | .matrix | .engine | .fence _ | .buffer | .journal => false

end Device

/-- A wait at the pool (R258). -/
def WaitOn.atPool : WaitOn → Bool
  | .pool _ => true
  | _ => false
/-- The waits of interlocks, which end by themselves: a convoy is judged once they have (R32, R38). -/
def WaitOn.interlock : WaitOn → Bool
  | .latch _ _ | .rows _ | .ops | .result _ | .retire _ => true
  | _ => false
/-- A gang that has a convoy to issue, which nothing holds (R65). A wait at the pool is over when every condition holds (R258); one for
the host ends by an event. A gang inside the STALL distance of its last convoy (R66) is held by it, and not ready: DEDUCED (log 54). -/
def Device.ready (d : Device) (rk base : Nat) (g : Gang) : Bool :=
  !g.ended && g.gm != 0 && g.faults.isEmpty && g.earliest ≤ d.now && !d.windowFull rk g &&
    match g.wait with
    | none => true
    | some w => w.retry || (w.tried < d.now && !d.stillHeld rk base w.on)

/-! ### The convoy being executed -/

/-- Two waits of one kind: waits at the pool, or the same wait. -/
def WaitOn.like (a b : WaitOn) : Bool :=
  match a, b with
  | .pool _, .pool _ => true
  | .reductions a _, .reductions b _ => a == b
  | a, b => a == b

/-- A gang that is not there. -/
def noGang : Gang := { size := 1, gm := 0, pc := 0 }

namespace State

/-- The residence of the convoy. -/
def rk (s : State) : Nat := resKey s.iss.core s.iss.slot
/-- The gang of the convoy. -/
def gang (s : State) : Gang := (s.dev.gang? s.rk s.iss.base).getD noGang
/-- The residence record of the convoy's context. -/
def res? (s : State) : Option Residence := s.dev.res? s.rk
/-- A hart of the convoy's context. -/
def hart (s : State) (h : Nat) : Hart := s.dev.hart s.rk h
/-- The state with the package changed. -/
def modDev (s : State) (f : Device → Device) : State := { s with dev := f s.dev }
/-- The state with a hart of the convoy's context changed. -/
def modHart (s : State) (h : Nat) (f : Hart → Hart) : State := s.modDev fun d => d.modHart s.rk h f
/-- The state with the convoy's gang changed. -/
def modGang (s : State) (f : Gang → Gang) : State := s.modDev fun d => d.modGang s.rk s.iss.base f
/-- A latch of a bank of the convoy's core. -/
def latch (s : State) (h : Nat) (g : Lat) : LatchRec := s.dev.latch s.iss.core h g
/-- The bank and group that a latch operand names on a hart (R22, R50). -/
def latOf (s : State) (h : Nat) : LatRef → Nat × Lat
  | .own g => (h, g)
  | .gang l => (s.iss.base + l.bank.val, l.g)
/-- The value of a scalar source on a hart (R20, R35, R91). -/
def src (s : State) (h : Nat) : Src → Word
  | .x r => (s.hart h).getX r
  | .imm v => v.signExtend 64
  | .long k =>
    let i := s.iss.pfx.getD 0
    match k with
    | .full => i
    | .sx hi => (i.extractLsb' (if hi then 32 else 0) 32).signExtend 64
    | .zx hi => (i.extractLsb' (if hi then 32 else 0) 32).zeroExtend 64
/-- The hart has failed a check of this convoy. -/
def failed (s : State) (h : Nat) : Bool := s.iss.fails.any fun p => p.1 == h
/-- A failed check of a hart; the first of a hart counts (R38). -/
def addFail (s : State) (h : Nat) (f : Fail) : State :=
  if s.failed h then s else { s with iss := { s.iss with fails := s.iss.fails ++ [(h, f)] } }
/-- The harts of a list that have failed no check of this convoy: what the gang decides, it decides on them (R38, R58). -/
def sound (s : State) (l : List Nat) : List Nat := l.filter fun h => !s.failed h
/-- The same failed check on every active hart (R38, R109). -/
def failAll (s : State) (f : Fail) : State := (banksOf s.gang.gm).foldl (fun s h => s.addFail h f) s
/-- The convoy waits. -/
def holdOn (s : State) (w : WaitOn) : State :=
  if s.iss.hold.isSome then s else { s with iss := { s.iss with hold := some w } }
/-- The convoy transfers control to a target. -/
def goto (s : State) (a : Word) : State := { s with iss := { s.iss with target := some a } }

end State

/-! ### What a word reads, writes and costs -/

/-- A share of the sweep cost of a convoy (R189, R190). -/
inductive Seg where
  | none
  /-- an element-wise word with its pass count -/
  | elem (p : Nat)
  /-- a segment of its own, with its time at G = 16 -/
  | whole (t : Nat)
deriving DecidableEq, Repr

/-- What a word reads and writes, for interlocks and for the checking scoreboard, and what it costs. -/
structure Uses where
  rd : List Reg := []
  wr : List Reg := []
  /-- the registers are read on every active hart, whatever its guard (R83) -/
  all : Bool := false
  /-- the latches it reads or writes (R62) -/
  latch : List LatRef := []
  /-- it waits for the gang's matrix operations (R62, R227) -/
  mx : Bool := false
  /-- it enters the matrix queue, which orders it (R227) -/
  queue : Bool := false
  /-- it acts only as the oldest unretired convoy of its hart (R63) -/
  old : Bool := false
  /-- it acts on more than its harts and their queues, though not as the oldest convoy alone -/
  acts : Bool := false
  /-- a VSORTK or VGATH (R190) -/
  long : Bool := false
  /-- a row command, which enters a queue of its bank (R60) -/
  row : Bool := false
  /-- SETVT: what it makes of VT on a hart (R190) -/
  vt : Option (State → Nat → BitVec 16) := none
  seg : Hart → Seg := fun _ => .none
  /-- power units of the word, and of its part on a hart (R231, R417) -/
  charge : Nat := 0
  chargeH : Hart → Nat := fun _ => 0

/-- It waits for the gang's matrix operations: also a word that touches a latch, which one of them may read or write. -/
def Uses.onQueue (u : Uses) : Bool := u.mx || (!u.latch.isEmpty && !u.queue)
/-- A vector-side word that enters a queue (R60). -/
def Uses.queued (u : Uses) : Bool := u.row || u.queue || !u.latch.isEmpty
/-- The registers of a scalar source. -/
def srcRegs : Src → List Reg
  | .x r => [.x r]
  | _ => []

/-- What the checks before a word's own say of a hart. -/
inductive Pre where
  | off
  | run
  | fail (f : Fail)
  | hold (w : WaitOn)
deriving DecidableEq, Repr

/-- The wait that a check asks for. -/
def Pre.waits : Pre → Option WaitOn
  | .hold w => some w
  | _ => none

/-- The sweep cost counted one word further (R189, R190). A word without a segment ends a chain: R189 has consecutive element-wise words
form one, and says nothing of a scalar word between them, which the model takes to part them: DESIGN CHOICE (log 62). -/
def Sweep.add (w : Sweep) : Seg → Sweep
  | .none => { w with closed := w.closed + 16 * w.pass, pass := 0, chained := false }
  | .elem p => { w with pass := max w.pass p, chained := w.pass != 0 }
  | .whole t => { w with closed := w.closed + 16 * w.pass + t, pass := 0, chained := false }
/-- The sweep cost of the words so far (R190). -/
def Sweep.cost (w : Sweep) : Nat := w.closed + 16 * w.pass

namespace State

/-- The guard of a word on a hart (R15). -/
def guard (s : State) (h : Hdr) (b : Nat) : Bool := (s.hart b).getP h.gp != h.gn
/-- The package as the convoy found it. -/
def rollback (s : State) : Device := s.iss.undo.getD s.dev
/-- A row command has yet to fill or read a latch operand (R62). -/
def latchWaits (s : State) (d : Device) (b : Nat) (r : LatRef) : Bool :=
  d.latchWaits s.iss.core (s.latOf b r).1 (s.latOf b r).2
/-- A latch that a row command of an earlier convoy has yet to fill or read (R62). -/
def latchBusy (s : State) (b : Nat) (r : LatRef) : Bool := s.latchWaits s.rollback b r
/-- An earlier convoy of a hart has not retired (R63). -/
def unretired (s : State) (b : Nat) : Bool := s.rollback.unretired s.rk b
/-- The segments and row commands that the convoy itself has put on a bank, run (R32, R62). -/
def settleRows (s : State) (bank : Nat) : State :=
  let s := { s with iss := { s.iss with acted := true } }
  s.modDev fun d => d.settleBank s.iss.core bank (d.settleMoves s.iss.core)
/-- A matrix operation of an earlier convoy of the context has not completed. -/
def mxOlder (s : State) : Bool := (s.rollback.core s.iss.core).mx.any fun e => e.res == s.rk
/-- The matrix operations that the convoy itself has put in the queue, run, when none is before them (R32, R227). -/
def settleQueue (s : State) : State :=
  if s.dev.mxWaits s.rk s.iss.base && !s.mxOlder then s.modDev fun d => d.settleMx s.iss.core s.rk else s
/-- The registers that a word reads or writes on a hart, with its guard. -/
def regsOf (s : State) (h : Hdr) (u : Uses) (b : Nat) : List Reg :=
  let on := s.guard h b
  ((.p h.gp :: if on || u.all then u.rd else []) ++ if on then u.wr else []).filter fun r => !r.fixed
/-- What the convoy itself has left waiting and the word depends on, run. -/
def settle (s : State) (h : Hdr) (u : Uses) (b : Nat) : State :=
  let s := if (s.regsOf h u b).any fun r => s.dev.mxDest s.rk b r && !s.rollback.mxDest s.rk b r then s.settleQueue else s
  if !s.guard h b then s else
  let s := u.latch.foldl (fun s r =>
    if s.latchWaits s.dev b r && !s.latchBusy b r then s.settleRows (s.latOf b r).1 else s) s
  if u.onQueue then s.settleQueue else s
/-- The checks and waits of a word on a hart before its own: the checking scoreboard (R69), results that have not returned
(R67), the guard (R15), and the hazards of latches (R62). A register that the body of a REPLAY names and that is in flight at the
REPLAY is reported at the body word that names it: the model's choice (log 34). -/
def pre (s : State) (h : Hdr) (u : Uses) (b : Nat) : Pre :=
  let t := s.hart b
  let on := s.guard h b
  let regs := s.regsOf h u b
  if t.schk.getLsbD 0 && regs.any (fun r => t.due.any fun e => e.reg == r) then
    .fail { cause := 0x08, tval := s.iss.addr }
  else if regs.any (fun r => match t.flight with
      | some f => Reg.x f.reg == r && !(t.conv.any fun w => w.reg == r)
      | none => false) || regs.any (s.dev.mxDest s.rk b) then .hold (.result b)
  else if !on then .off
  else if (u.old && s.unretired b) || (u.queued && s.rollback.longRuns s.rk s.iss.base s.gang) then .hold (.retire b)
  else match u.latch.find? (s.latchWaits s.dev b) with
    | some r => .hold (.latch (s.latOf b r).1 (s.latOf b r).2)
    | none => if u.onQueue && s.dev.mxWaits s.rk s.iss.base then .hold .ops else .run

/-- The start of a convoy, at its first word: results that are due land, and the package is remembered (R32, R67). The body
convoys of a replay read the registers as the REPLAY found them (R79). -/
def begin (s : State) (g : Gang) : State :=
  if s.iss.active then s
  else
    { s with
      dev := if s.iss.replay then s.dev
        else ((List.range g.size).map (s.iss.base + ·)).foldl (fun d h => d.modHart s.rk h (Hart.land g.n)) s.dev
      iss :=
        let first := if s.iss.replay then s.iss.addr else g.pc
        { s.iss with active := true, undo := some s.dev, start := g.pc, head := first, addr := first } }
/-- A hart as the sweep cost of a word is judged on it: with VT as the SETVT words of the convoy leave it, whether or not the
convoy goes on (R190). -/
def costHart (s : State) (b : Nat) : Hart :=
  let t := s.hart b
  match (lookupD {} b s.iss.sweeps).vt with
  | some v => { t with vt := v }
  | none => t
/-- The costs of a word counted: its sweep cost whatever the guards (R190), as far as the formats are known, and its units for the harts
that perform it (R231, R417). -/
def count (s : State) (h : Hdr) (u : Uses) (act : List Nat) : State :=
  let run := act.filter (s.guard h)
  { s with iss := { s.iss with
      acted := s.iss.acted || ((u.old || u.queue || u.acts) && !run.isEmpty)
      long := s.iss.long || u.long
      charge := run.foldl (fun n b => n + u.chargeH (s.hart b)) (s.iss.charge + if run.isEmpty then 0 else u.charge)
      sweeps := act.map fun b =>
        let o := lookupD {} b s.iss.sweeps
        if o.lost then (b, o)
        else
          let w := o.add (u.seg (s.costHart b))
          (b, match u.vt with
            | some f => if s.iss.hold.isSome || s.failed b then { w with lost := true }
              else if s.guard h b then { w with vt := some (f s b) } else w
            | none => w) } }
/-- A failed check of a hart recorded. -/
def takePre (s : State) (p : Nat × Pre) : State :=
  match p.2 with
  | .fail f => s.addFail p.1 f
  | _ => s
/-- The shared checks of a word, and its own part on the harts that run it. -/
def runWord (s : State) (h : Hdr) (u : Uses) (body : List Nat → State → State) (act : List Nat) : State :=
  let s := act.foldl (fun s b => s.settle h u b) s
  let pres := act.map fun b => (b, s.pre h u b)
  let s := pres.foldl State.takePre s
  match pres.findSome? fun p => if s.failed p.1 then none else p.2.waits with
  | some w => s.holdOn w
  | none => body ((pres.filter fun p => p.2 == .run).map Prod.fst) s

/-- After a body convoy of a replay: EI names the next one, and past the last the gang leaves the REPLAY (R79). -/
def replayNext (s : State) (g : Gang) (r : Replay) : State :=
  let act := banksOf g.gm
  let step (t : Hart) : Hart :=
    let pos := (t.ei.extractLsb' 32 6).toNat + 1
    let iter := (t.ei.extractLsb' 0 32).toNat
    let (iter, pos) := if r.n ≤ pos then (iter + 1, 0) else (iter, pos)
    if iter < (t.rc.extractLsb' 0 32).toNat then
      { t with ei := BitVec.ofNat 64 (iter % 2 ^ 32 + pos * 2 ^ 32 + 2 ^ 38) }
    else { t with ei := 0 }
  let s := act.foldl (fun s h => s.modHart h step) s
  match act with
  | [] => s
  | h :: _ =>
    if (s.hart h).ei = 0 then s.modGang fun g => { g with replay := none, pc := nextWord r.at_ } else s

/-- The convoy as it joins those that have issued and not retired, with what it found (R61, R64). -/
def retiring (s : State) (g : Gang) : Retiring :=
  let i := s.iss
  let u := s.rollback
  let was := (u.gang? s.rk i.base).getD g
  let banks := Device.gangBanks i.base g.size
  { id := g.cv, acted := i.acted, long := i.long
    placed := s.dev.convoyLeft i.core i.base g.size g.cv
    lats := banks.flatMap fun b =>
      let k := s.dev.bank i.core b
      (k.segs.filter fun q => q.cv == g.cv).flatMap (fun q => q.rd ++ q.wr)
        ++ (k.rowQ.filter fun r => r.cv == g.cv && !r.op.own).map fun r => latchNo b r.g
    pc := was.pc, gm := was.gm, ds := was.ds, n := was.n, entry := was.entry
    harts := banks.map fun b => (b, u.hart s.rk b)
    groups := banks.flatMap fun b => (List.finRange 4).map fun q =>
      (latchNo b q, (u.group i.core b q).gs, (u.group i.core b q).latch) }
/-- The gang that has issued a convoy from memory is the one after which the next is chosen (R65). -/
def issued (s : State) (d : Device) : Device :=
  let d := d.yielded s.rk s.iss.base
  if s.iss.replay then d else d.modCore s.iss.core fun c => { c with last := s.iss.base }
/-- A convoy that passed its checks takes effect: its register writes take their course, nominal time advances, it joins the
convoys that have not retired, and control goes on (R32, R61, R66, R67). A body convoy of a replay takes no issue slot, and so no
cycle, of its core (R65, R79). -/
def commit (s : State) (g : Gang) : State :=
  let i := s.iss
  let w := s.retiring g
  let land (t : Hart) : Hart := if i.lands then t.landAll else t
  let d := ((List.range g.size).map (i.base + ·)).foldl (fun d h => d.modHart s.rk h fun t => land (t.commit g.n)) s.dev
  let d := d.modGang s.rk i.base fun g =>
    d.prune s.rk i.base
      { g with n := g.n + 1 + i.stall, wait := none, entry := false, earliest := d.now + 1 + i.stall
               cv := g.cv + 1, window := g.window ++ [w]
               pc := if i.replay then g.pc else i.target.getD (nextWord i.addr) }
  let d := d.modRes s.rk fun r => { r with fresh := false }
  let d := if i.charge = 0 then d else d.charge i.core i.charge
  let d := s.issued d
  let s := { s with dev := if i.replay then d else d.tick }
  let s := if i.replay then
      match s.gang.replay with
      | some r => s.replayNext s.gang r
      | none => s
    else s
  { s with iss := {} }
/-- A package that goes back to where the convoy began, with the translation cache as the walks of the convoy have left it (R279). -/
def walked (s : State) (d : Device) : Device := d.modCore s.iss.core fun c => { c with atc := (s.dev.core s.iss.core).atc }
/-- The convoy holds before any word of it takes effect (R32, R64); a wait of the same kind goes on. A request to the host is
sent (R281), harts that wait at a barrier show in WAITM (R341), and a line of a CINV or CWB is done (R268). The translations that it has
walked for stay cached (R279). No cycle passes by it: the gang was not ready (R65). -/
def suspend (s : State) (w : WaitOn) : State :=
  let d := s.walked s.rollback
  let d := match w with
    | .ats ctx va =>
      let q : AtsReq := { core := s.iss.core, ctx := ctx, va := va / 2 ^ 16 * 2 ^ 16 }
      if d.ats.contains q then d else { d with ats := d.ats ++ [q] }
    | .pool l => d.showWaits s.rk l
    | .lines inv line => d.cleanLine s.iss.core inv line
    | _ => d
  let d := d.modGang s.rk s.iss.base fun g =>
    let since := match g.wait with
      | some o => if o.on.like w then o.since else d.now
      | none => d.now
    { g with wait := some { on := w, retry := false, tried := d.now, since := since
                            pool := (g.wait.bind Waiting.pool).or (if w.atPool then some d.now else none) } }
  { s with dev := (d.yielded s.rk s.iss.base).stopForCmd s.rk, iss := {} }
/-- The harts on which the sweep cost of the convoy is more than it may be (R190). -/
def tooLong (s : State) : List (Nat × Fail) :=
  (s.iss.sweeps.filter fun p => Config.sweepLimit < p.2.cost).map fun p => (p.1, { cause := 0x04, tval := s.iss.head })
/-- The convoy takes no effect, and its failed checks are taken (R38, R58); a request that the fabric has dropped stands, whatever the
convoy does (R415), and so do the translations that it has walked for (R279). -/
def fallOut (s : State) (fails : List (Nat × Fail)) : State :=
  let d := s.walked { s.rollback with regs := s.dev.regs, fabric := s.dev.fabric }
  { s with dev := (s.issued (d.takeFails s.rk s.iss.base s.iss.start fails)).tick, iss := {} }
/-- The end of a convoy (R32, R38, R190): a convoy that an interlock holds is judged when it no longer does; one that waits for something
else while a hart has failed traps at once: DESIGN CHOICE (log 55). One that passes its checks waits at issue for power credit
(R417). -/
def endConvoy (s : State) : State :=
  let fails := if s.tooLong.isEmpty then s.iss.fails else s.tooLong
  match s.iss.hold with
  | some w => if fails.isEmpty || w.interlock then s.suspend w else s.fallOut fails
  | none =>
    let units := s.iss.charge + s.iss.later
    if !fails.isEmpty then s.fallOut fails
    else if s.rollback.throttled s.iss.core s.rk units then s.suspend (.power units)
    else s.commit s.gang
/-- The end of a word: its stall count, and the next word or the end of the convoy (R14, R26, R66). -/
def endWord (s : State) (h : Hdr) : State :=
  let s := { s with iss := { s.iss with stall := max s.iss.stall h.stall.toNat, pfx := none } }
  if h.c then { s with iss := { s.iss with addr := nextWord s.iss.addr } } else s.endConvoy

end State

/-- The outcome of a word. -/
abbrev Out := Host.Outcome State Fault Refusal

/-- One word of a convoy on the active harts of its gang: `body` is the word's own part, given the harts whose guard is
true (R15, R16, R32, R38, R51). -/
def wordOp (h : Hdr) (u : Uses) (body : List Nat → State → State) (s : State) : Out :=
  match s.dev.gang? s.rk s.iss.base with
  | none => .fault .noGang
  | some g =>
    let s := s.begin g
    let act := banksOf g.gm
    let s := s.count h u act
    let s := if s.iss.hold.isSome then s else s.runWord h u body act
    .next (s.endWord h)

/-- What the part of a word on one hart answers. -/
inductive HRes where
  | ok (s : State)
  | fail (f : Fail)
  | hold (w : WaitOn)

/-- A state in which a hart that has failed has gone on: nothing of it is seen but by the later words of its convoy (R58). -/
def State.quiet (s t : State) : State := { t with dev := { t.dev with regs := s.dev.regs, fabric := s.dev.fabric } }
/-- A word that acts on each hart by itself, in ascending rank (R16, R51). A hart that has failed runs on for what the later words of the
other harts read there; what it meets counts no more (R38). -/
def perHart (body : Nat → State → HRes) : List Nat → State → State
  | [], s => s
  | h :: l, s => match body h s with
    | .ok t => perHart body l (if s.failed h then s.quiet t else t)
    | .fail f => perHart body l (s.addFail h f)
    | .hold w => perHart body l (if s.failed h then s else s.holdOn w)

/-- A word of the whole gang, on the harts that run it and have failed no check: the checks of the others still run (R38, R39, R58). -/
def wholeGang (body : List Nat → State → State) (run : List Nat) (s : State) : State := body (s.sound run) s

/-- A word whose part on a hart writes one register and cannot fail. -/
def writeReg (h : Nat) (r : Reg) (v : Word) (lat : Option Nat) (s : State) : State :=
  s.modHart h fun t => t.put r v lat

end Sys2Proof.Machine
end

