-- ==== Sys2Proof/Machine/Operands.lean ====
section
/-! DEFINITION. Operand forms of scalar words: values at a width, results at a width, and the shape of a word that writes
one register (R87 to R92). -/

namespace Sys2Proof.Machine

/-- The width of a word with the `.w` modifier (R89). -/
def widthOf (w : Bool) : Nat := if w then 32 else 64
/-- UInt. -/
def uintN (n : Nat) (v : Word) : Nat := v.toNat % 2 ^ n
/-- SInt. -/
def sintN (n : Nat) (v : Word) : Int := sintOf n v.toNat
/-- SInt at 64 bits. -/
def sint64 (v : Word) : Int := sintN 64 v
/-- The 64-bit pattern of an exact integer. -/
def word64 (v : Int) : Word := BitVec.ofInt 64 v
/-- SExt: the low `n` bits sign-extended. -/
def sextN (n : Nat) (v : Word) : Word := word64 (sintN n v)
/-- ZEXT: the low `n` bits zero-extended. -/
def zextN (n : Nat) (v : Word) : Word := BitVec.ofNat 64 (uintN n v)
/-- Res (R89): modulo 2^64, or the low 32 bits sign-extended. -/
def resOf (w : Bool) (v : Int) : Word := if w then (BitVec.ofInt 32 v).signExtend 64 else word64 v

/-- The register that an `x` or `p` destination names. -/
def xpReg : XP → Reg
  | .x r => .x r
  | .p r => .p r

/-- A word that writes one register on each hart from what it reads there, and cannot fail (R87, R92). -/
def regWord (h : Hdr) (d : Reg) (lat : Option Nat) (rd : List Reg) (val : State → Nat → Word) (s : State) : Out :=
  wordOp h { rd := rd, wr := [d] } (perHart fun b s => .ok (writeReg b d (val s b) lat s)) s

/-- A two-source word (R91). -/
def word2 (h : Hdr) (d : XReg) (a b : Src) (lat : Option Nat) (f : Word → Word → Word) (s : State) : Out :=
  regWord h (.x d) lat (srcRegs a ++ srcRegs b) (fun s k => f (s.src k a) (s.src k b)) s
/-- A one-source word (R91). -/
def word1 (h : Hdr) (d : XReg) (a : Src) (lat : Option Nat) (f : Word → Word) (s : State) : Out :=
  regWord h (.x d) lat (srcRegs a) (fun s k => f (s.src k a)) s
/-- A two-source word that also reads its destination first (R92). -/
def word3 (h : Hdr) (d : XReg) (a b : Src) (lat : Option Nat) (f : Word → Word → Word → Word) (s : State) : Out :=
  regWord h (.x d) lat (.x d :: srcRegs a ++ srcRegs b) (fun s k => f ((s.hart k).getX d) (s.src k a) (s.src k b)) s

end Sys2Proof.Machine
end

