-- ==== Sys2Proof/Machine/Flags.lean ====
section
/-! DEFINITION. FPC and FPS: the dynamic rounding mode, flushing, the sticky flags and the traps they raise (R100, R103,
R157 to R159). -/

namespace Sys2Proof.Machine

/-- The flags whose trap enables in FPC are set (R157). -/
def trapMask (fpc : Word) : Flags := BitVec.zeroExtend 7 (fpc.extractLsb' 4 5)
/-- The trap 0x14 of a word that would raise these flags (R103, R159, R371). -/
def fpTrap (addr : Word) (f : Flags) : Fail :=
  { cause := 0x14, tval := addr, detail := f.toNat % 32 }
/-- FPC.FZ. -/
def fpcFz (fpc : Word) : Bool := fpc.getLsbD 3
/-- SEED (R157). -/
def fpcSeed (fpc : Word) : Nat := fpc.toNat / 2 ^ 32
/-- FPC with a new SEED. -/
def withSeed (fpc : Word) (seed : Nat) : Word := BitVec.ofNat 64 (fpc.toNat % 2 ^ 32 + seed % 2 ^ 32 * 2 ^ 32)
/-- The rounding mode of a scalar word: its RM field, or FPC.RM with stochastic rounding taken as nearest even (R100). A reserved code
of FPC.RM, which only a frame that the host has written can hold (R366), rounds to nearest even: DESIGN CHOICE (log 64). -/
def scalarRnd (fpc : Word) : FRm → Rnd
  | .rne => .rne
  | .rtz => .rtz
  | .rup => .rup
  | .rdn => .rdn
  | .dyn => match (fpc.extractLsb' 0 3).toNat with
    | 1 => .rtz
    | 2 => .rup
    | 3 => .rdn
    | _ => .rne

/-- What a word does with the flags it raises: a trap when an enable is set, else the flags become sticky (R103, R159). -/
def withFlags (b : Nat) (f : Flags) (s : State) (k : State → State) : HRes :=
  if f &&& trapMask (s.hart b).fpc != 0 then .fail (fpTrap s.iss.addr f)
  else .ok (k (s.modHart b fun t => t.raise f))

/-- A scalar floating-point word: its result and flags from what it reads (R103). -/
def fpWord (h : Hdr) (d : Reg) (lat : Option Nat) (rd : List Reg) (val : State → Nat → Nat × Flags) (s : State) : Out :=
  wordOp h { rd := rd, wr := [d] } (perHart fun b s =>
    let r := val s b
    withFlags b r.2 s (writeReg b d (BitVec.ofNat 64 r.1) lat)) s

end Sys2Proof.Machine
end

