-- ==== Sys2Proof/Machine/Lane.lean ====
section
/-! DEFINITION. What every lane word shares: VT and VL, activity, sources, the order of its checks, its flag set, the write of
its destination, and its segment of the sweep (R125, R147, R155, R159, R176 to R190). -/

namespace Sys2Proof.Machine

/-! ### Vector state (R176 to R178) -/

/-- The block length that BLK codes (R176). -/
def blkLen : Nat → Nat
  | 1 => 8 | 2 => 16 | 3 => 32 | 4 => 64 | _ => 0
/-- VT and VL of a hart, with the seed of stochastic rounding. -/
structure LaneCfg where
  fmt : VFmt
  bl : Nat
  ssr : Nat
  sat : Bool
  rm : Rnd
  flush : Bool
  lqt : Bool
  vl : Nat
  seed : Nat
deriving DecidableEq, Repr
/-- The fields of VT, VL and FPC that lane words read. -/
def laneCfg (t : Hart) : LaneCfg where
  fmt := t.fmt
  bl := blkLen (t.vt.extractLsb' 4 3).toNat
  ssr := (t.vt.extractLsb' 7 3).toNat
  sat := t.vt.getLsbD 10
  rm := Rnd.ofCode (t.vt.extractLsb' 11 3).toNat
  flush := t.vt.getLsbD 14
  lqt := t.vt.getLsbD 15
  vl := t.vl.toNat
  seed := fpcSeed t.fpc
/-- The random word of an element under stochastic rounding (R155). -/
def LaneCfg.h (c : LaneCfg) (i : Nat) : Nat := if c.rm = .sr then stochBits c.seed i else 0
/-- Max of R178. -/
def grantMax (f : VFmt) (bl ssr : Nat) : Nat :=
  if f = .illegal then 0
  else if bl = 0 || !f.takesScale then f.perLatch
  else min f.perLatch (bl * (8192 / 2 ^ ssr))
/-- Grant (R178). -/
def grant (f : VFmt) (bl ssr n : Nat) : Nat :=
  let m := grantMax f bl ssr
  if m ≤ n then m else if f.isLq then 8 * (n / 8) else n
/-- The block lengths that a format admits for its elements (R147). -/
def blkOk (f : VFmt) (bl : Nat) : Bool :=
  (bl == 0 || f.takesScale) && (f != .e2m1 || bl != 0) && (!f.isLq || bl == 32)

namespace State

/-- The lane configuration of a hart. -/
def lanes (s : State) (b : Nat) : LaneCfg := laneCfg (s.hart b)
/-- Elements of a width that reduced service refuses (R419). -/
def wide (s : State) (bits : Nat) : Bool := s.dev.regs.rsvc && 32 ≤ bits
/-- The vector state is not one under which elements of FMT may be read or written by a word that accepts `ok`: check 1 of
R187. -/
def badFmt (s : State) (c : LaneCfg) (ok : VFmt → Bool) : Bool :=
  c.fmt == .illegal || !ok c.fmt || !blkOk c.fmt c.bl || s.wide c.fmt.bits

end State

/-! ### Elements of a latch (R9, R146) -/

/-- Element i of width `n` of a latch's data. -/
def elemOf (n data i : Nat) : Nat := data / 2 ^ (n * i) % 2 ^ n
/-- A latch's data with element i of width `n` replaced. -/
def putElem (n data i v : Nat) : Nat :=
  data % 2 ^ (n * i) + v % 2 ^ n * 2 ^ (n * i) + data / 2 ^ (n * (i + 1)) * 2 ^ (n * (i + 1))
/-- The width of a unit: a point under a lattice format, else an element (R201). -/
def VFmt.unit (f : VFmt) : Nat := if f.isLq then 8 * f.lqBits else f.bits
/-- Elements of a unit. -/
def VFmt.per (f : VFmt) : Nat := if f.isLq then 8 else 1

/-! ### Masks and activity (R180, R183) -/

/-- MaskBit (R183). -/
def maskBit (t : Hart) (m : MaskMod) (q i : Nat) : Bool := t.masks[m.mi.val].getLsbD (i / q) != m.mn
/-- The mask modifier lets element i take part. -/
def maskOn (t : Hart) (m : MaskMod) (q i : Nat) : Bool := !m.me || maskBit t m q i
/-- The active elements of a word, rising (R183). -/
def actives (t : Hart) (m : MaskMod) (f : VFmt) : List Nat :=
  (List.range t.vl.toNat).filter fun i => maskOn t m f.q i
/-- The active units of a word, and the first unit that is active in part (R171, R201). -/
def activeUnits (t : Hart) (m : MaskMod) (f : VFmt) : List Nat × Option Nat :=
  let on (u : Nat) : List Bool := (List.range f.per).map fun k => maskOn t m f.q (u * f.per + k)
  let us := List.range (t.vl.toNat / f.per)
  (us.filter fun u => (on u).all id, us.find? fun u => (on u).any id && !(on u).all id)

/-! ### Latches that a word uses (R185 to R187) -/

/-- A latch as a word uses it: the format it is checked against, and the sectors that active elements read. -/
structure LatUse where
  ref : LatRef
  fmt : VFmt
  read : List Nat := []
/-- The sectors of elements of a width. -/
def sectorsOf (n : Nat) (is : List Nat) : List Nat := is.map fun i => n * i / 512

namespace State

/-- The gang rank of a latch operand of a hart. -/
def rankOf (s : State) (b : Nat) (r : LatRef) : Nat := (s.latOf b r).1 - s.iss.base
/-- The record of a latch operand of a hart. A remote source reads the latch as the word found it (R185). -/
def latR (s : State) (b : Nat) (r : LatRef) : LatchRec :=
  match r with
  | .own g => s.latch b g
  | .gang l => match lookupK (s.iss.base + l.bank.val) s.iss.view with
    | some v => v[l.g.val]
    | none => s.latch (s.iss.base + l.bank.val) l.g
/-- The data of a latch operand of a hart. -/
def latData (s : State) (b : Nat) (r : LatRef) : Nat := (s.latR b r).data.toNat
/-- TVAL of a tag trap (R187). -/
def tagTval (s : State) (b : Nat) (r : LatRef) : Nat := (s.latOf b r).2.val + s.rankOf b r * 4
/-- TVAL of a poison trap: group, byte offset of the sector, and the gang rank of a remote latch (R125, R187). -/
def poisonTval (s : State) (b : Nat) (r : LatRef) (sector : Nat) : Nat :=
  sector * 64 + (s.latOf b r).2.val * 2 ^ 13 + (match r with
    | .own _ => 0
    | .gang l => l.bank.val * 2 ^ 15)
/-- The first poisoned sector that a use reads. -/
def poisonOf (s : State) (b : Nat) (u : LatUse) : Option Fail :=
  let p := (s.latR b u.ref).poison
  if p = 0 then none
  else (u.read.find? fun k => p.getLsbD k).map fun k => failAt 0x0B (s.poisonTval b u.ref k)
/-- The checks of a lane word before its arithmetic, in the order of R187: `bad` is its first check but for invalid
latches, and `part` the first point that it would write in part. Of several latches that fail one check the first in the order of
sources, destination and index or scale latch is named, and of its poisoned sectors the first that the word reads in element order:
the model's choice (log 26). -/
def laneCheck (s : State) (b : Nat) (bad : Bool) (uses : List LatUse) (part : Option Nat) : Option Fail :=
  if bad || uses.any (fun u => !(s.latR b u.ref).valid) then some { cause := 0x04, tval := s.iss.addr }
  else match uses.find? fun u =>
      let t := (s.latR b u.ref).tag
      t != 0xF && t.toNat != u.fmt.code with
    | some u => some (failAt 0x05 (s.tagTval b u.ref))
    | none => match part with
      | some p => some (failAt 0x06 p)
      | none => uses.findSome? (s.poisonOf b)

/-! ### Sources (R183, R184) -/

/-- ScalarOf under a format (R183); under a lattice format, where R183 states none, the low bits as one whole point: the model's
choice (log 38). -/
def scalarOf (s : State) (b : Nat) (f : VFmt) (v : Src) : Nat :=
  let x := s.src b v
  match f.ff?, v with
  | some g, .imm _ => (roundTo (intNum (sint64 x)).ex g .rne).1
  | _, _ => x.toNat % 2 ^ f.unit
/-- Src (R183): the pattern of unit i. -/
def lop (s : State) (b : Nat) (f : VFmt) (v : LOp) : Nat → Nat :=
  match v with
  | .lat r => elemOf f.unit (s.latData b r)
  | .s v => let k := s.scalarOf b f v; fun _ => k

end State

/-- The scalar registers of a lane source. -/
def lopRegs : LOp → List Reg
  | .lat _ => []
  | .s v => srcRegs v
/-- The latches of a lane source. -/
def lopLats : LOp → List LatRef
  | .lat r => [r]
  | .s _ => []
/-- The uses of a lane source that reads units. -/
def lopUses (f : VFmt) (read : List Nat) (v : LOp) : List LatUse :=
  (lopLats v).map fun r => { ref := r, fmt := f, read := sectorsOf f.unit read }

/-! ### Segments (R189, R210, R211) -/

/-- Element groups of a sweep over a byte extent. -/
def groupsOf (bytes : Nat) : Nat := max 1 ((bytes + 511) / 512)
/-- The groups of the elements of a format below VL. -/
def LaneCfg.groups (c : LaneCfg) : Nat := groupsOf ((c.vl * c.fmt.bits + 7) / 8)
/-- The groups of a sweep that also touches a latch of one element of a width for each unit. -/
def LaneCfg.groupsWith (c : LaneCfg) (w : Nat) : Nat :=
  groupsOf (max ((c.vl * c.fmt.bits + 7) / 8) ((c.vl / c.fmt.per * w + 7) / 8))
/-- The share of the sweep of an element-wise word, and its units: one for each group of its sweep for each pass (R417). -/
def elemUse (rd : List Reg) (lats : List LatRef) (p : VFmt → Nat := fun _ => 1) (g : LaneCfg → Nat := LaneCfg.groups) :
    Uses where
  rd := rd
  latch := lats
  seg := fun t => .elem (p t.fmt)
  chargeH := fun t => p t.fmt * g (laneCfg t)
/-- The share of the sweep of a whole-row word: its time, and its passes for the charge. -/
def wholeUse (rd : List Reg) (lats : List LatRef) (t passes : Nat) (g : LaneCfg → Nat := LaneCfg.groups) : Uses where
  rd := rd
  latch := lats
  seg := fun _ => .whole t
  chargeH := fun k => passes * g (laneCfg k)
/-- The bus slots of a word for the latches of other banks that it reads: one for each distinct remote latch of the word, asked
for once on behalf of every hart, and held for its segments (R211). A word with `all` asks for every slot at once. -/
def State.askBus (s : State) (remote : List Nat) (all : Bool) : State × List Nat :=
  if remote.isEmpty && !all then (s, [])
  else match s.iss.bus with
    | none =>
      let r := s.dev.busAsk s.iss.core 0 remote.length all true
      ({ s with dev := r.1, iss := { s.iss with bus := some (r.2, remote) } }, [r.2])
    | some p =>
      let l := (p.2 ++ remote).dedup
      ({ s with dev := s.dev.busMore s.iss.core p.1 l.length, iss := { s.iss with bus := some (p.1, l) } }, [p.1])
/-- The place of the word being executed in its convoy. -/
def State.wordPlace (s : State) : Nat := wordIndex s.iss.addr.toNat - wordIndex s.iss.head.toNat
/-- The entry of a bank that a chained word of a convoy follows: the last of the vector-arithmetic queue, while that is an
element-wise word of the convoy (R189). -/
def Bank.follows (k : Bank) (cv : Nat) : Option VecSeg :=
  ((k.segs.filter fun o => !o.store).getLast?).filter fun o => o.elem && o.cv == cv
/-- The segment of a word put on its bank, with the latches that it reads and those that it writes and the bus slots that its remote
sources ask for: an element-wise word goes on with the chain before it, at the pace of the slowest of its words (R60, R189, R211).
A whole-row word has a segment of its own, and a word that reads a latch out stands in the vector-store queue. -/
def State.pushSeg (s : State) (b : Nat) (rd wr : List LatRef) (elem : Bool) (time : Nat) (all : Bool := false) (store : Bool := false) :
    State :=
  let no (r : LatRef) : Nat := latchNo (s.latOf b r).1 (s.latOf b r).2
  let w := (wr.map no).dedup
  let r := ((rd.map no).dedup).filter fun n => !w.contains n
  let q := s.askBus (r.filter fun n => n / 4 != b) all
  let cv := s.gang.cv
  let chain := elem && (lookupD {} b s.iss.sweeps).chained
  q.1.modDev fun d => d.modBank s.iss.core b fun k =>
    let o := if chain then k.follows cv else none
    { k with segs := k.segs ++ [{ cv := cv, pos := s.wordPlace, n := k.nextPlace, rd := r, wr := w, elem := elem, chain := chain
                                  time := max time (o.elim 0 VecSeg.time), along := o.elim [] fun o => o.rd ++ o.wr ++ o.along
                                  store := store, reqs := q.2 }] }

/-! ### Results (R125, R155, R159) -/

/-- The poison bits of a latch after elements of a width are written: a sector that they cover whole is clean (R125). -/
def clearPoison (p : BitVec 128) (n : Nat) (written : List Nat) : BitVec 128 :=
  if p = 0 then p
  else (List.range 128).foldl (fun p k =>
    if p.getLsbD k && (List.range (512 / n)).all (fun j => written.contains (k * (512 / n) + j))
    then p &&& ~~~ (1#128 <<< k) else p) p
namespace State

/-- New data in a hart's latch, with the elements of a width that were written. -/
def putLatch (s : State) (b : Nat) (g : Lat) (n : Nat) (written : List Nat) (data : Nat) : State :=
  s.modDev fun d =>
    let l := d.latch s.iss.core b g
    d.setLatch s.iss.core b g { l with data := BitVec.ofNat 65536 data, poison := clearPoison l.poison n written }
/-- SEED advanced after a word that rounds stochastically (R155). -/
def stepSeed (s : State) (b : Nat) (rounds : Bool) : State :=
  let c := s.lanes b
  if rounds && c.rm == .sr then s.modHart b fun t => { t with fpc := withSeed t.fpc (nextSeed c.seed) } else s

end State

/-- Elements written one by one into a latch's data, with the flags of the active ones. -/
def sweepInto (n : Nat) (data : Nat) (is : List Nat) (f : Nat → Nat × Flags) : Nat × Flags :=
  is.foldl (fun acc i => let r := f i; (putElem n acc.1 i r.1, acc.2 ||| r.2)) (data, fl0)
/-- A lane word with a latch source: its part on each hart, while its remote sources read the latches that it found (R185). -/
def perLane (body : Nat → State → HRes) (run : List Nat) (s : State) : State :=
  let view := (List.range s.gang.size).map fun k =>
    (s.iss.base + k, (s.dev.bank s.iss.core (s.iss.base + k)).groups.map Group.latch)
  let t := perHart body run { s with iss := { s.iss with view := view, bus := none } }
  { t with iss := { t.iss with view := [], bus := none } }
/-- The result of a word that writes a latch on one hart: its checks, its flags, its destination and its segment. -/
def latchWord (chain : Bool) (b : Nat) (d : Lat) (n time : Nat) (bad : Bool) (uses : List LatUse) (part : Option Nat) (rounds : Bool)
    (written : List Nat) (f : Nat → Nat × Flags) (s : State) (all : Bool := false) : HRes :=
  match s.laneCheck b bad uses part with
  | some e => .fail e
  | none =>
    let r := sweepInto n (s.latData b (.own d)) written f
    let c := s.lanes b
    if c.lqt && r.2 &&& flLQO != 0 then .fail { cause := 0x07, tval := s.iss.addr }
    else withFlags b r.2 s fun s =>
      ((s.stepSeed b rounds).putLatch b d n written r.1).pushSeg b (uses.map LatUse.ref) [.own d] chain time all
/-- The result of an element-wise word, whose segment chains (R189). -/
abbrev elemWord (b : Nat) (d : Lat) (n time : Nat) (bad : Bool) (uses : List LatUse) (part : Option Nat) (rounds : Bool)
    (written : List Nat) (f : Nat → Nat × Flags) (s : State) : HRes :=
  latchWord true b d n time bad uses part rounds written f s
/-- The result of a whole-row word, a segment of its own (R189). -/
abbrev rowWord (b : Nat) (d : Lat) (n time : Nat) (bad : Bool) (uses : List LatUse) (part : Option Nat) (rounds : Bool)
    (written : List Nat) (f : Nat → Nat × Flags) (s : State) : HRes :=
  latchWord false b d n time bad uses part rounds written f s

end Sys2Proof.Machine
end

