-- ==== Sys2Proof/Machine/LaneInt.lean ====
section
/-! DEFINITION. SETVL, SETVT and the integer element-wise words (R71, R178, R191, R192). -/

namespace Sys2Proof.Machine

/-! ### SETVL and SETVT (R191) -/

/-- The zero-fill of the invalid latches of a hart (R71, R191). -/
def State.zeroFill (s : State) (b : Nat) : State :=
  (List.finRange 4).foldl (fun s g =>
    if (s.latch b g).valid then s else s.modDev fun d => d.setLatch s.iss.core b g { valid := true }) s
/-- SETVL on one hart (R191). -/
def setvlOn (d : XReg) (n : Src) (b : Nat) (s : State) : HRes :=
  let c := s.lanes b
  let g := BitVec.ofNat 64 (grant c.fmt c.bl c.ssr (s.src b n).toNat)
  .ok ((writeReg b (.x d) g none ((s.modHart b fun t => { t with vl := g.extractLsb' 0 16 }).zeroFill b)).pushSeg b [] [] false 1)
/-- SETVL (R191). -/
def execSetvl (h : Hdr) (d : XReg) (n : Src) (s : State) : Out :=
  wordOp h { rd := srcRegs n, wr := [.x d], latch := (List.finRange 4).map .own, seg := fun _ => .whole 1 }
    (perHart (setvlOn d n)) s
/-- A value that SETVT accepts (R176, R191). -/
def vtLegal (v : Word) : Bool :=
  v.toNat < 2 ^ 16 && (v.extractLsb' 4 3).toNat ≤ 4 && (v.extractLsb' 7 3).toNat ≤ 4 && (v.extractLsb' 11 3).toNat ≤ 4
/-- VT and VL of a hart after SETVT (R191). -/
def withVt (t : Hart) (v : Word) : Hart :=
  let t := { t with vt := v.extractLsb' 0 16 }
  let c := laneCfg t
  { t with vl := BitVec.ofNat 16 (grant c.fmt c.bl c.ssr c.vl) }
/-- SETVT on one hart (R191). -/
def setvtOn (d : XReg) (v : Src) (b : Nat) (s : State) : HRes :=
  let a := s.src b v
  if !vtLegal a then .fail { cause := 0x04, tval := a }
  else .ok ((writeReg b (.x d) ((s.hart b).vt.zeroExtend 64) none (s.modHart b fun t => withVt t a)).pushSeg b [] [] false 1)
/-- VT as a SETVT leaves it, for the sweep cost of the words after it (R190). -/
def setvtVt (s : State) (b : Nat) (v : Src) : BitVec 16 :=
  if vtLegal (s.src b v) then (s.src b v).extractLsb' 0 16 else (s.hart b).vt
/-- SETVT (R191). -/
def execSetvt (h : Hdr) (d : XReg) (v : Src) (s : State) : Out :=
  wordOp h { rd := srcRegs v, wr := [.x d], seg := fun _ => .whole 1, vt := some fun s b => setvtVt s b v }
    (perHart (setvtOn d v)) s

/-! ### Integer element-wise words (R192) -/

/-- An element-wise word on one hart: its result on element i from the patterns of a, b and the old destination. -/
def laneElem (m : MaskMod) (d : Lat) (a b : LOp) (readD : Bool) (p : VFmt → Nat) (ok : VFmt → Bool) (rounds : Bool)
    (f : LaneCfg → Nat → Nat → Nat → Nat → Nat × Flags) (k : Nat) (s : State) : HRes :=
  let c := s.lanes k
  let act := actives (s.hart k) m c.fmt
  let va := s.lop k c.fmt a
  let vb := s.lop k c.fmt b
  let n := c.fmt.bits
  let old := s.latData k (.own d)
  elemWord k d n (p c.fmt * c.groups) (s.badFmt c ok)
    (lopUses c.fmt act a ++ lopUses c.fmt act b
      ++ [{ ref := .own d, fmt := c.fmt, read := if readD then sectorsOf n act else [] }])
    none rounds act (fun i => f c i (va i) (vb i) (elemOf n old i)) s
/-- The latches of a lane word with a destination and two sources. -/
def laneLats (d : Lat) (a b : LOp) : List LatRef := .own d :: lopLats a ++ lopLats b
/-- A two-source element-wise word. -/
def laneWord (h : Hdr) (m : MaskMod) (d : Lat) (a b : LOp) (readD : Bool) (p : VFmt → Nat) (ok : VFmt → Bool)
    (rounds : Bool) (f : LaneCfg → Nat → Nat → Nat → Nat → Nat × Flags) (s : State) : Out :=
  wordOp h (elemUse (lopRegs a ++ lopRegs b) (laneLats d a b) p) (perLane (laneElem m d a b readD p ok rounds f)) s
/-- An integer element-wise word, from the values of a, b and D[i] (R192). -/
def intWord (h : Hdr) (m : MaskMod) (d : Lat) (a b : LOp) (readD : Bool) (p : VFmt → Nat)
    (f : LaneCfg → Int → Int → Int → Nat × Flags) (s : State) : Out :=
  laneWord h m d a b readD p VFmt.isInt false
    (fun c _ x y z => f c (c.fmt.int x) (c.fmt.int y) (c.fmt.int z)) s

/-- One pass. -/
def pass1 : VFmt → Nat := fun _ => 1
/-- Passes of a multiplication (R189). -/
def mulPass : VFmt → Nat
  | .i32 | .n32 => 2
  | .i64 => 4
  | _ => 1
/-- Nar of R192. -/
def LaneCfg.nar (c : LaneCfg) (v : Int) : Nat × Flags := c.fmt.nar c.sat v
/-- A result that fits the format (R192). -/
def LaneCfg.exact (c : LaneCfg) (v : Int) : Nat × Flags := (wrapTo c.fmt.bits v, fl0)
/-- A pattern as natural bits of the format. -/
def LaneCfg.nat (c : LaneCfg) (v : Int) : Nat := wrapTo c.fmt.bits v

/-- VADD (R192). -/
def execVadd (h : Hdr) (m : MaskMod) (d : Lat) (a b : LOp) (s : State) : Out :=
  intWord h m d a b false pass1 (fun c x y _ => c.nar (x + y)) s
/-- VSUB (R192). -/
def execVsub (h : Hdr) (m : MaskMod) (d : Lat) (a b : LOp) (s : State) : Out :=
  intWord h m d a b false pass1 (fun c x y _ => c.nar (x - y)) s
/-- VMUL (R192). -/
def execVmul (h : Hdr) (m : MaskMod) (d : Lat) (a b : LOp) (s : State) : Out :=
  intWord h m d a b false mulPass (fun c x y _ => c.nar (x * y)) s
/-- VMULH (R192). -/
def execVmulh (h : Hdr) (m : MaskMod) (d : Lat) (a b : LOp) (s : State) : Out :=
  intWord h m d a b false mulPass (fun c x y _ => c.exact (x * y / 2 ^ c.fmt.bits)) s
/-- VMAD (R192). -/
def execVmad (h : Hdr) (m : MaskMod) (d : Lat) (a b : LOp) (s : State) : Out :=
  intWord h m d a b true mulPass (fun c x y z => c.nar (z + x * y)) s
/-- VMIN (R192). -/
def execVmin (h : Hdr) (m : MaskMod) (d : Lat) (a b : LOp) (s : State) : Out :=
  intWord h m d a b false pass1 (fun c x y _ => c.exact (min x y)) s
/-- VMAX (R192). -/
def execVmax (h : Hdr) (m : MaskMod) (d : Lat) (a b : LOp) (s : State) : Out :=
  intWord h m d a b false pass1 (fun c x y _ => c.exact (max x y)) s
/-- VABS (R192). -/
def execVabs (h : Hdr) (m : MaskMod) (d : Lat) (a : LOp) (s : State) : Out :=
  intWord h m d a a false pass1 (fun c x _ _ => c.nar x.natAbs) s
/-- VNEG (R192). -/
def execVneg (h : Hdr) (m : MaskMod) (d : Lat) (a : LOp) (s : State) : Out :=
  intWord h m d a a false pass1 (fun c x _ _ => c.nar (-x)) s
/-- VAND (R192). -/
def execVand (h : Hdr) (m : MaskMod) (d : Lat) (a b : LOp) (s : State) : Out :=
  intWord h m d a b false pass1 (fun c x y _ => (c.nat x &&& c.nat y, fl0)) s
/-- VOR (R192). -/
def execVor (h : Hdr) (m : MaskMod) (d : Lat) (a b : LOp) (s : State) : Out :=
  intWord h m d a b false pass1 (fun c x y _ => (c.nat x ||| c.nat y, fl0)) s
/-- VXOR (R192). -/
def execVxor (h : Hdr) (m : MaskMod) (d : Lat) (a b : LOp) (s : State) : Out :=
  intWord h m d a b false pass1 (fun c x y _ => (c.nat x ^^^ c.nat y, fl0)) s
/-- VNOT (R192). -/
def execVnot (h : Hdr) (m : MaskMod) (d : Lat) (a : LOp) (s : State) : Out :=
  intWord h m d a a false pass1 (fun c x _ _ => c.exact (-x - 1)) s
/-- The shift count of a lane shift (R192). -/
def LaneCfg.sh (c : LaneCfg) (y : Int) : Nat := c.nat y % c.fmt.bits
/-- VSHL (R192). -/
def execVshl (h : Hdr) (m : MaskMod) (d : Lat) (a b : LOp) (s : State) : Out :=
  intWord h m d a b false pass1 (fun c x y _ => c.nar (x * 2 ^ c.sh y)) s
/-- VSHR (R192). -/
def execVshr (h : Hdr) (m : MaskMod) (d : Lat) (a b : LOp) (s : State) : Out :=
  intWord h m d a b false pass1 (fun c x y _ => (c.nat x / 2 ^ c.sh y, fl0)) s
/-- VSAR (R192). -/
def execVsar (h : Hdr) (m : MaskMod) (d : Lat) (a b : LOp) (s : State) : Out :=
  intWord h m d a b false pass1 (fun c x y _ => c.exact (sintOf c.fmt.bits (c.nat x) / 2 ^ c.sh y)) s
/-- VSADD (R192). -/
def execVsadd (h : Hdr) (m : MaskMod) (d : Lat) (a b : LOp) (s : State) : Out :=
  intWord h m d a b false pass1 (fun c x y _ => c.fmt.satTo (x + y)) s
/-- VSSUB (R192). -/
def execVssub (h : Hdr) (m : MaskMod) (d : Lat) (a b : LOp) (s : State) : Out :=
  intWord h m d a b false pass1 (fun c x y _ => c.fmt.satTo (x - y)) s
/-- VAVG (R192). -/
def execVavg (h : Hdr) (m : MaskMod) (d : Lat) (a b : LOp) (s : State) : Out :=
  intWord h m d a b false pass1 (fun c x y _ => c.exact ((x + y + 1) / 2)) s
/-- VCLZ (R192). -/
def execVclz (h : Hdr) (m : MaskMod) (d : Lat) (a : LOp) (s : State) : Out :=
  intWord h m d a a false pass1 (fun c x _ _ =>
    (if c.nat x = 0 then c.fmt.bits else c.fmt.bits - 1 - Nat.log2 (c.nat x), fl0)) s
/-- VPOPC (R192). -/
def execVpopc (h : Hdr) (m : MaskMod) (d : Lat) (a : LOp) (s : State) : Out :=
  intWord h m d a a false pass1 (fun c x _ _ =>
    (((List.range c.fmt.bits).filter fun k => nbit (c.nat x) k).length, fl0)) s

end Sys2Proof.Machine
end

