-- ==== Sys2Proof/Machine/LaneFp.lean ====
section
/-! DEFINITION. The floating-point element-wise words, the comparisons and the mask words (R156, R180, R193 to R196). -/

namespace Sys2Proof.Machine

/-! ### Floating-point element-wise words (R193) -/

/-- The formats of lane floating point. -/
def VFmt.isFloat : VFmt → Bool
  | .f32 | .bf16 | .f16 => true
  | _ => false
/-- The floating-point format of a lane configuration that passed its check. -/
def LaneCfg.ff (c : LaneCfg) : FF := c.fmt.ff?.getD .f32
/-- An input element, flushed (R156, R193). -/
def LaneCfg.inNum (c : LaneCfg) (x : Nat) : Num := flushIn c.flush c.ff (c.ff.decode x)
/-- An exact result rounded and flushed, with flags raised before (R193). -/
def LaneCfg.outNum (c : LaneCfg) (i : Nat) (v : Ex × Flags) : Nat × Flags :=
  let r := flushOut c.flush c.ff c.ff 0 (roundTo v.1 c.ff c.rm c.sat (c.h i))
  (r.1, v.2 ||| r.2)
/-- A rounded word on the numbers of a, b and D[i]. -/
def fpLane (h : Hdr) (m : MaskMod) (d : Lat) (a b : LOp) (readD : Bool) (p : Nat)
    (f : LaneCfg → Num → Num → Num → Ex × Flags) (s : State) : Out :=
  laneWord h m d a b readD (fun _ => p) VFmt.isFloat true
    (fun c i x y z => c.outNum i (f c (c.inNum x) (c.inNum y) (c.inNum z))) s
/-- A word on patterns that does not round (R193). -/
def bitLane (h : Hdr) (m : MaskMod) (d : Lat) (a b : LOp) (f : LaneCfg → Nat → Nat → Nat × Flags) (s : State) : Out :=
  laneWord h m d a b false pass1 VFmt.isFloat false (fun c _ x y _ => f c x y) s

/-- VFADD (R193). -/
def execVfadd (h : Hdr) (m : MaskMod) (d : Lat) (a b : LOp) (s : State) : Out :=
  fpLane h m d a b false 1 (fun c x y _ => sumNum [x, y] (c.rm == .rdn)) s
/-- VFSUB (R193). -/
def execVfsub (h : Hdr) (m : MaskMod) (d : Lat) (a b : LOp) (s : State) : Out :=
  fpLane h m d a b false 1 (fun c x y _ => sumNum [x, y.negate] (c.rm == .rdn)) s
/-- VFMUL (R193). -/
def execVfmul (h : Hdr) (m : MaskMod) (d : Lat) (a b : LOp) (s : State) : Out :=
  fpLane h m d a b false 1 (fun _ x y _ => let r := mulNum x y; (r.1.ex, r.2)) s
/-- VFMA (R193). -/
def execVfma (h : Hdr) (m : MaskMod) (np na : Bool) (d : Lat) (a b : LOp) (s : State) : Out :=
  fpLane h m d a b true 1 (fun c x y z => fmaNum x y z np na (c.rm == .rdn)) s
/-- VFDIV (R193). -/
def execVfdiv (h : Hdr) (m : MaskMod) (d : Lat) (a b : LOp) (s : State) : Out :=
  fpLane h m d a b false 4 (fun _ x y _ => divNum x y) s
/-- VFSQRT (R193). -/
def execVfsqrt (h : Hdr) (m : MaskMod) (d : Lat) (a : LOp) (s : State) : Out :=
  fpLane h m d a a false 4 (fun _ x _ _ => sqrtNum x) s
/-- VFRCP (R193). -/
def execVfrcp (h : Hdr) (m : MaskMod) (d : Lat) (a : LOp) (s : State) : Out :=
  fpLane h m d a a false 2 (fun _ x _ _ => divNum (.fin false 1 0) x) s
/-- VFMIN or VFMAX on patterns, with its inputs and its result flushed (R104, R156, R193). -/
def laneMinMax (wantMax : Bool) (c : LaneCfg) (x y : Nat) : Nat × Flags :=
  flushOut c.flush c.ff c.ff 0 (minMaxBits c.ff wantMax (flushBits c.flush c.ff x) (flushBits c.flush c.ff y))
/-- VFMIN (R193). -/
def execVfmin (h : Hdr) (m : MaskMod) (d : Lat) (a b : LOp) (s : State) : Out := bitLane h m d a b (laneMinMax false) s
/-- VFMAX (R193). -/
def execVfmax (h : Hdr) (m : MaskMod) (d : Lat) (a b : LOp) (s : State) : Out := bitLane h m d a b (laneMinMax true) s
/-- VFABS (R193). -/
def execVfabs (h : Hdr) (m : MaskMod) (d : Lat) (a : LOp) (s : State) : Out :=
  bitLane h m d a a (fun c x _ => (x % 2 ^ (c.fmt.bits - 1), fl0)) s
/-- VFNEG (R193). -/
def execVfneg (h : Hdr) (m : MaskMod) (d : Lat) (a : LOp) (s : State) : Out :=
  bitLane h m d a a (fun c x _ => (x ^^^ 2 ^ (c.fmt.bits - 1), fl0)) s

/-! ### Comparisons (R194) -/

/-- One bit of a mask set to a value. -/
def putBit (v : LaneMask) (i : Nat) (on : Bool) : LaneMask :=
  if on then v ||| (1#8192 <<< i) else v &&& ~~~ (1#8192 <<< i)
/-- A mask of a hart replaced. -/
def State.putMask (s : State) (b : Nat) (d : Msk) (v : LaneMask) : State :=
  s.modHart b fun t => { t with masks := t.masks.set d.val v }
/-- A comparison on one hart: a bit and flags for each active element (R194). -/
def laneCmp (m : MaskMod) (d : Msk) (a b : LOp) (ok : VFmt → Bool) (f : LaneCfg → Nat → Nat → Bool × Flags) (k : Nat)
    (s : State) : HRes :=
  let c := s.lanes k
  let act := actives (s.hart k) m c.fmt
  let va := s.lop k c.fmt a
  let vb := s.lop k c.fmt b
  match s.laneCheck k (s.badFmt c ok) (lopUses c.fmt act a ++ lopUses c.fmt act b) none with
  | some e => .fail e
  | none =>
    let r := act.foldl (fun (acc : LaneMask × Flags) i =>
      let x := f c (va i) (vb i)
      (putBit acc.1 i x.1, acc.2 ||| x.2)) ((s.hart k).masks[d.val], fl0)
    withFlags k r.2 s fun s => (s.putMask k d r.1).pushSeg k (lopLats a ++ lopLats b) [] true c.groups
/-- The conditions of VCMP (R194). -/
def vcondInt : VCond → Int → Int → Bool
  | .eq, x, y => x == y
  | .ne, x, y => x != y
  | .lt, x, y => x < y
  | .ge, x, y => y ≤ x
  | .le, x, y => x ≤ y
  | .gt, x, y => y < x
/-- VCMP (R194). -/
def execVcmp (h : Hdr) (m : MaskMod) (cond : VCond) (d : Msk) (a b : LOp) (s : State) : Out :=
  wordOp h (elemUse (lopRegs a ++ lopRegs b) (lopLats a ++ lopLats b))
    (perLane (laneCmp m d a b VFmt.isInt fun c x y => (vcondInt cond (c.fmt.int x) (c.fmt.int y), fl0))) s
/-- VFCMP (R105, R194). -/
def execVfcmp (h : Hdr) (m : MaskMod) (cond : FCond) (d : Msk) (a b : LOp) (s : State) : Out :=
  wordOp h (elemUse (lopRegs a ++ lopRegs b) (lopLats a ++ lopLats b))
    (perLane (laneCmp m d a b VFmt.isFloat fun c x y => fcondNum cond (c.inNum x) (c.inNum y))) s

/-! ### Mask words (R195) -/

/-- ML (R180). -/
def maskLen (c : LaneCfg) : Nat := (c.vl + c.fmt.q - 1) / c.fmt.q
/-- The mask of the low n bits. -/
def lowMask (n : Nat) : LaneMask := BitVec.ofNat 8192 (2 ^ n - 1)
/-- A mask word needs a legal format, and in reduced service a narrow one (R195, R419). -/
def maskBad (s : State) (c : LaneCfg) : Bool := c.fmt == .illegal || s.wide c.fmt.bits
/-- A mask word that writes the bits below ML of a mask. -/
def maskOp (d : Msk) (f : Hart → LaneMask) (k : Nat) (s : State) : HRes :=
  let c := s.lanes k
  if maskBad s c then .fail { cause := 0x04, tval := s.iss.addr }
  else
    let low := lowMask (maskLen c)
    let t := s.hart k
    .ok ((s.putMask k d ((t.masks[d.val] &&& ~~~ low) ||| (f t &&& low))).pushSeg k [] [] false 1)
/-- What a mask word costs (R189). -/
def maskUse : Uses := { seg := fun _ => .whole 1 }
/-- MAND (R195). -/
def execMand (h : Hdr) (d a b : Msk) (s : State) : Out :=
  wordOp h maskUse (perHart (maskOp d fun t => t.masks[a.val] &&& t.masks[b.val])) s
/-- MOR (R195). -/
def execMor (h : Hdr) (d a b : Msk) (s : State) : Out :=
  wordOp h maskUse (perHart (maskOp d fun t => t.masks[a.val] ||| t.masks[b.val])) s
/-- MXOR (R195). -/
def execMxor (h : Hdr) (d a b : Msk) (s : State) : Out :=
  wordOp h maskUse (perHart (maskOp d fun t => t.masks[a.val] ^^^ t.masks[b.val])) s
/-- MNOT (R195). -/
def execMnot (h : Hdr) (d a : Msk) (s : State) : Out :=
  wordOp h maskUse (perHart (maskOp d fun t => ~~~ t.masks[a.val])) s
/-- The bits below ML that a mask word counts (R195). -/
def countedBits (t : Hart) (m : MaskMod) (a : Msk) : List Nat :=
  (List.range (maskLen (laneCfg t))).filter fun j =>
    t.masks[a.val].getLsbD j && (!m.me || t.masks[m.mi.val].getLsbD j != m.mn)
/-- A mask word that writes a count or an index. -/
def maskCount (d : XReg) (f : Hart → Word) (k : Nat) (s : State) : HRes :=
  if maskBad s (s.lanes k) then .fail { cause := 0x04, tval := s.iss.addr }
  else .ok ((writeReg k (.x d) (f (s.hart k)) none s).pushSeg k [] [] false 1)
/-- MPOPC (R195). -/
def execMpopc (h : Hdr) (m : MaskMod) (d : XReg) (a : Msk) (s : State) : Out :=
  wordOp h { maskUse with wr := [.x d] }
    (perHart (maskCount d fun t => BitVec.ofNat 64 (countedBits t m a).length)) s
/-- MFIRST (R195). -/
def execMfirst (h : Hdr) (m : MaskMod) (d : XReg) (a : Msk) (s : State) : Out :=
  wordOp h { maskUse with wr := [.x d] }
    (perHart (maskCount d fun t => match countedBits t m a with
      | [] => BitVec.allOnes 64
      | j :: _ => BitVec.ofNat 64 j)) s

end Sys2Proof.Machine
end

