-- ==== Sys2Proof/Machine/LaneConv.lean ====
section
/-! DEFINITION. VSEL and the conversions: VCVT, the block quantiser and the lattice quantiser with their inverses (R161 to
R171, R196 to R200). -/

namespace Sys2Proof.Machine

/-! ### VSEL (R196) -/

/-- VSEL on one hart (R196). -/
def vselOn (m : MaskMod) (d : Lat) (a b : LOp) (k : Nat) (s : State) : HRes :=
  let c := s.lanes k
  let t := s.hart k
  let us := List.range (c.vl / c.fmt.per)
  let bits (u : Nat) : List Bool := (List.range c.fmt.per).map fun j => maskBit t m c.fmt.q (u * c.fmt.per + j)
  let pick (u : Nat) : Bool := (bits u).all id
  let va := s.lop k c.fmt a
  let vb := s.lop k c.fmt b
  elemWord k d c.fmt.unit c.groups (s.badFmt c fun _ => true)
    (lopUses c.fmt (us.filter pick) a ++ lopUses c.fmt (us.filter (!pick ·)) b ++ [{ ref := .own d, fmt := c.fmt }])
    (us.find? fun u => (bits u).any id && !(bits u).all id) false us
    (fun u => (if pick u then va u else vb u, fl0)) s
/-- VSEL (R196). -/
def execVsel (h : Hdr) (m : MaskMod) (d : Lat) (a b : LOp) (s : State) : Out :=
  wordOp h (elemUse (lopRegs a ++ lopRegs b) (laneLats d a b)) (perLane (vselOn m d a b)) s

/-! ### VCVT (R197, R198) -/

/-- The lane format of a VCVT source. -/
def cvtVfmt : CvtFmt → VFmt
  | .i8 => .i8 | .n8 => .n8 | .i16 => .i16 | .n16 => .n16 | .i32 => .i32 | .n32 => .n32 | .i64 => .i64 | .f32 => .f32
  | .bf16 => .bf16 | .f16 => .f16 | .e4m3 => .e4m3 | .e5m2 => .e5m2
/-- One element converted: source pattern, destination index (R198). -/
def cvtElem (c : LaneCfg) (sty : VFmt) (x i : Nat) : Nat × Flags :=
  match sty.ff?, c.fmt.ff? with
  | some f, some g =>
    let v := flushIn c.flush f (f.decode x)
    let r := flushOut c.flush g g 0 (roundTo v.ex g c.rm c.sat (c.h i))
    (r.1, v.snanFlag ||| r.2)
  | some f, none =>
    let r := toInt (flushIn c.flush f (f.decode x)) c.fmt.lo c.fmt.hi c.rm (c.h i)
    (wrapTo c.fmt.bits r.1, r.2)
  | none, some g => flushOut c.flush g g 0 (roundTo (intNum (sty.int x)).ex g c.rm c.sat (c.h i))
  | none, none => c.nar (sty.int x)
/-- The groups of the sweep of a VCVT: the wide side, and the narrow one up to the end of its part (R189, R197). -/
def cvtGroups (sty : VFmt) (part : Nat) (c : LaneCfg) : Nat :=
  let n := min sty.bits c.fmt.bits
  let w := max sty.bits c.fmt.bits
  groupsOf (max ((c.vl * w + 7) / 8) (((part + 1) * c.vl * n + 7) / 8))
/-- VCVT on one hart (R198). Between integer formats it does not round, and SEED stays: the model's choice (log 36). A conversion in
place between widths (D = A) reads its whole source before it writes a result: R183 orders the read and the write of one element
only, DESIGN CHOICE (log 63). -/
def vcvtOn (m : MaskMod) (sty : VFmt) (part : Nat) (d : Lat) (a : LatRef) (k : Nat) (s : State) : HRes :=
  let c := s.lanes k
  let t := s.hart k
  let sb := sty.bits
  let db := c.fmt.bits
  let off := part * c.vl
  let so := if sb < db then off else 0
  let dof := if db < sb then off else 0
  let bad := 11 < c.fmt.code || c.bl != 0 || (sb == db && part != 0) || 65536 / max sb db < c.vl
    || 65536 / min sb db < (part + 1) * c.vl || s.wide (max sb db)
  let act := (List.range c.vl).filter fun i => maskOn t m c.fmt.q (i + dof)
  let src := s.latData k a
  elemWord k d db (cvtGroups sty part c) bad
    [{ ref := a, fmt := sty, read := sectorsOf sb (act.map (· + so)) }, { ref := .own d, fmt := c.fmt }]
    none (sty.ff?.isSome || c.fmt.ff?.isSome) (act.map (· + dof))
    (fun j => cvtElem c sty (elemOf sb src (j - dof + so)) j) s
/-- VCVT (R198). -/
def execVcvt (h : Hdr) (m : MaskMod) (sty : CvtFmt) (part : BitVec 3) (d : Lat) (a : LatRef) (s : State) : Out :=
  wordOp h (elemUse [] [.own d, a] (g := cvtGroups (cvtVfmt sty) part.toNat)) (perLane (vcvtOn m (cvtVfmt sty) part.toNat d a)) s

/-! ### Block and lattice conversions (R161 to R171, R199, R200) -/

/-- The lane format of a wide format. -/
def wideVfmt : WideFmt → VFmt
  | .f32 => .f32 | .bf16 => .bf16 | .f16 => .f16
/-- The floating-point format of a wide format. -/
def wideFF : WideFmt → FF
  | .f32 => .f32 | .bf16 => .bf16 | .f16 => .f16
/-- The operands of a scaled conversion. -/
structure Scaled where
  wf : WideFmt
  seg : Nat
  part : Nat
deriving DecidableEq, Repr
/-- The range checks of a scaled conversion (R162, R197, R199, R200). -/
def Scaled.bad (x : Scaled) (s : State) (c : LaneCfg) (lq : Bool) : Bool :=
  let okFmt := if lq then c.fmt.isLq && c.bl == 32
    else (c.fmt == .e4m3 || c.fmt == .e5m2 || c.fmt == .e2m1) && c.bl != 0
  !okFmt || 2 ^ c.ssr ≤ x.seg || x.part * c.vl % c.bl != 0 || (wideVfmt x.wf).perLatch < c.vl
    || c.fmt.perLatch < (x.part + 1) * c.vl || 8192 / 2 ^ c.ssr < ((x.part + 1) * c.vl + c.bl - 1) / c.bl
    || s.wide (wideVfmt x.wf).bits
/-- The scale byte of element j (R162). -/
def Scaled.byteAt (x : Scaled) (c : LaneCfg) (j : Nat) : Nat := x.seg * (8192 / 2 ^ c.ssr) + j / c.bl
/-- The groups of the sweep of a scaled conversion: the wide latch, the scaled one up to the end of its part, and the scale
latch up to the last scale byte (R189). -/
def Scaled.groups (x : Scaled) (c : LaneCfg) : Nat :=
  groupsOf (max (max ((c.vl * (wideVfmt x.wf).bits + 7) / 8) (((x.part + 1) * c.vl * c.fmt.bits + 7) / 8))
    (x.byteAt c ((x.part + 1) * c.vl - 1) + 1))

/-- What a quantiser has written so far: data, scales, flags. -/
structure Quant where
  data : Nat
  scale : Nat
  fl : Flags
/-- One block quantised to a floating-point format (R163, R199): `v j` is the flushed input of element j, zero beyond the
last. -/
def mxBlock (x : Scaled) (c : LaneCfg) (v : Nat → Num) (hi : Nat) (q : Quant) (blk : Nat) : Quant :=
  let js := (List.range c.bl).map (blk * c.bl + ·)
  let e := blockScale c.fmt.emaxOf (js.map v)
  let q := { q with scale := putElem 8 q.scale (x.seg * (8192 / 2 ^ c.ssr) + blk) e.1, fl := q.fl ||| e.2 }
  (js.filter (· < hi)).foldl (fun q j =>
    if e.1 = 0xFF then { q with data := putElem c.fmt.bits q.data j 0 }
    else
      let k : Int := (e.1 : Int) - 127
      let f := c.fmt.ff?.getD .e4m3
      let r := roundTo ((v j).scale (-k)).ex f c.rm true (c.h j)
      let r := flushOut c.flush f .f32 k (r.1, r.2 &&& ~~~ flOF)
      { q with data := putElem c.fmt.bits q.data j r.1, fl := q.fl ||| r.2 }) q
/-- One block quantised to lattice points (R167 to R170, R200). The inputs are flushed, and a point that it stores is not: R156 can be
read to flush it as a result, which R167 and R200 do not do, DEDUCED (log 65). -/
def lqBlock (x : Scaled) (c : LaneCfg) (v : Nat → Num) (hi : Nat) (q : Quant) (blk : Nat) : Quant :=
  let j0 := blk * c.bl
  let e := blockScale c.fmt.emaxOf ((List.range c.bl).map fun i => v (j0 + i))
  let q := { q with scale := putElem 8 q.scale (x.seg * (8192 / 2 ^ c.ssr) + blk) e.1, fl := q.fl ||| e.2 }
  ((List.range (c.bl / 8)).filter fun p => j0 + 8 * p < hi).foldl (fun q p =>
    let k : Int := (e.1 : Int) - 127
    let r := if e.1 = 0xFF then (0, fl0)
      else lqQuantise c.fmt ((List.range 8).map fun i => (v (j0 + 8 * p + i)).scale (-k))
    { q with data := putElem c.fmt.unit q.data (blk * (c.bl / 8) + p) r.1, fl := q.fl ||| r.2 }) q
/-- A quantiser on one hart (R199, R200). VLQQ rounds to nearest whatever the mode, and SEED stays: the model's choice
(log 36). -/
def quantOn (lq : Bool) (x : Scaled) (d : Lat) (a : LatRef) (b : Lat) (k : Nat) (s : State) : HRes :=
  let c := s.lanes k
  let w := wideVfmt x.wf
  let lo := x.part * c.vl
  let hi := lo + c.vl
  match s.laneCheck k (x.bad s c lq)
      [{ ref := a, fmt := w, read := sectorsOf w.bits (List.range c.vl) }, { ref := .own d, fmt := c.fmt },
       { ref := .own b, fmt := .n8 }] none with
  | some e => .fail e
  | none =>
    let src := s.latData k a
    let v (j : Nat) : Num :=
      if lo ≤ j && j < hi then flushIn c.flush (wideFF x.wf) ((wideFF x.wf).decode (elemOf w.bits src (j - lo)))
      else .fin false 0 0
    let blks := (List.range ((hi + c.bl - 1) / c.bl - lo / c.bl)).map (lo / c.bl + ·)
    let blks := if c.vl = 0 then [] else blks
    let q := blks.foldl ((if lq then lqBlock else mxBlock) x c v hi)
      { data := s.latData k (.own d), scale := s.latData k (.own b), fl := fl0 }
    if lq && c.lqt && q.fl &&& flLQO != 0 then .fail { cause := 0x07, tval := s.iss.addr }
    else withFlags k q.fl s fun s =>
      let n := if lq then c.fmt.unit else c.fmt.bits
      let per := if lq then 8 else 1
      let s := (s.stepSeed k (!lq)).putLatch k d n ((List.range (c.vl / per)).map (lo / per + ·)) q.data
      let s := s.putLatch k b 8 (blks.map (x.seg * (8192 / 2 ^ c.ssr) + ·)) q.scale
      s.pushSeg k [a] [.own d, .own b] true (2 * x.groups c)
/-- VMXQ (R199). -/
def execVmxq (h : Hdr) (wf : WideFmt) (seg part : BitVec 4) (d : Lat) (a : LatRef) (b : Lat) (s : State) : Out :=
  wordOp h (elemUse [] [.own d, a, .own b] (fun _ => 2) (Scaled.groups { wf := wf, seg := seg.toNat, part := part.toNat }))
    (perLane (quantOn false { wf := wf, seg := seg.toNat, part := part.toNat } d a b)) s
/-- VLQQ (R200). -/
def execVlqq (h : Hdr) (wf : WideFmt) (seg part : BitVec 4) (d : Lat) (a : LatRef) (b : Lat) (s : State) : Out :=
  wordOp h (elemUse [] [.own d, a, .own b] (fun _ => 2) (Scaled.groups { wf := wf, seg := seg.toNat, part := part.toNat }))
    (perLane (quantOn true { wf := wf, seg := seg.toNat, part := part.toNat } d a b)) s

/-- An inverse on one hart (R199, R200): each element with its scale, flushed, rounded to the wide format. -/
def dequantOn (lq : Bool) (x : Scaled) (d : Lat) (a : LatRef) (b : Lat) (k : Nat) (s : State) : HRes :=
  let c := s.lanes k
  let w := wideVfmt x.wf
  let g := wideFF x.wf
  let lo := x.part * c.vl
  let js := (List.range c.vl).map (lo + ·)
  let data := s.latData k a
  let scales := s.latData k (.own b)
  elemWord k d w.bits (x.groups c) (x.bad s c lq)
    [{ ref := a, fmt := c.fmt, read := sectorsOf c.fmt.bits js }, { ref := .own d, fmt := w },
     { ref := .own b, fmt := .n8, read := sectorsOf 8 (js.map (x.byteAt c)) }]
    none true (List.range c.vl)
    (fun i =>
      let e := elemOf 8 scales (x.byteAt c (lo + i))
      let v := c.fmt.num data (lo + i) (some e)
      let r := flushOut c.flush g g 0 (roundTo (flushIn c.flush .f32 v).ex g c.rm c.sat (c.h i))
      (r.1, r.2 ||| v.snanFlag ||| flIf (e == 0xFF) flNV)) s
/-- VMXD (R199). -/
def execVmxd (h : Hdr) (wf : WideFmt) (seg part : BitVec 4) (d : Lat) (a : LatRef) (b : Lat) (s : State) : Out :=
  wordOp h (elemUse [] [.own d, a, .own b] (g := Scaled.groups { wf := wf, seg := seg.toNat, part := part.toNat }))
    (perLane (dequantOn false { wf := wf, seg := seg.toNat, part := part.toNat } d a b)) s
/-- VLQD (R200). -/
def execVlqd (h : Hdr) (wf : WideFmt) (seg part : BitVec 4) (d : Lat) (a : LatRef) (b : Lat) (s : State) : Out :=
  wordOp h (elemUse [] [.own d, a, .own b] (g := Scaled.groups { wf := wf, seg := seg.toNat, part := part.toNat }))
    (perLane (dequantOn true { wf := wf, seg := seg.toNat, part := part.toNat } d a b)) s

end Sys2Proof.Machine
end

