-- ==== Sys2Proof/Machine/LaneMove.lean ====
section
/-! DEFINITION. Moves, permutes, slides, compression, expansion and index vectors (R201 to R204). -/

namespace Sys2Proof.Machine

/-- Every format but the illegal one. -/
def anyFmt : VFmt → Bool := fun _ => true
/-- The time of a whole-row word of two passes (R189). -/
def LaneCfg.row2 (c : LaneCfg) : Nat := 2 * c.groups

/-! ### VMOV, VSPLAT, VEXT, VINS (R202) -/

/-- VMOV on one hart (R202). -/
def vmovOn (m : MaskMod) (d : Lat) (a : LatRef) (k : Nat) (s : State) : HRes :=
  let c := s.lanes k
  let us := activeUnits (s.hart k) m c.fmt
  let n := c.fmt.unit
  let src := s.latData k a
  elemWord k d n c.groups (s.badFmt c anyFmt)
    [{ ref := a, fmt := c.fmt, read := sectorsOf n us.1 }, { ref := .own d, fmt := c.fmt }] us.2 false us.1
    (fun u => (elemOf n src u, fl0)) s
/-- VMOV (R202). -/
def execVmov (h : Hdr) (m : MaskMod) (d : Lat) (a : LatRef) (s : State) : Out :=
  wordOp h (elemUse [] [.own d, a]) (perLane (vmovOn m d a)) s
/-- VSPLAT on one hart (R202). -/
def vsplatOn (m : MaskMod) (d : Lat) (a : Src) (k : Nat) (s : State) : HRes :=
  let c := s.lanes k
  let us := activeUnits (s.hart k) m c.fmt
  let v := s.scalarOf k c.fmt a
  elemWord k d c.fmt.unit c.groups (s.badFmt c anyFmt) [{ ref := .own d, fmt := c.fmt }] us.2 false us.1
    (fun _ => (v, fl0)) s
/-- VSPLAT (R202). -/
def execVsplat (h : Hdr) (m : MaskMod) (d : Lat) (a : Src) (s : State) : Out :=
  wordOp h (elemUse (srcRegs a) [.own d]) (perHart (vsplatOn m d a)) s
/-- The trap of a unit index at or beyond U (R202). -/
def unitBad (c : LaneCfg) (i : Nat) : Bool := c.vl / c.fmt.per ≤ i
/-- VEXT on one hart (R202). -/
def vextOn (d : XReg) (a : LatRef) (b : Src) (k : Nat) (s : State) : HRes :=
  let c := s.lanes k
  let i := (s.src k b).toNat
  let n := c.fmt.unit
  if s.badFmt c anyFmt then .fail { cause := 0x04, tval := s.iss.addr }
  else if unitBad c i then .fail (failAt 0x04 i)
  else match s.laneCheck k false [{ ref := a, fmt := c.fmt, read := sectorsOf n [i] }] none with
    | some e => .fail e
    | none =>
      let v := elemOf n (s.latData k a) i
      let x := if c.fmt.isInt then word64 (c.fmt.int v) else BitVec.ofNat 64 v
      .ok ((writeReg k (.x d) x none s).pushSeg k [a] [] false 4)
/-- VEXT (R202). Its sweep reaches one element group, which is charged as one unit: DEDUCED from R417 (log 68). -/
def execVext (h : Hdr) (d : XReg) (a : LatRef) (b : Src) (s : State) : Out :=
  wordOp h { wholeUse (srcRegs b) [a] 4 1 (fun _ => 1) with wr := [.x d] } (perLane (vextOn d a b)) s
/-- VINS on one hart (R202). -/
def vinsOn (d : Lat) (a b : Src) (k : Nat) (s : State) : HRes :=
  let c := s.lanes k
  let i := (s.src k b).toNat
  let v := s.scalarOf k c.fmt a
  if s.badFmt c anyFmt then .fail { cause := 0x04, tval := s.iss.addr }
  else if unitBad c i then .fail (failAt 0x04 i)
  else rowWord k d c.fmt.unit 4 false [{ ref := .own d, fmt := c.fmt }] none false [i] (fun _ => (v, fl0)) s
/-- VINS (R202), charged as VEXT is. -/
def execVins (h : Hdr) (d : Lat) (a b : Src) (s : State) : Out :=
  wordOp h (wholeUse (srcRegs a ++ srcRegs b) [.own d] 4 1 (fun _ => 1)) (perHart (vinsOn d a b)) s

/-! ### VPERM and VGATH (R203) -/

/-- VPERM on one hart (R203). -/
def vpermOn (m : MaskMod) (d : Lat) (a : LatRef) (b : Lat) (k : Nat) (s : State) : HRes :=
  let c := s.lanes k
  let n := c.fmt.unit
  let units := c.vl / c.fmt.per
  let us := activeUnits (s.hart k) m c.fmt
  let src := s.latData k a
  let idx := s.latData k (.own b)
  let x (u : Nat) : Nat := elemOf 16 idx u
  rowWord k d n (2 * c.groupsWith 16) (s.badFmt c anyFmt || 4096 < units)
    [{ ref := a, fmt := c.fmt, read := sectorsOf n ((us.1.map x).filter (· < units)) },
     { ref := .own b, fmt := .n16, read := sectorsOf 16 us.1 }, { ref := .own d, fmt := c.fmt }] us.2 false us.1
    (fun u => (if x u < units then elemOf n src (x u) else 0, fl0)) s
/-- VPERM (R203). -/
def execVperm (h : Hdr) (m : MaskMod) (d : Lat) (a : LatRef) (b : Lat) (s : State) : Out :=
  wordOp h (wholeUse [] [.own d, a, .own b] 32 2 (LaneCfg.groupsWith · 16)) (perLane (vpermOn m d a b)) s
/-- The latch of a group on every bank of the gang, by rank. -/
def gangLats (size : Nat) (g : Lat) : List LatRef :=
  (List.range size).map fun k => .gang { bank := finBank k, g := g }
/-- VGATH on one hart (R203). -/
def vgathOn (m : MaskMod) (d a b : Lat) (k : Nat) (s : State) : HRes :=
  let c := s.lanes k
  let n := c.fmt.unit
  let units := c.vl / c.fmt.per
  let us := activeUnits (s.hart k) m c.fmt
  let idx := s.latData k (.own b)
  let size := s.gang.size
  let from_ (u : Nat) : Option (Nat × Nat) :=
    let x := elemOf 32 idx u
    let e := x % 2 ^ 16
    let r := x / 2 ^ 16 % 16
    if x / 2 ^ 20 = 0 && r < size && e < units then some (r, e) else none
  let reads (r : Nat) : List Nat := us.1.filterMap fun u =>
    (from_ u).bind fun p => if p.1 = r then some p.2 else none
  let t := 32 + (4 * units + 63) / 64
  latchWord false k d n t (s.badFmt c anyFmt || 2048 < units)
    ((gangLats size a).zipIdx.map (fun q => { ref := q.1, fmt := c.fmt, read := sectorsOf n (reads q.2) })
      ++ [{ ref := .own b, fmt := .n32, read := sectorsOf 32 us.1 }, { ref := .own d, fmt := c.fmt }]) us.2 false us.1
    (fun u => (match from_ u with
      | some p => elemOf n (s.latData k (.gang { bank := finBank p.1, g := a })) p.2
      | none => 0, fl0)) s (all := true)
/-- VGATH (R203): it stands alone in its convoy and carries no sweep cost (R190). -/
def execVgath (h : Hdr) (m : MaskMod) (d : Lat) (a : Lat) (b : Lat) (s : State) : Out :=
  wordOp h { latch := .own d :: .own b :: gangLats s.gang.size a, long := true, chargeH := fun k => (laneCfg k).groupsWith 32 }
    (perLane (vgathOn m d a b)) s

/-! ### Slides, compression, expansion and index vectors (R204) -/

/-- VSLIDE on one hart (R204). -/
def vslideOn (m : MaskMod) (d : Lat) (a : LatRef) (b : Src) (k : Nat) (s : State) : HRes :=
  let c := s.lanes k
  let n := c.fmt.unit
  let units := c.vl / c.fmt.per
  let us := activeUnits (s.hart k) m c.fmt
  let src := s.latData k a
  let by_ := sint64 (s.src k b)
  let x (u : Nat) : Option Nat :=
    let v := (u : Int) - by_
    if 0 ≤ v && v < units then some v.toNat else none
  rowWord k d n c.row2 (s.badFmt c anyFmt)
    [{ ref := a, fmt := c.fmt, read := sectorsOf n (us.1.filterMap x) }, { ref := .own d, fmt := c.fmt }] us.2 false us.1
    (fun u => (match x u with
      | some v => elemOf n src v
      | none => 0, fl0)) s
/-- VSLIDE (R204). -/
def execVslide (h : Hdr) (m : MaskMod) (d : Lat) (a : LatRef) (b : Src) (s : State) : Out :=
  wordOp h (wholeUse (srcRegs b) [.own d, a] 32 2) (perLane (vslideOn m d a b)) s
/-- VCOMP on one hart (R204). -/
def vcompOn (m : MaskMod) (d : Lat) (a : LatRef) (k : Nat) (s : State) : HRes :=
  let c := s.lanes k
  let n := c.fmt.unit
  let us := activeUnits (s.hart k) m c.fmt
  let src := s.latData k a
  rowWord k d n c.row2 (s.badFmt c anyFmt)
    [{ ref := a, fmt := c.fmt, read := sectorsOf n us.1 }, { ref := .own d, fmt := c.fmt }] us.2 false
    (List.range us.1.length) (fun j => (elemOf n src (us.1.getD j 0), fl0)) s
/-- VCOMP (R204). -/
def execVcomp (h : Hdr) (m : MaskMod) (d : Lat) (a : LatRef) (s : State) : Out :=
  wordOp h (wholeUse [] [.own d, a] 32 2) (perLane (vcompOn m d a)) s
/-- VEXP on one hart (R204). -/
def vexpOn (m : MaskMod) (d : Lat) (a : LatRef) (k : Nat) (s : State) : HRes :=
  let c := s.lanes k
  let n := c.fmt.unit
  let us := activeUnits (s.hart k) m c.fmt
  let src := s.latData k a
  let place (u : Nat) : Nat := (us.1.takeWhile (· < u)).length
  rowWord k d n c.row2 (s.badFmt c anyFmt)
    [{ ref := a, fmt := c.fmt, read := sectorsOf n (List.range us.1.length) }, { ref := .own d, fmt := c.fmt }] us.2
    false us.1 (fun u => (elemOf n src (place u), fl0)) s
/-- VEXP (R204). -/
def execVexp (h : Hdr) (m : MaskMod) (d : Lat) (a : LatRef) (s : State) : Out :=
  wordOp h (wholeUse [] [.own d, a] 32 2) (perLane (vexpOn m d a)) s
/-- VIOTA on one hart (R204). -/
def viotaOn (rank : Bool) (m : MaskMod) (d : Lat) (b : Src) (k : Nat) (s : State) : HRes :=
  let c := s.lanes k
  let act := actives (s.hart k) m c.fmt
  let v := c.fmt.int (s.scalarOf k c.fmt b)
  let written := if rank then List.range c.vl else act
  rowWord k d c.fmt.bits c.row2 (s.badFmt c VFmt.isInt) [{ ref := .own d, fmt := c.fmt }] none false written
    (fun i =>
      let r := c.nar (v + if rank then (act.takeWhile (· < i)).length else i)
      (r.1, if !rank || maskOn (s.hart k) m c.fmt.q i then r.2 else fl0)) s
/-- VIOTA (R204). -/
def execViota (h : Hdr) (rank : Bool) (m : MaskMod) (d : Lat) (b : Src) (s : State) : Out :=
  wordOp h (wholeUse (srcRegs b) [.own d] 32 2) (perHart (viotaOn rank m d b)) s

end Sys2Proof.Machine
end

