-- ==== Sys2Proof/Machine/LaneRed.lean ====
section
/-! DEFINITION. Reductions, scans, sorting, run marking, and the start of a sweep segment (R189, R205 to R208). -/

namespace Sys2Proof.Machine

/-! ### Reductions (R205) -/

/-- A reduction on one hart: its formats, and its value and flags from the starting value and the active elements. -/
def laneRed (m : MaskMod) (d : XReg) (a : LatRef) (b : Src) (ok : VFmt → Bool) (bits : Nat) (rounds : Bool)
    (f : LaneCfg → Word → List Nat → Nat × Flags) (k : Nat) (s : State) : HRes :=
  let c := s.lanes k
  let act := actives (s.hart k) m c.fmt
  let n := c.fmt.bits
  match s.laneCheck k (s.badFmt c ok || s.wide bits) [{ ref := a, fmt := c.fmt, read := sectorsOf n act }] none with
  | some e => .fail e
  | none =>
    let data := s.latData k a
    let r := f c (s.src k b) (act.map fun i => elemOf n data i)
    withFlags k r.2 s fun s =>
      ((writeReg k (.x d) (BitVec.ofNat 64 r.1) none s).stepSeed k rounds).pushSeg k [a] [] false (c.groups + 8)
/-- The uses of a reduction. -/
def redUse (d : XReg) (a : LatRef) (b : Src) : Uses := { wholeUse (srcRegs b) [a] 24 1 with wr := [.x d] }
/-- VREDS (R205). -/
def vredsRes (c : LaneCfg) (b : Word) (xs : List Nat) : Nat × Flags :=
  (wrapTo 64 (xs.foldl (fun acc x => acc + c.fmt.int x) (b.toNat : Int)), fl0)
/-- VREDS (R205). -/
def execVreds (h : Hdr) (m : MaskMod) (d : XReg) (a : LatRef) (b : Src) (s : State) : Out :=
  wordOp h (redUse d a b) (perLane (laneRed m d a b VFmt.isInt 0 false vredsRes)) s
/-- VREDMIN and VREDMAX (R205): integers at 64 bits, or patterns under the rules of FMIN and FMAX, flushed as inputs. -/
def vredmRes (wantMax : Bool) (c : LaneCfg) (b : Word) (xs : List Nat) : Nat × Flags :=
  if c.fmt.isInt then
    let v0 : Int := if c.fmt.isSigned then sint64 b else b.toNat
    (wrapTo 64 (xs.foldl (fun acc x =>
      if wantMax then max acc (c.fmt.int x) else min acc (c.fmt.int x)) v0), fl0)
  else
    let start := flushBits c.flush c.ff (b.toNat % 2 ^ c.fmt.bits)
    xs.foldl (fun acc x =>
      let r := minMaxBits c.ff wantMax acc.1 (flushBits c.flush c.ff x)
      (r.1, acc.2 ||| r.2)) (start, fl0)
/-- Formats of VREDMIN and VREDMAX. -/
def intOrFloat (f : VFmt) : Bool := f.isInt || f.isFloat
/-- VREDMIN (R205). -/
def execVredmin (h : Hdr) (m : MaskMod) (d : XReg) (a : LatRef) (b : Src) (s : State) : Out :=
  wordOp h (redUse d a b) (perLane (laneRed m d a b intOrFloat 0 false (vredmRes false))) s
/-- VREDMAX (R205). -/
def execVredmax (h : Hdr) (m : MaskMod) (d : XReg) (a : LatRef) (b : Src) (s : State) : Out :=
  wordOp h (redUse d a b) (perLane (laneRed m d a b intOrFloat 0 false (vredmRes true))) s
/-- VFREDS (R205): the exact sum, rounded once. -/
def vfredsRes (wide : Bool) (c : LaneCfg) (b : Word) (xs : List Nat) : Nat × Flags :=
  let res : FF := if wide then .f64 else .f32
  let start := flushIn c.flush res (res.decode (b.toNat % 2 ^ res.width))
  let sum := sumNum (start :: xs.map c.inNum) (c.rm == .rdn)
  let r := flushOut c.flush res res 0 (roundTo sum.1 res c.rm c.sat (c.h 0))
  (r.1, sum.2 ||| r.2)
/-- VFREDS (R205). -/
def execVfreds (h : Hdr) (m : MaskMod) (wide : Bool) (d : XReg) (a : LatRef) (b : Src) (s : State) : Out :=
  wordOp h (redUse d a b) (perLane (laneRed m d a b VFmt.isFloat 32 true (vfredsRes wide))) s

/-! ### VSCAN (R206) -/

/-- The step of a scan at element i: the new running value, and its flags. -/
def scanStep (c : LaneCfg) (i : Nat) (run x : Nat) : Nat × Flags :=
  if c.fmt.isInt then c.nar (c.fmt.int run + c.fmt.int x)
  else c.outNum i (sumNum [c.inNum run, c.inNum x] (c.rm == .rdn))
/-- The results of a scan, in element order, with the flags raised. -/
def scanFrom (c : LaneCfg) (excl : Bool) (cut : Nat → Bool) (src : Nat) :
    List Nat → Nat → List (Nat × Nat) × Flags
  | [], _ => ([], fl0)
  | i :: l, run =>
    let run := if cut i then 0 else run
    let r := scanStep c i run (elemOf c.fmt.bits src i)
    let t := scanFrom c excl cut src l r.1
    ((i, if excl then run else r.1) :: t.1, r.2 ||| t.2)
/-- VSCAN on one hart (R206). -/
def vscanOn (m : MaskMod) (excl : Bool) (d : Lat) (a : LatRef) (b : Option Msk) (k : Nat) (s : State) : HRes :=
  let c := s.lanes k
  let t := s.hart k
  let n := c.fmt.bits
  let act := actives t m c.fmt
  match s.laneCheck k (s.badFmt c intOrFloat)
      [{ ref := a, fmt := c.fmt, read := sectorsOf n act }, { ref := .own d, fmt := c.fmt }] none with
  | some e => .fail e
  | none =>
    let cut (i : Nat) : Bool := match b with
      | some q => t.masks[q.val].getLsbD (i / c.fmt.q)
      | none => false
    let r := scanFrom c excl cut (s.latData k a) act 0
    let data := r.1.foldl (fun v p => putElem n v p.1 p.2) (s.latData k (.own d))
    withFlags k r.2 s fun s =>
      ((s.stepSeed k (!c.fmt.isInt)).putLatch k d n act data).pushSeg k [a] [.own d] false c.row2
/-- VSCAN (R206). -/
def execVscan (h : Hdr) (m : MaskMod) (excl : Bool) (d : Lat) (a : LatRef) (b : Option Msk) (s : State) : Out :=
  wordOp h (wholeUse [] [.own d, a] 32 2) (perLane (vscanOn m excl d a b)) s

/-! ### Sorting and run marking (R207, R208) -/

/-- An entry placed after those that go no later than it, so that equal keys keep their order. -/
def insertKey (goes : Int → Int → Bool) (e : Int × Nat) : List (Int × Nat) → List (Int × Nat)
  | [] => [e]
  | p :: l => if goes e.1 p.1 then e :: p :: l else p :: insertKey goes e l
/-- The indices in stable key order (R207). -/
def sortKeys (desc : Bool) (key : Nat → Int) (is : List Nat) : List Nat :=
  let goes (a b : Int) : Bool := if desc then b < a else a < b
  (is.foldl (fun acc i => insertKey goes (key i, i) acc) []).map Prod.snd
/-- The ceiling of the base-2 logarithm, at least 1 (R207). -/
def sortLevels (u : Nat) : Nat := max 1 (if u ≤ 1 then 0 else Nat.log2 (u - 1) + 1)
/-- The element groups that a sort passes over, in all its passes (R207, R417). -/
def LaneCfg.sortGroups (c : LaneCfg) : Nat := c.groupsWith 16 * sortLevels c.vl * (sortLevels c.vl + 1) / 2
/-- VSORTK on one hart (R207). -/
def vsortkOn (m : MaskMod) (desc : Bool) (d : Lat) (a : LatRef) (b : Lat) (k : Nat) (s : State) : HRes :=
  let c := s.lanes k
  let n := c.fmt.bits
  let act := actives (s.hart k) m c.fmt
  match s.laneCheck k (s.badFmt c VFmt.isInt || 4096 < c.vl)
      [{ ref := a, fmt := c.fmt, read := sectorsOf n act }, { ref := .own d, fmt := c.fmt }, { ref := .own b, fmt := .n16 }]
      none with
  | some e => .fail e
  | none =>
    let src := s.latData k a
    let order := (sortKeys desc (fun i => c.fmt.int (elemOf n src i)) act).zipIdx
    let keys := order.foldl (fun v p => putElem n v p.2 (elemOf n src p.1)) (s.latData k (.own d))
    let perm := order.foldl (fun v p => putElem 16 v p.2 p.1) (s.latData k (.own b))
    let ranks := List.range act.length
    .ok (((s.putLatch k d n ranks keys).putLatch k b 16 ranks perm).pushSeg k [a] [.own d, .own b] false
      (8 + c.sortGroups))
/-- VSORTK (R207): it stands alone in its convoy and carries no sweep cost (R190). -/
def execVsortk (h : Hdr) (m : MaskMod) (desc : Bool) (d : Lat) (a : LatRef) (b : Lat) (s : State) : Out :=
  wordOp h { latch := [.own d, a, .own b], long := true, chargeH := fun k => (laneCfg k).sortGroups }
    (perLane (vsortkOn m desc d a b)) s
/-- Whether each element of a list differs from the one before it; the first does (R208). -/
def marks (v : Nat → Nat) : List Nat → List (Nat × Bool)
  | [] => []
  | i :: l => (i, true) :: (l.zip (i :: l)).map fun p => (p.1, v p.1 != v p.2)
/-- VUNIQ on one hart (R208). -/
def vuniqOn (m : MaskMod) (last : Bool) (d : Msk) (a : LatRef) (k : Nat) (s : State) : HRes :=
  let c := s.lanes k
  let n := c.fmt.bits
  let act := actives (s.hart k) m c.fmt
  match s.laneCheck k (s.badFmt c VFmt.isInt) [{ ref := a, fmt := c.fmt, read := sectorsOf n act }] none with
  | some e => .fail e
  | none =>
    let src := s.latData k a
    let v := (marks (elemOf n src) (if last then act.reverse else act)).foldl (fun v p => putBit v p.1 p.2)
      (s.hart k).masks[d.val]
    .ok ((s.putMask k d v).pushSeg k [a] [] false c.row2)
/-- VUNIQ (R208). -/
def execVuniq (h : Hdr) (m : MaskMod) (last : Bool) (d : Msk) (a : LatRef) (s : State) : Out :=
  wordOp h (wholeUse [] [a] 32 2) (perLane (vuniqOn m last d a)) s

/-! ### Segments (R189) -/

/-- VECTOR_SEGMENT_START: the segment at the head of a queue of a bank starts, once its latches, its bus slots and the lane unit
allow it. -/
def execVectorSegmentStart (core : Fin 2048) (bank : Fin 16) (s : State) : Out :=
  .next (s.modDev fun d => d.startSeg core bank)

end Sys2Proof.Machine
end

