-- ==== Sys2Proof/Machine/Bus.lean ====
section
/-! DEFINITION. The row-wide shuffle bus (R210 to R217). -/

namespace Sys2Proof.Machine

/-- Move (R213): the record of a destination that takes a whole source latch. -/
def moved (l : LatchRec) : LatchRec := { l with valid := true, src := 0x1FF }
/-- RSEG (R216): the record of the destination on rank r, from the latches of the ranks in order. -/
def segmented (ls : List LatchRec) (r : Nat) : LatchRec :=
  let size := ls.length
  let p := 8192 / size
  let data := ls.zipIdx.foldl (fun v q => putBytes v (q.2 * p) p (getBytes q.1.data.toNat (r * p) p)) 0
  let sec := 128 / size
  let bad := (List.range 128).foldl (fun m k =>
    match ls[k / sec]? with
    | some l => if l.poison.getLsbD (r * sec + k % sec) then m ||| (1#128 <<< k) else m
    | none => m) (0#128)
  let tag := match ls with
    | [] => 0xF
    | l :: t => if t.all fun q => q.tag == l.tag then l.tag else 0xF
  { valid := true, tag := tag, src := 0x1FF, poison := bad, data := BitVec.ofNat 65536 data }

namespace State

/-- The latch of a group on a rank of the gang. -/
def rankLatch (s : State) (g : Lat) (rank : Nat) : LatchRec := s.latch (s.iss.base + rank) g
/-- New latches on harts of the gang, all at once, from the latches of a group on some ranks: a slot is asked for each stream,
and the word stands in the vector-arithmetic queue of each hart that it writes until its latches allow it and its streams have
run (R60, R213 to R215). -/
def busWrite (s : State) (d a : Lat) (ranks : List Nat) (ws : List (Nat × LatchRec)) : State :=
  if ws.isEmpty then s
  else
    let c := s.iss.core
    let q := s.dev.busAsk c 16 ranks.length false
    let cv := s.gang.cv
    let rd := ranks.map fun r => latchNo (s.iss.base + r) a
    ws.foldl (fun s w => s.modDev fun dv =>
      (dv.setLatch c w.1 d w.2).modBank c w.1 fun k =>
        { k with segs := k.segs ++ [{ cv := cv, pos := s.wordPlace, n := k.nextPlace, rd := rd.filter (· != latchNo w.1 d)
                                      wr := [latchNo w.1 d], time := 20, reqs := [q.2], stream := true }] }) { s with dev := q.1 }

end State

/-- The uses of a bus word: the group of the source on every bank of the gang, and its sweep cost (R190, R214). -/
def busUse (s : State) (d a : Lat) (b : List Reg) (one : Bool) : Uses where
  rd := b
  latch := .own d :: gangLats s.gang.size a
  seg := fun _ => .whole (20 + 16 * (((if one then 1 else s.gang.size) + 3) / 4))
/-- A bus word that moves whole latches: `uniform` when B must agree; `from_` gives the source rank of a rank from B, or the
value that its check refuses (R215 to R217). Where some harts fail, the others move their latches, for what later words find there
(R38). -/
def moveWord (d a : Lat) (b : Src) (uniform : Bool) (from_ : Nat → Nat → Word → Except Word Nat) (run : List Nat)
    (s : State) : State :=
  let size := s.gang.size
  let vs := run.map fun k => (k, s.src k b)
  let agree := match vs with
    | [] => true
    | p :: l => l.all fun q => q.2 == p.2
  if uniform && !agree then s.failAll { cause := 0x01, tval := s.iss.addr }
  else
    let srcs := vs.map fun p => (p.1, from_ size (p.1 - s.iss.base) p.2)
    let t := srcs.foldl (fun t p => match p.2 with
      | .error v => t.addFail p.1 { cause := 0x04, tval := v }
      | .ok r => if (s.rankLatch a r).valid then t else t.addFail p.1 { cause := 0x04, tval := s.iss.addr }) s
    let ok := srcs.filterMap fun p => match p.2 with
      | .ok r => if t.failed p.1 then none else some (p.1, r)
      | .error _ => none
    t.busWrite d a ((ok.map Prod.snd).dedup) (ok.map fun p => (p.1, moved (s.rankLatch a p.2)))
/-- A natural 64-bit rank below the gang size (R217). -/
def rankOk (size : Nat) (v : Word) : Except Word Nat := if size ≤ v.toNat then .error v else .ok v.toNat

/-- RSHUF (R216). -/
def execRshuf (h : Hdr) (d a : Lat) (b : Src) (s : State) : Out :=
  wordOp h (busUse s d a (srcRegs b) false) (wholeGang (moveWord d a b false fun size _ v => rankOk size v)) s
/-- RBCAST (R216). -/
def execRbcast (h : Hdr) (d a : Lat) (b : Src) (s : State) : Out :=
  wordOp h (busUse s d a (srcRegs b) true) (wholeGang (moveWord d a b true fun size _ v => rankOk size v)) s
/-- The source rank of RXCH (R216, R217). -/
def xchFrom (size r : Nat) (v : Word) : Except Word Nat := (rankOk size v).map fun m => r ^^^ m
/-- RXCH (R216). -/
def execRxch (h : Hdr) (d a : Lat) (b : Src) (s : State) : Out :=
  wordOp h (busUse s d a (srcRegs b) false) (wholeGang (moveWord d a b true xchFrom)) s
/-- The source rank of RROT (R216). -/
def rotFrom (size r : Nat) (v : Word) : Except Word Nat := .ok (((r : Int) - sint64 v) % size).toNat
/-- RROT (R216). -/
def execRrot (h : Hdr) (d a : Lat) (b : Src) (s : State) : Out :=
  wordOp h (busUse s d a (srcRegs b) false) (wholeGang (moveWord d a b true rotFrom)) s
/-- RSEG on the harts that run it (R216, R217). -/
def segWord (d a : Lat) (run : List Nat) (s : State) : State :=
  let ls := (List.range s.gang.size).map (s.rankLatch a)
  if ls.any fun l => !l.valid then run.foldl (fun t k => t.addFail k { cause := 0x04, tval := s.iss.addr }) s
  else s.busWrite d a (List.range ls.length) (run.map fun k => (k, segmented ls (k - s.iss.base)))
/-- RSEG (R216). -/
def execRseg (h : Hdr) (d a : Lat) (s : State) : Out :=
  wordOp h (busUse s d a [] false) (wholeGang (segWord d a)) s

/-- BUS_SLOT_GRANT (R212). -/
def execBusSlotGrant (core : Fin 2048) (s : State) : Out := .next (s.modDev fun d => d.busGrant core)

end Sys2Proof.Machine
end

