-- ==== Sys2Proof/Machine/Fetch.lean ====
section
/-! DEFINITION. Instruction fetch: words and convoys in memory, the encoding checks of a convoy, the target checks of a
transfer, and the loop buffer (R22, R25 to R33, R36 to R38, R72, R73). -/

namespace Sys2Proof.Machine

namespace Device

/-! ### Words in memory (R25, R27) -/

/-- The byte address of a fetch checked: the global user range, a translation, and execute permission (R27, R275). -/
def fetchAt (d : Device) (core : Nat) (ctx : BitVec 12) (a : Nat) : Device × AccR :=
  if a < 2 ^ 56 then d.globalAt core ctx .fetch a else (d, .fail (failAt 0x0D a))
/-- `n` bytes of a checked code address; a poisoned sector gives undefined bytes (R125). -/
def fetchBytes (d : Device) (core : Nat) (p : Place) (n : Nat) : Device × Nat :=
  match p with
  | .mem st =>
    let r := d.cachedRead core st n
    (r.1, if r.2.2 then freeBytes d.now 0 n else r.2.1)
  | _ => (d, 0)
/-- The word at a code address, or the failed check of its fetch. -/
def fetchWord (d : Device) (core : Nat) (ctx : BitVec 12) (a : Nat) : Device × Except Fail IWord :=
  let t := d.fetchAt core ctx a
  match t.2 with
  | .ok p =>
    let r := t.1.fetchBytes core p 12
    (r.1, .ok (BitVec.ofNat 96 r.2))
  | .fail f => (t.1, .error f)
  | .wait _ => (t.1, .error (failAt 0x0D a))
/-- The words of a convoy from its first address on, with their addresses: framing (R30, R38 phase 1). -/
def fetchFrom (d : Device) (core : Nat) (ctx : BitVec 12) : Nat → Word → Device × Except Fail (List (Word × IWord))
  | 0, _ => (d, .ok [])
  | k + 1, a =>
    let r := d.fetchWord core ctx a.toNat
    match r.2 with
    | .error f => (r.1, .error f)
    | .ok w =>
      if contOf w then
        if k = 0 then (r.1, .error { cause := 0x03, tval := a })
        else
          let t := fetchFrom r.1 core ctx k (nextWord a)
          (t.1, match t.2 with
            | .error f => .error f
            | .ok l => .ok ((a, w) :: l))
      else (r.1, .ok [(a, w)])
/-- The convoy at an address. -/
def fetchConvoy (d : Device) (core : Nat) (ctx : BitVec 12) (a : Word) : Device × Except Fail (List (Word × IWord)) :=
  d.fetchFrom core ctx 4 a

/-! ### Transfer targets (R31) -/

/-- The checks of a transfer target: a valid code address, its fetch, and the start of a convoy (R27, R28, R31). The C bit
of the word before is CPREV, bit 0 of the tail of the target's block, or bit 85 of the word: bit 5 of the byte two below the
target. A fetch that fails is a failed check of the transfer, in the convoy that transfers: the model's choice (log 33). -/
def targetCheck (d : Device) (core : Nat) (ctx : BitVec 12) (a : Word) : Device × Option Fail :=
  if !codeOk a.toNat then (d, some { cause := 0x09, tval := a })
  else
    let t := d.fetchAt core ctx a.toNat
    match t.2 with
    | .fail f => (t.1, some f)
    | .wait _ => (t.1, some (failAt 0x0D a.toNat))
    | .ok _ =>
      let first := a.toNat % 64 = 0
      let u := t.1.fetchAt core ctx (if first then a.toNat + 60 else a.toNat - 2)
      match u.2 with
      | .ok p =>
        let r := u.1.fetchBytes core p 1
        (r.1, if nbit r.2 (if first then 0 else 5) then some { cause := 0x02, tval := a } else none)
      | _ => (u.1, none)

end Device

/-! ### Encoding checks of a convoy (R22, R33, R36, R37) -/

/-- A gang-addressed latch field names a bank of the gang (R22). -/
def gangField (size : Nat) (v : BitVec 20) : Bool := v.toNat / 2 ^ 14 != 6 || v.toNat % 2 ^ 14 / 4 < size
/-- The words that must stand alone in their convoy (R33). -/
def standsAlone (opc : Nat) : Bool := opc == 0x0C8 || opc == 0x0CA || opc == 0x17F || opc == 0x178
/-- A PFX. -/
def isPfx (w : IWord) : Bool := opcOf w == 0x350
/-- A word other than PFX passes R37 in a gang of a size. -/
def wordLegal (size : Nat) (afterPfx alone : Bool) (w : IWord) : Bool :=
  let f := Fields.ofWord w
  (match decode w with
    | .ok _ => true
    | .error _ => false)
  && (afterPfx || !f.hasLong)
  && (alone || !standsAlone f.opc.toNat)
  && gangField size f.d && gangField size f.a && gangField size f.b
/-- The address of the first word of a convoy that fails a check of R37, from a word on. A PFX is judged with the word after it
(R36): where that word is none that may follow one, whatever else is wrong with it, the PFX is named. That is the model's choice
(log 32). -/
def badWord (size : Nat) (alone : Bool) : Bool → List (Word × IWord) → Option Word
  | _, [] => none
  | afterPfx, p :: l =>
    if isPfx p.2 then
      let next := match l with
        | [] => false
        | q :: _ => let f := Fields.ofWord q.2; !isPfx q.2 && f.hasLong && f.longAccepted
      let ok := match decode p.2 with
        | .ok _ => true
        | .error _ => false
      if ok && next then badWord size alone true l else some p.1
    else if wordLegal size afterPfx alone p.2 then badWord size alone false l
    else some p.1
/-- The failed encoding check of a convoy (R38 phase 2). -/
def encodingFail (size : Nat) (ws : List (Word × IWord)) : Option Fail :=
  (badWord size (ws.length == 1) false ws).map fun a => { cause := 0x01, tval := a }

/-! ### The loop buffer (R72, R73) -/

/-- A word that a loop body may hold (R73). -/
def bodyWord (w : IWord) : Bool :=
  let f := Fields.ofWord w
  let o := f.opc.toNat
  let dfile := f.d.toNat / 2 ^ 14
  (o == 0x0C0 || o == 0x350 || (0x100 ≤ o && o ≤ 0x108) || (0x142 ≤ o && o ≤ 0x180) || (0x200 ≤ o && o ≤ 0x204)
    || (0x220 ≤ o && o ≤ 0x229))
  && (o == 0x350 || !usesD o || !(dfile == 0 || dfile == 1 || dfile == 5))
where
  /-- A word whose D field is an operand; an unused field is zero and names no register (R24). -/
  usesD (o : Nat) : Bool := !(o == 0x0C0 || o == 0x105 || o == 0x220)

namespace Device

/-- The convoys of a body, from an address on (R73). -/
def fetchBody (d : Device) (core : Nat) (ctx : BitVec 12) (size : Nat) :
    Nat → Word → Device × Except Fail (List (Word × List IWord))
  | 0, _ => (d, .ok [])
  | k + 1, a =>
    let r := d.fetchConvoy core ctx a
    match r.2 with
    | .error f => (r.1, .error f)
    | .ok ws =>
      match encodingFail size ws, ws.find? fun p => !bodyWord p.2 with
      | some f, some p => (r.1, .error (if wordIndex p.1.toNat < wordIndex f.tval.toNat then { cause := 0x01, tval := p.1 } else f))
      | some f, none => (r.1, .error f)
      | none, some p => (r.1, .error { cause := 0x01, tval := p.1 })
      | none, none =>
        let last := match ws.getLast? with
          | some p => p.1
          | none => a
        let t := fetchBody r.1 core ctx size k (nextWord last)
        (t.1, match t.2 with
          | .error f => .error f
          | .ok l => .ok ((a, ws.map Prod.snd) :: l))

/-- The capture of a context, body and length (R72). -/
def capture? (d : Device) (core rk : Nat) (body : Word) (n : Nat) : Option Capture :=
  (d.core core).loops.find? fun c => c.res == rk && c.body == body && c.n == n
/-- A capture that some gang of the core replays (R72). -/
def pinned (d : Device) (core : Nat) (c : Capture) : Bool :=
  d.gangs.any fun p => p.1 / 16 / 3 == core && p.1 / 16 == c.res && (d.core core).issuing == some (resSlot c.res) &&
    match p.2.replay with
    | some r => r.body == c.body && r.n == c.n
    | none => false
/-- Captures discarded, least recently replayed and unpinned first, until `need` slots are free (R72). A capture is as recent as
the last start of a replay of it; one never replayed goes first, and of several the newest: the model's choice (log 35). -/
def makeRoom (d : Device) (core need : Nat) : Nat → Device
  | 0 => d
  | k + 1 =>
    let l := (d.core core).loops
    if (l.foldl (fun acc c => acc + c.n) 0) + need ≤ Config.loopSlots then d
    else
      let free := l.filter fun c => !d.pinned core c
      match free.foldl (fun (best : Option Capture) c => match best with
          | none => some c
          | some b => if c.used < b.used then some c else some b) none with
      | none => d
      | some v => makeRoom (d.modCore core fun x => { x with loops := x.loops.filter fun c => c != v }) core need k
/-- The result of bringing a body into the loop buffer. -/
inductive CaptR where
  | ok (d : Device)
  | fail (f : Fail)
  | full
deriving DecidableEq, Repr
/-- CAPT for a residence on a core (R72, R73, R78). -/
def capture (d : Device) (core rk : Nat) (ctx : BitVec 12) (size : Nat) (body : Word) (n : Nat) : CaptR :=
  if (d.capture? core rk body n).isSome then .ok d
  else
    let r := d.fetchBody core ctx size n body
    match r.2 with
    | .error f => .fail f
    | .ok convoys =>
      let d := r.1
      let pins := ((d.core core).loops.filter fun c => d.pinned core c).foldl (fun acc c => acc + c.n) 0
      if Config.loopSlots < pins + n then .full
      else
        let d := d.makeRoom core n (d.core core).loops.length
        .ok (d.modCore core fun x =>
          { x with loops := { res := rk, body := body, n := n, convoys := convoys, used := 0 } :: x.loops })

end Device

end Sys2Proof.Machine
end

