-- ==== Sys2Proof/Machine/Reduce.lean ====
section
/-! DEFINITION. Bank atomics and reductions: the arithmetic of their words, the write queues of the banks, and the order in which
operations are accepted there (R254, R269, R286 to R290, R296, R303). -/

namespace Sys2Proof.Machine

/-! ### One operation on a word (R269, R288) -/

/-- The bits of a word operation. -/
def opBits (w : Bool) : Nat := if w then 32 else 64
/-- The floating-point format of a word operation. -/
def opFf (w : Bool) : FF := if w then .f32 else .f64
/-- The new word of an integer operation at a width of `n` bits (R269, R288). -/
def intOp (n : Nat) (op : AOp) (v b cmp : Nat) : Nat :=
  match op with
  | .add => (v + b) % 2 ^ n
  | .and => v &&& b
  | .or => v ||| b
  | .xor => v ^^^ b
  | .min => if sintOf n b < sintOf n v then b else v
  | .max => if sintOf n v < sintOf n b then b else v
  | .minn => min v b
  | .maxn => max v b
  | .swap => b
  | .cas => if v = cmp then b else v
  | .fadd | .fmax => v
/-- The new word of a floating-point operation: rounded to nearest, with no flags, and canonical NaNs (R269, R288). -/
def fpOp (f : FF) (op : AOp) (v b : Nat) : Nat :=
  match op with
  | .fadd => (roundTo (sumNum [f.decode v, f.decode b] false).1 f .rne).1
  | .fmax => (minMaxBits f true v b).1
  | _ => v
/-- The new word of AMOP (R269). -/
def amoNew (op : AOp) (w : Bool) (v b cmp : Nat) : Nat :=
  let n := opBits w
  match op with
  | .fadd | .fmax => fpOp (opFf w) op v (b % 2 ^ n)
  | _ => intOp n op v (b % 2 ^ n) (cmp % 2 ^ n)
/-- Elements of a reduction: bytes. -/
def RedElt.bytes : RedElt → Nat
  | .int n => n / 8
  | .fp f => f.width / 8
  | .cas n _ => n
/-- One application of a reduction (R288). -/
def RedElt.apply (e : RedElt) (op : AOp) (v b : Nat) : Nat :=
  match e with
  | .int n => intOp n op v (b % 2 ^ n) 0
  | .fp f => fpOp f op v (b % 2 ^ f.width)
  | .cas n cmp => if v = cmp % 2 ^ (8 * n) then b % 2 ^ (8 * n) else v
/-- The element of a word reduction (R294). -/
def wordElt (op : AOp) (w : Bool) : RedElt :=
  match op with
  | .fadd | .fmax => .fp (opFf w)
  | _ => .int (opBits w)

/-! ### The order of arrivals in one cycle (R287) -/

/-- The place of an operation of a hart. -/
def hartRank (cls rk bank : Nat) : Nat := (if cls = 0 then 0 else 2 ^ 60) + (resCore rk * 16 + bank)
/-- The place of an operation from another package. -/
def fabricRank (cls dev : Nat) : Nat := (if cls = 0 then 0 else 2 ^ 60) + 2 ^ 41 + dev

namespace Device

/-- The class of the context of a residence. -/
def classOf (d : Device) (rk : Nat) : Nat :=
  match d.res? rk with
  | some r => r.cls.val
  | none => 1

/-! ### Write queues (R286 to R288) -/

/-- The bank at whose port an array address arrives, for an own address. -/
def portOf (st : Stor) : Option (Nat × Nat) :=
  match st with
  | .dram key => if key < 2 ^ 39 then some (keyCore key, keyBank key) else none
  | _ => none
/-- The entry of a write queue that a reduction joins: the youngest of its line, when that holds nothing but reductions of the same
operation and type (R288). -/
def joins (q : List WqEntry) (line : Nat) (red : Option (AOp × RedElt)) : Bool :=
  red.isSome && match (q.filter fun e => e.pa / 64 == line).getLast? with
    | some e => e.red == red
    | none => false
/-- The write queue of a bank has room for an operation on a line (R286). -/
def wqRoom (d : Device) (st : Stor) (red : Option (AOp × RedElt) := none) : Bool :=
  match portOf st, st with
  | some p, .dram key =>
    let q := (d.bank p.1 p.2).wq
    q.length < Config.writeQueue || joins q (key / 64) red
  | _, _ => true
/-- The last entry of a line with one operation more. -/
def joinLast (line : Nat) : List WqEntry → List WqEntry
  | [] => []
  | e :: l => if e.pa / 64 == line && !(l.any fun x => x.pa / 64 == line) then { e with n := e.n + 1 } :: l
    else e :: joinLast line l
/-- A dirty copy of the line of a bank operation is written to the bank first, as a column write (R254, R288). -/
def wqFresh (d : Device) (st : Stor) : Device :=
  match st with
  | .dram key => match d.dirty? (key / 64) with
    | some c => (d.wqClose key).arrWrite (key / 64 * 64) 64 c.data.toNat c.bad
    | none => d
  | _ => d
/-- An operation accepted into an entry of a write queue. -/
def wqEnter (d : Device) (st : Stor) (red : Option (AOp × RedElt)) (rank : Nat) : Device :=
  match portOf st, st with
  | some p, .dram key => (d.wqFresh st).modBank p.1 p.2 fun k =>
    { k with wqLast := (d.now, rank)
             wq := if joins k.wq (key / 64) red then joinLast (key / 64) k.wq
               else k.wq ++ [{ pa := key / 64 * 64, n := 1, red := red }] }
  | _, _ => d
/-- A read-modify-write at a bank: the old word, and whether it was poisoned, in which case nothing is written (R286, R290,
R293). A dirty copy of the line is written first (R254); an array write of a WB that is still pending comes after the operation
(R289). -/
def atomicAt (d : Device) (st : Stor) (n : Nat) (f : Nat → Nat) : Device × Nat × Bool :=
  match st with
  | .dram key =>
    let d := (d.wqFresh st).dropLine (key / 64)
    let r := d.arrRead key n
    if r.2 then (d, r) else (d.arrWrite key n (f r.1) false, r)
  | st =>
    let r := d.colRead st n
    if r.2.2 then r else (r.1.colWrite st n (f r.2.1), r.2)
/-- One element of a reduction applied; on a poisoned sector it is discarded and counted (R288, R290). -/
def redOne (op : AOp) (e : RedElt) (d : Device) (p : Nat × Nat) : Device :=
  let r := d.atomicAt (d.stor p.1) e.bytes fun v => e.apply op v p.2
  let lost := match d.stor p.1 with
    | .dropped _ => true
    | _ => false
  if r.2.2 && !lost then { r.1 with regs := { r.1.regs with redp := min 0xFFFF (r.1.regs.redp + 1) } } else r.1
/-- The place of a reduction. -/
def redStor (d : Device) (q : RedReq) : Stor :=
  match q.parts with
  | [] => .nothing
  | p :: _ => d.stor p.1
/-- The hart's own array write of a row is pending: an operation of its own on that row follows it, so the bank releases the group
first (R137, R303). -/
def ownWrite (d : Device) (rk bank : Nat) (st : Stor) : Device :=
  match st with
  | .dram key =>
    if key < 2 ^ 39 && keyCore key == resCore rk && keyBank key == bank
        && (match (d.group (keyCore key) bank (keyGroup key)).pend with
          | some w => w.row == keyRow key
          | none => false) then
      d.releaseFor key
    else d
  | _ => d
/-- The count of reductions in the frame of a hart one lower (R297, R366). -/
def resCountDown (r : Residence) (h : Nat) : Residence :=
  let v := r.frames.read (1024 * h + 0x298) 2
  { r with frames := r.frames.write (1024 * h + 0x298) 2 (v / 2 ^ 9 * 2 ^ 9 + (v % 2 ^ 9 - 1)) }
/-- A reduction of a hart is accepted: its count falls, and so does the one that its frame holds while the context does not issue
(R296, R297). -/
def redCounted (d : Device) (rk bank : Nat) : Device :=
  match d.res? rk with
  | none => d
  | some r =>
    let d := if r.spilled || r.state == .stopped then d.setRes rk (resCountDown r bank) else d
    d.modHart rk bank fun t => { t with redOut := t.redOut - 1 }
/-- The reductions that an entry for a request may hold with it: none for an AMO or CAS (R288). -/
def redKind (q : RedReq) : Option (AOp × RedElt) := if q.atomic then none else some (q.op, q.elt)
/-- A request accepted and performed, and counted for its hart (R286, R296); one that the fabric drops is lost whole (R415). -/
def redAccept (d : Device) (q : RedReq) : Device :=
  let st := d.redStor q
  match st with
  | .dropped _ => d.setLost.redCounted q.res q.bank
  | _ =>
    let d := (d.ownWrite q.res q.bank st).wqEnter st (redKind q) q.rank
    let one (d : Device) (p : Nat × Nat) : Device :=
      if q.atomic then (d.atomicAt (d.stor p.1) q.elt.bytes fun v => q.elt.apply q.op v p.2).1 else redOne q.op q.elt d p
    (q.parts.foldl one d).redCounted q.res q.bank

/-! ### Acceptance (R286, R287) -/

/-- Something with a later place was accepted at a port in this cycle: what has an earlier one did not arrive in it. -/
def portLate (d : Device) (port : Option (Nat × Nat)) (rank : Nat) : Bool :=
  match port with
  | some p => let k := (d.bank p.1 p.2).wqLast; k.1 == d.now && rank < k.2
  | none => false
/-- A waiting arrival goes before another: class 0 first, then the order of arrival (R286, R287). -/
def redBefore (p q : RedReq) : Bool :=
  match p.arrived, q.arrived with
  | some a, some b =>
    if (p.cls == 0) == (q.cls == 0) then a < b || (a == b && p.rank < q.rank) else p.cls == 0
  | _, _ => false
/-- A request of an agent may come to its port now: its agent's earlier ones to that port have been accepted (R287). -/
def redComes (d : Device) (k : Nat) : Option RedReq :=
  match d.portQ[k]? with
  | none => none
  | some q =>
    let port := portOf (d.redStor q)
    if (d.portQ.take k).any fun o => o.res == q.res && o.bank == q.bank && portOf (d.redStor o) == port then none
    else if q.arrived.isSome then some q
    else if d.portLate port q.rank then none else some { q with arrived := some d.now }
/-- A request that has come to its port is accepted: there is room, and no waiting one goes before it (R286, R287). -/
def redTakes (d : Device) (q : RedReq) : Bool :=
  let st := d.redStor q
  d.wqRoom st (redKind q) && !(d.portQ.any fun o => portOf (d.redStor o) == portOf st && redBefore o q)
/-- The request at an index, when it may be accepted now. -/
def redReady (d : Device) (k : Nat) : Option RedReq := (d.redComes k).filter d.redTakes
/-- An AMO or CAS may be accepted at its port now (R286, R287). -/
def portOpen (d : Device) (st : Stor) (cls rank : Nat) : Bool :=
  let port := portOf st
  d.wqRoom st && !d.portLate port rank
    && (port.isNone || !(d.portQ.any fun o => portOf (d.redStor o) == port && o.arrived.isSome && (cls != 0 || o.cls == 0)))
/-- Room made at a port: the bank applies its oldest entries, which only takes time (R286). -/
def wqSpace (d : Device) (st : Stor) : Device :=
  match portOf st with
  | some p => d.modBank p.1 p.2 fun k => { k with wq := k.wq.drop (k.wq.length + 1 - Config.writeQueue) }
  | none => d
/-- A request of an agent to come to its port, which it does a cycle later where this one has taken a later place (R287). -/
def redCome (d : Device) (k : Nat) : Device :=
  match d.portQ[k]? with
  | none => d
  | some q =>
    if q.arrived.isSome then d
    else
      let d := if d.portLate (portOf (d.redStor q)) q.rank then d.advanceTo (d.now + 1) else d
      { d with portQ := d.portQ.set k { q with arrived := some d.now } }
/-- The request that is accepted next of those that wait at the port of a request (R286, R287). -/
def redFirst (d : Device) (k : Nat) : Option (Nat × RedReq) :=
  d.portQ[k]?.map fun q =>
    let port := portOf (d.redStor q)
    d.portQ.zipIdx.foldl (fun (best : Nat × RedReq) p =>
      if portOf (d.redStor p.1) == port && redBefore p.1 best.2 then (p.2, p.1) else best) (k, q)
/-- The oldest reductions of a hart accepted, one after the other, until no more than so many are on their way: each in its turn at its
port, with room made for it (R286, R287, R296). -/
def drainSome (d : Device) (rk bank most : Nat) : Nat → Device
  | 0 => d
  | n + 1 =>
    if (d.portQ.filter fun q => q.res == rk && q.bank == bank).length ≤ most then d
    else match d.portQ.findIdx? fun q => q.res == rk && q.bank == bank with
      | none => d
      | some k =>
        let d := d.redCome k
        match d.redFirst k with
        | none => d
        | some (i, q) => drainSome (({ d with portQ := dropIdx i d.portQ }.wqSpace (d.redStor q)).redAccept q) rk bank most n
/-- The oldest reductions of a hart accepted until no more than so many are on their way. -/
def drainReds (d : Device) (rk bank most : Nat) : Device := d.drainSome rk bank most d.portQ.length

end Device

end Sys2Proof.Machine
end

