-- ==== Sys2Proof/Machine/Control.lean ====
section
/-! DEFINITION. The control words: NOP, the transfers, divergence and reconvergence, the loop buffer, EXIT, YIELD, GMASK
and HARTID (R41, R51 to R57, R72 to R84, R107 to R109). -/

namespace Sys2Proof.Machine

/-! ### Transfers (R31, R107 to R109) -/

namespace State

/-- The context identifier of the convoy. -/
def ctx (s : State) : BitVec 12 :=
  match s.res? with
  | some r => r.ctx
  | none => 0
/-- Control goes to a target after its checks; a failed check is one of each hart that goes there (R31, R39). -/
def jumpOf (s : State) (run : List Nat) (a : Word) : State :=
  let t := s.dev.targetCheck s.iss.core s.ctx a
  let s := { s with dev := t.1 }
  match t.2 with
  | none => s.goto a
  | some f => run.foldl (fun s b => s.addFail b f) s
/-- Every active hart goes to a target (R31). -/
def jump (s : State) (a : Word) : State := s.jumpOf (banksOf s.gang.gm) a
/-- Every active hart takes 0x01 at this word (R109). -/
def disagree (s : State) : State := s.failAll { cause := 0x01, tval := s.iss.addr }
/-- The transfers that the harts of a gang decide on: none, one and the same, or a disagreement (R109). A hart that has failed a check
decides nothing (R58). -/
def transfer (s : State) (takers : List (Nat × Word)) : State :=
  match takers with
  | [] => s
  | p :: l =>
    if takers.length = (s.sound (banksOf s.gang.gm)).length && l.all fun q => q.2 == p.2 then s.jump p.2 else s.disagree

end State

/-- A transfer word: the target of each hart that runs it, and what it writes (R108). -/
def transferWord (h : Hdr) (u : Uses) (target : State → Nat → Option Word) (write : Nat → State → State) (s : State) : Out :=
  wordOp h u (wholeGang fun run s =>
    let takers := run.filterMap fun b => (target s b).map fun a => (b, a)
    run.foldl (fun t b => write b t) (s.transfer takers)) s

/-- NOP (R41). -/
def execNop (h : Hdr) (s : State) : Out := wordOp h {} (fun _ s => s) s
/-- The target of a displacement in words (R26, R107). -/
def dispTarget (disp : Src) (s : State) (b : Nat) : Word := wordDisp s.iss.addr (sint64 (s.src b disp))
/-- BR (R108). -/
def execBr (h : Hdr) (disp : Src) (s : State) : Out :=
  transferWord h {} (fun s b => some (dispTarget disp s b)) (fun _ s => s) s
/-- BRX (R108). -/
def execBrx (h : Hdr) (a : XReg) (b : Src) (s : State) : Out :=
  transferWord h { rd := .x a :: srcRegs b } (fun s k => some ((s.hart k).getX a + s.src k b)) (fun _ s => s) s
/-- The link of a call: the start of the next convoy (R108). -/
def putLink (l : XReg) (b : Nat) (s : State) : State := writeReg b (.x l) (nextWord s.iss.addr) (some 1) s
/-- CALL (R108). -/
def execCall (h : Hdr) (l : XReg) (disp : Src) (s : State) : Out :=
  transferWord h { wr := [.x l] } (fun s b => some (dispTarget disp s b)) (putLink l) s
/-- CALLX (R108). -/
def execCallx (h : Hdr) (l : XReg) (a : XReg) (b : Src) (s : State) : Out :=
  transferWord h { rd := .x a :: srcRegs b, wr := [.x l] } (fun s k => some ((s.hart k).getX a + s.src k b)) (putLink l) s
/-- RET (R108). -/
def execRet (h : Hdr) (a : XReg) (s : State) : Out :=
  transferWord h { rd := [.x a] } (fun s k => some ((s.hart k).getX a)) (fun _ s => s) s
/-- The value that SUBBR leaves (R108). -/
def subbrRes (d : XReg) (amount : Src) (s : State) (k : Nat) : Word := (s.hart k).getX d - s.src k amount
/-- SUBBR (R108). -/
def execSubbr (h : Hdr) (d : XReg) (disp : Src) (amount : Src) (s : State) : Out :=
  transferWord h { rd := .x d :: srcRegs amount, wr := [.x d] }
    (fun s k => if 0 < sint64 (subbrRes d amount s k) then some (dispTarget disp s k) else none)
    (fun k s => writeReg k (.x d) (subbrRes d amount s k) (some 1) s) s

/-! ### Divergence and reconvergence (R55, R56, R76, R77) -/

/-- Where a gang goes on: its stack, its active harts and its pc. -/
structure Course where
  ds : List DsRec
  gm : Mask16
  pc : Word
deriving DecidableEq, Repr

/-- Arrive at the JOIN word at J, on a stack whose top comes first (R55). -/
def arrive (j : Word) (gm : Mask16) : List DsRec → Course
  | [] => { ds := [], gm := gm, pc := nextWord j }
  | r :: l =>
    if r.j = j then
      if r.mw ≠ 0 then { ds := { r with mw := 0 } :: l, gm := r.mw, pc := r.pw } else arrive j r.ma l
    else { ds := r :: l, gm := gm, pc := nextWord j }
/-- Resume when every running hart has exited; none when the gang ends (R56). -/
def resume : List DsRec → Option Course
  | [] => none
  | r :: l =>
    if r.mw ≠ 0 then some { ds := { r with mw := 0 } :: l, gm := r.mw, pc := r.pw }
    else if r.ma ≠ 0 then some (arrive r.j r.ma l)
    else resume l
/-- The gang takes a course; where it goes on elsewhere than at the next word, that is a transfer target of the harts that
execute the word (R31). -/
def State.follow (s : State) (run : List Nat) (c : Course) : State :=
  let s := if c.pc = nextWord s.iss.addr then s.goto c.pc else s.jumpOf run c.pc
  s.modGang fun g => { g with ds := c.ds, gm := c.gm }

/-- BRD (R76). -/
def execBrd (h : Hdr) (target joinAt : BitVec 18) (s : State) : Out :=
  wordOp h {} (wholeGang fun run s =>
    let a := s.iss.addr
    let t := wordDisp a target.toInt
    let act := s.gang.gm
    let tk := maskOf run
    if run.isEmpty then s
    else
      let s := s.jumpOf run t
      if s.iss.fails.isEmpty && act &&& ~~~ tk != 0 then
        s.modGang fun g =>
          { g with gm := tk
                   ds := { j := wordDisp a joinAt.toInt, ma := act, mw := act &&& ~~~ tk, pw := nextWord a } :: g.ds }
      else s) s

/-- JOIN (R77). -/
def execJoin (h : Hdr) (s : State) : Out :=
  wordOp h {} (wholeGang fun run s => s.follow run (arrive s.iss.addr s.gang.gm s.gang.ds)) s

/-! ### The loop buffer (R72 to R80) -/

/-- The body of n convoys brought into the loop buffer: a failed check is one of the given harts (R72, R73). -/
def State.ensureCapture (s : State) (run : List Nat) (body : Word) (n : Nat) : State :=
  match s.dev.capture s.iss.core s.rk s.ctx s.gang.size body n with
  | .ok d => { s with dev := d }
  | .fail f => run.foldl (fun s b => s.addFail b f) s
  | .full => s.holdOn .buffer

/-- CAPT (R78). -/
def execCapt (h : Hdr) (n1 : BitVec 6) (body : BitVec 18) (s : State) : Out :=
  wordOp h {} (wholeGang fun run s =>
    if run.isEmpty then s else s.ensureCapture run (wordDisp s.iss.addr body.toInt) (n1.toNat + 1)) s

/-- The position of a replay at its start: EI when ACT is set, else 0; a POS past the body ends its iteration; none when
every iteration is done (R79, R80). -/
def replayStart (n : Nat) (ei rc : Word) : Option (Nat × Nat) :=
  let act := ei.getLsbD 38
  let iter := if act then (ei.extractLsb' 0 32).toNat else 0
  let pos := if act then (ei.extractLsb' 32 6).toNat else 0
  let count := (rc.extractLsb' 0 32).toNat
  let at_ := if iter < count && n ≤ pos then (iter + 1, 0) else (iter, pos)
  if at_.1 < count then some at_ else none
/-- EI at a position of a replay in progress (R74). -/
def eiAt (p : Nat × Nat) : Word := BitVec.ofNat 64 (p.1 % 2 ^ 32 + p.2 * 2 ^ 32 + 2 ^ 38)

/-- REPLAY (R79, R80): the capture is ensured and EI set; the body convoys are then issued from the loop buffer. Harts that
would not issue the same body convoy disagree, as R109 has it for a transfer. -/
def execReplay (h : Hdr) (n1 : BitVec 6) (body : BitVec 18) (stride : Src) (s : State) : Out :=
  wordOp h { rd := srcRegs stride } (wholeGang fun run s =>
    let a := s.iss.addr
    let b := wordDisp a body.toInt
    let n := n1.toNat + 1
    let t := s.dev.targetCheck s.iss.core s.ctx b
    let s := { s with dev := t.1 }
    match t.2 with
    | some f => s.failAll f
    | none =>
      let s := s.ensureCapture run b n
      if !s.iss.fails.isEmpty || s.iss.hold.isSome then s
      else
        let at_ (k : Nat) := replayStart n (s.hart k).ei (s.hart k).rc
        match run with
        | [] => s
        | k :: l =>
          if !(l.all fun q => at_ q == at_ k) then s.disagree
          else match at_ k with
            | none => run.foldl (fun s q => s.modHart q fun t => { t with ei := 0 }) s
            | some p =>
              let s := run.foldl (fun s q => s.modHart q fun t => { t with ei := eiAt p }) s
              let s := s.modDev fun d => d.modCore s.iss.core fun c =>
                { c with loops := c.loops.map fun o =>
                    if o.res == s.rk && o.body == b && o.n == n then { o with used := d.now + 1 } else o }
              (s.modGang fun g => { g with replay := some { at_ := a, body := b, n := n, stride := stride } }).goto a) s

/-! ### EXIT and YIELD (R81, R82, R145, R311, R332) -/

/-- Work of earlier convoys of the hart remains (R81, R386). -/
def State.unfinished (s : State) (b : Nat) : Bool := s.rollback.unfinished s.rk s.iss.base b
/-- A trap of an engine that a hart has not taken when it ends kills the launch (R327). -/
def Device.lostTraps (d : Device) (rk b : Nat) : Device :=
  match (d.hart rk b).engTraps with
  | t :: _ => d.killBy rk b t.cause 0 t.tval
  | [] => d
/-- What the harts' own convoy has left on its way is performed before they end: their reductions, in their order before their row
commands, and their matrix operations (R81, R303, R306, R311). -/
def State.windUp (s : State) (run : List Nat) : State :=
  (run.foldl (fun s b => (s.modDev fun d => d.drainReds s.rk b 0).settleRows b) s).settleQueue
/-- One hart ends: its bank is precharged, its barriers hear of it, and its registers, latches and masks are gone. -/
def State.endHart (s : State) (b : Nat) : State :=
  let bars := (s.hart b).bars.toList
  s.modDev fun d =>
    let d := d.closeBank s.iss.core b
    let d := d.modBank s.iss.core b fun k =>
      { k with groups := k.groups.map fun g => { g with latch := { g.latch with valid := false } } }
    let d := bars.foldl (fun d e => match e with
      | some off => d.modRes s.rk fun r => r.exitBar b off
      | none => d) d
    (d.lostTraps s.rk b).setHart s.rk b {}
/-- The harts of a mask end, with the gang and its stack as they leave them. -/
def State.endHarts (s : State) (run : List Nat) : State :=
  let e := maskOf run
  let s := run.foldl State.endHart s
  let s := s.modGang fun g =>
    { g with gm := g.gm &&& ~~~ e, live := g.live &&& ~~~ e
             ds := g.ds.map fun r => { r with ma := r.ma &&& ~~~ e, mw := r.mw &&& ~~~ e } }
  s.modDev fun d => ((List.range s.gang.size).map (s.iss.base + ·)).foldl (fun d b =>
    d.modHart s.rk b fun t => { t with shGm := t.shGm &&& ~~~ e }) d
/-- Where the gang goes on once harts of it have ended: at the next word with those that are left, else at what the stack says, or
nowhere (R56, R81). -/
def State.leave (s : State) (run : List Nat) : State :=
  if s.gang.gm != 0 then s
  else match resume s.gang.ds with
    | some c => s.follow run c
    | none => s.modGang fun g => { g with ended := true, ds := [] }

/-- EXIT (R81). A row command that a class-0 access still holds back is waited for (R138). -/
def execExit (h : Hdr) (s : State) : Out :=
  wordOp h { acts := true } (wholeGang fun run s =>
    if run.isEmpty then s
    else match run.find? s.unfinished with
    | some b => s.holdOn (.finish b)
    | none =>
      let s := s.windUp run
      match run.find? fun b => !(s.dev.bank s.iss.core b).rowQ.isEmpty with
      | some b => s.holdOn (.rows b)
      | none => (s.endHarts run).leave run) s

/-- YIELD (R82). -/
def execYield (h : Hdr) (s : State) : Out :=
  wordOp h {} (wholeGang fun run s =>
    if run.isEmpty then s
    else
      let others := ((s.dev.gangsOf s.rk).filter fun p => p.1 != s.iss.base && s.dev.ready s.rk p.1 p.2).map Prod.fst
      s.modGang fun g => { g with yieldTo := some (others, s.dev.now + 64) }) s

/-! ### GMASK and HARTID (R53, R83, R84) -/

/-- GMASK (R83). -/
def execGmask (h : Hdr) (d : GmaskDst) (a : PReg) (s : State) : Out :=
  let reg : Reg := match d with
    | .x r => .x r
    | .p r _ => .p r
  wordOp h { rd := [.p a], wr := [reg], all := true } (fun run s =>
    let ballot := maskOf ((banksOf s.gang.gm).filter fun k => (s.hart k).getP a)
    let v : Word := match d with
      | .x _ => ballot.zeroExtend 64
      | .p _ .any => boolWord (ballot != 0)
      | .p _ .all => boolWord (ballot == s.gang.gm)
      | .p _ .none => boolWord (ballot == 0)
    perHart (fun k s => .ok (writeReg k reg v (some 2) s)) run s) s

/-- HID of a hart (R53). -/
def hidOf (s : State) (b : Nat) : Word :=
  BitVec.ofNat 64 (b % 16 + s.iss.base % 16 * 2 ^ 4 + Nat.log2 s.gang.size * 2 ^ 8 + s.iss.core % 2048 * 2 ^ 12
    + s.dev.fabric.dev % 2 ^ 21 * 2 ^ 23)
/-- HARTID (R84). -/
def hidSel (sel : HidSel) (v : Word) : Word :=
  let f (lo n : Nat) : Nat := v.toNat / 2 ^ lo % 2 ^ n
  BitVec.ofNat 64 (match sel with
    | .bank => f 0 4
    | .gbase => f 4 4
    | .gsize => 2 ^ f 8 3
    | .rank => f 0 4 - f 4 4
    | .core => f 12 7
    | .cluster => f 16 3
    | .stand => f 19 4
    | .dev => f 23 21
    | .pcore => f 12 11
    | .phart => f 12 11 * 16 + f 0 4
    | .hid => v.toNat)
/-- HARTID writes one field of HID (R84). -/
def execHartid (h : Hdr) (sel : HidSel) (d : XReg) (s : State) : Out :=
  regWord h (.x d) (some 1) [] (fun s b => hidSel sel (hidOf s b)) s

/-- PFX: the immediate is there for the next word (R34). -/
def execPfx (imm : Word) (s : State) : Out :=
  match s.dev.gang? s.rk s.iss.base with
  | none => .fault .noGang
  | some g =>
    let s := s.begin g
    .next { s with iss := { s.iss with pfx := some imm, addr := nextWord s.iss.addr } }

end Sys2Proof.Machine
end

