-- ==== Sys2Proof/Machine/Matrix.lean ====
section
/-! DEFINITION. The matrix words and the events of the matrix unit (R125, R186, R218 to R240, R328). -/

namespace Sys2Proof.Machine

/-! ### The image of a slot (R225) and its transfers (R239) -/

namespace Device

/-- The completion of an engine operation (R328, R351). -/
def complete (d : Device) (rk : Nat) (c : Comp) : Device :=
  match c with
  | .none => d
  | .word off v => d.modRes rk fun r => (r.write off 8 v.toNat).setTag off true
  | .bar off n => d.modRes rk fun r => r.engineArrive off n
/-- Where a byte of a transfer lies: by the pages that its word translated, or in a vault. -/
def xferPlace (d : Device) (c : Nat) (x : AccXfer) (va : Nat) : Option Place :=
  match d.res? x.res with
  | none => none
  | some r => match d.region c r va with
    | .vault v => some (.mem (.vault v))
    | _ => match x.pages.find? fun e => e.covers r.ctx va with
      | none => none
      | some e => match e.xl with
        | .page l => some (.mem (d.stor (d.leafPa l (va % 2 ^ l.log))))
        | .host l b _ _ => some (.host (b.toNat + va % 2 ^ l.log))
        | _ => none
/-- One line of a transfer read: the image so far, and the lines that were poisoned. A poisoned line has undefined bytes. -/
def xferLine (c : Nat) (x : AccXfer) (t : Device × Memory × List Nat) (k : Nat) : Device × Memory × List Nat :=
  match t.1.xferPlace c x (x.va.toNat + 64 * k) with
  | some (.mem st) =>
    let r := t.1.colRead st 64
    let v := if r.2.2 then freeBytes t.1.now (64 * k) 64 else r.2.1
    (r.1, t.2.1 ++ cellsOf (64 * k) 64 v, if r.2.2 then t.2.2 ++ [k] else t.2.2)
  | some (.host a) => (t.1, t.2.1 ++ cellsOf (64 * k) 64 (t.1.host.read a 64), t.2.2)
  | _ => t
/-- The slot that an ACCLD leaves (R125, R225, R239). -/
def loadedSlot (s : AccSlot) (img : Memory) (bad : List Nat) : AccSlot :=
  let int := nbit (img.read 327680 1) 0
  let hit (i : Nat) : Bool := bad.any fun k => k * 64 < 10 * i + 10 && 10 * i < k * 64 + 64
  let cells := (List.range 32768).filterMap fun i =>
    let v : Acc80 := if hit i then if int then 0 else BitVec.ofNat 80 FF.acc80.cnan else BitVec.ofNat 80 (img.read (10 * i) 10)
    if v = 0 then none else some (i, v)
  { s with int := int, cells := cells
           satf := nbit (img.read 327681 1) 0 || (int && (List.range 32768).any hit) }
/-- A condition is on a word by its tag (R257, R342). -/
def onTag (c : WaitCond) (off : Nat) : Bool :=
  match c.on with
  | .tag _ _ => c.off / 8 == off / 8
  | .full _ n => c.off ≤ off && off < c.off + 8 * n
  | _ => false
/-- The convoy of a gang that has waited at the pool on tags is to be tried again now (R258). -/
def retryDue (d : Device) (rk base : Nat) (g : Gang) : Bool :=
  d.mxServes (resCore rk) rk && d.ready rk base g && g.wait.any fun w => match w.on with
    | .pool l => l.any fun c => c.on.isTag || c.on.isWord
    | _ => false
/-- An engine operation completes at a word of the pool now: convoys that are tried again there go first (R258). -/
def compTurn (d : Device) (rk : Nat) (c : Comp) : Bool :=
  match c with
  | .word off _ => !((d.gangsOf rk).any fun p => d.retryDue rk p.1 p.2 && p.2.wait.any fun w => match w.on with
      | .pool l => l.any fun q => onTag q off
      | _ => false)
  | _ => true
/-- A transfer performed whole, with its completion, and ended (R239). -/
def xferEnd (d : Device) (c : Nat) (x : AccXfer) : Device :=
  let lines := List.range (imageBytes / 64)
  let d :=
    if x.load then
      let r := lines.foldl (xferLine c x) (d, [], [])
      r.1.modSlot c ⟨x.slot % 6, Nat.mod_lt _ (by decide)⟩ fun s => loadedSlot s r.2.1 r.2.2
    else
      lines.foldl (fun d k => match d.xferPlace c x (x.va.toNat + 64 * k) with
        | some (.mem st) => d.colWrite st 64 (x.image.read (64 * k) 64)
        | some (.host a) => { d with host := d.host.write a 64 (x.image.read (64 * k) 64) }
        | _ => d) d
  ((d.complete x.res x.comp).modCore c fun y => { y with xfers := y.xfers.erase x }).sendAts

end Device

/-! ### What every matrix word shares (R226, R227, R232) -/

/-- M, KE and N of TM and TN (R221). -/
def tmM (t : Hart) : Nat := t.tm.toNat % 2 ^ 7
/-- KE of TM. -/
def tmKe (t : Hart) : Nat := t.tm.toNat / 2 ^ 16 % 2 ^ 10
/-- N of TN. -/
def tnN (t : Hart) : Nat := t.tn.toNat % 2 ^ 10
/-- M and N are edges that a word accepts (R221). -/
def edgesOk (t : Hart) : Bool := 1 ≤ tmM t && tmM t ≤ 64 && 1 ≤ tnN t && tnN t ≤ 512

/-- A gang word of the matrix unit: the guard and what it reads agree on every active hart, else it traps; it then acts once,
as the first of them (R226). -/
def gangWord (vals : State → Nat → List Nat) (body : Nat → List Nat → State → State) : List Nat → State → State :=
  wholeGang fun run s =>
    match run with
    | [] => s
    | k :: _ =>
      if run.length ≠ (s.sound (banksOf s.gang.gm)).length || run.any (fun q => vals s q != vals s k) then s.disagree
      else body k run s

/-- The trap 0x04 of a word. -/
def State.bad4 (s : State) : Fail := { cause := 0x04, tval := s.iss.addr }

namespace State

/-- The context's queue as it will have been performed in its order, for what a word must know of it (R227). -/
def queued (s : State) : Device :=
  let c := s.iss.core
  ((s.dev.core c).mx.filter fun e => e.res == s.rk).foldl (fun d e => d.mxPerform c e) s.dev
/-- The slots as the bindings of the queue leave them (R227, R238). -/
def bindings (s : State) : Device :=
  let c := s.iss.core
  ((s.dev.core c).mx.filter fun e => e.res == s.rk && e.binds).foldl (fun d e => d.mxPerform c e) s.dev
/-- The latches as the ACCRDs in the context's queue leave them, which the checks of a matrix word see (R227, R232). -/
def ahead (s : State) : Device :=
  let c := s.iss.core
  ((s.dev.core c).mx.filter fun e => e.res == s.rk && !e.writes.isEmpty).foldl (fun d e => d.mxPerform c e) s.dev
/-- The checks of a matrix word of its latches. -/
def mxCheck (s : State) (k : Nat) (bad : Bool) (uses : List LatUse) : Option Fail :=
  ({ s with dev := s.ahead } : State).laneCheck k bad uses none
/-- What follows once no ACCLD is to write a slot: the checks of a word read the slot's mode, and of ACCRD its contents, which an
ACCLD takes from memory. One of an earlier convoy is waited for, one of the convoy itself is performed first (R32, R227). -/
def afterLoad (s : State) (k : Fin 6) (f : State → State) : State :=
  let c := s.iss.core
  let loading (d : Device) : List AccXfer := (d.core c).xfers.filter fun x => x.load && x.slot == k.val
  let queued (d : Device) : Bool := (d.core c).mx.any fun e => e.res == s.rk && e.loads k
  if queued s.rollback || !(loading s.rollback).isEmpty || (queued s.dev && s.mxOlder) then s.holdOn (.load k.val)
  else
    let s := if queued s.dev then s.settleQueue else s
    f (s.modDev fun d => (loading d).foldl (fun d x => d.xferEnd c x) d)
/-- An operation enters the matrix queue, or its convoy waits for room (R227). -/
def enqueue (s : State) (i : Instr) (op : MxOp) : State :=
  let q := (s.dev.core s.iss.core).mx
  if Config.matrixQueue ≤ q.length || Config.matrixPerGang ≤ (q.filter fun e => e.res == s.rk && e.base == s.iss.base).length then
    s.holdOn .matrix
  else
    let t := ((banksOf s.gang.gm).head?.map s.hart).getD {}
    s.modDev fun d => d.modCore s.iss.core fun c =>
      { c with mx := c.mx ++ [{ res := s.rk, base := s.iss.base, cv := s.gang.cv, word := encode i, op := op, tm := t.tm, tn := t.tn }] }
/-- Units charged to the budget counter of the launch (R231). -/
def spend (s : State) (n : Nat) : State := s.modDev fun d => d.spend s.rk n
/-- The slot that a word names (R223). -/
def slot? (s : State) (i : Sys2Proof.Acc) : Option (Fin 6) := s.bindings.slotOf s.iss.core s.rk i
/-- The record of a physical slot as the bindings of the queue leave it. -/
def accSlot (s : State) (k : Fin 6) : AccSlot := (s.bindings.core s.iss.core).acc[k.val]

end State

/-- A gang latch as a latch reference of a hart. -/
def gref (l : GLat) : LatRef := .gang l
/-- The latches of the tile that starts at a latch (R234). -/
def tileLats (t : GLat) : List GLat := (List.range 8).map fun j => { bank := finBank (t.bank.val + j), g := t.g }
/-- The sectors of a byte range of a latch. -/
def span (lo n : Nat) : List Nat := if n = 0 then [] else (List.range ((lo + n - 1) / 64 + 1 - lo / 64)).map (lo / 64 + ·)

/-! ### TLOAD (R234) -/

/-- B formats that must carry block scales, and those that must not (R234). -/
def bscOk (f : BFmt) (bsc : Bool) : Bool :=
  match f with
  | .e2m1 | .lq8s | .lq8w => bsc
  | .bf16 | .i8 | .n8 => !bsc
  | _ => true
/-- The uses of TLOAD. -/
def tloadUse (tile : GLat) (scale : Option GLat) : Uses where
  latch := (tileLats tile ++ scale.toList).map gref
  queue := true
  seg := fun _ => .whole 16
  charge := 64
/-- TLOAD on its gang (R234). -/
def tloadOn (i : Instr) (bf : BFmt) (half : Bool) (tile : GLat) (scale : Option GLat) (k : Nat) (s : State) : State :=
  let rank := tile.bank.val
  let bad := !(rank == 0 || rank == 8) || s.gang.size < rank + 8 || !bscOk bf scale.isSome
  let uses : List LatUse := (tileLats tile).map (fun l => { ref := gref l, fmt := bVfmt bf })
    ++ scale.toList.map fun l => { ref := gref l, fmt := .n8 }
  match s.mxCheck k bad uses with
  | some f => s.failAll f
  | none =>
    let r : HalfRec := { valid := true, bf := (bVfmt bf).code, bsc := scale.isSome, rank := rank, g := tile.g.val
                         srank := (scale.map fun l => l.bank.val).getD 0, sg := (scale.map fun l => l.g.val).getD 0 }
    let s := s.modGang fun g => { g with halves := g.halves.set half.toNat r (by cases half <;> decide) }
    (s.spend 64).enqueue i (.tload half tile scale)
/-- TLOAD (R234). -/
def execTload (h : Hdr) (bf : BFmt) (half : Bool) (tile : GLat) (scale : Option GLat) (s : State) : Out :=
  wordOp h (tloadUse tile scale)
    (gangWord (fun _ _ => []) fun k _ s => tloadOn (.tload h bf half tile scale) bf half tile scale k s) s

/-! ### TMMA (R218, R220, R221, R235) -/

/-- The integer pairings. -/
def VFmt.mxInt (f : VFmt) : Bool := f == .i8 || f == .n8
/-- Quarters of K that a B format has, less one (R218). -/
def kqMax : VFmt → Nat
  | .lq8s => 3
  | .lq8w => 1
  | _ => 0
/-- ASC as R220 has it. -/
def ascOk (f : AFmt) (asc : Bool) : Bool :=
  match f with
  | .e2m1 => asc
  | .bf16 | .i8 | .n8 => !asc
  | _ => true
/-- The latches that a half record names: the tile, and the scale latch. -/
def HalfRec.tile (r : HalfRec) : List GLat := tileLats { bank := finBank r.rank, g := ⟨r.g % 4, Nat.mod_lt _ (by decide)⟩ }
/-- The scale latch of a half record. -/
def HalfRec.scale (r : HalfRec) : Option GLat :=
  if r.bsc then some { bank := finBank r.srank, g := ⟨r.sg % 4, Nat.mod_lt _ (by decide)⟩ } else none
/-- The latches of a TMMA with the bytes that it reads of them (R232). -/
def tmmaUses (af : AFmt) (kq aseg : Nat) (a : GLat) (scale : Option GLat) (r : HalfRec) (m ke n : Nat) : List LatUse :=
  let bf := VFmt.ofCode r.bf
  let kd := aKd af
  let k0 := if bf.isLq then 128 * kq else 0
  let keB := if bf.isLq then (ke + 7) / 8 * 8 else ke
  let cols (j : Nat) : List Nat := (List.range (min 64 (n - 64 * j)))
  [{ ref := gref a, fmt := aVfmt af
     read := (List.range m).flatMap fun i => span (128 * i) ((ke * (aVfmt af).bits + 7) / 8) }]
  ++ (scale.toList.map fun l =>
    { ref := gref l, fmt := .n8
      read := (List.range m).flatMap fun i => span (aseg * 1024 + i * kd / 32) ((ke + 31) / 32) })
  ++ (r.tile.zipIdx.map fun q =>
    { ref := gref q.1, fmt := bf
      read := (cols q.2).flatMap fun c => span (128 * c + k0 * bf.bits / 8) ((keB * bf.bits + 7) / 8) })
  ++ (r.scale.toList.map fun l =>
    { ref := gref l, fmt := .n8
      read := (List.range 8).flatMap fun j => (cols j).flatMap fun c =>
        span (j * 1024 + (c * bf.kh + k0) / 32) ((ke + 31) / 32) })
/-- The uses of TMMA. -/
def tmmaUse (s : State) (half : Bool) (a : GLat) (scale : Option GLat) : Uses where
  latch :=
    let r := s.gang.half half
    (a :: scale.toList ++ (if r.valid then r.tile ++ r.scale.toList else [])).map gref
  queue := true
/-- TMMA on its gang (R235). -/
def tmmaOn (i : Instr) (af : AFmt) (half : Bool) (kq : BitVec 2) (z : Bool) (aseg : BitVec 3) (d : Sys2Proof.Acc) (a : GLat)
    (scale : Option GLat) (k : Nat) (s : State) : State :=
  match s.slot? d with
  | none => s.failAll (failAt 0x0E d.val)
  | some slot =>
    s.afterLoad slot fun s =>
      let t := s.hart k
      let r := s.gang.half half
      let bf := VFmt.ofCode r.bf
      let m := tmM t
      let n := tnN t
      let ke := keOf af (tmKe t)
      let bad := !r.valid || !pairs bf af || kqMax bf < kq.toNat || bf.mxInt != (s.accSlot slot).int
        || !ascOk af scale.isSome || !edgesOk t || aKd af < ke
      match s.mxCheck k bad (if bad then [] else tmmaUses af kq.toNat aseg.toNat a scale r m ke n) with
      | some f => s.failAll f
      | none =>
        let c := s.iss.core
        let rows := s.ahead.rowUnits c s.iss.base a (s.ahead.halfOnes c s.iss.base r) 0 m
        let s := { s with iss := { s.iss with later := s.iss.later + rows } }
        s.enqueue i (.tmma af half kq.toNat z aseg.toNat slot a scale r m (tmKe t) n)
/-- What of TM and TN a word reads. -/
def tmTn (s : State) (k : Nat) : List Nat := [(s.hart k).tm.toNat, (s.hart k).tn.toNat]
/-- TMMA (R235). -/
def execTmma (h : Hdr) (af : AFmt) (half : Bool) (kq : BitVec 2) (z : Bool) (aseg : BitVec 3) (d : Sys2Proof.Acc) (a : GLat)
    (scale : Option GLat) (s : State) : Out :=
  wordOp h (tmmaUse s half a scale)
    (gangWord tmTn fun k _ s => tmmaOn (.tmma h af half kq z aseg d a scale) af half kq z aseg d a scale k s) s

/-! ### ACCZ (R236) -/

/-- ACCZ on its gang (R236). -/
def acczOn (i : Instr) (edge : Bool) (a : Sys2Proof.Acc) (k : Nat) (s : State) : State :=
  match s.slot? a with
  | none => s.failAll (failAt 0x0E a.val)
  | some slot =>
    s.afterLoad slot fun s =>
    if edge && !edgesOk (s.hart k) then s.failAll s.bad4
    else (s.spend 16).enqueue i (.accz edge slot (tmM (s.hart k)) (tnN (s.hart k)))
/-- ACCZ (R236). -/
def execAccz (h : Hdr) (edge : Bool) (a : Sys2Proof.Acc) (s : State) : Out :=
  wordOp h { charge := 16, queue := true }
    (gangWord (fun s k => if edge then [tmM (s.hart k), tnN (s.hart k)] else []) fun k _ s =>
      acczOn (.accz h edge a) edge a k s) s

/-! ### ACCRD and ACCWR (R237) -/

/-- The formats of a 32-bit element, which reduced service refuses (R419). -/
def State.accWide (s : State) (f : AccFmt) : Bool := s.wide (accVfmt f).bits
/-- ACCRD accepts a format for a slot of a mode (R237). -/
def accrdOk (f : AccFmt) (int : Bool) : Bool :=
  match f with
  | .i8 | .n8 | .i16 | .n16 | .i32 | .n32 => int
  | .f32 => true
  | _ => !int
/-- ACCWR accepts a format for a slot of a mode (R237). -/
def accwrOk (f : AccFmt) (int : Bool) : Bool := (accVfmt f).isInt == int
/-- The element that ACCRD makes of an accumulator, with its flags (R237). It is flushed against its own format, whatever VT.BLK
is: the model's choice (log 37). -/
def accrdElem (c : LaneCfg) (int : Bool) (e : Nat) (a : Acc80) : Nat × Flags :=
  if int && c.fmt.isInt then c.fmt.satTo (sintOf 80 a.toNat)
  else if int then c.outNum e ((intNum (sintOf 80 a.toNat)).ex, fl0)
  else
    let x := FF.acc80.decode a.toNat
    c.outNum e (x.ex, x.snanFlag)
/-- The data of an ACCRD, with the flags raised. -/
def accrdData (c : LaneCfg) (slot : AccSlot) (row : Nat) : Nat × Flags :=
  sweepInto c.fmt.bits 0 (List.range (8192 * 8 / c.fmt.bits)) fun e => accrdElem c slot.int e (slot.get (row * 512 + e))
/-- A hart's latch as a latch of its gang. -/
def State.ownRef (s : State) (k : Nat) (g : Lat) : GLat := { bank := finBank (k - s.iss.base), g := g }
/-- ACCRD on one hart: its checks and its flags, and a part of the operation (R237). -/
def accrdPart (fmt : AccFmt) (d : Lat) (slot : Fin 6) (row : Src) (k : Nat) (s : State) :
    State × Option (GLat × Nat × RowData) :=
  let t := s.hart k
  let c : LaneCfg := { laneCfg t with fmt := accVfmt fmt }
  let x := s.accSlot slot
  let r := (s.src k row).toNat
  let l := s.ownRef k d
  if s.failed k then (s, none)
  else if 64 < r + accNr fmt || !accrdOk fmt x.int || s.accWide fmt then (s.addFail k s.bad4, none)
  else if (s.latR k (.own d)).tag != 0xF && (s.latR k (.own d)).tag.toNat != c.fmt.code then
    (s.addFail k (failAt 0x05 (s.tagTval k (gref l))), none)
  else
    let v := accrdData c ((s.queued.core s.iss.core).acc[slot.val]) r
    match withFlags k v.2 s fun s => s.stepSeed k (!c.fmt.isInt) with
    | .ok s => (s, some (l, r, BitVec.ofNat 65536 v.1))
    | .fail f => (s.addFail k f, none)
    | .hold w => (s.holdOn w, none)
/-- The parts of a hart word, in rising rank. -/
def partsOf {α : Type} (f : Nat → State → State × Option α) : List Nat → State → State × List α
  | [], s => (s, [])
  | k :: l, s =>
    let r := f k s
    let t := partsOf f l r.1
    (t.1, r.2.toList ++ t.2)
/-- ACCRD on the harts that run it, as one operation of the gang. -/
def accrdOn (i : Instr) (fmt : AccFmt) (d : Lat) (a : Sys2Proof.Acc) (row : Src) (run : List Nat) (s : State) : State :=
  if run.isEmpty then s
  else match s.slot? a with
    | none => run.foldl (fun s k => s.addFail k (failAt 0x0E a.val)) s
    | some slot => s.afterLoad slot fun s =>
      let r := partsOf (accrdPart fmt d slot row) run s
      if r.2.isEmpty then r.1 else (r.1.spend (8 * r.2.length)).enqueue i (.accrd slot r.2)
/-- The uses of ACCRD and ACCWR. -/
def accUse (g : Lat) (row : Src) : Uses where
  rd := srcRegs row
  latch := [.own g]
  queue := true
  seg := fun _ => .whole 16
  chargeH := fun _ => 8
/-- ACCRD (R237). -/
def execAccrd (h : Hdr) (fmt : AccFmt) (d : Lat) (a : Sys2Proof.Acc) (row : Src) (s : State) : Out :=
  wordOp h (accUse d row) (accrdOn (.accrd h fmt d a row) fmt d a row) s
/-- ACCWR on one hart: its checks, and a part of the operation (R237). -/
def accwrPart (fmt : AccFmt) (a : Lat) (slot : Fin 6) (row : Src) (k : Nat) (s : State) : State × Option (GLat × Nat) :=
  let r := (s.src k row).toNat
  let l := s.ownRef k a
  if s.failed k then (s, none)
  else
    let bad := 64 < r + accNr fmt || !accwrOk fmt (s.accSlot slot).int || s.accWide fmt
    match s.mxCheck k bad [{ ref := gref l, fmt := accVfmt fmt, read := List.range 128 }] with
    | some f => (s.addFail k f, none)
    | none => (s, some (l, r))
/-- ACCWR on the harts that run it, as one operation of the gang. -/
def accwrOn (i : Instr) (fmt : AccFmt) (d : Sys2Proof.Acc) (a : Lat) (row : Src) (run : List Nat) (s : State) : State :=
  if run.isEmpty then s
  else match s.slot? d with
    | none => run.foldl (fun s k => s.addFail k (failAt 0x0E d.val)) s
    | some slot =>
      s.afterLoad slot fun s =>
        let r := partsOf (accwrPart fmt a slot row) run s
        if r.2.isEmpty then r.1 else (r.1.spend (8 * r.2.length)).enqueue i (.accwr fmt slot r.2)
/-- ACCWR (R237). -/
def execAccwr (h : Hdr) (fmt : AccFmt) (d : Sys2Proof.Acc) (a : Lat) (row : Src) (s : State) : Out :=
  wordOp h (accUse a row) (accwrOn (.accwr h fmt d a row) fmt d a row) s

/-! ### ACCCLM and ACCREL (R238) -/

/-- ACCCLM on its gang (R238): what it binds is settled by the bindings before it in the queue. -/
def accclmOn (i : Instr) (int : Bool) (d : PReg) (a : Sys2Proof.Acc) (_ : Nat) (run : List Nat) (s : State) : State :=
  match s.slot? a with
  | some slot =>
    s.afterLoad slot fun s =>
    if (s.accSlot slot).int == int then s.enqueue i (.accclm none (some slot) d true run) else s.failAll (failAt 0x0E a.val)
  | none => match s.bindings.freeSlot s.iss.core with
    | some slot => s.enqueue i (.accclm (some (slot, a, int)) (some slot) d true run)
    | none => s.enqueue i (.accclm none none d false run)
/-- ACCCLM (R238). -/
def execAccclm (h : Hdr) (int : Bool) (d : PReg) (a : Sys2Proof.Acc) (s : State) : Out :=
  wordOp h { wr := [.p d], queue := true } (gangWord (fun _ _ => []) (accclmOn (.accclm h int d a) int d a)) s
/-- ACCREL on its gang (R238): it takes its place in the queue, behind an ACCLD of the slot (R227). -/
def accrelOn (i : Instr) (a : Sys2Proof.Acc) (_ : Nat) (_ : List Nat) (s : State) : State := s.enqueue i (.accrel (s.slot? a))
/-- ACCREL (R238). -/
def execAccrel (h : Hdr) (a : Sys2Proof.Acc) (s : State) : Out :=
  wordOp h { queue := true } (gangWord (fun _ _ => []) (accrelOn (.accrel h a) a)) s

/-! ### ACCSV and ACCLD (R239) -/

/-- The specifier of a completion, or the reason it is refused: alignment and bounds (R239, R351). -/
def compOf (r : Residence) (count : Nat) (bar : Bool) (spec : Word) : Option Comp :=
  let off := (spec.extractLsb' 0 32).toNat
  let align := if bar then 16 else 8
  if r.fb ≤ off && off < r.sb && off % align == 0 then
    some (if bar then .bar off count else .word off ((spec.extractLsb' 32 32).zeroExtend 64))
  else none
/-- The register of a completion specifier. -/
def specReg : CompSpec → Option (Bool × XReg)
  | .none => Option.none
  | .word r => some (false, r)
  | .bar r => some (true, r)
/-- The registers of a completion specifier. -/
def specRegs (c : CompSpec) : List Reg := (specReg c).toList.map fun p => .x p.2
/-- The value of a completion specifier. -/
def specVal (s : State) (k : Nat) (c : CompSpec) : Word :=
  match specReg c with
  | some p => (s.hart k).getX p.2
  | none => 0
/-- The completion that a word asks for; none when its specifier is refused. -/
def specComp (s : State) (k : Nat) (r : Residence) (count : Nat) (c : CompSpec) : Option Comp :=
  match specReg c with
  | some p => compOf r count p.1 ((s.hart k).getX p.2)
  | none => some .none
/-- The addresses at which the pages of a range may change: its start, and each 64 KiB boundary in it. -/
def pageStarts (va n : Nat) : List Nat :=
  va :: ((List.range (n / 2 ^ 16 + 1)).map fun k => (va / 2 ^ 16 + k + 1) * 2 ^ 16).filter (· < va + n)
/-- The translations of a range, in address order: the first failed check, or the pages (R239). -/
def xferPages (acc : Acc) (core rk : Nat) : List Nat → Device → List AtcEntry → Device × Except AccR (List AtcEntry)
  | [], d, l => (d, .ok l)
  | a :: t, d, l =>
    match d.res? rk with
    | none => (d, .ok l)
    | some r =>
      let x := d.checkAt core r { scratch := false } acc a
      match x.2 with
      | .ok _ =>
        let e := if a < 2 ^ 56 then (x.1.core core).atc.find? fun e => e.covers r.ctx a else none
        xferPages acc core rk t x.1 (l ++ e.toList)
      | f => (x.1, .error f)
/-- ACCSV or ACCLD on its gang (R239). -/
def accmoveOn (i : Instr) (load : Bool) (comp : CompSpec) (addr : XReg) (a : Sys2Proof.Acc) (k : Nat) (_ : List Nat) (s : State) : State :=
  let va := (s.hart k).getX addr
  match s.slot? a, s.res? with
  | some slot, some r =>
    if va.toNat % 64 ≠ 0 then s.failAll (failAt 0x09 va.toNat)
    else
      let p := xferPages (if load then .read else .write) s.iss.core s.rk (pageStarts va.toNat imageBytes) s.dev []
      let s := { s with dev := p.1 }
      match p.2 with
      | .error (.fail f) => s.failAll f
      | .error (.wait w) => s.holdOn w
      | .error (.ok _) => s
      | .ok pages =>
        match specComp s k r imageBytes comp with
        | none => s.failAll { cause := 0x10, tval := specVal s k comp }
        | some c =>
          (s.spend 64).enqueue i (.move slot { res := s.rk, bank := s.iss.base, slot := slot.val, load := load, va := va
                                               comp := c, image := [], pages := pages })
  | _, _ => s.failAll (failAt 0x0E a.val)
/-- What the active harts of ACCSV and ACCLD must agree on. -/
def moveVals (comp : CompSpec) (addr : XReg) (s : State) (k : Nat) : List Nat :=
  [((s.hart k).getX addr).toNat, (specVal s k comp).toNat]
/-- ACCSV (R239). -/
def execAccsv (h : Hdr) (comp : CompSpec) (addr : XReg) (a : Sys2Proof.Acc) (s : State) : Out :=
  wordOp h { rd := .x addr :: specRegs comp, charge := 64, queue := true }
    (gangWord (moveVals comp addr) (accmoveOn (.accsv h comp addr a) false comp addr a)) s
/-- ACCLD (R239). -/
def execAccld (h : Hdr) (comp : CompSpec) (a : Sys2Proof.Acc) (addr : XReg) (s : State) : Out :=
  wordOp h { rd := .x addr :: specRegs comp, charge := 64, queue := true }
    (gangWord (moveVals comp addr) (accmoveOn (.accld h comp a addr) true comp addr a)) s

/-! ### TSTAT (R240) -/

/-- A result of TSTAT on every hart that runs it. -/
def putStat (d : XReg) (v : Nat) (run : List Nat) (s : State) : State :=
  run.foldl (fun s k => writeReg k (.x d) (BitVec.ofNat 64 v) none s) s
/-- TSTAT on its gang (R240). The half records and the budget counter are read as the queue before it leaves them (R227). -/
def tstatOn (i : Instr) (sel : TstatSel) (d : XReg) (_ : Nat) (run : List Nat) (s : State) : State :=
  match sel with
  | .slot a => s.enqueue i (.tstat sel (s.slot? a) d run 0)
  | .half => s.enqueue i (.tstat sel none d run (s.queued.halfStat s.iss.core s.rk s.iss.base))
  | .budget => s.enqueue i (.tstat sel none d run (s.queued.budgetOf s.rk))
  | .satclr a => match s.slot? a with
    | some slot => s.enqueue i (.tstat sel (some slot) d run 0)
    | none => s.failAll (failAt 0x0E a.val)
/-- TSTAT (R240). -/
def execTstat (h : Hdr) (sel : TstatSel) (d : XReg) (s : State) : Out :=
  wordOp h { wr := [.x d], queue := true } (gangWord (fun _ _ => []) (tstatOn (.tstat h sel d) sel d)) s

/-! ### The events of the matrix unit (R227 to R230, R239) -/

/-- MATRIX_OP_START: an entry of the queue starts, when it may (R227, R228). -/
def execMatrixOpStart (core : Fin 2048) (k : Fin 16) (s : State) : Out :=
  .next (s.modDev fun d => if d.mxCanStart core k then d.mxStart core k else d)
/-- The entry at an index of the queue has run its time. -/
def Device.mxDone (d : Device) (c k : Nat) : Bool :=
  match (d.core c).mx[k]? with
  | some e => e.started && e.doneAt ≤ d.now
  | none => false
/-- MATRIX_OP_COMPLETE: an entry that has run its time takes effect and leaves the queue (R229, R234 to R237). -/
def execMatrixOpComplete (core : Fin 2048) (k : Fin 16) (s : State) : Out :=
  .next (s.modDev fun d =>
    match (d.core core).mx[k.val]? with
    | some e =>
      if d.mxDone core k then (d.modCore core fun x => { x with mx := dropIdx k.val x.mx }).mxPerform core e else d
    | none => d)
/-- ACC_TRANSFER_COMPLETE: a transfer moves its image and completes (R239), when its completion has its turn (R258). -/
def execAccTransferComplete (core : Fin 2048) (k : Nat) (s : State) : Out :=
  .next (s.modDev fun d => match (d.core core).xfers[k]? with
    | some x => if d.compTurn x.res x.comp then d.xferEnd core x else d
    | none => d)

end Sys2Proof.Machine
end

