-- ==== Sys2Proof/Machine/Pool.lean ====
section
/-! DEFINITION. The scalar memory words: loads and stores, tag words, prefetch, the cache words, atomics on scratchpads and
vaults, and the events of tag waits, pool caches and proxy copies (R245, R252, R253, R256 to R269). -/

namespace Sys2Proof.Machine

/-! ### A checked access of a hart (R261, R262) -/

/-- The address of a memory operand (R261). -/
def memAddr (s : State) (k : Nat) (base : XReg) (disp : Src) : Nat := ((s.hart k).getX base + s.src k disp).toNat
/-- The trap of a poisoned byte read (R262). -/
def poisonAt (va : Nat) : Fail := failAt 0x0B (va / 64 * 64)
/-- The line of memory that a place lies in. -/
def Place.line : Place → Option (Bool × Nat)
  | .mem (.dram key) => some (true, key / 64)
  | .mem (.vault v) => some (false, v / 64)
  | _ => none

namespace State

/-- A hart has reductions on their way to the line of a place: its own later accesses follow them (R303). -/
def redTo (d : Device) (rk k : Nat) (p : Place) : Bool :=
  d.portQ.any fun r => r.res == rk && r.bank == k && p.line.isSome
    && r.parts.any fun q => (Place.mem (d.stor q.1)).line == p.line
/-- What follows the reductions of a hart: it waits for those of earlier convoys; those of its own convoy are accepted first, in
word order (R303, R306). -/
def afterReds (s : State) (k : Nat) (go : State → HRes) : HRes :=
  if 0 < (s.rollback.hart s.rk k).redOut then .hold (.reductions k 0)
  else go (s.modDev fun d => d.drainReds s.rk k 0)
/-- A checked access at an address: alignment, region, translation and permission, in this order (R262). -/
def access (s : State) (k : Nat) (ad : Admits) (acc : Acc) (aligned : Bool) (va : Nat) (go : State → Place → HRes) : HRes :=
  if !aligned then .fail (failAt 0x09 va)
  else match s.res? with
    | none => .ok s
    | some r =>
      let x := s.dev.checkAt s.iss.core r ad acc va
      let s := { s with dev := x.1 }
      match x.2 with
      | .fail f => .fail f
      | .wait w => .hold w
      | .ok p => if redTo s.dev s.rk k p then s.afterReds k fun s => go s p else go s p
/-- `n` bytes read at a checked place; a poisoned byte traps (R262). -/
def readBytes (s : State) (p : Place) (va n : Nat) (go : State → Nat → HRes) (na : Bool := false) : HRes :=
  let r := s.dev.readAt s.iss.core s.rk p n na
  if r.2.2 then .fail (poisonAt va) else go { s with dev := r.1 } r.2.1
/-- `n` bytes written at a checked place. -/
def writeBytes (s : State) (p : Place) (n v : Nat) (na : Bool := false) : State :=
  s.modDev fun d => d.writeAt s.iss.core s.rk p n v na

end State

/-! ### LD, ST, LDV, STV (R263, R267) -/

/-- Bytes of an element of LD. -/
def ldBytes : LdTy → Nat
  | .i8 | .n8 => 1 | .i16 | .n16 => 2 | .i32 | .n32 => 4 | .x64 => 8
/-- What LD makes of the bytes (R263). -/
def ldRes (ty : LdTy) (v : Nat) : Word :=
  match ty with
  | .i8 => sextN 8 (BitVec.ofNat 64 v) | .i16 => sextN 16 (BitVec.ofNat 64 v) | .i32 => sextN 32 (BitVec.ofNat 64 v)
  | .n8 | .n16 | .n32 | .x64 => BitVec.ofNat 64 v
/-- Bytes of an element of ST. -/
def stBytes : StSz → Nat
  | .b8 => 1 | .b16 => 2 | .b32 => 4 | .b64 => 8
/-- The uses of a load. -/
def ldUse (wr : List Reg) (base : XReg) (disp : Src) : Uses := { rd := .x base :: srcRegs disp, wr := wr }
/-- The uses of a store. -/
def stUse (rd : List Reg) (base : XReg) (disp : Src) : Uses := { rd := rd ++ .x base :: srcRegs disp, old := true }
/-- LD on one hart (R263). -/
def ldOn (ty : LdTy) (na : Bool) (d base : XReg) (disp : Src) (k : Nat) (s : State) : HRes :=
  let va := memAddr s k base disp
  let n := ldBytes ty
  s.access k { frames := true } .read (va % n == 0) va fun s p =>
    s.readBytes p va n (na := na) fun s v => .ok (writeReg k (.x d) (ldRes ty v) none s)
/-- LD (R263). -/
def execLd (h : Hdr) (ty : LdTy) (na : Bool) (d : XReg) (base : XReg) (disp : Src) (s : State) : Out :=
  wordOp h (ldUse [.x d] base disp) (perHart (ldOn ty na d base disp)) s
/-- ST on one hart (R263). -/
def stOn (sz : StSz) (na : Bool) (reg base : XReg) (disp : Src) (k : Nat) (s : State) : HRes :=
  let va := memAddr s k base disp
  let n := stBytes sz
  s.access k {} .write (va % n == 0) va fun s p => .ok (s.writeBytes p n ((s.hart k).getX reg).toNat na)
/-- ST (R263). -/
def execSt (h : Hdr) (sz : StSz) (na : Bool) (reg base : XReg) (disp : Src) (s : State) : Out :=
  wordOp h (stUse [.x reg] base disp) (perHart (stOn sz na reg base disp)) s
/-- The registers of LDV and STV. -/
def vecRegs (d : XReg) (n1 : BitVec 3) : List XReg :=
  (List.range (n1.toNat + 1)).map fun j => ⟨(d.val + j) % 64, Nat.mod_lt _ (by decide)⟩
/-- The address check of LDV and STV (R262). -/
def vecAligned (va : Nat) (n1 : BitVec 3) : Bool := va % 8 == 0 && va % 64 + 8 * (n1.toNat + 1) ≤ 64
/-- LDV on one hart (R267). -/
def ldvOn (n1 : BitVec 3) (d base : XReg) (disp : Src) (k : Nat) (s : State) : HRes :=
  let va := memAddr s k base disp
  s.access k { frames := true } .read (vecAligned va n1) va fun s p =>
    s.readBytes p va (8 * (n1.toNat + 1)) fun s v =>
      .ok ((vecRegs d n1).zipIdx.foldl (fun s q => writeReg k (.x q.1) (BitVec.ofNat 64 (getBytes v (8 * q.2) 8)) none s) s)
/-- LDV (R267). -/
def execLdv (h : Hdr) (n1 : BitVec 3) (d : XReg) (base : XReg) (disp : Src) (s : State) : Out :=
  wordOp h (ldUse ((vecRegs d n1).map .x) base disp) (perHart (ldvOn n1 d base disp)) s
/-- STV on one hart (R267). -/
def stvOn (n1 : BitVec 3) (reg base : XReg) (disp : Src) (k : Nat) (s : State) : HRes :=
  let va := memAddr s k base disp
  s.access k {} .write (vecAligned va n1) va fun s p =>
    .ok (s.writeBytes p (8 * (n1.toNat + 1))
      ((vecRegs reg n1).zipIdx.foldl (fun v q => v + ((s.hart k).getX q.1).toNat * 2 ^ (64 * q.2)) 0))
/-- STV (R267). -/
def execStv (h : Hdr) (n1 : BitVec 3) (reg base : XReg) (disp : Src) (s : State) : Out :=
  wordOp h (stUse ((vecRegs reg n1).map .x) base disp) (perHart (stvOn n1 reg base disp)) s

/-! ### Tag words (R257 to R260, R264, R265) -/

/-- The regions of a tag word (R262). -/
def tagAdmits : Admits := { vault := false, global := false }
/-- The word of the scratchpad at a checked place. -/
def Place.off : Place → Nat
  | .pool o => o
  | _ => 0
/-- A tag written by a tag word of the convoy (R259). -/
def State.putTag (s : State) (off : Nat) (v : Bool) : State :=
  let s := s.modDev fun d => d.modRes s.rk fun r => r.setTag off v
  { s with iss := { s.iss with tagWrites := off / 8 :: s.iss.tagWrites } }
/-- The checks of a tag word on one hart (R262), with what it reads of the value. -/
def tagCheck (base : XReg) (disp : Src) (reads : Bool) (align : Nat) (k : Nat) (s : State) : HRes :=
  let va := memAddr s k base disp
  s.access k tagAdmits .read (va % align == 0) va fun s p =>
    if reads then s.readBytes p va 8 fun s _ => .ok s else .ok s
/-- The offset that a tag word names on a hart. -/
def tagOff (s : State) (k : Nat) (base : XReg) (disp : Src) : Nat := memAddr s k base disp - poolWindow
/-- The conditions of a waiting tag word, in rising rank: a word written by an earlier tag word of the convoy, or by this one
on a lower rank, never meets one (R259). -/
def tagConds (want writes : Bool) (base : XReg) (disp : Src) (s : State) : List Nat → List Nat → List WaitCond
  | [], _ => []
  | k :: l, ws =>
    let off := tagOff s k base disp
    { bank := k, off := off, on := .tag want (ws.contains (off / 8)) }
      :: tagConds want writes base disp s l (if writes then off / 8 :: ws else ws)
/-- A waiting convoy of lower bank proceeds first at a word of these conditions: what reaches a word in one cycle is taken in
ascending hart number (R258). -/
def Device.poolTurn (d : Device) (rk base : Nat) (cs : List WaitCond) : Bool :=
  (d.gangsOf rk).any fun p => p.1 < base && match p.2.wait with
    | some w => match w.on with
      | .pool l => d.allHold rk l && l.any fun c => c.on.isTag && cs.any fun q => q.on.isTag && q.off / 8 == c.off / 8
      | _ => false
    | none => false
/-- A word that waits at the pool: the checks of every hart, then its conditions against the pool as the convoy found it, then
its effect on each hart (R32, R259, R262, R333). -/
def waitWord (check : Nat → State → HRes) (conds : State → List Nat → List WaitCond) (act : Nat → State → HRes)
    (run : List Nat) (s : State) : State :=
  let s := perHart check run s
  if s.iss.hold.isSome then s
  else match s.rollback.res? s.rk with
    | none => s
    | some r =>
      let cs := s.iss.conds ++ conds s (s.sound run)
      if cs.all (WaitCond.holds r) && !s.rollback.poolTurn s.rk s.iss.base cs then
        perHart act (s.sound run) { s with iss := { s.iss with conds := cs } }
      else s.holdOn (.pool cs)
/-- A tag word that waits (R264). -/
def tagWord (want writes reads : Bool) (base : XReg) (disp : Src) (act : Nat → State → HRes) : List Nat → State → State :=
  waitWord (tagCheck base disp reads 8) (fun s run => tagConds want writes base disp s run s.iss.tagWrites) act
/-- The effect of LDE and LDF on one hart. -/
def tagLoad (empties : Bool) (d base : XReg) (disp : Src) (k : Nat) (s : State) : HRes :=
  let off := tagOff s k base disp
  s.readBytes (.pool off) (poolWindow + off) 8 fun s v =>
    let s := writeReg k (.x d) (BitVec.ofNat 64 v) none s
    .ok (if empties then s.putTag off false else s)
/-- The effect of STE and STF on one hart; the hart's reductions are accepted before it (R306). -/
def tagStore (reg base : XReg) (disp : Src) (k : Nat) (s : State) : HRes :=
  let off := tagOff s k base disp
  s.afterReds k fun s => .ok ((s.writeBytes (.pool off) 8 ((s.hart k).getX reg).toNat).putTag off true)
/-- LDE (R264). -/
def execLde (h : Hdr) (d : XReg) (base : XReg) (disp : Src) (s : State) : Out :=
  wordOp h { ldUse [.x d] base disp with old := true } (tagWord true true true base disp (tagLoad true d base disp)) s
/-- LDF (R264). -/
def execLdf (h : Hdr) (d : XReg) (base : XReg) (disp : Src) (s : State) : Out :=
  wordOp h (ldUse [.x d] base disp) (tagWord true false true base disp (tagLoad false d base disp)) s
/-- STE (R264). -/
def execSte (h : Hdr) (reg base : XReg) (disp : Src) (s : State) : Out :=
  wordOp h (stUse [.x reg] base disp) (tagWord false true false base disp (tagStore reg base disp)) s
/-- A hart's part of a tag word that never waits: its checks, and then its effect. -/
def tagNow (base : XReg) (disp : Src) (align : Nat) (act : Nat → State → HRes) (k : Nat) (s : State) : HRes :=
  match tagCheck base disp false align k s with
  | .ok s => act k s
  | r => r
/-- STF (R264). -/
def execStf (h : Hdr) (reg base : XReg) (disp : Src) (s : State) : Out :=
  wordOp h (stUse [.x reg] base disp) (perHart (tagNow base disp 8 (tagStore reg base disp))) s
/-- The words of a tag block. -/
def blkWords (blk : Bool) : List Nat := List.range (if blk then 64 else 1)
/-- The address check of TAGR and TAGW (R262, R265). -/
def blkAlign (blk : Bool) : Nat := if blk then 512 else 8
/-- What TAGR reads: the tags as the convoy found them (R259, R265). -/
def tagrRes (s : State) (blk : Bool) (off : Nat) : Word :=
  match s.rollback.res? s.rk with
  | some r => BitVec.ofNat 64 (r.tags off (if blk then 64 else 1))
  | none => 0
/-- TAGR (R265). -/
def execTagr (h : Hdr) (blk : Bool) (d : XReg) (base : XReg) (disp : Src) (s : State) : Out :=
  wordOp h (ldUse [.x d] base disp) (perHart (tagNow base disp (blkAlign blk) fun k s =>
    .ok (writeReg k (.x d) (tagrRes s blk (tagOff s k base disp)) none s))) s
/-- The effect of TAGW on one hart (R265). -/
def tagwOn (blk : Bool) (reg base : XReg) (disp : Src) (k : Nat) (s : State) : HRes :=
  let off := tagOff s k base disp
  let v := (s.hart k).getX reg
  .ok ((blkWords blk).foldl (fun s j => s.putTag (off + 8 * j) (v.getLsbD j)) s)
/-- TAGW (R265). -/
def execTagw (h : Hdr) (blk : Bool) (reg base : XReg) (disp : Src) (s : State) : Out :=
  wordOp h (stUse [.x reg] base disp) (perHart (tagNow base disp (blkAlign blk) (tagwOn blk reg base disp))) s

namespace Device

/-- The gang of the issuing context that a bank belongs to: its residence and its first bank. -/
def gangAt (d : Device) (c b : Nat) : Option (Nat × Nat × Gang) :=
  match (d.core c).issuing with
  | none => none
  | some slot =>
    let rk := resKey c slot
    ((d.gangsOf rk).find? fun p => p.1 ≤ b && b < p.1 + p.2.size).map fun p => (rk, p.1, p.2)
/-- A gang's wait is over: its convoy is tried again. -/
def retryGang (d : Device) (rk base : Nat) : Device :=
  d.modGang rk base fun g => { g with wait := g.wait.map fun w => { w with retry := true } }
/-- The wait at the pool of the gang at a bank: its residence, its first bank, its start and its conditions. -/
def poolWait (d : Device) (c b : Nat) : Option (Nat × Nat × Nat × List WaitCond) :=
  match d.gangAt c b with
  | some (rk, base, g) => match g.wait with
    | some w => match w.on with
      | .pool l => if w.retry then none else some (rk, base, w.pool.getD w.since, l)
      | _ => none
    | none => none
  | none => none
/-- The gang at a bank, waiting at the pool on a condition of some kind, is tried again when every condition holds (R258); at an
object that has been initialised again it still waits, and shows there (R339, R341). -/
def wakePool (d : Device) (c b : Nat) (kind : PoolCond → Bool) : Device :=
  match d.poolWait c b with
  | some (rk, base, _, l) =>
    if !l.any (fun q => kind q.on) then d
    else if d.allHold rk l then (if d.poolTurn rk base l then d else d.retryGang rk base)
    else d.showWaits rk l
  | none => d
/-- The tag-wait limit of a residence (R260). -/
def tagLimit (d : Device) (rk : Nat) : Nat :=
  match d.res? rk with
  | some r => 2 ^ (r.twl + 10)
  | none => 0

end Device

/-- The failed checks of a convoy that reaches the limit: each hart with its first unmet condition (R58, R260, R342). -/
def Device.limitFails (d : Device) (rk : Nat) (l : List WaitCond) : List (Nat × Fail) :=
  match d.res? rk with
  | none => []
  | some r => l.foldl (fun fs c =>
      if c.holds r || c.on.isBarrier || fs.any fun (p : Nat × Fail) => p.1 == c.bank then fs
      else fs ++ [(c.bank, failAt 0x1A (poolWindow + c.off))]) []

/-- TAG_WAIT_RETRY: a convoy waiting on tags is tried again once the tags are as it needs them (R258, R259). -/
def execTagWaitRetry (core : Fin 2048) (bank : Fin 16) (s : State) : Out :=
  .next (s.modDev fun d => d.wakePool core bank PoolCond.isTag)
/-- TAG_WAIT_TIMEOUT: a convoy that has waited to the limit traps with 0x1A (R260, R342). -/
def execTagWaitTimeout (core : Fin 2048) (bank : Fin 16) (s : State) : Out :=
  .next (s.modDev fun d => match d.poolWait core bank with
    | some (rk, base, since, l) =>
      let fs := d.limitFails rk l
      if d.now < since + d.tagLimit rk || fs.isEmpty then d
      else match d.gang? rk base with
        | some g => d.takeFails rk base g.pc fs
        | none => d
    | none => d)

/-! ### Prefetch and the cache words (R256, R266, R268) -/

namespace Device

/-- The line at an address of a context holds a byte of a range of addresses, taken modulo 2^64 (R268). -/
def lineIn (a n va : Nat) : Bool := n != 0 && (va / 64 + 2 ^ 58 - a / 64) % 2 ^ 58 ≤ (a % 64 + n - 1) / 64
/-- A line of a running launch's write set (R256): some address of a region leads there. -/
def inWriteSet (d : Device) (key : Nat) : Bool :=
  d.launches.any fun l => l.state == .running && !l.wset.isEmpty &&
    ((d.pagesOf l.record.ctx).any fun va => match d.walk l.record.ctx va with
      | .ok f => (d.offsetOf f (key / 64)).any fun off => l.wset.any fun w => lineIn w.1 w.2 (va / 2 ^ f.log * 2 ^ f.log + off)
      | .fault _ => false)
/-- A line brought into the pool cache of a core (R256, R266). -/
def prefetch (d : Device) (core : Nat) (st : Stor) : Device :=
  match st with
  | .dram key => if d.inWriteSet key then d else (d.cachedRead core st 1).1
  | _ => d
/-- The lines that the words act on: those of the core's pool cache, and the proxy lines of its stand. -/
def coveredLines (d : Device) (core : Nat) : List Nat :=
  ((d.linesOf core).map CacheLine.line
    ++ (d.proxies.filter fun p => p.stand == core / 128 && !atHome p.line p.stand).map Proxy.line).dedup
/-- A line has something to be written home (R268). -/
def lineDirty (d : Device) (core line : Nat) : Bool :=
  (d.dirty? line).any (fun c => c.core == core) || (d.proxy? (core / 128) line).any fun p => p.marks != 0
/-- The lines that a CINV or CWB has to do: of those that the core's pool cache or the stand's proxies hold, the ones that it covers,
and for CWB those alone that are dirty (R268). -/
def cleanList (d : Device) (core : Nat) (ctx : BitVec 12) (inv : Bool) (range : Option (Nat × Nat)) : List Nat :=
  (d.coveredLines core).filter fun l => (inv || d.lineDirty core l) && range.all fun q =>
    (d.lineVas core ctx l).any fun va => lineIn q.1 q.2 va
/-- The lines of a list done, one after the other (R268). -/
def cleanAll (d : Device) (core : Nat) (inv : Bool) (l : List Nat) : Device := l.foldl (fun d l => d.cleanLine core inv l) d

end Device

/-- PREF on one hart (R266). The spec gives PREF no access size: the model takes 8 bytes (log 28). Which permission a page must give is
not said either: the model asks for R, and for PREF.ex for W alone, DESIGN CHOICE (log 28). -/
def prefOn (ex : Bool) (base : XReg) (disp : Src) (k : Nat) (s : State) : HRes :=
  let va := memAddr s k base disp
  if 2 ^ 56 ≤ va || va % 8 != 0 then .ok s
  else
    let x := s.dev.globalAt s.iss.core s.ctx (if ex then .write else .read) va
    .ok { s with dev := match x.2 with
      | .ok (.mem st) => x.1.prefetch s.iss.core st
      | _ => x.1 }
/-- PREF (R266). -/
def execPref (h : Hdr) (ex : Bool) (base : XReg) (disp : Src) (s : State) : Out :=
  wordOp h { rd := .x base :: srcRegs disp } (perHart (prefOn ex base disp)) s
/-- The registers of a cache word. -/
def crangeRegs : CRange → List Reg
  | .all => []
  | .range base len => .x base :: srcRegs len
/-- The address and the length of the range of a cache word, none for every line. -/
def crange (s : State) (k : Nat) : CRange → Option (Nat × Nat)
  | .all => none
  | .range base len => some (((s.hart k).getX base).toNat, (s.src k len).toNat)
/-- CINV or CWB on one hart (R268): it overlaps the bytes of its lines, and follows the reductions of the hart to them (R303). Each try does
one line, and the last one is done as the convoy takes effect with what the convoy itself has stored: a pre-emption comes between two
lines, and the convoy executes again whole. -/
def cleanOn (inv : Bool) (r : CRange) (k : Nat) (s : State) : HRes :=
  s.afterReds k fun s =>
    let todo (d : Device) : List Nat := d.cleanList s.iss.core s.ctx inv (crange s k r)
    match todo s.rollback with
    | l :: _ :: _ => .hold (.lines inv l)
    | _ => .ok (s.modDev fun d => d.cleanAll s.iss.core inv (todo d))
/-- CINV (R268). -/
def execCinv (h : Hdr) (r : CRange) (s : State) : Out :=
  wordOp h { rd := crangeRegs r, old := true } (perHart (cleanOn true r)) s
/-- CWB (R268). -/
def execCwb (h : Hdr) (r : CRange) (s : State) : Out :=
  wordOp h { rd := crangeRegs r, old := true } (perHart (cleanOn false r)) s
/-- A line is the least recently used of its set among these, the most recent first, and the set is full (R245). -/
def setEvicts (lines : List Nat) (line : Nat) : Bool :=
  let set := lines.filter fun l => Config.cacheSet l == Config.cacheSet line
  set.getLast? == some line && Config.cacheWays ≤ set.length
/-- CACHE_LINE_EVICT: the least recently used line of a full set leaves a pool cache; a dirty one is written home (R245, R252). -/
def execCacheLineEvict (core : Fin 2048) (pa : BitVec 60) (s : State) : Out :=
  .next (s.modDev fun d => match d.stor pa.toNat with
    | .dram key =>
      if setEvicts ((d.linesOf core).map CacheLine.line) (key / 64) then d.evictLine core (key / 64) else d
    | _ => d)
/-- PROXY_EVICT: the least recently used line of a full set leaves its slice; a proxy copy is written home (R253, R255). -/
def execProxyEvict (stand : Fin 16) (pa : BitVec 60) (s : State) : Out :=
  .next (s.modDev fun d => match d.stor pa.toNat with
    | .dram key =>
      if setEvicts ((d.sliceOf stand (homeSlice key)).map Proxy.line) (key / 64) then d.flushProxy stand (key / 64) else d
    | _ => d)
/-- HW_PREFETCH: a prefetcher brings a line near a core (R256). -/
def execHwPrefetch (core : Fin 2048) (pa : BitVec 60) (s : State) : Out :=
  .next (s.modDev fun d => d.prefetch core (d.stor pa.toNat))

/-! ### AMOP (R269) -/

/-- AMOP on one hart (R269). -/
def amopOn (op : AOp) (w : Bool) (d a : XReg) (b : Src) (k : Nat) (s : State) : HRes :=
  let va := ((s.hart k).getX a).toNat
  let n := opBits w / 8
  s.access k { global := false } .atomic (va % n == 0) va fun s p =>
    s.readBytes p va n fun s v =>
      let new := amoNew op w v (s.src k b).toNat ((s.hart k).getX d).toNat
      .ok (writeReg k (.x d) (BitVec.ofNat 64 v) none (s.writeBytes p n new))
/-- AMOP (R269). -/
def execAmop (h : Hdr) (op : AOp) (w : Bool) (d : XReg) (a : XReg) (b : Src) (s : State) : Out :=
  wordOp h { rd := .x d :: .x a :: srcRegs b, wr := [.x d], old := true } (perHart (amopOn op w d a b)) s

end Sys2Proof.Machine
end

