-- ==== Sys2Proof/Machine/Row.lean ====
section
/-! DEFINITION. The row-control words and the start of a row command (R116, R119, R122, R126 to R136, R419). -/

namespace Sys2Proof.Machine

namespace State

/-- A group of a hart's bank. -/
def grp (s : State) (b : Nat) (g : Lat) : Group := s.dev.group s.iss.core b g
/-- The state with a group of a hart's bank changed. -/
def modGrp (s : State) (b : Nat) (g : Lat) (f : Group → Group) : State :=
  s.modDev fun d => d.modGroup s.iss.core b g f
/-- A row command queued at a hart's bank (R60). -/
def pushRow (s : State) (b : Nat) (g : Lat) (op : RowOp) (joined : Bool := false) : State :=
  let cv := s.gang.cv
  s.modDev fun d => d.modBank s.iss.core b fun k => Bank.arrive d.now
    { k with rowQ := k.rowQ ++ [{ g := g, op := op, cv := cv, n := k.nextPlace, joined := joined }] }
/-- The advance of row numbers in a replayed body (R79). -/
def advance (s : State) (b : Nat) : Int :=
  if s.iss.replay then
    match s.gang.replay with
    | some r => ((s.hart b).ei.extractLsb' 0 32).toNat * sint64 (s.src b r.stride)
    | none => 0
  else 0
/-- The row index of a row command (R79, R122). -/
def rowIndex (s : State) (b : Nat) (row : Src) : Int := sint64 (s.src b row) + s.advance b
/-- The physical row of an index, if the allotment holds it; none otherwise, and in reduced service (R122, R419). -/
def physRow (s : State) (i : Int) : Option Nat :=
  match s.res? with
  | some r => if s.dev.regs.rsvc || i < 0 || (r.acount : Int) ≤ i then none else some (r.abase + i.toNat)
  | none => none
/-- The trap 0x04 of a word. -/
def badState (s : State) : HRes := .fail { cause := 0x04, tval := s.iss.addr }
/-- The trap 0x19 of a row index (R122). -/
def badRow (i : Int) : HRes := .fail { cause := 0x19, tval := word64 i }

end State

/-- ACT on one hart (R128). -/
def actOn (g : Lat) (row : Src) (b : Nat) (s : State) : HRes :=
  let i := s.rowIndex b row
  match s.physRow i with
  | none => State.badRow i
  | some r =>
    if (s.grp b g).gs ≠ .free then s.badState
    else .ok ((s.modGrp b g fun x =>
      { x with gs := .opened i.toNat, latch := { x.latch with valid := true } }).pushRow b g (.act r i.toNat))
/-- ACT (R128). -/
def execAct (h : Hdr) (g : Lat) (row : Src) (s : State) : Out :=
  wordOp h { rd := srcRegs row, mx := true, row := true, chargeH := fun _ => 16 } (perHart (actOn g row)) s

/-- ACTW on one hart (R129). -/
def actwOn (g : Lat) (b : Nat) (s : State) : HRes :=
  .ok ((s.modGrp b g fun x => { x with latch := { x.latch with valid := true } }).pushRow b g .actw)
/-- ACTW (R129). -/
def execActw (h : Hdr) (g : Lat) (s : State) : Out :=
  wordOp h { mx := true, row := true, chargeH := fun _ => 16 } (perHart (actwOn g)) s

/-- A WB or WBP into row index i is legal in a group state: the group does not hold another row (R130). -/
def wbLegal (gs : GroupState) (i : Nat) : Bool :=
  match gs with
  | .free => true
  | .opened j => j == i
  | .writing _ => false
/-- WB or WBP on one hart; `after` is the group state it leaves (R130, R132). -/
def wbOn (op : Nat → Bool → RowOp) (after : Nat → GroupState) (g : Lat) (row : Src) (b : Nat) (s : State) : HRes :=
  let i := s.rowIndex b row
  match s.physRow i with
  | none => State.badRow i
  | some r =>
    let x := s.grp b g
    if !wbLegal x.gs i.toNat || !x.latch.valid then s.badState
    else .ok ((s.modGrp b g fun x => { x with gs := after i.toNat }).pushRow b g (op r (x.gs == .opened i.toNat)))
/-- WB (R130). -/
def execWb (h : Hdr) (g : Lat) (row : Src) (s : State) : Out :=
  wordOp h { rd := srcRegs row, mx := true, row := true, chargeH := fun _ => 16 } (perHart (wbOn .wb .writing g row)) s
/-- WBP (R132). -/
def execWbp (h : Hdr) (g : Lat) (row : Src) (s : State) : Out :=
  wordOp h { rd := srcRegs row, mx := true, row := true, chargeH := fun _ => 16 } (perHart (wbOn .wbp (fun _ => .free) g row)) s

/-- PRE of one group of a hart's bank; `joined` when it is a later part of a PREA (R133). -/
def preOf (b : Nat) (g : Lat) (joined : Bool) (s : State) : State :=
  if (s.grp b g).gs = .free then s else (s.modGrp b g fun x => { x with gs := .free }).pushRow b g .pre joined
/-- PRE (R133). -/
def execPre (h : Hdr) (g : Lat) (s : State) : Out :=
  wordOp h { row := true } (perHart fun b s => .ok (preOf b g false s)) s
/-- PREA on one hart: its parts come to the bank together, and each starts at its own time (R133). -/
def preaOn (b : Nat) (s : State) : HRes :=
  let open_ := (List.finRange 4).filter fun g => (s.grp b g).gs ≠ .free
  .ok (open_.foldl (fun s g => preOf b g (open_.head? != some g) s) s)
/-- PREA (R133). -/
def execPrea (h : Hdr) (s : State) : Out := wordOp h { row := true } (perHart preaOn) s

/-- REF on one hart (R134). In reduced service it traps (R419), with a TVAL that the spec leaves open. -/
def refOn (g : Lat) (b : Nat) (s : State) : HRes :=
  if s.dev.regs.rsvc then .fail { cause := 0x19, tval := Config.refTval s.dev.now }
  else if (s.grp b g).gs ≠ .free then s.badState
  else .ok (s.pushRow b g .ref)
/-- REF (R134). -/
def execRef (h : Hdr) (g : Lat) (s : State) : Out :=
  wordOp h { row := true, chargeH := fun _ => 8 } (perHart (refOn g)) s

/-- What a word waits for that reads the state of a bank: every earlier row command of the hart has started (R135,
R136). -/
def drained (b : Nat) (s : State) (k : State → HRes) : HRes :=
  if !(s.rollback.bank s.iss.core b).rowQ.isEmpty then .hold (.rows b)
  else
    let s := if (s.dev.bank s.iss.core b).rowQ.isEmpty then s else s.settleRows b
    if !(s.dev.bank s.iss.core b).rowQ.isEmpty then .hold (.rows b) else k s

/-- An 8-bit two's-complement debt. -/
def debtByte (x : Group) : Nat := wrapTo 8 x.debt
/-- What REFQ reads (R135). -/
def refqRes (s : State) (b : Nat) : Option Lat → Word
  | some g =>
    let x := s.grp b g
    BitVec.ofNat 64 (debtByte x + x.dlp.isSome.toNat * 2 ^ 8 + (s.dev.hot.getLsbD (s.iss.core / 128)).toNat * 2 ^ 9
      + x.force.toNat * 2 ^ 10 + x.rptr.val * 2 ^ 16 + (s.dev.nextTick s.iss.core b - s.dev.now) % 2 ^ 21 * 2 ^ 32)
  | none =>
    let x (k : Nat) : Group := (s.dev.bank s.iss.core b).groups[k % 4]'(Nat.mod_lt _ (by decide))
    BitVec.ofNat 64 ((List.range 4).foldl (fun acc k =>
        acc + debtByte (x k) * 2 ^ (8 * k) + (x k).dlp.isSome.toNat * 2 ^ (32 + k)) 0
      + (s.dev.hot.getLsbD (s.iss.core / 128)).toNat * 2 ^ 36)
/-- REFQ (R135). -/
def execRefq (h : Hdr) (d : XReg) (g : Option Lat) (s : State) : Out :=
  wordOp h { wr := [.x d] } (perHart fun b s =>
    drained b s fun s => .ok (writeReg b (.x d) (refqRes s b g) none s)) s

/-- The group state as ROWQ codes it, with its row index (R136). -/
def gsCode : GroupState → Nat × Nat
  | .free => (0, 0)
  | .opened i => (1, i)
  | .writing i => (2, i)
/-- What ROWQ reads of a group (R136). -/
def rowqState (x : Group) : Word :=
  let n := ((List.range 128).filter fun k => x.latch.poison.getLsbD k).length
  let gs := gsCode x.gs
  BitVec.ofNat 64 (x.latch.valid.toNat + x.latch.tag.toNat * 2 + gs.1 * 2 ^ 5 + x.phy.toNat * 2 ^ 7 + gs.2 % 2 ^ 9 * 2 ^ 8
    + x.latch.src.toNat * 2 ^ 17 + n * 2 ^ 26)
/-- What ROWQ.allot reads (R136). -/
def allotWord (s : State) : Word :=
  match s.res? with
  | some r => BitVec.ofNat 64 (r.abase % 2 ^ 9 + r.acount % 2 ^ 9 * 2 ^ 16)
  | none => 0
/-- ROWQ (R136). -/
def execRowq (h : Hdr) (d : XReg) (form : RowqForm) (s : State) : Out :=
  wordOp h { wr := [.x d], mx := form != .allot } (perHart fun b s =>
    match form with
    | .allot => .ok (writeReg b (.x d) (allotWord s) none s)
    | .state g => drained b s fun s => .ok (writeReg b (.x d) (rowqState (s.grp b g)) none s)
    | .plo g => drained b s fun s =>
      .ok (writeReg b (.x d) ((s.grp b g).latch.poison.extractLsb' 0 64) none s)
    | .phi g => drained b s fun s =>
      .ok (writeReg b (.x d) ((s.grp b g).latch.poison.extractLsb' 64 64) none s)) s

/-- ROW_COMMAND_START: a row command of a bank starts (R119, R128 to R134). -/
def execRowCommandStart (core : Fin 2048) (bank : Fin 16) (s : State) : Out :=
  .next (s.modDev fun d => match d.rowNext core bank with
    | some p => d.startAt core bank p
    | none => d)

end Sys2Proof.Machine
end

