-- ==== Sys2Proof/Machine/Global.lean ====
section
/-! DEFINITION. Bank atomics and reductions, PGQ, and the events of write queues, column ports, walkers and host translations
(R137, R138, R279 to R281, R286 to R298, R415). -/

namespace Sys2Proof.Machine

/-! ### A checked address of an atomic (R292) -/

/-- The checks of an address of an atomic or a reduction, steps 4 to 6 (R292). -/
def State.atomicAccess (s : State) (k : Nat) (va n : Nat) (go : State → Stor → HRes) : HRes :=
  s.access k { scratch := false, vault := false } .atomic (va % n == 0) va fun s p =>
    match p with
    | .mem st => go s st
    | _ => .ok s
/-- Reductions of a hart are on their way to the bank of a place (R287). -/
def redToBank (d : Device) (rk k : Nat) (st : Stor) : Bool :=
  d.portQ.any fun q => q.res == rk && q.bank == k && Device.portOf (d.redStor q) == Device.portOf st
/-- The result of an atomic on its way to its hart: later words of the convoy read it, and the registers receive it when it
returns (R67, R293, R297). -/
def State.putFlight (s : State) (k : Nat) (d : XReg) (v : Word) : State :=
  let s := writeReg k (.x d) v none s
  if d = 0 then s else s.modHart k fun t => { t with flight := some { reg := d, val := v, cv := s.gang.cv } }
/-- A result of an earlier convoy has not returned. -/
def State.flying (s : State) (k : Nat) : Bool := (s.rollback.hart s.rk k).flight.isSome
/-- The port of a place, after what earlier words of the convoy have done there: a later place is free a cycle later, and the bank makes
room (R286, R287). -/
def Device.afterOwn (d : Device) (st : Stor) (rank : Nat) : Device :=
  (if d.portLate (Device.portOf st) rank then d.advanceTo (d.now + 1) else d).wqSpace st
/-- An atomic on one hart: the request is performed at the bank, and a poisoned sector traps (R290, R293). -/
def State.atomic (s : State) (k va n : Nat) (f : Nat → Nat) (go : State → Nat → HRes) : HRes :=
  s.atomicAccess k va n fun s st =>
    let cls := s.dev.classOf s.rk
    let rank := hartRank cls s.rk k
    let now (d : Device) : HRes :=
      let r := (((d.ownWrite s.rk k st).wqEnter st none rank)).atomicAt st n f
      let s := { s with dev := r.1 }
      if r.2.2 then .fail (poisonAt va) else go s r.2.1
    let perform (s : State) : HRes :=
      if s.dev.portOpen st cls rank then now s.dev
      else if s.rollback.portOpen st cls rank then now (s.dev.afterOwn st rank)
      else .hold (.reductions k (s.hart k).redOut)
    if s.flying k then .hold (.result k)
    else if redToBank s.dev s.rk k st then s.afterReds k perform
    else perform s

/-! ### AMO and CAS (R293) -/

/-- AMO on one hart (R293). -/
def amoOn (op : AOp) (w : Bool) (d a : XReg) (b : Src) (k : Nat) (s : State) : HRes :=
  s.atomic k ((s.hart k).getX a).toNat (opBits w / 8) (fun v => amoNew op w v (s.src k b).toNat 0) fun s v =>
    .ok (s.putFlight k d (BitVec.ofNat 64 v))
/-- AMO (R293). -/
def execAmo (h : Hdr) (op : AOp) (w : Bool) (d : XReg) (a : XReg) (b : Src) (s : State) : Out :=
  wordOp h { rd := .x a :: srcRegs b, wr := [.x d], old := true } (perHart (amoOn op w d a b)) s
/-- The register after an even one, for a 16-byte CAS. -/
def nextReg (r : XReg) : XReg := ⟨(r.val + 1) % 64, Nat.mod_lt _ (by decide)⟩
/-- Bytes of a CAS. -/
def casBytes : CasSize → Nat
  | .d => 8 | .w => 4 | .q => 16
/-- The registers of an operand of CAS. -/
def casRegs (z : CasSize) (r : XReg) : List XReg := if z = .q then [r, nextReg r] else [r]
/-- The value of an operand of CAS, low half first. -/
def casVal (s : State) (k : Nat) (z : CasSize) (r : XReg) : Nat :=
  match z with
  | .q => ((s.hart k).getX r).toNat + ((s.hart k).getX (nextReg r)).toNat * 2 ^ 64
  | .d => ((s.hart k).getX r).toNat
  | .w => ((s.hart k).getX r).toNat % 2 ^ 32
/-- CAS on one hart (R293). -/
def casOn (z : CasSize) (d a b : XReg) (k : Nat) (s : State) : HRes :=
  let cmp := casVal s k z d
  let new := casVal s k z b
  s.atomic k ((s.hart k).getX a).toNat (casBytes z) (fun v => if v = cmp then new else v) fun s v =>
    let s := if z = .q then writeReg k (.x (nextReg d)) (BitVec.ofNat 64 (v / 2 ^ 64)) none s else s
    .ok (s.putFlight k d (BitVec.ofNat 64 v))
/-- CAS (R293). -/
def execCas (h : Hdr) (z : CasSize) (d : XReg) (a : XReg) (b : XReg) (s : State) : Out :=
  wordOp h { rd := .x a :: (casRegs z d ++ casRegs z b).map .x, wr := (casRegs z d).map .x, old := true } (perHart (casOn z d a b)) s

/-! ### RED, REDV and REDF (R294 to R296) -/

/-- A row command of a hart is to touch a row to which a reduction goes (R303). -/
def State.rowsHit (s : State) (k : Nat) (ps : List (Nat × Nat)) : Bool :=
  ps.any fun p => match s.dev.stor p.1 with
    | .dram key => key < 2 ^ 39 && keyCore key == s.iss.core && keyBank key == k
        && (s.dev.bank s.iss.core k).rowQ.any fun r => r.op.latch && r.g == keyGroup key
    | _ => false
/-- The hart's own row commands that are to touch a row run before a reduction to it (R303). -/
def State.afterRows (s : State) (k : Nat) (ps : List (Nat × Nat)) : State := if s.rowsHit k ps then s.settleRows k else s
/-- Requests put on their way one after the other: beyond the limit the oldest of the hart are accepted first (R296). -/
def Device.putReds (d : Device) (rk k : Nat) (reqs : List RedReq) : Device :=
  reqs.foldl (fun d q =>
    let d := if (d.hart rk k).redOut < Config.redLimit then d else d.drainReds rk k (Config.redLimit - 1)
    ({ d with portQ := d.portQ ++ [q] }).modHart rk k fun t => { t with redOut := t.redOut + 1 }) d
/-- Reductions sent by a hart: one request for each line, within the limit of its count (R296). They wait for room while those of
earlier convoys have not been accepted; past that the parts of a word that has more lines than the limit leave as others are
accepted. -/
def State.sendReds (s : State) (k : Nat) (op : AOp) (e : RedElt) (ps : List (Nat × Nat)) : HRes :=
  let lines := (ps.map fun p => p.1 / 64).dedup
  let before := (s.rollback.hart s.rk k).redOut
  let own := (s.hart k).redOut - before + lines.length
  if before ≠ 0 && Config.redLimit < before + own then .hold (.reductions k (Config.redLimit - own))
  else
    let s := s.afterRows k ps
    if s.rowsHit k ps then .hold (.rows k) else
    let cls := s.dev.classOf s.rk
    let reqs := lines.map fun l : Nat =>
      ({ res := s.rk, bank := k, op := op, elt := e, sent := s.dev.now, cls := cls, rank := hartRank cls s.rk k
         parts := ps.filter fun p => p.1 / 64 == l } : RedReq)
    .ok (s.modDev fun d => d.putReds s.rk k reqs)
/-- The physical address of a checked global address, for a request that travels. -/
def State.paOf (s : State) (va : Nat) : Nat :=
  match (s.dev.translate s.iss.core s.ctx va).2 with
  | .page l => s.dev.leafPa l (va % 2 ^ l.log)
  | _ => 0
/-- RED on one hart (R294). -/
def redOn (op : AOp) (w : Bool) (a : XReg) (b : Src) (k : Nat) (s : State) : HRes :=
  let va := ((s.hart k).getX a).toNat
  let v := (s.src k b).toNat
  s.atomicAccess k va (opBits w / 8) fun s _ => s.sendReds k op (wordElt op w) [(s.paOf va, v)]
/-- RED (R294). -/
def execRed (h : Hdr) (op : AOp) (w : Bool) (a : XReg) (b : Src) (s : State) : Out :=
  wordOp h { rd := .x a :: srcRegs b, old := true } (perHart (redOn op w a b)) s
/-- The element of REDV for a format and an operation, where the pair is accepted (R295). -/
def redvElt (f : VFmt) (op : AOp) : Option RedElt :=
  let fl := op == .fadd || op == .fmax
  match f with
  | .i32 | .n32 => if fl then none else some (.int 32)
  | .i64 => if fl then none else some (.int 64)
  | .f32 => if fl then some (.fp .f32) else none
  | .bf16 => if fl then some (.fp .bf16) else none
  | _ => none
/-- The target of an element of REDV (R295). -/
def redvAddr (s : State) (k : Nat) (a : XReg) (form : RedvForm) (esz i : Nat) : Nat :=
  let base := ((s.hart k).getX a).toNat
  match form with
  | .disp b => (base + (s.src k b).toNat + i * esz) % 2 ^ 64
  | .ix oi => (base + elemOf 32 (s.latData k (.own oi)) i * esz) % 2 ^ 64
/-- Every target of a REDV translated, in element order: the first failed check (R292). -/
def redvCheck (k : Nat) : List Nat → State → Except HRes State
  | [], s => .ok s
  | va :: l, s =>
    let x := s.dev.globalAt s.iss.core s.ctx .atomic va
    match x.2 with
    | .ok _ => redvCheck k l { s with dev := x.1 }
    | .fail f => .error (.fail f)
    | .wait w => .error (.hold w)
/-- The element groups of the sweep of a REDV, with those of its index latch (R189). -/
def redvGroups (form : RedvForm) (c : LaneCfg) : Nat :=
  match form with
  | .disp _ => c.groups
  | .ix _ => c.groupsWith 32
/-- The latches of REDV. -/
def redvLats (d : Lat) : RedvForm → List LatRef
  | .disp _ => [.own d]
  | .ix oi => [.own d, .own oi]
/-- REDV on one hart (R292, R295). -/
def redvOn (m : MaskMod) (op : AOp) (d : Lat) (a : XReg) (form : RedvForm) (k : Nat) (s : State) : HRes :=
  let c := s.lanes k
  let act := actives (s.hart k) m c.fmt
  let n := c.fmt.bits
  let elt := redvElt c.fmt op
  let uses : List LatUse := { ref := .own d, fmt := c.fmt, read := sectorsOf n act } :: match form with
    | .disp _ => []
    | .ix oi => [{ ref := .own oi, fmt := .n32, read := sectorsOf 32 act }]
  let short := match form with
    | .disp _ => false
    | .ix _ => 2048 < c.vl
  match s.laneCheck k (s.badFmt c (fun _ => true) || elt.isNone || short) uses none, elt with
  | some e, _ => .fail e
  | none, none => .fail s.bad4
  | none, some e =>
    let esz := e.bytes
    let data := s.latData k (.own d)
    let ts := act.map fun i => (redvAddr s k a form esz i, elemOf n data i)
    match ts.find? fun p => p.1 % esz != 0 with
    | some p => .fail (failAt 0x09 p.1)
    | none => match ts.find? fun p => decide (2 ^ 56 ≤ p.1) with
      | some p => .fail (failAt 0x0D p.1)
      | none => match redvCheck k (ts.map Prod.fst) s with
        | .error r => r
        | .ok s =>
          match s.sendReds k op e (ts.map fun p => (s.paOf p.1, p.2)) with
          | .ok s => .ok (s.pushSeg k (redvLats d form) [] false (redvGroups form c) (store := true))
          | r => r
/-- The scalar registers of REDV. -/
def redvRegs (a : XReg) : RedvForm → List Reg
  | .disp b => .x a :: srcRegs b
  | .ix _ => [.x a]
/-- REDV (R295). -/
def execRedv (h : Hdr) (m : MaskMod) (op : AOp) (d : Lat) (a : XReg) (form : RedvForm) (s : State) : Out :=
  wordOp h { wholeUse (redvRegs a form) (redvLats d form) 16 1 (redvGroups form) with old := true } (perHart (redvOn m op d a form)) s
/-- REDF on one hart: earlier reductions have been accepted (R296). -/
def redfOn (k : Nat) (s : State) : HRes :=
  s.afterReds k .ok
/-- REDF (R296). -/
def execRedf (h : Hdr) (_ : Scope) (s : State) : Out := wordOp h {} (perHart redfOn) s

/-! ### PGQ (R298) -/

/-- An address in a window (R246). -/
def inWindow (va : Nat) : Bool :=
  (poolWindow ≤ va && va < poolWindow + Config.poolBytes) || (ownWindow ≤ va && va < ownWindow + Config.vaultBytes)
    || (packageWindow ≤ va && va < packageWindow + 2048 * Config.vaultBytes)
/-- The attributes of a translation (R298). -/
def pgqAttr (l : Leaf) : Nat :=
  1 + l.r.toNat * 2 + l.w.toNat * 2 ^ 2 + l.x.toNat * 2 ^ 3 + l.isHost.toNat * 2 ^ 4
    + (if l.log = 16 then 0 else if l.log = 21 then 1 else 2) * 2 ^ 6 + l.bsk * 2 ^ 8 + l.fmt * 2 ^ 11 + l.blkg * 2 ^ 15
/-- The leaf of an address, where there is a translation: one that the host has refused is none (R274, R281). -/
def Device.Xl.leaf? : Device.Xl → Option Leaf
  | .page l | .pending l => some l
  | .host l _ r w => if r || w then some l else none
  | .fault _ => none
/-- A translation for which the host's answer is awaited (R281). -/
def Device.Xl.waits : Device.Xl → Bool
  | .pending _ => true
  | _ => false
/-- What PGQ gives (R298). -/
def pgqRes (d : Device) (pa : Bool) (va : Nat) (l : Option Leaf) : Word :=
  match l with
  | some l =>
    if pa then BitVec.ofNat 64 (if l.isHost then l.oa + va % 2 ^ l.log else d.leafPa l (va % 2 ^ l.log))
    else BitVec.ofNat 64 (pgqAttr l)
  | none => if pa then BitVec.allOnes 64 else if inWindow va then 2 ^ 5 else 0
/-- PGQ on one hart (R298). -/
def pgqOn (pa : Bool) (d base : XReg) (disp : Src) (k : Nat) (s : State) : HRes :=
  let va := memAddr s k base disp
  let t := if va < 2 ^ 56 then s.dev.translate s.iss.core s.ctx va else (s.dev, .fault 0)
  if t.2.waits then .hold (.ats s.ctx va)
  else .ok (writeReg k (.x d) (pgqRes t.1 pa va t.2.leaf?) none { s with dev := t.1 })
/-- PGQ (R298). -/
def execPgq (h : Hdr) (pa : Bool) (d : XReg) (base : XReg) (disp : Src) (s : State) : Out :=
  wordOp h (ldUse [.x d] base disp) (perHart (pgqOn pa d base disp)) s

/-! ### Events -/

/-- WRITE_QUEUE_ACCEPT: a reduction comes to its port, and is accepted and performed when it is its turn there (R286, R287). -/
def execWriteQueueAccept (k : Nat) (s : State) : Out :=
  .next (s.modDev fun d => match d.redComes k with
    | some q =>
      if d.redTakes q then { d with portQ := dropIdx k d.portQ }.redAccept q
      else { d with portQ := d.portQ.set k q }
    | none => d)
/-- WRITE_QUEUE_APPLY: the oldest entry of a bank's write queue is applied as a column access; every read has seen it since it was
accepted (R286). -/
def execWriteQueueApply (core : Fin 2048) (bank : Fin 16) (s : State) : Out :=
  .next (s.modDev fun d => match (d.bank core bank).wq with
    | e :: _ => (d.modBank core bank fun k => { k with wq := k.wq.tail }).releaseFor e.pa
    | [] => d)
/-- The result of an AMO or CAS reaches a hart of a gang, and the hart as the later convoys found it (R64, R297). -/
def Device.returnFlight (d : Device) (rk base bank : Nat) : Device :=
  let cv := (d.hart rk bank).flight.elim 0 Flight.cv
  (d.modHart rk bank Hart.landFlight).modFound rk base cv bank Hart.landFlight
/-- ATOMIC_RESULT_RETURN: the result of an AMO or CAS reaches its hart (R297). -/
def execAtomicResultReturn (core : Fin 2048) (bank : Fin 16) (s : State) : Out :=
  .next (s.modDev fun d => match d.gangAt core bank with
    | some (rk, base, _) => d.returnFlight rk base bank
    | none => d)
/-- The bank of an array address. -/
def Device.modPort (d : Device) (key : Nat) (f : Bank → Bank) : Device :=
  if key < 2 ^ 39 then d.modBank (keyCore key) (keyBank key) f else d
/-- The class of a column access: that of the context or of the launch that issued it (R138); the host's are of class 1 (R408). -/
def Device.colClass (d : Device) : ColSource → Nat
  | .context c s => d.classOf (resKey c s)
  | .launch seq => match d.launch? seq with
    | some l => l.record.cls.val
    | none => 1
  | .host => 1
  | .fabric cls => cls.val
/-- COLUMN_ACCESS_ARRIVAL: a column access waits at a bank's port (R138). -/
def execColumnAccessArrival (pa : BitVec 60) (kind : ColKind) (by_ : ColSource) (s : State) : Out :=
  .next (s.modDev fun d => match d.stor pa.toNat with
    | .dram key => d.modPort key fun k =>
      { k with cols := k.cols ++ [{ pa := key, kind := kind, cls := d.colClass by_, host := by_ == .host }] }
    | _ => d)
/-- A column access may be served: the sense amplifiers of its group are free, or the bank may release them now (R137), and no
forced refresh goes first (R143). -/
def Device.colFree (d : Device) (c b : Nat) (a : ColAccess) : Bool :=
  let x := d.group c b (keyGroup a.pa)
  (if x.phy || x.pend.isSome then x.pr ≤ d.now
    else colFrom d.now a.cls x ≤ d.now || x.col.any fun p => p.1 == keyRow a.pa && d.now ≤ p.2)
    && !d.forcedDue c b (keyGroup a.pa)
/-- The column access of a bank that is served next: class 0 first, then the oldest (R138). -/
def Device.colNext (d : Device) (c b : Nat) : Option (ColAccess × Nat) :=
  let l := (d.bank c b).cols.zipIdx.filter fun p => d.colFree c b p.1
  match l.find? fun p => p.1.cls == 0 with
  | some p => some p
  | none => l.head?
/-- A little-endian number of bytes (R9). -/
def bytesNat (bs : List Byte) : Nat := bs.foldr (fun b acc => acc * 256 + b.toNat) 0
/-- A column access served: its data move, and its group is busy through its own activation and precharge (R125, R137,
R254). -/
def Device.colServe (d : Device) (c b : Nat) (p : ColAccess × Nat) : Device :=
  let d := (d.modBank c b fun k => { k with cols := dropIdx p.2 k.cols }).releaseFor p.1.pa p.1.cls
  match p.1.kind with
  | .read _ => d
  | .write bytes => d.physWrite (d.fabric.dev * 2 ^ 39 + p.1.pa) bytes.length (bytesNat bytes)
/-- The host's writes that wait at a bank served, in their order (R420). -/
def Device.serveHost (d : Device) (c b : Nat) : Nat → Device
  | 0 => d
  | n + 1 => match (d.bank c b).cols.zipIdx.find? fun p => p.1.host with
    | some p => serveHost (d.colServe c b p) c b n
    | none => d
/-- Every write of the host that waits at a bank served: what it has written before its doorbell is at the banks before the entries of
the ring are read (R420). -/
def Device.serveHosts (d : Device) : Device :=
  (d.banks.filter fun p => p.2.cols.any ColAccess.host).foldl (fun d p =>
    d.serveHost (p.1 / 16) (p.1 % 16) p.2.cols.length) d
/-- COLUMN_ACCESS_SERVE (R137). -/
def execColumnAccessServe (core : Fin 2048) (bank : Fin 16) (s : State) : Out :=
  .next (s.modDev fun d => match d.colNext core bank with
    | some p => d.colServe core bank p
    | none => d)
/-- PAGE_WALK: the walker walks for a hart's address and fills the translation cache (R279). -/
def execPageWalk (core : Fin 2048) (_ : Fin 16) (va : Word) (s : State) : Out :=
  .next (s.modDev fun d => match (d.core core).issuing with
    | some slot => match d.res? (resKey core slot) with
      | some r => if va.toNat < 2 ^ 56 then (d.translate core r.ctx va.toNat).1 else d
      | none => d
    | none => d)
/-- The entry of a translation cache with the host's answer for a 64 KiB page of it (R281). R281 states no granularity of a request: that
the answer for one page holds, linearly, for the whole of a larger HOST leaf is a DESIGN CHOICE (log 56). -/
def AtcEntry.answer (e : AtcEntry) (page : Nat) (a : AtsAnswer) : AtcEntry :=
  match a with
  | .refused => { e with ats := some (0, false, false) }
  | .granted b r w => { e with ats := some (b - BitVec.ofNat 64 (page - e.va), r, w) }
/-- ATS_COMPLETION: the host's answer to a translation request is cached, with its leaf walked for again where the cache has lost it, and
the convoys that wait for it are tried again (R281). -/
def execAtsCompletion (core : Fin 2048) (ctx : BitVec 12) (va : Word) (answer : AtsAnswer) (s : State) : Out :=
  .next (s.modDev fun d =>
    let page := va.toNat / 2 ^ 16 * 2 ^ 16
    let q : AtsReq := { core := core.val, ctx := ctx, va := page }
    if !d.ats.contains q then d
    else
      let d := ({ d with ats := d.ats.filter (· != q) }.translate core ctx page).1
      let d := d.modCore core fun c =>
        { c with atc := c.atc.map fun e =>
            if e.covers ctx page && nbit e.leaf.1 5 && e.ats.isNone then e.answer page answer else e }
      { d with gangs := d.gangs.map fun p => match p.2.wait with
          | some w => match w.on with
            | .ats x a =>
              if p.1 / 16 / 3 = core.val ∧ x = ctx ∧ a / 2 ^ 16 * 2 ^ 16 = page then
                (p.1, { p.2 with wait := some { w with retry := true } })
              else p
            | _ => p
          | none => p })
/-- ATS_INVALIDATION: entries of HOST leaves that meet a range of host addresses are dropped, and the completion is sent once every
access that uses one has been performed (R281). -/
def execAtsInvalidation (host len : Word) (s : State) : Out :=
  .next (s.modDev fun d =>
    ({ d with
        cores := d.cores.map fun (p : Nat × Core) =>
          (p.1, { p.2 with atc := p.2.atc.filter fun (e : AtcEntry) => !e.meets host.toNat len.toNat })
        atsInv := d.atsInv ++ [(host, len)] }).sendAts)

end Sys2Proof.Machine
end

