-- ==== Sys2Proof/Machine/Engine.lean ====
section
/-! DEFINITION. The copy engine: records, slots and channels, the walk of a copy, faults and suspension; the words that drive
it, the barrier words and the waits (R315 to R342). -/

namespace Sys2Proof.Machine

/-! ### Records (R319, R321, R322) -/

/-- A bit field of a little-endian record: byte offset, low bit and width. -/
def fld (v off lo n : Nat) : Nat := v / 2 ^ (8 * off + lo) % 2 ^ n

namespace Layout

/-- The fields of the 96 bytes of a layout record. -/
def ofNat (v : Nat) : Layout where
  rank := fld v 0 0 3
  pgf := nbit v 3
  fmt := fld v 0 4 4
  bic := fld v 0 8 3
  nib := nbit v 11
  fill := fld v 0 16 32
  dims := (List.range 5).map fun k => fld v (8 + 4 * k) 0 32
  strides := 1 :: (List.range 4).map fun k => fld v (32 + 8 * k) 0 40
  origins := (List.range 5).map fun k => sintOf 32 (fld v (64 + 4 * k) 0 32)
  extents := (List.range 5).map fun k => fld v (84 + 2 * k) 0 16
  raw := v
/-- A nonzero bit of a field that must be zero. -/
def stray (v : Nat) : Bool :=
  fld v 0 12 4 != 0 || fld v 0 48 16 != 0 || fld v 28 0 32 != 0 || fld v 94 0 16 != 0
    || (List.range 4).any fun k => fld v (32 + 8 * k) 40 24 != 0
/-- B_e. -/
def be (l : Layout) : Nat := (VFmt.ofCode l.fmt).unit
/-- DIM, STRIDE, ORIGIN and EXTENT of a dimension. -/
def dim (l : Layout) (k : Nat) : Nat := l.dims.getD k 0
/-- STRIDE. -/
def stride (l : Layout) (k : Nat) : Nat := l.strides.getD k 0
/-- ORIGIN. -/
def origin (l : Layout) (k : Nat) : Int := l.origins.getD k 0
/-- EXTENT. -/
def extent (l : Layout) (k : Nat) : Nat := l.extents.getD k 0
/-- A layout record is faulty, for a format and a block length taken from the page where PGF asks for it (R322). -/
def faulty (l : Layout) (bl : Nat) : Bool :=
  let used := List.range l.rank
  let spare := (List.range 5).filter (l.rank ≤ ·)
  l.rank == 0 || 5 < l.rank || 3 < l.bic || stray l.raw || l.fill / 2 ^ l.be != 0
    || used.any (fun k => l.dim k == 0 || l.extent k == 0)
    || spare.any (fun k => l.dim k != 0 || (k != 0 && l.stride k != 0) || l.origin k != 0 || l.extent k != 0)
    || (l.nib && l.fmt != 12)
    || used.any (fun k => k != 0 && l.stride k * l.be % 8 != 0)
    || (bl != 0 && (l.origin 0 % bl != 0 || l.extent 0 % bl != 0))
/-- N (R323). -/
def count (l : Layout) : Nat := (List.range l.rank).foldl (fun n k => n * l.extent k) 1
/-- S: the stream size in bytes (R323). -/
def bytes (l : Layout) : Nat := (l.count * l.be + 7) / 8
/-- Coord: the bit address of element n of the walk, where it is inside (R323). -/
def coord (l : Layout) (base n : Nat) : Option Nat :=
  let w (k : Nat) : Nat := n / (List.range k).foldl (fun p j => p * l.extent j) 1 % l.extent k
  let c (k : Nat) : Int := l.origin k + w k
  if (List.range l.rank).all fun k => decide (0 ≤ c k) && decide (c k < l.dim k) then
    some (8 * base + 4 * l.nib.toNat + l.be * (List.range l.rank).foldl (fun a k => a + (c k).toNat * l.stride k) 0)
  else none
/-- The lowest and the highest in-bounds byte that the walk touches (R324). -/
def span (l : Layout) (base : Nat) : Option (Nat × Nat) :=
  let lo (k : Nat) : Int := max 0 (l.origin k)
  let hi (k : Nat) : Int := min (l.dim k : Int) (l.origin k + (l.extent k : Int)) - 1
  let at_ (c : Nat → Int) : Nat :=
    8 * base + 4 * l.nib.toNat + l.be * (List.range l.rank).foldl (fun a k => a + (c k).toNat * l.stride k) 0
  if (List.range l.rank).all fun k => decide (lo k ≤ hi k) then some (at_ lo / 8, (at_ hi + l.be - 1) / 8) else none

end Layout

/-- A reserved value or a nonzero reserved field of the 64 bytes of a command record, or a bad completion offset (R319). -/
def cmdBad (r : Residence) (v : Nat) : Bool :=
  let comp := fld v 0 8 2
  let soff := fld v 40 0 32
  let sval := fld v 40 32 32
  fld v 0 0 4 != 1 || nbit v 7 || fld v 0 10 54 != 0 || fld v 56 0 64 != 0 || fld v 48 0 6 != 0 || comp == 3
    || (comp == 0 && (soff != 0 || sval != 0))
    || (comp != 0 && (soff % (8 * comp) != 0 || soff < r.fb || r.sb ≤ soff))
    || (comp == 2 && sval != 0)

/-- The outcome of checking a command. -/
inductive CmdR where
  | ok (c : CopyCmd)
  | fail (f : Fail)
  | wait (w : WaitOn)

namespace Device

/-! ### Reads and writes of an engine (R309, R326) -/

/-- `n` bytes that an engine reads at a place, in one line, with poison. -/
def engineRead (d : Device) (rk : Nat) (p : Place) (n : Nat) : Device × Nat × Bool :=
  match p with
  | .mem st => d.colRead st n
  | .host a => (d, d.host.read a n, false)
  | .pool o => match d.res? rk with
    | some r => if o < r.fb then (d, r.frames.read o n, false) else (d, r.read o n)
    | none => (d, 0, false)
/-- `n` bytes that an engine writes at a place, in one line. -/
def engineWrite (d : Device) (rk : Nat) (p : Place) (n v : Nat) (bad : Bool) : Device :=
  match p with
  | .mem st => d.colWrite st n v bad
  | .host a => { d with host := d.host.write a n v }
  | .pool o => d.modRes rk fun r => r.write o n v bad

/-! ### Checks of a command (R320) -/

/-- The 96 bytes of a layout record from an address on, as `LD` would be allowed to read them; poisoned bytes are
undefined. -/
def layoutRead (d : Device) (core rk : Nat) (r : Residence) (va : Nat) : List Nat → Nat → Device × Except AccR Nat
  | [], v => (d, .ok v)
  | k :: l, v =>
    let a := (va + 32 * k) % 2 ^ 64
    let x := d.checkAt core r { frames := true } .read a
    match x.2 with
    | .ok p =>
      let y := x.1.engineRead rk p 32
      let w := if y.2.2 then freeBytes d.now a 32 else y.2.1
      layoutRead y.1 core rk r va l (v + w * 2 ^ (256 * k))
    | f => (x.1, .error f)
/-- The layout record of a side of a command, at an address, with its format, and its block length: from the page when PGF asks for it; a
walk that fails makes the record faulty, and one that the host has yet to answer is waited for, as PGQ does (R298, R322). -/
def layoutFmt (d : Device) (core : Nat) (ctx : BitVec 12) (lay : Nat) (l : Layout) (base : Nat) :
    Device × Except CmdR (Layout × Nat) :=
  let bad : CmdR := .fail (failAt 0x0F lay)
  if !l.pgf then (d, .ok (l, 0))
  else if l.fmt != 0 || 2 ^ 56 ≤ base then (d, .error bad)
  else
    let t := d.translate core ctx base
    (t.1, if t.2.waits then .error (.wait (.ats ctx base)) else match t.2.leaf? with
      | some f => .ok ({ l with fmt := f.fmt }, blkLen (f.blkg % 8))
      | none => .error bad)
/-- A window lies in one region that admits copies (R324). -/
def copyRegion (d : Device) (core : Nat) (r : Residence) : Option (Nat × Nat) → Bool
  | none => true
  | some (lo, hi) =>
    if 2 ^ 64 ≤ hi then false
    else match d.region core r lo, d.region core r hi with
      | .global, .global => true
      | .scratch _, .scratch _ => true
      | .vault a, .vault b => a / 2 ^ 20 == b / 2 ^ 20 && hi - lo < 2 ^ 20
      | _, _ => false

end Device

/-- The checks of a command record, in their order (R320); `tv` is TVAL of 0x10. -/
def cmdCheck (core rk : Nat) (r : Residence) (tv v : Nat) (d : Device) : Device × CmdR :=
  let bad : CmdR := .fail (failAt 0x10 tv)
  let slay := fld v 8 0 64
  let dlay := fld v 16 0 64
  let sbase := fld v 24 0 64
  let dbase := fld v 32 0 64
  if cmdBad r v then (d, bad)
  else if slay % 32 ≠ 0 then (d, .fail (failAt 0x0F slay))
  else if dlay % 32 ≠ 0 then (d, .fail (failAt 0x0F dlay))
  else
    let read (d : Device) (va : Nat) (go : Device → Nat → Device × CmdR) : Device × CmdR :=
      let x := d.layoutRead core rk r va [0, 1, 2] 0
      match x.2 with
      | .ok w => go x.1 w
      | .error (.fail f) => (x.1, .fail f)
      | .error (.wait w) => (x.1, .wait w)
      | .error (.ok _) => (x.1, bad)
    read d slay fun d sv => read d dlay fun d dv =>
      let sl := d.layoutFmt core r.ctx slay (Layout.ofNat sv) sbase
      match sl.2 with
      | .error f => (sl.1, f)
      | .ok s =>
        if s.1.faulty s.2 then (sl.1, .fail (failAt 0x0F slay))
        else
          let dl := sl.1.layoutFmt core r.ctx dlay (Layout.ofNat dv) dbase
          match dl.2 with
          | .error f => (dl.1, f)
          | .ok t =>
            let resoff := fld v 48 0 64
            if t.1.faulty t.2 then (dl.1, .fail (failAt 0x0F dlay))
            else if s.1.fmt ≠ t.1.fmt || s.1.count ≠ t.1.count || s.1.bytes < resoff then (dl.1, bad)
            else if !(dl.1.copyRegion core r (s.1.span sbase)) || !(dl.1.copyRegion core r (t.1.span dbase)) then (dl.1, bad)
            else
              (dl.1, .ok { chan := ⟨fld v 0 4 3 % 8, Nat.mod_lt _ (by decide)⟩, comp := fld v 0 8 2
                           slay := BitVec.ofNat 64 slay, dlay := BitVec.ofNat 64 dlay, sbase := BitVec.ofNat 64 sbase
                           dbase := BitVec.ofNat 64 dbase, soff := fld v 40 0 32, sval := fld v 40 32 32, resoff := resoff
                           src := s.1, dst := t.1 })

/-! ### Slots and channels (R315 to R317) -/

namespace Device

/-- A slot of the copy engine of a core. -/
def cmdSlot (d : Device) (c k : Nat) : Option CopySlot := ((d.core c).slots.toList[k]?).join
/-- A slot set. -/
def setSlot (d : Device) (c k : Nat) (x : Option CopySlot) : Device :=
  d.modCore c fun y => { y with slots := y.slots.set (k % 32) x (Nat.mod_lt _ (by decide)) }
/-- The lowest free slot of a channel. -/
def chanFree (d : Device) (c : Nat) (ch : Fin 8) : Option Nat :=
  ((List.range 4).map (4 * ch.val + ·)).find? fun k => (d.cmdSlot c k).isNone
/-- Saved commands of a residence wait to re-enter a channel (R316, R329). -/
def savedFor (d : Device) (rk : Nat) (ch : Fin 8) : Bool :=
  match d.res? rk with
  | some r => r.saved.any fun x => x.cmd.chan == ch
  | none => false
/-- A command placed in a slot, with its place in the order of acceptance. -/
def placeCmd (d : Device) (c rk bank k : Nat) (cmd : CopyCmd) (age : Nat) (fault : Nat := 0) : Device :=
  (d.setSlot c k (some { res := rk, bank := bank, state := .queued, cmd := cmd, age := age, done := cmd.resoff, fault := fault }))
    |>.modCore c fun y => { y with ages := max y.ages (age + 1) }
/-- A command offered: its slot, or none when it is refused (R315, R316). -/
def offer (d : Device) (c rk bank : Nat) (cmd : CopyCmd) : Device × Option Nat :=
  if d.savedFor rk cmd.chan then (d, none)
  else match d.chanFree c cmd.chan with
    | some k => (d.placeCmd c rk bank k cmd (d.core c).ages, some k)
    | none => (d, none)
/-- The commands of a channel with their slots. -/
def chanCmds (d : Device) (c ch : Nat) : List (Nat × CopySlot) :=
  ((List.range 4).map (4 * ch + ·)).filterMap fun k => (d.cmdSlot c k).map fun x => (k, x)
/-- A saved command of a residence stands before another command in the order of a channel (R317, R329). -/
def savedBefore (d : Device) (x : CopySlot) : Bool :=
  match d.res? x.res with
  | some r => r.saved.any fun y => y.cmd.chan == x.cmd.chan && y.age < x.age
  | none => false
/-- The queued command of a channel that may start running: the oldest, when none runs or is faulted, and none that a switch has
suspended is before it (R317, R329). -/
def chanNext (d : Device) (c ch : Nat) : Option (Nat × CopySlot) :=
  let l := d.chanCmds c ch
  if l.any fun p => p.2.state != .queued || d.savedBefore p.2 then none
  else l.foldl (fun best p => match best with
    | none => some p
    | some b => if p.2.age < b.2.age then some p else some b) none

/-! ### The walk of a copy (R323, R326, R329) -/

/-- A line of the destination as a copy writes it: its nibbles with their mask, and the 8-byte words that take poisoned
data. -/
structure LineImg where
  line : Nat
  /-- where its first byte lies, as its first element was translated -/
  place : Place
  data : Nat := 0
  mask : Nat := 0
  bad : Nat := 0
/-- Nibbles placed in a line image. -/
def LineImg.put (l : LineImg) (nib n v : Nat) (bad : Bool) : LineImg :=
  { l with data := putElem (4 * n) l.data (nib / n) v
           mask := l.mask ||| (2 ^ n - 1) * 2 ^ nib
           bad := if bad then l.bad ||| 2 ^ (nib / 16) else l.bad }
/-- The place of the first byte of the line that holds a place. -/
def Place.lineBase (p : Place) (va : Nat) : Place :=
  match p with
  | .mem (.dram k) => .mem (.dram (k - va % 64))
  | .mem (.vault v) => .mem (.vault (v - va % 64))
  | .mem st => .mem st
  | .host a => .host (a - va % 64)
  | .pool o => .pool (o - va % 64)
/-- Nibbles placed in the image of their line. -/
def putImg (va : Nat) (p : Place) (nib n v : Nat) (bad : Bool) : List LineImg → List LineImg
  | [] => [LineImg.put { line := va / 64, place := Place.lineBase p va } (2 * (va % 64) + nib) n v bad]
  | l :: t => if l.line = va / 64 then l.put (2 * (va % 64) + nib) n v bad :: t else l :: putImg va p nib n v bad t
/-- A place further on in the same line. -/
def Place.plus (p : Place) (n : Nat) : Place :=
  match p with
  | .mem (.dram k) => .mem (.dram (k + n))
  | .mem (.vault v) => .mem (.vault (v + n))
  | .mem st => .mem st
  | .host a => .host (a + n)
  | .pool o => .pool (o + n)
/-- A line image written at the place of its first byte: whole, or its whole words, its bytes and its nibbles (R125, R254). -/
def writeImg (d : Device) (rk : Nat) (p : Place) (l : LineImg) : Device :=
  let sram := match p with
    | .pool _ | .mem (.vault _) => true
    | _ => false
  if l.mask = 2 ^ 128 - 1 && !sram then d.engineWrite rk p 64 l.data (l.bad != 0)
  else (List.range 8).foldl (fun d j =>
    let m := l.mask / 2 ^ (16 * j) % 2 ^ 16
    let v := getBytes l.data (8 * j) 8
    let bad := nbit l.bad j
    if m = 0 then d
    else if m = 2 ^ 16 - 1 then d.engineWrite rk (Place.plus p (8 * j)) 8 v bad
    else (List.range 8).foldl (fun d i =>
      let q := Place.plus p (8 * j + i)
      let b := getBytes v i 1
      match m / 2 ^ (2 * i) % 4 with
      | 0 => d
      | 3 => d.engineWrite rk q 1 b bad
      | h =>
        let old := d.engineRead rk q 1
        let w := if h = 1 then old.2.1 / 16 * 16 + b % 16 else b / 16 * 16 + old.2.1 % 16
        old.1.engineWrite rk q 1 w bad) d) d

/-- What stops a walk: the element, and the answer of the check. -/
abbrev WalkStop := Option (Nat × AccR)
/-- The bytes of an element read: its value and whether some byte is poisoned. -/
def elemRead (core rk : Nat) (r : Residence) : List Nat → Nat → Device → Nat × Bool → Device × Except AccR (Nat × Bool)
  | [], _, d, v => (d, .ok v)
  | a :: l, k, d, v =>
    let x := d.checkAt core r { frames := false } .copyRead a
    match x.2 with
    | .ok p =>
      let y := x.1.engineRead rk p 1
      elemRead core rk r l (k + 1) y.1 (v.1 + y.2.1 * 2 ^ (8 * k), v.2 || y.2.2)
    | f => (x.1, .error f)
/-- The bytes of an element checked for a write: their places. -/
def elemCheck (core : Nat) (r : Residence) : List Nat → Device → List (Nat × Place) → Device × Except AccR (List (Nat × Place))
  | [], d, ps => (d, .ok ps)
  | a :: l, d, ps =>
    let x := d.checkAt core r { frames := false } .copyWrite a
    match x.2 with
    | .ok p => elemCheck core r l x.1 (ps ++ [(a, p)])
    | f => (x.1, .error f)
/-- The byte addresses of an element of a width at a bit address. -/
def elemBytes (be bit : Nat) : List Nat := (List.range (max 1 (be / 8))).map (bit / 8 + ·)
/-- An element placed in the images of its lines. -/
def elemPut (be bit v : Nat) (bad : Bool) (ps : List (Nat × Place)) (is : List LineImg) : List LineImg :=
  ps.zipIdx.foldl (fun is q =>
    if be = 4 then putImg q.1.1 q.1.2 (bit / 4 % 2) 1 v bad is else putImg q.1.1 q.1.2 0 2 (getBytes v q.2 1) bad is) is
/-- Elements of a copy walked, up to the first that is stopped: reads first, then what they leave in the destination. -/
def copyScan (core rk : Nat) (r : Residence) (c : CopyCmd) :
    List Nat → Device → List LineImg → Device × List LineImg × WalkStop
  | [], d, is => (d, is, none)
  | n :: l, d, is =>
    let be := c.src.be
    let src : Device × Except AccR (Nat × Bool) := match c.src.coord c.sbase.toNat n with
      | some bit =>
        let x := elemRead core rk r (elemBytes be bit) 0 d (0, false)
        (x.1, x.2.map fun v => (if be = 4 then v.1 / 2 ^ (bit % 8) % 16 else v.1, v.2))
      | none => (d, .ok (c.src.fill % 2 ^ be, false))
    match src.2 with
    | .error f => (src.1, is, some (n, f))
    | .ok v => match c.dst.coord c.dbase.toNat n with
      | none => copyScan core rk r c l src.1 is
      | some bit =>
        let x := elemCheck core r (elemBytes be bit) src.1 []
        match x.2 with
        | .error f => (x.1, is, some (n, f))
        | .ok ps => copyScan core rk r c l x.1 (elemPut be bit v.1 v.2 ps is)
/-- The images of a copy written where their elements were translated to (R280, R326). -/
def writeImgs (rk : Nat) (is : List LineImg) (d : Device) : Device := is.foldl (fun d l => d.writeImg rk l.place l) d
/-- The elements of a command whose stream bytes lie from one offset to another (R323). -/
def elemsOf (c : CopyCmd) (lo hi : Nat) : List Nat :=
  let a := 8 * lo / c.src.be
  let b := min c.src.count (8 * hi / c.src.be)
  (List.range (b - a)).map (a + ·)
/-- The bytes of a command's stream from where it stands to its end, walked. -/
def copyRest (d : Device) (c : Nat) (x : CopySlot) : Device × List LineImg × WalkStop :=
  match d.res? x.res with
  | some r => copyScan c x.res r x.cmd (elemsOf x.cmd x.done (x.cmd.src.bytes + 64)) d []
  | none => (d, [], none)
/-- The completion of a command (R328). -/
def cmdComp (c : CopyCmd) : Comp :=
  if c.comp = 1 then .word c.soff (BitVec.ofNat 64 c.sval) else if c.comp = 2 then .bar c.soff c.src.bytes else .none
/-- A request to the host for a translation, once (R281). -/
def askAts (d : Device) (core : Nat) : WaitOn → Device
  | .ats ctx va =>
    let q : AtsReq := { core := core, ctx := ctx, va := va / 2 ^ 16 * 2 ^ 16 }
    if d.ats.contains q then d else { d with ats := d.ats ++ [q] }
  | _ => d

/-! ### Faults (R327) -/

/-- A hart of a residence has not ended. -/
def hartLive (d : Device) (rk b : Nat) : Bool := (d.liveHarts rk).getLsbD b
/-- An engine trap made pending on a hart, or the launch killed when the hart has ended (R327). -/
def engTrap (d : Device) (rk b cause : Nat) (tval : Word) : Device :=
  if d.hartLive rk b then d.modHart rk b fun t => { t with engTraps := t.engTraps ++ [{ cause := cause, tval := tval }] }
  else d.killBy rk b cause 0 tval
/-- A command meets a translation fault: its slot is FAULTED, and a fault record is made (R284, R327); the context stops when the
hart that issued the command waits on it (R285). -/
def faultCmd (d : Device) (c k : Nat) (x : CopySlot) (f : Fail) : Device :=
  match d.res? x.res with
  | none => d
  | some r =>
    let n := d.faultSeq
    let rec_ : FaultRec :=
      { seq := n, launch := r.seq, ctx := r.ctx, core := c, slot := resSlot x.res, bank := x.bank, base := x.bank, cmd := some k
        va := f.tval, tpc := 0, detail := f.detail, access := f.access, written := false }
    let d := d.setSlot c k (some { x with state := .faulted, fault := n })
    ({ d with faults := d.faults ++ [rec_], faultSeq := n + 1 }).flushFaults.stopForCmd x.res

/-! ### Suspension (R329) -/

/-- The stream offset at which a command stops that is being suspended: some blocks further on, below a first failing byte
and below the end of the stream. -/
def stopAt (d : Device) (c : Nat) (x : CopySlot) (blocks : Nat) : Nat :=
  let goal := min (x.done + 64 * blocks) ((x.cmd.src.bytes - 1) / 64 * 64)
  match d.res? x.res with
  | none => x.done
  | some r =>
    match (copyScan c x.res r x.cmd (elemsOf x.cmd x.done goal) d []).2.2 with
    | some (n, _) => max x.done (n * x.cmd.src.be / 8 / 64 * 64)
    | none => max x.done goal
/-- A command stopped after some blocks, its slot freed: its resume offset. A command that does not run is removed as it was
accepted (R329). -/
def stopCmd (d : Device) (c k : Nat) (x : CopySlot) (blocks : Nat) : Device × Nat :=
  if x.state != .running then (d.setSlot c k none, x.cmd.resoff)
  else
    let off := d.stopAt c x blocks
    let d := match d.res? x.res with
      | some r =>
        let y := copyScan c x.res r x.cmd (elemsOf x.cmd x.done off) d []
        writeImgs x.res y.2.1 y.1
      | none => d
    (d.setSlot c k none, off)
/-- A saved command placed among others in the order of acceptance (R329). -/
def insertSaved (x : SavedCmd) : List SavedCmd → List SavedCmd
  | [] => [x]
  | y :: l => if x.age < y.age then x :: y :: l else y :: insertSaved x l
/-- A command of a context that a switch suspends: it waits in the context to re-enter its channel (R329). -/
def saveCmd (d : Device) (c k blocks : Nat) : Device :=
  match d.cmdSlot c k with
  | none => d
  | some x =>
    let r := d.stopCmd c k x blocks
    let v : SavedCmd := { bank := x.bank, cmd := { x.cmd with resoff := r.2 }, age := x.age, fault := x.fault }
    r.1.modRes x.res fun y => { y with saved := insertSaved v y.saved }
/-- The slots of a residence's commands, in order of acceptance. -/
def cmdsOf (d : Device) (c rk : Nat) : List Nat :=
  let l := (List.range 32).filterMap fun k => (d.cmdSlot c k).bind fun x => if x.res = rk then some (k, x.age) else none
  let rec insert (p : Nat × Nat) : List (Nat × Nat) → List (Nat × Nat)
    | [] => [p]
    | q :: t => if p.2 < q.2 then p :: q :: t else q :: insert p t
  (l.foldl (fun a p => insert p a) []).map Prod.fst
/-- Every command of a residence suspended and saved, in order of acceptance (R329). -/
def saveCmds (d : Device) (c rk : Nat) : Device :=
  (d.cmdsOf c rk).foldl (fun d k => d.saveCmd c k (Config.stopBlocks d.now)) d
/-- The saved command of a residence that re-enters next: the first whose channel has a free slot and for which no earlier
one waits (R329). -/
def reentry (d : Device) (c rk : Nat) : Option (Nat × Nat × SavedCmd) :=
  match d.res? rk with
  | none => none
  | some r => r.saved.zipIdx.findSome? fun p =>
      if (r.saved.take p.2).any fun o => o.cmd.chan == p.1.cmd.chan then none
      else (d.chanFree c p.1.cmd.chan).map fun k => (p.2, k, p.1)

end Device

/-! ### ENQ and ENQ1 (R335, R336) -/

/-- Command records checked in order: the first failure, or the commands (R320, R335). -/
def cmdChecks (core rk : Nat) (r : Residence) : List (Nat × Nat) → Device → List (Nat × CopyCmd) →
    Device × Except CmdR (List (Nat × CopyCmd))
  | [], d, l => (d, .ok l)
  | p :: t, d, l =>
    let x := cmdCheck core rk r p.1 p.2 d
    match x.2 with
    | .ok c => cmdChecks core rk r t x.1 (l ++ [(p.1, c)])
    | f => (x.1, .error f)
/-- The active records of ENQ on a hart (R335). -/
def enqActive (t : Hart) (m : MaskMod) (n : Nat) : List Nat :=
  (List.range n).filter fun k => !m.me || t.masks[m.mi.val].getLsbD k != m.mn
/-- Commands offered in ascending order: the records that were accepted. -/
def offerAll (c rk bank : Nat) : List (Nat × CopyCmd) → Device → List Nat → Device × List Nat
  | [], d, l => (d, l)
  | p :: t, d, l =>
    let x := d.offer c rk bank p.2
    offerAll c rk bank t x.1 (if x.2.isSome then l ++ [p.1] else l)
/-- ENQ on one hart (R335). -/
def enqOn (m : MaskMod) (d : Msk) (a : Lat) (n : Src) (k : Nat) (s : State) : HRes :=
  let cnt := (s.src k n).toNat
  let t := s.hart k
  let act := enqActive t m cnt
  if cnt = 0 || 128 < cnt || !(s.latR k (.own a)).valid then .fail s.bad4
  else match s.poisonOf k { ref := .own a, fmt := .illegal, read := act } with
    | some f => .fail f
    | none => match s.res? with
      | none => .ok s
      | some r =>
        let data := s.latData k (.own a)
        let x := cmdChecks s.iss.core s.rk r (act.map fun j => (j, getBytes data (64 * j) 64)) s.dev []
        let s := { s with dev := x.1 }
        match x.2 with
        | .error (.fail f) => .fail f
        | .error (.wait w) => .hold w
        | .error (.ok _) => .ok s
        | .ok cmds =>
          let y := offerAll s.iss.core s.rk k cmds s.dev []
          let got := y.2.foldl (fun v j => v ||| (1#8192 <<< j)) (0#8192)
          let low := BitVec.ofNat 8192 (2 ^ cnt - 1)
          .ok (({ s with dev := y.1 }.putMask k d ((t.masks[d.val] &&& ~~~ low) ||| got)).pushSeg k [.own a] [] false 16 (store := true))
/-- ENQ (R335). -/
def execEnq (h : Hdr) (m : MaskMod) (d : Msk) (a : Lat) (n : Src) (s : State) : Out :=
  wordOp h { rd := srcRegs n, latch := [.own a], old := true, seg := fun _ => .whole 16, chargeH := fun _ => 16 }
    (perHart (enqOn m d a n)) s
/-- The eight registers of ENQ1. -/
def enqRegs (a : XReg) : List XReg := (List.range 8).map fun j => ⟨(a.val + j) % 64, Nat.mod_lt _ (by decide)⟩
/-- ENQ1 on one hart (R336). -/
def enq1On (d a : XReg) (k : Nat) (s : State) : HRes :=
  match s.res? with
  | none => .ok s
  | some r =>
    let v := (enqRegs a).zipIdx.foldl (fun v q => v + ((s.hart k).getX q.1).toNat * 2 ^ (64 * q.2)) 0
    let x := cmdCheck s.iss.core s.rk r 0 v s.dev
    let s := { s with dev := x.1 }
    match x.2 with
    | .fail f => .fail f
    | .wait w => .hold w
    | .ok c =>
      let y := s.dev.offer s.iss.core s.rk k c
      .ok (writeReg k (.x d) (match y.2 with
        | some n => BitVec.ofNat 64 n
        | none => BitVec.allOnes 64) none { s with dev := y.1 })
/-- ENQ1 (R336). -/
def execEnq1 (h : Hdr) (d : XReg) (a : XReg) (s : State) : Out :=
  wordOp h { rd := (enqRegs a).map .x, wr := [.x d], old := true } (perHart (enq1On d a)) s

/-! ### ESTAT and ESUSP (R337, R338) -/

/-- The code of a slot's state (R317). -/
def SlotState.code : SlotState → Nat
  | .queued => 1 | .running => 2 | .faulted => 3
/-- What ESTAT.slot reads (R337). -/
def estatSlot (s : State) (k : Nat) : Nat :=
  match s.dev.cmdSlot s.iss.core k with
  | none => 0
  | some x =>
    if x.res ≠ s.rk then 7
    else x.state.code + x.bank * 2 ^ 4 + (if x.state = .running then x.done else x.cmd.resoff) % 2 ^ 48 * 2 ^ 16
/-- What ESTAT.chan reads (R337). -/
def estatChan (s : State) (ch : Nat) : Nat :=
  let l := s.dev.chanCmds s.iss.core ch
  l.length + (l.filter fun p => p.2.res == s.rk).length * 2 ^ 4
    + (s.dev.savedFor s.rk ⟨ch % 8, Nat.mod_lt _ (by decide)⟩).toNat * 2 ^ 8
/-- What ESTAT.mine reads (R337). -/
def estatMine (s : State) (b : Nat) : Nat :=
  (List.range 32).foldl (fun v k => match s.dev.cmdSlot s.iss.core k with
    | some x => if x.res = s.rk ∧ x.bank = b then v + 2 ^ k else v
    | none => v) 0
/-- The registers that ESTAT reads. -/
def estatRegs : EstatForm → List Reg
  | .slot b | .chan b => srcRegs b
  | .mine => []
/-- ESTAT on one hart (R337). -/
def estatOn (form : EstatForm) (d : XReg) (k : Nat) (s : State) : HRes :=
  let put (v : Nat) : HRes := .ok (writeReg k (.x d) (BitVec.ofNat 64 v) none s)
  match form with
  | .slot b => let n := (s.src k b).toNat; if 32 ≤ n then .fail (failAt 0x10 n) else put (estatSlot s n)
  | .chan b => let n := (s.src k b).toNat; if 8 ≤ n then .fail (failAt 0x10 n) else put (estatChan s n)
  | .mine => put (estatMine s k)
/-- ESTAT (R337). -/
def execEstat (h : Hdr) (form : EstatForm) (d : XReg) (s : State) : Out :=
  wordOp h { rd := estatRegs form, wr := [.x d] } (perHart (estatOn form d)) s
/-- ESUSP on one hart (R338); how far a running command has come is a free value. -/
def esuspOn (d : XReg) (b : Src) (k : Nat) (s : State) : HRes :=
  let n := (s.src k b).toNat
  if 32 ≤ n then .fail (failAt 0x10 n)
  else match s.dev.cmdSlot s.iss.core n with
    | some x =>
      if x.res ≠ s.rk then .ok (writeReg k (.x d) (BitVec.allOnes 64) none s)
      else
        let r := s.dev.stopCmd s.iss.core n x (Config.stopBlocks s.dev.now)
        .ok (writeReg k (.x d) (BitVec.ofNat 64 r.2) none { s with dev := r.1 })
    | none => .ok (writeReg k (.x d) (BitVec.allOnes 64) none s)
/-- ESUSP (R338). -/
def execEsusp (h : Hdr) (d : XReg) (b : Src) (s : State) : Out :=
  wordOp h { rd := srcRegs b, wr := [.x d], old := true } (perHart (esuspOn d b)) s

/-! ### Barrier words (R330 to R334, R339 to R341) -/

/-- The object that a barrier word names on a hart, read for its checks and its effect (R334). -/
def State.barAccess (s : State) (k : Nat) (a : XReg) (go : State → Nat → Bar → HRes) : HRes :=
  let va := ((s.hart k).getX a).toNat
  s.access k tagAdmits .read (va % 16 == 0) va fun s p =>
    s.readBytes p va 16 fun s v => go s p.off (Bar.ofNat v)
/-- The trap 0x10 of a barrier word. -/
def barBad (k : Nat) (a : XReg) (s : State) : HRes := .fail { cause := 0x10, tval := (s.hart k).getX a }
/-- Bits set in a bank mask. -/
def bankCount (m : Mask16) : Nat := (banksOf m).length
/-- The list of a hart after BARI of an object: entered when it is a member, left otherwise (R332); none when it is full. -/
def barList (l : Vector (Option Nat) 4) (off : Nat) (memb : Bool) : Option (Vector (Option Nat) 4) :=
  if memb then
    if l.toList.contains (some off) then some l
    else ((List.finRange 4).find? fun i => l[i.val].isNone).map fun i => l.set i.val (some off)
  else some (l.map fun e => if e = some off then none else e)
/-- BARI on one hart (R339). -/
def bariOn (a : XReg) (b : Src) (k : Nat) (s : State) : HRes :=
  let va := ((s.hart k).getX a).toNat
  let v := (s.src k b).toNat
  let exp := v % 2 ^ 24
  let mask : Mask16 := BitVec.ofNat 16 (v / 2 ^ 24)
  s.access k tagAdmits .write (va % 16 == 0) va fun s p =>
    let live := s.dev.liveHarts s.rk
    let m := mask &&& live
    let e := exp - bankCount (mask &&& ~~~ live)
    let lists := (banksOf live).map fun q => (q, barList (s.hart q).bars p.off (m.getLsbD q))
    if v / 2 ^ 40 ≠ 0 || exp < bankCount mask || lists.any fun q => q.2.isNone then
      barBad k a s
    else
      let o : Bar := { pend := e, arr := 0, phase := 0, exp := e, memb := m, waitm := 0, brk := false, hi := 0 }
      let s := s.modDev fun d => d.modRes s.rk fun r => r.setBar p.off o
      .ok (lists.foldl (fun s q => match q.2 with
        | some l => s.modHart q.1 fun t => { t with bars := l }
        | none => s) s)
/-- BARI (R339). -/
def execBari (h : Hdr) (a : XReg) (b : Src) (s : State) : Out :=
  wordOp h { rd := .x a :: srcRegs b, old := true } (perHart (bariOn a b)) s
/-- BARP or BARA on one hart: PEND moves by c, up for a posting and down for an arrival (R331, R340). -/
def barMove (post : Bool) (d a : XReg) (b : Src) (k : Nat) (s : State) : HRes :=
  s.barAccess k a fun s off o =>
    let c := sint64 (s.src k b)
    let by_ := if post then c else -c
    if o.hi ≠ 0 || c < 0 || (2 ^ 39 : Int) ≤ c || !Bar.fits (o.pend + by_) then barBad k a s
    else
      let o' := if !post && o.memb.getLsbD k then { o with arr := o.arr ||| bitOf k } else o
      .ok (writeReg k (.x d) (BitVec.ofNat 64 o.phase) none
        (s.modDev fun dv => dv.modRes s.rk fun r => r.setBar off (o'.move by_)))
/-- BARP (R340). -/
def execBarp (h : Hdr) (d : XReg) (a : XReg) (b : Src) (s : State) : Out :=
  wordOp h { rd := .x a :: srcRegs b, wr := [.x d], old := true } (perHart (barMove true d a b)) s
/-- BARA (R340). -/
def execBara (h : Hdr) (d : XReg) (a : XReg) (b : Src) (s : State) : Out :=
  wordOp h { rd := .x a :: srcRegs b, wr := [.x d], old := true } (perHart (barMove false d a b)) s
/-- The object as the convoy found it (R32, R333). -/
def State.barBefore (s : State) (off : Nat) : Bar :=
  match s.rollback.res? s.rk with
  | some r => r.bar off
  | none => Bar.ofNat 0
/-- The checks of BARW on one hart (R330, R334, R341). -/
def barwCheck (a : XReg) (k : Nat) (s : State) : HRes :=
  s.barAccess k a fun s off _ =>
    let o := s.barBefore off
    if o.hi ≠ 0 then barBad k a s
    else if o.brk then .fail { cause := 0x11, tval := (s.hart k).getX a }
    else .ok s
/-- The pool-window offset of an address in a register. -/
def State.xOff (s : State) (k : Nat) (a : XReg) : Nat := ((s.hart k).getX a).toNat - poolWindow
/-- The conditions of BARW (R341). -/
def barwConds (a : XReg) (b : Src) (s : State) (run : List Nat) : List WaitCond :=
  run.map fun k => { bank := k, off := s.xOff k a, on := .barrier ((s.src k b).toNat % 256) }
/-- The effect of BARW on one hart (R341). -/
def barwOn (d a : XReg) (k : Nat) (s : State) : HRes :=
  s.barAccess k a fun s _ o => .ok (writeReg k (.x d) (BitVec.ofNat 64 o.phase) none s)
/-- BARW (R341). -/
def execBarw (h : Hdr) (d : XReg) (a : XReg) (b : Src) (s : State) : Out :=
  wordOp h { rd := .x a :: srcRegs b, wr := [.x d] } (waitWord (barwCheck a) (barwConds a b) (barwOn d a)) s

/-! ### WAIT and WAITV (R342) -/

/-- The word at the address of WAIT on a hart. -/
def State.wordAccess (s : State) (k : Nat) (a : XReg) (go : State → Nat → Nat → HRes) : HRes :=
  let va := ((s.hart k).getX a).toNat
  s.access k tagAdmits .read (va % 8 == 0) va fun s p => s.readBytes p va 8 fun s v => go s p.off v
/-- WAIT (R342). -/
def execWait (h : Hdr) (cond : WCond) (d : XReg) (a : XReg) (b : Src) (s : State) : Out :=
  wordOp h { rd := .x a :: srcRegs b, wr := [.x d] }
    (waitWord (fun k s => s.wordAccess k a fun s _ _ => .ok s)
      (fun s run => run.map fun k => { bank := k, off := s.xOff k a, on := .word cond (s.src k b) })
      (fun k s => s.wordAccess k a fun s _ v => .ok (writeReg k (.x d) (BitVec.ofNat 64 v) none s))) s
/-- The checks of WAITV on one hart (R334). -/
def waitvCheck (n : Nat) (a : XReg) (k : Nat) (s : State) : HRes :=
  let va := ((s.hart k).getX a).toNat
  s.access k tagAdmits .read (va % 8 == 0 && va % 64 + 8 * n ≤ 64) va fun s _ => .ok s
/-- WAITV (R342): like the conditions of every word that waits, what it reads are the tags as the convoy found them (R259). -/
def execWaitv (h : Hdr) (all : Bool) (n1 : BitVec 3) (d : XReg) (a : XReg) (s : State) : Out :=
  let n := n1.toNat + 1
  wordOp h { rd := [.x a], wr := [.x d] }
    (waitWord (waitvCheck n a)
      (fun s run => run.map fun k => { bank := k, off := s.xOff k a, on := .full all n })
      (fun k s => match s.rollback.res? s.rk with
        | some r => .ok (writeReg k (.x d) (BitVec.ofNat 64 (r.tags (s.xOff k a) n)) none s)
        | none => .ok s)) s

/-! ### Events -/

namespace Device

/-- A command performs the rest of its payload and makes its completion (R326, R328); none when something stops it. -/
def finishCmd (d : Device) (c k : Nat) (x : CopySlot) : Option Device :=
  let r := d.copyRest c x
  match r.2.2 with
  | none => some ((((writeImgs x.res r.2.1 r.1).setSlot c k none).complete x.res (cmdComp x.cmd)).sendAts)
  | some _ => none

end Device
/-- BARRIER_WAIT_WAKE: a waiting BARW is tried again after its phase has changed or its barrier has broken (R331, R341). -/
def execBarrierWaitWake (core : Fin 2048) (bank : Fin 16) (s : State) : Out :=
  .next (s.modDev fun d => d.wakePool core bank PoolCond.isBarrier)
/-- WORD_WAIT_SATISFIED: a waiting WAIT or WAITV is tried again once its condition holds (R342). -/
def execWordWaitSatisfied (core : Fin 2048) (bank : Fin 16) (s : State) : Out :=
  .next (s.modDev fun d => d.wakePool core bank PoolCond.isWord)
/-- COPY_COMMAND_START: the oldest queued command of a channel runs (R317). -/
def execCopyCommandStart (core : Fin 2048) (ch : Fin 8) (s : State) : Out :=
  .next (s.modDev fun d => match d.chanNext core ch with
    | some p => d.setSlot core p.1 (some { p.2 with state := .running })
    | none => d)
/-- COPY_COMPLETION: a running command performs the rest of its payload and makes its completion (R326, R328), which has its turn
(R258). -/
def execCopyCompletion (core : Fin 2048) (slot : Fin 32) (s : State) : Out :=
  .next (s.modDev fun d => match d.cmdSlot core slot with
    | some x =>
      if x.state != .running then d
      else match d.finishCmd core slot x with
        | some e => if d.compTurn x.res (Device.cmdComp x.cmd) then e else d
        | none => match (d.copyRest core x).2.2 with
          | some (_, .wait w) => d.askAts core w
          | _ => d
    | none => d)
/-- COPY_FAULT: a running command meets a translation fault (R327). -/
def execCopyFault (core : Fin 2048) (slot : Fin 32) (s : State) : Out :=
  .next (s.modDev fun d => match d.cmdSlot core slot with
    | some x =>
      let r := d.copyRest core x
      match x.state, r.2.2 with
      | .running, some (_, .fail f) =>
        if f.cause = 0x0C then (Device.writeImgs x.res r.2.1 r.1).faultCmd core slot x f else d
      | _, _ => d
    | none => d)
/-- COPY_PERMISSION_STOP: a running command meets a missing permission, stops, and its hart will trap (R327). -/
def execCopyPermissionStop (core : Fin 2048) (slot : Fin 32) (s : State) : Out :=
  .next (s.modDev fun d => match d.cmdSlot core slot with
    | some x =>
      let r := d.copyRest core x
      match x.state, r.2.2 with
      | .running, some (_, .fail f) =>
        if f.cause = 0x0D then
          ((Device.writeImgs x.res r.2.1 r.1).setSlot core slot none).engTrap x.res x.bank 0x0D f.tval
        else d
      | _, _ => d
    | none => d)
/-- SAVED_COMMAND_REENTRY: a saved command enters its channel again (R329). -/
def execSavedCommandReentry (core : Fin 2048) (slot : Fin 3) (s : State) : Out :=
  .next (s.modDev fun d =>
    let rk := resKey core slot
    if (d.core core).issuing ≠ some slot || (d.core core).switch.isSome then d
    else match d.reentry core rk with
      | some (i, k, x) =>
        (d.modRes rk fun r => { r with saved := dropIdx i r.saved }).placeCmd core rk x.bank k x.cmd x.age x.fault
      | none => d)
/-- COMMAND_SUSPENSION_STOP: a running command that a switch is suspending stops after some blocks (R329). -/
def execCommandSuspensionStop (core : Fin 2048) (slot : Fin 32) (blocks : Nat) (s : State) : Out :=
  .next (s.modDev fun d => match d.cmdSlot core slot with
    | some x => if x.state == .running && (d.core core).switch.isSome then d.saveCmd core slot blocks else d
    | none => d)

end Sys2Proof.Machine
end

