-- ==== Sys2Proof/Machine/Sifter.lean ====
section
/-! DEFINITION. The Sifter: constraint records, rounds and drains, the words that drive it and its events (R343 to R361). -/

namespace Sys2Proof.Machine

/-! ### Records (R344, R345, R347) -/

/-- The static world (R344). -/
def staticBody : Nat := 0xFFFFF
/-- INDEX. -/
def recIndex (r : SiftRec) : Nat := (r.extractLsb' 0 32).toNat
/-- CNT. -/
def recCnt (r : SiftRec) : Nat := (r.extractLsb' 112 3).toNat
/-- A body field. -/
def recField (r : SiftRec) (j : Nat) : Nat := (r.extractLsb' (32 + 20 * j) 20).toNat
/-- The bodies that a record names, but the static world; a CNT above 4 is read as 4 and one of 0 as 1 (R347). -/
def recBodies (r : SiftRec) : List Nat :=
  ((List.range (max 1 (min 4 (recCnt r)))).map (recField r)).filter (· != staticBody)
/-- A malformed record (R345). -/
def recBad (r : SiftRec) : Bool :=
  recCnt r == 0 || 4 < recCnt r || recIndex r == 0xFFFFFFFF || r.extractLsb' 115 13 != 0
    || (List.range 4).any fun j => recCnt r ≤ j && recField r j != 0

/-! ### Rounds and drains (R348, R352, R360) -/

/-- What a round has made of the records so far. -/
structure SiftRun where
  occ : List Nat := []
  taken : List SiftRec := []
  kept : List SiftRec := []
  seen : Nat := 0
deriving DecidableEq, Repr
/-- One record considered: accepted when none of its bodies is marked, else kept in its place (R348). -/
def SiftRun.step (max : Nat) (s : SiftRun) (r : SiftRec) : SiftRun :=
  if s.taken.length = max then { s with kept := s.kept ++ [r] }
  else if (recBodies r).any s.occ.contains then { s with kept := s.kept ++ [r], seen := s.seen + 1 }
  else { s with occ := recBodies r ++ s.occ, taken := s.taken ++ [r], seen := s.seen + 1 }
/-- A round over the records that it found in the queue (R348). -/
def siftRun (q0 : List SiftRec) (max : Nat) : SiftRun := q0.foldl (SiftRun.step max) {}
/-- The batch list: 32-bit words and the end marker (R348). -/
def batchList (l : List SiftRec) : Nat :=
  (l.map recIndex ++ [0xFFFFFFFF]).zipIdx.foldl (fun v (p : Nat × Nat) => v + p.1 * 2 ^ (32 * p.2)) 0
/-- Records as a drain writes them (R360). -/
def drainList (l : List SiftRec) : Nat := l.zipIdx.foldl (fun v (p : SiftRec × Nat) => v + p.1.toNat * 2 ^ (128 * p.2)) 0

namespace SiftState

/-- The first operation is a round, or a drain. -/
def headIs (f : SiftState) (drain : Bool) : Bool :=
  match f.ops with
  | o :: _ => o.drain == drain
  | [] => false
/-- The records that an operation takes out of the queue, and those that stay (R348, R360). -/
def run (f : SiftState) (o : SiftOp) : SiftRun :=
  let q0 := f.queue.take o.q0
  if o.drain then { taken := q0.take o.max, kept := q0.drop o.max }
  else siftRun q0 o.max
/-- The end of the first operation (R352). -/
def endTime (f : SiftState) (o : SiftOp) : Nat :=
  let r := f.run o
  let k := r.taken.length
  if o.drain then o.start + 16 + (k + 3) / 4
  else
    let spill := if f.buf.toNat < packageWindow then 0 else (r.seen - Config.sifterQueue) / 4
    o.start + 16 + r.seen + (k + 1 + 15) / 16 + spill
/-- An operation accepted: it starts when no other is before it (R350). -/
def accept (f : SiftState) (o : SiftOp) (now : Nat) : SiftState :=
  let o := if f.ops.isEmpty then { o with start := now, q0 := f.queue.length } else o
  { f with ops := f.ops ++ [o] }
/-- The first operation started (R350). -/
def restart (f : SiftState) (now : Nat) : SiftState :=
  match f.ops with
  | o :: l => { f with ops := { o with start := now, q0 := f.queue.length } :: l }
  | [] => f
/-- The first operation run again from its start, over the records that it found then (R349, R353). -/
def resume (f : SiftState) (now : Nat) : SiftState :=
  match f.ops with
  | o :: l => { f with ops := { o with start := now } :: l }
  | [] => f
/-- Records reserved or held (R346). -/
def held (f : SiftState) : Nat := f.queue.length + f.pushes.foldl (fun n p => n + p.recs.length) 0
/-- The push whose sweep ends first, the lowest bank first (R358). -/
def nextPush (f : SiftState) : Option SiftPush :=
  f.pushes.foldl (fun best p => match best with
    | none => some p
    | some b => if p.done < b.done || (p.done == b.done && p.bank < b.bank) then some p else some b) none

end SiftState

namespace Device

/-- The Sifter of a core set. -/
def setSifter (d : Device) (c : Nat) (x : Sifter) : Device := d.modCore c fun y => { y with sifter := x }
/-- The Sifter of a core as it is bound. -/
def sift? (d : Device) (c : Nat) : Option SiftState :=
  match (d.core c).sifter with
  | .bound f => some f
  | _ => none
/-- The Sifter as it is bound to a residence (R343). -/
def siftOf (d : Device) (c rk : Nat) : Option SiftState :=
  match d.sift? c with
  | some f => if f.res = rk then some f else none
  | none => none
/-- The region of R347 in which `n` bytes from an address lie, as an address that does not depend on the core. -/
def siftPlace (d : Device) (c : Nat) (r : Residence) (va n : Nat) : Option Word :=
  match d.region c r va, d.region c r (va + n - 1) with
  | .scratch _, .scratch _ => some (BitVec.ofNat 64 va)
  | .vault a, .vault b =>
    if a / 2 ^ 20 = b / 2 ^ 20 ∧ n ≤ 2 ^ 20 then some (BitVec.ofNat 64 (packageWindow + a)) else none
  | _, _ => none
/-- `n` bytes written at an address that `siftPlace` gave. -/
def siftWrite (d : Device) (rk : Nat) (a : Word) (n v : Nat) : Device :=
  if a.toNat < packageWindow then d.modRes rk fun r => r.write (a.toNat - poolWindow) n v
  else d.vaultWrite (a.toNat - packageWindow) n v false
/-- `n` bytes read at an address that `siftPlace` gave; a poisoned word gives undefined bytes. -/
def siftRead (d : Device) (rk : Nat) (a : Word) (n : Nat) : Nat :=
  let r := if a.toNat < packageWindow then
      match d.res? rk with
      | some r => r.read (a.toNat - poolWindow) n
      | none => (0, false)
    else d.vaultRead (a.toNat - packageWindow) n
  if r.2 then freeBytes d.now a.toNat n else r.1
/-- The address of a record of the queue in the spill buffer: the buffer holds those past the Sifter's own, in queue order from its
start. How it lies there is the model's choice (log 29). -/
def spillAt (f : SiftState) (k : Nat) : Word := f.buf + BitVec.ofNat 64 (16 * (k - Config.sifterQueue))
/-- The records past the Sifter's own read back from the spill buffer, as they stand there (R346, R347). -/
def unspill (d : Device) (f : SiftState) : SiftState :=
  { f with queue := f.queue.take Config.sifterQueue
      ++ ((f.queue.drop Config.sifterQueue).zipIdx.map fun p =>
        BitVec.ofNat 128 (d.siftRead f.res (spillAt f (Config.sifterQueue + p.2)) 16)) }
/-- A bound Sifter with its queue, and the records past its own written to the spill buffer (R346). -/
def bindSift (d : Device) (c : Nat) (f : SiftState) : Device :=
  ((f.queue.drop Config.sifterQueue).zipIdx.foldl (fun d p =>
    d.siftWrite f.res (spillAt f (Config.sifterQueue + p.2)) 16 p.1.toNat) d).setSifter c (.bound f)
/-- The first operation of a bound Sifter run whole: its list, the queue and the completion, and the next one starts (R348,
R351, R360). -/
def siftPerform (d : Device) (c : Nat) (f : SiftState) : Device :=
  match f.ops with
  | [] => d
  | o :: l =>
    let f := d.unspill f
    let r := f.run o
    let k := r.taken.length
    let d := if o.drain then d.siftWrite f.res o.addr (16 * k) (drainList r.taken)
      else d.siftWrite f.res o.addr (4 * (k + 1)) (batchList r.taken)
    let g : SiftState := { f with
      queue := r.kept ++ f.queue.drop o.q0
      ops := l
      rounds := if o.drain then f.rounds else (f.rounds + 1) % 2 ^ 32
      lastK := if o.drain then f.lastK else k }
    let comp : Comp := match o.comp with
      | .word off v => .word off (BitVec.ofNat 64 (v.toNat * 2 ^ 32 + k))
      | x => x
    (if o.rel then d.setSifter c .free else d.bindSift c (g.restart d.now)).complete f.res comp
/-- The running operation of a residence's Sifter completed, and the Sifter freed (R354). -/
def siftFinish (d : Device) (c rk : Nat) : Device :=
  match d.siftOf c rk with
  | some f => (d.siftPerform c f).setSifter c .free
  | none => d
/-- The first operation of a core's Sifter, of a kind, has run its time, and its completion has its turn (R258). -/
def siftReady (d : Device) (c : Nat) (drain : Bool) : Bool :=
  match d.sift? c with
  | some f => match f.ops with
    | o :: _ => o.drain == drain && f.endTime o ≤ d.now && d.compTurn f.res o.comp
    | [] => false
  | none => false
/-- A push of a core's Sifter whose sweep has ended. -/
def pushReady (d : Device) (c : Nat) : Bool :=
  match d.sift? c with
  | some f => match f.nextPush with
    | some p => p.done ≤ d.now
    | none => false
  | none => false

end Device

/-! ### SFCFG (R357) -/

/-- SFCFG on its gang (R357). -/
def sfcfgOn (d : PReg) (a : XReg) (b : Src) (k : Nat) (run : List Nat) (s : State) : State :=
  let cap := (s.src k b).toNat
  let va := ((s.hart k).getX a).toNat
  let put (v : Bool) (s : State) : State := run.foldl (fun s q => writeReg q (.p d) (boolWord v) none s) s
  match s.res? with
  | none => s
  | some r =>
    if 65536 < cap || cap % 4 ≠ 0 then s.failAll (failAt 0x10 cap)
    else if 0 < cap && va % 64 ≠ 0 then s.failAll (failAt 0x09 va)
    else match (if cap = 0 then some 0 else s.dev.siftPlace s.iss.core r va (16 * cap)) with
      | none => s.failAll (failAt 0x10 va)
      | some buf => match (s.dev.core s.iss.core).sifter with
        | .free =>
          put true (s.modDev fun x => x.setSifter s.iss.core
            (.bound { res := s.rk, seq := r.seq, k := r.k, cap := cap, buf := buf }))
        | .bound f =>
          if f.res ≠ s.rk then put false s
          else if !f.ops.isEmpty || f.queue ≠ [] then s.failAll { cause := 0x10, tval := s.iss.addr }
          else put true (s.modDev fun x => x.setSifter s.iss.core (.bound { f with cap := cap, buf := buf }))
        | .saving _ => put false s
/-- SFCFG (R357). -/
def execSfcfg (h : Hdr) (d : PReg) (a : XReg) (b : Src) (s : State) : Out :=
  wordOp h { rd := .x a :: srcRegs b, wr := [.p d], old := true }
    (gangWord (fun s k => [((s.hart k).getX a).toNat, (s.src k b).toNat]) (sfcfgOn d a b)) s

/-! ### SFPUSH (R358) -/

/-- The active records of SFPUSH on a hart: their numbers. -/
def pushActive (t : Hart) (m : MaskMod) (n : Nat) : List Nat :=
  (List.range n).filter fun k => !m.me || t.masks[m.mi.val].getLsbD k != m.mn
/-- The records of SFPUSH on one hart: its checks but the last (R358). -/
def pushRecs (m : MaskMod) (a : Lat) (n : Src) (k : Nat) (s : State) : Except Fail (List SiftRec) :=
  let cnt := (s.src k n).toNat
  let l := s.latR k (.own a)
  if cnt = 0 || 512 < cnt || !l.valid then .error s.bad4
  else if (s.dev.siftOf s.iss.core s.rk).isNone then .error { cause := 0x10, tval := s.iss.addr }
  else
    let act := pushActive (s.hart k) m cnt
    match s.poisonOf k { ref := .own a, fmt := .illegal, read := act.map (· / 4) } with
    | some f => .error f
    | none =>
      let data := s.latData k (.own a)
      let recs := act.map fun j => (j, BitVec.ofNat 128 (getBytes data (16 * j) 16))
      match recs.find? fun p => recBad p.2 with
      | some p => .error (failAt 0x10 p.1)
      | none => .ok (recs.map Prod.snd)
/-- The checks of SFPUSH on one hart as a part of the word. -/
def pushCheck (m : MaskMod) (a : Lat) (n : Src) (k : Nat) (s : State) : HRes :=
  match pushRecs m a n k s with
  | .error f => .fail f
  | .ok _ => .ok s
/-- The end of the sweep of a push, which begins when its convoy takes effect, after the sweeps of the hart that are before it
(R346, R352). -/
def pushEnd (s : State) (f : SiftState) (k : Nat) (a : Lat) : Nat :=
  let sweep : VecSeg := { cv := 0, rd := [latchNo k a], wr := [], time := 16, store := true }
  (f.pushes.filter fun p => p.bank == k).foldl (fun t p => max t p.done) (s.dev.segReady s.iss.core k sweep) + 16
/-- The effect of SFPUSH on one hart: its records are reserved, to enter at the end of its sweep (R346, R358). -/
def pushEffect (m : MaskMod) (d : XReg) (a : Lat) (n : Src) (k : Nat) (s : State) : HRes :=
  match pushRecs m a n k s, s.dev.siftOf s.iss.core s.rk with
  | .ok l, some f =>
    let p : SiftPush := { done := pushEnd s f k a, bank := k, recs := l }
    let s := s.modDev fun x => x.setSifter s.iss.core (.bound { f with pushes := f.pushes ++ [p] })
    .ok ((writeReg k (.x d) (BitVec.ofNat 64 l.length) none s).pushSeg k [.own a] [] false 16 (store := true))
  | _, _ => .ok s
/-- SFPUSH on the harts that run it (R358). -/
def sfpushOn (m : MaskMod) (d : XReg) (a : Lat) (n : Src) (run : List Nat) (s : State) : State :=
  let s := perHart (pushCheck m a n) run s
  let run := s.sound run
  match s.dev.siftOf s.iss.core s.rk with
    | none => s
    | some f =>
      let total := run.foldl (fun t k => match pushRecs m a n k s with
        | .ok l => t + l.length
        | .error _ => t) 0
      if Config.sifterQueue + f.cap < f.held + total then
        run.foldl (fun s k => s.addFail k (failAt 0x16 f.queue.length)) s
      else perHart (pushEffect m d a n) run s
/-- SFPUSH (R358). -/
def execSfpush (h : Hdr) (m : MaskMod) (d : XReg) (a : Lat) (n : Src) (s : State) : Out :=
  wordOp h { rd := srcRegs n, wr := [.x d], latch := [.own a], old := true, seg := fun _ => .whole 16, chargeH := fun _ => 16 }
    (sfpushOn m d a n) s

/-! ### SFROUND and SFDRAIN (R356, R359, R360) -/

/-- SFROUND or SFDRAIN on its gang (R350, R356, R359, R360). -/
def sfopOn (drain rel : Bool) (comp : CompSpec) (addr : XReg) (max : Src) (k : Nat) (_ : List Nat) (s : State) : State :=
  let va := ((s.hart k).getX addr).toNat
  let n := (s.src k max).toNat
  match s.dev.siftOf s.iss.core s.rk, s.res? with
  | some f, some r =>
    if n = 0 || (if drain then 2 ^ 20 else 65536) < n then s.failAll (failAt 0x10 n)
    else if va % (if drain then 16 else 4) ≠ 0 then s.failAll (failAt 0x09 va)
    else match s.dev.siftPlace s.iss.core r va (if drain then 16 * n else 4 * (n + 1)) with
      | none => s.failAll (failAt 0x10 va)
      | some a => match specComp s k r 1 comp with
        | none => s.failAll { cause := 0x10, tval := specVal s k comp }
        | some c =>
          let before := match s.rollback.siftOf s.iss.core s.rk with
            | some g => !g.ops.isEmpty
            | none => false
          if before then s.holdOn .engine
          else
            let o : SiftOp := { drain := drain, rel := rel, bank := k, addr := a, max := n, comp := c }
            s.modDev fun x => x.setSifter s.iss.core (.bound (f.accept o x.now))
  | _, _ => s.failAll { cause := 0x10, tval := s.iss.addr }
/-- What the active harts of SFROUND and SFDRAIN must agree on. -/
def sfopVals (comp : CompSpec) (addr : XReg) (max : Src) (s : State) (k : Nat) : List Nat :=
  [((s.hart k).getX addr).toNat, (s.src k max).toNat, (specVal s k comp).toNat]
/-- The uses of SFROUND and SFDRAIN. -/
def sfopUse (comp : CompSpec) (addr : XReg) (max : Src) : Uses :=
  { rd := .x addr :: srcRegs max ++ specRegs comp, old := true }
/-- SFROUND (R359). -/
def execSfround (h : Hdr) (comp : CompSpec) (list : XReg) (max : Src) (s : State) : Out :=
  wordOp h (sfopUse comp list max) (gangWord (sfopVals comp list max) (sfopOn false false comp list max)) s
/-- SFDRAIN (R360). -/
def execSfdrain (h : Hdr) (rel : Bool) (comp : CompSpec) (dst : XReg) (max : Src) (s : State) : Out :=
  wordOp h (sfopUse comp dst max) (gangWord (sfopVals comp dst max) (sfopOn true rel comp dst max)) s

/-! ### SFSTAT (R361) -/

/-- What SFSTAT reads (R361). -/
def sfstatRes (s : State) (sel : SfstatSel) : Nat :=
  match s.dev.siftOf s.iss.core s.rk, sel with
  | some f, .queue => f.queue.length
  | some f, .state =>
    1 + (!f.ops.isEmpty).toNat * 2 + (decide (1 < f.ops.length)).toNat * 2 ^ 2
      + (decide (Config.sifterQueue < f.queue.length)).toNat * 2 ^ 3 + f.cap * 2 ^ 32
  | some f, .rounds => f.rounds + f.lastK * 2 ^ 32
  | none, .state => if (s.dev.core s.iss.core).sifter = .free then 0 else 2 ^ 4
  | none, _ => 0
/-- SFSTAT (R361). -/
def execSfstat (h : Hdr) (sel : SfstatSel) (d : XReg) (s : State) : Out :=
  wordOp h { wr := [.x d], old := true }
    (gangWord (fun _ _ => []) fun _ run s => putStat d (sfstatRes s sel) run s) s

namespace Device

/-- The records of the pushes whose sweeps have ended enter the queue (R346, R358). -/
def enterPushes (d : Device) (c : Nat) : Nat → Device
  | 0 => d
  | n + 1 =>
    match d.sift? c with
    | some f => match f.nextPush with
      | some p =>
        if p.done ≤ d.now then
          let g := d.unspill f
          enterPushes (d.bindSift c { g with queue := g.queue ++ p.recs, pushes := f.pushes.erase p }) c n
        else d
      | none => d
    | none => d
/-- The operations of a core's Sifter up to the last of a hart run to their ends, as time passes (R307, R312). -/
def siftThrough (d : Device) (c rk h : Nat) : Nat → Device
  | 0 => d
  | n + 1 =>
    match d.siftOf c rk with
    | some f => match f.ops with
      | o :: l =>
        if (o :: l).any fun q => q.bank == h then
          let d := (d.advanceTo (f.endTime o)).enterPushes c f.pushes.length
          siftThrough (match d.sift? c with
            | some f => d.siftPerform c f
            | none => d) c rk h n
        else d
      | [] => d
    | none => d

end Device

/-! ### Events -/

/-- SIFTER_ROUND: the round that runs ends (R348, R351). -/
def execSifterRound (core : Fin 2048) (s : State) : Out :=
  .next (s.modDev fun d => match d.sift? core with
    | some f => if d.siftReady core false then d.siftPerform core f else d
    | none => d)
/-- SIFTER_DRAIN_RUN: the drain that runs ends (R360). -/
def execSifterDrainRun (core : Fin 2048) (s : State) : Out :=
  .next (s.modDev fun d => match d.sift? core with
    | some f => if d.siftReady core true then d.siftPerform core f else d
    | none => d)
/-- PUSH_ENTER_QUEUE: the records of a push enter the queue at the end of its sweep (R346). -/
def execPushEnterQueue (core : Fin 2048) (s : State) : Out :=
  .next (s.modDev fun d => match d.sift? core with
    | some f => match f.nextPush with
      | some p =>
        if p.done ≤ d.now then
          d.bindSift core { d.unspill f with queue := (d.unspill f).queue ++ p.recs, pushes := f.pushes.erase p }
        else d
      | none => d
    | none => d)
/-- SIFTER_SAVE: the state of a context that has left residence is saved, and the Sifter is free (R353). -/
def execSifterSave (core : Fin 2048) (s : State) : Out :=
  .next (s.modDev fun d => match (d.core core).sifter with
    | .saving f =>
      (d.modLaunch f.seq fun l =>
        { l with places := l.places.map fun p => if p.k = f.k then { p with sift := some f } else p }).setSifter core .free
    | _ => d)

end Sys2Proof.Machine
end

