-- ==== Sys2Proof/Machine/Fence.lean ====
section
/-! DEFINITION. FENCE and IFENCE (R300, R305, R312, R314). -/

namespace Sys2Proof.Machine

/-- A class of operations is in a mask (R300). -/
def inMask (m : BitVec 8) (k : Nat) : Bool := m.getLsbD k
/-- A row command that a fence on `vr` waits for (R312). -/
def RowOp.isAct : RowOp → Bool
  | .act _ _ => true
  | _ => false
/-- A row command that a fence on `vw` waits for: one that starts an array write or performs a pending one (R312). -/
def RowOp.isWrite : RowOp → Bool
  | .wb _ _ | .wbp _ _ | .pre | .close => true
  | _ => false

namespace Device

/-- An ACCLD (or an ACCSV) of a gang that is to begin at its place in the matrix queue (R227, R239). -/
def movesQueued (d : Device) (c rk base : Nat) (load : Bool) : Bool :=
  (queuedMoves ((d.core c).mx.filter fun e => e.res == rk && e.base == base)).any fun x => x.load == load
/-- An ACCLD (or an ACCSV) that a gang forked has not completed. -/
def moving (d : Device) (c rk base : Nat) (load : Bool) : Bool :=
  ((d.core c).xfers.any fun x => x.res == rk && x.bank == base && x.load == load) || d.movesQueued c rk base load
/-- Row commands of a hart that a fence waits for have not started (R312). -/
def rowsLeft (d : Device) (c h : Nat) (pred : BitVec 8) : Bool :=
  (d.bank c h).rowQ.any fun r => (inMask pred 2 && r.op.isAct) || (inMask pred 3 && r.op.isWrite)
/-- The groups of a bank with an array write pending (R131). -/
def pending (d : Device) (c h : Nat) : List Lat := (List.finRange 4).filter fun g => (d.group c h g).pend.isSome

end Device

/-- What a fence of a hart waits for, of the operations of earlier convoys (R312). -/
def fenceWait (pred : BitVec 8) (k : Nat) (s : State) : Option WaitOn :=
  let d := s.rollback
  let c := s.iss.core
  if d.rowsLeft c k pred then some (.rows k)
  else if (inMask pred 1 || inMask pred 3) && 0 < (d.hart s.rk k).redOut then some (.reductions k 0)
  else if inMask pred 3 && !(d.pending c k).isEmpty then some (.fence [k])
  else if (inMask pred 4 || inMask pred 5) && d.forked c s.rk k then some (.forks k)
  else if (inMask pred 6 && d.moving c s.rk s.iss.base true) || (inMask pred 7 && d.moving c s.rk s.iss.base false) then
    some (.fence [])
  else none
/-- How the commands that a fence runs to their ends go on. -/
inductive ForkR where
  | ok (d : Device)
  | fail (f : Fail)
  | wait (w : WaitOn)

namespace Device

/-- A command of a hart run to its end for a fence of its own convoy: a missing permission stops it as it stops any other (R327); a page
that the host has to answer for or to bring in stops the convoy, which executes again: DESIGN CHOICE (log 57). A command of
another hart that is stopped is waited for. -/
def runCmd (d : Device) (c k rk h : Nat) (x : CopySlot) : ForkR :=
  let r := d.copyRest c x
  let own := x.res == rk && x.bank == h
  match r.2.2, own with
  | none, _ => match d.finishCmd c k x with
    | some d => .ok d
    | none => .wait (.fence [])
  | some (_, .wait w), _ => .wait w
  | some (_, .fail f), true =>
    if f.cause = 0x0C then .fail f
    else .ok (((writeImgs x.res r.2.1 r.1).setSlot c k none).engTrap x.res x.bank f.cause f.tval)
  | _, _ => .wait (.fence [])
/-- The commands of a channel up to the one in a slot run, in order. -/
def runSlot (c k rk h : Nat) : Nat → Device → ForkR
  | 0, _ => .wait (.fence [])
  | n + 1, d =>
    let oldest := (d.chanCmds c (k / 4)).foldl (fun best p => match best with
      | none => some p
      | some b => if p.2.age < b.2.age then some p else some b) (none : Option (Nat × CopySlot))
    match oldest with
    | none => .ok d
    | some p =>
      if p.2.state = .faulted then .wait (.fence [])
      else match d.runCmd c p.1 rk h p.2 with
        | .ok d => if p.1 = k then .ok d else runSlot c k rk h n d
        | r => r
/-- The commands of some slots run that are those of a hart. -/
def runSlots (c rk h : Nat) : List Nat → Device → ForkR
  | [], d => .ok d
  | k :: l, d =>
    match d.cmdSlot c k with
    | some x =>
      if x.res == rk && x.bank == h then
        match runSlot c k rk h 4 d with
        | .ok d => runSlots c rk h l d
        | r => r
      else runSlots c rk h l d
    | none => runSlots c rk h l d
/-- The copies and Sifter operations that a hart has forked run to their ends (R305, R307). -/
def finishForks (d : Device) (c rk h : Nat) : ForkR :=
  match runSlots c rk h (List.range 32) d with
  | .ok d => .ok (d.siftThrough c rk h (match d.siftOf c rk with
      | some f => f.ops.length
      | none => 0))
  | r => r
/-- The transfers of a gang of a kind completed (R305). -/
def finishMoves (d : Device) (c rk base : Nat) (load : Bool) : Device :=
  ((d.core c).xfers.filter fun x => x.res == rk && x.bank == base && x.load == load).foldl (fun d x => d.xferEnd c x) d
/-- The pending array writes of a bank performed (R131, R312). -/
def closePending (d : Device) (c h : Nat) : Device := (d.pending c h).foldl (fun d g => d.ownClose c h g) d

end Device

/-- The row commands and the reductions of a fence's own convoy performed: the reductions first, which a row command may wait for
(R303, R305, R312). -/
def fenceRows (pred : BitVec 8) (k : Nat) (s : State) : State :=
  let rows := inMask pred 2 || inMask pred 3
  let s := if rows || inMask pred 1 then s.modDev fun d => d.drainReds s.rk k 0 else s
  let s := if rows then s.settleRows k else s
  if inMask pred 3 then s.modDev fun d => d.closePending s.iss.core k else s
/-- The transfers of a fence's own convoy performed, with the entries of the queue before them (R305, R312). -/
def fenceMoves (pred : BitVec 8) (s : State) : State :=
  let s := if inMask pred 6 || inMask pred 7 then s.settleQueue else s
  let s := if inMask pred 6 then s.modDev fun d => d.finishMoves s.iss.core s.rk s.iss.base true else s
  if inMask pred 7 then s.modDev fun d => d.finishMoves s.iss.core s.rk s.iss.base false else s
/-- The operations that the convoy itself has left waiting, or has forked, performed for a fence of a hart (R305, R312). -/
def fenceOwn (pred : BitVec 8) (k : Nat) (s : State) : HRes :=
  let c := s.iss.core
  let s := fenceRows pred k s
  if s.dev.rowsLeft c k pred then .hold (.rows k)
  else
    let s := fenceMoves pred s
    if (inMask pred 6 && s.dev.moving c s.rk s.iss.base true) || (inMask pred 7 && s.dev.moving c s.rk s.iss.base false) then
      .hold (.fence [])
    else if (inMask pred 4 || inMask pred 5) && s.dev.forked c s.rk k then
      match s.dev.finishForks c s.rk k with
      | .ok d => .ok { s with dev := d }
      | .fail f => .fail f
      | .wait w => .hold w
    else .ok s
/-- A fence of one hart (R312). -/
def fenceOn (pred : BitVec 8) (k : Nat) (s : State) : HRes :=
  match fenceWait pred k s with
  | some w => .hold w
  | none => fenceOwn pred k s
/-- FENCE (R312); with an empty mask it orders nothing. -/
def execFence (h : Hdr) (_ : Scope) (pred succ : BitVec 8) (s : State) : Out :=
  wordOp h {} (fun run s => if pred = 0 || succ = 0 then s else perHart (fenceOn pred) run s) s
/-- IFENCE (R314): as a FENCE with `sw` and `ew`, and the loop-buffer captures of the context are discarded. -/
def execIfence (h : Hdr) (s : State) : Out :=
  wordOp h {} (fun run s =>
    if run.isEmpty then s
    else
      let s := perHart (fenceOn 0x22) run s
      s.modDev fun d => d.modCore s.iss.core fun c => { c with loops := c.loops.filter fun l => l.res != s.rk }) s

end Sys2Proof.Machine
end

