-- ==== Sys2Proof/Machine/System.lean ====
section
/-! DEFINITION. The system words and the control registers (R10, R11, R369 to R388). -/

namespace Sys2Proof.Machine

/-! ### Control registers (R380, R381, R383) -/

/-- The CSR number (R380). -/
def csrNumber : Csr → Nat
  | .vl => 0x000 | .vt => 0x001 | .rc => 0x002 | .ei => 0x003 | .tm => 0x004 | .tn => 0x005 | .gm => 0x006 | .hid => 0x007
  | .ctx => 0x008 | .pri => 0x009 | .fb => 0x00A | .sb => 0x00B | .cb => 0x00C | .schk => 0x00D | .fpc => 0x00E
  | .fps => 0x00F | .wdt => 0x010 | .tvec => 0x011 | .tcause => 0x012 | .tpc => 0x013 | .tval => 0x014 | .refm => 0x015
  | .tscr => 0x016
/-- The bits of the RW fields of a register; the others are RO, RIG or RZF. -/
def csrRw : Csr → Word
  | .rc => 0xFFFFFFFF
  | .ei => 0x7FFFFFFFFF
  | .tm => 0x3FF007F
  | .tn => 0x3FF
  | .schk => 1
  | .fpc => 0xFFFFFFFF000001FF
  | .fps => 0x7F
  | .wdt => 0xFFFFFFFF
  | .tcause => 0xFFFF03FF
  | .refm => 0xF
  | .tvec | .tpc | .tval | .tscr => BitVec.allOnes 64
  | .vl | .vt | .gm | .hid | .ctx | .pri | .fb | .sb | .cb => 0
/-- The bits of the RZF fields of a register (R11). -/
def csrRzf : Csr → Word
  | .vt => 0xFFFFFFFFFFFF0000
  | .rc => 0xFFFFFFFF00000000
  | .tm => 0xFFFFFFFFFC00FF80
  | .tn => 0xFFFFFFFFFFFFFC00
  | .schk => 0xFFFFFFFFFFFFFFFE
  | .fpc => 0x00000000FFFFFE00
  | .tcause => 0xFFFFFFFF0000F800
  | .refm => 0xFFFFFFFFFFFFFFE0
  | _ => 0
/-- A register that the harts of a context share on a core (R380). -/
def csrShared : Csr → Bool
  | .wdt | .tvec => true
  | _ => false
/-- DLP of REFM: some group of a bank is at debt 8 in program mode (R141). -/
def Device.dlpAny (d : Device) (c b : Nat) : Bool := (d.bank c b).groups.toList.any fun g => g.dlp.isSome
/-- A field of the residence of the convoy, or zero. -/
def State.resField (s : State) (f : Residence → Nat) : Word :=
  match s.res? with
  | some r => BitVec.ofNat 64 (f r)
  | none => 0
/-- What a control register reads on a hart (R10, R380). -/
def csrVal (s : State) (k : Nat) (r : Csr) : Word :=
  let t := s.hart k
  match r with
  | .vl => t.vl.zeroExtend 64
  | .vt => t.vt.zeroExtend 64
  | .rc => t.rc
  | .ei => t.ei
  | .tm => t.tm
  | .tn => t.tn
  | .gm => s.gang.gm.zeroExtend 64
  | .hid => hidOf s k
  | .ctx => s.resField fun r => r.ctx.toNat + s.iss.slot.val * 2 ^ 12
  | .pri => s.resField fun r => r.cls.val
  | .fb => s.resField Residence.fb
  | .sb => s.resField Residence.sb
  | .cb => s.resField Residence.cb
  | .schk => t.schk
  | .fpc => t.fpc
  | .fps => t.fps
  | .wdt => s.resField fun r => r.wdt.toNat
  | .tvec => s.resField fun r => r.tvec.toNat
  | .tcause => t.tcause
  | .tpc => t.tpc
  | .tval => t.tval
  | .refm => (t.refm &&& 0xF) ||| (if s.dev.dlpAny s.iss.core k then 0x10 else 0)
  | .tscr => t.tscr
/-- A control register set to a value that has passed its checks (R383). -/
def putCsr (r : Csr) (v : Word) (k : Nat) (s : State) : State :=
  match r with
  | .rc => s.modHart k fun t => { t with rc := v }
  | .ei => s.modHart k fun t => { t with ei := v }
  | .tm => s.modHart k fun t => { t with tm := v }
  | .tn => s.modHart k fun t => { t with tn := v }
  | .schk => s.modHart k fun t => { t with schk := v }
  | .fpc => s.modHart k fun t => { t with fpc := v }
  | .fps => s.modHart k fun t => { t with fps := v }
  | .wdt => s.modDev fun d => d.modRes s.rk fun x => x.setWdt v
  | .tvec => s.modDev fun d => d.modRes s.rk fun x => { x with tvec := v }
  | .tcause => s.modHart k fun t => { t with tcause := v }
  | .tpc => s.modHart k fun t => { t with tpc := v }
  | .tval => s.modHart k fun t => { t with tval := v }
  | .refm => s.modHart k fun t => { t with refm := v }
  | .tscr => s.modHart k fun t => { t with tscr := v }
  | .vl | .vt | .gm | .hid | .ctx | .pri | .fb | .sb | .cb => s
/-- The launch record locks a register (R378, R383). -/
def csrLocked (s : State) (r : Csr) : Bool :=
  match s.res? with
  | some x => (r == .wdt && x.lwdt) || (r == .tvec && x.ltvec)
  | none => false
/-- A rounding mode that FPC refuses (R157). -/
def rmReserved (r : Csr) (v : Word) : Bool := r == .fpc && 5 ≤ v.toNat % 8
/-- A write of a control register on one hart (R11, R157, R383). -/
def csrWrite (r : Csr) (new : Word) (k : Nat) (s : State) : HRes :=
  if new &&& csrRzf r ≠ 0 || rmReserved r new then .fail { cause := 0x01, tval := s.iss.addr }
  else if csrLocked s r then .fail (failAt 0x18 (csrNumber r))
  else .ok (putCsr r ((csrVal s k r &&& ~~~ csrRw r) ||| (new &&& csrRw r)) k s)
/-- A CSR write, by the value it makes of the old one and its operand (R383). -/
def csrWord (h : Hdr) (r : Csr) (a : Src) (f : Word → Word → Word) (s : State) : Out :=
  wordOp h { rd := srcRegs a, old := csrShared r } (perHart fun k s => csrWrite r (f (csrVal s k r) (s.src k a)) k s) s
/-- CSRR (R383). -/
def execCsrr (h : Hdr) (d : XReg) (csr : Csr) (s : State) : Out :=
  regWord h (.x d) (some 2) [] (fun s k => csrVal s k csr) s
/-- CSRW (R383). -/
def execCsrw (h : Hdr) (csr : Csr) (a : Src) (s : State) : Out := csrWord h csr a (fun _ v => v) s
/-- CSRS (R383). -/
def execCsrs (h : Hdr) (csr : Csr) (a : Src) (s : State) : Out := csrWord h csr a (fun o v => o ||| v) s
/-- CSRC (R383). -/
def execCsrc (h : Hdr) (csr : Csr) (a : Src) (s : State) : Out := csrWord h csr a (fun o v => o &&& ~~~ v) s

/-! ### TRAP, BKPT, ERET and HALT (R384 to R386) -/

/-- A software trap made pending on a hart, behind those that wait there already (R373, R384, R406). -/
def softTrap (cause : Nat) (tval : Word) (sw : Bool) (k : Nat) (s : State) : State :=
  s.modHart k fun t => { t with swTraps := t.swTraps ++ [{ cause := cause, tval := tval, tpc := nextWord s.iss.addr, sw := sw }] }
/-- TRAP (R384). -/
def execTrap (h : Hdr) (code : BitVec 8) (a : Src) (s : State) : Out :=
  wordOp h { rd := srcRegs a, old := true } (perHart fun k s => .ok (softTrap code.toNat (s.src k a) true k s)) s
/-- Debugging is armed for the context of the convoy (R377). -/
def State.armed (s : State) : Bool := s.dev.regs.armed.contains s.ctx.toNat
/-- A handler runs on an active hart of the convoy's gang (R374). -/
def State.handled (s : State) : Bool := (banksOf s.gang.gm).any fun k => (s.hart k).hm
/-- BKPT: a software trap, or a debugger stop when debugging is armed and no handler runs, in which it kills (R377, R384). -/
def execBkpt (h : Hdr) (a : BitVec 18) (s : State) : Out :=
  wordOp h { old := true } (fun run s =>
    if run.isEmpty then s
    else if s.armed && !s.handled then s.modDev fun d => d.modRes s.rk fun r => { r with stopReq := true }
    else perHart (fun k s => .ok (softTrap 0x17 (a.signExtend 64) true k s)) run s) s
/-- ERET (R385): every result in flight lands with it, for the first convoy after it sees them all (R70). -/
def execEret (h : Hdr) (s : State) : Out :=
  wordOp h {} (wholeGang fun run s =>
    let idle := run.filter fun k => !(s.hart k).hm
    if !idle.isEmpty then idle.foldl (fun s k => s.addFail k { cause := 0x18, tval := s.iss.addr }) s
    else match run with
      | [] => s
      | k :: l =>
        let t := s.hart k
        if l.any fun q => (s.hart q).tpc != t.tpc then s.disagree
        else
          let s := s.jump t.tpc
          let s := { s with iss := { s.iss with lands := true } }
          if s.iss.fails.isEmpty then s.modDev fun d => d.trapReturn s.rk s.iss.base t.shGm t.shDepth else s) s
/-- HALT (R386). -/
def execHalt (h : Hdr) (a : Src) (s : State) : Out :=
  wordOp h { rd := srcRegs a, old := true } (wholeGang fun run s =>
    match run with
    | [] => s
    | k :: _ =>
      match run.find? s.unfinished with
      | some b => s.holdOn (.finish b)
      | none => s.modDev fun d => d.killBy s.rk k 0 s.iss.addr (s.src k a)) s

/-! ### WDOG and CTXQ (R387, R388) -/

/-- The registers that WDOG reads. -/
def wdogRegs : Option Src → List Reg
  | some a => srcRegs a
  | none => []
/-- WDOG on one hart (R387). -/
def wdogOn (d : XReg) (set : Option Src) (k : Nat) (s : State) : HRes :=
  if set.isSome && csrLocked s .wdt then .fail (failAt 0x18 (csrNumber .wdt))
  else
    let left := s.resField Residence.wdCount
    let s' := s.modDev fun dv => dv.modRes s.rk fun r =>
      match set with
      | some a => r.setWdt ((s.src k a) &&& 0xFFFFFFFF)
      | none => r.setWdt r.wdt
    .ok (writeReg k (.x d) left none s')
/-- WDOG (R387). -/
def execWdog (h : Hdr) (d : XReg) (set : Option Src) (s : State) : Out :=
  wordOp h { rd := wdogRegs set, wr := [.x d], old := true } (perHart (wdogOn d set)) s
/-- What CTXQ reads (R388). -/
def ctxqRes (s : State) : CtxqSel → Word
  | .id => s.resField fun r => r.ctx.toNat
  | .slot => BitVec.ofNat 64 s.iss.slot.val
  | .class => s.resField fun r => r.cls.val
  | .nres => BitVec.ofNat 64 (s.dev.resOfCore s.iss.core).length
  | .time => s.resField Residence.issued
  | .moves => s.resField fun r => match s.dev.launch? r.seq with
    | some l => l.places.foldl (fun n p => n + p.moves) 0
    | none => 0
/-- CTXQ (R388). -/
def execCtxq (h : Hdr) (sel : CtxqSel) (d : XReg) (s : State) : Out :=
  regWord h (.x d) none [] (fun s _ => ctxqRes s sel) s

end Sys2Proof.Machine
end

