-- ==== Sys2Proof/Machine/Launch.lean ====
section
/-! DEFINITION. Launch records, the launch table, the host queues, the journal, the end of placements and launches, fault
resolutions, the table query and the launch words (R285, R389 to R396, R401 to R407, R410 to R413, R428). -/

namespace Sys2Proof.Machine

/-! ### The launch record (R389 to R391) -/

/-- The fields of the 128 bytes of a record. -/
def LaunchRec.ofNat (v : Nat) : LaunchRec where
  entry := BitVec.ofNat 64 (fld v 0 0 64)
  gl := fld v 8 0 3
  cls := ⟨fld v 8 3 2 % 4, Nat.mod_lt _ (by decide)⟩
  ctx := BitVec.ofNat 12 (fld v 8 8 12)
  twl := fld v 8 20 4
  aclm := fld v 8 24 6
  aint := fld v 8 30 6
  lwdt := nbit (fld v 8 0 64) 36
  ltvec := nbit (fld v 8 0 64) 37
  hfl := nbit (fld v 8 0 64) 38
  move := nbit (fld v 8 0 64) 39
  hmask := BitVec.ofNat 16 (fld v 8 48 16)
  coreset := BitVec.ofNat 64 (fld v 0x10 0 64)
  abase := fld v 0x18 0 9
  acount := fld v 0x18 16 9
  sb := if fld v 0x18 32 21 = 0 then 0x84000 else fld v 0x18 32 21
  cb := if fld v 0x20 0 21 = 0 then 0x144000 else fld v 0x20 0 21
  wdtp := fld v 0x20 32 32
  tvec := BitVec.ofNat 64 (fld v 0x28 0 64)
  save := BitVec.ofNat 64 (fld v 0x30 0 64)
  dep := fld v 0x38 0 32
  stream := fld v 0x38 32 16
  compl := BitVec.ofNat 64 (fld v 0x40 0 64)
  wait0 := BitVec.ofNat 64 (fld v 0x48 0 64)
  wait1 := BitVec.ofNat 64 (fld v 0x50 0 64)
  args := [BitVec.ofNat 64 (fld v 0x58 0 64), BitVec.ofNat 64 (fld v 0x60 0 64), BitVec.ofNat 64 (fld v 0x68 0 64)]
  wset := BitVec.ofNat 64 (fld v 0x70 0 64)
/-- The step from one save area to the next (R390). -/
def saveStep : Nat := 0x480000
/-- The offset of FB in every context (R242). -/
def frameBytes : Nat := 0x4000
/-- A nonzero RZF bit of a record (R389). -/
def recStray (v : Nat) : Bool :=
  fld v 8 5 3 != 0 || fld v 8 40 8 != 0 || fld v 0x18 9 7 != 0 || fld v 0x18 25 7 != 0 || fld v 0x18 53 11 != 0
    || fld v 0x20 21 11 != 0 || fld v 0x38 48 16 != 0 || fld v 0x78 0 64 != 0
/-- The banks of HMASK make whole gangs (R391). -/
def gangsWhole (r : LaunchRec) : Bool :=
  r.hmask != 0 && (List.range (16 / 2 ^ r.gl)).all fun k =>
    let m := gangMask (k * 2 ^ r.gl) (2 ^ r.gl)
    r.hmask &&& m == 0 || r.hmask &&& m == m
/-- The checks of a record before its lists are read: a status, or 0 (R391). -/
def recEarly (v : Nat) : Nat :=
  let r := LaunchRec.ofNat v
  if recStray v || 4 < r.gl || (r.aint &&& r.aclm) != r.aint then 1
  else if !gangsWhole r then 2
  else if r.coreset.toNat % 64 ≠ 0 || r.wset.toNat % 16 ≠ 0 then 3
  else 0
/-- The cores of a core set as a number of 2048 bits (R390). -/
def coresOf (v : Nat) : List Nat := (List.range 2048).filter (nbit v)
/-- The boundaries of a record break R242 (R391). -/
def poolBad (r : LaunchRec) : Bool :=
  r.sb % 4096 != 0 || r.cb % 4096 != 0 || r.sb < frameBytes || r.cb < r.sb || 0x170000 < r.cb || 0x140000 < r.cb - r.sb
/-- The save areas of a record are misplaced (R391, R419). -/
def saveBad (d : Device) (r : LaunchRec) (n : Nat) : Bool :=
  !d.regs.rsvc && (r.save.toNat % 2 ^ 19 != 0 || r.save.toNat / 2 ^ 39 % 2 ^ 21 != d.fabric.dev
    || (List.range n).any fun k => 507 < (r.save.toNat + k * saveStep) / 2 ^ 19 % 512 + 8)
/-- A WAIT entry: its stream and its sequence number. -/
def waitOf (w : Word) : Nat × Nat := (w.toNat % 2 ^ 16, w.toNat / 2 ^ 16)
/-- The WAIT entries of a record. -/
def LaunchRec.waits (r : LaunchRec) : List (Nat × Nat) := ([r.wait0, r.wait1].filter (· != 0)).map waitOf
/-- The checks of a record after its lists are read: a status, or 0 (R391). -/
def recLate (d : Device) (r : LaunchRec) (n : Nat) : Nat :=
  if r.acount = 0 || 508 < r.abase + r.acount then 4
  else if poolBad r then 5
  else if saveBad d r n then 6
  else if !codeOk r.entry.toNat || r.compl.toNat % 8 ≠ 0 || 2 ^ 56 ≤ r.compl.toNat then 7
  else if r.waits.any fun w => d.nextSeq ≤ w.2 then 8
  else if Config.launchEntries ≤ d.launches.length then 9
  else 0

/-- Why a list was not read: it is unreadable, or an access stopped the reader. -/
inductive ListFail where
  | unreadable
  | stop (a : AccR)
/-- The lists of a record as read: the core set, and the write set. -/
abbrev ListR := Except ListFail (List Nat × List (Nat × Nat))
/-- The lists of a record, by a reader of bytes at an address (R390, R391). -/
def readLists (read : Nat → Nat → Device → Device × Except ListFail Nat) (r : LaunchRec) (d : Device) : Device × ListR :=
  let c := read r.coreset.toNat 256 d
  match c.2 with
  | .error e => (c.1, .error e)
  | .ok v =>
    if coresOf v = [] then (c.1, .error .unreadable)
    else if r.wset = 0 then (c.1, .ok (coresOf v, []))
    else
      let h := read r.wset.toNat 16 c.1
      match h.2 with
      | .error e => (h.1, .error e)
      | .ok w =>
        let n := w % 2 ^ 64
        if n = 0 || 64 < n || w / 2 ^ 64 ≠ 0 then (h.1, .error .unreadable)
        else
          let b := read (r.wset.toNat + 16) (16 * n) h.1
          match b.2 with
          | .error e => (b.1, .error e)
          | .ok x => (b.1, .ok (coresOf v, (List.range n).map fun i => (getBytes x (16 * i) 8, getBytes x (16 * i + 8) 8)))

namespace Device

/-- The lines of a byte range: the address and the length of the part in each. -/
def chunks (a n : Nat) : List (Nat × Nat) :=
  (List.range ((a + n + 63) / 64 - a / 64)).map fun k =>
    let lo := max a (64 * (a / 64 + k))
    (lo, min (a + n) (64 * (a / 64 + k) + 64) - lo)
/-- Bytes of a list of a host record, under the translation of its context identifier (R391). -/
def hostList (ctx : BitVec 12) (a n : Nat) (d : Device) : Device × Except ListFail Nat :=
  (chunks a n).foldl (fun (x : Device × Except ListFail Nat) (c : Nat × Nat) =>
    match x.2 with
    | .error _ => x
    | .ok v =>
      if 2 ^ 56 ≤ c.1 then (x.1, .error .unreadable)
      else
        let t := x.1.walked ctx c.1
        match t.2 with
        | .fault _ => (t.1, .error .unreadable)
        | .ok l =>
          if l.isHost || !l.r then (t.1, .error .unreadable)
          else
            let y := t.1.colRead (t.1.stor (t.1.leafPa l (c.1 % 2 ^ l.log))) c.2
            if y.2.2 then (y.1, .error .unreadable) else (y.1, .ok (v + y.2.1 * 2 ^ (8 * (c.1 - a))))) (d, .ok 0)
/-- Bytes as LD reads them on a hart of a residence (R262, R405). -/
def ldList (core rk : Nat) (r : Residence) (a n : Nat) (d : Device) : Device × Except ListFail Nat :=
  (chunks a n).foldl (fun (x : Device × Except ListFail Nat) (c : Nat × Nat) =>
    match x.2 with
    | .error _ => x
    | .ok v =>
      let va := c.1 % 2 ^ 64
      let y := x.1.checkAt core r { frames := true } .read va
      match y.2 with
      | .ok p =>
        let z := y.1.readAt core rk p c.2
        if z.2.2 then (z.1, .error (.stop (.fail (poisonAt va)))) else (z.1, .ok (v + z.2.1 * 2 ^ (8 * (c.1 - a))))
      | f => (y.1, .error (.stop f))) (d, .ok 0)

/-! ### The journal (R403) -/

/-- The 32 bytes of a journal entry. -/
def journalBytes (seq kind source status ctx bank core : Nat) (err cwf : Bool) (f16 f24 : Nat) : Nat :=
  seq + (kind + source * 2 ^ 4 + status % 2 ^ 8 * 2 ^ 8 + ctx * 2 ^ 16 + bank * 2 ^ 28 + core * 2 ^ 32
    + err.toNat * 2 ^ 43 + cwf.toNat * 2 ^ 44) * 2 ^ 64 + f16 % 2 ^ 64 * 2 ^ 128 + f24 % 2 ^ 64 * 2 ^ 192

/-! ### Acceptance (R391, R392, R394) -/

/-- A record refused: its journal entry (R391, R403). -/
def refuse (d : Device) (r : LaunchRec) (status source parent addr : Nat) : Device :=
  d.journalWrite (journalBytes 0 2 source status r.ctx.toNat 0 0 false false addr parent)
/-- A record accepted: its table entry, its sequence number and its journal entry (R392, R394, R403). -/
def acceptLaunch (d : Device) (r : LaunchRec) (cores : List Nat) (wset : List (Nat × Nat)) (source parent addr : Nat) :
    Device :=
  let l : Launch := { seq := d.nextSeq, record := r, cores := cores, wset := wset, counter := r.dep
                      state := if r.dep = 0 then .waits else .dep, source := source, parent := parent
                      recAddr := BitVec.ofNat 64 addr, places := [] }
  { d with launches := d.launches ++ [l], nextSeq := d.nextSeq + 1 }.journalWrite
    (journalBytes l.seq 1 source 0 r.ctx.toNat 0 0 false false addr parent)
/-- The status of a record whose early checks pass, from its lists. -/
def lateStatus (d : Device) (r : LaunchRec) (l : ListR) : Nat :=
  match l with
  | .error _ => 3
  | .ok p => recLate d r p.1.length

/-! ### Host queues (R395, R396) -/

/-- The round of 16 ck in which the device takes queue entries (R396). -/
def round (d : Device) : Nat := d.now / 16
/-- A queue has an entry to take, its turn in the round has not passed, and the journal has room for its entry (R396, R411). -/
def queueReady (d : Device) (c : Fin 4) : Bool :=
  let q := d.queues[c.val]
  q.log != 0 && !q.empty && !d.journal.full && (d.served.1 != d.round || d.served.2 ≤ c.val)
/-- HEAD of a queue advanced. -/
def advance (d : Device) (c : Fin 4) : Device :=
  let q := d.queues[c.val]
  { d with queues := d.queues.set c.val { q with head := (q.head + 1) % 2 ^ q.log } }
/-- One entry of a queue taken: accepted, refused, or held while the table is full (R391, R396). -/
def consume (d : Device) (c : Fin 4) : Device :=
  let q := d.queues[c.val]
  let addr := q.entry 128 q.head
  let hold := d
  let d := { d.physTouch addr 128 with served := (d.round, c.val + 1) }
  let v := d.physRead addr 128
  let r := LaunchRec.ofNat v
  if recEarly v ≠ 0 then (d.refuse r (recEarly v) c.val 0 addr).advance c
  else
    let l := readLists (hostList r.ctx) r d
    match l.1.lateStatus r l.2, l.2 with
    | 0, .ok p => (l.1.acceptLaunch r p.1 p.2 c.val 0 addr).advance c
    | 9, _ => hold
    | st, _ => (l.1.refuse r st c.val 0 addr).advance c
/-- Taking the entry at the head of a queue would do something. -/
def canConsume (d : Device) (c : Fin 4) : Bool := d.queueReady c && d.consume c != d
/-- A queue is served now: it has an entry to take, and no queue of a lower class number that is still to be served in the round has
one (R396). -/
def queueTurn (d : Device) (c : Fin 4) : Bool := d.canConsume c && (List.finRange 4).all fun e => c ≤ e || !d.canConsume e

/-! ### The state of a launch (R392) -/

/-- Every gang of a residence has ended. -/
def allEnded (d : Device) (rk : Nat) : Bool := (d.gangsOf rk).all fun p => p.2.ended
/-- Every gang of a placement has ended (R392). -/
def placeOver (d : Device) (p : Placement) : Bool :=
  match p.state with
  | .ended => true
  | .resident c s => d.allEnded (resKey c s)
  | .saved => p.gangs.all fun q => q.2.ended
  | .waiting => false
/-- The state of a launch: ENDED from the cycle in which the last gang of it ends or a kill stops it, whether or not the writes of
its end have been made (R392). -/
def stateOf (d : Device) (l : Launch) : LaunchState :=
  if (l.state == .running || l.killed.isSome) && l.places.all d.placeOver then .ended else l.state

/-! ### Waits and the release flush (R393, R396, R402) -/

/-- A WAIT entry is met: the completion writes of the launches that it names have been made (R393, R401). -/
def waitMet (d : Device) (w : Nat × Nat) : Bool :=
  d.launches.all fun l => !(l.record.stream == w.1 && l.seq ≤ w.2) || l.state == .ended
/-- A launch in WAITS whose waits are met and whose identifier no other launch holds (R396). -/
def mayLeave (d : Device) (l : Launch) : Bool :=
  l.state == .waits && l.record.waits.all d.waitMet
    && d.launches.all fun o => o.seq == l.seq || o.record.ctx != l.record.ctx
      || !(d.stateOf o == .ready || d.stateOf o == .running)
/-- A launch leaves WAITS next: it may, and none of its identifier with a lower sequence number may (R396). -/
def leavesNext (d : Device) (l : Launch) : Bool :=
  d.mayLeave l && d.launches.all fun o => !(o.record.ctx == l.record.ctx && o.seq < l.seq && d.mayLeave o)
/-- The stands of a list of cores (R402). -/
def standsOf (cores : List Nat) : List Nat := (cores.map (· / 128)).dedup
/-- CINV.all of a core (R268). -/
def invalidateAll (d : Device) (c : Nat) : Device := d.cleanAll c true (d.coveredLines c)
/-- The release flush of a launch: CINV.all on some cores, those of its set and those on which it has run (R253, R402). -/
def releaseFlush (d : Device) (cores : List Nat) : Device := cores.foldl invalidateAll d
/-- The proxy copies of some stands written home and dropped (R402). -/
def dropProxies (d : Device) (stands : List Nat) : Device :=
  (d.proxies.filter fun p => stands.contains p.stand && !atHome p.line p.stand).foldl
    (fun d p => d.flushProxy p.stand p.line) d
/-- The flushes that are still to be made: those that are deferred, and those of launches in ENDED whose end has not come to its
flush (R401, R402). -/
def unflushed (d : Device) : List Deferred :=
  d.deferred ++ (d.launches.filter fun l => l.state != .ended && d.stateOf l == .ended && !l.flushed).map fun l =>
    { seq := l.seq, stream := l.record.stream, cores := l.cores, ran := l.ran }
/-- The flushes that a launch needs before it leaves WAITS (R402). -/
def flushFor (d : Device) (l : Launch) : Device :=
  let mine := standsOf l.cores
  let due := d.unflushed.filter fun p =>
    (l.record.waits.any fun w => p.stream == w.1 && p.seq ≤ w.2) && !(mine.length == 1 && standsOf p.cores == mine)
  if due.isEmpty then d
  else
    let d := due.foldl (fun d p => (d.releaseFlush (p.cores ++ p.ran)).modLaunch p.seq fun l => { l with flushed := true }) d
    { d.dropProxies mine with deferred := d.deferred.filter fun p => !due.contains p }

/-! ### The end of a placement (R354, R428) -/

/-- Operations that a residence forked have not completed (R401, R428). -/
def workLeft (d : Device) (rk : Nat) : Bool :=
  let c := d.core (resCore rk)
  (c.slots.toList.any fun o => match o with
    | some k => k.res == rk
    | none => false)
  || (match d.res? rk with
      | some r => !r.saved.isEmpty
      | none => false)
  || c.xfers.any (fun x => x.res == rk) || c.mx.any (fun e => e.res == rk) || d.portQ.any fun q => q.res == rk
/-- What a residence holds on its core given back: its accumulator slots, its captures, its Sifter, its slot and its harts. -/
def freeRes (d : Device) (rk : Nat) : Device :=
  let c := resCore rk
  let slot := resSlot rk
  let d := d.siftFinish c rk
  let d := d.modCore c fun x =>
    { x with
      acc := x.acc.map fun a => match a.bound with
        | some p => if p.1 = rk then {} else a
        | none => a
      halves := x.halves.map fun h => match h.owner with
        | some p => if p.1 = rk then {} else h
        | none => h
      loops := x.loops.filter fun l => l.res != rk
      mx := x.mx.filter fun e => e.res != rk
      switch := match x.switch with
        | some q => if x.issuing = some slot ∨ q.dest = some slot then none else some q
        | none => none
      issuing := if x.issuing = some slot then none else x.issuing }
  { (d.dropHarts rk) with ress := eraseK rk d.ress }
/-- A placement of a launch changed. -/
def modPlace (d : Device) (seq k : Nat) (f : Placement → Placement) : Device :=
  d.modLaunch seq fun l => { l with places := l.places.map fun p => if p.k = k then f p else p }
/-- A placement of a launch. -/
def place? (d : Device) (seq k : Nat) : Option Placement :=
  (d.launch? seq).bind fun l => l.places.find? fun p => p.k == k
/-- A launch has been killed (R376). -/
def killed (d : Device) (seq : Nat) : Bool :=
  match d.launch? seq with
  | some l => l.killed.isSome
  | none => false
/-- Every gang of a launch has ended. -/
def launchEnded (d : Device) (seq : Nat) : Bool :=
  match d.launch? seq with
  | some l => d.stateOf l == .ended
  | none => false
/-- A placement ends now: its residence key. One that a kill has stopped ends at once (R400); any other once its gangs and its
engine operations have ended (R428), and in reduced service once its launch has none that goes on, so that no other takes its
core before (R419). -/
def placeEnds (d : Device) (seq k : Nat) : Option Nat :=
  match d.place? seq k with
  | some p => match p.state with
    | .resident c s =>
      let rk := resKey c s
      if d.killed seq || (d.allEnded rk && !d.workLeft rk && (!d.regs.rsvc || d.launchEnded seq)) then some rk else none
    | _ => none
  | none => none
/-- What a placement leaves under way is performed: its accumulator transfers, and its reductions (R376, R401). -/
def settleRes (d : Device) (rk : Nat) : Device :=
  let c := resCore rk
  let d := ((d.core c).xfers.filter fun x => x.res == rk).foldl (fun d x => d.xferEnd c x) d
  (List.range 16).foldl (fun d b => d.drainReds rk b 0) d

/-! ### The end of a launch (R401, R403) -/

/-- Every placement has ended. -/
def placesOver (l : Launch) : Bool := l.places.all fun p => p.state == .ended
/-- A launch whose placements have all ended, and that steps 1 to 3 of R401 have not yet handled. -/
def launchOver (l : Launch) : Bool := (l.state == .running || l.killed.isSome) && l.state != .ended && placesOver l
/-- The completion word as R401 writes it. -/
def complWord (l : Launch) : Nat := l.seq + if l.err || l.killed.isSome then 2 ^ 63 else 0
/-- The completion write: made, failed, or waiting for the host's answer (R401). -/
def complWrite (d : Device) (l : Launch) : Device × Option Bool :=
  let va := l.record.compl.toNat
  let core := l.cores.headD 0
  if va = 0 then (d, some false)
  else
    let t := d.globalAt core l.record.ctx .write va
    match t.2 with
    | .ok (.mem st) => (t.1.colWrite st 8 (complWord l), some false)
    | .ok (.host a) => ({ t.1 with host := t.1.host.write a 8 (complWord l) }, some false)
    | .ok (.pool _) | .fail _ => (t.1, some true)
    | .wait w =>
      match w with
      | .ats ctx va =>
        let q : AtsReq := { core := core, ctx := ctx, va := va / 2 ^ 16 * 2 ^ 16 }
        (if t.1.ats.contains q then t.1 else { t.1 with ats := t.1.ats ++ [q] }, none)
      | _ => (t.1, none)
/-- Steps 2 and 3 of R401. -/
def endWrites (d : Device) (l : Launch) : Device :=
  let w := d.complWrite l
  match w.2 with
  | none => w.1
  | some cwf =>
    let d := if l.flushed then d
      else if l.record.hfl then d.releaseFlush (l.cores ++ l.ran)
      else { d with deferred := d.deferred ++ [{ seq := l.seq, stream := l.record.stream, cores := l.cores, ran := l.ran }] }
    let w := d.complWrite l
    w.1.modLaunch l.seq fun x => { x with state := .ended, cwf := cwf }
/-- The end entry of a launch (R403). -/
def endEntry (l : Launch) : Nat :=
  match l.killed with
  | some k => journalBytes l.seq 4 l.source k.cause l.record.ctx.toNat k.bank k.core l.err l.cwf k.tpc.toNat k.tval.toNat
  | none => journalBytes l.seq 3 l.source 0 l.record.ctx.toNat 0 0 l.err l.cwf l.recAddr.toNat l.parent
/-- Steps 4 and 5 of R401, once the journal has room. -/
def endFree (d : Device) (l : Launch) : Device :=
  { d.journalWrite (endEntry l) with launches := d.launches.filter fun o => o.seq != l.seq }
/-- What the end of a launch does next. -/
def launchEnds (d : Device) (l : Launch) : Device :=
  if launchOver l then d.endWrites l
  else if l.state == .ended && !d.journal.full then d.endFree l
  else d

/-! ### Resolutions (R283, R285, R327, R412) -/

/-- An unanswered record in the fault log with a sequence number. -/
def faultOf (d : Device) (seq : Nat) : Option FaultRec := d.faults.find? fun f => f.seq == seq && f.written
/-- The residence of a record's launch on the record's core and slot, if it is still there. -/
def faultRes (d : Device) (f : FaultRec) : Option Nat :=
  let rk := resKey f.core f.slot
  match d.res? rk with
  | some r => if r.seq = f.launch then some rk else none
  | none => none
/-- A context stops waiting for the host when none of its gangs has a fault, and no hart waits on a command that has one (R283,
R285). -/
def settleFaults (d : Device) (rk : Nat) : Device :=
  if d.cmdStops rk || (d.gangsOf rk).any fun p => !p.2.faults.isEmpty then d
  else d.modRes rk fun r => if r.state = .faultWaiting then { r with state := .resident } else r
/-- The failed checks of a delivered convoy: the delivered records, and the other causes that its harts met (R283, R371). -/
def deliverFails (g : Gang) : List (Nat × Fail) :=
  ((g.faults.filter fun t => t.resolved == some 1).map fun t =>
    (t.bank, { cause := 0x0C, tval := t.va, detail := t.detail + t.access * 16 }))
  ++ g.faultFails.filter fun p => p.2.cause != 0x0C
/-- A gang acts once every record of its convoy is answered (R283). -/
def gangAnswered (d : Device) (rk base : Nat) : Device :=
  match d.gang? rk base with
  | none => d
  | some g =>
    if g.faults.isEmpty || g.faults.any fun t => t.resolved.isNone then d
    else
      let cleared := (d.setGang rk base { g with faults := [], faultFails := [] }).settleFaults rk
      match g.faults.find? fun t => t.resolved == some 2 with
      | some t => cleared.killBy rk t.bank 0x0C t.tpc t.va
      | none => match g.faults.find? fun t => t.resolved == some 1 with
        | some t => cleared.takeTrap rk base t.tpc (deliverFails g)
        | none => cleared
/-- The record of a hart answered with an action. -/
def answerHart (d : Device) (f : FaultRec) (act : Nat) : Device :=
  match d.faultRes f with
  | none => d
  | some rk =>
    (d.modGang rk f.base fun g =>
      { g with faults := g.faults.map fun t => if t.seq = f.seq then { t with resolved := some act } else t }).gangAnswered
      rk f.base
/-- The slot of the command that made a fault record last: its core and its number. -/
def faultSlot (d : Device) (seq : Nat) : Option (Nat × Nat × CopySlot) :=
  d.cores.findSome? fun p => p.2.slots.toList.zipIdx.findSome? fun q =>
    q.1.bind fun x => if x.fault = seq then some (p.1, q.2, x) else none
/-- The saved command of a list that made a fault record last, where a switch has saved it (R329). -/
def faultSaved (l : List SavedCmd) (seq : Nat) : Option SavedCmd := l.find? fun x => x.fault == seq
/-- A list of saved commands without the one that made a fault record. -/
def dropSaved (l : List SavedCmd) (seq : Nat) : List SavedCmd := l.filter fun x => x.fault != seq
/-- An engine trap made pending on a hart of a placement that is saved, or the launch killed when the hart has ended (R327). -/
def placeTrap (d : Device) (seq : Nat) (p : Placement) (b : Nat) (t : EngTrap) : Device :=
  if p.gangs.any fun g => g.2.live.getLsbD b then
    d.modLaunch seq fun l => { l with places := l.places.map fun q =>
      if q.k = p.k then { q with harts := q.harts.map fun h =>
        if h.1 = b then (h.1, { h.2 with engTraps := h.2.engTraps ++ [t] }) else h } else q }
  else d.kill seq { cause := t.cause, tpc := 0, tval := t.tval, bank := b, core := p.home }
/-- A faulted command that a switch has saved is dropped by a delivered record, wherever its context is (R327, R329). -/
def deliverSaved (d : Device) (f : FaultRec) (tval : Word) : Device :=
  let t : EngTrap := { cause := 0x10, tval := tval }
  match d.ress.findSome? fun p => (faultSaved p.2.saved f.seq).map fun x => (p.1, x) with
  | some (rk, x) => (d.modRes rk fun r => { r with saved := dropSaved r.saved f.seq }).engTrap rk x.bank t.cause t.tval
  | none => match d.launch? f.launch with
    | none => d
    | some l => match l.places.findSome? fun p => (faultSaved p.saved f.seq).map fun x => (p, x) with
      | none => d
      | some (p, x) =>
        (d.modLaunch l.seq fun l => { l with places := l.places.map fun q =>
          if q.k = p.k then { q with saved := dropSaved q.saved f.seq } else q }).placeTrap l.seq p x.bank t
/-- The record of an engine command answered with an action: a retry runs a FAULTED command again, and a delivery drops the command that
made the record, in its slot or where a switch has saved it (R327, R329). One that ESUSP has removed is no more (log 48). -/
def answerCmd (d : Device) (f : FaultRec) (k act : Nat) : Device :=
  match act with
  | 2 => d.kill f.launch { cause := 0x0C, tpc := BitVec.ofNat 64 (k + 2 ^ 63), tval := f.va, bank := f.bank, core := f.core }
  | 0 => match d.faultSlot f.seq with
    | some (c, i, x) =>
      if x.state = .faulted then d.setSlot c i (some { x with state := .queued, fault := 0, done := x.cmd.resoff }) else d
    | none => d
  | _ => match d.faultSlot f.seq with
    | some (c, i, x) => (d.setSlot c i none).engTrap x.res x.bank 0x10 (BitVec.ofNat 64 k)
    | none => d.deliverSaved f (BitVec.ofNat 64 k)
/-- A context goes on once the host has answered for its command (R285). -/
def settleCmd (d : Device) (f : FaultRec) : Device :=
  match d.faultRes f with
  | some rk => d.settleFaults rk
  | none => d
/-- A write of FRES with an action (R285, R412). -/
def resolve (d : Device) (seq act : Nat) : Device :=
  match d.faultOf seq with
  | none => d.setHwd
  | some f =>
    let d := { d with faults := d.faults.filter fun g => g.seq != seq }
    match f.cmd with
    | some k => (d.answerCmd f k act).settleCmd f
    | none => d.answerHart f act

/-! ### Rings (R395, R410, R411) -/

/-- A ring of the device. -/
def ring (d : Device) : RingId → Ring
  | .queue c => d.queues[c.val]
  | .journal => d.journal
  | .faultLog => d.faultLog
/-- A ring set; fault records that were held up are written. -/
def setRing (d : Device) (i : RingId) (r : Ring) : Device :=
  match i with
  | .queue c => { d with queues := d.queues.set c.val r }
  | .journal => { d with journal := r }
  | .faultLog => { d with faultLog := r }.flushFaults

end Device

/-! ### The launch words (R404 to R407) -/

/-- The state of R392 as a number. -/
def LaunchState.code : LaunchState → Nat
  | .dep => 1 | .waits => 2 | .ready => 3 | .running => 4 | .ended => 5
/-- What DEPQ and TQRES read of a handle (R407, R413). -/
def Device.depWord (d : Device) (seq : Nat) : Nat :=
  match d.launch? seq with
  | some l => l.counter % 2 ^ 32 + (d.stateOf l).code * 2 ^ 32 + l.err.toNat * 2 ^ 35
  | none => 0
/-- LAUNCH once its record is read, on one hart (R405). -/
def launchRec (d : XReg) (addr v : Nat) (r : Residence) (k : Nat) (s : State) : HRes :=
  let rec_ := LaunchRec.ofNat v
  let put (x : Nat) (s : State) : HRes := .ok (writeReg k (.x d) (BitVec.ofNat 64 x) none s)
  let no (s : State) (st : Nat) : HRes := put (2 ^ 63 + st) (s.modDev fun x => x.refuse rec_ st 4 r.seq addr)
  if recEarly v ≠ 0 then no s (recEarly v)
  else
    let l := readLists (Device.ldList s.iss.core s.rk r) rec_ s.dev
    let s := { s with dev := l.1 }
    match l.2 with
    | .error (.stop (.fail f)) => .fail f
    | .error (.stop (.wait w)) => .hold w
    | .error _ => no s 3
    | .ok p =>
      let st := recLate s.dev rec_ p.1.length
      if st ≠ 0 then no s st
      else put s.dev.nextSeq (s.modDev fun x => x.acceptLaunch rec_ p.1 p.2 4 r.seq addr)
/-- LAUNCH on one hart (R405, R411). -/
def launchOn (d base : XReg) (disp : Src) (k : Nat) (s : State) : HRes :=
  let va := memAddr s k base disp
  if va % 128 ≠ 0 then .fail (failAt 0x09 va)
  else match fenceOn 0x0F k s with
    | .ok s => match s.res? with
      | none => .ok s
      | some r =>
        let x := Device.ldList s.iss.core s.rk r va 128 s.dev
        let s := { s with dev := x.1 }
        match x.2 with
        | .error (.stop (.fail f)) => .fail f
        | .error (.stop (.wait w)) => .hold w
        | .error _ => .ok s
        | .ok v => if s.dev.journal.full then .hold .journal else launchRec d va v r k s
    | r => r
/-- LAUNCH (R405). -/
def execLaunch (h : Hdr) (d : XReg) (base : XReg) (disp : Src) (s : State) : Out :=
  wordOp h { rd := .x base :: srcRegs disp, wr := [.x d], old := true } (perHart (launchOn d base disp)) s
/-- A launch whose counter is 0 passes DEP (R394). -/
def passDep (l : Launch) : Launch := if l.state = .dep ∧ l.counter = 0 then { l with state := .waits } else l
/-- DEPDEC on one hart (R406). -/
def depdecOn (d a : XReg) (n : Src) (k : Nat) (s : State) : HRes :=
  let m := (s.src k n).toNat
  let q := (s.hart k).getX a
  if m = 0 || 2 ^ 32 ≤ m then .fail (failAt 0x10 m)
  else match fenceOn 0xFF k s with
    | .ok s => match s.dev.launch? q.toNat with
      | none => .ok (writeReg k (.x d) (BitVec.allOnes 64) none s)
      | some l =>
        if m ≤ l.counter then
          .ok (writeReg k (.x d) (BitVec.ofNat 64 (l.counter - m)) none
            (s.modDev fun x => x.modLaunch l.seq fun l => passDep { l with counter := l.counter - m }))
        else
          .ok (softTrap 0x12 q false k (writeReg k (.x d) 0 none
            (s.modDev fun x => x.modLaunch l.seq fun l => passDep { l with counter := 0, err := true })))
    | r => r
/-- DEPDEC (R406). -/
def execDepdec (h : Hdr) (d : XReg) (a : XReg) (n : Src) (s : State) : Out :=
  wordOp h { rd := .x a :: srcRegs n, wr := [.x d], old := true } (perHart (depdecOn d a n)) s
/-- DEPQ (R407). -/
def execDepq (h : Hdr) (d : XReg) (a : XReg) (s : State) : Out :=
  regWord h (.x d) none [.x a] (fun s k => BitVec.ofNat 64 (s.dev.depWord ((s.hart k).getX a).toNat)) s

/-! ### Events -/

/-- QUEUE_ENTRY_CONSUME: the device takes the entry at the head of a host queue (R396, R411). -/
def execQueueEntryConsume (c : Fin 4) (s : State) : Out :=
  .next (s.modDev fun d => if d.queueTurn c then d.consume c else d)
/-- LAUNCH_LEAVE_WAITS: a launch whose waits are met becomes READY, after any deferred flush (R396, R402). -/
def execLaunchLeaveWaits (seq : Nat) (s : State) : Out :=
  .next (s.modDev fun d => match d.launch? seq with
    | some l =>
      if d.leavesNext l then
        (d.flushFor l).modLaunch seq fun l =>
          { l with state := .ready, places := l.cores.zipIdx.map fun p => { k := p.2, home := p.1 } }
      else d
    | none => d)
/-- PLACEMENT_END: a placement whose gangs and engine operations have ended frees what it holds (R428). -/
def execPlacementEnd (seq : Nat) (k : Nat) (s : State) : Out :=
  .next (s.modDev fun d => match d.placeEnds seq k with
    | some rk => ((d.settleRes rk).freeRes rk).modPlace seq k fun p => { p with state := .ended }
    | none => d)
/-- LAUNCH_END: the steps of the end of a launch (R401). -/
def execLaunchEnd (seq : Nat) (s : State) : Out :=
  .next (s.modDev fun d => match d.launch? seq with
    | some l => d.launchEnds l
    | none => d)
/-- A host write of QTAIL (R395, R396): the host's column writes before it are performed at their banks first (R420). -/
def execQtail (c : Fin 4) (v : Word) (s : State) : Out :=
  .next (s.modDev fun d =>
    if v.toNat / 2 ^ 16 ≠ 0 then d.setHwd
    else
      let d := d.serveHosts
      d.setRing (.queue c) { d.queues[c.val] with tail := v.toNat })
/-- A host write of QSIZE (R395, R410, R411). What HEAD and TAIL hold after it the spec does not say: they stay as they are, and are taken
modulo the new size: DESIGN CHOICE (log 58). -/
def execQsize (r : RingId) (v : Word) (s : State) : Out :=
  .next (s.modDev fun d =>
    let q := d.ring r
    let n := v.toNat
    if !(n = 0 || (4 ≤ n && n ≤ 16)) || !q.empty then d.setHwd else d.setRing r { q with log := n })
/-- A host write of QBASE (R395, R410). -/
def execQbase (r : RingId) (v : Word) (s : State) : Out :=
  .next (s.modDev fun d =>
    let q := d.ring r
    if v.toNat % 2 ^ 12 ≠ 0 || !q.empty then d.setHwd else d.setRing r { q with base := v })
/-- A host write of the HEAD of a ring that the device fills (R410, R411). -/
def headWrite (r : RingId) (v : Word) (s : State) : Out :=
  .next (s.modDev fun d =>
    let q := d.ring r
    if v.toNat / 2 ^ 16 ≠ 0 then d.setHwd else d.setRing r { q with head := v.toNat })
/-- JOURNAL_HEAD (R411). -/
def execJournalHead (v : Word) (s : State) : Out := headWrite .journal v s
/-- FAULT_LOG_HEAD (R411). -/
def execFaultLogHead (v : Word) (s : State) : Out := headWrite .faultLog v s
/-- FRES_RETRY (R285). -/
def execFresRetry (seq : BitVec 62) (s : State) : Out := .next (s.modDev fun d => d.resolve seq.toNat 0)
/-- FRES_DELIVER (R285). -/
def execFresDeliver (seq : BitVec 62) (s : State) : Out := .next (s.modDev fun d => d.resolve seq.toNat 1)
/-- FRES_END (R285). -/
def execFresEnd (seq : BitVec 62) (s : State) : Out := .next (s.modDev fun d => d.resolve seq.toNat 2)
/-- TQSEQ: a query starts, with the table as the write finds it (R413). -/
def execTqseq (v : Word) (s : State) : Out :=
  .next (s.modDev fun d =>
    if d.regs.tqPending then d.setHwd
    else { d with regs := { d.regs with tqseq := v, tqPending := true, tqres := BitVec.ofNat 64 (d.depWord v.toNat) } })
/-- TABLE_QUERY_RESULT: the result stands, and VALID rises (R413). -/
def execTableQueryResult (s : State) : Out :=
  .next (s.modDev fun d =>
    if d.regs.tqPending then
      { d with regs := { d.regs with tqPending := false, tqres := d.regs.tqres ||| (1#64 <<< 63) } }
    else d)

end Sys2Proof.Machine
end

