-- ==== Sys2Proof/Machine/Frames.lean ====
section
/-! DEFINITION. Frames and the save area of a context, as bytes (R329, R365, R366). -/

namespace Sys2Proof.Machine

/-! ### Fields of a frame (R366) -/

/-- A field of a frame: its offset, its bytes and its value. -/
structure FField where
  off : Nat
  bytes : Nat
  val : Nat

/-- The bytes of a list of fields that do not overlap. -/
def packFields (l : List FField) : Nat := l.foldl (fun v f => v + f.val % 2 ^ (8 * f.bytes) * 2 ^ (8 * f.off)) 0
/-- A group state with its row index as a frame codes it. -/
def gsField (x : GroupState) : Nat :=
  match x with
  | .free => 0
  | .opened i => 2 ^ 14 + i % 2 ^ 9 * 2 ^ 16
  | .writing i => 2 ^ 15 + i % 2 ^ 9 * 2 ^ 16
/-- The latch record of a group. -/
def latchField (g : Group) : Nat :=
  g.latch.valid.toNat + g.latch.tag.toNat * 2 + g.latch.src.toNat * 2 ^ 5 + gsField g.gs
/-- The group state of a latch record. -/
def gsOfField (v : Nat) : GroupState :=
  match v / 2 ^ 14 % 4 with
  | 1 => .opened (v / 2 ^ 16 % 2 ^ 9)
  | 2 => .writing (v / 2 ^ 16 % 2 ^ 9)
  | _ => .free
/-- A weight-half record. -/
def halfField (r : HalfRec) : Nat :=
  r.valid.toNat + r.bf % 16 * 2 + r.bsc.toNat * 2 ^ 5 + (r.rank == 8).toNat * 2 ^ 6 + r.g % 4 * 2 ^ 7 + r.srank % 16 * 2 ^ 9
    + r.sg % 4 * 2 ^ 13
/-- The weight-half record of a field. -/
def halfOfField (v : Nat) : HalfRec where
  valid := nbit v 0
  bf := v / 2 % 16
  bsc := nbit v 5
  rank := if nbit v 6 then 8 else 0
  g := v / 2 ^ 7 % 4
  srank := v / 2 ^ 9 % 16
  sg := v / 2 ^ 13 % 4
/-- A record of the divergence stack. -/
def dsField (r : DsRec) : Nat :=
  r.pw.toNat % 2 ^ 56
    + wrapTo 19 (((wordIndex r.j.toNat : Nat) : Int) - ((wordIndex r.pw.toNat : Nat) : Int)) * 2 ^ 56
    + r.ma.toNat * 2 ^ 75 + r.mw.toNat * 2 ^ 91
/-- The record of a field. -/
def dsOfField (v : Nat) : DsRec :=
  let pw := BitVec.ofNat 64 (v % 2 ^ 56)
  { pw := pw, j := wordDisp pw (sintOf 19 (v / 2 ^ 56)), ma := BitVec.ofNat 16 (v / 2 ^ 75), mw := BitVec.ofNat 16 (v / 2 ^ 91) }
/-- TM.M, TM.KE and TN.N of a matrix entry: as its operation took them, else as they stood at its word. -/
def MxEntry.edges (e : MxEntry) : Nat × Nat × Nat :=
  let ke := e.tm.toNat / 2 ^ 16 % 2 ^ 10
  match e.op with
  | .tmma _ _ _ _ _ _ _ _ _ m ke n => (m, ke, n)
  | .accz _ _ m n => (m, ke, n)
  | _ => (e.tm.toNat % 2 ^ 7, ke, e.tn.toNat % 2 ^ 10)
/-- An entry of the matrix queue. -/
def mxField (e : MxEntry) : Nat :=
  let w := e.word
  (w.extractLsb' 86 10).toNat + (w.extractLsb' 60 12).toNat * 2 ^ 10 + (w.extractLsb' 40 20).toNat * 2 ^ 22
    + (w.extractLsb' 20 20).toNat * 2 ^ 42 + (w.extractLsb' 0 20).toNat * 2 ^ 62 + e.nextRow % 2 ^ 7 * 2 ^ 82
    + e.edges.1 % 2 ^ 7 * 2 ^ 89 + e.edges.2.1 % 2 ^ 10 * 2 ^ 96 + e.edges.2.2 % 2 ^ 10 * 2 ^ 106
/-- The row of a hart in an ACCRD or ACCWR of its gang. -/
def MxEntry.rowOf (e : MxEntry) (bank : Nat) : Option Nat :=
  match e.op with
  | .accrd _ l => (l.find? fun p => e.base + p.1.bank.val == bank).map fun p => p.2.1
  | .accwr _ _ l => (l.find? fun p => e.base + p.1.bank.val == bank).map fun p => p.2
  | _ => none

/-! ### The frame of a hart (R366) -/

/-- The fields of a hart. -/
def hartFields (t : Hart) (pc : Word) (dlp : Bool) : List FField :=
  let ps := (List.range 16).foldl (fun v k => v + (t.p.toList.getD k false).toNat * 2 ^ k) 0
  { off := 0, bytes := 8, val := ps + t.vl.toNat * 2 ^ 16 + t.vt.toNat * 2 ^ 32 : FField }
  :: (t.x.toList.zipIdx.drop 1).map (fun p => { off := 8 * p.2, bytes := 8, val := p.1.toNat })
  ++ ([pc, t.rc, t.ei, t.tm, t.tn, t.fpc].zipIdx.map fun p => { off := 0x200 + 8 * p.2, bytes := 8, val := p.1.toNat })
  ++ [{ off := 0x230, bytes := 8
        val := t.fps.toNat % 2 ^ 7 + (t.schk.getLsbD 0).toNat * 2 ^ 8 + t.refm.toNat % 2 ^ 4 * 2 ^ 9 + dlp.toNat * 2 ^ 13
          + t.shGm.toNat * 2 ^ 16 + t.shDepth % 16 * 2 ^ 32 }]
  ++ ([t.tcause, t.tpc, t.tval, t.tscr].zipIdx.map fun p => { off := 0x238 + 8 * p.2, bytes := 8, val := p.1.toNat })
  ++ (t.bars.toList.zipIdx.map fun p =>
    { off := 0x278 + 8 * p.2, bytes := 8
      val := match p.1 with
        | some o => o % 2 ^ 32 + 2 ^ 32
        | none => 0 })
/-- The fields of a bank's latch records. -/
def latchFields (k : Bank) : List FField :=
  k.groups.toList.zipIdx.map fun p => { off := 0x258 + 8 * p.2, bytes := 8, val := latchField p.1 }
/-- The rows of a hart in the saved entries of its gang, each at the number of its entry. -/
def rowsField (bank : Nat) (l : List MxEntry) : Nat :=
  l.zipIdx.foldl (fun v p => v + (p.1.rowOf bank).getD 0 % 2 ^ 6 * 2 ^ (6 * p.2)) 0
/-- The word of what a hart has outstanding, with its rows in the saved entries of its gang. -/
def pendingField (t : Hart) (bank : Nat) (l : List MxEntry) : FField :=
  { off := 0x298, bytes := 8
    val := t.redOut % 2 ^ 9
      + (match t.flight with
          | some f => 2 ^ 9 + f.reg.val * 2 ^ 10
          | none => 0)
      + rowsField bank l % 2 ^ 24 * 2 ^ 16 }
/-- The fields of a context, in the frame of hart 0. -/
def resFields (r : Residence) : List FField :=
  [{ off := 0x2A0, bytes := 8, val := r.wdCount }, { off := 0x2A8, bytes := 8, val := r.tvec.toNat },
   { off := 0x2B0, bytes := 8, val := r.wdt.toNat }]
/-- The fields of a gang, in the frame of its first hart. -/
def gangFields (g : Gang) (l : List MxEntry) : List FField :=
  { off := 0x2C0, bytes := 8
    val := g.gm.toNat + g.ds.length % 16 * 2 ^ 16 + halfField g.halves[0] * 2 ^ 20 + halfField g.halves[1] * 2 ^ 36
      + l.length % 8 * 2 ^ 52 : FField }
  :: (g.ds.reverse.zipIdx.map fun p => { off := 0x2C8 + 16 * p.2, bytes := 16, val := dsField p.1 })
  ++ (l.zipIdx.map fun p => { off := 0x3B8 + 16 * p.2, bytes := 16, val := mxField p.1 })

/-- A hart as its frame gives it. -/
def hartOfFrame (v : Nat) (t : Hart) : Hart :=
  let w (off : Nat) : Word := BitVec.ofNat 64 (fld v off 0 64)
  let y := fld v 0x230 0 64
  { t with
    x := Vector.ofFn fun (k : Fin 64) => if k.val = 0 then 0 else w (8 * k.val)
    p := Vector.ofFn fun (k : Fin 16) => k.val == 0 || nbit v k.val
    vl := BitVec.ofNat 16 (fld v 0 16 16), vt := BitVec.ofNat 16 (fld v 0 32 16)
    rc := w 0x208, ei := w 0x210, tm := w 0x218, tn := w 0x220, fpc := w 0x228
    fps := BitVec.ofNat 64 (y % 2 ^ 7), schk := BitVec.ofNat 64 (y / 2 ^ 8 % 2), refm := BitVec.ofNat 64 (y / 2 ^ 9 % 2 ^ 4)
    shGm := BitVec.ofNat 16 (y / 2 ^ 16), shDepth := y / 2 ^ 32 % 16
    tcause := w 0x238, tpc := w 0x240, tval := w 0x248, tscr := w 0x250
    redOut := fld v 0x298 0 9
    flight := match t.flight with
      | some f => if nbit v (8 * 0x298 + 9) then
          some { f with reg := ⟨fld v 0x298 10 6 % 64, Nat.mod_lt _ (by decide)⟩ } else none
      | none => none
    bars := Vector.ofFn fun (k : Fin 4) =>
      let e := fld v (0x278 + 8 * k.val) 0 64
      if nbit e 32 then some (e % 2 ^ 32) else none }
/-- A gang as the frame of its first hart gives it. -/
def gangOfFrame (v : Nat) (g : Gang) : Gang :=
  let y := fld v 0x2C0 0 64
  let n := y / 2 ^ 16 % 16
  { g with
    pc := BitVec.ofNat 64 (fld v 0x200 0 64)
    gm := BitVec.ofNat 16 y &&& g.live
    halves := (g.halves.set 0 (halfOfField (y / 2 ^ 20 % 2 ^ 15))).set 1 (halfOfField (y / 2 ^ 36 % 2 ^ 15))
    ds := ((List.range n).map fun k => dsOfField (fld v (0x2C8 + 16 * k) 0 128)).reverse }

/-- A matrix entry of a placement in a residence. -/
def MxEntry.inRes (rk : Nat) (e : MxEntry) : MxEntry :=
  { e with res := rk, op := match e.op with
    | .move k x => .move k { x with res := rk }
    | o => o }

namespace Device

/-- The matrix entries of a residence, in queue order: in the queue while it issues, else as they were saved (R230). -/
def mxOfRes (d : Device) (rk : Nat) : List MxEntry :=
  ((d.core (resCore rk)).mx.filter fun e => e.res == rk) ++ match d.res? rk with
    | some r => r.mx
    | none => []
/-- The matrix entries of a gang (R230). -/
def mxOfGang (d : Device) (rk base : Nat) : List MxEntry := (d.mxOfRes rk).filter fun e => e.base == base
/-- The 1 KiB of a frame; `latches` are those of the bank. -/
def frameOf (d : Device) (rk h : Nat) (r : Residence) (latches : List FField) : Nat :=
  let c := resCore rk
  let own := (d.gangsOf rk).find? fun p => p.1 ≤ h && h < p.1 + p.2.size
  packFields (match own with
    | some p =>
      let l := d.mxOfGang rk p.1
      hartFields (d.hart rk h) p.2.pc (d.dlpAny c h) ++ latches ++ [pendingField (d.hart rk h) h l]
        ++ (if h = 0 then resFields r else []) ++ (if h = p.1 then gangFields p.2 l else [])
    | none => if h = 0 then resFields r else [])
/-- The frames of a residence written, with latch records for each bank (R366, R367 step 4). -/
def writeFrames (d : Device) (rk : Nat) (latches : Nat → List FField) : Device :=
  d.modRes rk fun r => { r with
    frames := (List.range 16).foldl (fun (m : Memory) h => m.write (1024 * h) 1024 (d.frameOf rk h r (latches h))) r.frames }
/-- The latch records of the banks of a core. -/
def bankLatches (d : Device) (c h : Nat) : List FField := latchFields (d.bank c h)
/-- The frame of a hart as a number. -/
def frameNat (r : Residence) (h : Nat) : Nat := r.frames.read (1024 * h) 1024

/-! ### Matrix entries read back (R230, R366, R377) -/

/-- The data of an ACCRD part (R237). -/
def readPart (d : Device) (rk bank : Nat) (fmt : AccFmt) (slot : Fin 6) (row : Nat) : RowData :=
  let c : LaneCfg := { laneCfg (d.hart rk bank) with fmt := accVfmt fmt }
  BitVec.ofNat 65536 (accrdData c (d.core (resCore rk)).acc[slot.val] row).1
/-- What a TSTAT reads at its place in the queue, where no word of a program has put it there (R240, R377). -/
def statNow (d : Device) (rk base : Nat) : TstatSel → Nat
  | .half => d.halfStat (resCore rk) rk base
  | .budget => d.budgetOf rk
  | .slot _ | .satclr _ => 0
/-- The operation that a word of a gang stands for in the matrix queue, by the registers of a frame; `row` is that of a hart, and
`old` the operation as it is. An ACCSV or ACCLD has its address in no frame, so it is kept, and none arises (log 30). -/
def mxOpOf (d : Device) (rk base : Nat) (i : Instr) (m ke n : Nat) (row : Nat → Nat) (old : Option MxOp) : Option MxOp :=
  let c := resCore rk
  let slot (a : Sys2Proof.Acc) := d.slotOf c rk a
  let g := (d.gang? rk base).getD noGang
  let harts (p : Nat → Bool) : List Nat := (banksOf g.gm).filter p
  let lat (b : Nat) (l : Lat) : GLat := { bank := finBank (b - base), g := l }
  let had (b : Nat) : Bool := match old with
    | some (.accrd _ ps) => ps.any fun p => base + p.1.bank.val == b
    | some (.accwr _ _ ps) => ps.any fun p => base + p.1.bank.val == b
    | _ => true
  match i with
  | .tload _ _ half tile scale => some (.tload half tile scale)
  | .tmma _ af half kq z aseg a l scale =>
    (slot a).map fun k => .tmma af half kq.toNat z aseg.toNat k l scale (g.half half) m ke n
  | .accz _ edge a => (slot a).map fun k => .accz edge k m n
  | .accrd _ fmt l a _ => (slot a).map fun k =>
    .accrd k ((harts had).map fun b => (lat b l, row b, d.readPart rk b fmt k (row b)))
  | .accwr _ fmt a l _ => (slot a).map fun k => .accwr fmt k ((harts had).map fun b => (lat b l, row b))
  | .accclm _ int p a => match old with
    | some o => some o
    | none => some (.accclm none (slot a) p ((slot a).any fun k => (d.core c).acc[k.val].int == int) (harts fun _ => true))
  | .accrel _ a => some (.accrel (slot a))
  | .tstat _ sel x => some (.tstat sel (match sel with
    | .slot a | .satclr a => slot a
    | _ => none) x (harts fun _ => true) (match old, sel with
    | some (.tstat o _ _ _ v), _ => if o = sel then v else d.statNow rk base sel
    | _, sel => d.statNow rk base sel))
  | .accsv _ _ _ _ | .accld _ _ _ _ => old
  | _ => none
/-- The word of a matrix entry as a field gives it; what the field does not hold stays as it is. -/
def wordOfField (w : IWord) (v : Nat) : IWord :=
  BitVec.ofNat 96 (v / 2 ^ 62 % 2 ^ 20 + v / 2 ^ 42 % 2 ^ 20 * 2 ^ 20 + v / 2 ^ 22 % 2 ^ 20 * 2 ^ 40 + v / 2 ^ 10 % 2 ^ 12 * 2 ^ 60
    + w.toNat / 2 ^ 72 % 2 ^ 14 * 2 ^ 72 + v % 2 ^ 10 * 2 ^ 86)
/-- The number of an entry's gang rows on a hart, as the frame of the hart gives it. -/
def rowOfFrame (r : Residence) (i bank : Nat) : Nat := fld (frameNat r bank) 0x298 (16 + 6 * i) 6
/-- Matrix entry i of a gang as the frames give it; one that they give as it is stays. -/
def mxOfFrame (d : Device) (rk base : Nat) (r : Residence) (i : Nat) (old : Option MxEntry) : Option MxEntry :=
  let v := fld (frameNat r base) (0x3B8 + 16 * i) 0 128
  let rows := match old with
    | some e => (gangBanks base ((d.gang? rk base).getD noGang).size).all fun b => match e.rowOf b with
      | some n => rowOfFrame r i b == n
      | none => true
    | none => false
  match old with
  | some e => if mxField e = v ∧ rows = true then some e else read v e.word e.cv (some e.op)
  | none => read v 0 ((d.gang? rk base).getD noGang).cv none
where
  /-- An entry made from its field. -/
  read (v : Nat) (w : IWord) (cv : Nat) (o : Option MxOp) : Option MxEntry :=
    let w := wordOfField w v
    let m := v / 2 ^ 89 % 2 ^ 7
    let ke := v / 2 ^ 96 % 2 ^ 10
    let n := v / 2 ^ 106 % 2 ^ 10
    match decode w with
    | .ok j => (d.mxOpOf rk base j m ke n (rowOfFrame r i) o).map fun op =>
      { res := rk, base := base, cv := cv, word := w, op := op, tm := BitVec.ofNat 64 (m + ke * 2 ^ 16), tn := BitVec.ofNat 64 n
        nextRow := v / 2 ^ 82 % 2 ^ 7 }
    | .error _ => none
/-- The entries of a gang in a queue replaced, one for one; the rest leave it, or come after it. -/
def replaceGang (base : Nat) : List MxEntry → List MxEntry → List MxEntry
  | new, [] => new
  | new, e :: l =>
    if e.base != base then e :: replaceGang base new l
    else match new with
      | [] => replaceGang base [] l
      | x :: t => x :: replaceGang base t l
/-- The matrix entries of a residence set. -/
def setMx (d : Device) (rk : Nat) (l : List MxEntry) : Device :=
  let c := resCore rk
  if (d.core c).issuing = some (resSlot rk) then
    (d.modRes rk fun r => { r with mx := [] }).modCore c fun x => { x with mx := l ++ x.mx.filter fun e => e.res != rk }
  else d.modRes rk fun r => { r with mx := l }
/-- The matrix entries of a gang read back from its frames. -/
def readMx (d : Device) (rk base : Nat) : Device :=
  match d.res? rk with
  | none => d
  | some r =>
    let old := d.mxOfGang rk base
    let n := min 4 (fld (frameNat r base) 0x2C0 52 3)
    d.setMx rk (replaceGang base ((List.range n).filterMap fun i => d.mxOfFrame rk base r i old[i]?) (d.mxOfRes rk))
/-- The frames of a residence read back into its harts, its gangs and its matrix entries (R366, R377). -/
def readFrames (d : Device) (rk : Nat) : Device :=
  match d.res? rk with
  | none => d
  | some r =>
    let d := (banksOf r.hmask).foldl (fun d h => d.modHart rk h (hartOfFrame (frameNat r h))) d
    let d := (d.gangsOf rk).foldl (fun d p => (d.modGang rk p.1 (gangOfFrame (frameNat r p.1))).readMx rk p.1) d
    d.modRes rk fun r =>
      { r with wdCount := fld (frameNat r 0) 0x2A0 0 64, tvec := BitVec.ofNat 64 (fld (frameNat r 0) 0x2A8 0 64)
               wdt := BitVec.ofNat 64 (fld (frameNat r 0) 0x2B0 0 64) }
/-- The latch record that a residence's frame holds for a group. -/
def latchFrame (r : Residence) (b : Nat) (g : Lat) : Nat := fld (frameNat r b) (0x258 + 8 * g.val) 0 64
/-- The latch records that the frames of a residence hold. -/
def savedLatches (d : Device) (rk h : Nat) : List FField :=
  match d.res? rk with
  | some r => (List.finRange 4).map fun g => { off := 0x258 + 8 * g.val, bytes := 8, val := latchFrame r h g }
  | none => []
/-- A group as a latch record of a frame leaves it, with the data and poison of its latch. -/
def Group.ofFrame (v : Nat) (data : RowData) (poison : BitVec 128) (x : Group) : Group :=
  { x with
    latch := { valid := nbit v 0, tag := BitVec.ofNat 4 (v / 2), src := BitVec.ofNat 9 (v / 2 ^ 5)
               poison := if nbit v 0 then poison else 0, data := if nbit v 0 then data else 0 }
    gs := gsOfField v }

/-! ### The save area (R365) -/

/-- The base of the save area of a placement. -/
def saveBase (l : Launch) (k : Nat) : Nat := l.record.save.toNat + k * saveStep
/-- The array address of a byte of a save area: Decode in the BSK 0 order. -/
def areaKey (base off : Nat) : Nat := unskew 0 ((base + off) % 2 ^ 39)
/-- The parts of a byte range of a save area that lie in one row: the offset and the length. -/
def areaParts (base off n : Nat) : List (Nat × Nat) :=
  (List.range ((base + off + n + 8191) / 8192 - (base + off) / 8192)).map fun k =>
    let lo := max (base + off) (8192 * ((base + off) / 8192 + k))
    (lo - base, min (base + off + n) (8192 * ((base + off) / 8192 + k) + 8192) - lo)
/-- `n` bytes written to a save area, whole sectors of them; `bad` lists poisoned sectors, counted from the offset. -/
def areaWrite (d : Device) (base off n v : Nat) (bad : List Nat) : Device :=
  (areaParts base off n).foldl (fun d p =>
    let key := areaKey base p.1
    let d := d.releaseFor key
    let d := d.modBank (keyCore key) (keyBank key) fun k =>
      { k with wq := k.wq.map fun e => if key / 64 ≤ e.pa / 64 ∧ e.pa < key + p.2 then { e with red := none } else e }
    let inside (s : Nat) : Bool := key / 64 ≤ s && s < (key + p.2) / 64
    { d with
      mem := d.mem.write key p.2 (v / 2 ^ (8 * (p.1 - off)))
      memBad := (bad.filter fun s => p.1 ≤ off + 64 * s && off + 64 * s < p.1 + p.2).foldl
        (fun m s => insertN ((key + (off + 64 * s - p.1)) / 64) m) (d.memBad.filter fun s => !inside s)
      lines := d.lines.filter fun l => !inside l.line
      proxies := d.proxies.filter fun p => !(inside p.line && atHome p.line p.stand) }) d
/-- `n` bytes of a save area. -/
def areaRead (d : Device) (base off n : Nat) : Nat :=
  (areaParts base off n).foldl (fun v p => v + d.mem.read (areaKey base p.1) p.2 * 2 ^ (8 * (p.1 - off))) 0

/-- The column accesses of a read of a save area (R137, R365). -/
def areaTouch (d : Device) (base off n : Nat) : Device :=
  (areaParts base off n).foldl (fun d p => d.releaseFor (areaKey base p.1)) d

/-- The 64 bytes of a command record (R319). -/
def cmdNat (c : CopyCmd) : Nat :=
  packFields [{ off := 0, bytes := 8, val := 1 + c.chan.val * 2 ^ 4 + c.comp * 2 ^ 8 },
    { off := 8, bytes := 8, val := c.slay.toNat }, { off := 16, bytes := 8, val := c.dlay.toNat },
    { off := 24, bytes := 8, val := c.sbase.toNat }, { off := 32, bytes := 8, val := c.dbase.toNat },
    { off := 40, bytes := 8, val := c.soff + c.sval * 2 ^ 32 }, { off := 48, bytes := 8, val := c.resoff }]
/-- The 256 bytes of an entry of the command save area (R329). -/
def savedNat (c : SavedCmd) : Nat := cmdNat c.cmd + c.cmd.src.raw * 2 ^ 512 + c.cmd.dst.raw * 2 ^ 1280
/-- Saved commands by channel, in the order in which they were accepted in each. -/
def byChannel (l : List SavedCmd) : List SavedCmd := (List.finRange 8).flatMap fun ch => l.filter fun x => x.cmd.chan == ch
/-- The number of saved commands of each channel, a byte each. -/
def savedCounts (l : List SavedCmd) : Nat :=
  (List.finRange 8).foldl (fun v ch => v + (l.filter fun x => x.cmd.chan == ch).length * 2 ^ (8 * ch.val)) 0
/-- The command save area of a context written at a switch out, and the counts of its channels (R329, R365). -/
def writeCmdArea (d : Device) (rk : Nat) : Device :=
  match d.res? rk with
  | none => d
  | some r => match d.launch? r.seq with
    | none => d
    | some l =>
      let base := saveBase l r.k
      let cmds := byChannel r.saved
      let v := cmds.zipIdx.foldl (fun v p => v + savedNat p.1 * 2 ^ (2048 * p.2)) 0
      let d := if cmds.isEmpty then d else d.areaWrite base 0x24000 (256 * cmds.length) v []
      d.bankWrite (areaKey base 0x26008) 8 (savedCounts r.saved) false

end Device

end Sys2Proof.Machine
end

