-- ==== Sys2Proof/Machine/Sched.lean ====
section
/-! DEFINITION. The scheduler of a core: the choice of the issuing context, the switch, eviction and admission, debugger stops,
and the refresh and precharges that a bank performs of its own (R116, R137 to R145, R230, R353, R364 to R369, R377, R397 to
R400, R419). -/

namespace Sys2Proof.Machine

namespace Device

/-! ### Which context issues (R400) -/

/-- The matrix queue of a core has room for a word of a gang (R227). -/
def matrixRoom (d : Device) (rk base : Nat) : Bool :=
  let q := (d.core (resCore rk)).mx
  q.length < Config.matrixQueue && (q.filter fun e => e.res == rk && e.base == base).length < Config.matrixPerGang
/-- A condition on which a convoy waits leaves its gang able (R400): it is met, or is none of those that R400 names. A limit of the
matrix queue is judged on the queue as it is, which holds no entry of a context that is switched out. -/
def waitAble (d : Device) (rk base : Nat) (r : Residence) : WaitOn → Bool
  | .pool l => l.all (WaitCond.holds r)
  | .matrix => d.matrixRoom rk base
  | _ => true
/-- A gang has a convoy that does not wait in a pool wait, at the matrix queue or in a fault; that of a context which does not issue
is judged by what its convoy waited for when the context was pre-empted (R400). -/
def gangAble (d : Device) (rk base : Nat) (r : Residence) (g : Gang) : Bool :=
  !g.ended && g.gm != 0 && g.faults.isEmpty &&
    if (d.core (resCore rk)).issuing == some (resSlot rk) then
      match g.wait with
      | some w => w.retry || d.waitAble rk base r w.on
      | none => true
    else match g.held with
      | some o => d.waitAble rk base r o
      | none => true
/-- A resident context may issue, for all that its gangs wait for. -/
def ctxFree (d : Device) (r : Residence) : Bool := r.state == .resident && !r.stopReq && !d.regs.stops.contains r.ctx.toNat
/-- A resident context is able to issue. -/
def ctxAble (d : Device) (rk : Nat) : Bool :=
  match d.res? rk with
  | some r => d.ctxFree r && (d.gangsOf rk).any fun p => d.gangAble rk p.1 r p.2
  | none => false
/-- A context has copy commands that a switch has saved and that go on when it issues again (R329). -/
def ctxSaved (d : Device) (rk : Nat) : Bool :=
  match d.res? rk with
  | some r => d.ctxFree r && !r.saved.isEmpty
  | none => false
/-- The rank of a context in the choice: its class, or just below class 0 when it has aged. -/
def rank (r : Residence) : Nat := if r.cls = 0 then 0 else if r.aged then 1 else r.cls.val + 1
/-- The rank of the context in a slot. -/
def slotRank (d : Device) (c : Nat) (s : Fin 3) : Nat :=
  match d.res? (resKey c s) with
  | some r => rank r
  | none => 5
/-- The slots of a core from the issuing one on. -/
def slotOrder (d : Device) (c : Nat) : List (Fin 3) :=
  match (d.core c).issuing with
  | some s => [s, s + 1, s + 2]
  | none => [0, 1, 2]
/-- The able contexts of a core, from the issuing one on. -/
def ableSlots (d : Device) (c : Nat) : List (Fin 3) := (d.slotOrder c).filter fun s => d.ctxAble (resKey c s)
/-- The able context of lowest rank, the first of them in slot order. -/
def bestOf (d : Device) (c : Nat) (l : List (Fin 3)) : Option (Fin 3) :=
  l.foldl (fun b s => match b with
    | none => some s
    | some t => if d.slotRank c s < d.slotRank c t then some s else some t) none
/-- The slots to choose from: those of the able contexts, and with none those of contexts whose saved commands wait to go on, so that
they do (R329, R426; log 31). -/
def choice (d : Device) (c : Nat) : List (Fin 3) :=
  match d.ableSlots c with
  | [] => (d.slotOrder c).filter fun s => d.ctxSaved (resKey c s)
  | l => l
/-- The context that issues by class. -/
def best? (d : Device) (c : Nat) : Option (Fin 3) := d.bestOf c (d.choice c)
/-- A destination is a class-0 context. -/
def toClass0 (d : Device) (c : Nat) (dest : Option (Fin 3)) : Bool :=
  match dest with
  | some t => d.slotClass0 c t
  | none => false
/-- The A row at which a running TMMA stops: the rows that have begun are finished (R230). -/
def stopRow (now : Nat) (e : MxEntry) : Nat :=
  match e.op with
  | .tmma _ _ _ _ _ _ _ _ _ m _ _ =>
    let left := e.doneAt - 12 - now
    max e.nextRow (m - if left = 0 then 0 else (left - 1) / 8)
  | _ => e.nextRow
/-- A TMMA that is to broadcast and to compute again, from a row on; the unit is its own until a time (R230). -/
def haltEntry (e : MxEntry) (row t : Nat) : MxEntry :=
  { e with started := false, beganAt := none, halfAt := 0, nextRow := row, doneAt := t }
/-- A running TMMA stopped at the end of the row that it computes (R230); one whose last row has begun completes. -/
def stopEntry (c : Nat) (d : Device) (e : MxEntry) : Device :=
  let hi := stopRow d.now e
  let t := if hi = e.nextRow then d.now else e.doneAt - 8 * (e.edges.1 - hi)
  (d.mxRows c e hi).modCore c fun x =>
    { x with mx := if hi = e.edges.1 then x.mx.filter (· != e) else x.mx.map fun o => if o = e then haltEntry e hi t else o }
/-- The TMMA that a context has running. -/
def running (d : Device) (c rk : Nat) : List MxEntry := (d.core c).mx.filter fun e => e.res == rk && e.started && match e.op with
  | .tmma .. => true
  | _ => false
/-- The running TMMA of a context stopped. -/
def stopRows (d : Device) (c rk : Nat) : Device := (d.running c rk).foldl (stopEntry c) d
/-- The running TMMA of a context stopped at a pre-emption request; one whose last row has begun completes in its time (R230). -/
def haltRows (d : Device) (c rk : Nat) : Device :=
  ((d.running c rk).filter fun e => stopRow d.now e != e.edges.1).foldl (stopEntry c) d
/-- The matrix unit left by a switch: the requests for its broadcasts go, and the copies of the halves are lost (R230). -/
def stopMatrix (d : Device) (c : Nat) : Device :=
  let d := ((d.core c).mx.filterMap MxEntry.req).foldl (fun d id => d.busDrop c id) d
  d.modCore c fun x =>
    { x with mx := x.mx.map fun e => { e with req := none, beganAt := none, halfAt := 0 }
             halves := x.halves.map fun h => { h with owner := none } }
/-- A switch asked for: issue stops, a running TMMA stops at the end of its row (R230), and the convoys of the issuing context that have
not begun are discarded (R64, R367). A switch that has been asked for goes elsewhere. -/
def askSwitch (d : Device) (c : Nat) (dest : Option (Fin 3)) : Device :=
  let d := match (d.core c).switch, (d.core c).issuing with
    | none, some s => (d.preempt (resKey c s)).haltRows c (resKey c s)
    | _, _ => d
  d.modCore c fun x =>
    { x with switch := some { dest := dest, at_ := d.now, class0 := d.toClass0 c dest
                              phase := match x.switch with
                                | some q => q.phase
                                | none => .drain } }
/-- A switch of a core has come to the restore of the incoming latches, and goes nowhere else. -/
def entering (d : Device) (c : Nat) : Bool :=
  match (d.core c).switch with
  | some q => q.phase == .restore
  | none => false
/-- The able class-0 context that issues on a core next, when another context or none issues (R400). -/
def class0Next (d : Device) (c : Nat) : Option (Fin 3) :=
  if d.regs.rsvc then none
  else match d.bestOf c ((d.ableSlots c).filter fun s => d.slotRank c s == 0) with
    | some s =>
      let asked := match (d.core c).switch with
        | some q => q.dest == some s
        | none => false
      if ((d.core c).issuing = some s ∧ (d.core c).switch = none) ∨ asked = true ∨ d.entering c = true then none else some s
    | none => none
/-- The quantum of a context, in ck. -/
def quantumTime : Nat := 262144
/-- The context that issues once the quantum of the issuing one is over: the next of its class, and after an aged one the able context
that goes by class before it or with it. -/
def quantumNext (d : Device) (c : Nat) : Option (Fin 3) :=
  match (d.core c).issuing with
  | some s => match d.res? (resKey c s) with
    | some r =>
      if quantumTime ≤ r.quantum ∧ (d.core c).switch = none ∧ d.regs.rsvc = false then
        let others := (d.ableSlots c).filter fun t => t != s
        if r.aged then (d.bestOf c others).filter fun t => d.slotRank c t ≤ r.cls.val + 1
        else others.find? fun t => d.slotRank c t == rank r
      else none
    | none => none
  | none => none
/-- The quantum of an aged context is over, and by its class it goes on. -/
def agedOver (d : Device) (c : Nat) : Bool :=
  match (d.core c).issuing with
  | some s => match d.res? (resKey c s) with
    | some r => r.aged && quantumTime ≤ r.quantum && (d.core c).switch.isNone && !d.regs.rsvc && (d.quantumNext c).isNone
    | none => false
  | none => false
/-- Since when the issuing context has not been able, if it is not (R400). -/
def unableSince (d : Device) (rk : Nat) : Option Nat :=
  if d.ctxAble rk then none
  else some ((d.gangsOf rk).foldl (fun t p => max t (match p.2.wait with
    | some w => w.since
    | none => p.2.earliest)) 0)
/-- The context to which an unable one yields. -/
def idleNext (d : Device) (c : Nat) : Option (Fin 3) :=
  match (d.core c).issuing with
  | some s =>
    if (d.core c).switch = none ∧ d.regs.rsvc = false then
      match d.unableSince (resKey c s) with
      | some t => if t + 512 ≤ d.now then d.bestOf c ((d.choice c).filter fun t => t != s) else none
      | none => none
    else none
  | none => none
/-- A context has been able and has not issued for the ageing time. -/
def agesNow (d : Device) (rk : Nat) : Bool :=
  match d.res? rk with
  | some r => r.cls != 0 && !r.aged && d.ctxAble rk && (d.core (resCore rk)).issuing != some (resSlot rk)
      && r.lastIssue + 4194304 ≤ d.now
  | none => false
/-- Where a switch that is due goes: to a context, or to none. -/
def switchTo (d : Device) (c : Nat) : Option (Option (Fin 3)) :=
  if d.regs.rsvc then none
  else match (d.core c).issuing with
    | none => (d.best? c).map some
    | some s => match d.res? (resKey c s) with
      | none => none
      | some r => match r.state with
        | .faultWaiting => some (d.best? c)
        | .stopped => (d.best? c).map some
        | .resident => match d.bestOf c (d.ableSlots c) with
          | some b => if d.slotRank c b < rank r then some (some b) else none
          | none => none

/-! ### The switch (R144, R230, R367) -/

/-- Some latch-side work of a core has not ended: row commands, sweeps and bus words. -/
def banksBusy (d : Device) (c : Nat) : Bool :=
  (List.range 16).any fun b =>
    let k := d.bank c b
    !k.rowQ.isEmpty || !k.segs.isEmpty || d.now < max k.lane k.out
/-- The row commands, the sweeps and the matrix operations of a core have ended, but for a TMMA (R64, R190). -/
def drained (d : Device) (c : Nat) : Bool :=
  !d.banksBusy c
  && (d.core c).mx.all fun e => !e.started || match e.op with
    | .tmma .. => true
    | _ => false
/-- The drain of a switch is over: with the rest, the matrix unit has finished the row at which it stops (R64, R190, R230). -/
def drainOver (d : Device) (c : Nat) : Bool := d.drained c && (d.core c).mx.all fun e => !e.started && e.doneAt ≤ d.now
/-- Every result of a hart in flight has landed (R70, R297). -/
def settleHart (t : Hart) : Hart := t.landAll.landFlight
/-- Commands of the bank's own put to it. -/
def pushOwn (d : Device) (c b : Nat) (g : Lat) (ops : List RowOp) : Device :=
  d.modBank c b fun k => Bank.arrive d.now { k with rowQ := k.rowQ ++ ops.map fun o => { g := g, op := o } }
/-- Every group of a core, with what a switch does at it. -/
def eachGroup (d : Device) (f : Device → Nat → Lat → Device) : Device :=
  (List.range 16).foldl (fun d b => (List.finRange 4).foldl (fun d g => f d b g) d) d
/-- Step 3 of a switch begins: each bank releases the sense amplifiers that are held and writes its valid latches to the spill rows of
a slot (R144, R367). -/
def beginSpill (d : Device) (c : Nat) (slot : Fin 3) : Device :=
  let d := (d.saveCmds c (resKey c slot)).stopMatrix c
  let d := d.eachGroup fun d b g =>
    let x := d.group c b g
    d.pushOwn c b g ((if x.phy || x.pend.isSome then [.close] else [])
      ++ if x.latch.valid then [.spill (508 + slot.val)] else [])
  d.modCore c fun x => { x with switch := x.switch.map fun q => { q with phase := .spill } }
/-- Step 4 of a switch, and what the banks and the matrix queue of a context leave behind: its frames and its saved commands are
written (R329, R366, R367). -/
def finishSpill (d : Device) (c : Nat) (s : Fin 3) (byClass0 : Bool) : Device :=
  let rk := resKey c s
  let d : Device := d.mapHarts rk settleHart
  let d : Device := match d.res? rk with
    | some r => if r.state == .stopped then d else d.writeFrames rk (d.bankLatches c)
    | none => d
  let mx := (d.core c).mx.filter fun e => e.res == rk
  let d := d.eachGroup fun (d : Device) b g =>
    if (d.group c b g).latch.valid || (d.group c b g).gs != .free then
      d.modGroup c b g fun y => { y with latch := { y.latch with valid := false }, gs := .free }
    else d
  let d := d.modCore c fun x => { x with issuing := none, mx := x.mx.filter fun e => e.res != rk }
  (d.modRes rk fun r => { r with spilled := true, mx := mx, aged := r.aged && byClass0 }).writeCmdArea rk
/-- Steps 5 to 7 of a switch begin: a context becomes the visible one, and its latches come back from its spill rows (R144,
R367). -/
def beginRestore (d : Device) (c : Nat) (s : Fin 3) : Device :=
  let rk := resKey c s
  match d.res? rk with
  | none => d.modCore c fun x => { x with issuing := none, switch := none }
  | some r =>
    let d := d.eachGroup fun d b g =>
      let v := latchFrame r b g
      let x := d.group c b g
      let y := Group.ofFrame v 0 0 x
      let d := if x.latch = y.latch ∧ x.gs = y.gs then d else d.modGroup c b g fun _ => y
      if nbit v 0 then d.pushOwn c b g [.restore (508 + s.val) (BitVec.ofNat 4 (v / 2)) (BitVec.ofNat 9 (v / 2 ^ 5))] else d
    (d.modRes rk fun r => { r with spilled := false, quantum := 0, fresh := true, mx := [] }).modCore c fun x =>
      { x with issuing := some s, mx := r.mx ++ x.mx, halves := x.halves.map fun h => { h with owner := none }
               switch := some { dest := some s, at_ := d.now, class0 := r.cls == 0, phase := .restore } }
/-- The end of a switch: the context may issue. What its harts sent before they were pre-empted is accepted first (R297, R311). -/
def finishRestore (d : Device) (c : Nat) (s : Fin 3) : Device :=
  let rk := resKey c s
  let d := (List.range 16).foldl (fun d b => d.drainReds rk b 0) d
  (d.mapGangs rk fun g => { g with held := none }).modCore c fun x => { x with switch := none }
/-- A switch that has been asked for moves on now. -/
def switchCan (d : Device) (c : Nat) (q : SwitchReq) : Bool :=
  match q.phase with
  | .drain => (d.core c).issuing == q.dest || (d.core c).issuing.isNone || d.drainOver c
  | .spill | .restore => !d.banksBusy c
/-- The context of a switch enters, or with none the core is idle (R367). -/
def enter (d : Device) (c : Nat) (dest : Option (Fin 3)) : Device :=
  match dest with
  | some t => d.beginRestore c t
  | none => d.modCore c fun x => { x with issuing := none, switch := none }
/-- The next step of a switch that has been asked for. -/
def switchNext (d : Device) (c : Nat) (q : SwitchReq) : Device :=
  match q.phase, (d.core c).issuing with
  | .drain, none => d.enter c q.dest
  | .drain, some s => if q.dest = some s then d.finishRestore c s else d.beginSpill c s
  | .spill, some s => (d.finishSpill c s q.class0).enter c q.dest
  | .spill, none => d.enter c q.dest
  | .restore, some s => d.finishRestore c s
  | .restore, none => d.modCore c fun x => { x with switch := none }
/-- A switch of a core is due that has not been asked for: where it goes. -/
def switchDue (d : Device) (c : Nat) : Option (Option (Fin 3)) :=
  match (d.core c).switch with
  | some _ => none
  | none => (d.switchTo c).filter fun dest => (d.core c).issuing != dest
/-- CONTEXT_SWITCH does something: a switch is due, or one that is asked for moves on. -/
def switchMoves (d : Device) (c : Nat) : Bool :=
  match (d.core c).switch with
  | some q => d.switchCan c q
  | none => (d.switchDue c).isSome
/-- One move of a switch. -/
def switchStep (d : Device) (c : Nat) : Device :=
  match (d.core c).switch with
  | some q => if d.switchCan c q then d.switchNext c q else d
  | none => match d.switchDue c with
    | some dest => d.askSwitch c dest
    | none => d
/-- A placement begins to issue as it is admitted, in reduced service (R419). -/
def enterNow (d : Device) (c : Nat) (s : Fin 3) : Device := (d.beginRestore c s).finishRestore c s

/-! ### Where a placement may be admitted (R243, R397, R398, R419) -/

/-- Accumulator slots that an admission binds, with those that queued ACCCLMs have claimed (R224, R238). -/
def slotsNeeded (r : LaunchRec) (bound : Nat) (mx : List MxEntry) : Nat :=
  max ((List.range 6).filter (nbit r.aclm)).length ((List.range 6).filter (nbit bound)).length + (mx.filterMap MxEntry.claims).length
/-- The accumulator slots of a core that an admission finds free, with some residence set aside: neither bound nor claimed (R224). -/
def slotsFree (d : Device) (c : Nat) (without : Option (Fin 3)) : Nat :=
  let gone (rk : Nat) : Bool := without.any fun s => rk == resKey c s
  let taken := ((d.mxAll c).filter fun e => !gone e.res).filterMap fun e => e.claims.map Prod.fst
  ((List.finRange 6).filter fun k => !taken.contains k && match (d.core c).acc[k.val].bound with
    | some b => gone b.1
    | none => true).length
/-- The bound slots of a saved placement, as its save area lists them (R365). -/
def savedSlots (d : Device) (l : Launch) (p : Placement) : Nat :=
  if p.begun then d.areaRead (saveBase l p.k) 0x26000 1 % 2 ^ 6 else 0
/-- The Sifter of some core is still saving the state of a placement (R353). -/
def sifterSaving (d : Device) (seq k : Nat) : Bool :=
  d.cores.any fun x => match x.2.sifter with
    | .saving f => f.seq == seq && f.k == k
    | _ => false
/-- The conditions of an admission but for the free slot, with some resident context set aside. -/
def admitOk (d : Device) (l : Launch) (p : Placement) (c : Nat) (without : Option (Fin 3)) : Bool :=
  let x := d.core c
  let rs := (d.resOfCore c).filter fun q => some q.1 != without
  let used := rs.foldl (fun n q => n + poolShare q.2.fb q.2.sb q.2.cb) 0
  (l.state == .ready || l.state == .running) && l.killed.isNone
    && (p.state == .waiting || p.state == .saved) && (c == p.home || (p.state == .saved && l.record.move))
    && used + poolShare frameBytes l.record.sb l.record.cb + 0x40000 ≤ Config.poolBytes
    && slotsNeeded l.record (d.savedSlots l p) p.mx ≤ d.slotsFree c without
    && (p.sift.isNone || x.sifter == .free) && !d.sifterSaving l.seq p.k
    && (l.record.cls != 0 || rs.all fun q => q.2.cls != 0)
    && (if d.regs.rsvc then !d.trained && (d.resOfCore c).isEmpty else d.regs.place)

/-! ### Eviction (R364, R365, R397) -/

/-- A context may be evicted: it is not of class 0, and it waits for nobody (R364, R397). -/
def evictable (d : Device) (rk : Nat) : Bool :=
  match d.res? rk with
  | some r => r.state == .resident && r.cls != 0 && (d.launch? r.seq).isSome
      && match (d.core (resCore rk)).switch with
        | some q => q.dest != some (resSlot rk)
        | none => true
  | none => false
/-- No work of a context that has switched out is under way. -/
def quiet (d : Device) (rk : Nat) : Bool :=
  let x := d.core (resCore rk)
  !(x.xfers.any fun x => x.res == rk) && !(d.portQ.any fun q => q.res == rk)
    && match x.sifter with
      | .bound f => f.res != rk || f.pushes.isEmpty
      | _ => true
/-- The context of a core that is evicted for one of a class: the highest class number, and then the one that issued least
recently. -/
def victim (d : Device) (c : Nat) (cls : Fin 4) : Option (Fin 3) :=
  let l := [(0 : Fin 3), 1, 2].filterMap fun s => (d.res? (resKey c s)).bind fun r =>
    if d.evictable (resKey c s) && cls < r.cls then some (s, r) else none
  (l.foldl (fun (b : Option (Fin 3 × Residence)) q => match b with
    | none => some q
    | some o => if o.2.cls < q.2.cls || (o.2.cls == q.2.cls && q.2.lastIssue < o.2.lastIssue) then some q else some o)
    none).map Prod.fst
/-- A placement waits that needs the slot of a context. -/
def wantsSlot (d : Device) (c : Nat) (s : Fin 3) : Bool :=
  !d.regs.rsvc && (d.resOfCore c).length == 3 && d.launches.any fun l =>
    d.victim c l.record.cls == some s && l.places.any fun p => d.admitOk l p c (some s)
/-- The sectors of a byte range with a poisoned word, from its offset on. -/
def badSectors (fb : Nat) (bad : List Nat) : List Nat := (bad.map fun w => (8 * w - fb) / 64).dedup
/-- A physical slot named by the logical one that is bound to it, or that a queued ACCCLM is to bind there. -/
def logicalSlot (d : Device) (c : Nat) (k : Fin 6) : Fin 6 :=
  match (d.core c).acc[k.val].bound with
  | some p => p.2
  | none => (((d.mxAll c).filterMap MxEntry.claims).find? fun q => q.1 == k).elim k Prod.snd
/-- The slot of a matrix operation replaced. -/
def mapSlot (f : Fin 6 → Fin 6) (e : MxEntry) : MxEntry :=
  { e with op := match e.op with
    | .tload h t s => .tload h t s
    | .tmma af h kq z aseg slot a sc r m ke n => .tmma af h kq z aseg (f slot) a sc r m ke n
    | .accz edge slot m n => .accz edge (f slot) m n
    | .accrd slot l => .accrd (f slot) l
    | .accwr fmt slot l => .accwr fmt (f slot) l
    | .accclm b slot p v l => .accclm (b.map fun q => (f q.1, q.2)) (slot.map f) p v l
    | .accrel slot => .accrel (slot.map f)
    | .move slot x => .move (f slot) { x with slot := (f slot).val }
    | .tstat sel slot r l v => .tstat sel (slot.map f) r l v }
/-- The slots of the matrix entries of a placement that comes back, in queue order: each ACCCLM claims one of the free slots anew. -/
def claimSlots : (Fin 6 → Fin 6) → List (Fin 6) → List MxEntry → List MxEntry
  | _, _, [] => []
  | f, free, e :: l => match e.claims, free with
    | some q, k :: rest =>
      let g : Fin 6 → Fin 6 := fun i => if i = q.2 then k else f i
      mapSlot g e :: claimSlots g rest l
    | _, _ => mapSlot f e :: claimSlots f free l
/-- The save area of a residence written (R365). -/
def writeArea (d : Device) (c : Nat) (s : Fin 3) (r : Residence) (base : Nat) : Device :=
  let rk := resKey c s
  let d := d.areaWrite base 0 0x4000 (r.frames.read 0 0x4000) []
  let d := (List.range 16).foldl (fun d h => (List.range 8).foldl (fun d k =>
    d.areaWrite base (0x4000 + h * 0x2000 + k * 0x400) 0x400 ((d.hart rk h).masks.toList.getD k 0).toNat []) d) d
  let mine := (List.finRange 6).filterMap fun k => match (d.core c).acc[k.val].bound with
    | some p => if p.1 = rk then some (k, p.2) else none
    | none => none
  let d := d.bankWrite (areaKey base 0x26000) 8 (mine.foldl (fun v p => v + 2 ^ p.2.val) 0) false
  let d := d.bankWrite (areaKey base 0x26008) 8 (savedCounts r.saved) false
  let d := match d.siftOf c rk with
    | some f => (f.queue.take Config.sifterQueue).zipIdx.foldl (fun (d : Device) (p : SiftRec × Nat) =>
      d.bankWrite (areaKey base (0x26100 + 16 * p.2)) 16 p.1.toNat false) d
    | none => d
  let d := (List.range 64).foldl (fun d n =>
    let key := rowKey c (n / 4) (n % 4) (508 + s.val)
    let d := d.releaseFor key
    let bad := d.rowPoison key
    d.areaWrite base (0x38000 + 0x2000 * n) 0x2000 (d.mem.read key 8192) ((List.range 128).filter fun k => bad.getLsbD k)) d
  let n := r.sb - r.fb
  let d := d.areaWrite base 0xB8000 n (r.scratch.read r.fb n) (badSectors r.fb r.bad)
  let d := d.areaWrite base 0x224000 (n / 64) (r.full.foldl (fun v w => v + 2 ^ (w - r.fb / 8)) 0) []
  mine.foldl (fun d p => d.areaWrite base (0x230000 + p.2.val * 0x50040) imageBytes
    ((d.core c).acc[p.1.val].image.read 0 imageBytes) []) d
/-- The proxy lines that a stand has written go home, before a context that may have written them resumes on another (R311). -/
def standHome (d : Device) (stand : Nat) : Device :=
  (d.proxies.filter fun p => p.stand == stand && p.marks != 0).foldl (fun d p => d.writeHome p) d
/-- A context written to its save area and gone from its core: its frames first (R353, R365, R366). -/
def evict (d : Device) (c : Nat) (s : Fin 3) : Device :=
  let rk := resKey c s
  let d := (d.writeFrames rk (d.savedLatches rk)).standHome (c / 128)
  match d.res? rk with
  | none => d
  | some r => match d.launch? r.seq with
    | none => d
    | some l =>
      let d := d.writeArea c s r (saveBase l r.k)
      let mx := (d.mxOfRes rk).map (mapSlot (d.logicalSlot c))
      let gangs := d.gangsOf rk
      let harts := d.hartsOf rk
      let d := match d.siftOf c rk with
        | some f => d.setSifter c (.saving f)
        | none => d
      let d := d.freeRes rk
      d.modPlace r.seq r.k fun p =>
        { p with state := .saved, gangs := gangs, harts := harts, mx := mx, saved := r.saved, wdCount := r.wdCount
                 wdt := r.wdt, tvec := r.tvec, bad := r.bad }

/-- EVICTION does something. -/
def evictMoves (d : Device) (c : Nat) (s : Fin 3) : Bool :=
  d.wantsSlot c s && if (d.core c).issuing = some s then (d.core c).switch.isNone else d.quiet (resKey c s)
/-- One move of an eviction. -/
def evictStep (d : Device) (c : Nat) (s : Fin 3) : Device :=
  if (d.core c).issuing = some s then d.askSwitch c (d.bestOf c ((d.ableSlots c).filter fun t => t != s))
  else d.evict c s

/-! ### Admission (R71, R224, R397 to R399) -/

/-- A hart of a launch as its first admission creates it (R71, R399). -/
def newHart (l : Launch) (k : Nat) : Hart :=
  let v : List Word := l.record.args ++ [BitVec.ofNat 64 k, BitVec.ofNat 64 l.seq]
  { ({} : Hart) with x := Vector.ofFn fun (n : Fin 64) => if 2 ≤ n.val ∧ n.val < 7 then v.getD (n.val - 2) 0 else 0 }
/-- The gangs of a launch on one core: the first banks. -/
def gangBases (r : LaunchRec) : List Nat :=
  ((List.range 16).filter fun b => b % 2 ^ r.gl == 0 && r.hmask.getLsbD b)
/-- The residence of a placement on a core. -/
def newRes (l : Launch) (k : Nat) (now : Nat) : Residence :=
  let r := l.record
  { seq := l.seq, k := k, ctx := r.ctx, cls := r.cls, hmask := r.hmask, gl := r.gl, fb := frameBytes, sb := r.sb, cb := r.cb
    abase := r.abase, acount := r.acount, twl := r.twl, lwdt := r.lwdt, ltvec := r.ltvec, spilled := true
    wdt := BitVec.ofNat 64 r.wdtp, wdCount := r.wdtp * 1024, tvec := r.tvec, lastIssue := now }
/-- Logical slots bound on a core for a residence, the n-th of them to the n-th free slot. -/
def bindSlots (d : Device) (c rk : Nat) (int : Fin 6 → Bool) (l : List (Fin 6)) : Device :=
  l.foldl (fun d i => match d.freeSlot c with
    | some k => d.bindSlot c rk k i (int i)
    | none => d) d
/-- The banks of the harts of a residence are in use from its admission on: their refresh goes by its harts (R141). -/
def useBanks (d : Device) (c : Nat) (m : Mask16) : Device := (banksOf m).foldl (fun d b => d.modBank c b id) d
/-- A placement's first admission: its harts and gangs are created, and its accumulator claim is bound. -/
def createRes (d : Device) (l : Launch) (k c : Nat) (s : Fin 3) : Device :=
  let rk := resKey c s
  let r := l.record
  let n := 2 ^ r.gl
  let d := ((d.useBanks c r.hmask).dropHarts rk).setRes rk (newRes l k d.now)
  let d := (banksOf r.hmask).foldl (fun d h => d.setHart rk h (newHart l k)) d
  let d := (gangBases r).foldl (fun d b =>
    let m := gangMask b n
    d.setGang rk b { size := n, gm := m, live := m, pc := r.entry, entry := true }) d
  let d := d.writeFrames rk fun _ => latchFields {}
  d.bindSlots c rk (fun i => nbit r.aint i.val) ((List.finRange 6).filter fun i => nbit r.aclm i.val)
/-- A physical slot of a residence by its logical one. -/
def physicalSlot (d : Device) (c rk : Nat) (i : Fin 6) : Fin 6 := (d.slotOf c rk i).getD i
/-- A saved placement restored into a slot of a core (R365, R398). The records that its Sifter had spilled are those that the buffer
holds now (R347). -/
def restoreRes (d : Device) (l : Launch) (p : Placement) (c : Nat) (s : Fin 3) : Device :=
  let rk := resKey c s
  let base := saveBase l p.k
  let r := newRes l p.k d.now
  let n := r.sb - r.fb
  let d := [(0, 0x24000), (0x26000, 0x12000), (0x38000, 0x80000), (0xB8000, n), (0x224000, n / 64)].foldl
    (fun d q => d.areaTouch base q.1 q.2) d
  let tags := d.areaRead base 0x224000 (n / 64)
  let r := { r with
    frames := Memory.write [] 0 0x4000 (d.areaRead base 0 0x4000)
    scratch := Memory.write [] r.fb n (d.areaRead base 0xB8000 n)
    full := ((List.range (n / 8)).filter fun j => nbit tags j).map (r.fb / 8 + ·)
    bad := p.bad, saved := p.saved, mx := p.mx.map (MxEntry.inRes rk), wdt := p.wdt, wdCount := p.wdCount, tvec := p.tvec }
  let bound := d.savedSlots l p
  let d := ((d.useBanks c r.hmask).dropHarts rk).setRes rk r
  let d := p.harts.foldl (fun d q => d.setHart rk q.1 q.2) d
  let d := p.gangs.foldl (fun d q => d.setGang rk q.1 q.2) d
  let d := (List.range 64).foldl (fun d n =>
    let key := areaKey base (0x38000 + 0x2000 * n)
    let row := rowKey c (n / 4) (n % 4) (508 + s.val)
    (d.releaseFor row).rowWrite row (BitVec.ofNat 65536 (d.mem.read key 8192)) (d.rowPoison key)) d
  let ls := (List.finRange 6).filter fun i => nbit bound i.val
  let d := d.bindSlots c rk (fun _ => false) ls
  let d := ls.foldl (fun d i => d.modSlot c (d.physicalSlot c rk i) fun a =>
    loadedSlot a (Memory.write [] 0 imageBytes (d.areaRead base (0x230000 + i.val * 0x50040) imageBytes)) []) d
  let free := (d.freeSlots c).rotateLeft (Config.pickSlot d.now)
  let d := d.modRes rk fun r => { r with mx := claimSlots (d.physicalSlot c rk) free r.mx }
  match p.sift with
  | some f => d.setSifter c (.bound ({ f with res := rk }.resume d.now))
  | none => d
/-- A placement admitted to a slot of a core (R397 to R399); in reduced service it issues there at once (R419). -/
def placeIn (d : Device) (l : Launch) (p : Placement) (c : Nat) (s : Fin 3) : Device :=
  let d := if p.begun then d.restoreRes l p c s else d.createRes l p.k c s
  let d := d.modLaunch l.seq fun l =>
    { l with state := .running
             ran := insertN c l.ran
             places := l.places.map fun q =>
               if q.k = p.k then
                 { q with state := .resident c s, begun := true, moves := q.moves + 1, sift := none, gangs := [], harts := []
                          mx := [], saved := [], bad := [] }
               else q }
  let d := d.trimCache c (d.cacheLines c)
  if d.regs.rsvc then d.enterNow c s else d
/-- A placement that may be admitted to a slot of a core now. -/
def admits? (d : Device) (seq k c : Nat) (s : Fin 3) : Option (Launch × Placement) :=
  match d.launch? seq, d.place? seq k with
  | some l, some p => if (d.res? (resKey c s)).isNone && d.admitOk l p c none then some (l, p) else none
  | _, _ => none

/-! ### Debugger stops (R377) -/

/-- A switch out of the issuing context of a core comes first: one that is asked for, or one that is due (R373, R400). -/
def leaves (d : Device) (c : Nat) : Bool :=
  match (d.core c).issuing with
  | some s => (d.core c).switch.isSome || (d.class0Next c).isSome || (d.switchDue c).isSome || (d.quantumNext c).isSome
      || (d.idleNext c).isSome || d.wantsSlot c s
  | none => false
/-- A debugger stop of a context on a core is due: a switch out comes before it (R373). -/
def stopDue (d : Device) (rk : Nat) : Bool :=
  match d.res? rk with
  | some r => r.state == .resident && (r.stopReq || d.regs.stops.contains r.ctx.toNat)
      && ((d.core (resCore rk)).issuing != some (resSlot rk)
        || (d.drained (resCore rk) && !d.leaves (resCore rk)))
  | none => false
/-- A context stopped by the debugger at a boundary, its frames written. A running TMMA finishes its row (R230), and a replay goes on
only by its REPLAY (R80). -/
def debugStop (d : Device) (rk : Nat) : Device :=
  let c := resCore rk
  let d := if (d.core c).issuing = some (resSlot rk) then
      (((d.preempt rk).stopRows c rk).mapHarts rk settleHart).writeFrames rk (d.bankLatches c)
    else d.writeFrames rk (d.savedLatches rk)
  d.modRes rk fun r => { r with state := .stopped, stopReq := false }
/-- A stopped context resumed: its frames are read back, and, where its latches are in the banks, their records too. -/
def debugResume (d : Device) (rk : Nat) : Device :=
  let d := d.readFrames rk
  match d.res? rk with
  | none => d
  | some r =>
    let c := resCore rk
    let d := if (d.core c).issuing = some (resSlot rk) then
        (banksOf r.hmask).foldl (fun d b => (List.finRange 4).foldl (fun d g =>
          d.modGroup c b g fun x => Group.ofFrame (latchFrame r b g) x.latch.data x.latch.poison x) d) d
      else d
    d.modRes rk fun r => { r with state := .resident }

/-! ### Refresh of a bank's own (R140 to R143, R369) -/

/-- The debt of a group one higher; in program mode DLP is set as it reaches 8 (R140, R143). -/
def raiseDebt (now : Nat) (program : Bool) (x : Group) : Group :=
  if x.debt = 7 ∧ program = true then { x with debt := 8, dlp := some now } else { x with debt := min 8 (x.debt + 1) }
/-- The refresh-deadline trap made pending on the hart that owns the refresh of a bank (R143). -/
def refPend (d : Device) (c b : Nat) : Device :=
  match (d.core c).issuing with
  | some s => d.modHart (resKey c s) b fun t => { t with refTrap := true }
  | none => d
/-- A debt tick of a bank at its due time (R140, R143). -/
def debtTick (d : Device) (c b : Nat) : Device :=
  let program := (d.refThreshold c b).isNone
  let due := d.nextTick c b
  let d := if program && (d.bank c b).groups.toList.any (fun x => x.debt == 7) then d.refPend c b else d
  d.modBank c b fun k => { k with groups := k.groups.map (raiseDebt d.now program), lastTick := due, ticks := k.ticks + 1 }
/-- The pace of the debt ticks changes now: the one before is noted for the banks that nothing has used, and of the others a tick that
the new interval puts into the past falls now (R6, R140). -/
def repace (d e : Device) : Device :=
  { e with
    paces := d.pace :: d.paces
    banks := e.banks.map fun p =>
      if d.debtInterval (p.1 / 16) ≠ e.debtInterval (p.1 / 16) ∧ p.2.ticks ≠ 0 then
        (p.1, { p.2 with lastTick := max p.2.lastTick (d.now - e.debtInterval (p.1 / 16)) })
      else p }
/-- HOT of a stand set or cleared (R140). -/
def setHot (d : Device) (stand : Nat) (hot : Bool) : Device :=
  if d.hot.getLsbD stand = hot then d
  else d.repace { d with hot := if hot then d.hot ||| bitOf stand else d.hot &&& ~~~ bitOf stand }
/-- The plan of the service unit has a stand HOT: the last measurement of some group of it found less than twice the period (R418). -/
def planned (d : Device) (stand : Nat) : Bool := d.svc.any fun p => p.1 / 8192 == stand && p.2.weak
/-- HOT of a stand as its temperature and the plan have it (R140, R418). -/
def planHot (d : Device) (stand : Nat) : Device := d.setHot stand (d.warm.getLsbD stand || d.planned stand)
/-- The temperature of a stand passes the limit, or falls below it (R140). -/
def setWarm (d : Device) (stand : Nat) (warm : Bool) : Device :=
  { d with warm := if warm then d.warm ||| bitOf stand else d.warm &&& ~~~ bitOf stand }.planHot stand

/-! ### Precharges of a bank's own (R116, R132, R137, R312) -/

/-- A gang of the issuing context waits in a fence for the array write of a bank. -/
def fenceWaits (d : Device) (c b : Nat) : Bool :=
  match (d.core c).issuing with
  | some s => (d.gangsOf (resKey c s)).any fun p => match p.2.wait with
    | some w => match w.on with
      | .fence l => l.contains b
      | _ => false
    | none => false
  | none => false
/-- The precharge of a WBP is next for a group. -/
def closeNext (d : Device) (c b : Nat) (g : Lat) : Bool :=
  match (d.bank c b).rowQ.find? fun r => r.g == g with
  | some r => r.op == .close
  | none => false
/-- The bank starts a precharge of its own on a group now. -/
def ownPreDue (d : Device) (c b : Nat) (g : Lat) : Bool :=
  let x := d.group c b g
  (x.phy || x.pend.isSome) && x.pr ≤ d.now
    && (d.closeNext c b g || (d.fenceWaits c b && (x.pend.isSome || x.gs.isWriting))
        || (!d.releaseNext c b g && (d.bank c b).cols.any fun a => keyGroup a.pa == g))
/-- A precharge of the bank's own. -/
def ownPre (d : Device) (c b : Nat) (g : Lat) : Device :=
  let close := d.closeNext c b g
  let d := d.closeSense c b g d.now
  if close then d.modBank c b fun k => { k with rowQ := k.rowQ.filter fun r => !(r.g == g && r.op == .close) } else d

end Device

/-! ### Events -/

/-- CLASS_0_REQUEST: an able class-0 context asks for the core (R400). -/
def execClass0Request (core : Fin 2048) (s : State) : Out :=
  .next (s.modDev fun d => match d.class0Next core with
    | some t => d.askSwitch core (some t)
    | none => d)
/-- QUANTUM_EXPIRY: the issuing context yields to the next of its class; one that has aged stands by its class again (R400). -/
def execQuantumExpiry (core : Fin 2048) (s : State) : Out :=
  .next (s.modDev fun d => match d.quantumNext core, (d.core core).issuing with
    | some t, _ => d.askSwitch core (some t)
    | none, some s => if d.agedOver core then d.modRes (resKey core s) fun r => { r with aged := false } else d
    | none, none => d)
/-- IDLE_YIELD: an issuing context that has been unable for 512 ck yields (R400). -/
def execIdleYield (core : Fin 2048) (s : State) : Out :=
  .next (s.modDev fun d => match d.idleNext core with
    | some t => d.askSwitch core (some t)
    | none => d)
/-- AGEING_PROMOTION: a context that has waited long issues for one quantum ahead of every class but 0 (R400). -/
def execAgeingPromotion (core : Fin 2048) (slot : Fin 3) (s : State) : Out :=
  .next (s.modDev fun d =>
    if d.agesNow (resKey core slot) then d.modRes (resKey core slot) fun r => { r with aged := true } else d)
/-- CONTEXT_SWITCH (R367). -/
def execContextSwitch (core : Fin 2048) (s : State) : Out := .next (s.modDev fun d => d.switchStep core)
/-- EVICTION: a context whose slot is wanted switches out, if it issues, and goes to its save area (R364, R397). -/
def execEviction (core : Fin 2048) (slot : Fin 3) (s : State) : Out :=
  .next (s.modDev fun d => if d.evictMoves core slot then d.evictStep core slot else d)
/-- ADMISSION: a placement becomes resident (R397 to R399). -/
def execAdmission (seq : Nat) (k : Nat) (core : Fin 2048) (slot : Fin 3) (s : State) : Out :=
  .next (s.modDev fun d => match d.admits? seq k core slot with
    | some p => d.placeIn p.1 p.2 core slot
    | none => d)
/-- DEBUG_STOP: the gangs of a context on a core stop at one boundary (R377). -/
def execDebugStop (core : Fin 2048) (slot : Fin 3) (s : State) : Out :=
  .next (s.modDev fun d => if d.stopDue (resKey core slot) then d.debugStop (resKey core slot) else d)
/-- DEBUG_ARM: the host arms or disarms debugging for a context (R377, R414). -/
def execDebugArm (ctx : BitVec 12) (on : Bool) (s : State) : Out :=
  .next (s.modDev fun d => { d with regs := { d.regs with armed := putN on ctx.toNat d.regs.armed } })
/-- DEBUG_STOP_REQUEST: the host asks for a stop of a context that is armed (R377, R414). -/
def execDebugStopRequest (ctx : BitVec 12) (s : State) : Out :=
  .next (s.modDev fun d =>
    if d.regs.armed.contains ctx.toNat then { d with regs := { d.regs with stops := insertN ctx.toNat d.regs.stops } } else d)
/-- DEBUG_RESUME: the stopped gangs of a context resume from their frames (R377). -/
def execDebugResume (ctx : BitVec 12) (s : State) : Out :=
  .next (s.modDev fun d =>
    let l := d.ress.filter fun p => p.2.ctx == ctx && p.2.state == .stopped
    let d := l.foldl (fun (d : Device) (p : Nat × Residence) => d.debugResume p.1) d
    { d with regs := { d.regs with stops := eraseN ctx.toNat d.regs.stops } })
/-- DEBT_TICK (R140). -/
def execDebtTick (core : Fin 2048) (bank : Fin 16) (s : State) : Out :=
  .next (s.modDev fun d => if d.nextTick core bank ≤ d.now then d.debtTick core bank else d)
/-- HOT_CHANGE: the temperature of a stand passes the limit or falls below it; a stand that the plan has HOT stays so (R140, R418). -/
def execHotChange (stand : Fin 16) (hot : Bool) (s : State) : Out := .next (s.modDev fun d => d.setWarm stand.val hot)
/-- AUTO_REF_INSERT (R142). -/
def execAutoRefInsert (core : Fin 2048) (bank : Fin 16) (g : Lat) (s : State) : Out :=
  .next (s.modDev fun d => if d.autoRefDue core bank g && d.insertTime core bank g ≤ d.now then d.insertRef core bank g else d)
/-- FORCED_REFRESH: one REF of a forced refresh, which is counted as it begins (R143, R418). -/
def execForcedRefresh (core : Fin 2048) (bank : Fin 16) (g : Lat) (s : State) : Out :=
  .next (s.modDev fun d => if d.forcedDue core bank g && d.insertTime core bank g ≤ d.now then d.forceRef core bank g else d)
/-- BANK_OWN_PRECHARGE (R137). -/
def execBankOwnPrecharge (core : Fin 2048) (bank : Fin 16) (g : Lat) (s : State) : Out :=
  .next (s.modDev fun d => if d.ownPreDue core bank g then d.ownPre core bank g else d)

end Sys2Proof.Machine
end

