-- ==== Sys2Proof/Machine/Traps.lean ====
section
/-! DEFINITION. The traps that fall due at a convoy boundary, and the watchdog (R143, R327, R369, R373, R378, R379). -/

namespace Sys2Proof.Machine

/-! ### Traps at a convoy boundary (R143, R327, R373, R379) -/

namespace Device

/-- A trap may be taken by a gang of the issuing context now: it is at a convoy boundary, and neither a switch nor a debugger
stop comes first (R373). -/
def canTrap (d : Device) (rk : Nat) (g : Gang) : Bool :=
  !g.ended && g.gm != 0 && g.faults.isEmpty && !d.leaves (resCore rk)
    && match d.res? rk with
      | some r => r.state == .resident && !r.stopReq && !(d.regs.stops.contains r.ctx.toNat)
      | none => false
/-- A pending software trap taken (R384, R406): the oldest of each hart that has one. Several of one hart are taken one after the
other, which the spec does not say: DESIGN CHOICE (log 59). -/
def trapSoft (d : Device) (rk base : Nat) (g : Gang) : Option Device :=
  let l := (banksOf g.gm).filterMap fun h => (d.hart rk h).swTraps.head?.map fun t => (h, t)
  match l with
  | [] => none
  | p :: _ =>
    let fails : List (Nat × Fail) := l.map fun q => (q.1, { cause := q.2.cause, tval := q.2.tval, sw := q.2.sw })
    let d := (banksOf g.gm).foldl (fun d h => d.modHart rk h fun t => { t with swTraps := t.swTraps.drop 1 }) d
    some (d.takeTrap rk base p.2.tpc fails)
/-- A pending watchdog trap taken (R379). -/
def trapDog (d : Device) (rk base : Nat) (g : Gang) : Option Device :=
  g.wdTrap.map fun v =>
    (d.setGang rk base { g with wdTrap := none }).takeTrap rk base g.pc
      ((banksOf g.gm).map fun h => (h, { cause := 0x13, tval := v }))
/-- The groups of a bank with DLP set, as TVAL of 0x0A (R143). -/
def dlpMask (d : Device) (c b : Nat) : Nat :=
  (List.finRange 4).foldl (fun v g => if (d.group c b g).dlp.isSome then v + 2 ^ g.val else v) 0
/-- A pending refresh-deadline trap taken (R143): a hart fails for which it is pending, or in whose bank a group has DLP set. Of a hart
whose DLP has been cleared since, as in a switch out, TVAL names no group: DEDUCED (log 60). -/
def trapRefresh (d : Device) (rk base : Nat) (g : Gang) : Option Device :=
  let c := resCore rk
  let act := banksOf g.gm
  if act.any fun h => (d.hart rk h).refTrap then
    let bad := act.filter fun h => (d.hart rk h).refTrap || d.dlpAny c h
    let e := act.foldl (fun e h => e.modHart rk h fun t => { t with refTrap := false }) d
    some (e.takeTrap rk base g.pc (bad.map fun h => (h, failAt 0x0A (d.dlpMask c h))))
  else none
/-- A pending engine trap taken (R327). -/
def trapEngine (d : Device) (rk base : Nat) (g : Gang) : Option Device :=
  ((banksOf g.gm).findSome? fun h => (d.hart rk h).engTraps.head?.map fun t => (h, t)).map fun p =>
    (d.modHart rk p.1 fun t => { t with engTraps := t.engTraps.drop 1 }).takeTrap rk base g.pc
      [(p.1, { cause := p.2.cause, tval := p.2.tval })]
/-- An active hart of a gang runs a handler (R373). -/
def handling (d : Device) (rk : Nat) (g : Gang) : Bool := (banksOf g.gm).any fun h => (d.hart rk h).hm
/-- The trap that a gang takes at its boundary, in the order of R373. -/
def dueTrap (d : Device) (rk base : Nat) (g : Gang) : Option Device :=
  if !d.canTrap rk g then none
  else match d.trapSoft rk base g with
    | some e => some e
    | none => match d.trapDog rk base g with
      | some e => some e
      | none =>
        if d.handling rk g then none
        else match d.trapRefresh rk base g with
          | some e => some e
          | none => d.trapEngine rk base g

end Device

/-- A trap event at the gang of a bank: what it does when it is due. -/
def trapEvent (core bank : Nat) (f : Device → Nat → Nat → Gang → Option Device) (s : State) : Out :=
  .next (s.modDev fun d => match d.gangAt core bank with
    | some (rk, base, g) => if d.canTrap rk g then (f d rk base g).getD d else d
    | none => d)
/-- SOFTWARE_TRAP_TAKEN: a pending software trap is taken (R373, R384). -/
def execSoftwareTrapTaken (core : Fin 2048) (bank : Fin 16) (s : State) : Out := trapEvent core bank Device.trapSoft s
/-- WATCHDOG_TRAP_TAKEN: a pending watchdog trap is taken, after a software trap (R373, R379). -/
def execWatchdogTrapTaken (core : Fin 2048) (bank : Fin 16) (s : State) : Out :=
  trapEvent core bank (fun d rk base g => if (d.trapSoft rk base g).isSome then none else d.trapDog rk base g) s
/-- The traps that a running handler does not keep off are not due (R373). -/
def Device.clearOf (d : Device) (rk base : Nat) (g : Gang) : Bool :=
  (d.trapSoft rk base g).isNone && (d.trapDog rk base g).isNone && !d.handling rk g
/-- REFRESH_DEADLINE_TRAP: a pending refresh-deadline trap is taken (R143, R373). -/
def execRefreshDeadlineTrap (core : Fin 2048) (bank : Fin 16) (s : State) : Out :=
  trapEvent core bank (fun d rk base g => if d.clearOf rk base g then d.trapRefresh rk base g else none) s
/-- ENGINE_TRAP_TAKEN: a pending engine trap is taken (R327, R373). -/
def execEngineTrapTaken (core : Fin 2048) (bank : Fin 16) (s : State) : Out :=
  trapEvent core bank (fun d rk base g =>
    if d.clearOf rk base g && (d.trapRefresh rk base g).isNone then d.trapEngine rk base g else none) s
/-- The watchdog of a residence stands at 0. One that counts down is loaded anew as it reaches 0, in the same ck (`Device.elapse`); a
count of 0 comes from a frame that the host has written (R377, R379). -/
def Residence.wdOut (r : Residence) : Bool := wdPeriod r.wdt != 0 && r.wdCount == 0
/-- WATCHDOG_EXPIRY: the count is loaded anew, and a watchdog trap is pending for every gang of the context on the core
(R379). -/
def execWatchdogExpiry (core : Fin 2048) (slot : Fin 3) (s : State) : Out :=
  .next (s.modDev fun d =>
    let rk := resKey core slot
    match d.res? rk with
    | some r =>
      if r.wdOut then (d.setRes rk (r.setWdt r.wdt)).wdExpire (rk, r) else d
    | none => d)

end Sys2Proof.Machine
end

