-- ==== Sys2Proof/Machine/HostIf.lean ====
section
/-! DEFINITION. The host's registers and windows, the fabric, power, service and bring-up (R6, R123, R124, R278, R280 to R282,
R408 to R419). -/

namespace Sys2Proof.Machine

namespace Device

/-! ### The package reset (R408, R419) -/

/-- What a reset keeps of the service unit: the history of the measurements, with the last of them (R418). -/
def keptSvc (v : SvcCount) : SvcCount := { weak := v.weak, history := v.history }
/-- The package after a write of GO: everything as after reset but the memory of the host and of other packages, the history of the
service unit with its plan, and the temperature of the stands. -/
def afterReset (d : Device) : Device :=
  { ({} : Device) with
    host := d.host, mem := d.mem.filter (fun c => 2 ^ 60 ≤ c.1), memBad := d.memBad.filter fun s => 2 ^ 60 ≤ 64 * s
    svc := d.svc.map fun p => (p.1, keptSvc p.2), hot := d.hot, warm := d.warm }
/-- A write of DEVRST (R409). -/
def devrst (d : Device) (v : Word) : Device :=
  if v.toNat / 4 ≠ 0 then d.setHwd
  else if v.getLsbD 0 then d.afterReset
  else { d with regs := { d.regs with place := v.getLsbD 1 } }

/-! ### Registers (R409, R414, R415) -/

/-- Error bits cleared by ones (R409). -/
def clearErr (d : Device) (v : Word) : Device :=
  { d with regs := { d.regs with hwd := d.regs.hwd && !v.getLsbD 0, rlost := d.regs.rlost && !v.getLsbD 1
                                 flfull := d.regs.flfull && !v.getLsbD 2 } }
/-- WINBASE (R409). -/
def setWinbase (d : Device) (v : Word) : Device :=
  if v.toNat % 2 ^ 36 ≠ 0 || v.toNat / 2 ^ 60 ≠ 0 then d.setHwd else { d with regs := { d.regs with winbase := v } }
/-- RTBASE (R414). -/
def setRtbase (d : Device) (v : Word) : Device :=
  if v.toNat % 2 ^ 12 ≠ 0 then d.setHwd else { d with regs := { d.regs with rtbase := v } }
/-- PVIEW (R414). -/
def setPview (d : Device) (v : Word) : Device :=
  if v.toNat / 2 ^ 12 ≠ 0 then d.setHwd else { d with regs := { d.regs with pview := BitVec.ofNat 12 v.toNat } }
/-- TINV (R414). -/
def setTinv (d : Device) (v : Word) : Device :=
  if d.regs.tinvRun then d.setHwd else { d with regs := { d.regs with tinv := v, tinvSet := true } }
/-- TINVL: the invalidation starts (R414). -/
def setTinvl (d : Device) (v : Word) : Device :=
  if d.regs.tinvRun || !d.regs.tinvSet then d.setHwd
  else { d with regs := { d.regs with tinvl := v, tinvSet := false, tinvRun := true } }
/-- The invalidation under way names an entry of a translation cache (R280, R414). -/
def tinvHits (d : Device) (e : AtcEntry) : Bool :=
  let t := d.regs.tinv.toNat
  nbit t 12 || (e.ctx.toNat == t % 2 ^ 12 && e.va < t / 2 ^ 16 * 2 ^ 16 + d.regs.tinvl.toNat
    && t / 2 ^ 16 * 2 ^ 16 < e.va + 2 ^ e.log)
/-- A request on its way to a bank may have been translated by an entry that the invalidation names: its context is the one named
(R280). -/
def tinvSent (d : Device) (q : RedReq) : Bool :=
  match d.res? q.res with
  | some r => nbit d.regs.tinv.toNat 12 || r.ctx.toNat == d.regs.tinv.toNat % 2 ^ 12
  | none => q.res < 3 * Config.cores
/-- An access that used a translation which the invalidation names has not been performed: an accumulator transfer, or a reduction
(R280). -/
def tinvBusy (d : Device) : Bool :=
  d.transfers.any (fun x => x.pages.any d.tinvHits) || d.portQ.any d.tinvSent
/-- The invalidation completes: its entries are dropped, and TINVS counts it. -/
def tinvDone (d : Device) : Device :=
  { d with
    cores := d.cores.map fun p => (p.1, { p.2 with atc := p.2.atc.filter fun e => !d.tinvHits e })
    regs := { d.regs with tinvRun := false, tinvs := d.regs.tinvs + 1 } }
/-- Some launch is RUNNING (R392). -/
def anyRunning (d : Device) : Bool := d.launches.any fun l => d.stateOf l == .running
/-- A write of a fabric register (R415). -/
def setFabric (d : Device) (r : FabricReg) (v : Word) : Device :=
  if d.anyRunning then d.setHwd
  else
    let n := v.toNat % 2 ^ 21
    { d with fabric := match r with
      | .device => { d.fabric with dev := n }
      | .board => { d.fabric with board := v.toNat }
      | .pod => { d.fabric with pod := v.toNat }
      | .fsize => { d.fabric with fsize := n }
      | .route i => { d.fabric with routes := d.fabric.routes.set i.val v } }

/-- A fabric register as the host reads it. -/
def fabricVal (d : Device) : FabricReg → Word
  | .device => BitVec.ofNat 64 d.fabric.dev
  | .board => BitVec.ofNat 64 d.fabric.board
  | .pod => BitVec.ofNat 64 d.fabric.pod
  | .fsize => BitVec.ofNat 64 d.fabric.fsize
  | .route i => d.fabric.routes[i.val]
/-- Bits in their places, lowest first. -/
def bitsNat (l : List Bool) : Nat := l.foldr (fun b v => b.toNat + 2 * v) 0
/-- IDR, ERRST and DEVRST as the host reads them (R409). -/
def idr (r : HostRegs) : Nat := r.form.toNat + bitsNat [false, false, r.menan, r.rsvc] + r.stepping.toNat * 2 ^ 8
def errst (r : HostRegs) : Nat := bitsNat [r.hwd, r.rlost, r.flfull] + r.redp % 2 ^ 16 * 2 ^ 16
def devrstVal (r : HostRegs) : Nat := bitsNat [false, r.place]
/-- The ring whose registers stand at an offset, and the offset among them (R395, R408, R410). -/
def ringAt (o : Nat) : Option (RingId × Nat) :=
  if 0x11000 ≤ o && o < 0x11100 && o % 64 < 32 then
    some (.queue ⟨(o - 0x11000) / 64 % 4, Nat.mod_lt _ (by decide)⟩, o % 64)
  else if 0x20000 ≤ o && o < 0x20020 then some (.journal, o - 0x20000)
  else if 0x30000 ≤ o && o < 0x30020 then some (.faultLog, o - 0x30000)
  else none
/-- A register of a ring (R395). -/
def ringVal (r : Ring) (o : Nat) : Nat :=
  if o = 0 then r.base.toNat else if o = 8 then r.log else if o = 0x10 then r.head else r.tail
/-- A host read of BAR0 (R10, R408, R409, R413, R414): fields that are RZF or RIG read zero, and so does an offset that names no
register. The spec gives no read column for FRES and the debug registers: FRES reads zero, and a debug register reads whether its
context is armed and whether a stop is requested (log 13). -/
def regVal (d : Device) (o : Nat) : Nat :=
  let r := d.regs
  if o % 8 ≠ 0 then 0
  else match ringAt o with
  | some q => ringVal (d.ring q.1) q.2
  | none =>
    if o = 0x0 then idr r else if o = 0x8 then errst r else if o = 0x10 then r.winbase.toNat
    else if o = 0x18 then devrstVal r
    else if o = 0x10000 then r.tqseq.toNat else if o = 0x10008 then r.tqres.toNat
    else if o = 0x40000 then r.rtbase.toNat else if o = 0x40008 then r.tinv.toNat
    else if o = 0x40010 then r.tinvl.toNat else if o = 0x40018 then r.tinvs
    else if 0x70000 ≤ o && o < 0x78000 then
      bitsNat [r.armed.contains ((o - 0x70000) / 8), r.stops.contains ((o - 0x70000) / 8)]
    else if o = 0x78000 then r.pview.toNat
    else 0
/-- The bytes of numbers of 64 bits, one after the other. -/
def wordBytes (l : List Nat) : List Byte := l.flatMap fun v => (List.range 8).map fun k => BitVec.ofNat 8 (v / 2 ^ (8 * k))

/-! ### BAR2 and BAR4 (R408, R414) -/

/-- Bytes at a physical address as the host reads them, one line after another: none when a sector is poisoned (R125). -/
def hostRead (d : Device) (pa n : Nat) : Device × Option (List Byte) :=
  (chunks pa n).foldl (fun (x : Device × Option (List Byte)) (c : Nat × Nat) =>
    let r := x.1.colRead (x.1.stor c.1) c.2
    let v := if x.1.stor c.1 = .nothing then freeBytes d.now c.1 c.2 else r.2.1
    (r.1, if r.2.2 then none
          else x.2.map fun l => l ++ (List.range c.2).map fun k => BitVec.ofNat 8 (v / 2 ^ (8 * k)))) (d, some [])
/-- Bytes written by the host at a physical address (R125). -/
def hostWrite (d : Device) (pa : Nat) (bytes : List Byte) : Device :=
  (chunks pa bytes.length).foldl (fun (d : Device) (c : Nat × Nat) =>
    d.colWrite (d.stor c.1) c.2 (bytesNat ((bytes.drop (c.1 - pa)).take c.2))) d
/-- What the host has read. -/
def answer (d : Device) (l : Option (List Byte)) : Device := { d with regs := { d.regs with reply := l } }
/-- Where BAR4 leads: the residence of the viewed context on a core, and an offset of its pool window (R414). -/
def bar4Place (d : Device) (off : Nat) : Option (Nat × Residence × Nat) :=
  let o := off % 2 ^ 21
  if 0x180000 ≤ o then none
  else ((d.resOfCore (off / 2 ^ 21)).find? fun p => p.2.ctx == d.regs.pview).map fun p =>
    (resKey (off / 2 ^ 21) p.1, p.2, o / 8 * 8)
/-- A host read through BAR4. -/
def bar4Read (d : Device) (off : Nat) : Device :=
  let bytes (v : Nat) : List Byte := (List.range 8).map fun k => BitVec.ofNat 8 (v / 2 ^ (8 * k))
  match d.bar4Place off with
  | none => d.answer (some (bytes 0))
  | some (_, r, o) =>
    if o < r.fb then d.answer (some (bytes (r.frames.read o 8)))
    else if o < r.sb then
      let v := r.read o 8
      d.answer (if v.2 then none else some (bytes v.1))
    else d.answer (some (bytes (freeBytes d.now o 8)))
/-- A host write through BAR4. -/
def bar4Write (d : Device) (off : Nat) (v : Word) : Device :=
  match d.bar4Place off with
  | none => d.setHwd
  | some (rk, r, o) =>
    if o < r.fb then d.modRes rk fun r => { r with frames := r.frames.write o 8 v.toNat }
    else if o < r.sb then d.modRes rk fun r => r.write o 8 v.toNat
    else d.setHwd

/-! ### The fabric (R282, R415) -/

/-- A reduction or an atomic of another package comes to its port: it is accepted if it is its turn, and waits there otherwise
(R286, R287). An agent of another package is kept apart from the residences of this one by its number. -/
def atPort (d : Device) (src : Nat) (cls : Fin 4) (atomic : Bool) (op : AOp) (e : RedElt) (parts : List (Nat × Nat)) : Device :=
  let q : RedReq := { res := 3 * Config.cores + src, bank := 0, op := op, elt := e, parts := parts, sent := d.now, cls := cls.val
                      rank := fabricRank cls.val src, atomic := atomic }
  let d := { d with portQ := d.portQ ++ [q] }
  let k := d.portQ.length - 1
  match d.redComes k with
  | none => d
  | some q => if d.redTakes q then { d with portQ := dropIdx k d.portQ }.redAccept q else { d with portQ := d.portQ.set k q }
/-- The element of a reduction of another package's REDV, where the pair of type and operation is one (R295). -/
def lineElt (t : RedvType) (op : AOp) : Option RedElt :=
  match t with
  | .i32 => redvElt .i32 op
  | .i64 => redvElt .i64 op
  | .f32 => redvElt .f32 op
  | .bf16 => redvElt .bf16 op
/-- A request of another package performed at a bank of this one, or put to its port. -/
def arrive (d : Device) (src : Nat) (cls : Fin 4) (q : FabricReq) : Device :=
  match q with
  | .read pa n => (d.hostRead pa.toNat n).1
  | .write pa bytes => d.hostWrite pa.toNat bytes
  | .amo op w pa b => d.atPort src cls true op (wordElt op w) [(pa.toNat, b.toNat)]
  | .cas z pa cmp new => d.atPort src cls true .cas (.cas (casBytes z) cmp.toNat) [(pa.toNat, new.toNat)]
  | .red op w pa b => d.atPort src cls false op (wordElt op w) [(pa.toNat, b.toNat)]
  | .redv op t pa parts => match lineElt t op with
    | some e => d.atPort src cls false op e
        ((parts.filter fun p => p.1.val * e.bytes < 64).map fun p => (pa.toNat / 64 * 64 + p.1.val * e.bytes, p.2.toNat))
    | none => d
/-- A reduction that is on its way to another package. -/
def sentAway (d : Device) (q : RedReq) : Bool :=
  match d.redStor q with
  | .dram key => 2 ^ 39 ≤ key
  | _ => false
/-- The places of the reductions that are on their way to another package. -/
def awayReds (d : Device) : List Nat :=
  (List.range d.portQ.length).filter fun k => match d.portQ[k]? with
    | some q => d.sentAway q
    | none => false
/-- A request to another package is dropped (R415): a reduction on its way there is lost and its hart waits for it no more, or the next
read or write gets no reply. Which one it is is a free value (log 44). -/
def dropRequest (d : Device) : Device :=
  let l := d.awayReds
  match l[Config.timedOut d.now % (l.length + 1)]? with
  | none => { d with fabric := { d.fabric with mute := true } }
  | some k => match d.portQ[k]? with
    | some q => ({ d with portQ := dropIdx k d.portQ }.redCounted q.res q.bank).setLost
    | none => d

/-! ### Power, service and bring-up (R416 to R419) -/

/-- A window of the power budget begins: every core receives its share, and carries over at most one (R417). The average power is kept
at or below PLIM, and the energy of the last window is counted (R416). -/
def openWindow (d : Device) : Device :=
  let share := Config.powerShare d.power.plim
  let t := Config.telemetry d.now
  { d with
    cores := d.cores.map fun p => (p.1, { p.2 with credit := p.2.credit.map fun (v : Int) => min v share + share })
    power := { d.power with idle := min d.power.idle share + share, windows := d.power.windows + 1
                            average := min t.1 d.power.plim, energy := d.power.energy + t.2 } }
/-- What the mailbox gives of a group: its counters, whether its stand is planned as HOT, and the history of its measurements, the
newest first (R418). -/
def svcBytes (hot : Bool) (v : SvcCount) : List Byte :=
  wordBytes [v.corrected, v.poisoned, v.forced, v.weak.toNat, hot.toNat, v.history.length]
    ++ v.history.map fun b => BitVec.ofNat 8 b.toNat
/-- Retention of a group measured on its test row, a class-3 column access; the stand is HOT as the plan and its temperature have it
(R137, R418). -/
def measure (d : Device) (c b : Nat) (g : Lat) (weak : Bool) : Device :=
  let d := d.releaseFor (rowKey c b g.val 511) 3
  (d.modSvc c b g fun v => { v with weak := weak, history := weak :: v.history }).planHot (c / 128)
/-- A row tag as the host sets it; spill rows and the test row stay raw (R121, R123). -/
def setRowTag (d : Device) (c b : Nat) (g : Lat) (row : Nat) (tag : BitVec 4) : Device :=
  let key := groupKey c b g * 512 + row
  if Config.allottable ≤ row then d.setHwd
  else { d with rowTags := if tag = 15 then eraseK key d.rowTags else insertK key tag.toNat d.rowTags }

end Device

/-! ### Events -/

/-- TINV (R414). -/
def execTinv (v : Word) (s : State) : Out := .next (s.modDev fun d => d.setTinv v)
/-- TINVL (R414). -/
def execTinvl (v : Word) (s : State) : Out := .next (s.modDev fun d => d.setTinvl v)
/-- TRANSLATION_INVALIDATION_DONE (R280). -/
def execTranslationInvalidationDone (s : State) : Out :=
  .next (s.modDev fun d => if d.regs.tinvRun && !d.tinvBusy then d.tinvDone else d)
/-- ERRST_CLEAR (R409). -/
def execErrstClear (v : Word) (s : State) : Out := .next (s.modDev fun d => d.clearErr v)
/-- DEVICE_RESET: a write of 1 to GO (R408). -/
def execDeviceReset (s : State) : Out := .next { s with dev := s.dev.afterReset, iss := {} }
/-- PLACE_ENABLE: a write of DEVRST (R409, R419). -/
def execPlaceEnable (v : Word) (s : State) : Out := .next (s.modDev fun d => d.devrst v)
/-- PLIM: a write, or a read of PLIM and of what PTEL holds (R416; log 13). -/
def execPlim (v : Option Word) (s : State) : Out :=
  .next (s.modDev fun d => match v with
    | some v => { d with power := { d.power with plim := min v.toNat 3600 } }
    | none => d.answer (some (Device.wordBytes [d.power.plim, d.power.average, d.power.energy])))
/-- FABRIC_CONFIG_WRITE: a write of a register of the fabric block, or a read (R415; log 13). -/
def execFabricConfigWrite (r : FabricReg) (v : Option Word) (s : State) : Out :=
  .next (s.modDev fun d => match v with
    | some v => d.setFabric r v
    | none => d.answer (some (Device.wordBytes [(d.fabricVal r).toNat])))
/-- HOST_BAR2_READ (R408). -/
def execHostBar2Read (off : BitVec 36) (n : Nat) (s : State) : Out :=
  .next (s.modDev fun d =>
    let r := d.hostRead (d.regs.winbase.toNat + off.toNat) n
    r.1.answer r.2)
/-- HOST_BAR2_WRITE (R408). -/
def execHostBar2Write (off : BitVec 36) (bytes : List Byte) (s : State) : Out :=
  .next (s.modDev fun d => d.hostWrite (d.regs.winbase.toNat + off.toNat) bytes)
/-- HOST_BAR4_ACCESS (R414). -/
def execHostBar4Access (off : BitVec 32) (write : Option Word) (s : State) : Out :=
  .next (s.modDev fun d => match write with
    | some v => d.bar4Write off.toNat v
    | none => d.bar4Read off.toNat)
/-- LINK_RESET: the link is retrained and nothing else changes (R408). -/
def execLinkReset (s : State) : Out := .next s
/-- SERVICE_MAILBOX: the host reads the counters of a group (R418). -/
def execServiceMailbox (core : Fin 2048) (bank : Fin 16) (g : Lat) (s : State) : Out :=
  .next (s.modDev fun d => d.answer (some (Device.svcBytes (d.planned (core.val / 128)) (lookupD {} (groupKey core bank g) d.svc))))
/-- FABRIC_ARRIVAL (R282, R287). -/
def execFabricArrival (src : FabricAgent) (req : FabricReq) (s : State) : Out :=
  .next (s.modDev fun d => d.arrive src.dev.toNat src.cls req)
/-- LINK_FAILURE: a link goes out of service, and the service vector is raised (R415). -/
def execLinkFailure (link : Fin 32) (s : State) : Out :=
  .next (s.modDev fun d => { d with fabric := { d.fabric with down := insertN link.val d.fabric.down } }.notify 3)
/-- FABRIC_REQUEST_TIMEOUT: a request is dropped (R415). -/
def execFabricRequestTimeout (s : State) : Out := .next (s.modDev Device.dropRequest)
/-- BUDGET_WINDOW: a window of 1024 ck begins (R417). -/
def execBudgetWindow (s : State) : Out :=
  .next (s.modDev fun d => if d.power.windows ≤ d.now / 1024 then d.openWindow else d)
/-- RETENTION_MEASUREMENT (R418). -/
def execRetentionMeasurement (core : Fin 2048) (bank : Fin 16) (g : Lat) (weak : Bool) (s : State) : Out :=
  .next (s.modDev fun d => if d.colFree core bank { pa := rowKey core bank g.val 511, kind := .read 64, cls := 3 } then
    d.measure core bank g weak else d)
/-- TRAINING_COMPLETE: training has finished its measurements (R419). -/
def execTrainingComplete (s : State) : Out := .next (s.modDev fun d => if d.regs.rsvc then { d with trained := true } else d)
/-- FULL_SERVICE_ENTRY: with no launch running, reduced service ends (R419), and with it the pace of its debt ticks; no tick falls earlier
by that (R6). -/
def execFullServiceEntry (s : State) : Out :=
  .next (s.modDev fun d =>
    if d.regs.rsvc && d.trained && !d.anyRunning then
      { d with regs := { d.regs with rsvc := false }, paces := d.pace :: d.paces }.notify 3
    else d)
/-- ROW_TAG_WRITE (R123, R278). -/
def execRowTagWrite (core : Fin 2048) (bank : Fin 16) (g : Lat) (row : Fin 512) (tag : BitVec 4) (s : State) : Out :=
  .next (s.modDev fun d => d.setRowTag core bank g row.val tag)

/-! ### A host write by its offset (R408) -/

/-- A write of a debug register: arm, stop and resume (R377, R414). -/
def debugWrite (ctx : BitVec 12) (v : Word) (s : State) : Out :=
  match execDebugArm ctx (v.getLsbD 0) s with
  | .next s => match (if v.getLsbD 1 then execDebugStopRequest ctx s else .next s) with
    | .next s => if v.getLsbD 2 then execDebugResume ctx s else .next s
    | o => o
  | o => o
/-- A write of FRES; action 3 is reserved (R412). -/
def fresWrite (v : Word) (s : State) : Out :=
  let seq := v.extractLsb' 0 62
  match v.toNat / 2 ^ 62 with
  | 0 => execFresRetry seq s
  | 1 => execFresDeliver seq s
  | 2 => execFresEnd seq s
  | _ => .next (s.modDev Device.setHwd)
/-- A write of a ring's register, by its offset in the ring: the base, the size, HEAD or TAIL. -/
def ringWrite (r : RingId) (o : Nat) (v : Word) (s : State) : Out :=
  if o = 0 then execQbase r v s
  else if o = 8 then execQsize r v s
  else match r with
    | .queue c => if o = 0x18 then execQtail c v s else .next s
    | r => if o = 0x10 then headWrite r v s else .next s
/-- A write of a register that is read only: nothing changes (R10). -/
def readOnly : List Nat := [0x00000, 0x10008, 0x40018]
/-- A host write of 64 bits at an offset of BAR0; an offset that names no register sets HWD (R408). -/
def bar0Write (o : Nat) (v : Word) (s : State) : Out :=
  if readOnly.contains o then .next s
  else if o = 0x8 then execErrstClear v s
  else if o = 0x10 then .next (s.modDev fun d => d.setWinbase v)
  else if o = 0x18 then execPlaceEnable v s
  else if o = 0x10000 then execTqseq v s
  else if 0x11000 ≤ o && o < 0x11100 && o % 8 == 0 && o % 64 < 32 then
    ringWrite (.queue ⟨(o - 0x11000) / 64 % 4, Nat.mod_lt _ (by decide)⟩) (o % 64) v s
  else if 0x20000 ≤ o && o < 0x20020 && o % 8 == 0 then ringWrite .journal (o - 0x20000) v s
  else if 0x30000 ≤ o && o < 0x30020 && o % 8 == 0 then ringWrite .faultLog (o - 0x30000) v s
  else if o = 0x30020 then fresWrite v s
  else if o = 0x40000 then .next (s.modDev fun d => d.setRtbase v)
  else if o = 0x40008 then execTinv v s
  else if o = 0x40010 then execTinvl v s
  else if 0x70000 ≤ o && o < 0x78000 && o % 8 == 0 then debugWrite (BitVec.ofNat 12 ((o - 0x70000) / 8)) v s
  else if o = 0x78000 then .next (s.modDev fun d => d.setPview v)
  else .next (s.modDev Device.setHwd)
/-- REGISTER_WRITE: a host access of 64 bits at an offset of BAR0 (R10, R408). -/
def execRegisterWrite (off : BitVec 20) (v : Option Word) (s : State) : Out :=
  match v with
  | some v => bar0Write off.toNat v s
  | none => .next (s.modDev fun d => d.answer (some (Device.wordBytes [d.regVal off.toNat])))

end Sys2Proof.Machine
end

