-- ==== Sys2Proof/Machine/Issue.lean ====
section
/-! DEFINITION. One step: the next word of the convoy being executed, an event, or the issue of a gang's next convoy, with
the order of service at a convoy boundary (R30, R31, R38, R65, R66, R79, R373, R417). -/

namespace Sys2Proof.Machine

/-! ### Issue (R38, R65, R79) -/

/-- The meaning of the next word of the convoy. -/
def runHead (exec : Instr → State → Out) (s : State) : Out :=
  match s.iss.rest with
  | [] => .next s.endConvoy
  | w :: l =>
    let s := { s with iss := { s.iss with rest := l } }
    match decode w with
    | .ok i => exec i s
    | .error _ => .next ((s.failAll { cause := 0x01, tval := s.iss.addr }).endConvoy)
/-- The gang fails before its convoy begins: the checks of phases 1 and 2, of every active hart (R38). -/
def failIssue (s : State) (rk base : Nat) (g : Gang) (f : Fail) : Out :=
  let d := (s.dev.modCore (resCore rk) fun c => { c with last := base }).yielded rk base
  .next { s with dev := (d.takeFails rk base g.pc ((banksOf g.gm).map fun h => (h, f))).tick, iss := {} }
/-- A convoy begins, from its first word. -/
def beginConvoy (exec : Instr → State → Out) (s : State) (core : Nat) (slot : Fin 3) (base : Nat)
    (addr : Word) (ws : List IWord) (replay : Bool) : Out :=
  runHead exec { s with
    dev := { s.dev with turn := core }
    iss := { core := core, slot := slot, base := base, addr := addr, rest := ws, replay := replay } }
/-- The next body convoy of a replay; a capture that is gone makes the REPLAY execute again (R79, R80). -/
def issueReplay (exec : Instr → State → Out) (s : State) (core : Nat) (slot : Fin 3) (base : Nat) (g : Gang)
    (r : Replay) : Out :=
  let rk := resKey core slot
  let pos := match banksOf g.gm with
    | h :: _ => ((s.dev.hart rk h).ei.extractLsb' 32 6).toNat
    | [] => 0
  match (s.dev.capture? core rk r.body r.n).bind fun c => c.convoys[pos]? with
  | some p => beginConvoy exec s core slot base p.1 p.2 true
  | none => .next { s with dev := (s.dev.modGang rk base fun g => { g with replay := none }).tick }
/-- The convoy at the pc of a gang: the checks of its target after a trap entry or a launch, framing, encoding, and its first
word (R31, R38). -/
def issueFetch (exec : Instr → State → Out) (s : State) (core : Nat) (slot : Fin 3) (base : Nat) (g : Gang) : Out :=
  let rk := resKey core slot
  let ctx := match s.dev.res? rk with
    | some r => r.ctx
    | none => 0
  let t := if g.entry then s.dev.targetCheck core ctx g.pc else (s.dev, none)
  match t.2 with
  | some f => failIssue { s with dev := t.1 } rk base g f
  | none =>
    let c := t.1.fetchConvoy core ctx g.pc
    let s := { s with dev := c.1 }
    match c.2 with
    | .error f => failIssue s rk base g f
    | .ok ws =>
      match encodingFail g.size ws with
      | some f => failIssue s rk base g f
      | none => beginConvoy exec s core slot base g.pc (ws.map Prod.snd) false
/-- What falls due at the boundary of a gang before its next convoy (R373). -/
def boundary (rk base : Nat) (s : State) : Option Out :=
  match s.dev.gang? rk base with
  | none => none
  | some g => (s.dev.dueTrap rk base g).map fun d => .next { s with dev := d.tick }

namespace Device

/-- A gang that yielded goes on: the gangs that it waits for have issued or are not ready any more, or its time is over (R82). -/
def yieldOver (d : Device) (rk : Nat) (g : Gang) : Bool :=
  match g.yieldTo with
  | none => true
  | some (l, until_) => until_ ≤ d.now || !(l.any fun b => match d.gang? rk b with
    | some o => d.ready rk b o
    | none => false)
/-- A gang may issue at this cycle (R65, R66, R82): a switch out that is due comes first (R373). -/
def canIssue (d : Device) (core base : Nat) : Bool :=
  match (d.core core).issuing with
  | none => false
  | some slot =>
    let rk := resKey core slot
    match d.res? rk, d.gang? rk base with
    | some r, some g =>
      r.state == .resident && (d.core core).switch.isNone && !r.stopReq && !(d.regs.stops.contains r.ctx.toNat)
        && d.ready rk base g && g.earliest ≤ d.now && d.yieldOver rk g && !d.leaves core
    | _, _ => false
/-- The gang of the issuing context at a bank. -/
def issuingGang (d : Device) (core base : Nat) : Option Gang :=
  (d.core core).issuing.bind fun slot => d.gang? (resKey core slot) base
/-- A gang issues the body of a REPLAY, which takes no issue slot (R65). -/
def replaying (d : Device) (core base : Nat) : Bool := (d.issuingGang core base).any fun g => g.replay.isSome
/-- The charge of the convoy that a gang has held back for want of power credit (R417). -/
def powerWait (d : Device) (core base : Nat) : Option Nat :=
  (d.issuingGang core base).bind fun g => g.wait.bind fun w => match w.on with
    | .power n => some n
    | _ => none
/-- The gang of lowest charge among those that wait for power credit, the first of them in the order of their turns (R417). -/
def lowestCharge (d : Device) (core : Nat) (l : List Nat) : Option Nat :=
  (l.filter fun b => (d.powerWait core b).isSome).foldl (fun o b => match o with
    | none => some b
    | some a => if (d.powerWait core b).getD 0 < (d.powerWait core a).getD 0 then some b else some a) none
/-- The gang that takes the issue slot of a core: the first ready one after the gang that issued last (R65), or, where that one waits for
power credit, the one of lowest charge among those that do (R417). -/
def slotTurn (d : Device) (core : Nat) : Option Nat :=
  let last := (d.core core).last
  let l := ((List.range 16).map fun k => (last + 1 + k) % 16).filter fun b => d.canIssue core b && !d.replaying core b
  match l with
  | [] => none
  | b :: _ => if (d.powerWait core b).isSome then d.lowestCharge core l else some b
/-- The gang of lowest bank whose convoy is to be tried again at the pool now (R258). -/
def retryTurn (d : Device) (core : Nat) : Option Nat :=
  match (d.core core).issuing with
  | none => none
  | some slot => (List.range 16).find? fun b => d.canIssue core b && (d.gang? (resKey core slot) b).any (d.retryDue (resKey core slot) b)
/-- The gangs of a core that may issue now: those that replay, and the one whose turn the issue slot is (R65). A convoy that is tried
again at a word of the pool goes before them, in the cycle after the change that it waited for (R258). -/
def candidates (d : Device) (core : Nat) : List Nat :=
  match d.retryTurn core with
  | some b => [b]
  | none => ((List.range 16).filter fun b => d.canIssue core b && d.replaying core b) ++ (d.slotTurn core).toList

end Device

/-- The issue of a gang: what falls due at its boundary, then its next convoy (R373). -/
def issueGang (exec : Instr → State → Out) (s : State) (core base : Nat) : Out :=
  match (s.dev.core core).issuing with
  | none => .next { s with dev := s.dev.tick }
  | some slot =>
    let rk := resKey core slot
    match s.dev.gang? rk base with
    | none => .next { s with dev := s.dev.tick }
    | some g =>
      if !(s.dev.candidates core).contains base then .next { s with dev := s.dev.tick }
      else match boundary rk base s with
        | some o => o
        | none => match g.replay with
          | some r => issueReplay exec s core slot base g r
          | none => issueFetch exec s core slot base g

/-! ### The choice of who moves -/

/-- The core and the gang that issue next: the core after the one that issued last, and its next gang. -/
def Device.nextIssue (d : Device) : Option (Nat × Nat) :=
  let cs := (d.cores.map Prod.fst)
  (cs.filter (d.turn < ·) ++ cs.filter (· ≤ d.turn)).findSome? fun c => (d.candidates c).head?.map fun b => (c, b)
/-- One step, for a meaning of instructions and a choice of events: the next word of
the convoy being executed; else what the agenda names; else an event that can occur; else the issue of a gang; else a cycle
passes. -/
def stepWith (exec : Instr → State → Out) (event : State → Option Out) (s : State) : Out :=
  match s.iss.rest with
  | _ :: _ => runHead exec s
  | [] => match s.agenda with
    | .event i :: l => exec i { s with agenda := l }
    | .issue c b :: l => issueGang exec { s with agenda := l } c b
    | [] => match event s with
      | some o => o
      | none => match s.dev.nextIssue with
        | some p => issueGang exec s p.1 p.2
        | none => .next { s with dev := s.dev.tick }

/-! ### Placing a program -/

/-- The package with a page of code at virtual address 0 of context 0, resident and issuing on core 0 as one gang of one hart,
and 12 bytes of code at its start. -/
def Device.placeWord (d : Device) (w : Nat) : Device :=
  let oa := d.fabric.dev * 2 ^ 39
  let r : Residence := { seq := 0, k := 0, ctx := 0, cls := 1, hmask := 1, gl := 0, fb := 16384, sb := 16384, cb := 16384
                         abase := 0, acount := 508, twl := 0, lwdt := false, ltvec := false }
  let g : Gang := { size := 1, gm := 1, live := 1, pc := 0 }
  let d := d.physWrite oa 12 w
  let d := (((d.setRes (resKey 0 0) r).dropHarts (resKey 0 0)).setGang (resKey 0 0) 0 g).setHart (resKey 0 0) 0 {}
  (d.useBanks 0 1).modCore 0 fun c =>
    { c with issuing := some 0, switch := none, credit := some 1
             atc := { ctx := 0, va := 0, log := 16, leaf := (0x1F, oa) } :: c.atc.filter fun e => e.ctx != 0 }

end Sys2Proof.Machine
end

