-- ==== Sys2Proof/Machine/Agenda.lean ====
section
/-! DEFINITION. The event that moves when the agenda names none: the first, in a fixed order, that can occur. -/

namespace Sys2Proof.Machine

/-- The first element for which an event can occur, and the event. -/
def firstOf {α : Type} (l : List α) (can : α → Bool) (act : α → Out) : Option Out := (l.find? can).map act
/-- The first choice that answers. -/
def firstSome : List (State → Option Out) → State → Option Out
  | [], _ => none
  | f :: l, s => match f s with
    | some o => some o
    | none => firstSome l s

namespace Device

/-- The cores in use: those that something has changed, and those on which a context is resident. -/
def coreList (d : Device) : List (Fin 2048) :=
  ((d.cores.map fun p => p.1) ++ d.ress.map fun p => resCore p.1).dedup.map finCore
/-- The banks in use: those that something has changed, and those of the resident harts. -/
def bankList (d : Device) : List (Fin 2048 × Fin 16) :=
  ((d.banks.map fun p => p.1) ++ d.harts.map fun p => resCore (p.1 / 16) * 16 + p.1 % 16).dedup.map fun k =>
    (finCore (k / 16), finBank k)
/-- The groups of the banks in use. -/
def groupList (d : Device) : List ((Fin 2048 × Fin 16) × Lat) :=
  d.bankList.flatMap fun p => (List.finRange 4).map fun g => (p, g)
/-- The residences. -/
def resList (d : Device) : List (Fin 2048 × Fin 3) := d.ress.map fun p => (finCore (resCore p.1), resSlot p.1)
/-- The cores in use, each with the numbers of a small set. -/
def coreWith (d : Device) (n : Nat) : List (Fin 2048 × Fin n) :=
  d.coreList.flatMap fun c => (List.finRange n).map fun k => (c, k)
/-- The gangs' banks on the issuing contexts. -/
def gangList (d : Device) : List (Fin 2048 × Fin 16) := d.gangs.map fun p => (finCore (resCore (p.1 / 16)), finBank p.1)
/-- The harts. -/
def hartList (d : Device) : List (Fin 2048 × Fin 16) := d.harts.map fun p => (finCore (resCore (p.1 / 16)), finBank p.1)
/-- A hart that waits at a barrier object does not show there: the object has been initialised since (R339). -/
def waitHidden (d : Device) (rk : Nat) (l : List WaitCond) : Bool :=
  match d.res? rk with
  | some r => l.any fun c => c.on.isBarrier && !(r.bar c.off).waitm.getLsbD c.bank
  | none => false
/-- A pool wait of a kind is over and it is the gang's turn there, or a barrier is to show that it waits (R258, R341). -/
def wakeCan (d : Device) (c b : Nat) (kind : PoolCond → Bool) : Bool :=
  match d.poolWait c b with
  | some (rk, base, _, l) =>
    l.any (fun q => kind q.on) && if d.allHold rk l then !d.poolTurn rk base l else d.waitHidden rk l
  | none => false
/-- A REF of the bank's own starts now (R142, R143). -/
def refNow (d : Device) (c b : Nat) (g : Lat) (due : Bool) : Bool := due && d.insertTime c b g ≤ d.now
/-- A request moves at its port: it comes to the port, or is accepted there (R286, R287). -/
def portMoves (d : Device) (k : Nat) : Bool :=
  match d.portQ[k]?, d.redComes k with
  | some o, some q => o.arrived.isNone || d.redTakes q
  | _, _ => false
/-- A pool wait has reached its limit. -/
def limitCan (d : Device) (c b : Nat) : Bool :=
  match d.poolWait c b with
  | some (rk, _, since, l) => since + d.tagLimit rk ≤ d.now && !(d.limitFails rk l).isEmpty
  | none => false
/-- How the walk of a running command of a slot ends: 0 complete, 1 a fault, 2 a missing permission, 3 a request to the host;
none when it does not move. -/
def copyCan (d : Device) (c k : Nat) : Option Nat :=
  match d.cmdSlot c k with
  | none => none
  | some x =>
    if x.state != .running then none
    else match (d.copyRest c x).2.2 with
      | none => if d.compTurn x.res (cmdComp x.cmd) then some 0 else none
      | some (_, .fail f) => if f.cause = 0x0C then some 1 else if f.cause = 0x0D then some 2 else none
      | some (_, .wait w) => if (d.askAts c w).ats.length = d.ats.length then none else some 3
      | some _ => none
/-- The first transfer of a core may end. -/
def xferReady (d : Device) (c : Nat) : Bool := (d.core c).xfers.head?.any fun x => d.compTurn x.res x.comp
/-- A result of an atomic is on its way to the issuing context's hart on a bank. -/
def flightCan (d : Device) (c b : Nat) : Bool :=
  match (d.core c).issuing with
  | some s => (d.hart (resKey c s) b).flight.isSome
  | none => false
/-- A saved command of the issuing context may enter its channel again. -/
def reentryCan (d : Device) (c : Nat) (s : Fin 3) : Bool :=
  (d.core c).issuing == some s && (d.core c).switch.isNone && (d.reentry c (resKey c s)).isSome
/-- The watchdog of a residence is out. -/
def dogCan (d : Device) (rk : Nat) : Bool :=
  match d.res? rk with
  | some r => r.wdOut
  | none => false
/-- A trap of a kind is due at the gang of a bank: the gang is at a boundary, were it only that it waits (R373). -/
def trapCan (d : Device) (c b : Nat) (f : Device → Nat → Nat → Gang → Option Device) : Bool :=
  match d.gangAt c b with
  | some (rk, base, g) => d.canTrap rk g && (f d rk base g).isSome
  | none => false
/-- A pending refresh-deadline trap that is served first (R373). -/
def trapRefreshFirst (d : Device) (rk base : Nat) (g : Gang) : Option Device :=
  if d.clearOf rk base g then d.trapRefresh rk base g else none
/-- A pending engine trap that is served first (R373). -/
def trapEngineFirst (d : Device) (rk base : Nat) (g : Gang) : Option Device :=
  if d.clearOf rk base g && (d.trapRefresh rk base g).isNone then d.trapEngine rk base g else none
/-- The places that a placement of a launch might take: its own core, or any core in use. -/
def admitList (d : Device) : List ((Nat × Nat) × Fin 2048 × Fin 3) :=
  d.launches.flatMap fun l => l.places.flatMap fun p =>
    (finCore p.home :: if l.record.move && p.state == .saved then d.coreList else []).flatMap fun c =>
      [(0 : Fin 3), 1, 2].map fun s => ((l.seq, p.k), c, s)
/-- The end of a launch moves. -/
def endCan (d : Device) (l : Launch) : Bool :=
  (launchOver l && (d.complWrite l).2.isSome) || (launchOver l && (d.complWrite l).1.ats.length != d.ats.length)
    || (l.state == .ended && !d.journal.full)

end Device

/-- The events of the units of a core (R212, R227, R239, R317, R329, R346 to R353). -/
def unitEvents : List (State → Option Out) :=
  [ fun s => firstOf s.dev.coreList (fun c => s.dev.pushReady c) fun c => execPushEnterQueue c s,
    fun s => firstOf s.dev.coreList (fun c => s.dev.siftReady c false) fun c => execSifterRound c s,
    fun s => firstOf s.dev.coreList (fun c => s.dev.siftReady c true) fun c => execSifterDrainRun c s,
    fun s => firstOf s.dev.coreList (fun c => match (s.dev.core c).sifter with
        | .saving _ => true
        | _ => false) fun c => execSifterSave c s,
    fun s => firstOf s.dev.coreList (fun c => s.dev.busCan c) fun c => execBusSlotGrant c s,
    fun s => firstOf (s.dev.coreWith 16) (fun p => s.dev.mxDone p.1 p.2) fun p => execMatrixOpComplete p.1 p.2 s,
    fun s => firstOf (s.dev.coreWith 16) (fun p => s.dev.mxCanStart p.1 p.2) fun p => execMatrixOpStart p.1 p.2 s,
    fun s => firstOf s.dev.coreList (fun c => s.dev.xferReady c) fun c => execAccTransferComplete c 0 s,
    fun s => firstOf (s.dev.coreWith 8) (fun p => (s.dev.chanNext p.1 p.2).isSome) fun p => execCopyCommandStart p.1 p.2 s,
    fun s => firstOf (s.dev.coreWith 32) (fun p => s.dev.copyCan p.1 p.2 == some 0 || s.dev.copyCan p.1 p.2 == some 3) fun p =>
      execCopyCompletion p.1 p.2 s,
    fun s => firstOf (s.dev.coreWith 32) (fun p => s.dev.copyCan p.1 p.2 == some 1) fun p => execCopyFault p.1 p.2 s,
    fun s => firstOf (s.dev.coreWith 32) (fun p => s.dev.copyCan p.1 p.2 == some 2) fun p => execCopyPermissionStop p.1 p.2 s,
    fun s => firstOf s.dev.resList (fun p => s.dev.reentryCan p.1 p.2) fun p => execSavedCommandReentry p.1 p.2 s ]

/-- The events of the banks (R119, R137 to R143, R189, R286, R297). -/
def bankEvents : List (State → Option Out) :=
  [ fun s => firstOf s.dev.bankList (fun p => s.dev.nextTick p.1 p.2 ≤ s.dev.now) fun p => execDebtTick p.1 p.2 s,
    fun s => firstOf s.dev.groupList (fun p => s.dev.refNow p.1.1 p.1.2 p.2 (s.dev.forcedDue p.1.1 p.1.2 p.2)) fun p =>
      execForcedRefresh p.1.1 p.1.2 p.2 s,
    fun s => firstOf s.dev.groupList (fun p => s.dev.refNow p.1.1 p.1.2 p.2 (s.dev.autoRefDue p.1.1 p.1.2 p.2)) fun p =>
      execAutoRefInsert p.1.1 p.1.2 p.2 s,
    fun s => firstOf s.dev.bankList (fun p => s.dev.segCan p.1 p.2) fun p => execVectorSegmentStart p.1 p.2 s,
    fun s => firstOf s.dev.bankList (fun p => (s.dev.rowNext p.1 p.2).isSome) fun p => execRowCommandStart p.1 p.2 s,
    fun s => firstOf s.dev.groupList (fun p => s.dev.ownPreDue p.1.1 p.1.2 p.2) fun p =>
      execBankOwnPrecharge p.1.1 p.1.2 p.2 s,
    fun s => firstOf s.dev.bankList (fun p => (s.dev.colNext p.1 p.2).isSome) fun p => execColumnAccessServe p.1 p.2 s,
    fun s => firstOf (List.range s.dev.portQ.length) (fun k => s.dev.portMoves k) fun k => execWriteQueueAccept k s,
    fun s => firstOf s.dev.bankList (fun p => !(s.dev.bank p.1 p.2).wq.isEmpty) fun p => execWriteQueueApply p.1 p.2 s,
    fun s => firstOf s.dev.hartList (fun p => s.dev.flightCan p.1 p.2) fun p => execAtomicResultReturn p.1 p.2 s ]

/-- The pending traps of gangs, the ends of waits, and the watchdogs (R258, R260, R341, R342, R373, R379). -/
def waitEvents : List (State → Option Out) :=
  [ fun s => firstOf s.dev.gangList (fun p => s.dev.trapCan p.1 p.2 Device.trapSoft) fun p => execSoftwareTrapTaken p.1 p.2 s,
    fun s => firstOf s.dev.gangList (fun p => s.dev.trapCan p.1 p.2 Device.trapDog) fun p => execWatchdogTrapTaken p.1 p.2 s,
    fun s => firstOf s.dev.gangList (fun p => s.dev.trapCan p.1 p.2 Device.trapRefreshFirst) fun p =>
      execRefreshDeadlineTrap p.1 p.2 s,
    fun s => firstOf s.dev.gangList (fun p => s.dev.trapCan p.1 p.2 Device.trapEngineFirst) fun p => execEngineTrapTaken p.1 p.2 s,
    fun s => firstOf s.dev.gangList (fun p => s.dev.wakeCan p.1 p.2 PoolCond.isTag) fun p => execTagWaitRetry p.1 p.2 s,
    fun s => firstOf s.dev.gangList (fun p => s.dev.wakeCan p.1 p.2 PoolCond.isBarrier) fun p => execBarrierWaitWake p.1 p.2 s,
    fun s => firstOf s.dev.gangList (fun p => s.dev.wakeCan p.1 p.2 PoolCond.isWord) fun p => execWordWaitSatisfied p.1 p.2 s,
    fun s => firstOf s.dev.gangList (fun p => s.dev.limitCan p.1 p.2) fun p => execTagWaitTimeout p.1 p.2 s,
    fun s => firstOf s.dev.resList (fun p => s.dev.dogCan (resKey p.1 p.2)) fun p => execWatchdogExpiry p.1 p.2 s ]

/-- The events of the schedulers (R377, R397, R400). -/
def schedEvents : List (State → Option Out) :=
  [ fun s => firstOf s.dev.coreList (fun c => (s.dev.class0Next c).isSome) fun c => execClass0Request c s,
    fun s => firstOf s.dev.resList (fun p => s.dev.stopDue (resKey p.1 p.2)) fun p => execDebugStop p.1 p.2 s,
    fun s => firstOf s.dev.coreList (fun c => (s.dev.quantumNext c).isSome || s.dev.agedOver c) fun c => execQuantumExpiry c s,
    fun s => firstOf s.dev.coreList (fun c => (s.dev.idleNext c).isSome) fun c => execIdleYield c s,
    fun s => firstOf s.dev.resList (fun p => s.dev.agesNow (resKey p.1 p.2)) fun p => execAgeingPromotion p.1 p.2 s,
    fun s => firstOf s.dev.resList (fun p => s.dev.evictMoves p.1 p.2) fun p => execEviction p.1 p.2 s,
    fun s => firstOf s.dev.coreList (fun c => s.dev.switchMoves c) fun c => execContextSwitch c s,
    fun s => firstOf s.dev.admitList (fun q => (s.dev.admits? q.1.1 q.1.2 q.2.1 q.2.2).isSome) fun q =>
      execAdmission q.1.1 q.1.2 q.2.1 q.2.2 s ]

/-- The events of launches and of the host interface (R280, R394 to R403, R413, R417, R419). -/
def launchEvents : List (State → Option Out) :=
  [ fun s => firstOf (s.dev.launches.flatMap fun l => l.places.map fun p => (l.seq, p.k))
      (fun p => (s.dev.placeEnds p.1 p.2).isSome) fun p => execPlacementEnd p.1 p.2 s,
    fun s => firstOf s.dev.launches (fun l => s.dev.endCan l) fun l => execLaunchEnd l.seq s,
    fun s => firstOf s.dev.launches (fun l => s.dev.leavesNext l) fun l => execLaunchLeaveWaits l.seq s,
    fun s => firstOf (List.finRange 4) (fun c => s.dev.queueTurn c) fun c => execQueueEntryConsume c s,
    fun s => if s.dev.regs.tqPending then some (execTableQueryResult s) else none,
    fun s => if s.dev.regs.tinvRun && !s.dev.tinvBusy then some (execTranslationInvalidationDone s) else none,
    fun s => if s.dev.power.windows ≤ s.dev.now / 1024 then some (execBudgetWindow s) else none,
    fun s => if s.dev.regs.rsvc && s.dev.trained && !s.dev.anyRunning then
        some (execFullServiceEntry s)
      else none ]

/-- The event that moves when the agenda is empty. What comes from outside the package moves only when the agenda says so. -/
def nextEvent (s : State) : Option Out := firstSome (unitEvents ++ bankEvents ++ schedEvents ++ waitEvents ++ launchEvents) s

end Sys2Proof.Machine
end

