-- ==== Sys2Proof/Machine/Scalar.lean ====
section
/-! DEFINITION. The scalar integer words (R93 to R99). -/

namespace Sys2Proof.Machine

/-! ### Results -/

/-- ADD (R93). -/
def addRes (w : Bool) (a b : Word) : Word := resOf w (uintN (widthOf w) a + uintN (widthOf w) b : Nat)
/-- SUB (R93). -/
def subRes (w : Bool) (a b : Word) : Word := resOf w ((uintN (widthOf w) a : Int) - uintN (widthOf w) b)
/-- MUL (R93). -/
def mulRes (w : Bool) (a b : Word) : Word := resOf w (sintN (widthOf w) a * sintN (widthOf w) b)
/-- MULH (R93). -/
def mulhRes (a b : Word) : Word := word64 (sint64 a * sint64 b / 2 ^ 64)
/-- MULHN (R93). -/
def mulhnRes (a b : Word) : Word := BitVec.ofNat 64 (a.toNat * b.toNat / 2 ^ 64)
/-- DIV of a nonzero divisor (R93). -/
def divRes (w : Bool) (a b : Word) : Word := resOf w ((sintN (widthOf w) a).tdiv (sintN (widthOf w) b))
/-- DIVN of a nonzero divisor (R93). -/
def divnRes (w : Bool) (a b : Word) : Word := resOf w (uintN (widthOf w) a / uintN (widthOf w) b : Nat)
/-- REM of a nonzero divisor (R93). -/
def remRes (w : Bool) (a b : Word) : Word :=
  let x := sintN (widthOf w) a
  let y := sintN (widthOf w) b
  resOf w (x - y * x.tdiv y)
/-- REMN of a nonzero divisor (R93). -/
def remnRes (w : Bool) (a b : Word) : Word := resOf w (uintN (widthOf w) a % uintN (widthOf w) b : Nat)
/-- SHL (R93). -/
def shlRes (w : Bool) (a b : Word) : Word := resOf w (uintN (widthOf w) a * 2 ^ (b.toNat % widthOf w) : Nat)
/-- SHR (R93). -/
def shrRes (w : Bool) (a b : Word) : Word := resOf w (uintN (widthOf w) a / 2 ^ (b.toNat % widthOf w) : Nat)
/-- SAR (R93). -/
def sarRes (w : Bool) (a b : Word) : Word := resOf w (sintN (widthOf w) a / 2 ^ (b.toNat % widthOf w))
/-- ROL (R93). -/
def rolRes (w : Bool) (a b : Word) : Word :=
  let n := widthOf w
  let k := b.toNat % n
  let u := uintN n a
  resOf w ((u * 2 ^ k + u / 2 ^ (n - k)) % 2 ^ n : Nat)
/-- The bits of a number from bit 0 up. -/
def bitsOf (n v : Nat) : List Bool := (List.range n).map (nbit v)
/-- The number of a list of bits from bit 0 up. -/
def ofBits (l : List Bool) : Nat := l.foldr (fun b acc => 2 * acc + b.toNat) 0
/-- CLZ (R93). -/
def clzRes (w : Bool) (a : Word) : Word :=
  BitVec.ofNat 64 ((bitsOf (widthOf w) (uintN (widthOf w) a)).reverse.takeWhile (! ·)).length
/-- CTZ (R93). -/
def ctzRes (w : Bool) (a : Word) : Word :=
  BitVec.ofNat 64 ((bitsOf (widthOf w) (uintN (widthOf w) a)).takeWhile (! ·)).length
/-- POPC (R93). -/
def popcRes (w : Bool) (a : Word) : Word := BitVec.ofNat 64 ((bitsOf (widthOf w) (uintN (widthOf w) a)).count true)
/-- BREV (R93). -/
def brevRes (w : Bool) (a : Word) : Word := resOf w (ofBits (bitsOf (widthOf w) (uintN (widthOf w) a)).reverse : Nat)
/-- BSWAP (R93). -/
def bswapRes (w : Bool) (a : Word) : Word :=
  let n := widthOf w / 8
  resOf w ((List.range n).foldl (fun acc j => acc + getBytes a.toNat (n - 1 - j) 1 * 2 ^ (8 * j)) 0 : Nat)
/-- MIN (R93). -/
def minRes (w : Bool) (a b : Word) : Word := resOf w (min (sintN (widthOf w) a) (sintN (widthOf w) b))
/-- MAX (R93). -/
def maxRes (w : Bool) (a b : Word) : Word := resOf w (max (sintN (widthOf w) a) (sintN (widthOf w) b))
/-- MINN (R93). -/
def minnRes (w : Bool) (a b : Word) : Word := resOf w (min (uintN (widthOf w) a) (uintN (widthOf w) b) : Nat)
/-- MAXN (R93). -/
def maxnRes (w : Bool) (a b : Word) : Word := resOf w (max (uintN (widthOf w) a) (uintN (widthOf w) b) : Nat)
/-- ABS (R93). -/
def absRes (w : Bool) (a : Word) : Word := resOf w (sintN (widthOf w) a).natAbs
/-- FSHL (R95). -/
def fshlRes (d a b : Word) : Word :=
  BitVec.ofNat 64 ((d.toNat * 2 ^ 64 + a.toNat) * 2 ^ (b.toNat % 64) / 2 ^ 64)
/-- FSHR (R95). -/
def fshrRes (d a b : Word) : Word :=
  BitVec.ofNat 64 ((a.toNat * 2 ^ 64 + d.toNat) / 2 ^ (b.toNat % 64))
/-- BFX (R95). -/
def bfxRes (pos len1 : BitVec 6) (a : Word) : Word := sextN (len1.toNat + 1) (a >>> pos.toNat)
/-- BFXN (R95). -/
def bfxnRes (pos len1 : BitVec 6) (a : Word) : Word := zextN (len1.toNat + 1) (a >>> pos.toNat)
/-- BFI (R95). -/
def bfiRes (pos len1 : BitVec 6) (d a : Word) : Word :=
  let lo := d.toNat % 2 ^ pos.toNat
  let hi := d.toNat / 2 ^ (pos.toNat + len1.toNat + 1)
  BitVec.ofNat 64 (lo + uintN (len1.toNat + 1) a * 2 ^ pos.toNat + hi * 2 ^ (pos.toNat + len1.toNat + 1))
/-- The width of SEXT and ZEXT (R96). -/
def extBits : ExtSize → Nat
  | .b8 => 8 | .b16 => 16 | .b32 => 32
/-- LEA (R97). -/
def leaRes (k : BitVec 2) (a b : Word) : Word := BitVec.ofNat 64 (a.toNat + b.toNat * 2 ^ k.toNat)
/-- CMP (R98). -/
def cmpRes (c : Cond) (w : Bool) (a b : Word) : Bool :=
  let n := widthOf w
  let ua := uintN n a
  let ub := uintN n b
  let sa := sintN n a
  let sb := sintN n b
  match c with
  | .eq => ua = ub
  | .ne => ua ≠ ub
  | .lt => sa < sb
  | .ge => sb ≤ sa
  | .ltn => ua < ub
  | .gen => ub ≤ ua
  | .le => sa ≤ sb
  | .gt => sb < sa
  | .len => ua ≤ ub
  | .gtn => ub < ua
  | .tst => uintN n (a &&& b) ≠ 0
  | .ntst => uintN n (a &&& b) = 0
/-- PAND (R99). -/
def pandRes (op : POp) (a b : Bool) : Bool :=
  match op with
  | .and => a && b
  | .or => a || b
  | .xor => a != b
  | .andn => a && !b
  | .orn => a || !b
  | .nand => !(a && b)
  | .nor => !(a || b)
  | .xnor => a == b

/-! ### Meanings -/

def execAdd (h : Hdr) (w : Bool) (d : XReg) (a b : Src) (s : State) : Out := word2 h d a b (some 1) (addRes w) s
def execSub (h : Hdr) (w : Bool) (d : XReg) (a b : Src) (s : State) : Out := word2 h d a b (some 1) (subRes w) s
def execMul (h : Hdr) (w : Bool) (d : XReg) (a b : Src) (s : State) : Out := word2 h d a b (some 3) (mulRes w) s
def execMulh (h : Hdr) (d : XReg) (a b : Src) (s : State) : Out := word2 h d a b (some 3) mulhRes s
def execMulhn (h : Hdr) (d : XReg) (a b : Src) (s : State) : Out := word2 h d a b (some 3) mulhnRes s

/-- A dividing word: 0x15 for a zero divisor, and an interlocked result (R94). -/
def divWord (h : Hdr) (w : Bool) (d : XReg) (a b : Src) (f : Word → Word → Word) (s : State) : Out :=
  wordOp h { rd := srcRegs a ++ srcRegs b, wr := [.x d] } (perHart fun k s =>
    if uintN (widthOf w) (s.src k b) = 0 then .fail { cause := 0x15, tval := s.iss.addr }
    else .ok (writeReg k (.x d) (f (s.src k a) (s.src k b)) none s)) s

def execDiv (h : Hdr) (w : Bool) (d : XReg) (a b : Src) (s : State) : Out := divWord h w d a b (divRes w) s
def execDivn (h : Hdr) (w : Bool) (d : XReg) (a b : Src) (s : State) : Out := divWord h w d a b (divnRes w) s
def execRem (h : Hdr) (w : Bool) (d : XReg) (a b : Src) (s : State) : Out := divWord h w d a b (remRes w) s
def execRemn (h : Hdr) (w : Bool) (d : XReg) (a b : Src) (s : State) : Out := divWord h w d a b (remnRes w) s

def execAnd (h : Hdr) (d : XReg) (a b : Src) (s : State) : Out := word2 h d a b (some 1) (· &&& ·) s
def execOr (h : Hdr) (d : XReg) (a b : Src) (s : State) : Out := word2 h d a b (some 1) (· ||| ·) s
def execXor (h : Hdr) (d : XReg) (a b : Src) (s : State) : Out := word2 h d a b (some 1) (· ^^^ ·) s
def execAndn (h : Hdr) (d : XReg) (a b : Src) (s : State) : Out := word2 h d a b (some 1) (fun x y => x &&& ~~~ y) s
def execShl (h : Hdr) (w : Bool) (d : XReg) (a b : Src) (s : State) : Out := word2 h d a b (some 1) (shlRes w) s
def execShr (h : Hdr) (w : Bool) (d : XReg) (a b : Src) (s : State) : Out := word2 h d a b (some 1) (shrRes w) s
def execSar (h : Hdr) (w : Bool) (d : XReg) (a b : Src) (s : State) : Out := word2 h d a b (some 1) (sarRes w) s
def execRol (h : Hdr) (w : Bool) (d : XReg) (a b : Src) (s : State) : Out := word2 h d a b (some 1) (rolRes w) s
def execFshl (h : Hdr) (d : XReg) (a b : Src) (s : State) : Out := word3 h d a b (some 1) fshlRes s
def execFshr (h : Hdr) (d : XReg) (a b : Src) (s : State) : Out := word3 h d a b (some 1) fshrRes s
def execBfx (h : Hdr) (pos len1 : BitVec 6) (d : XReg) (a : Src) (s : State) : Out :=
  word1 h d a (some 1) (bfxRes pos len1) s
def execBfxn (h : Hdr) (pos len1 : BitVec 6) (d : XReg) (a : Src) (s : State) : Out :=
  word1 h d a (some 1) (bfxnRes pos len1) s
def execBfi (h : Hdr) (pos len1 : BitVec 6) (d : XReg) (a : Src) (s : State) : Out :=
  word3 h d a a (some 1) (fun x y _ => bfiRes pos len1 x y) s
def execClz (h : Hdr) (w : Bool) (d : XReg) (a : Src) (s : State) : Out := word1 h d a (some 1) (clzRes w) s
def execCtz (h : Hdr) (w : Bool) (d : XReg) (a : Src) (s : State) : Out := word1 h d a (some 1) (ctzRes w) s
def execPopc (h : Hdr) (w : Bool) (d : XReg) (a : Src) (s : State) : Out := word1 h d a (some 1) (popcRes w) s
def execBrev (h : Hdr) (w : Bool) (d : XReg) (a : Src) (s : State) : Out := word1 h d a (some 1) (brevRes w) s
def execBswap (h : Hdr) (w : Bool) (d : XReg) (a : Src) (s : State) : Out := word1 h d a (some 1) (bswapRes w) s
def execMin (h : Hdr) (w : Bool) (d : XReg) (a b : Src) (s : State) : Out := word2 h d a b (some 1) (minRes w) s
def execMax (h : Hdr) (w : Bool) (d : XReg) (a b : Src) (s : State) : Out := word2 h d a b (some 1) (maxRes w) s
def execMinn (h : Hdr) (w : Bool) (d : XReg) (a b : Src) (s : State) : Out := word2 h d a b (some 1) (minnRes w) s
def execMaxn (h : Hdr) (w : Bool) (d : XReg) (a b : Src) (s : State) : Out := word2 h d a b (some 1) (maxnRes w) s
def execAbs (h : Hdr) (w : Bool) (d : XReg) (a : Src) (s : State) : Out := word1 h d a (some 1) (absRes w) s

/-- SEL (R97). -/
def execSel (h : Hdr) (p : PReg) (neg : Bool) (d : XReg) (a b : Src) (s : State) : Out :=
  regWord h (.x d) (some 1) (.p p :: srcRegs a ++ srcRegs b)
    (fun s k => if (s.hart k).getP p != neg then s.src k a else s.src k b) s

/-- MOV, by the file pairs of R97. -/
def execMov (h : Hdr) (m : MovForm) (s : State) : Out :=
  match m with
  | .xs d a => word1 h d a (some 1) id s
  | .xp d a => regWord h (.x d) (some 1) [.p a] (fun s k => boolWord ((s.hart k).getP a)) s
  | .pp d a => regWord h (.p d) (some 1) [.p a] (fun s k => boolWord ((s.hart k).getP a)) s
  | .px d a => regWord h (.p d) (some 1) [.x a] (fun s k => boolWord ((s.hart k).getX a != 0)) s

def execSext (h : Hdr) (size : ExtSize) (d : XReg) (a : Src) (s : State) : Out :=
  word1 h d a (some 1) (sextN (extBits size)) s
def execZext (h : Hdr) (size : ExtSize) (d : XReg) (a : Src) (s : State) : Out :=
  word1 h d a (some 1) (zextN (extBits size)) s

/-- CMP (R98). -/
def execCmp (h : Hdr) (cond : Cond) (w : Bool) (d : XP) (a b : Src) (s : State) : Out :=
  regWord h (xpReg d) (some 1) (srcRegs a ++ srcRegs b) (fun s k => boolWord (cmpRes cond w (s.src k a) (s.src k b))) s

def execLea (h : Hdr) (k : BitVec 2) (d : XReg) (a b : Src) (s : State) : Out := word2 h d a b (some 1) (leaRes k) s

/-- PAND (R99). -/
def execPand (h : Hdr) (op : POp) (d a b : PReg) (s : State) : Out :=
  regWord h (.p d) (some 1) [.p a, .p b]
    (fun s k => boolWord (pandRes op ((s.hart k).getP a) ((s.hart k).getP b))) s

end Sys2Proof.Machine
end

