-- ==== Sys2Proof/Machine/ScalarFp.lean ====
section
/-! DEFINITION. The scalar floating-point words (R100 to R106). -/

namespace Sys2Proof.Machine

/-- The format of a scalar floating-point word (R100). -/
def fOf : FFmt → FF
  | .f64 => .f64 | .f32 => .f32 | .bf16 => .bf16 | .f16 => .f16
/-- The bits of a format in a register (R88). -/
def fpBits (f : FF) (v : Word) : Nat := v.toNat % 2 ^ f.width
/-- An input of a scalar word, flushed under FPC.FZ (R103, R156). -/
def fpArg (fz : Bool) (f : FF) (v : Word) : Num := flushIn fz f (f.decode (fpBits f v))
/-- A result of a scalar word: rounded, then flushed under FPC.FZ (R152, R156). -/
def fpRound (fz : Bool) (f : FF) (rm : Rnd) (v : Ex × Flags) : Nat × Flags :=
  let r := roundTo v.1 f rm
  flushOut fz f f 0 (r.1, r.2 ||| v.2)

/-! ### Results -/

/-- FADD and FSUB (R104). -/
def faddRes (fz : Bool) (f : FF) (rm : Rnd) (neg : Bool) (a b : Word) : Nat × Flags :=
  let y := fpArg fz f b
  fpRound fz f rm (sumNum [fpArg fz f a, if neg then y.negate else y] (rm == .rdn))
/-- FMUL (R104). -/
def fmulRes (fz : Bool) (f : FF) (rm : Rnd) (a b : Word) : Nat × Flags :=
  let p := mulNum (fpArg fz f a) (fpArg fz f b)
  fpRound fz f rm (p.1.ex, p.2)
/-- FDIV (R104). -/
def fdivRes (fz : Bool) (f : FF) (rm : Rnd) (a b : Word) : Nat × Flags :=
  fpRound fz f rm (divNum (fpArg fz f a) (fpArg fz f b))
/-- FSQRT (R104). -/
def fsqrtRes (fz : Bool) (f : FF) (rm : Rnd) (a : Word) : Nat × Flags := fpRound fz f rm (sqrtNum (fpArg fz f a))
/-- FMA (R104). -/
def fmaRes (fz : Bool) (f : FF) (rm : Rnd) (np na : Bool) (d a b : Word) : Nat × Flags :=
  fpRound fz f rm (fmaNum (fpArg fz f a) (fpArg fz f b) (fpArg fz f d) np na (rm == .rdn))
/-- FMIN and FMAX (R104). -/
def fminmaxRes (fz : Bool) (f : FF) (wantMax : Bool) (a b : Word) : Nat × Flags :=
  minMaxBits f wantMax (flushBits fz f (fpBits f a)) (flushBits fz f (fpBits f b))
/-- FABS (R104). -/
def fabsRes (f : FF) (a : Word) : Nat := fpBits f a % 2 ^ (f.width - 1)
/-- FNEG (R104). -/
def fnegRes (f : FF) (a : Word) : Nat := fpBits f a ^^^ 2 ^ (f.width - 1)
/-- FRND (R104). -/
def frndRes (fz : Bool) (f : FF) (rm : Rnd) (a : Word) : Nat × Flags :=
  let v := rintNum (fpArg fz f a) rm
  ((roundTo v.1 f rm).1, v.2)
/-- FCMP (R105). -/
def fcmpRes (fz : Bool) (f : FF) (c : FCond) (a b : Word) : Nat × Flags :=
  let r := fcondNum c (fpArg fz f a) (fpArg fz f b)
  (r.1.toNat, r.2)
/-- FCLASS (R106). -/
def fclassRes (f : FF) (a : Word) : Nat := 2 ^ classBits f (fpBits f a)

/-- An FCVT type: a format, or an integer by width and signedness (R106). -/
def cvtFloat : CvtTy → Option FF
  | .f64 => some .f64 | .f32 => some .f32 | .bf16 => some .bf16 | .f16 => some .f16 | _ => none
/-- The width of an integer type. -/
def cvtBits : CvtTy → Nat
  | .i32 | .n32 => 32
  | _ => 64
/-- Whether an integer type is signed. -/
def cvtSigned : CvtTy → Bool
  | .i64 | .i32 => true
  | _ => false
/-- The source of FCVT as a number, with the flag of a signalling NaN. -/
def fcvtArg (fz : Bool) (sty : CvtTy) (a : Word) : Num × Flags :=
  match cvtFloat sty with
  | some f => let x := fpArg fz f a; (x, x.snanFlag)
  | none => (intNum (if cvtSigned sty then sintN (cvtBits sty) a else uintN (cvtBits sty) a), fl0)
/-- FCVT (R106). -/
def fcvtRes (fz : Bool) (dty sty : CvtTy) (rm : Rnd) (a : Word) : Nat × Flags :=
  let x := fcvtArg fz sty a
  match cvtFloat dty with
  | some f => fpRound fz f rm (x.1.ex, x.2)
  | none =>
    let n := cvtBits dty
    let lo : Int := if cvtSigned dty then -(2 ^ (n - 1) : Int) else 0
    let hi : Int := if cvtSigned dty then (2 ^ (n - 1) : Int) - 1 else (2 ^ n : Int) - 1
    let r := toInt x.1 lo hi rm 0
    (wrapTo 64 r.1, r.2)

/-! ### Meanings -/

/-- FPC of a hart. -/
def fpcOf (s : State) (k : Nat) : Word := (s.hart k).fpc
/-- FPC.FZ of a hart. -/
def fzOf (s : State) (k : Nat) : Bool := fpcFz (fpcOf s k)
/-- A two-source floating-point word under a rounding field. -/
def fpWord2 (h : Hdr) (d : XReg) (rm : FRm) (a b : Src) (lat : Option Nat)
    (f : Bool → Rnd → Word → Word → Nat × Flags) (s : State) : Out :=
  fpWord h (.x d) lat (srcRegs a ++ srcRegs b)
    (fun s k => f (fzOf s k) (scalarRnd (fpcOf s k) rm) (s.src k a) (s.src k b)) s
/-- A one-source floating-point word under a rounding field. -/
def fpWord1 (h : Hdr) (d : XReg) (rm : FRm) (a : Src) (lat : Option Nat)
    (f : Bool → Rnd → Word → Nat × Flags) (s : State) : Out :=
  fpWord h (.x d) lat (srcRegs a) (fun s k => f (fzOf s k) (scalarRnd (fpcOf s k) rm) (s.src k a)) s

def execFadd (h : Hdr) (f : FFmt) (rm : FRm) (d : XReg) (a b : Src) (s : State) : Out :=
  fpWord2 h d rm a b (some 4) (fun z r => faddRes z (fOf f) r false) s
def execFsub (h : Hdr) (f : FFmt) (rm : FRm) (d : XReg) (a b : Src) (s : State) : Out :=
  fpWord2 h d rm a b (some 4) (fun z r => faddRes z (fOf f) r true) s
def execFmul (h : Hdr) (f : FFmt) (rm : FRm) (d : XReg) (a b : Src) (s : State) : Out :=
  fpWord2 h d rm a b (some 4) (fun z r => fmulRes z (fOf f) r) s
def execFdiv (h : Hdr) (f : FFmt) (rm : FRm) (d : XReg) (a b : Src) (s : State) : Out :=
  fpWord2 h d rm a b none (fun z r => fdivRes z (fOf f) r) s
def execFsqrt (h : Hdr) (f : FFmt) (rm : FRm) (d : XReg) (a : Src) (s : State) : Out :=
  fpWord1 h d rm a none (fun z r => fsqrtRes z (fOf f) r) s
def execFma (h : Hdr) (f : FFmt) (rm : FRm) (np na : Bool) (d : XReg) (a b : Src) (s : State) : Out :=
  fpWord h (.x d) (some 4) (.x d :: srcRegs a ++ srcRegs b)
    (fun s k => fmaRes (fzOf s k) (fOf f) (scalarRnd (fpcOf s k) rm) np na ((s.hart k).getX d) (s.src k a) (s.src k b)) s
def execFmin (h : Hdr) (f : FFmt) (d : XReg) (a b : Src) (s : State) : Out :=
  fpWord2 h d .rne a b (some 2) (fun z _ => fminmaxRes z (fOf f) false) s
def execFmax (h : Hdr) (f : FFmt) (d : XReg) (a b : Src) (s : State) : Out :=
  fpWord2 h d .rne a b (some 2) (fun z _ => fminmaxRes z (fOf f) true) s
def execFabs (h : Hdr) (f : FFmt) (d : XReg) (a : Src) (s : State) : Out :=
  word1 h d a (some 2) (fun v => BitVec.ofNat 64 (fabsRes (fOf f) v)) s
def execFneg (h : Hdr) (f : FFmt) (d : XReg) (a : Src) (s : State) : Out :=
  word1 h d a (some 2) (fun v => BitVec.ofNat 64 (fnegRes (fOf f) v)) s
def execFcmp (h : Hdr) (f : FFmt) (cond : FCond) (d : XP) (a b : Src) (s : State) : Out :=
  fpWord h (xpReg d) (some 2) (srcRegs a ++ srcRegs b)
    (fun s k => fcmpRes (fzOf s k) (fOf f) cond (s.src k a) (s.src k b)) s
def execFcvt (h : Hdr) (dty sty : CvtTy) (rm : FRm) (d : XReg) (a : Src) (s : State) : Out :=
  fpWord1 h d rm a (some 4) (fun z r => fcvtRes z dty sty r) s
def execFclass (h : Hdr) (f : FFmt) (d : XReg) (a : Src) (s : State) : Out :=
  word1 h d a (some 2) (fun v => BitVec.ofNat 64 (fclassRes (fOf f) v)) s
def execFrnd (h : Hdr) (f : FFmt) (rm : FRm) (d : XReg) (a : Src) (s : State) : Out :=
  fpWord1 h d rm a (some 4) (fun z r => frndRes z (fOf f) r) s

end Sys2Proof.Machine
end

