-- ==== Sys2Proof/Machine/Dispatch.lean ====
section
/-! DEFINITION. What each instruction and event does: one arm for each constructor of Instr, in the order of the opcode
table. -/

namespace Sys2Proof.Machine

/-- The meaning of an instruction or event. -/
def exec (i : Instr) (s : State) : Host.Outcome State Fault Refusal :=
  match i with
  | .add h w d a b => Sys2Proof.Machine.execAdd h w d a b s
  | .sub h w d a b => Sys2Proof.Machine.execSub h w d a b s
  | .mul h w d a b => Sys2Proof.Machine.execMul h w d a b s
  | .mulh h d a b => Sys2Proof.Machine.execMulh h d a b s
  | .mulhn h d a b => Sys2Proof.Machine.execMulhn h d a b s
  | .div h w d a b => Sys2Proof.Machine.execDiv h w d a b s
  | .divn h w d a b => Sys2Proof.Machine.execDivn h w d a b s
  | .rem h w d a b => Sys2Proof.Machine.execRem h w d a b s
  | .remn h w d a b => Sys2Proof.Machine.execRemn h w d a b s
  | .and h d a b => Sys2Proof.Machine.execAnd h d a b s
  | .or h d a b => Sys2Proof.Machine.execOr h d a b s
  | .xor h d a b => Sys2Proof.Machine.execXor h d a b s
  | .andn h d a b => Sys2Proof.Machine.execAndn h d a b s
  | .shl h w d a b => Sys2Proof.Machine.execShl h w d a b s
  | .shr h w d a b => Sys2Proof.Machine.execShr h w d a b s
  | .sar h w d a b => Sys2Proof.Machine.execSar h w d a b s
  | .rol h w d a b => Sys2Proof.Machine.execRol h w d a b s
  | .fshl h d a b => Sys2Proof.Machine.execFshl h d a b s
  | .fshr h d a b => Sys2Proof.Machine.execFshr h d a b s
  | .bfx h pos len1 d a => Sys2Proof.Machine.execBfx h pos len1 d a s
  | .bfxn h pos len1 d a => Sys2Proof.Machine.execBfxn h pos len1 d a s
  | .bfi h pos len1 d a => Sys2Proof.Machine.execBfi h pos len1 d a s
  | .clz h w d a => Sys2Proof.Machine.execClz h w d a s
  | .ctz h w d a => Sys2Proof.Machine.execCtz h w d a s
  | .popc h w d a => Sys2Proof.Machine.execPopc h w d a s
  | .brev h w d a => Sys2Proof.Machine.execBrev h w d a s
  | .bswap h w d a => Sys2Proof.Machine.execBswap h w d a s
  | .min h w d a b => Sys2Proof.Machine.execMin h w d a b s
  | .max h w d a b => Sys2Proof.Machine.execMax h w d a b s
  | .minn h w d a b => Sys2Proof.Machine.execMinn h w d a b s
  | .maxn h w d a b => Sys2Proof.Machine.execMaxn h w d a b s
  | .abs h w d a => Sys2Proof.Machine.execAbs h w d a s
  | .sel h p neg d a b => Sys2Proof.Machine.execSel h p neg d a b s
  | .mov h m => Sys2Proof.Machine.execMov h m s
  | .sext h size d a => Sys2Proof.Machine.execSext h size d a s
  | .zext h size d a => Sys2Proof.Machine.execZext h size d a s
  | .cmp h cond w d a b => Sys2Proof.Machine.execCmp h cond w d a b s
  | .lea h k d a b => Sys2Proof.Machine.execLea h k d a b s
  | .pand h op d a b => Sys2Proof.Machine.execPand h op d a b s
  | .fadd h f rm d a b => Sys2Proof.Machine.execFadd h f rm d a b s
  | .fsub h f rm d a b => Sys2Proof.Machine.execFsub h f rm d a b s
  | .fmul h f rm d a b => Sys2Proof.Machine.execFmul h f rm d a b s
  | .fdiv h f rm d a b => Sys2Proof.Machine.execFdiv h f rm d a b s
  | .fsqrt h f rm d a => Sys2Proof.Machine.execFsqrt h f rm d a s
  | .fma h f rm np na d a b => Sys2Proof.Machine.execFma h f rm np na d a b s
  | .fmin h f d a b => Sys2Proof.Machine.execFmin h f d a b s
  | .fmax h f d a b => Sys2Proof.Machine.execFmax h f d a b s
  | .fabs h f d a => Sys2Proof.Machine.execFabs h f d a s
  | .fneg h f d a => Sys2Proof.Machine.execFneg h f d a s
  | .fcmp h f cond d a b => Sys2Proof.Machine.execFcmp h f cond d a b s
  | .fcvt h dty sty rm d a => Sys2Proof.Machine.execFcvt h dty sty rm d a s
  | .fclass h f d a => Sys2Proof.Machine.execFclass h f d a s
  | .frnd h f rm d a => Sys2Proof.Machine.execFrnd h f rm d a s
  | .nop h => Sys2Proof.Machine.execNop h s
  | .br h disp => Sys2Proof.Machine.execBr h disp s
  | .brx h a b => Sys2Proof.Machine.execBrx h a b s
  | .call h l disp => Sys2Proof.Machine.execCall h l disp s
  | .callx h l a b => Sys2Proof.Machine.execCallx h l a b s
  | .ret h a => Sys2Proof.Machine.execRet h a s
  | .subbr h d disp amount => Sys2Proof.Machine.execSubbr h d disp amount s
  | .brd h target joinAt => Sys2Proof.Machine.execBrd h target joinAt s
  | .join h => Sys2Proof.Machine.execJoin h s
  | .capt h n1 body => Sys2Proof.Machine.execCapt h n1 body s
  | .replay h n1 body stride => Sys2Proof.Machine.execReplay h n1 body stride s
  | .exit h => Sys2Proof.Machine.execExit h s
  | .yield h => Sys2Proof.Machine.execYield h s
  | .gmask h d a => Sys2Proof.Machine.execGmask h d a s
  | .hartid h sel d => Sys2Proof.Machine.execHartid h sel d s
  | .act h g row => Sys2Proof.Machine.execAct h g row s
  | .actw h g => Sys2Proof.Machine.execActw h g s
  | .wb h g row => Sys2Proof.Machine.execWb h g row s
  | .wbp h g row => Sys2Proof.Machine.execWbp h g row s
  | .pre h g => Sys2Proof.Machine.execPre h g s
  | .prea h => Sys2Proof.Machine.execPrea h s
  | .ref h g => Sys2Proof.Machine.execRef h g s
  | .refq h d g => Sys2Proof.Machine.execRefq h d g s
  | .rowq h d form => Sys2Proof.Machine.execRowq h d form s
  | .rowCommandStart core bank => Sys2Proof.Machine.execRowCommandStart core bank s
  | .setvl h d n => Sys2Proof.Machine.execSetvl h d n s
  | .setvt h d v => Sys2Proof.Machine.execSetvt h d v s
  | .vadd h m d a b => Sys2Proof.Machine.execVadd h m d a b s
  | .vsub h m d a b => Sys2Proof.Machine.execVsub h m d a b s
  | .vmul h m d a b => Sys2Proof.Machine.execVmul h m d a b s
  | .vmulh h m d a b => Sys2Proof.Machine.execVmulh h m d a b s
  | .vmad h m d a b => Sys2Proof.Machine.execVmad h m d a b s
  | .vmin h m d a b => Sys2Proof.Machine.execVmin h m d a b s
  | .vmax h m d a b => Sys2Proof.Machine.execVmax h m d a b s
  | .vabs h m d a => Sys2Proof.Machine.execVabs h m d a s
  | .vneg h m d a => Sys2Proof.Machine.execVneg h m d a s
  | .vand h m d a b => Sys2Proof.Machine.execVand h m d a b s
  | .vor h m d a b => Sys2Proof.Machine.execVor h m d a b s
  | .vxor h m d a b => Sys2Proof.Machine.execVxor h m d a b s
  | .vnot h m d a => Sys2Proof.Machine.execVnot h m d a s
  | .vshl h m d a b => Sys2Proof.Machine.execVshl h m d a b s
  | .vshr h m d a b => Sys2Proof.Machine.execVshr h m d a b s
  | .vsar h m d a b => Sys2Proof.Machine.execVsar h m d a b s
  | .vsadd h m d a b => Sys2Proof.Machine.execVsadd h m d a b s
  | .vssub h m d a b => Sys2Proof.Machine.execVssub h m d a b s
  | .vavg h m d a b => Sys2Proof.Machine.execVavg h m d a b s
  | .vclz h m d a => Sys2Proof.Machine.execVclz h m d a s
  | .vpopc h m d a => Sys2Proof.Machine.execVpopc h m d a s
  | .vfadd h m d a b => Sys2Proof.Machine.execVfadd h m d a b s
  | .vfsub h m d a b => Sys2Proof.Machine.execVfsub h m d a b s
  | .vfmul h m d a b => Sys2Proof.Machine.execVfmul h m d a b s
  | .vfma h m np na d a b => Sys2Proof.Machine.execVfma h m np na d a b s
  | .vfdiv h m d a b => Sys2Proof.Machine.execVfdiv h m d a b s
  | .vfsqrt h m d a => Sys2Proof.Machine.execVfsqrt h m d a s
  | .vfrcp h m d a => Sys2Proof.Machine.execVfrcp h m d a s
  | .vfmin h m d a b => Sys2Proof.Machine.execVfmin h m d a b s
  | .vfmax h m d a b => Sys2Proof.Machine.execVfmax h m d a b s
  | .vfabs h m d a => Sys2Proof.Machine.execVfabs h m d a s
  | .vfneg h m d a => Sys2Proof.Machine.execVfneg h m d a s
  | .vcmp h m cond d a b => Sys2Proof.Machine.execVcmp h m cond d a b s
  | .vfcmp h m cond d a b => Sys2Proof.Machine.execVfcmp h m cond d a b s
  | .mand h d a b => Sys2Proof.Machine.execMand h d a b s
  | .mor h d a b => Sys2Proof.Machine.execMor h d a b s
  | .mxor h d a b => Sys2Proof.Machine.execMxor h d a b s
  | .mnot h d a => Sys2Proof.Machine.execMnot h d a s
  | .mpopc h m d a => Sys2Proof.Machine.execMpopc h m d a s
  | .mfirst h m d a => Sys2Proof.Machine.execMfirst h m d a s
  | .vsel h m d a b => Sys2Proof.Machine.execVsel h m d a b s
  | .vcvt h m sty part d a => Sys2Proof.Machine.execVcvt h m sty part d a s
  | .vmxq h wf seg part d a b => Sys2Proof.Machine.execVmxq h wf seg part d a b s
  | .vmxd h wf seg part d a b => Sys2Proof.Machine.execVmxd h wf seg part d a b s
  | .vlqq h wf seg part d a b => Sys2Proof.Machine.execVlqq h wf seg part d a b s
  | .vlqd h wf seg part d a b => Sys2Proof.Machine.execVlqd h wf seg part d a b s
  | .vmov h m d a => Sys2Proof.Machine.execVmov h m d a s
  | .vsplat h m d a => Sys2Proof.Machine.execVsplat h m d a s
  | .vext h d a b => Sys2Proof.Machine.execVext h d a b s
  | .vins h d a b => Sys2Proof.Machine.execVins h d a b s
  | .vperm h m d a b => Sys2Proof.Machine.execVperm h m d a b s
  | .vgath h m d a b => Sys2Proof.Machine.execVgath h m d a b s
  | .vslide h m d a b => Sys2Proof.Machine.execVslide h m d a b s
  | .vcomp h m d a => Sys2Proof.Machine.execVcomp h m d a s
  | .vexp h m d a => Sys2Proof.Machine.execVexp h m d a s
  | .viota h rank m d b => Sys2Proof.Machine.execViota h rank m d b s
  | .vreds h m d a b => Sys2Proof.Machine.execVreds h m d a b s
  | .vredmin h m d a b => Sys2Proof.Machine.execVredmin h m d a b s
  | .vredmax h m d a b => Sys2Proof.Machine.execVredmax h m d a b s
  | .vfreds h m wide d a b => Sys2Proof.Machine.execVfreds h m wide d a b s
  | .vscan h m excl d a b => Sys2Proof.Machine.execVscan h m excl d a b s
  | .vsortk h m desc d a b => Sys2Proof.Machine.execVsortk h m desc d a b s
  | .vuniq h m last d a => Sys2Proof.Machine.execVuniq h m last d a s
  | .vectorSegmentStart core bank => Sys2Proof.Machine.execVectorSegmentStart core bank s
  | .rshuf h d a b => Sys2Proof.Machine.execRshuf h d a b s
  | .rbcast h d a b => Sys2Proof.Machine.execRbcast h d a b s
  | .rxch h d a b => Sys2Proof.Machine.execRxch h d a b s
  | .rrot h d a b => Sys2Proof.Machine.execRrot h d a b s
  | .rseg h d a => Sys2Proof.Machine.execRseg h d a s
  | .busSlotGrant core => Sys2Proof.Machine.execBusSlotGrant core s
  | .tload h bf half tile scale => Sys2Proof.Machine.execTload h bf half tile scale s
  | .tmma h af half kq z aseg d a scale => Sys2Proof.Machine.execTmma h af half kq z aseg d a scale s
  | .accz h edge a => Sys2Proof.Machine.execAccz h edge a s
  | .accrd h fmt d a row => Sys2Proof.Machine.execAccrd h fmt d a row s
  | .accwr h fmt d a row => Sys2Proof.Machine.execAccwr h fmt d a row s
  | .accclm h int d a => Sys2Proof.Machine.execAccclm h int d a s
  | .accrel h a => Sys2Proof.Machine.execAccrel h a s
  | .accsv h comp addr a => Sys2Proof.Machine.execAccsv h comp addr a s
  | .accld h comp a addr => Sys2Proof.Machine.execAccld h comp a addr s
  | .tstat h sel d => Sys2Proof.Machine.execTstat h sel d s
  | .matrixOpStart core k => Sys2Proof.Machine.execMatrixOpStart core k s
  | .matrixOpComplete core k => Sys2Proof.Machine.execMatrixOpComplete core k s
  | .accTransferComplete core k => Sys2Proof.Machine.execAccTransferComplete core k s
  | .ld h ty na d base disp => Sys2Proof.Machine.execLd h ty na d base disp s
  | .st h sz na reg base disp => Sys2Proof.Machine.execSt h sz na reg base disp s
  | .lde h d base disp => Sys2Proof.Machine.execLde h d base disp s
  | .ste h reg base disp => Sys2Proof.Machine.execSte h reg base disp s
  | .ldf h d base disp => Sys2Proof.Machine.execLdf h d base disp s
  | .stf h reg base disp => Sys2Proof.Machine.execStf h reg base disp s
  | .tagr h blk d base disp => Sys2Proof.Machine.execTagr h blk d base disp s
  | .tagw h blk reg base disp => Sys2Proof.Machine.execTagw h blk reg base disp s
  | .pref h ex base disp => Sys2Proof.Machine.execPref h ex base disp s
  | .ldv h n1 d base disp => Sys2Proof.Machine.execLdv h n1 d base disp s
  | .stv h n1 reg base disp => Sys2Proof.Machine.execStv h n1 reg base disp s
  | .cinv h r => Sys2Proof.Machine.execCinv h r s
  | .cwb h r => Sys2Proof.Machine.execCwb h r s
  | .amop h op w d a b => Sys2Proof.Machine.execAmop h op w d a b s
  | .tagWaitRetry core bank => Sys2Proof.Machine.execTagWaitRetry core bank s
  | .tagWaitTimeout core bank => Sys2Proof.Machine.execTagWaitTimeout core bank s
  | .cacheLineEvict core pa => Sys2Proof.Machine.execCacheLineEvict core pa s
  | .proxyEvict stand pa => Sys2Proof.Machine.execProxyEvict stand pa s
  | .hwPrefetch core pa => Sys2Proof.Machine.execHwPrefetch core pa s
  | .amo h op w d a b => Sys2Proof.Machine.execAmo h op w d a b s
  | .cas h size d a b => Sys2Proof.Machine.execCas h size d a b s
  | .red h op w a b => Sys2Proof.Machine.execRed h op w a b s
  | .redv h m op d a form => Sys2Proof.Machine.execRedv h m op d a form s
  | .redf h scope => Sys2Proof.Machine.execRedf h scope s
  | .pgq h pa d base disp => Sys2Proof.Machine.execPgq h pa d base disp s
  | .writeQueueAccept k => Sys2Proof.Machine.execWriteQueueAccept k s
  | .writeQueueApply core bank => Sys2Proof.Machine.execWriteQueueApply core bank s
  | .atomicResultReturn core bank => Sys2Proof.Machine.execAtomicResultReturn core bank s
  | .columnAccessArrival pa kind by_ => Sys2Proof.Machine.execColumnAccessArrival pa kind by_ s
  | .columnAccessServe core bank => Sys2Proof.Machine.execColumnAccessServe core bank s
  | .pageWalk core bank va => Sys2Proof.Machine.execPageWalk core bank va s
  | .atsCompletion core ctx va answer => Sys2Proof.Machine.execAtsCompletion core ctx va answer s
  | .atsInvalidation host len => Sys2Proof.Machine.execAtsInvalidation host len s
  | .fence h scope pred succ => Sys2Proof.Machine.execFence h scope pred succ s
  | .ifence h => Sys2Proof.Machine.execIfence h s
  | .enq h m d a n => Sys2Proof.Machine.execEnq h m d a n s
  | .enq1 h d a => Sys2Proof.Machine.execEnq1 h d a s
  | .estat h form d => Sys2Proof.Machine.execEstat h form d s
  | .esusp h d b => Sys2Proof.Machine.execEsusp h d b s
  | .bari h a b => Sys2Proof.Machine.execBari h a b s
  | .barp h d a b => Sys2Proof.Machine.execBarp h d a b s
  | .bara h d a b => Sys2Proof.Machine.execBara h d a b s
  | .barw h d a b => Sys2Proof.Machine.execBarw h d a b s
  | .wait h cond d a b => Sys2Proof.Machine.execWait h cond d a b s
  | .waitv h all n1 d a => Sys2Proof.Machine.execWaitv h all n1 d a s
  | .barrierWaitWake core bank => Sys2Proof.Machine.execBarrierWaitWake core bank s
  | .wordWaitSatisfied core bank => Sys2Proof.Machine.execWordWaitSatisfied core bank s
  | .copyCommandStart core ch => Sys2Proof.Machine.execCopyCommandStart core ch s
  | .copyCompletion core slot => Sys2Proof.Machine.execCopyCompletion core slot s
  | .copyFault core slot => Sys2Proof.Machine.execCopyFault core slot s
  | .copyPermissionStop core slot => Sys2Proof.Machine.execCopyPermissionStop core slot s
  | .savedCommandReentry core slot => Sys2Proof.Machine.execSavedCommandReentry core slot s
  | .sfcfg h d a b => Sys2Proof.Machine.execSfcfg h d a b s
  | .sfpush h m d a n => Sys2Proof.Machine.execSfpush h m d a n s
  | .sfround h comp list max => Sys2Proof.Machine.execSfround h comp list max s
  | .sfdrain h rel comp dst max => Sys2Proof.Machine.execSfdrain h rel comp dst max s
  | .sfstat h sel d => Sys2Proof.Machine.execSfstat h sel d s
  | .sifterRound core => Sys2Proof.Machine.execSifterRound core s
  | .sifterDrainRun core => Sys2Proof.Machine.execSifterDrainRun core s
  | .pushEnterQueue core => Sys2Proof.Machine.execPushEnterQueue core s
  | .sifterSave core => Sys2Proof.Machine.execSifterSave core s
  | .csrr h d csr => Sys2Proof.Machine.execCsrr h d csr s
  | .csrw h csr a => Sys2Proof.Machine.execCsrw h csr a s
  | .csrs h csr a => Sys2Proof.Machine.execCsrs h csr a s
  | .csrc h csr a => Sys2Proof.Machine.execCsrc h csr a s
  | .trap h code a => Sys2Proof.Machine.execTrap h code a s
  | .eret h => Sys2Proof.Machine.execEret h s
  | .halt h a => Sys2Proof.Machine.execHalt h a s
  | .wdog h d set => Sys2Proof.Machine.execWdog h d set s
  | .ctxq h sel d => Sys2Proof.Machine.execCtxq h sel d s
  | .bkpt h a => Sys2Proof.Machine.execBkpt h a s
  | .pfx imm => Sys2Proof.Machine.execPfx imm s
  | .launch h d base disp => Sys2Proof.Machine.execLaunch h d base disp s
  | .depdec h d a n => Sys2Proof.Machine.execDepdec h d a n s
  | .depq h d a => Sys2Proof.Machine.execDepq h d a s
  | .softwareTrapTaken core bank => Sys2Proof.Machine.execSoftwareTrapTaken core bank s
  | .engineTrapTaken core bank => Sys2Proof.Machine.execEngineTrapTaken core bank s
  | .debtTick core bank => Sys2Proof.Machine.execDebtTick core bank s
  | .hotChange stand hot => Sys2Proof.Machine.execHotChange stand hot s
  | .autoRefInsert core bank g => Sys2Proof.Machine.execAutoRefInsert core bank g s
  | .refreshDeadlineTrap core bank => Sys2Proof.Machine.execRefreshDeadlineTrap core bank s
  | .forcedRefresh core bank g => Sys2Proof.Machine.execForcedRefresh core bank g s
  | .watchdogExpiry core slot => Sys2Proof.Machine.execWatchdogExpiry core slot s
  | .class0Request core => Sys2Proof.Machine.execClass0Request core s
  | .quantumExpiry core => Sys2Proof.Machine.execQuantumExpiry core s
  | .idleYield core => Sys2Proof.Machine.execIdleYield core s
  | .ageingPromotion core slot => Sys2Proof.Machine.execAgeingPromotion core slot s
  | .contextSwitch core => Sys2Proof.Machine.execContextSwitch core s
  | .eviction core slot => Sys2Proof.Machine.execEviction core slot s
  | .admission seq k core slot => Sys2Proof.Machine.execAdmission seq k core slot s
  | .debugStop core slot => Sys2Proof.Machine.execDebugStop core slot s
  | .debugArm ctx on => Sys2Proof.Machine.execDebugArm ctx on s
  | .debugStopRequest ctx => Sys2Proof.Machine.execDebugStopRequest ctx s
  | .debugResume ctx => Sys2Proof.Machine.execDebugResume ctx s
  | .queueEntryConsume c => Sys2Proof.Machine.execQueueEntryConsume c s
  | .qtail c v => Sys2Proof.Machine.execQtail c v s
  | .launchLeaveWaits seq => Sys2Proof.Machine.execLaunchLeaveWaits seq s
  | .launchEnd seq => Sys2Proof.Machine.execLaunchEnd seq s
  | .placementEnd seq k => Sys2Proof.Machine.execPlacementEnd seq k s
  | .journalHead v => Sys2Proof.Machine.execJournalHead v s
  | .faultLogHead v => Sys2Proof.Machine.execFaultLogHead v s
  | .fresRetry seq => Sys2Proof.Machine.execFresRetry seq s
  | .fresDeliver seq => Sys2Proof.Machine.execFresDeliver seq s
  | .fresEnd seq => Sys2Proof.Machine.execFresEnd seq s
  | .tqseq v => Sys2Proof.Machine.execTqseq v s
  | .tinv v => Sys2Proof.Machine.execTinv v s
  | .tinvl v => Sys2Proof.Machine.execTinvl v s
  | .translationInvalidationDone => Sys2Proof.Machine.execTranslationInvalidationDone s
  | .errstClear v => Sys2Proof.Machine.execErrstClear v s
  | .deviceReset => Sys2Proof.Machine.execDeviceReset s
  | .placeEnable v => Sys2Proof.Machine.execPlaceEnable v s
  | .plim v => Sys2Proof.Machine.execPlim v s
  | .fabricConfigWrite r v => Sys2Proof.Machine.execFabricConfigWrite r v s
  | .registerWrite off v => Sys2Proof.Machine.execRegisterWrite off v s
  | .hostBar2Read off n => Sys2Proof.Machine.execHostBar2Read off n s
  | .hostBar2Write off bytes => Sys2Proof.Machine.execHostBar2Write off bytes s
  | .hostBar4Access off write => Sys2Proof.Machine.execHostBar4Access off write s
  | .linkReset => Sys2Proof.Machine.execLinkReset s
  | .serviceMailbox core bank g => Sys2Proof.Machine.execServiceMailbox core bank g s
  | .fabricArrival src req => Sys2Proof.Machine.execFabricArrival src req s
  | .linkFailure link => Sys2Proof.Machine.execLinkFailure link s
  | .fabricRequestTimeout => Sys2Proof.Machine.execFabricRequestTimeout s
  | .budgetWindow => Sys2Proof.Machine.execBudgetWindow s
  | .retentionMeasurement core bank g weak => Sys2Proof.Machine.execRetentionMeasurement core bank g weak s
  | .trainingComplete => Sys2Proof.Machine.execTrainingComplete s
  | .fullServiceEntry => Sys2Proof.Machine.execFullServiceEntry s
  | .bankOwnPrecharge core bank g => Sys2Proof.Machine.execBankOwnPrecharge core bank g s
  | .commandSuspensionStop core slot blocks => Sys2Proof.Machine.execCommandSuspensionStop core slot blocks s
  | .watchdogTrapTaken core bank => Sys2Proof.Machine.execWatchdogTrapTaken core bank s
  | .qsize r v => Sys2Proof.Machine.execQsize r v s
  | .qbase r v => Sys2Proof.Machine.execQbase r v s
  | .tableQueryResult => Sys2Proof.Machine.execTableQueryResult s
  | .rowTagWrite core bank g row tag => Sys2Proof.Machine.execRowTagWrite core bank g row tag s

end Sys2Proof.Machine
end

