-- ==== Sys2Proof/Machine/Step.lean ====
section
/-! DEFINITION. One step of the machine, and the placing of an instruction where the next step fetches it. -/

namespace Sys2Proof.Machine

/-- One step of the machine. -/
def step (s : State) : Host.Outcome State Fault Refusal := stepWith exec nextEvent s

/-- The state with an instruction placed where the next step fetches it: a context resident on core 0, whose code page holds
the word at its start, and whose gang is next on the agenda. -/
def State.withFetchWord (s : State) (nbits w : Nat) : State :=
  { s with dev := s.dev.placeWord (w % 2 ^ nbits), iss := {}, agenda := [.issue 0 0] }

end Sys2Proof.Machine
end

