-- ==== Sys2Proof/Safety.lean ====
section
/-! DEFINITION. What counts as a safe state and an undisturbed word, in the terms that statements use: the canonical form of
the memories, a convoy that goes on, a hart with nothing outstanding, and the effect of a word that writes one register. -/

namespace Sys2Proof.Machine

/-! ### The canonical form of the memories -/

/-- Every memory that a residence holds is canonical. -/
def Residence.memOk (r : Residence) : Bool := r.scratch.wf && r.frames.wf
/-- The array, the vaults and host memory of a package are canonical. -/
def Device.memOk (d : Device) : Bool := d.mem.wf && d.vault.wf && d.host.wf
/-- The canonical form of a package with all its residences. -/
def Device.stored (d : Device) : Bool := d.memOk && d.ress.all fun p => p.2.memOk
/-- The canonical form of every memory of a state: of the package, and of the package that the convoy being executed would
fall back to. -/
def State.stored (s : State) : Bool :=
  s.dev.stored && (match s.iss.undo with
    | some d => d.stored
    | none => true)

/-! ### A word that nothing disturbs -/

/-- The state as the words of a convoy find it: at the first word, with the results that are due landed (R32, R67). -/
def State.begun (s : State) : State := s.begin s.gang
/-- The active harts of the convoy's gang. -/
def State.active (s : State) : List Nat := banksOf s.gang.gm
/-- A gang executes a convoy of which no check has failed and which nothing holds. -/
structure State.Runs (s : State) : Prop where
  gang : (s.dev.gang? s.rk s.iss.base).isSome = true
  fails : s.iss.fails = []
  hold : s.iss.hold = none
/-- A hart awaits no result of an atomic, and no fixed-latency result that its checking scoreboard would report (R67, R69). -/
def Hart.Calm (t : Hart) : Prop := t.flight = none ∧ (t.schk.getLsbD 0 = false ∨ t.due = [])
/-- A convoy goes on, its harts are calm, and no queued matrix operation is still to write a register of theirs (R227): a
word that only reads and writes registers runs. -/
structure State.Calm (s : State) : Prop extends State.Runs s where
  harts : ∀ k ∈ s.active, (s.begun.hart k).Calm
  dests : ∀ k ∈ s.active, ∀ r, s.begun.dev.mxDest s.rk k r = false
/-- A convoy goes on and nothing of the core is outstanding: no row command, no matrix operation, no earlier convoy. -/
structure State.Quiet (s : State) : Prop extends State.Calm s where
  rows : ∀ k < 16, (s.begun.dev.bank s.iss.core k).rowQ = []
  segs : ∀ k < 16, (s.begun.dev.bank s.iss.core k).segs = []
  matrix : (s.begun.dev.core s.iss.core).mx = []
  /-- nor was there before the words of the convoy so far -/
  rowsFirst : ∀ k < 16, (s.begun.rollback.bank s.iss.core k).rowQ = []
  matrixFirst : (s.begun.rollback.core s.iss.core).mx = []
  retired : ∀ k ∈ s.active, s.begun.unretired k = false
  /-- no VSORTK or VGATH of the gang is under way -/
  long : s.begun.rollback.longRuns s.rk s.iss.base s.gang = false
/-- The same with one active hart, on which the guard of the word is true. -/
structure State.Solo (s : State) (h : Hdr) (k : Nat) : Prop extends State.Quiet s where
  only : s.active = [k]
  on : s.begun.guard h k = true

/-! ### What a word leaves -/

/-- A word runs to its end: its own part leaves `u`, in which nothing has failed and nothing waits, and then the word ends
(its stall, and the next word or the end of the convoy). -/
def RunsTo (s : State) (h : Hdr) (i : Instr) (u : State) : Prop :=
  exec i s = .next (u.endWord h) ∧ u.iss.fails = [] ∧ u.iss.hold = none
/-- A word that writes one register: on every active hart whose guard is true the register reads as given, unless it is
`x0` or `p0`; every other register of every hart reads as before, and nothing else of the package changes. -/
structure RegEffect (s : State) (h : Hdr) (d : Reg) (v : Nat → Word) (u : State) : Prop where
  result : ∀ k ∈ s.active, s.begun.guard h k = true → d.fixed = false → (u.hart k).get d = v k
  others : ∀ k < 16, ∀ r, r ≠ d ∨ d.fixed = true ∨ k ∉ s.active ∨ s.begun.guard h k = false →
    (u.hart k).get r = (s.begun.hart k).get r
  csrs : ∀ k < 16, { u.hart k with conv := (s.begun.hart k).conv, flight := (s.begun.hart k).flight } = s.begun.hart k
  rest : u.dev = { s.begun.dev with harts := u.dev.harts }
/-- A word runs and writes one register. -/
def WritesReg (s : State) (h : Hdr) (i : Instr) (d : Reg) (v : Nat → Word) : Prop :=
  ∃ u, RunsTo s h i u ∧ RegEffect s h d v u

/-- A scalar floating-point word: its register as `RegEffect` has it, and on the harts that run it the flags raised in FPS
(R103); no other control register changes. -/
structure FpEffect (s : State) (h : Hdr) (d : Reg) (v : Nat → Word) (fl : Nat → Flags) (u : State) : Prop where
  result : ∀ k ∈ s.active, s.begun.guard h k = true → d.fixed = false → (u.hart k).get d = v k
  others : ∀ k < 16, ∀ r, r ≠ d ∨ d.fixed = true ∨ k ∉ s.active ∨ s.begun.guard h k = false →
    (u.hart k).get r = (s.begun.hart k).get r
  sticky : ∀ k ∈ s.active, s.begun.guard h k = true → (u.hart k).fps = (s.begun.hart k).fps ||| (fl k).setWidth 64
  still : ∀ k < 16, k ∉ s.active ∨ s.begun.guard h k = false → (u.hart k).fps = (s.begun.hart k).fps
  csrs : ∀ k < 16, { u.hart k with conv := (s.begun.hart k).conv, flight := (s.begun.hart k).flight
                                   fps := (s.begun.hart k).fps } = s.begun.hart k
  rest : u.dev = { s.begun.dev with harts := u.dev.harts }
/-- A floating-point word runs: no hart that runs it has a raised flag whose trap is enabled. -/
def WritesFp (s : State) (h : Hdr) (i : Instr) (d : Reg) (v : Nat → Nat × Flags) : Prop :=
  (∀ k ∈ s.active, s.begun.guard h k = true → (v k).2 &&& trapMask (s.begun.hart k).fpc = 0) →
    ∃ u, RunsTo s h i u ∧ FpEffect s h d (fun k => BitVec.ofNat 64 (v k).1) (fun k => (v k).2) u
/-- The failed checks of a word: the word ends with these and waits for nothing. -/
def FailsWith (s : State) (h : Hdr) (i : Instr) (fails : List (Nat × Fail)) : Prop :=
  ∃ u : State, exec i s = .next (u.endWord h) ∧ u.iss.fails = fails ∧ u.iss.hold = none
/-- A word holds its convoy: no check has failed, and the convoy waits for `w`. -/
def HoldsOn (s : State) (h : Hdr) (i : Instr) (w : WaitOn) : Prop :=
  ∃ u : State, exec i s = .next (u.endWord h) ∧ u.iss.fails = [] ∧ u.iss.hold = some w
/-- The harts that run a word, each with what `f` says of it. -/
def State.failing (s : State) (h : Hdr) (f : Nat → Option Fail) : List (Nat × Fail) :=
  (s.active.filter (s.begun.guard h)).filterMap fun k => (f k).map fun e => (k, e)

/-- A word runs, leaves the package `d`, and sends control to `a`, or to the next word. -/
def RunsInto (s : State) (h : Hdr) (i : Instr) (d : Device) (a : Option Word) : Prop :=
  ∃ u, RunsTo s h i u ∧ u.dev = d ∧ u.iss.target = a
/-- A transfer to `a` that writes `v` in a register of every active hart: the package is `d`, but for that register. -/
def RunsLinked (s : State) (h : Hdr) (i : Instr) (d : Device) (a : Option Word) (r : Reg) (v : Nat → Word) : Prop :=
  ∃ u, RunsTo s h i u ∧ u.iss.target = a ∧ u.dev = { d with harts := u.dev.harts }
    ∧ (∀ k ∈ s.active, r.fixed = false → (u.hart k).get r = v k)
    ∧ ∀ k < 16, ∀ q, q ≠ r ∨ r.fixed = true ∨ k ∉ s.active → (u.hart k).get q = (s.begun.hart k).get q

/-- An event happens and leaves the package `d`: the convoy under way and the agenda stay. -/
def RunsEvent (s : State) (i : Instr) (d : Device) : Prop := exec i s = .next { s with dev := d }

/-! ### Row commands and latches -/

/-- A word that puts one command on the queue of a bank: the group of its latch is `x` afterwards, and nothing else of the
package changes. -/
structure RowEffect (s : State) (k : Nat) (g : Lat) (op : RowOp) (x : Group) (u : State) : Prop where
  group : u.grp k g = x
  queue : (u.dev.bank s.iss.core k).rowQ = [{ g := g, op := op, t0 := some s.begun.dev.now, cv := s.gang.cv }]
  groups : ∀ b < 16, ∀ j, b ≠ k ∨ j ≠ g → u.grp b j = s.begun.grp b j
  banks : ∀ b < 16, b ≠ k → u.dev.bank s.iss.core b = s.begun.dev.bank s.iss.core b
  rest : u.dev = { s.begun.dev with banks := u.dev.banks }
/-- A latch operand of a hart that a lane word may use with elements of a format: it lies in a bank of the core, it is
valid, its tag is raw or the format's, and no sector of it is poisoned (R187). -/
structure Usable (s : State) (k : Nat) (f : VFmt) (r : LatRef) : Prop where
  bank : (s.latOf k r).1 < 16
  valid : (s.begun.latR k r).valid = true
  tag : (s.begun.latR k r).tag = 0xF ∨ (s.begun.latR k r).tag.toNat = f.code
  clean : (s.begun.latR k r).poison = 0
/-- A lane word may run on the one active hart of its gang: the format of VT is one that it accepts, with a block length that
the format admits, and its latches are usable (R147, R187, R419). -/
structure State.LaneReady (s : State) (h : Hdr) (k : Nat) (ok : VFmt → Bool) (ls : List LatRef) : Prop
    extends State.Solo s h k where
  view : s.iss.view = []
  fmt : ok (s.begun.lanes k).fmt = true
  legal : (s.begun.lanes k).fmt ≠ .illegal
  blk : blkOk (s.begun.lanes k).fmt (s.begun.lanes k).bl = true
  narrow : s.begun.wide (s.begun.lanes k).fmt.bits = false
  lats : ∀ r ∈ ls, Usable s k (s.begun.lanes k).fmt r
/-- The hart of a lane word after it: sticky flags raised (R159), and its seed advanced when the word rounds
stochastically (R155). -/
def laneHart (t : Hart) (rounds : Bool) (fl : Flags) : Hart :=
  { t with fps := t.fps ||| fl.setWidth 64
           fpc := if rounds && (laneCfg t).rm == .sr then withSeed t.fpc (nextSeed (fpcSeed t.fpc)) else t.fpc }
/-- A lane word that leaves every latch but those listed, changes its own hart to `t`, and nothing else but the time of sweeps
and bus requests. -/
structure LaneEffect (s : State) (k : Nat) (t : Hart) (ds : List Lat) (u : State) : Prop where
  own : u.hart k = t
  harts : ∀ j < 16, j ≠ k → u.hart j = s.begun.hart j
  latches : ∀ b < 16, ∀ g, b ≠ k ∨ g ∉ ds → u.latch b g = s.begun.latch b g
  /-- a latch that is written keeps its record, but for its data -/
  records : ∀ g ∈ ds, u.latch k g = { s.begun.latch k g with data := (u.latch k g).data }
  rest : u.dev = { s.begun.dev with banks := u.dev.banks, cores := u.dev.cores, harts := u.dev.harts }
/-- The elements of `n` bits of a latch: the listed ones are as given, the others as they were. -/
def ElemsWritten (s u : State) (k : Nat) (d : Lat) (n : Nat) (written : List Nat) (v : Nat → Nat) : Prop :=
  ∀ i, n * (i + 1) ≤ 65536 → elemOf n (u.latch k d).data.toNat i
    = if i ∈ written then v i % 2 ^ n else elemOf n (s.begun.latch k d).data.toNat i
/-- A lane word that runs and writes elements of one latch, each with the flags that it raises. -/
def WritesLatch (s : State) (h : Hdr) (i : Instr) (k : Nat) (d : Lat) (n : Nat) (rounds : Bool) (written : List Nat)
    (v : Nat → Nat × Flags) : Prop :=
  ∃ u, RunsTo s h i u ∧ ElemsWritten s u k d n written (fun j => (v j).1)
    ∧ LaneEffect s k (laneHart (s.begun.hart k) rounds (written.foldl (fun f j => f ||| (v j).2) 0)) [d] u
/-- A lane word that runs and writes no latch: it leaves its hart as `t`. -/
def WritesHart (s : State) (h : Hdr) (i : Instr) (k : Nat) (t : Hart) : Prop := ∃ u, RunsTo s h i u ∧ LaneEffect s k t [] u
/-- A lane word that runs and writes bits of one mask of its hart: the listed bits are as given, the others as they were. -/
def WritesMask (s : State) (h : Hdr) (i : Instr) (k : Nat) (d : Msk) (written : List Nat) (v : Nat → Bool) (fl : Flags) : Prop :=
  ∃ m : LaneMask, WritesHart s h i k { laneHart (s.begun.hart k) false fl with masks := (s.begun.hart k).masks.set d.val m }
    ∧ ∀ i < 8192, m.getLsbD i = if i ∈ written then v i else (s.begun.hart k).masks[d.val].getLsbD i

/-! ### Numbers, as the rules order and round them -/

/-- (−1)^neg × m × 2^e as a multiple of 2^g, for g at or below e. -/
def unitsOf (neg : Bool) (m : Nat) (e g : Int) : Int := (if neg then -1 else 1) * (m : Int) * 2 ^ (e - g).toNat
/-- The order of two numbers, none when one is a NaN; −0 equals +0 (R104, R105). -/
def orderOf : Num → Num → Option Ordering
  | .nan _, _ | _, .nan _ => none
  | .inf s, .inf t => some (if s = t then .eq else if s then .lt else .gt)
  | .inf s, .fin .. => some (if s then .lt else .gt)
  | .fin .., .inf t => some (if t then .gt else .lt)
  | .fin s m e, .fin t n k => some (compare (unitsOf s m e (min e k)) (unitsOf t n k (min e k)))
/-- The integer k is m × 2^e rounded under a mode, for a value of a sign (R151). -/
def RoundsTo (rm : Rnd) (neg : Bool) (m : Nat) (e : Int) (k : Nat) : Prop :=
  let a := m * 2 ^ e.toNat
  let d := 2 ^ (-e).toNat
  let down := k * d ≤ a ∧ a < (k + 1) * d
  let up := a ≤ k * d ∧ k * d < a + d
  match rm with
  | .rtz => down
  | .rup => if neg then down else up
  | .rdn => if neg then up else down
  | .rne => 2 * a ≤ (2 * k + 1) * d ∧ 2 * k * d ≤ 2 * a + d ∧ ((2 * a = (2 * k + 1) * d ∨ 2 * k * d = 2 * a + d) → k % 2 = 0)
  | .sr => down ∨ up

/-! ### Values at a width -/

/-- A two-source operation at 64 bits, or on the low 32 bits with the result sign-extended (R89). -/
def atWidth (w : Bool) (f : (n : Nat) → BitVec n → BitVec n → BitVec n) (a b : Word) : Word :=
  if w then (f 32 (a.setWidth 32) (b.setWidth 32)).signExtend 64 else f 64 a b
/-- A one-source operation at 64 bits, or on the low 32 bits with the result sign-extended (R89). -/
def atWidth1 (w : Bool) (f : (n : Nat) → BitVec n → BitVec n) (a : Word) : Word := atWidth w (fun n x _ => f n x) a a
/-- A comparison of R98 on two values of one width. -/
def condSays {n : Nat} (c : Cond) (x y : BitVec n) : Bool :=
  match c with
  | .eq => x == y
  | .ne => x != y
  | .lt => x.slt y
  | .ge => y.sle x
  | .ltn => x.ult y
  | .gen => y.ule x
  | .le => x.sle y
  | .gt => y.slt x
  | .len => x.ule y
  | .gtn => y.ult x
  | .tst => x &&& y != 0
  | .ntst => x &&& y == 0
/-- The low `n` bits of a divisor are zero. -/
def zeroAt (w : Bool) (y : Word) : Bool := if w then y.setWidth 32 == 0 else y == 0

end Sys2Proof.Machine
end

