-- ==== Sys2Proof/Certificates/Slice0/Obligations.lean ====
section
/-! DEFINITION. The statements for the provers. -/

open Sys2Proof Sys2Proof.Machine

/-! ### Scalar words -/

/-- The arithmetic words of R93 and the address word of R97: each writes its destination on the harts that run it with the
given value of its sources, at 64 bits or at the low 32 bits sign-extended, and changes no other register, no control
register and nothing else of the package. -/
def Obligations.ScalarArithmetic : Prop :=
  ∀ (s : State) (h : Hdr) (w : Bool) (d : XReg) (a b : Src) (k : BitVec 2), s.Calm →
    let x := fun b' => s.begun.src b' a
    let y := fun b' => s.begun.src b' b
    WritesReg s h (.add h w d a b) (.x d) (fun j => atWidth w (fun _ p q => p + q) (x j) (y j))
    ∧ WritesReg s h (.sub h w d a b) (.x d) (fun j => atWidth w (fun _ p q => p - q) (x j) (y j))
    ∧ WritesReg s h (.mul h w d a b) (.x d) (fun j => atWidth w (fun _ p q => p * q) (x j) (y j))
    ∧ WritesReg s h (.mulh h d a b) (.x d) (fun j => ((x j).signExtend 128 * (y j).signExtend 128).extractLsb' 64 64)
    ∧ WritesReg s h (.mulhn h d a b) (.x d) (fun j => ((x j).setWidth 128 * (y j).setWidth 128).extractLsb' 64 64)
    ∧ WritesReg s h (.min h w d a b) (.x d) (fun j => atWidth w (fun _ p q => if p.sle q then p else q) (x j) (y j))
    ∧ WritesReg s h (.max h w d a b) (.x d) (fun j => atWidth w (fun _ p q => if p.sle q then q else p) (x j) (y j))
    ∧ WritesReg s h (.minn h w d a b) (.x d) (fun j => atWidth w (fun _ p q => if p ≤ q then p else q) (x j) (y j))
    ∧ WritesReg s h (.maxn h w d a b) (.x d) (fun j => atWidth w (fun _ p q => if p ≤ q then q else p) (x j) (y j))
    ∧ WritesReg s h (.abs h w d a) (.x d) (fun j => atWidth1 w (fun _ p => if p.toInt < 0 then -p else p) (x j))
    ∧ WritesReg s h (.lea h k d a b) (.x d) (fun j => x j + y j <<< k.toNat)

/-- The logic, shift, rotate and funnel words of R93 and R95, with the shift count taken modulo the width. The bit words of
R93, R95 and R97: bit-field extraction and insertion, the counts of zeros and ones, the reversals and the extensions, each
given by the bits or bytes of its result. -/
def Obligations.ScalarLogicShiftsAndBits : Prop :=
  (∀ (s : State) (h : Hdr) (w : Bool) (d : XReg) (a b : Src), s.Calm →
       let x := fun b' => s.begun.src b' a
       let y := fun b' => s.begun.src b' b
       let old := fun b' => (s.begun.hart b').getX d
       WritesReg s h (.and h d a b) (.x d) (fun j => x j &&& y j)
       ∧ WritesReg s h (.or h d a b) (.x d) (fun j => x j ||| y j)
       ∧ WritesReg s h (.xor h d a b) (.x d) (fun j => x j ^^^ y j)
       ∧ WritesReg s h (.andn h d a b) (.x d) (fun j => x j &&& ~~~ y j)
       ∧ WritesReg s h (.shl h w d a b) (.x d) (fun j => atWidth w (fun n p q => p <<< (q.toNat % n)) (x j) (y j))
       ∧ WritesReg s h (.shr h w d a b) (.x d) (fun j => atWidth w (fun n p q => p >>> (q.toNat % n)) (x j) (y j))
       ∧ WritesReg s h (.sar h w d a b) (.x d) (fun j => atWidth w (fun n p q => p.sshiftRight (q.toNat % n)) (x j) (y j))
       ∧ WritesReg s h (.rol h w d a b) (.x d) (fun j => atWidth w (fun n p q => p.rotateLeft (q.toNat % n)) (x j) (y j))
       ∧ WritesReg s h (.fshl h d a b) (.x d) (fun j => ((old j ++ x j) <<< ((y j).toNat % 64)).extractLsb' 64 64)
       ∧ WritesReg s h (.fshr h d a b) (.x d) (fun j => ((x j ++ old j) >>> ((y j).toNat % 64)).extractLsb' 0 64))
  ∧ (∀ (s : State) (h : Hdr) (w : Bool) (d : XReg) (a : Src) (pos len1 : BitVec 6), s.Calm →
       let x := fun b' => s.begun.src b' a
       let old := fun b' => (s.begun.hart b').getX d
       let n := if w then 32 else 64
       WritesReg s h (.bfx h pos len1 d a) (.x d)
         (fun j => ((x j).extractLsb' pos.toNat (len1.toNat + 1)).signExtend 64)
       ∧ WritesReg s h (.bfxn h pos len1 d a) (.x d)
         (fun j => ((x j).extractLsb' pos.toNat (len1.toNat + 1)).setWidth 64)
       ∧ (∃ v, WritesReg s h (.bfi h pos len1 d a) (.x d) v ∧ ∀ j, ∀ i < 64, (v j).getLsbD i
           = if pos.toNat ≤ i ∧ i ≤ pos.toNat + len1.toNat then (x j).getLsbD (i - pos.toNat) else (old j).getLsbD i)
       ∧ (∃ v, WritesReg s h (.clz h w d a) (.x d) v ∧ ∀ j, (v j).toNat ≤ n ∧ (∀ i < n, n - (v j).toNat ≤ i → (x j).getLsbD i = false)
           ∧ ((v j).toNat < n → (x j).getLsbD (n - 1 - (v j).toNat) = true))
       ∧ (∃ v, WritesReg s h (.ctz h w d a) (.x d) v ∧ ∀ j, (v j).toNat ≤ n ∧ (∀ i < (v j).toNat, (x j).getLsbD i = false)
           ∧ ((v j).toNat < n → (x j).getLsbD (v j).toNat = true))
       ∧ WritesReg s h (.popc h w d a) (.x d) (fun j => BitVec.ofNat 64 (((List.range n).map (x j).getLsbD).count true))
       ∧ WritesReg s h (.brev h w d a) (.x d) (fun j => atWidth1 w (fun _ p => p.reverse) (x j))
       ∧ (∃ v : Nat → Word, WritesReg s h (.bswap h w d a) (.x d) (fun j => atWidth1 w (fun n _ => (v j).setWidth n) (x j))
           ∧ ∀ j, ∀ i < n / 8, (v j).extractLsb' (8 * i) 8 = (x j).extractLsb' (n - 8 - 8 * i) 8)
       ∧ WritesReg s h (.sext h .b8 d a) (.x d) (fun j => ((x j).setWidth 8).signExtend 64)
       ∧ WritesReg s h (.sext h .b16 d a) (.x d) (fun j => ((x j).setWidth 16).signExtend 64)
       ∧ WritesReg s h (.sext h .b32 d a) (.x d) (fun j => ((x j).setWidth 32).signExtend 64)
       ∧ WritesReg s h (.zext h .b8 d a) (.x d) (fun j => ((x j).setWidth 8).setWidth 64)
       ∧ WritesReg s h (.zext h .b16 d a) (.x d) (fun j => ((x j).setWidth 16).setWidth 64)
       ∧ WritesReg s h (.zext h .b32 d a) (.x d) (fun j => ((x j).setWidth 32).setWidth 64))

/-- Selection, moves, comparison and predicate logic (R97 to R99), and the identity word (R84): a predicate result is true or
false, an `x` result 1 or 0. -/
def Obligations.ScalarSelection : Prop :=
  ∀ (s : State) (h : Hdr) (w neg : Bool) (c : Cond) (op : POp) (d : XReg) (q p r : PReg) (e : XReg) (a b : Src) (sel : HidSel),
    s.Calm →
    let x := fun b' => s.begun.src b' a
    let y := fun b' => s.begun.src b' b
    let cond := fun j => if w then condSays c ((x j).setWidth 32) ((y j).setWidth 32) else condSays c (x j) (y j)
    let bits := fun j => if (s.begun.hart j).getP p then (1 : Word) else 0
    WritesReg s h (.sel h p neg d a b) (.x d) (fun j => if (s.begun.hart j).getP p = neg then y j else x j)
    ∧ WritesReg s h (.mov h (.xs d a)) (.x d) x
    ∧ WritesReg s h (.mov h (.xp d p)) (.x d) bits
    ∧ WritesReg s h (.mov h (.pp q p)) (.p q) bits
    ∧ WritesReg s h (.mov h (.px q e)) (.p q) (fun j => if (s.begun.hart j).getX e = 0 then 0 else 1)
    ∧ WritesReg s h (.cmp h c w (.x d) a b) (.x d) (fun j => if cond j then 1 else 0)
    ∧ WritesReg s h (.cmp h c w (.p q) a b) (.p q) (fun j => if cond j then 1 else 0)
    ∧ (∀ f : Bool → Bool → Bool,
        f = (match op with
          | .and => fun u v => u && v
          | .or => fun u v => u || v
          | .xor => fun u v => Bool.xor u v
          | .andn => fun u v => u && !v
          | .orn => fun u v => u || !v
          | .nand => fun u v => !(u && v)
          | .nor => fun u v => !(u || v)
          | .xnor => fun u v => !(Bool.xor u v)) →
        WritesReg s h (.pand h op q p r) (.p q)
          (fun j => if f ((s.begun.hart j).getP p) ((s.begun.hart j).getP r) then 1 else 0))
    ∧ (s.gang.size ≤ 16 → WritesReg s h (.hartid h sel d) (.x d) (fun j => match sel with
        | .bank => BitVec.ofNat 64 (j % 16)
        | .gbase => BitVec.ofNat 64 (s.iss.base % 16)
        | .gsize => BitVec.ofNat 64 (2 ^ Nat.log2 s.gang.size)
        | .rank => BitVec.ofNat 64 (j % 16 - s.iss.base % 16)
        | .core => BitVec.ofNat 64 (s.iss.core % 128)
        | .cluster => BitVec.ofNat 64 (s.iss.core / 16 % 8)
        | .stand => BitVec.ofNat 64 (s.iss.core / 128 % 16)
        | .dev => BitVec.ofNat 64 (s.dev.fabric.dev % 2 ^ 21)
        | .pcore => BitVec.ofNat 64 (s.iss.core % 2048)
        | .phart => BitVec.ofNat 64 (s.iss.core % 2048 * 16 + j % 16)
        | .hid => BitVec.ofNat 64 (j % 16 + s.iss.base % 16 * 2 ^ 4 + Nat.log2 s.gang.size * 2 ^ 8 + s.iss.core % 2048 * 2 ^ 12
          + s.dev.fabric.dev % 2 ^ 21 * 2 ^ 23)))

/-- The dividing words (R93, R94): with nonzero divisors on the harts that run them they write the quotient or the remainder,
and a zero divisor traps with 0x15, TVAL the address of the word. -/
def Obligations.ScalarDivision : Prop :=
  ∀ (s : State) (h : Hdr) (w : Bool) (d : XReg) (a b : Src), s.Calm →
    let x := fun b' => s.begun.src b' a
    let y := fun b' => s.begun.src b' b
    let trapped := s.failing h fun j => if zeroAt w (y j) then some { cause := 0x15, tval := s.begun.iss.addr } else none
    ((∀ j ∈ s.active, s.begun.guard h j = true → zeroAt w (y j) = false) →
      WritesReg s h (.div h w d a b) (.x d) (fun j => atWidth w (fun _ p q => p.sdiv q) (x j) (y j))
      ∧ WritesReg s h (.divn h w d a b) (.x d) (fun j => atWidth w (fun _ p q => p / q) (x j) (y j))
      ∧ WritesReg s h (.rem h w d a b) (.x d) (fun j => atWidth w (fun _ p q => p.srem q) (x j) (y j))
      ∧ WritesReg s h (.remn h w d a b) (.x d) (fun j => atWidth w (fun _ p q => p % q) (x j) (y j)))
    ∧ FailsWith s h (.div h w d a b) trapped ∧ FailsWith s h (.divn h w d a b) trapped
    ∧ FailsWith s h (.rem h w d a b) trapped ∧ FailsWith s h (.remn h w d a b) trapped

/-! ### Scalar floating point -/

/-- The rounding words of R104 and R106: each writes the exact result rounded once by RoundTo, under the mode that its RM
field or FPC.RM names and with the flushing of FPC.FZ, and raises its flags in FPS. FRND gives the integer to which its operand
rounds, and raises invalid alone, for a signalling NaN; FCVT follows the table of R106. That a reserved code of FPC.RM rounds to
nearest even is the model's choice (`scalarRnd`). -/
def Obligations.FpRounding : Prop :=
  ∀ (s : State) (h : Hdr) (f : FFmt) (rm : FRm) (dty sty : CvtTy) (np na : Bool) (d : XReg) (a b : Src), s.Calm →
    let z := fun j => fpcFz (s.begun.hart j).fpc
    let r := fun j => scalarRnd (s.begun.hart j).fpc rm
    let x := fun j => fpArg (z j) (fOf f) (s.begun.src j a)
    let y := fun j => fpArg (z j) (fOf f) (s.begun.src j b)
    let o := fun j => fpArg (z j) (fOf f) ((s.begun.hart j).getX d)
    let rounded := fun j v => fpRound (z j) (fOf f) (r j) v
    WritesFp s h (.fadd h f rm d a b) (.x d) (fun j => rounded j (sumNum [x j, y j] (r j == .rdn)))
    ∧ WritesFp s h (.fsub h f rm d a b) (.x d) (fun j => rounded j (sumNum [x j, (y j).negate] (r j == .rdn)))
    ∧ WritesFp s h (.fmul h f rm d a b) (.x d) (fun j => rounded j ((mulNum (x j) (y j)).1.ex, (mulNum (x j) (y j)).2))
    ∧ WritesFp s h (.fdiv h f rm d a b) (.x d) (fun j => rounded j (divNum (x j) (y j)))
    ∧ WritesFp s h (.fsqrt h f rm d a) (.x d) (fun j => rounded j (sqrtNum (x j)))
    ∧ WritesFp s h (.fma h f rm np na d a b) (.x d) (fun j => rounded j (fmaNum (x j) (y j) (o j) np na (r j == .rdn)))
    ∧ WritesFp s h (.frnd h f rm d a) (.x d) (fun j => frndRes (z j) (fOf f) (r j) (s.begun.src j a))
    ∧ WritesFp s h (.fcvt h dty sty rm d a) (.x d) (fun j => fcvtRes (z j) dty sty (r j) (s.begun.src j a))
    ∧ (∀ (z : Bool) (r : Rnd) (v : Word), r ≠ .sr →
      (match fpArg z (fOf f) v with
        | .nan q => frndRes z (fOf f) r v = ((fOf f).cnan, if q then flNV else 0)
        | .inf n => frndRes z (fOf f) r v = ((fOf f).inf n, 0)
        | .fin n m e => ∃ k, RoundsTo r n m e k ∧ frndRes z (fOf f) r v = ((roundTo (.fin n (.rat k 1 0)) (fOf f) r).1, 0))
      ∧ (∀ F, cvtFloat dty = some F →
          (∀ G, cvtFloat sty = some G →
            fcvtRes z dty sty r v = fpRound z F r ((fpArg z G v).ex, if (fpArg z G v).isSnan then flNV else 0))
          ∧ (cvtFloat sty = none → ∃ u : Int, fcvtRes z dty sty r v = fpRound z F r (.fin (u < 0) (.rat u.natAbs 1 0), 0)
              ∧ u = (match sty with
                | .i64 => v.toInt
                | .n64 => v.toNat
                | .i32 => (v.setWidth 32).toInt
                | _ => (v.setWidth 32).toNat)))
      ∧ (∀ G, cvtFloat dty = none → cvtFloat sty = some G →
          let lo : Int := match dty with
            | .i64 => -2 ^ 63
            | .i32 => -2 ^ 31
            | _ => 0
          let hi : Int := match dty with
            | .i64 => 2 ^ 63 - 1
            | .i32 => 2 ^ 31 - 1
            | .n64 => 2 ^ 64 - 1
            | _ => 2 ^ 32 - 1
          let word := fun u : Int => (BitVec.ofInt 64 u).toNat
          match fpArg z G v with
          | .nan _ => fcvtRes z dty sty r v = (0, flNV)
          | .inf n => fcvtRes z dty sty r v = (word (if n then lo else hi), flNV)
          | .fin n m e => ∃ k, RoundsTo r n m e k ∧
              let u : Int := if n then -(k : Int) else k
              fcvtRes z dty sty r v = if hi < u then (word hi, flNV) else if u < lo then (word lo, flNV)
                else (word u, if m * 2 ^ e.toNat = k * 2 ^ (-e).toNat then 0 else flNX)))

/-- The words of R104 to R106 that do not round: the lesser and greater, the comparisons and the class of a value, and the
sign words, which work on the bits of their operand alone and raise nothing. FMIN, FMAX and FCMP follow the tables of R104 and
R105 on inputs that FPC.FZ has flushed. -/
def Obligations.FpUnrounded : Prop :=
  ∀ (s : State) (h : Hdr) (f : FFmt) (c : FCond) (d : XReg) (q : PReg) (a b : Src), s.Calm →
    let z := fun j => fpcFz (s.begun.hart j).fpc
    let n := (fOf f).width
    let bitsA := fun j => (s.begun.src j a).toNat % 2 ^ n
    WritesFp s h (.fmin h f d a b) (.x d) (fun j => fminmaxRes (z j) (fOf f) false (s.begun.src j a) (s.begun.src j b))
    ∧ WritesFp s h (.fmax h f d a b) (.x d) (fun j => fminmaxRes (z j) (fOf f) true (s.begun.src j a) (s.begun.src j b))
    ∧ WritesFp s h (.fcmp h f c (.x d) a b) (.x d) (fun j => fcmpRes (z j) (fOf f) c (s.begun.src j a) (s.begun.src j b))
    ∧ WritesFp s h (.fcmp h f c (.p q) a b) (.p q) (fun j => fcmpRes (z j) (fOf f) c (s.begun.src j a) (s.begun.src j b))
    ∧ WritesReg s h (.fabs h f d a) (.x d) (fun j => BitVec.ofNat 64 (bitsA j % 2 ^ (n - 1)))
    ∧ WritesReg s h (.fneg h f d a) (.x d) (fun j => BitVec.ofNat 64
        (if bitsA j < 2 ^ (n - 1) then bitsA j + 2 ^ (n - 1) else bitsA j - 2 ^ (n - 1)))
    ∧ (∃ k : Nat → Fin 10, WritesReg s h (.fclass h f d a) (.x d) (fun j => 1 <<< (k j).val)
        ∧ ∀ j, (k j).val = classBits (fOf f) (bitsA j))
    ∧ (∀ (z : Bool) (v w : Word),
      let p := flushBits z (fOf f) (v.toNat % 2 ^ n)
      let q := flushBits z (fOf f) (w.toNat % 2 ^ n)
      let x := (fOf f).decode p
      let y := (fOf f).decode q
      let signals : Flags := if x.isSnan || y.isSnan then flNV else 0
      let pick := fun (zero : Bool) (first : Ordering) =>
        if x.isNan && y.isNan then (fOf f).cnan else if x.isNan then q else if y.isNan then p
        else if x.isZero && y.isZero then (fOf f).signBit zero
        else if orderOf x y = some first then p else q
      fminmaxRes z (fOf f) false v w = (pick (x.neg? || y.neg?) .lt, signals)
      ∧ (fminmaxRes z (fOf f) true v w).2 = signals
      ∧ ((fminmaxRes z (fOf f) true v w).1 = pick (x.neg? && y.neg?) .gt
        ∨ (orderOf x y = some .eq ∧ (fminmaxRes z (fOf f) true v w).1 = p))
      ∧ fcmpRes z (fOf f) c v w =
        (let o := orderOf (fpArg z (fOf f) v) (fpArg z (fOf f) w)
         let quiet : Flags := if (fpArg z (fOf f) v).isSnan || (fpArg z (fOf f) w).isSnan then flNV else 0
         let loud : Flags := if o = none then flNV else 0
         match c with
         | .eq => (if o = some .eq then 1 else 0, quiet)
         | .ne => (if o = some .eq then 0 else 1, quiet)
         | .lt => (if o = some .lt then 1 else 0, loud)
         | .le => (if o = some .lt ∨ o = some .eq then 1 else 0, loud)
         | .gt => (if o = some .gt then 1 else 0, loud)
         | .ge => (if o = some .gt ∨ o = some .eq then 1 else 0, loud)
         | .un => (if o = none then 1 else 0, quiet)
         | .ord => (if o = none then 0 else 1, quiet)))

/-- A scalar floating-point word traps on each hart that runs it with a raised flag whose trap is enabled in FPC (R103):
0x14, TVAL the address of the word, and the flags in the detail of TCAUSE. Stated for the words of R104 to R106. -/
def Obligations.FpTrap : Prop :=
  ∀ (s : State) (h : Hdr) (f : FFmt) (c : FCond) (rm : FRm) (dty sty : CvtTy) (np na : Bool) (d : XReg) (q : XP) (a b : Src),
    s.Calm →
    let z := fun j => fpcFz (s.begun.hart j).fpc
    let r := fun j => scalarRnd (s.begun.hart j).fpc rm
    let x := fun j => s.begun.src j a
    let y := fun j => s.begun.src j b
    let o := fun j => (s.begun.hart j).getX d
    let traps := fun (i : Instr) (fl : Nat → Flags) => FailsWith s h i (s.failing h fun j =>
      if fl j &&& trapMask (s.begun.hart j).fpc = 0 then none
      else some { cause := 0x14, tval := s.begun.iss.addr, detail := (fl j).toNat % 32 })
    traps (.fadd h f rm d a b) (fun j => (faddRes (z j) (fOf f) (r j) false (x j) (y j)).2)
    ∧ traps (.fsub h f rm d a b) (fun j => (faddRes (z j) (fOf f) (r j) true (x j) (y j)).2)
    ∧ traps (.fmul h f rm d a b) (fun j => (fmulRes (z j) (fOf f) (r j) (x j) (y j)).2)
    ∧ traps (.fdiv h f rm d a b) (fun j => (fdivRes (z j) (fOf f) (r j) (x j) (y j)).2)
    ∧ traps (.fsqrt h f rm d a) (fun j => (fsqrtRes (z j) (fOf f) (r j) (x j)).2)
    ∧ traps (.fma h f rm np na d a b) (fun j => (fmaRes (z j) (fOf f) (r j) np na (o j) (x j) (y j)).2)
    ∧ traps (.fmin h f d a b) (fun j => (fminmaxRes (z j) (fOf f) false (x j) (y j)).2)
    ∧ traps (.fmax h f d a b) (fun j => (fminmaxRes (z j) (fOf f) true (x j) (y j)).2)
    ∧ traps (.frnd h f rm d a) (fun j => (frndRes (z j) (fOf f) (r j) (x j)).2)
    ∧ traps (.fcmp h f c q a b) (fun j => (fcmpRes (z j) (fOf f) c (x j) (y j)).2)
    ∧ traps (.fcvt h dty sty rm d a) (fun j => (fcvtRes (z j) dty sty (r j) (x j)).2)

/-- A floating-point result that is a NaN is the canonical NaN of its format (R102), and a NaN operand of a rounding word
makes its result one (R104). -/
def Obligations.FpCanonicalNaN : Prop :=
  (∀ f rm sat k, f ≠ .e2m1 → roundTo .nan f rm sat k = (f.cnan, fl0))
  ∧ FF.cnan .f64 = 0x7FF8000000000000 ∧ FF.cnan .f32 = 0x7FC00000 ∧ FF.cnan .bf16 = 0x7FC0 ∧ FF.cnan .f16 = 0x7E00
  ∧ ∀ (f : FFmt) (z : Bool) (rm : Rnd) (np na : Bool) (d a b : Word),
    ((fOf f).decode (fpBits (fOf f) a)).isNan = true →
      (faddRes z (fOf f) rm false a b).1 = (fOf f).cnan ∧ (faddRes z (fOf f) rm false b a).1 = (fOf f).cnan
      ∧ (faddRes z (fOf f) rm true a b).1 = (fOf f).cnan ∧ (faddRes z (fOf f) rm true b a).1 = (fOf f).cnan
      ∧ (fmulRes z (fOf f) rm a b).1 = (fOf f).cnan ∧ (fmulRes z (fOf f) rm b a).1 = (fOf f).cnan
      ∧ (fdivRes z (fOf f) rm a b).1 = (fOf f).cnan ∧ (fdivRes z (fOf f) rm b a).1 = (fOf f).cnan
      ∧ (fsqrtRes z (fOf f) rm a).1 = (fOf f).cnan
      ∧ (fmaRes z (fOf f) rm np na d a b).1 = (fOf f).cnan ∧ (fmaRes z (fOf f) rm np na d b a).1 = (fOf f).cnan
      ∧ (fmaRes z (fOf f) rm np na a d b).1 = (fOf f).cnan ∧ (frndRes z (fOf f) rm a).1 = (fOf f).cnan
      ∧ ∀ dty sty F, cvtFloat sty = some (fOf f) → cvtFloat dty = some F → (fcvtRes z dty sty rm a).1 = F.cnan

/-! ### The machine: steps, convoys, traps -/

/-- A step runs the decoded instruction: the next word of a convoy under way, when it decodes, is executed, and so is the
first word of the convoy that a gang issues whose turn it is (R65), with the gang's core, slot, bank and pc as the place of the
convoy. -/
def Obligations.StepRunsTheDecodedWord : Prop :=
  (∀ (s : State) (w : IWord) (l : List IWord) (i : Instr), s.iss.rest = w :: l → decode w = .ok i →
    step s = exec i { s with iss := { s.iss with rest := l } })
  ∧ ∀ (s : State) (c b : Nat) (l : List Turn) (slot : Fin 3) (r : Residence) (g : Gang) (d : Device) (a : Word) (w : IWord)
      (ws : List (Word × IWord)) (i : Instr),
    s.iss.rest = [] → s.agenda = .issue c b :: l → (s.dev.core c).issuing = some slot →
    s.dev.res? (resKey c slot) = some r → s.dev.gang? (resKey c slot) b = some g →
    b ∈ s.dev.candidates c → s.dev.dueTrap (resKey c slot) b g = none → g.replay = none → g.entry = false →
    s.dev.fetchConvoy c r.ctx g.pc = (d, .ok ((a, w) :: ws)) → encodingFail g.size ((a, w) :: ws) = none →
    decode w = .ok i →
    step s = exec i
      { dev := { d with turn := c }
        iss := { core := c, slot := slot, base := b, addr := g.pc, rest := ws.map Prod.snd }, agenda := l }

/-- The word that a fetch finds is the twelve bytes of the array at the address that the page of the code address leads to,
the first byte lowest (R9, R25, R276), for a page that the translation cache of the core holds, with execute permission, on
the home stand of the line, with no copy of it in a cache, no refresh or row command waiting in its bank, and no row write
pending in its group. -/
def Obligations.FetchReadsTheArray : Prop :=
  ∀ (d : Device) (core : Nat) (ctx : BitVec 12) (a key : Nat) (e : AtcEntry),
    d.mem.wf = true → a < 2 ^ 56 → (d.core core).atc.find? (fun x => x.covers ctx a) = some e →
    nbit e.leaf.1 4 = true → nbit e.leaf.1 5 = false →
    d.stor (d.leafPa { low := e.leaf.1, oa := e.leaf.2, log := e.log } (a % 2 ^ e.log)) = .dram key →
    homeStand key = some (core / 128) → key % 64 + 12 ≤ 64 → d.memBad.contains (key / 64) = false →
    (∀ c ∈ d.lines, c.line ≠ key / 64) → (∀ p ∈ d.proxies, p.line ≠ key / 64) →
    (d.bank (keyCore key) (keyBank key)).rowQ = [] →
    (d.group (keyCore key) (keyBank key) (keyGroup key)).pend = none →
    ∃ w, (d.fetchWord core ctx a).2 = .ok w ∧ ∀ k < 12, w.extractLsb' (8 * k) 8 = d.mem.byte (key + k)

/-- A convoy that breaks an encoding check of R37 is not executed: every active hart of its gang fails with 0x01, TVAL the
address of the illegal word, and the trap is that of the convoy's start (R38, R58). -/
def Obligations.IllegalWordFails : Prop :=
  ∀ (s : State) (c b : Nat) (l : List Turn) (slot : Fin 3) (r : Residence) (g : Gang) (d : Device) (ws : List (Word × IWord))
      (a : Word),
    s.iss.rest = [] → s.agenda = .issue c b :: l → (s.dev.core c).issuing = some slot →
    s.dev.res? (resKey c slot) = some r → s.dev.gang? (resKey c slot) b = some g →
    b ∈ s.dev.candidates c → s.dev.dueTrap (resKey c slot) b g = none → g.replay = none → g.entry = false →
    s.dev.fetchConvoy c r.ctx g.pc = (d, .ok ws) → badWord g.size (ws.length == 1) false ws = some a →
    step s = .next
      { dev := (((d.modCore c fun x => { x with last := b }).yielded (resKey c slot) b).takeFails (resKey c slot) b g.pc
          ((banksOf g.gm).map fun k => (k, ({ cause := 0x01, tval := a } : Fail)))).tick
        iss := {}, agenda := l }

/-- A convoy whose checks all passed, and for which the core has power credit, takes effect at its last word (R32, R66, R417): the
nominal time of the gang goes on by one and the largest STALL, its pc is the target of a transfer or else the next word, each of its
harts commits its register writes, all of which land at once where the convoy returns from a handler (R70), and no byte of the array, of
a vault, of host memory or of a scratchpad changes. -/
def Obligations.ConvoyTakesEffect : Prop :=
  ∀ (u : State) (h : Hdr) (g : Gang),
    h.c = false → u.iss.fails = [] → u.iss.hold = none → u.iss.replay = false →
    (∀ p ∈ u.iss.sweeps, p.2.cost ≤ 96) → u.dev.gang? u.rk u.iss.base = some g → u.iss.base + g.size ≤ 16 →
    u.rollback.throttled u.iss.core u.rk (u.iss.charge + u.iss.later) = false →
    let t : State := u.endWord h
    (∃ g', t.dev.gang? u.rk u.iss.base = some g' ∧ g'.n = g.n + 1 + max u.iss.stall h.stall.toNat
      ∧ g'.pc = u.iss.target.getD (nextWord u.iss.addr) ∧ g'.gm = g.gm ∧ g'.ds = g.ds ∧ g'.live = g.live ∧ g'.wait = none)
    ∧ (∀ k, u.iss.base ≤ k → k < u.iss.base + g.size → t.dev.hart u.rk k
        = if u.iss.lands then ((u.hart k).commit g.n).landAll else (u.hart k).commit g.n)
    ∧ t.iss = {} ∧ t.agenda = u.agenda
    ∧ t.dev.mem = u.dev.mem ∧ t.dev.memBad = u.dev.memBad ∧ t.dev.vault = u.dev.vault ∧ t.dev.host = u.dev.host
    ∧ t.dev.banks = u.dev.banks ∧ ∀ rk, (t.dev.res? rk).map Residence.scratch = (u.dev.res? rk).map Residence.scratch

/-- A fixed-latency result written in a convoy at nominal time N, with latency L, is what a register reads as in a later
convoy of the gang exactly when that convoy's nominal time is at least N + L, and before that the register reads as it did
(R67); an interlocked result is there at once. -/
def Obligations.FixedLatency : Prop :=
  ∀ (t : Hart) (r : Reg) (v : Word) (N M L : Nat), r.fixed = false → t.due = [] → t.flight = none →
    let read := fun (x : Hart) => ({ x with conv := [] } : Hart).get r
    (t.conv = [{ reg := r, val := v, lat := some L }] →
      read ((t.commit N).land M) = if N + L ≤ M then (match r with | .x _ => v | .p _ => boolWord (v != 0)) else read t)
    ∧ (t.conv = [{ reg := r, val := v, lat := none }] →
      read ((t.commit N).land M) = match r with | .x _ => v | .p _ => boolWord (v != 0))

/-- A convoy of which a check failed takes no effect (R32, R58): the package is as the convoy found it, but for what the trap
itself changes, the errors that the fabric has raised, the turn of the core's issue slot, and the cycle that passes. A convoy
whose sweep cost exceeds 96 ck on a hart fails with 0x04 there, TVAL the address of its first word, whatever else failed
(R190). A convoy that waits holds before any word of it takes effect (R32, R64): its gang waits, the package is otherwise as
the convoy found it, and no cycle passes by the attempt. The translations that the convoy has walked for stay cached either way (R279).
Stated for the waits that ask nothing of the host and of no barrier and clean no line. That an interlock holds the convoy whatever else
failed is the model's reading (log 40), that one which failed traps whatever else it waits for, power credit too, is its choice
(logs 51, 55), and so is whether a cycle passes (log 5). -/
def Obligations.ConvoyFailures : Prop :=
  let free := fun (u : State) => ∀ w, u.iss.hold = some w → w.interlock = false
  let back := fun (u : State) (d : Device) => d.modCore u.iss.core fun c => { c with atc := (u.dev.core u.iss.core).atc }
  let turned := fun (u : State) (d : Device) => (d.yielded u.rk u.iss.base).modCore u.iss.core fun c =>
    { c with last := u.iss.base }
  (∀ (u : State) (h : Hdr) (d : Device), h.c = false → u.iss.fails ≠ [] → u.iss.undo = some d → free u → u.iss.replay = false →
       (∀ p ∈ u.iss.sweeps, p.2.cost ≤ 96) →
       u.endWord h = { dev := (turned u ((back u { d with regs := u.dev.regs, fabric := u.dev.fabric }).takeFails u.rk u.iss.base u.iss.start
                         u.iss.fails)).tick
                       iss := {}, agenda := u.agenda })
  ∧ (∀ (u : State) (h : Hdr) (d : Device), h.c = false → u.iss.undo = some d → free u → u.iss.replay = false →
       (∃ p ∈ u.iss.sweeps, 96 < p.2.cost) →
       u.endWord h = { dev := (turned u ((back u { d with regs := u.dev.regs, fabric := u.dev.fabric }).takeFails u.rk u.iss.base u.iss.start
                         ((u.iss.sweeps.filter fun p => 96 < p.2.cost).map fun p =>
                           (p.1, ({ cause := 0x04, tval := u.iss.head } : Fail))))).tick
                       iss := {}, agenda := u.agenda })
  ∧ (∀ (u : State) (h : Hdr) (d : Device) (w : WaitOn), h.c = false → u.iss.hold = some w →
       (u.iss.fails = [] ∧ (∀ p ∈ u.iss.sweeps, p.2.cost ≤ 96)) ∨ w.interlock = true → u.iss.undo = some d →
       (match w with | .ats _ _ => False | .pool _ => False | .lines _ _ => False | _ => True) →
       u.endWord h
         = { dev := (((back u d).modGang u.rk u.iss.base fun g =>
                 let since := (match g.wait with
                  | some o => if o.on.like w then o.since else d.now
                  | none => d.now)
                 { g with wait := some { on := w, retry := false, tried := d.now, pool := g.wait.bind Waiting.pool
                                         since := since } }).yielded u.rk u.iss.base).stopForCmd u.rk
             iss := {}, agenda := u.agenda })

/-- A trap taken by a gang with a handler and no handler running (R58, R70, R371, R374): each active hart saves its own cause
and TVAL, or in sympathy those of the lowest failing bank, with the start of the convoy and the mask and stack depth for the
return; every result in flight lands; the gang goes on at TVEC; and nothing else of the package changes. A trap with no
handler, or while one runs, kills the launch instead (R374, R376): the launch records the cause, the pc and the value of the
lowest failing bank, unless a kill came before. -/
def Obligations.TrapsTaken : Prop :=
  (∀ (d : Device) (rk base : Nat) (tpc : Word) (fails : List (Nat × Fail)) (r : Residence) (g : Gang) (low : Nat × Fail),
       d.res? rk = some r → d.gang? rk base = some g → low ∈ fails → (∀ p ∈ fails, low.1 < p.1 ∨ p = low) → r.tvec ≠ 0 →
       (∀ k ∈ banksOf g.gm, base ≤ k ∧ k < base + g.size ∧ (d.hart rk k).tcause.getLsbD 10 = false) →
       (∀ p ∈ fails, p.2.cause < 256 ∧ p.2.detail < 2 ^ 16) →
       let t := d.takeTrap rk base tpc fails
       t.gang? rk base = some { g with pc := r.tvec, entry := true, wait := none, replay := none, yieldTo := none }
       ∧ (∀ k ∈ banksOf g.gm,
           let x := t.hart rk k
           let f := ((fails.find? fun p => p.1 = k).getD low).2
           (x.tcause.extractLsb' 0 8).toNat = f.cause
           ∧ x.tcause.getLsbD 8 = (fails.find? fun p => p.1 = k).isNone ∧ x.tcause.getLsbD 9 = f.sw ∧ x.tcause.getLsbD 10 = true
           ∧ (x.tcause.extractLsb' 16 16).toNat = f.detail ∧ x.tcause.extractLsb' 11 5 = 0 ∧ x.tcause.extractLsb' 32 32 = 0
           ∧ x.tpc = tpc ∧ x.tval = f.tval ∧ x.shGm = g.gm ∧ x.shDepth = g.ds.length
           ∧ x.x = ((d.hart rk k).landAll).x ∧ x.p = ((d.hart rk k).landAll).p ∧ x.due = [])
       ∧ ∃ gs hs, t = { d with gangs := gs, harts := hs })
  ∧ (∀ (d : Device) (rk base : Nat) (tpc : Word) (fails : List (Nat × Fail)) (r : Residence) (g : Gang) (low : Nat × Fail) (l : Launch),
       d.res? rk = some r → d.gang? rk base = some g → low ∈ fails → (∀ p ∈ fails, low.1 < p.1 ∨ p = low) →
       (r.tvec = 0 ∨ ∃ k ∈ banksOf g.gm, (d.hart rk k).tcause.getLsbD 10 = true) →
       d.launch? r.seq = some l → l.killed = none →
       ((d.takeTrap rk base tpc fails).launch? r.seq).bind Launch.killed
         = some { cause := low.2.cause, tpc := tpc, tval := low.2.tval, bank := low.1, core := rk / 3 })

/-- A page fault of a convoy takes the host's path (R283, R284): the context is stopped waiting for the host, no hart's
registers are written, and one new fault record is made for each faulting hart, with its address, detail and access. While the fault
log has no room the record waits, and memory is as it was; a record for which there is room is written as its 32 bytes at TAIL, TAIL goes
on, and vector 1 is raised (R410). -/
def Obligations.PageFaultStopsTheContext : Prop :=
  (∀ (d : Device) (rk base : Nat) (tpc : Word) (fails : List (Nat × Fail)) (r : Residence) (g : Gang),
    d.res? rk = some r → d.gang? rk base = some g → d.faultLog.full = true → (∃ p ∈ fails, p.2.cause = 0x0C) →
    let t := d.takeFails rk base tpc fails
    (t.res? rk).map Residence.state = some .faultWaiting ∧ t.harts = d.harts ∧ t.mem = d.mem ∧ t.vault = d.vault ∧ t.host = d.host
    ∧ t.faults = d.faults ++ (fails.filter fun p => p.2.cause == 0x0C).zipIdx.map (fun q =>
        ({ seq := d.faultSeq + q.2, launch := r.seq, ctx := r.ctx, core := rk / 3, slot := resSlot rk, bank := q.1.1, base := base
           cmd := none, va := q.1.2.tval, tpc := tpc, detail := q.1.2.detail, access := q.1.2.access, written := false } : FaultRec))
    ∧ ∃ g', t.gang? rk base = some g' ∧ g'.faultFails = fails ∧ g'.pc = g.pc ∧ g'.gm = g.gm ∧ g'.faults.length
        = (fails.filter fun p => p.2.cause == 0x0C).length)
  ∧ ∀ (d : Device) (rk base : Nat) (tpc : Word) (k : Nat) (f : Fail) (r : Residence) (g : Gang) (key : Nat),
    d.res? rk = some r → d.gang? rk base = some g → f.cause = 0x0C → d.faultLog.full = false → (∀ q ∈ d.faults, q.written = true) →
    d.mem.wf = true → (d.faultLog.entry 32 d.faultLog.tail) % 32 = 0 → d.stor (d.faultLog.entry 32 d.faultLog.tail) = .dram key →
    let t := d.takeFails rk base tpc [(k, f)]
    let rec_ : FaultRec := { seq := d.faultSeq, launch := r.seq, ctx := r.ctx, core := rk / 3, slot := resSlot rk, bank := k, base := base
                             cmd := none, va := f.tval, tpc := tpc, detail := f.detail, access := f.access, written := true }
    t.faults = d.faults ++ [rec_] ∧ t.faultLog = { d.faultLog with tail := (d.faultLog.tail + 1) % 2 ^ d.faultLog.log }
    ∧ t.regs.msi[1] = d.regs.msi[1] + 1
    ∧ t.mem.read key 32 = (f.tval.toNat + (r.ctx.toNat + k * 2 ^ 12 + rk / 3 * 2 ^ 16 + f.access * 2 ^ 28 + f.detail * 2 ^ 31) * 2 ^ 64
        + tpc.toNat * 2 ^ 128 + d.faultSeq * 2 ^ 192) % 2 ^ 256

/-! ### Encoding -/

/-- Decoding the encoding of an instruction word gives the instruction back, for every well-formed word of the opcode map
with every operand at every value that the encoding accepts (R14, R20, R40). -/
def Obligations.EncodedInstructionsDecodeBack : Prop :=
  ∀ i : Instr, i.isWord = true → i.wellFormed = true → decode (encode i) = .ok i

/-- A word that decodes is the encoding of a well-formed instruction word: no bit of it is ignored (R19, R24, R37). -/
def Obligations.DecodedWordsAreCanonical : Prop :=
  ∀ (w : IWord) (i : Instr), decode w = .ok i → i.isWord = true ∧ i.wellFormed = true ∧ encode i = w

/-! ### Registers that are fixed, and the memories -/

/-- `x0` reads as zero and `p0` as true, and a write to either is discarded (R23). -/
def Obligations.FixedRegisters : Prop :=
  ∀ (t : Hart) (v : Word) (lat : Option Nat),
    t.getX 0 = 0 ∧ t.getP 0 = true ∧ t.put (.x 0) v lat = t ∧ t.put (.p 0) v lat = t
    ∧ t.setReg (.x 0) v = t ∧ t.setReg (.p 0) v = t

/-- Every step keeps the canonical form of the memories: of the array, the vaults and host memory, and of the scratchpad and
the frames of every residence, in the package and in the package that the convoy under way would fall back to (R9). -/
def Obligations.StepKeepsMemoriesCanonical : Prop :=
  ∀ s s' : State, s.stored = true → step s = .next s' → s'.stored = true

/-- The memories after reset are canonical: they list no byte, no residence is there, and no sector is poisoned. What memory holds after
reset R121 and R408 leave undefined: that it lists nothing, and so reads as zero, is the model's choice (log entries 1 and 2). -/
def Obligations.ResetMemoriesCanonical : Prop :=
  State.reset.stored = true
  ∧ State.reset.dev.mem = [] ∧ State.reset.dev.vault = [] ∧ State.reset.dev.host = [] ∧ State.reset.dev.memBad = []
  ∧ State.reset.dev.vaultBad = [] ∧ State.reset.dev.ress = []

/-! ### Control words -/

/-- A transfer that every active hart takes to one target that passes the checks of R31 goes there (R108): BR and CALL to the
word at their displacement, BRX and CALLX to the sum of their operands, RET to its register. CALL and CALLX write the start
of the next convoy in their link on every active hart. `d` is the package after the target has been looked up. SUBBR (R108):
it writes the difference, and goes to the word at its displacement exactly when the difference is greater than zero as a
signed number. Harts that do not agree on a transfer take 0x01 on every active hart, TVAL the address of the word (R109): a
BR or CALL whose guard differs, and a RET whose target differs. That a failure to fetch the target is reported at the word that
transfers is the model's reading (log entry 33). -/
def Obligations.Transfers : Prop :=
  (∀ (s : State) (h : Hdr) (l a : XReg) (b : Src) (t : Word) (d : Device), s.Calm → s.active ≠ [] →
       (∀ k ∈ s.active, s.begun.guard h k = true) → s.begun.dev.targetCheck s.iss.core s.begun.ctx t = (d, none) →
       let disp := fun k => wordDisp s.begun.iss.addr (s.begun.src k b).toInt
       let sum := fun k => (s.begun.hart k).getX a + s.begun.src k b
       let link := fun _ => nextWord s.begun.iss.addr
       ((∀ k ∈ s.active, disp k = t) → RunsInto s h (.br h b) d (some t) ∧ RunsLinked s h (.call h l b) d (some t) (.x l) link)
       ∧ ((∀ k ∈ s.active, sum k = t) →
           RunsInto s h (.brx h a b) d (some t) ∧ RunsLinked s h (.callx h l a b) d (some t) (.x l) link)
       ∧ ((∀ k ∈ s.active, (s.begun.hart k).getX a = t) → RunsInto s h (.ret h a) d (some t)))
  ∧ (∀ (s : State) (h : Hdr) (x : XReg) (disp amount : Src) (t : Word) (d : Device), s.Calm → s.active ≠ [] →
       (∀ k ∈ s.active, s.begun.guard h k = true) →
       let v := fun k => (s.begun.hart k).getX x - s.begun.src k amount
       ((∀ k ∈ s.active, (v k).toInt ≤ 0) →
         RunsLinked s h (.subbr h x disp amount) s.begun.dev s.iss.target (.x x) v)
       ∧ ((∀ k ∈ s.active, 0 < (v k).toInt ∧ wordDisp s.begun.iss.addr (s.begun.src k disp).toInt = t) →
         s.begun.dev.targetCheck s.iss.core s.begun.ctx t = (d, none) →
         RunsLinked s h (.subbr h x disp amount) d (some t) (.x x) v))
  ∧ (∀ (s : State) (h : Hdr) (l a : XReg) (b : Src), s.Calm →
       let all := s.active.map fun k => (k, ({ cause := 0x01, tval := s.begun.iss.addr } : Fail))
       ((∃ k ∈ s.active, s.begun.guard h k = true) → (∃ k ∈ s.active, s.begun.guard h k = false) →
         FailsWith s h (.br h b) all ∧ FailsWith s h (.call h l b) all)
       ∧ ((∀ k ∈ s.active, s.begun.guard h k = true) →
           (∃ j ∈ s.active, ∃ k ∈ s.active, (s.begun.hart j).getX a ≠ (s.begun.hart k).getX a) →
           FailsWith s h (.ret h a) all))

/-- BRD (R76): with its guard true everywhere the gang goes to its target; with its guard true on some harts only, those go
there and a record is pushed for the others; with its guard true nowhere, execution goes on at the next word. A target that
fails a check of R31 is a failed check of each hart that goes there, and of no other (R15); that a target whose fetch fails is
reported at the word itself is the model's reading (log entry 33). JOIN (R55, R77): the records at the
top of the stack that name this JOIN and whose other side has arrived are popped, and the gang takes the mask of the last of
them; then the waiting side of a record that names this JOIN runs, which is a transfer target (R31) unless it is the next word,
else the gang goes on past the JOIN. -/
def Obligations.Divergence : Prop :=
  (∀ (s : State) (h : Hdr) (target joinAt : BitVec 18) (d : Device), s.Calm →
       let a := s.begun.iss.addr
       let t := wordDisp a target.toInt
       ((∀ k ∈ s.active, s.begun.guard h k = false) → RunsInto s h (.brd h target joinAt) s.begun.dev s.iss.target)
       ∧ (s.begun.dev.targetCheck s.iss.core s.begun.ctx t = (d, none) → (∃ k ∈ s.active, s.begun.guard h k = true) →
         ((∀ k ∈ s.active, s.begun.guard h k = true) → RunsInto s h (.brd h target joinAt) d (some t))
         ∧ ((∃ k ∈ s.active, s.begun.guard h k = false) →
           ∃ tk : Mask16, (∀ k < 16, tk.getLsbD k = (s.gang.gm.getLsbD k && s.begun.guard h k))
             ∧ RunsInto s h (.brd h target joinAt) (d.modGang s.rk s.iss.base fun g =>
                 { g with gm := tk
                          ds := { j := wordDisp a joinAt.toInt, ma := g.gm, mw := g.gm &&& ~~~ tk, pw := nextWord a } :: g.ds })
                 (some t)))
       ∧ (∀ f, s.begun.dev.targetCheck s.iss.core s.begun.ctx t = (d, some f) →
           FailsWith s h (.brd h target joinAt) (s.failing h fun _ => some f)))
  ∧ (∀ (s : State) (h : Hdr) (arrived l : List DsRec) (d : Device), s.Calm → s.gang.ds = arrived ++ l →
       (∀ r ∈ arrived, r.j = s.begun.iss.addr ∧ r.mw = 0) →
       let gm := (arrived.getLast?.map DsRec.ma).getD s.gang.gm
       ((∀ r, l.head? = some r → r.j ≠ s.begun.iss.addr) →
         RunsInto s h (.join h) (s.begun.dev.modGang s.rk s.iss.base fun g => { g with ds := l, gm := gm })
           (some (nextWord s.begun.iss.addr)))
       ∧ ∀ r l', l = r :: l' → r.j = s.begun.iss.addr → r.mw ≠ 0 →
         ((if r.pw = nextWord s.begun.iss.addr then d = s.begun.dev
             else s.begun.dev.targetCheck s.iss.core s.begun.ctx r.pw = (d, none)) →
           RunsInto s h (.join h) (d.modGang s.rk s.iss.base fun g => { g with ds := { r with mw := 0 } :: l', gm := r.mw })
             (some r.pw))
         ∧ ∀ f, r.pw ≠ nextWord s.begun.iss.addr → s.begun.dev.targetCheck s.iss.core s.begun.ctx r.pw = (d, some f) →
           FailsWith s h (.join h) (s.failing h fun _ => some f))

/-- EXIT of the last active hart of a gang (R56, R81): with nothing of the hart outstanding before the convoy, its registers
and masks are gone, its latches are invalid, and no group of its bank is claimed. Its bit is gone from every record of the stack;
records of which nothing is left are dropped. With nothing left the gang ends; else a waiting side at the top goes on, or, where only
the arrived side is left, that side arrives at the JOIN of its record (R55). The gang goes on after the checks of a transfer target
(R31) unless it stands at the next word, and a check of the fetch that fails is one of the EXIT: the model's reading (log 33). `e` is
the package that the ending of the hart leaves. -/
def Obligations.ExitEndsTheHart : Prop :=
  ∀ (s : State) (h : Hdr) (k : Nat), s.Solo h k → (s.begun.hart k).bars = Vector.replicate 4 none →
    (s.begun.rollback.hart s.rk k).redOut = 0 → (s.begun.hart k).engTraps = [] → s.iss.base ≤ k → k < s.iss.base + s.gang.size →
    let e : Device := ((s.begun.windUp [k]).endHarts [k]).dev
    let m := fun (r : DsRec) => { r with ma := r.ma &&& ~~~ (1#16 <<< k), mw := r.mw &&& ~~~ (1#16 <<< k) }
    ∃ (u : State) (g : Gang), exec (.exit h) s = .next (u.endWord h) ∧ u.iss.hold = none
      ∧ u.hart k = {} ∧ (∀ q, (u.latch k q).valid = false ∧ (u.dev.group s.iss.core k q).gs = .free)
      ∧ u.dev.gang? s.rk s.iss.base = some g ∧ g.live = s.gang.live &&& ~~~ (1#16 <<< k)
      ∧ let goes := fun (ds : List DsRec) (gm : Mask16) (pc : Word) => g.ds = ds ∧ g.gm = gm ∧ g.ended = s.gang.ended
          ∧ (pc = nextWord s.begun.iss.addr → u.iss.fails = [] ∧ u.iss.target = some pc)
          ∧ (pc ≠ nextWord s.begun.iss.addr → match (e.targetCheck s.iss.core s.begun.ctx pc).2 with
            | none => u.iss.fails = [] ∧ u.iss.target = some pc
            | some f => u.iss.fails = [(k, f)])
        ∀ gone l, s.gang.ds = gone ++ l → (∀ r ∈ gone, (m r).ma = 0 ∧ (m r).mw = 0) →
          (l = [] → u.iss.fails = [] ∧ g.ended = true ∧ g.gm = 0 ∧ g.ds = [])
          ∧ ∀ r t, l = r :: t →
            ((m r).mw ≠ 0 → goes ({ m r with mw := 0 } :: t.map m) (m r).mw r.pw)
            ∧ ((m r).mw = 0 → (m r).ma ≠ 0 → ∀ arrived rest, t = arrived ++ rest → (∀ q ∈ arrived, q.j = r.j ∧ (m q).mw = 0) →
              ((∀ q, rest.head? = some q → q.j ≠ r.j) →
                goes (rest.map m) (((arrived.getLast?).map fun q => (m q).ma).getD (m r).ma) (nextWord r.j))
              ∧ ∀ q rest', rest = q :: rest' → q.j = r.j → (m q).mw ≠ 0 →
                goes ({ m q with mw := 0 } :: rest'.map m) (m q).mw q.pw)

/-- EXIT runs (R56, R81) when nothing of the harts that run it is outstanding and they take part in no barrier: their registers and
masks are gone and their latches are invalid, the gang is without them, and it goes on with the harts that are left, or ends where
none is left and its stack is empty. On no hart at all it does nothing (R15). -/
def Obligations.ExitCompletes : Prop :=
  (∀ (s : State) (h : Hdr), s.Calm → (∀ k ∈ s.active, s.begun.guard h k = false) →
    RunsInto s h (.exit h) s.begun.dev s.iss.target)
  ∧ ∀ (s : State) (h : Hdr), s.Quiet →
    let ends := fun k => k ∈ s.active ∧ s.begun.guard h k = true
    (∃ k, ends k) →
    (∀ k, ends k → (s.begun.hart k).bars = Vector.replicate 4 none ∧ (s.begun.rollback.hart s.rk k).redOut = 0
      ∧ (s.begun.hart k).engTraps = [] ∧ s.iss.base ≤ k ∧ k < s.iss.base + s.gang.size) →
    ((∀ k ∈ s.active, s.begun.guard h k = true) → s.gang.ds = []) →
    ∃ u g, RunsTo s h (.exit h) u ∧ u.dev.gang? s.rk s.iss.base = some g
      ∧ (∀ k, ends k → u.hart k = {} ∧ ∀ q, (u.latch k q).valid = false ∧ (u.dev.group s.iss.core k q).gs = .free)
      ∧ (∀ k < 16, (g.gm.getLsbD k = true ↔ s.gang.gm.getLsbD k = true ∧ ¬ ends k)
        ∧ (g.live.getLsbD k = true ↔ s.gang.live.getLsbD k = true ∧ ¬ ends k))
      ∧ ((∃ k ∈ s.active, s.begun.guard h k = false) → g.ended = s.gang.ended)
      ∧ ((∀ k ∈ s.active, s.begun.guard h k = true) → g.ended = true)

/-- YIELD (R82): the gang then waits, for at most 64 ck, for the other gangs of its context that were ready; it changes
nothing else, and nothing at all where its guard is true on no hart. PFX (R34): it gives its immediate to the next word of
the convoy. GMASK (R83): the ballot holds the predicate of every active hart, whatever its guard; it is written as a mask, or
compared with none and all of the active harts. -/
def Obligations.GangWords : Prop :=
  (∀ (s : State) (h : Hdr), s.Calm →
       ((∀ k ∈ s.active, s.begun.guard h k = false) → RunsInto s h (.yield h) s.begun.dev s.iss.target)
       ∧ ((∃ k ∈ s.active, s.begun.guard h k = true) →
         ∃ l : List Nat, (∀ b, b ∈ l ↔ b ≠ s.iss.base ∧ ∃ g, (b, g) ∈ s.begun.dev.gangsOf s.rk ∧ s.begun.dev.ready s.rk b g = true)
           ∧ RunsInto s h (.yield h)
               (s.begun.dev.modGang s.rk s.iss.base fun g => { g with yieldTo := some (l, s.begun.dev.now + 64) }) s.iss.target))
  ∧ (∀ (s : State) (imm : Word), s.Calm →
       ∃ t, exec (.pfx imm) s = .next t ∧ t.dev = s.begun.dev ∧ t.iss.pfx = some imm
           ∧ t.iss.addr = nextWord s.begun.iss.addr ∧ t.agenda = s.agenda
           ∧ ∀ k, t.src k (.long .full) = imm ∧ t.src k (.long (.sx true)) = (imm.sshiftRight 32)
               ∧ t.src k (.long (.zx false)) = imm &&& 0xFFFFFFFF)
  ∧ (∀ (s : State) (h : Hdr) (d : XReg) (p q : PReg), s.Calm →
       let votes := fun k => k ∈ s.active ∧ (s.begun.hart k).getP p = true
       (∃ v : Word, WritesReg s h (.gmask h (.x d) p) (.x d) (fun _ => v)
         ∧ ∀ k < 64, (v.getLsbD k = true ↔ votes k))
       ∧ (∃ v : Word, WritesReg s h (.gmask h (.p q .any) p) (.p q) (fun _ => v) ∧ (v = 1 ↔ ∃ k, votes k) ∧ (v = 0 ∨ v = 1))
       ∧ (∃ v : Word, WritesReg s h (.gmask h (.p q .all) p) (.p q) (fun _ => v) ∧ (v = 1 ↔ ∀ k ∈ s.active, votes k) ∧ (v = 0 ∨ v = 1))
       ∧ (∃ v : Word, WritesReg s h (.gmask h (.p q .none) p) (.p q) (fun _ => v) ∧ (v = 1 ↔ ¬ ∃ k, votes k) ∧ (v = 0 ∨ v = 1)))

/-- CAPT and REPLAY (R72, R78 to R80). The capture of a body: one that the loop buffer holds is not fetched again; one that
fails a check of a convoy, or holds a word that no body may, fails the words; one for which there is no room beside the captures
that gangs replay makes them wait; and else it is brought in, for which captures that no gang replays are discarded as far as 64
slots require. CAPT then goes on to the next word. REPLAY first checks its body as a transfer target (R31). With RC.COUNT
iterations done it clears EI and goes on; else it sets EI to its position and its ACT bit, and the gang stands at the REPLAY with
the body to be issued: at the start when ACT is clear, where EI says when ACT is set, a position past the body being the start of
the next iteration. REPLAY is stated for a gang with one active hart. That the failures to fetch a target or a body are reported at
the word itself is the model's reading (log entry 33). -/
def Obligations.CaptureAndReplay : Prop :=
  (∀ (d : Device) (core rk size n : Nat) (ctx : BitVec 12) (body : Word),
     let made := d.capture core rk ctx size body n
     let total := fun (l : List Capture) => (l.map Capture.n).sum
     ((d.capture? core rk body n).isSome = true → made = .ok d)
     ∧ (d.capture? core rk body n = none →
       (∀ e f, d.fetchBody core ctx size n body = (e, .error f) → made = .fail f)
       ∧ ∀ e convoys, d.fetchBody core ctx size n body = (e, .ok convoys) →
         let old := (e.core core).loops
         let kept := old.filter fun c => e.pinned core c
         (64 < total kept + n → made = .full)
         ∧ (total kept + n ≤ 64 → ∃ e' l, made = .ok e' ∧ e' = { e with cores := e'.cores }
             ∧ (e'.core core).loops = { res := rk, body := body, n := n, convoys := convoys, used := 0 } :: l
             ∧ l.Sublist old ∧ kept.Sublist l ∧ total l + n ≤ 64 ∧ (total old + n ≤ 64 → l = old)
             ∧ ∀ c, c ≠ core → e'.core c = e.core c)))
  ∧ (∀ (s : State) (h : Hdr) (n1 : BitVec 6) (body : BitVec 18), s.Calm →
     let made := s.begun.dev.capture s.iss.core s.rk s.begun.ctx s.gang.size (wordDisp s.begun.iss.addr body.toInt) (n1.toNat + 1)
     ((∀ k ∈ s.active, s.begun.guard h k = false) → RunsInto s h (.capt h n1 body) s.begun.dev s.iss.target)
     ∧ ((∃ k ∈ s.active, s.begun.guard h k = true) →
       (∀ e, made = .ok e → RunsInto s h (.capt h n1 body) e s.iss.target)
       ∧ (∀ f, made = .fail f → FailsWith s h (.capt h n1 body) (s.failing h fun _ => some f))
       ∧ (made = .full → HoldsOn s h (.capt h n1 body) .buffer)))
  ∧ (∀ (s : State) (h : Hdr) (k : Nat) (n1 : BitVec 6) (body : BitVec 18) (stride : Src) (d : Device), s.Solo h k →
     let i : Instr := .replay h n1 body stride
     let b := wordDisp s.begun.iss.addr body.toInt
     let n := n1.toNat + 1
     let t := s.begun.hart k
     let count := (t.rc.extractLsb' 0 32).toNat
     let iter := (t.ei.extractLsb' 0 32).toNat
     let pos := (t.ei.extractLsb' 32 6).toNat
     (∀ f, s.begun.dev.targetCheck s.iss.core s.begun.ctx b = (d, some f) → FailsWith s h i [(k, f)])
     ∧ (s.begun.dev.targetCheck s.iss.core s.begun.ctx b = (d, none) →
       let made := d.capture s.iss.core s.rk s.begun.ctx s.gang.size b n
       (∀ f, made = .fail f → FailsWith s h i [(k, f)])
       ∧ (made = .full → HoldsOn s h i .buffer)
       ∧ ∀ e, made = .ok e →
         let ends := RunsInto s h i (e.modHart s.rk k fun t => { t with ei := 0 }) s.iss.target
         let goes := fun (at_ : Nat × Nat) => ∃ u g, RunsTo s h i u
           ∧ (u.hart k).ei = BitVec.ofNat 64 (at_.1 + at_.2 * 2 ^ 32 + 2 ^ 38) ∧ u.iss.target = some s.begun.iss.addr
           ∧ u.dev.gang? s.rk s.iss.base = some g
           ∧ g.replay = some { at_ := s.begun.iss.addr, body := b, n := n, stride := stride }
         (t.ei.getLsbD 38 = false → (count = 0 → ends) ∧ (0 < count → goes (0, 0)))
         ∧ (t.ei.getLsbD 38 = true →
           (count ≤ iter → ends)
           ∧ (iter < count → pos < n → goes (iter, pos))
           ∧ (iter + 1 < count → n ≤ pos → goes (iter + 1, 0))
           ∧ (iter + 1 = count → n ≤ pos → ends))))

/-! ### Row control -/

/-- The words that queue a row command, on one hart (R128 to R134). ACT and WB claim the group for their row index, WBP and
PRE release it, ACT and ACTW make the latch valid at once; each leaves one command at the bank and changes nothing else. PRE
of a free group does nothing. PREA is PRE of every group of the bank that is claimed, in rising order (R133). Where the row
words trap (R122, R128, R130, R132, R134): a row index outside the allotment with 0x19, TVAL the index; ACT and REF of a
claimed group, and WB and WBP of a group that holds another row or an invalid latch, with 0x04, TVAL the address of the word. -/
def Obligations.RowCommandWords : Prop :=
  (∀ (s : State) (h : Hdr) (k : Nat) (g : Sys2Proof.Lat) (row : Src) (r : Residence), s.Solo h k → s.begun.res? = some r →
       s.dev.regs.rsvc = false →
       let i := s.begun.rowIndex k row
       let x := s.begun.grp k g
       let phys := r.abase + i.toNat
       let valid := { x.latch with valid := true }
       (0 ≤ i → i < r.acount → x.gs = .free →
         ∃ u, RunsTo s h (.act h g row) u ∧ RowEffect s k g (.act phys i.toNat) { x with gs := .opened i.toNat, latch := valid } u)
       ∧ (∃ u, RunsTo s h (.actw h g) u ∧ RowEffect s k g .actw { x with latch := valid } u)
       ∧ (0 ≤ i → i < r.acount → x.gs = .free ∨ x.gs = .opened i.toNat → x.latch.valid = true →
         (∃ u, RunsTo s h (.wb h g row) u
           ∧ RowEffect s k g (.wb phys (x.gs == .opened i.toNat)) { x with gs := .writing i.toNat } u)
         ∧ ∃ u, RunsTo s h (.wbp h g row) u ∧ RowEffect s k g (.wbp phys (x.gs == .opened i.toNat)) { x with gs := .free } u)
       ∧ (x.gs = .free → RunsInto s h (.pre h g) s.begun.dev s.iss.target
         ∧ ∃ u, RunsTo s h (.ref h g) u ∧ RowEffect s k g .ref x u)
       ∧ (x.gs ≠ .free → ∃ u, RunsTo s h (.pre h g) u ∧ RowEffect s k g .pre { x with gs := .free } u))
  ∧ (∀ (s : State) (h : Hdr) (k : Nat), s.Solo h k →
       ∃ u, RunsTo s h (.prea h) u ∧ (∀ g, u.grp k g = { s.begun.grp k g with gs := .free })
         ∧ (u.dev.bank s.iss.core k).rowQ = ((List.finRange 4).filter fun g => decide ((s.begun.grp k g).gs ≠ .free)).zipIdx.map
             (fun p => ({ g := p.1, op := .pre, cv := s.gang.cv, t0 := some s.begun.dev.now, n := p.2, joined := decide (p.2 ≠ 0) } : RowCmd))
         ∧ (∀ b < 16, b ≠ k → u.dev.bank s.iss.core b = s.begun.dev.bank s.iss.core b)
         ∧ u.dev = { s.begun.dev with banks := u.dev.banks })
  ∧ (∀ (s : State) (h : Hdr) (k : Nat) (g : Sys2Proof.Lat) (row : Src) (r : Residence), s.Solo h k → s.begun.res? = some r →
       s.dev.regs.rsvc = false →
       let i := s.begun.rowIndex k row
       let x := s.begun.grp k g
       let bad : List (Nat × Fail) := [(k, { cause := 0x19, tval := BitVec.ofInt 64 i })]
       let state : List (Nat × Fail) := [(k, { cause := 0x04, tval := s.begun.iss.addr })]
       (i < 0 ∨ (r.acount : Int) ≤ i →
         FailsWith s h (.act h g row) bad ∧ FailsWith s h (.wb h g row) bad ∧ FailsWith s h (.wbp h g row) bad)
       ∧ (x.gs ≠ .free → FailsWith s h (.ref h g) state ∧ (0 ≤ i → i < r.acount → FailsWith s h (.act h g row) state))
       ∧ (0 ≤ i → i < r.acount → (∃ j, x.gs = .writing j) ∨ (∃ j, x.gs = .opened j ∧ j ≠ i.toNat) ∨ x.latch.valid = false →
         FailsWith s h (.wb h g row) state ∧ FailsWith s h (.wbp h g row) state))

/-- REFQ and ROWQ (R135, R136): the fields that they read of a group, of a latch and of the allotment. -/
def Obligations.RowQueries : Prop :=
  ∀ (s : State) (h : Hdr) (k : Nat) (d : XReg) (g : Sys2Proof.Lat) (r : Residence), s.Solo h k → s.begun.res? = some r →
    r.abase < 2 ^ 9 → r.acount < 2 ^ 9 →
    let x := s.begun.grp k g
    let hot := s.dev.hot.getLsbD (s.iss.core / 128)
    (∃ v : Word, WritesReg s h (.refq h d (some g)) (.x d) (fun _ => v)
      ∧ v.extractLsb' 0 8 = BitVec.ofInt 8 x.debt ∧ v.getLsbD 8 = x.dlp.isSome ∧ v.getLsbD 9 = hot ∧ v.getLsbD 10 = x.force
      ∧ v.extractLsb' 11 5 = 0 ∧ (v.extractLsb' 16 6).toNat = x.rptr.val ∧ v.extractLsb' 22 10 = 0
      ∧ (v.extractLsb' 32 21).toNat = (s.begun.dev.nextTick s.iss.core k - s.begun.dev.now) % 2 ^ 21 ∧ v.extractLsb' 53 11 = 0)
    ∧ (∃ v : Word, WritesReg s h (.refq h d none) (.x d) (fun _ => v) ∧ v.getLsbD 36 = hot ∧ v.extractLsb' 37 27 = 0
      ∧ ∀ q : Sys2Proof.Lat, v.extractLsb' (8 * q.val) 8 = BitVec.ofInt 8 (s.begun.grp k q).debt
          ∧ v.getLsbD (32 + q.val) = (s.begun.grp k q).dlp.isSome)
    ∧ (∃ v : Word, WritesReg s h (.rowq h d (.state g)) (.x d) (fun _ => v)
      ∧ v.getLsbD 0 = x.latch.valid ∧ v.extractLsb' 1 4 = x.latch.tag ∧ v.getLsbD 7 = x.phy ∧ v.extractLsb' 17 9 = x.latch.src
      ∧ (x.gs = .free → v.extractLsb' 5 2 = 0 ∧ v.extractLsb' 8 9 = 0)
      ∧ (∀ i, x.gs = .opened i → v.extractLsb' 5 2 = 1 ∧ v.extractLsb' 8 9 = BitVec.ofNat 9 i)
      ∧ (∀ i, x.gs = .writing i → v.extractLsb' 5 2 = 2 ∧ v.extractLsb' 8 9 = BitVec.ofNat 9 i)
      ∧ (v.extractLsb' 26 8).toNat = ((List.range 128).map x.latch.poison.getLsbD).count true ∧ v.extractLsb' 34 30 = 0)
    ∧ WritesReg s h (.rowq h d (.plo g)) (.x d) (fun _ => x.latch.poison.setWidth 64)
    ∧ WritesReg s h (.rowq h d (.phi g)) (.x d) (fun _ => (x.latch.poison >>> 64).setWidth 64)
    ∧ WritesReg s h (.rowq h d .allot) (.x d) (fun _ => BitVec.ofNat 64 (r.abase + r.acount * 2 ^ 16))

/-- The start of a row command (R119, R123 to R125, R128 to R134), when its turn has come: ACT reads the row into its latch
with its poison and its tag, ACTW leaves a raw latch of zeros, WB and WBP take the data of the latch for the array, PRE
performs the array write that its group has pending, and REF pays one unit of debt. The commands of a switch (R144) restore a
latch with the record that was saved and drive a latch into its spill row; a WBP and these leave their precharge to the bank. -/
def Obligations.RowCommandStarts : Prop :=
  ∀ (s : State) (c : Fin 2048) (b : Fin 16) (cmd : RowCmd) (t : Nat), s.dev.rowNext c b = some (0, cmd, t) →
    (s.dev.bank c b).rowQ = [cmd] →
    ∃ u, exec (.rowCommandStart c b) s = .next u ∧ u.iss = s.iss ∧ u.agenda = s.agenda ∧ u.dev.harts = s.dev.harts
      ∧ u.dev.gangs = s.dev.gangs ∧ u.dev.ress = s.dev.ress ∧ u.dev.vault = s.dev.vault ∧ u.dev.host = s.dev.host
      ∧ (cmd.op.closes = false → (u.dev.bank c b).rowQ = [])
      ∧ (cmd.op.closes = true → (u.dev.bank c b).rowQ = [{ cmd with op := .close, t0 := some s.dev.now }])
      ∧ let x := s.dev.group c b cmd.g
        let y := u.dev.group c b cmd.g
        (∀ q, q ≠ cmd.g → u.dev.latch c b q = s.dev.latch c b q)
        ∧ (∀ row i, cmd.op = .act row i → y.latch.valid = true ∧ y.latch.src = BitVec.ofNat 9 i ∧ u.dev.mem = s.dev.mem
            ∧ y.latch.tag = s.dev.rowTag c b cmd.g row ∧ y.latch.poison = s.dev.rowPoison (rowKey c b cmd.g row)
            ∧ (y.latch.poison = 0 → y.latch.data = BitVec.ofNat 65536 (s.dev.mem.read (rowKey c b cmd.g row) 8192)))
        ∧ (∀ row tag src, cmd.op = .restore row tag src → y.latch.valid = true ∧ y.latch.src = src ∧ y.latch.tag = tag
            ∧ u.dev.mem = s.dev.mem ∧ y.latch.poison = s.dev.rowPoison (rowKey c b cmd.g row)
            ∧ (y.latch.poison = 0 → y.latch.data = BitVec.ofNat 65536 (s.dev.mem.read (rowKey c b cmd.g row) 8192)))
        ∧ (∀ row, cmd.op = .spill row →
            y.pend = some { row := row, data := x.latch.data, poison := x.latch.poison } ∧ y.latch = x.latch ∧ u.dev.mem = s.dev.mem)
        ∧ (cmd.op = .actw → y.latch.valid = true ∧ y.latch.data = 0 ∧ y.latch.tag = 0xF ∧ y.latch.poison = 0
            ∧ u.dev.mem = s.dev.mem)
        ∧ (∀ row held, cmd.op = .wb row held ∨ cmd.op = .wbp row held →
            y.pend = some { row := row, data := x.latch.data, poison := x.latch.poison } ∧ y.latch = x.latch ∧ u.dev.mem = s.dev.mem)
        ∧ (cmd.op = .pre → y.latch = x.latch ∧ (x.phy = true → y.phy = false ∧ y.pend = none
            ∧ ∀ w, x.pend = some w → u.dev.mem = s.dev.mem.write (rowKey c b cmd.g w.row) 8192 w.data.toNat))
        ∧ (cmd.op = .ref → y.latch = x.latch ∧ y.rptr = x.rptr + 1 ∧ u.dev.mem = s.dev.mem
            ∧ y.debt = (if x.debt ≤ -8 then -8 else x.debt - 1))

/-! ### Row lanes -/

/-- SETVL and SETVT (R178, R191): SETVL grants the lesser of the count and the greatest length, in whole points under a
lattice format, writes it to VL and to its register, and fills the invalid latches of the hart with zeros. SETVT writes the
old VT to its register, takes the new one, and cuts VL to it. A reserved value traps with 0x04, TVAL the value. The
comparisons and the mask words (R105, R180, R194, R195): a comparison writes the bits of its active elements; MAND, MOR, MXOR
and MNOT write the bits below ML, one for each governed element group, and leave the others; MPOPC and MFIRST count the bits
below ML that are set and allowed, and find the first. -/
def Obligations.VectorStateAndMasks : Prop :=
  (∀ (s : State) (h : Hdr) (k : Nat) (d : XReg) (n : Src), s.Solo h k →
       let t := s.begun.hart k
       let c := s.begun.lanes k
       let v := s.begun.src k n
       let granted := fun (c : LaneCfg) (n : Nat) =>
         let most := if c.fmt = .illegal then 0 else if c.bl = 0 ∨ c.fmt.takesScale = false then c.fmt.perLatch
           else min c.fmt.perLatch (c.bl * (8192 / 2 ^ c.ssr))
         if most ≤ n then most else if c.fmt.isLq then n / 8 * 8 else n
       let legal := v.toNat < 2 ^ 16 ∧ (v.extractLsb' 4 3).toNat ≤ 4 ∧ (v.extractLsb' 7 3).toNat ≤ 4 ∧ (v.extractLsb' 11 3).toNat ≤ 4
       (∃ u, RunsTo s h (.setvl h d n) u
         ∧ u.hart k = ({ t with vl := BitVec.ofNat 16 (granted c v.toNat) } : Hart).put (.x d) (BitVec.ofNat 64 (granted c v.toNat)) none
         ∧ (∀ g, u.latch k g = if (s.begun.latch k g).valid then s.begun.latch k g else { valid := true })
         ∧ (∀ j < 16, j ≠ k → u.hart j = s.begun.hart j)
         ∧ u.dev = { s.begun.dev with banks := u.dev.banks, cores := u.dev.cores, harts := u.dev.harts })
       ∧ (legal → let new := ({ t with vt := v.setWidth 16 } : Hart)
         WritesHart s h (.setvt h d n) k
           (({ new with vl := BitVec.ofNat 16 (granted (laneCfg new) c.vl) } : Hart).put (.x d) (t.vt.setWidth 64) none))
       ∧ (¬ legal → FailsWith s h (.setvt h d n) [(k, { cause := 0x04, tval := v })]))
  ∧ (∀ (s : State) (h : Hdr) (k : Nat) (m : MaskMod) (ic : VCond) (fc : FCond) (x : XReg) (d p q : Msk) (a b : LOp),
       let t := s.begun.hart k
       let c := s.begun.lanes k
       let act := (List.range c.vl).filter fun j => maskOn t m c.fmt.q j
       let va := fun j => s.begun.lop k c.fmt a j
       let vb := fun j => s.begun.lop k c.fmt b j
       let ml := (c.vl + c.fmt.q - 1) / c.fmt.q
       let bp := fun j => t.masks[p.val].getLsbD j
       let bq := fun j => t.masks[q.val].getLsbD j
       let counted := (List.range ml).filter fun j => bp j && (!m.me || t.masks[m.mi.val].getLsbD j != m.mn)
       (s.LaneReady h k VFmt.isInt (lopLats a ++ lopLats b) →
         let i := fun j => c.fmt.int (va j)
         let j' := fun j => c.fmt.int (vb j)
         WritesMask s h (.vcmp h m ic d a b) k d act (fun j => match ic with
           | .eq => decide (i j = j' j)
           | .ne => decide (i j ≠ j' j)
           | .lt => decide (i j < j' j)
           | .ge => decide (j' j ≤ i j)
           | .le => decide (i j ≤ j' j)
           | .gt => decide (j' j < i j)) fl0)
       ∧ (s.LaneReady h k VFmt.isFloat (lopLats a ++ lopLats b) → trapMask t.fpc = 0 →
         let f := c.fmt.ff?.getD .f32
         let r := fun j => fcondNum fc (flushIn c.flush f (f.decode (va j))) (flushIn c.flush f (f.decode (vb j)))
         WritesMask s h (.vfcmp h m fc d a b) k d act (fun j => (r j).1) (act.foldl (fun fl j => fl ||| (r j).2) 0))
       ∧ (s.Solo h k → c.fmt ≠ .illegal → s.begun.wide c.fmt.bits = false →
         let into := fun i f => WritesMask s h i k d (List.range (min ml 8192)) f fl0
         into (.mand h d p q) (fun j => bp j && bq j)
         ∧ into (.mor h d p q) (fun j => bp j || bq j)
         ∧ into (.mxor h d p q) (fun j => bp j != bq j)
         ∧ into (.mnot h d p) (fun j => !bp j)
         ∧ WritesHart s h (.mpopc h m x p) k (t.put (.x x) (BitVec.ofNat 64 counted.length) none)
         ∧ (counted = [] → WritesHart s h (.mfirst h m x p) k (t.put (.x x) (BitVec.allOnes 64) none))
         ∧ ∀ j l, counted = j :: l → WritesHart s h (.mfirst h m x p) k (t.put (.x x) (BitVec.ofNat 64 j) none)))

/-- The integer element-wise words (R154, R183, R187, R192): every active element of the destination takes its result,
narrowed by saturation or by wrapping as VT.SAT says, and no other element of any latch changes; a clamp raises SAT. -/
def Obligations.IntegerLaneWords : Prop :=
  ∀ (s : State) (h : Hdr) (k : Nat) (m : MaskMod) (d : Sys2Proof.Lat) (a b : LOp),
    s.LaneReady h k VFmt.isInt (.own d :: lopLats a ++ lopLats b) →
    let c := s.begun.lanes k
    let n := c.fmt.bits
    let pa := fun j => s.begun.lop k c.fmt a j
    let pb := fun j => s.begun.lop k c.fmt b j
    let x := fun j => c.fmt.int (pa j)
    let y := fun j => c.fmt.int (pb j)
    let z := fun j => c.fmt.int (elemOf n (s.begun.latData k (.own d)) j)
    let act := (List.range c.vl).filter fun j => maskOn (s.begun.hart k) m c.fmt.q j
    let low := c.fmt.lo
    let high := c.fmt.hi
    let exact := fun v : Nat → Int => fun j => ((v j % 2 ^ n).toNat, fl0)
    let clamp := fun v : Nat → Int => fun j =>
      ((max low (min (v j) high) % 2 ^ n).toNat, if v j < low ∨ high < v j then flSAT else fl0)
    let narrow := fun v : Nat → Int => if c.sat then clamp v else exact v
    let into := fun i v => WritesLatch s h i k d n false act v
    into (.vadd h m d a b) (narrow fun j => x j + y j)
    ∧ into (.vsub h m d a b) (narrow fun j => x j - y j)
    ∧ into (.vmul h m d a b) (narrow fun j => x j * y j)
    ∧ into (.vmulh h m d a b) (exact fun j => x j * y j / 2 ^ n)
    ∧ into (.vmad h m d a b) (narrow fun j => z j + x j * y j)
    ∧ into (.vmin h m d a b) (exact fun j => if x j ≤ y j then x j else y j)
    ∧ into (.vmax h m d a b) (exact fun j => if x j ≤ y j then y j else x j)
    ∧ into (.vabs h m d a) (narrow fun j => if x j < 0 then -x j else x j)
    ∧ into (.vneg h m d a) (narrow fun j => -x j)
    ∧ into (.vand h m d a b) (fun j => (pa j &&& pb j, fl0))
    ∧ into (.vor h m d a b) (fun j => (pa j ||| pb j, fl0))
    ∧ into (.vxor h m d a b) (fun j => (pa j ^^^ pb j, fl0))
    ∧ into (.vnot h m d a) (fun j => (2 ^ n - 1 - pa j, fl0))
    ∧ into (.vshl h m d a b) (narrow fun j => x j * 2 ^ (pb j % n))
    ∧ into (.vshr h m d a b) (fun j => (pa j / 2 ^ (pb j % n), fl0))
    ∧ into (.vsar h m d a b) (exact fun j => sintOf n (pa j) / 2 ^ (pb j % n))
    ∧ into (.vsadd h m d a b) (clamp fun j => x j + y j)
    ∧ into (.vssub h m d a b) (clamp fun j => x j - y j)
    ∧ into (.vavg h m d a b) (exact fun j => (x j + y j + 1) / 2)
    ∧ into (.vclz h m d a) (fun j => (if pa j = 0 then n else n - 1 - Nat.log2 (pa j), fl0))
    ∧ into (.vpopc h m d a) (fun j => (((List.range n).map (pa j).testBit).count true, fl0))

/-- The floating-point element-wise words (R155, R156, R193): every active element takes the exact result of its operands
rounded once in the mode of VT, and flushed; the words that do not round work on patterns. Stated with no trap enabled in
FPC. -/
def Obligations.FloatingLaneWords : Prop :=
  ∀ (s : State) (h : Hdr) (k : Nat) (m : MaskMod) (np na : Bool) (d : Sys2Proof.Lat) (a b : LOp),
    s.LaneReady h k VFmt.isFloat (.own d :: lopLats a ++ lopLats b) → trapMask (s.begun.hart k).fpc = 0 →
    let c := s.begun.lanes k
    let n := c.fmt.bits
    let f := c.fmt.ff?.getD .f32
    let pa := fun j => s.begun.lop k c.fmt a j
    let pb := fun j => s.begun.lop k c.fmt b j
    let num := fun p => flushIn c.flush f (f.decode p)
    let x := fun j => num (pa j)
    let y := fun j => num (pb j)
    let z := fun j => num (elemOf n (s.begun.latData k (.own d)) j)
    let down := c.rm == .rdn
    let act := (List.range c.vl).filter fun j => maskOn (s.begun.hart k) m c.fmt.q j
    let rounded := fun (v : Nat → Ex × Flags) => fun j =>
      let r := flushOut c.flush f f 0 (roundTo (v j).1 f c.rm c.sat (c.h j))
      (r.1, (v j).2 ||| r.2)
    let into := fun i (v : Nat → Ex × Flags) => WritesLatch s h i k d n true act (rounded v)
    let bits := fun i v => WritesLatch s h i k d n false act v
    let pick := fun (most : Bool) j =>
      flushOut c.flush f f 0 (minMaxBits f most (flushBits c.flush f (pa j)) (flushBits c.flush f (pb j)))
    into (.vfadd h m d a b) (fun j => sumNum [x j, y j] down)
    ∧ into (.vfsub h m d a b) (fun j => sumNum [x j, (y j).negate] down)
    ∧ into (.vfmul h m d a b) (fun j => ((mulNum (x j) (y j)).1.ex, (mulNum (x j) (y j)).2))
    ∧ into (.vfma h m np na d a b) (fun j => fmaNum (x j) (y j) (z j) np na down)
    ∧ into (.vfdiv h m d a b) (fun j => divNum (x j) (y j))
    ∧ into (.vfsqrt h m d a) (fun j => sqrtNum (x j))
    ∧ into (.vfrcp h m d a) (fun j => divNum (.fin false 1 0) (x j))
    ∧ bits (.vfmin h m d a b) (pick false)
    ∧ bits (.vfmax h m d a b) (pick true)
    ∧ bits (.vfabs h m d a) (fun j => (pa j % 2 ^ (n - 1), fl0))
    ∧ bits (.vfneg h m d a) (fun j => (if pa j < 2 ^ (n - 1) then pa j + 2 ^ (n - 1) else pa j - 2 ^ (n - 1), fl0))

/-- Moves, permutes, slides, compression, expansion, selection and index vectors (R171, R183, R196, R202 to R204), by units:
an element, or a point under a lattice format. No unit is active in part. The scalar source of VINS, VSPLAT and VSEL under a lattice
format, a whole point, is the model's choice (log entry 38). -/
def Obligations.LaneMoves : Prop :=
  ∀ (s : State) (h : Hdr) (k : Nat) (m : MaskMod) (rank : Bool) (d bl gl : Sys2Proof.Lat) (x : XReg) (a : LatRef) (va vb : LOp)
      (w v : Src),
    let t := s.begun.hart k
    let c := s.begun.lanes k
    let n := c.fmt.unit
    let units := c.vl / c.fmt.per
    let us := (activeUnits t m c.fmt).1
    let src := fun u => elemOf n (s.begun.latData k a) u
    let into := fun i us f => WritesLatch s h i k d n false us (fun u => (f u, fl0))
    let ready := fun ls => s.LaneReady h k (fun _ => true) (.own d :: ls)
    let value := fun f : VFmt => s.begun.scalarOf k f w
    let at_ := (s.begun.src k v).toNat
    ((activeUnits t m c.fmt).2 = none →
      (ready [a] →
        into (.vmov h m d a) us src
        ∧ into (.vslide h m d a v) us (fun u =>
            let j := (u : Int) - (s.begun.src k v).toInt
            if 0 ≤ j ∧ j < units then src j.toNat else 0)
        ∧ into (.vcomp h m d a) (List.range us.length) (fun j => src (us.getD j 0))
        ∧ into (.vexp h m d a) us (fun u => src (us.idxOf u)))
      ∧ (ready [] → into (.vsplat h m d w) us (fun _ => value c.fmt))
      ∧ (ready [a] → units ≤ 4096 → Usable s k .n16 (.own bl) →
        into (.vperm h m d a bl) us (fun u =>
          let i := elemOf 16 (s.begun.latData k (.own bl)) u
          if i < units then src i else 0))
      ∧ (ready (gangLats s.gang.size gl) → units ≤ 2048 → s.gang.size ≤ 16 → Usable s k .n32 (.own bl) →
        into (.vgath h m d gl bl) us (fun u =>
          let i := elemOf 32 (s.begun.latData k (.own bl)) u
          let r := i / 2 ^ 16 % 16
          let e := i % 2 ^ 16
          if i / 2 ^ 20 = 0 ∧ r < s.gang.size ∧ e < units then elemOf n (s.begun.latch (s.iss.base + r) gl).data.toNat e else 0)))
    ∧ (ready [] → at_ < units → into (.vins h d w v) [at_] (fun _ => value c.fmt))
    ∧ (s.LaneReady h k (fun _ => true) [a] → at_ < units → WritesHart s h (.vext h x a v) k
        (t.put (.x x) (if c.fmt.isInt then BitVec.ofInt 64 (c.fmt.int (src at_)) else BitVec.ofNat 64 (src at_)) none))
    ∧ (s.LaneReady h k (fun _ => true) (.own d :: lopLats va ++ lopLats vb) →
        (∀ u < units, ∀ i < c.fmt.per, ∀ j < c.fmt.per,
          maskBit t m c.fmt.q (u * c.fmt.per + i) = maskBit t m c.fmt.q (u * c.fmt.per + j)) →
        into (.vsel h m d va vb) (List.range units) (fun u =>
          if maskBit t m c.fmt.q (u * c.fmt.per) then s.begun.lop k c.fmt va u else s.begun.lop k c.fmt vb u))
    ∧ (s.LaneReady h k VFmt.isInt [.own d] →
        let act := (List.range c.vl).filter fun j => maskOn t m c.fmt.q j
        let f := fun j => if rank then (act.filter (· < j)).length else j
        let e := fun j => c.fmt.int (value c.fmt) + (f j : Int)
        WritesLatch s h (.viota h rank m d w) k d c.fmt.bits false (if rank then List.range c.vl else act) (fun j =>
          if c.sat then ((max c.fmt.lo (min (e j) c.fmt.hi) % 2 ^ c.fmt.bits).toNat,
              if j ∈ act ∧ (e j < c.fmt.lo ∨ c.fmt.hi < e j) then flSAT else fl0)
          else ((e j % 2 ^ c.fmt.bits).toNat, fl0)))

/-- Reductions, scans, sorting and run marking (R205 to R208). The sum of VREDS is taken modulo 2^64, that of VFREDS is exact
and rounded once; a scan goes from one active element to the next, and begins again where a mask cuts it; VSORTK is stable
and leaves the indices of the sorted elements beside them; VUNIQ marks the first, or the last, element of each run. That an integer
scan leaves SEED alone is the model's choice (log entry 36). -/
def Obligations.LaneReductions : Prop :=
  ∀ (s : State) (h : Hdr) (k : Nat) (m : MaskMod) (wide excl desc last : Bool) (x : XReg) (d bl : Sys2Proof.Lat) (q : Msk)
      (cutMask : Option Msk) (a : LatRef) (b : Src),
    let t := s.begun.hart k
    let c := s.begun.lanes k
    let n := c.fmt.bits
    let act := (List.range c.vl).filter fun j => maskOn t m c.fmt.q j
    let pat := fun j => elemOf n (s.begun.latData k a) j
    let int := fun j => c.fmt.int (pat j)
    let f := c.fmt.ff?.getD .f32
    let num := fun p => flushIn c.flush f (f.decode p)
    let narrow := fun v : Int =>
      if c.sat then ((max c.fmt.lo (min v c.fmt.hi) % 2 ^ n).toNat, if v < c.fmt.lo ∨ c.fmt.hi < v then flSAT else fl0)
      else ((v % 2 ^ n).toNat, fl0)
    let start := s.begun.src k b
    let reg := fun i (v : Word) fl rounds => WritesHart s h i k ((laneHart t rounds fl).put (.x x) v none)
    (s.LaneReady h k VFmt.isInt [a] →
      reg (.vreds h m x a b) (BitVec.ofInt 64 ((act.map int).foldl (· + ·) start.toInt)) fl0 false
      ∧ (let v0 := if c.fmt.isSigned then start.toInt else (start.toNat : Int)
        reg (.vredmin h m x a b) (BitVec.ofInt 64 ((act.map int).foldl min v0)) fl0 false
        ∧ reg (.vredmax h m x a b) (BitVec.ofInt 64 ((act.map int).foldl max v0)) fl0 false)
      ∧ ∃ mk : LaneMask, WritesHart s h (.vuniq h m last q a) k { laneHart t false 0 with masks := t.masks.set q.val mk }
          ∧ (∀ i < 8192, i ∉ act → mk.getLsbD i = t.masks[q.val].getLsbD i)
          ∧ ∀ p, p < act.length → act.getD p 0 < 8192 → mk.getLsbD (act.getD p 0)
              = if last then decide (p + 1 = act.length ∨ pat (act.getD p 0) ≠ pat (act.getD (p + 1) 0))
                else decide (p = 0 ∨ pat (act.getD p 0) ≠ pat (act.getD (p - 1) 0)))
    ∧ (s.LaneReady h k VFmt.isFloat [a] → trapMask t.fpc = 0 →
      (∀ most : Bool, let r := act.foldl (fun (acc : Nat × Flags) j =>
            let r := minMaxBits f most acc.1 (flushBits c.flush f (pat j))
            (r.1, acc.2 ||| r.2)) (flushBits c.flush f (start.toNat % 2 ^ n), fl0)
        reg (if most then .vredmax h m x a b else .vredmin h m x a b) (BitVec.ofNat 64 r.1) r.2 false)
      ∧ (s.begun.wide 32 = false →
        let g : FF := if wide then .f64 else .f32
        let sum := sumNum (flushIn c.flush g (g.decode (start.toNat % 2 ^ g.width))
          :: act.map fun j => flushIn c.flush f (f.decode (pat j))) (c.rm == .rdn)
        let r := flushOut c.flush g g 0 (roundTo sum.1 g c.rm c.sat (c.h 0))
        reg (.vfreds h m wide x a b) (BitVec.ofNat 64 r.1) (sum.2 ||| r.2) true))
    ∧ (s.LaneReady h k intOrFloat [.own d, a] → trapMask t.fpc = 0 →
      ∃ run : Nat → Nat × Flags,
        (∀ p, p < act.length →
          let j := act.getD p 0
          let before := if p = 0 ∨ (∃ cm, cutMask = some cm ∧ t.masks[cm.val].getLsbD (j / c.fmt.q) = true) then 0
            else (run (act.getD (p - 1) 0)).1
          run j = if c.fmt.isInt then narrow (c.fmt.int before + int j) else
            let v := sumNum [num before, num (pat j)] (c.rm == .rdn)
            let r := flushOut c.flush f f 0 (roundTo v.1 f c.rm c.sat (c.h j))
            (r.1, v.2 ||| r.2))
        ∧ ∃ u, RunsTo s h (.vscan h m excl d a cutMask) u
          ∧ LaneEffect s k (laneHart t (!c.fmt.isInt) (act.foldl (fun fl j => fl ||| (run j).2) 0)) [d] u
          ∧ ElemsWritten s u k d n act (fun j =>
              let p := act.idxOf j
              if excl then
                if p = 0 ∨ (∃ cm, cutMask = some cm ∧ t.masks[cm.val].getLsbD (j / c.fmt.q) = true) then 0
                else (run (act.getD (p - 1) 0)).1
              else (run j).1))
    ∧ (s.LaneReady h k VFmt.isInt [.own d, a] → Usable s k .n16 (.own bl) → bl ≠ d → c.vl ≤ 4096 →
      ∃ (order : List Nat) (u : State), order.Perm act
        ∧ order.Pairwise (fun i j => (if desc then int j < int i else int i < int j) ∨ int i = int j ∧ i < j)
        ∧ RunsTo s h (.vsortk h m desc d a bl) u ∧ LaneEffect s k (laneHart t false 0) [d, bl] u
        ∧ ElemsWritten s u k d n (List.range order.length) (fun p => pat (order.getD p 0))
        ∧ ElemsWritten s u k bl 16 (List.range order.length) (fun p => order.getD p 0))

/-- The conversions (R161 to R170, R197 to R200): VCVT between formats without scales, VMXQ and VLQQ from a wide format to
blocks with their scale bytes, and VMXD and VLQD back. A quantiser raises NV for a block whose scale is NaN and what each element or
point raises else, OF apart. Stated with no trap enabled in FPC and VT.LQT clear. That an integer VCVT and VLQQ leave SEED
alone is the model's choice (log entry 36), and that a source named in the gang is never counted as equal to the scale latch is the
model's reading (log entry 39). -/
def Obligations.LaneConversions : Prop :=
  ∀ (s : State) (h : Hdr) (k : Nat) (m : MaskMod) (sty : CvtFmt) (part3 : BitVec 3) (wf : WideFmt) (seg part4 : BitVec 4)
      (d bl : Sys2Proof.Lat) (a : LatRef), s.Solo h k → s.iss.view = [] → trapMask (s.begun.hart k).fpc = 0 →
    let t := s.begun.hart k
    let c := s.begun.lanes k
    let n := c.fmt.bits
    let f := c.fmt.ff?.getD .e4m3
    let data := s.begun.latData k a
    c.lqt = false →
    (let sf := cvtVfmt sty
      let sb := sf.bits
      let off := part3.toNat * c.vl
      let so := if sb < n then off else 0
      let dof := if n < sb then off else 0
      let act := ((List.range c.vl).filter fun i => maskOn t m c.fmt.q (i + dof)).map (· + dof)
      let p := fun j => elemOf sb data (j - dof + so)
      c.fmt.code ≤ 11 → c.bl = 0 → (sb = n → part3 = 0) → c.vl * max sb n ≤ 65536 → (part3.toNat + 1) * c.vl * min sb n ≤ 65536 →
      s.begun.wide (max sb n) = false → Usable s k sf a → Usable s k c.fmt (.own d) →
      WritesLatch s h (.vcvt h m sty part3 d a) k d n (sf.ff?.isSome || c.fmt.ff?.isSome) act (fun j =>
        match sf.ff?, c.fmt.ff? with
        | some e, some g =>
          let v := flushIn c.flush e (e.decode (p j))
          let r := flushOut c.flush g g 0 (roundTo v.ex g c.rm c.sat (c.h j))
          (r.1, v.snanFlag ||| r.2)
        | some e, none =>
          let r := toInt (flushIn c.flush e (e.decode (p j))) c.fmt.lo c.fmt.hi c.rm (c.h j)
          ((r.1 % 2 ^ n).toNat, r.2)
        | none, some g => flushOut c.flush g g 0 (roundTo (intNum (sf.int (p j))).ex g c.rm c.sat (c.h j))
        | none, none =>
          let v := sf.int (p j)
          if c.sat then ((max c.fmt.lo (min v c.fmt.hi) % 2 ^ n).toNat, if v < c.fmt.lo ∨ c.fmt.hi < v then flSAT else fl0)
          else ((v % 2 ^ n).toNat, fl0)))
    ∧ (let lo := part4.toNat * c.vl
      let hi := lo + c.vl
      let w := wideVfmt wf
      let g := wideFF wf
      let place := fun j => seg.toNat * (8192 / 2 ^ c.ssr) + j / c.bl
      let blocks := (((List.range c.vl).map (lo + ·)).map fun j => j / c.bl).dedup
      seg.toNat < 2 ^ c.ssr → lo % c.bl = 0 → c.vl ≤ w.perLatch → hi ≤ c.fmt.perLatch →
      (hi + c.bl - 1) / c.bl ≤ 8192 / 2 ^ c.ssr → s.begun.wide w.bits = false → Usable s k .n8 (.own bl) →
      let scaled := (c.fmt = .e4m3 ∨ c.fmt = .e5m2 ∨ c.fmt = .e2m1) ∧ c.bl ≠ 0
      let lattice := c.fmt.isLq = true ∧ c.bl = 32
      let x := fun j => if lo ≤ j ∧ j < hi then flushIn c.flush g (g.decode (elemOf w.bits data (j - lo))) else .fin false 0 0
      let scale := fun b => (blockScale c.fmt.emaxOf ((List.range c.bl).map fun i => x (b * c.bl + i))).1
      let shift := fun b => ((scale b : Nat) : Int) - 127
      let blockFl := blocks.foldl (fun fl b => fl ||| if scale b = 0xFF then flNV else fl0) fl0
      let elem := fun j =>
        let r := roundTo ((x j).scale (-(shift (j / c.bl)))).ex f c.rm true (c.h j)
        flushOut c.flush f .f32 (shift (j / c.bl)) (r.1, r.2 &&& ~~~ flOF)
      let point := fun p => lqQuantise c.fmt ((List.range 8).map fun i => (x (8 * p + i)).scale (-(shift (p / 4))))
      let js := (List.range c.vl).map (lo + ·)
      let ps := (List.range (c.vl / 8)).map (lo / 8 + ·)
      (Usable s k w a → Usable s k c.fmt (.own d) → bl ≠ d →
        (scaled → ∃ u, RunsTo s h (.vmxq h wf seg part4 d a bl) u
          ∧ LaneEffect s k (laneHart t true (js.foldl (fun fl j => fl ||| if scale (j / c.bl) = 0xFF then fl0 else (elem j).2) blockFl))
              [d, bl] u
          ∧ ElemsWritten s u k bl 8 (blocks.map fun b => place (b * c.bl)) (fun i => scale (i - seg.toNat * (8192 / 2 ^ c.ssr)))
          ∧ ElemsWritten s u k d n js (fun j => if scale (j / c.bl) = 0xFF then 0 else (elem j).1))
        ∧ (lattice → c.vl % 8 = 0 →
          ∃ u, RunsTo s h (.vlqq h wf seg part4 d a bl) u
          ∧ LaneEffect s k (laneHart t false (ps.foldl (fun fl p => fl ||| if scale (p / 4) = 0xFF then fl0 else (point p).2) blockFl))
              [d, bl] u
          ∧ ElemsWritten s u k bl 8 (blocks.map fun b => place (b * c.bl)) (fun i => scale (i - seg.toNat * (8192 / 2 ^ c.ssr)))
          ∧ ElemsWritten s u k d c.fmt.unit ps (fun p => if scale (p / 4) = 0xFF then 0 else (point p).1)))
      ∧ (Usable s k c.fmt a → Usable s k w (.own d) →
        let e := fun j => elemOf 8 (s.begun.latData k (.own bl)) (place j)
        let v := fun i => c.fmt.num data (lo + i) (some (e (lo + i)))
        let r := fun i => flushOut c.flush g g 0 (roundTo (flushIn c.flush .f32 (v i)).ex g c.rm c.sat (c.h i))
        let wideOut := fun i => WritesLatch s h i k d w.bits true (List.range c.vl) (fun i =>
          ((r i).1, (r i).2 ||| (v i).snanFlag ||| if e (lo + i) = 0xFF then flNV else fl0))
        (scaled → wideOut (.vmxd h wf seg part4 d a bl)) ∧ (lattice → wideOut (.vlqd h wf seg part4 d a bl))))

/-! ### The shuffle bus -/

/-- The bus words (R213 to R217), on every hart whose guard is true at once: each takes the whole latch, record and data, of
the rank that its operand names, as valid and with no source row; RBCAST, RXCH and RROT need one operand value in the gang.
RSEG takes segment r of the latch of each rank, for rank r. The other latches stay. Where their checks fail (R217): harts that do not
agree take 0x01 on every active hart, TVAL the address of the word; a rank at or beyond the size of the gang traps with 0x04, TVAL the
operand, on the harts that give it, and an invalid source latch with 0x04, TVAL the address of the word, on the harts that read it. -/
def Obligations.BusWords : Prop :=
  ∀ (s : State) (h : Hdr) (d a : Sys2Proof.Lat) (b : Src), s.Quiet → s.iss.base + s.gang.size ≤ 16 →
    (∀ k ∈ s.active, s.iss.base ≤ k ∧ k < s.iss.base + s.gang.size) →
    let runs := fun k => k ∈ s.active ∧ s.begun.guard h k = true
    let v := fun k => s.begun.src k b
    let size := s.gang.size
    let rank := fun k => k - s.iss.base
    let source := fun r => s.begun.latch (s.iss.base + r) a
    let onlyThose := fun u : State => (∀ j < 16, ∀ g, ¬ runs j ∨ g ≠ d → u.latch j g = s.begun.latch j g)
      ∧ u.dev = { s.begun.dev with banks := u.dev.banks, cores := u.dev.cores }
    let moves := fun i (from_ : Nat → Nat) => (∀ k, runs k → (source (from_ k)).valid = true) →
      ∃ u, RunsTo s h i u ∧ onlyThose u
        ∧ ∀ k, runs k → u.latch k d = { source (from_ k) with valid := true, src := 0x1FF }
    let agree := ∀ j k, runs j → runs k → v j = v k
    let inside := ∀ k, runs k → (v k).toNat < size
    (inside → moves (.rshuf h d a b) fun k => (v k).toNat)
    ∧ (agree → inside → moves (.rbcast h d a b) fun k => (v k).toNat)
    ∧ (agree → inside → moves (.rxch h d a b) fun k => rank k ^^^ (v k).toNat)
    ∧ (agree → moves (.rrot h d a b) fun k => (((rank k : Nat) : Int) - (v k).toInt).emod size |>.toNat)
    ∧ (let here : Fail := { cause := 0x04, tval := s.begun.iss.addr }
      let judged := fun i (from_ : Nat → Nat) (bounded : Bool) => FailsWith s h i (s.failing h fun k =>
        if bounded ∧ size ≤ (v k).toNat then some { cause := 0x04, tval := v k }
        else if (source (from_ k)).valid then none else some here)
      let differ := fun i => FailsWith s h i (s.active.map fun k => (k, { cause := 0x01, tval := s.begun.iss.addr }))
      judged (.rshuf h d a b) (fun k => (v k).toNat) true
      ∧ (agree → judged (.rbcast h d a b) (fun k => (v k).toNat) true ∧ judged (.rxch h d a b) (fun k => rank k ^^^ (v k).toNat) true
          ∧ judged (.rrot h d a b) (fun k => (((rank k : Nat) : Int) - (v k).toInt).emod size |>.toNat) false)
      ∧ (¬ agree → differ (.rbcast h d a b) ∧ differ (.rxch h d a b) ∧ differ (.rrot h d a b))
      ∧ ((∃ r < size, (source r).valid = false) → FailsWith s h (.rseg h d a) (s.failing h fun _ => some here)))
    ∧ ((∃ n, size = 2 ^ n) → (∀ r < size, (source r).valid = true) →
      ∃ u, RunsTo s h (.rseg h d a) u ∧ onlyThose u ∧ ∀ k, runs k →
        let x := u.latch k d
        let p := 8192 / size
        let q := 128 / size
        x.valid = true ∧ x.src = 0x1FF
        ∧ (∀ j < 8192, getBytes x.data.toNat j 1 = getBytes (source (j / p)).data.toNat (rank k * p + j % p) 1)
        ∧ (∀ j < 128, x.poison.getLsbD j = (source (j / q)).poison.getLsbD (rank k * q + j % q))
        ∧ ((∀ r < size, (source r).tag = (source 0).tag) → x.tag = (source 0).tag)
        ∧ ((∃ r < size, (source r).tag ≠ (source 0).tag) → x.tag = 0xF))

/-! ### The matrix unit -/

/-- The words that enter the matrix queue (R218 to R222, R226, R227, R234 to R237), with the slot bound and nothing before
them: each leaves its operation there with what it takes of the hart. TLOAD records the format, the tile and the scale latch
in the gang's half record; ACCRD converts its rows with the saturation of R237. That an integer ACCRD leaves SEED alone and what
smallest normal e4m3 and e5m2 flush to under a block length are the model's choices (log entries 36 and 37). -/
def Obligations.MatrixWords : Prop :=
  ∀ (s : State) (h : Hdr) (k : Nat) (bf : BFmt) (af : AFmt) (fmt : AccFmt) (half z edge : Bool) (kq : BitVec 2) (aseg : BitVec 3)
      (tile a : GLat) (scale : Option GLat) (acc : Sys2Proof.Acc) (slot : Fin 6) (g : Sys2Proof.Lat) (row : Src),
    s.Solo h k → s.iss.view = [] → (s.begun.dev.core s.iss.core).xfers = [] →
    (s.begun.rollback.core s.iss.core).xfers = [] →
    let t := s.begun.hart k
    let queued := fun (u : State) i op => (u.dev.core s.iss.core).mx
        = [{ res := s.rk, base := s.iss.base, cv := s.gang.cv, word := encode i, op := op, tm := t.tm, tn := t.tn }]
      ∧ u.dev = { s.begun.dev with cores := u.dev.cores, gangs := u.dev.gangs, launches := u.dev.launches, harts := u.dev.harts }
      ∧ ∀ j < 16, j ≠ k → u.hart j = s.begun.hart j
    let m := (t.tm.extractLsb' 0 7).toNat
    let n := (t.tn.extractLsb' 0 10).toNat
    let edges := 1 ≤ m ∧ m ≤ 64 ∧ 1 ≤ n ∧ n ≤ 512
    let x := s.begun.accSlot slot
    ((tile.bank = 0 ∨ tile.bank = 8) → tile.bank.val + 8 ≤ s.gang.size → bscOk bf scale.isSome = true →
      (∀ l ∈ tileLats tile, Usable s k (bVfmt bf) (.gang l)) → (∀ l, scale = some l → Usable s k .n8 (.gang l)) →
      ∃ u, RunsTo s h (.tload h bf half tile scale) u
        ∧ queued u (.tload h bf half tile scale) (.tload half tile scale) ∧ u.hart k = t
        ∧ let r := u.gang.half half
          r.valid = true ∧ r.bf = (bVfmt bf).code ∧ r.bsc = scale.isSome ∧ r.rank = tile.bank.val ∧ r.g = tile.g.val
          ∧ (∀ l, scale = some l → r.srank = l.bank.val ∧ r.sg = l.g.val) ∧ u.gang.half (!half) = s.gang.half (!half))
    ∧ (s.begun.slot? acc = some slot →
      (let r := s.gang.half half
        let b := VFmt.ofCode r.bf
        let ke := if t.tm.extractLsb' 16 10 = 0 then aKd af else (t.tm.extractLsb' 16 10).toNat
        r.valid = true → pairs b af = true → kq.toNat ≤ kqMax b → (b = .i8 ∨ b = .n8 ↔ x.int = true) →
        ascOk af scale.isSome = true → edges → ke ≤ aKd af → Usable s k (aVfmt af) (.gang a) →
        (∀ l, scale = some l → Usable s k .n8 (.gang l)) → (∀ l ∈ r.tile, Usable s k b (.gang l)) →
        (∀ l, r.scale = some l → Usable s k .n8 (.gang l)) →
        ∃ u, RunsTo s h (.tmma h af half kq z aseg acc a scale) u ∧ u.hart k = t
          ∧ queued u (.tmma h af half kq z aseg acc a scale) (.tmma af half kq.toNat z aseg.toNat slot a scale r m
              (t.tm.extractLsb' 16 10).toNat n))
      ∧ (edge = false ∨ edges → ∃ u, RunsTo s h (.accz h edge acc) u ∧ u.hart k = t
          ∧ queued u (.accz h edge acc) (.accz edge slot m n))
      ∧ (let r := (s.begun.src k row).toNat
        let f := accVfmt fmt
        let l : GLat := { bank := finBank (k - s.iss.base), g := g }
        r + accNr fmt ≤ 64 → s.begun.wide f.bits = false →
        (accrdOk fmt x.int = true → (s.begun.latch k g).tag = 0xF ∨ (s.begun.latch k g).tag.toNat = f.code → trapMask t.fpc = 0 →
          let c := { laneCfg t with fmt := f }
          let elem := fun e =>
            let v := x.get (r * 512 + e)
            if x.int && f.isInt then f.satTo v.toInt
            else if x.int then c.outNum e ((intNum v.toInt).ex, fl0)
            else c.outNum e ((FF.acc80.decode v.toNat).ex, (FF.acc80.decode v.toNat).snanFlag)
          ∃ (u : State) (data : RowData), RunsTo s h (.accrd h fmt g acc row) u
            ∧ queued u (.accrd h fmt g acc row) (.accrd slot [(l, r, data)])
            ∧ (∀ e, f.bits * (e + 1) ≤ 65536 → elemOf f.bits data.toNat e = (elem e).1 % 2 ^ f.bits)
            ∧ u.hart k = laneHart t (!f.isInt) ((List.range (65536 / f.bits)).foldl (fun fl e => fl ||| (elem e).2) 0))
        ∧ (f.isInt = x.int → s.iss.base ≤ k → Usable s k f (.own g) →
          ∃ u, RunsTo s h (.accwr h fmt acc g row) u ∧ u.hart k = t
            ∧ queued u (.accwr h fmt acc g row) (.accwr fmt slot [(l, r)]))))

/-- The words of accumulator slots (R223 to R227, R238 to R240), with an empty matrix queue: each enters the queue with what it
takes of the hart, and changes nothing else; its convoy does not wait for it. ACCCLM chooses a free slot to bind and will say so
in its predicate; it will say true for a slot of that mode that the context holds already, and false when none is free. ACCREL
names the slot to be freed, if one is bound. ACCSV and ACCLD, at an aligned address whose pages they may use, ask for a transfer.
TSTAT names the slot that it will read, or takes what the half records and the budget counter are at its place in the queue (R227,
R240). ACCCLM of a slot of the other mode, and TSTAT.satclr of an unbound one, trap with 0x0E, TVAL the
index. -/
def Obligations.AccumulatorWords : Prop :=
  ∀ (s : State) (h : Hdr) (k : Nat) (int : Bool) (p : PReg) (x : XReg) (addr spec : XReg) (acc : Sys2Proof.Acc) (slot : Fin 6)
      (r : Residence), s.Solo h k → (s.begun.dev.core s.iss.core).xfers = [] → (s.begun.rollback.core s.iss.core).xfers = [] →
    s.begun.res? = some r →
    let t := s.begun.hart k
    let core := fun u : State => u.dev.core s.iss.core
    let old := s.begun.accSlot slot
    let queued := fun (i : Instr) (op : MxOp) => ∃ u, RunsTo s h i u
      ∧ (core u).mx = [{ res := s.rk, base := s.iss.base, cv := s.gang.cv, word := encode i, op := op, tm := t.tm, tn := t.tn }]
      ∧ u.dev = { s.begun.dev with cores := u.dev.cores }
    let unbound := fun i => FailsWith s h i [(k, { cause := 0x0E, tval := BitVec.ofNat 64 acc.val })]
    queued (.accrel h acc) (.accrel (s.begun.slot? acc))
    ∧ queued (.tstat h (.slot acc) x) (.tstat (.slot acc) (s.begun.slot? acc) x [k] 0)
    ∧ queued (.tstat h .half x) (.tstat .half none x [k] (s.begun.dev.halfStat s.iss.core s.rk s.iss.base))
    ∧ queued (.tstat h .budget x) (.tstat .budget none x [k] (s.begun.dev.budgetOf s.rk))
    ∧ (s.begun.slot? acc = none →
      (s.begun.dev.freeSlot s.iss.core = some slot →
        queued (.accclm h int p acc) (.accclm (some (slot, acc, int)) (some slot) p true [k]))
      ∧ (s.begun.dev.freeSlot s.iss.core = none → queued (.accclm h int p acc) (.accclm none none p false [k]))
      ∧ unbound (.tstat h (.satclr acc) x))
    ∧ (s.begun.slot? acc = some slot →
      (old.int = int → queued (.accclm h int p acc) (.accclm none (some slot) p true [k]))
      ∧ (old.int ≠ int → unbound (.accclm h int p acc))
      ∧ queued (.tstat h (.satclr acc) x) (.tstat (.satclr acc) (some slot) x [k] 0)
      ∧ (let va := t.getX addr
        let off := (t.getX spec).extractLsb' 0 32
        va.toNat % 64 = 0 → r.fb ≤ off.toNat → off.toNat < r.sb → off.toNat % 8 = 0 →
        ∀ (load : Bool) (d : Device) (pages : List AtcEntry),
          xferPages (if load then .read else .write) s.iss.core s.rk (pageStarts va.toNat imageBytes) s.begun.dev [] = (d, .ok pages) →
          d.ress = s.begun.dev.ress → d.harts = s.begun.dev.harts → (d.core s.iss.core).mx = [] →
          let i : Instr := if load then .accld h (.word spec) acc addr else .accsv h (.word spec) addr acc
          ∃ u, RunsTo s h i u ∧ u.hart k = t ∧ (core u).xfers = (d.core s.iss.core).xfers
            ∧ u.dev = { d with cores := u.dev.cores, launches := u.dev.launches }
            ∧ (core u).mx = [{ res := s.rk, base := s.iss.base, cv := s.gang.cv, word := encode i, tm := t.tm, tn := t.tn
                               op := .move slot { res := s.rk, bank := s.iss.base, slot := slot.val, load := load, image := []
                                                  va := va, pages := pages
                                                  comp := .word off.toNat ((t.getX spec).extractLsb' 32 32 |>.setWidth 64) } }]))

/-- The events of the matrix unit (R222, R225, R227 to R229, R234 to R240), for an entry at any place of the queue. An entry that
may start, and has the bus slots that it needs, is marked with the end of its time (R229); one that needs slots asks the bus for them
first (R212); a TMMA that has them begins its broadcast, and its compute starts no earlier than 16 ck later; one that may not start
stays as it is. An entry that has run its time takes effect and leaves the queue, and one
that has not stays. A TMMA folds the steps of 64 products of each accumulator of its rows and columns, ACCZ clears, ACCWR writes
the rows that a latch holds, ACCRD writes its latch, and TLOAD makes the half a current copy; ACCCLM binds and zeroes its slot and
ACCREL frees it; ACCSV and ACCLD begin their transfer, ACCSV with the image of the slot as it is now; TSTAT reads, and with
.satclr clears the flag; and the results of ACCCLM and TSTAT come to their harts. A transfer moves its whole image, stated here
to or from a vault, and ends, once the convoys that are to be tried again at its completion word before it have been (R258). -/
def Obligations.MatrixEvents : Prop :=
  (∀ (s : State) (c : Fin 2048) (k : Fin 16) (e : MxEntry), (s.dev.core c).mx[k.val]? = some e →
    let mx := fun u : State => (u.dev.core c).mx
    let old := fun (q : Fin 6) => (s.dev.core c).acc[q.val]
    let same := fun u : State => u.iss = s.iss ∧ u.agenda = s.agenda ∧ u.dev.mem = s.dev.mem
    let results := fun (u : State) (r : Reg) (v : Word) (banks : List Nat) => banks.Nodup → (∀ b ∈ banks, b < 16) →
      (∀ b ∈ banks, u.dev.hart e.res b = (s.dev.hart e.res b).receive r v)
      ∧ ∀ rk, ∀ b < 16, rk ≠ e.res ∨ b ∉ banks → u.dev.hart rk b = s.dev.hart rk b
    let time := match e.op with
      | .tload .. => 20
      | .tmma _ _ _ _ _ _ _ _ _ m _ _ => 8 * (m - e.nextRow) + 12
      | .accz .. | .accrd .. | .accwr .. => 16
      | .accclm .. | .accrel _ | .move .. => 1
      | .tstat .. => 2
    let slots := match e.op with
      | .tload _ _ scale => scale.toList.length
      | .tmma _ _ _ _ _ _ _ scale .. => 1 + scale.toList.length
      | _ => 0
    let first := (match e.op with | .tmma .. => True | _ => False) ∧ e.beganAt = none
    let kept := fun e' : MxEntry => e'.op = e.op ∧ e'.res = e.res ∧ e'.base = e.base ∧ e'.word = e.word ∧ e'.nextRow = e.nextRow
    (s.dev.mxCanStart c k = true →
      (slots = 0 ∨ e.req.isSome = true ∨ e.beganAt.isSome = true →
        ∃ u e', exec (.matrixOpStart c k) s = .next u ∧ same u ∧ u.dev.harts = s.dev.harts ∧ mx u = (s.dev.core c).mx.set k e'
          ∧ kept e' ∧ e'.req = none
          ∧ (first → e'.beganAt = some s.dev.now ∧ e'.started = e.started)
          ∧ (¬ first → e'.started = true ∧ s.dev.now + time ≤ e'.doneAt ∧ (e.beganAt = none → e'.doneAt = s.dev.now + time)
            ∧ ∀ t, e.beganAt = some t → t + 16 + time ≤ e'.doneAt))
      ∧ (slots ≠ 0 → e.req = none → e.beganAt = none →
        ∃ u id, exec (.matrixOpStart c k) s = .next u ∧ same u ∧ u.dev.harts = s.dev.harts
          ∧ mx u = (s.dev.core c).mx.set k { e with req := some id }
          ∧ (u.dev.core c).busQ = (s.dev.core c).busQ
              ++ [{ id := id, age := s.dev.now, time := 16, need := slots, all := false, matrix := true }]))
    ∧ (s.dev.mxCanStart c k = false → RunsEvent s (.matrixOpStart c k) s.dev)
    ∧ (¬ (e.started = true ∧ e.doneAt ≤ s.dev.now) → RunsEvent s (.matrixOpComplete c k) s.dev)
    ∧ (e.started = true → e.doneAt ≤ s.dev.now → ∃ u, exec (.matrixOpComplete c k) s = .next u ∧ same u
      ∧ mx u = (s.dev.core c).mx.eraseIdx k
      ∧ let new := fun (q : Fin 6) => (u.dev.core c).acc[q.val]
        (∀ q, e.slot? ≠ some q → (∀ acc int p v l b, e.op ≠ .accclm (some (q, acc, int)) b p v l) → new q = old q)
        ∧ ((∀ b, e.dest b = none) → u.dev.harts = s.dev.harts)
        ∧ (∀ half tile scale, e.op = .tload half tile scale → u.dev.copyOk c e.res e.base half = true)
        ∧ (∀ af half kq z aseg q a scale r m ke n, e.op = .tmma af half kq z aseg q a scale r m ke n → e.nextRow = 0 → n ≤ 512 →
            ∀ i j, j < 512 → (new q).get (i * 512 + j) = if i < m ∧ j < n then
                ((List.range (aKd af / 64)).foldl (fun acc p =>
                  (Device.mxStep (old q).int (if z && p == 0 then 0 else acc)
                    (((List.range 64).filter fun w => 64 * p + w < (if ke = 0 then aKd af else ke)).map fun w =>
                      (s.dev.aElem c e.base af a scale aseg i (64 * p + w),
                       s.dev.bElem c e.base r ((if (VFmt.ofCode r.bf).isLq then 128 * kq else 0) + (64 * p + w)) j))).1)
                  ((old q).get (i * 512 + j)))
              else (old q).get (i * 512 + j))
        ∧ (∀ edge q m n, e.op = .accz edge q m n →
            ∀ i j, j < 512 → (new q).get (i * 512 + j)
              = if edge = false ∨ (i < m ∧ j < n) then 0 else (old q).get (i * 512 + j))
        ∧ (∀ q (l : GLat) (r : Nat) (data : RowData), e.op = .accrd q [(l, r, data)] →
            (u.dev.latch c (e.base + l.bank.val) l.g).data = data ∧ (u.dev.latch c (e.base + l.bank.val) l.g).valid = true
            ∧ (u.dev.latch c (e.base + l.bank.val) l.g).poison = 0)
        ∧ (∀ fmt q (l : GLat) (r : Nat), e.op = .accwr fmt q [(l, r)] →
            ∀ i, (new q).get i = if r * 512 ≤ i ∧ i < (r + accNr fmt) * 512 then
                Device.accOf (old q).int (accVfmt fmt) (s.dev.latchAt c (gangLatch e.base l)).data.toNat (i - r * 512)
              else (old q).get i)
        ∧ (∀ bind q p v banks, e.op = .accclm bind q p v banks → results u (.p p) (if v then 1 else 0) banks
            ∧ (bind = none → (u.dev.core c).acc = (s.dev.core c).acc)
            ∧ ∀ b acc int, bind = some (b, acc, int) → (new b).bound = some (e.res, acc) ∧ (new b).int = int
                ∧ (new b).satf = false ∧ ∀ i, (new b).get i = 0)
        ∧ (∀ q, e.op = .accrel (some q) → (new q).bound = none)
        ∧ (∀ q x, e.op = .move q x → (u.dev.core c).acc = (s.dev.core c).acc ∧ (u.dev.core c).xfers
            = (s.dev.core c).xfers ++ [if x.load then x else { x with image := (old q).image }])
        ∧ ∀ sel slot r banks v, e.op = .tstat sel slot r banks v →
            results u (.x r) (BitVec.ofNat 64 (match sel with
              | .slot _ | .satclr _ => s.dev.slotStat c e.res slot
              | .half | .budget => v)) banks
            ∧ ((∀ acc, sel ≠ .satclr acc) → (u.dev.core c).acc = (s.dev.core c).acc)
            ∧ ∀ acc q, sel = .satclr acc → slot = some q → new q = { old q with satf := false }))
  ∧ (∀ (s : State) (c : Fin 2048) (k : Fin 16), (s.dev.core c).mx.length ≤ k.val →
      RunsEvent s (.matrixOpStart c k) s.dev ∧ RunsEvent s (.matrixOpComplete c k) s.dev)
  ∧ (∀ (s : State) (c : Fin 2048) (k : Nat), (s.dev.core c).xfers.length ≤ k → RunsEvent s (.accTransferComplete c k) s.dev)
  ∧ (∀ (s : State) (c : Fin 2048) (k : Nat) (x : AccXfer), (s.dev.core c).xfers[k]? = some x →
      s.dev.compTurn x.res x.comp = false → RunsEvent s (.accTransferComplete c k) s.dev)
  ∧ ∀ (s : State) (c : Fin 2048) (k : Nat) (x : AccXfer), (s.dev.core c).xfers[k]? = some x → s.dev.compTurn x.res x.comp = true →
      ∃ u, exec (.accTransferComplete c k) s = .next u ∧ u.iss = s.iss ∧ u.agenda = s.agenda
        ∧ (u.dev.core c).xfers = (s.dev.core c).xfers.erase x
        ∧ ∀ v, s.dev.vaultBad = [] → s.dev.vault.wf = true → x.image.wf = true →
          (∀ i < 5121, s.dev.xferPlace c x (x.va.toNat + 64 * i) = some (.mem (.vault (v + 64 * i)))) →
          u.dev.mem = s.dev.mem
          ∧ (x.load = true → ∀ q : Fin 6, q.val = x.slot →
            (u.dev.core c).acc[q.val].int = (s.dev.vault.read (v + 327680) 1).testBit 0 ∧ u.dev.vault = s.dev.vault
            ∧ ∀ i < 32768, ((u.dev.core c).acc[q.val].get i).toNat = s.dev.vault.read (v + 10 * i) 10)
          ∧ (x.load = false → (u.dev.core c).acc = (s.dev.core c).acc
            ∧ ∀ i < 5121, u.dev.vault.read (v + 64 * i) 64 = x.image.read (64 * i) 64)

/-! ### The pool and scalar memory -/

/-- LD, ST, LDV, STV and AMOP (R261 to R263, R267, R269), on one hart, at an address that passes the checks of R262: a load
writes its register with the extended value, LDV its registers with the words in turn; a store writes the low bytes of its
register, STV those of its registers; AMOP reads, writes the new value, which the table of R269 gives for each operation, and its
register holds the old one. A misaligned
address traps with 0x09, TVAL the address. `e` is the package after the address has been translated. A scratchpad byte of a
context (R9, R241, R244): an address of the pool window between FB and SB passes the checks and names the byte at its offset;
a read gives the bytes there, the first lowest; a write changes those bytes and no other, keeps every tag, and changes no
other memory. -/
def Obligations.ScalarMemory : Prop :=
  (∀ (s : State) (h : Hdr) (k : Nat) (na w : Bool) (d base : XReg) (disp : Src) (op : AOp) (n1 : BitVec 3) (r : Residence)
         (p : Place) (e : Device), s.Solo h k → s.begun.res? = some r → s.begun.dev.portQ = [] →
       let t := s.begun.hart k
       let va := (t.getX base + s.begun.src k disp).toNat
       let direct := (t.getX base).toNat
       let into := fun i dev => RunsInto s h i dev s.iss.target
       let reg := fun j => (⟨(d.val + j) % 64, Nat.mod_lt _ (by decide)⟩ : XReg)
       let fails := fun i (a : Nat) => FailsWith s h i [(k, { cause := 0x09, tval := BitVec.ofNat 64 a })]
       let n := n1.toNat + 1
       (s.begun.dev.checkAt s.iss.core r { frames := true } .read va = (e, .ok p) →
         (∀ ty e' v, va % ldBytes ty = 0 → e.readAt s.iss.core s.rk p (ldBytes ty) na = (e', v, false) →
           into (.ld h ty na d base disp) (e'.modHart s.rk k fun t => t.put (.x d) (match ty with
             | .i8 => (BitVec.ofNat 8 v).signExtend 64
             | .i16 => (BitVec.ofNat 16 v).signExtend 64
             | .i32 => (BitVec.ofNat 32 v).signExtend 64
             | .n8 | .n16 | .n32 | .x64 => BitVec.ofNat 64 v) none))
         ∧ ∀ e' v, va % 8 = 0 → va % 64 + 8 * n ≤ 64 → e.readAt s.iss.core s.rk p (8 * n) = (e', v, false) →
           into (.ldv h n1 d base disp) (e'.modHart s.rk k fun t =>
             (List.range n).foldl (fun t j => t.put (.x (reg j)) (BitVec.ofNat 64 (v / 2 ^ (64 * j) % 2 ^ 64)) none) t))
       ∧ (s.begun.dev.checkAt s.iss.core r {} .write va = (e, .ok p) →
         (∀ sz, va % stBytes sz = 0 →
           into (.st h sz na d base disp) (e.writeAt s.iss.core s.rk p (stBytes sz) (t.getX d).toNat na))
         ∧ (va % 8 = 0 → va % 64 + 8 * n ≤ 64 →
           into (.stv h n1 d base disp) (e.writeAt s.iss.core s.rk p (8 * n)
             ((List.range n).map fun j => (t.getX (reg j)).toNat * 2 ^ (64 * j)).sum)))
       ∧ (s.begun.dev.checkAt s.iss.core r { global := false } .atomic direct = (e, .ok p) →
         let b := if w then 4 else 8
         ∀ e' v, direct % b = 0 → e.readAt s.iss.core s.rk p b = (e', v, false) →
           into (.amop h op w d base disp)
             ((e'.writeAt s.iss.core s.rk p b (amoNew op w v (s.begun.src k disp).toNat (t.getX d).toNat)).modHart s.rk k
               fun t => t.put (.x d) (BitVec.ofNat 64 v) none))
       ∧ (∀ ty, va % ldBytes ty ≠ 0 → fails (.ld h ty na d base disp) va)
       ∧ (∀ sz, va % stBytes sz ≠ 0 → fails (.st h sz na d base disp) va)
       ∧ (direct % (if w then 4 else 8) ≠ 0 → fails (.amop h op w d base disp) direct))
  ∧ (∀ (d : Device) (core rk o n v : Nat) (r : Residence), d.res? rk = some r → r.scratch.wf = true →
       r.fb ≤ o → o < r.sb → r.sb ≤ Config.poolBytes →
       (∀ ad acc, ad.scratch = true → d.checkAt core r ad acc (0xFFFFF00000000000 + o) = (d, .ok (.pool o)))
       ∧ (∃ w bad, d.readAt core rk (.pool o) n = (d, w, bad) ∧ w < 2 ^ (8 * n)
           ∧ ∀ j < n, BitVec.ofNat 8 (w / 2 ^ (8 * j)) = r.scratch.byte (o + j))
       ∧ ∃ r', d.writeAt core rk (.pool o) n v = d.setRes rk r' ∧ r' = { r with scratch := r'.scratch, bad := r'.bad }
           ∧ ∀ a, r'.scratch.byte a = if o ≤ a ∧ a < o + n then BitVec.ofNat 8 (v / 2 ^ (8 * (a - o))) else r.scratch.byte a)
  ∧ (∀ (op : AOp) (w : Bool) (v b cmp : Nat), v < 2 ^ (if w then 32 else 64) →
       let row := fun (n : Nat) (f : FF) =>
         let x := BitVec.ofNat n v
         let y := BitVec.ofNat n b
         match op with
         | .add => (x + y).toNat
         | .and => (x &&& y).toNat
         | .or => (x ||| y).toNat
         | .xor => (x ^^^ y).toNat
         | .min => (if x.sle y then x else y).toNat
         | .max => (if x.sle y then y else x).toNat
         | .minn => (if x.ule y then x else y).toNat
         | .maxn => (if x.ule y then y else x).toNat
         | .swap => y.toNat
         | .cas => (if x = BitVec.ofNat n cmp then y else x).toNat
         | .fadd => (roundTo (sumNum [f.decode v, f.decode y.toNat] false).1 f .rne).1
         | .fmax => (minMaxBits f true v y.toNat).1
       amoNew op w v b cmp = if w then row 32 .f32 else row 64 .f64)

/-- The tag words (R257 to R259, R264, R265), on one hart, at an aligned scratchpad address, with no tag word before them in
the convoy and no reduction of the hart on its way: LDE and LDF wait for a full tag, STE for an empty one, and each also while a
convoy of a lower bank that waits on the word may go on (R258); LDE reads and empties, LDF reads, STE and STF write and fill;
TAGR reads tags, as the convoy found them, and TAGW writes them, one or 64. -/
def Obligations.TagWords : Prop :=
  ∀ (s : State) (h : Hdr) (k : Nat) (blk : Bool) (d base : XReg) (disp : Src) (r before : Residence) (o : Nat),
    s.Solo h k → s.begun.res? = some r → s.begun.dev.portQ = [] → s.begun.rollback.res? s.rk = some before →
    (s.begun.rollback.hart s.rk k).redOut = 0 → s.iss.conds = [] → s.iss.tagWrites = [] →
    r.fb ≤ o → o < r.sb → r.sb ≤ Config.poolBytes →
    let t := s.begun.hart k
    (t.getX base + s.begun.src k disp).toNat = 0xFFFFF00000000000 + o →
    let into := fun i dev => RunsInto s h i dev s.iss.target
    let dev := s.begun.dev
    let full := before.tag o
    let got := fun (t : Hart) => t.put (.x d) (BitVec.ofNat 64 (r.read o 8).1) none
    let fill := fun (e : Device) => (e.modRes s.rk fun r => r.write o 8 (t.getX d).toNat).modRes s.rk fun r => r.setTag o true
    let on := fun want => WaitOn.pool [{ bank := k, off := o, on := .tag want false }]
    let last := fun want => s.begun.rollback.poolTurn s.rk s.iss.base [{ bank := k, off := o, on := .tag want false }] = false
    (o % 8 = 0 → (r.read o 8).2 = false →
      (full = true → last true → into (.ldf h d base disp) (dev.modHart s.rk k got)
        ∧ into (.lde h d base disp) ((dev.modHart s.rk k got).modRes s.rk fun r => r.setTag o false))
      ∧ (full = false ∨ ¬ last true → HoldsOn s h (.ldf h d base disp) (on true) ∧ HoldsOn s h (.lde h d base disp) (on true)))
    ∧ (o % 8 = 0 → (full = false → last false → into (.ste h d base disp) (fill dev))
      ∧ (full = true ∨ ¬ last false → HoldsOn s h (.ste h d base disp) (on false)) ∧ into (.stf h d base disp) (fill dev))
    ∧ let n := if blk then 64 else 1
      (o % (8 * n) = 0 →
        (∃ v : Word, WritesReg s h (.tagr h blk d base disp) (.x d) (fun _ => v)
          ∧ ∀ j < 64, v.getLsbD j = (decide (j < n) && before.tag (o + 8 * j)))
        ∧ ∃ l, into (.tagw h blk d base disp) (dev.setRes s.rk { r with full := l })
          ∧ ∀ w, l.contains w = if o / 8 ≤ w ∧ w < o / 8 + n then (t.getX d).getLsbD (w - o / 8) else r.full.contains w)

/-- The cache words (R266, R268): PREF never traps, and changes nothing at an unaligned address (of its 8 bytes, log entry 28), at
an address of a window, nor for a line of a running launch's write set. CINV and CWB do the lines of the core's pool cache and the
proxy lines of its stand that hold a byte of their range, or all: CWB those that are dirty, CINV each. While more than one line is to
be done the convoy does one of them and waits, so that a pre-emption comes between two lines (R268, R367), which is how the model has
it; the last one is done as the word runs. A line that is done has its dirty copy, or the marked bytes of its proxy copy, at home; CINV also drops the core's
copy and the proxy copy. After CINV.all no line is left in the core's pool cache and no proxy copy in its stand, and after CWB.all no
dirty line in the one, which only one cache of a line may hold, and no unwritten byte in the other; a range of no bytes changes
nothing. The cache words are stated for a hart that has no reduction on its way.
The events of the pool caches and slices (R245, R252, R253, R255, R256): a line leaves its cache or slice when it is the least
recently used one of a full set (whose sets are the model's, log 25), a dirty one or a marked one once it has been written home, and
else stays; a prefetch makes room first; of a line of another stand it leaves a proxy copy with what the home holds and nothing
marked, and a copy of it in the core's pool cache; of a line of this stand it leaves a clean copy, unless another cache owns the line
(log 43). -/
def Obligations.CacheWordsAndEvents : Prop :=
  (∀ (s : State) (h : Hdr) (k : Nat) (ex : Bool) (base : XReg) (disp : Src), s.Solo h k →
       let dev := s.begun.dev
       let va := ((s.begun.hart k).getX base + s.begun.src k disp).toNat
       let into := fun i dev => RunsInto s h i dev s.iss.target
       let stand := s.iss.core / 128
       (2 ^ 56 ≤ va ∨ va % 8 ≠ 0 → into (.pref h ex base disp) dev)
       ∧ (∀ e key, va < 2 ^ 56 → va % 8 = 0 →
           dev.globalAt s.iss.core s.begun.ctx (if ex then .write else .read) va = (e, .ok (.mem (.dram key))) →
           (e.inWriteSet key = true → into (.pref h ex base disp) e)
           ∧ (e.inWriteSet key = false → into (.pref h ex base disp) (e.cachedRead s.iss.core (.dram key) 1).1))
       ∧ (∀ e f, va < 2 ^ 56 → va % 8 = 0 →
           dev.globalAt s.iss.core s.begun.ctx (if ex then .write else .read) va = (e, .fail f) →
           into (.pref h ex base disp) e)
       ∧ (dev.portQ = [] → (s.begun.rollback.hart s.rk k).redOut = 0 →
         let core := s.iss.core
         let word := fun (inv : Bool) r => if inv then Instr.cinv h r else .cwb h r
         let todo := fun (inv : Bool) r => s.begun.rollback.cleanList core s.begun.ctx inv (crange s.begun k r)
         let bytes := fun r => match r with
           | CRange.all => none
           | .range a n => some (((s.begun.hart k).getX a).toNat, (s.begun.src k n).toNat)
         let covers := fun r line => match bytes r with
           | none => True
           | some (a, n) => ∃ va ∈ dev.lineVas core s.begun.ctx line, ∃ b < n, (a + b) % 2 ^ 64 / 64 = va / 64
         let held := fun line => (∃ c ∈ dev.lines, c.core = core ∧ c.line = line)
           ∨ ∃ p ∈ dev.proxies, p.stand = stand ∧ p.line = line ∧ atHome line stand = false
         let dirty := fun line => (∃ c, dev.dirty? line = some c ∧ c.core = core) ∨ ∃ p, dev.proxy? stand line = some p ∧ p.marks ≠ 0
         (∀ inv r l m t, todo inv r = l :: m :: t → HoldsOn s h (word inv r) (.lines inv l))
         ∧ (∀ inv r, (todo inv r).length ≤ 1 → (∀ line, ∀ va ∈ dev.lineVas core s.begun.ctx line, va < 2 ^ 64) →
           ∃ l : List Nat, into (word inv r) (l.foldl (fun d x => d.cleanLine core inv x) dev)
             ∧ ∀ line, line ∈ l ↔ held line ∧ covers r line ∧ (inv = true ∨ dirty line))
         ∧ ((todo true .all).length ≤ 1 → ∃ e, into (.cinv h .all) e ∧ (∀ c ∈ e.lines, c.core ≠ core)
           ∧ (∀ p ∈ e.proxies, p.stand = stand → atHome p.line stand = true)
           ∧ e.vault = dev.vault ∧ e.harts = dev.harts ∧ e.ress = dev.ress)
         ∧ ((todo false .all).length ≤ 1 →
           (∀ c ∈ dev.lines, ∀ c' ∈ dev.lines, c.dirty = true → c'.dirty = true → c.line = c'.line → c.core = c'.core) →
           (dev.proxies.map fun p => (p.stand, p.line)).Nodup →
           ∃ e, into (.cwb h .all) e ∧ (∀ c ∈ e.lines, c.core = core → c.dirty = false)
             ∧ (∀ p ∈ e.proxies, p.stand = stand → atHome p.line stand = false → p.marks = 0)
             ∧ e.vault = dev.vault ∧ e.harts = dev.harts ∧ e.ress = dev.ress)
         ∧ (s.begun.src k disp = 0 → into (.cinv h (.range base disp)) dev ∧ into (.cwb h (.range base disp)) dev)))
  ∧ (∀ (d : Device) (core line : Nat) (inv : Bool), d.mem.wf = true →
       let e := d.cleanLine core inv line
       let f := d.releaseFor (64 * line)
       (inv = true → e.copy? core line = none)
       ∧ (∀ c, d.dirty? line = some c → c.core = core → atHome line (core / 128) = true → f.dirty? line = some c →
         e.dirty? line = none ∧ ∀ i < 64, e.mem.byte (64 * line + i) = c.data.extractLsb' (8 * i) 8)
       ∧ (∀ p, d.dirty? line = none → d.proxy? (core / 128) line = some p → atHome line (core / 128) = false → p.marks ≠ 0 →
         (∀ a, d.lineStor line ≠ .dropped a) → ∀ i < 64, p.marks.getLsbD i = true →
           e.mem.byte (64 * line + i) = p.data.extractLsb' (8 * i) 8))
  ∧ (∀ (u : State) (h : Hdr) (d : Device) (inv : Bool) (line : Nat), h.c = false → u.iss.fails = [] →
       (∀ p ∈ u.iss.sweeps, p.2.cost ≤ 96) → u.iss.hold = some (.lines inv line) → u.iss.undo = some d →
       let back := d.modCore u.iss.core fun c => { c with atc := (u.dev.core u.iss.core).atc }
       let t : State := u.endWord h
       t.iss = {} ∧ t.dev.mem = (back.cleanLine u.iss.core inv line).mem ∧ t.dev.lines = (back.cleanLine u.iss.core inv line).lines
       ∧ t.dev.proxies = (back.cleanLine u.iss.core inv line).proxies ∧ t.dev.harts = d.harts)
  ∧ (∀ (s : State) (core : Fin 2048) (stand : Fin 16) (pa : BitVec 60) (key : Nat), s.dev.stor pa.toNat = .dram key →
       let d := s.dev
       let line := key / 64
       let f := d.releaseFor (64 * line)
       let leaves := setEvicts ((d.linesOf core).map CacheLine.line) line = true
       let falls := setEvicts ((d.sliceOf stand (homeSlice key)).map Proxy.line) line = true
       let here := core.val / 128
       (¬ leaves ∨ d.copy? core line = none → RunsEvent s (.cacheLineEvict core pa) d)
       ∧ (∀ c, leaves → d.copy? core line = some c → c.dirty = false → RunsEvent s (.cacheLineEvict core pa)
           { d with lines := d.lines.filter fun e => !(e.core == core.val && e.line == line) })
       ∧ (∀ c o c', leaves → d.copy? core line = some c → c.dirty = true → d.dirty? line = some o → f.dirty? line = some c' →
           RunsEvent s (.cacheLineEvict core pa)
             { f.wqClose (64 * line) with
                      mem := f.mem.write (64 * line) 64 c'.data.toNat, memBad := putN c'.bad line f.memBad
                      lines := (f.lines.map fun e => if e.line = line then { e with dirty := false } else e).filter fun e =>
                        !(e.core == o.core && e.line == line) })
       ∧ (¬ falls ∨ d.proxy? stand line = none → RunsEvent s (.proxyEvict stand pa) d)
       ∧ (∀ p, falls → d.proxy? stand line = some p → p.marks = 0 → RunsEvent s (.proxyEvict stand pa)
           { (if atHome line stand then d else d.dropCopies stand line) with
             proxies := d.proxies.filter fun q => !(q.stand == stand.val && q.line == line) })
       ∧ (∀ p, falls → d.proxy? stand line = some p → p.marks ≠ 0 → f.dirty? line = none → f.mem.wf = true →
           ∃ e, RunsEvent s (.proxyEvict stand pa) e ∧ e.proxy? stand line = none
             ∧ ∀ i < 64, e.mem.byte (64 * line + i)
                 = if p.marks.getLsbD i then p.data.extractLsb' (8 * i) 8 else f.mem.byte (64 * line + i))
       ∧ (d.inWriteSet key = true → RunsEvent s (.hwPrefetch core pa) d)
       ∧ (d.inWriteSet key = false → d.regs.rsvc = false → atHome line here = true →
         let g := d.cacheRoom core line
         (∀ c, g.copy? core line = some c → RunsEvent s (.hwPrefetch core pa) (g.holdLine c))
         ∧ (g.copy? core line = none → (g.dirty? line).isSome = true → RunsEvent s (.hwPrefetch core pa) g)
         ∧ (g.copy? core line = none → g.dirty? line = none → let r := g.homeFetch line
           RunsEvent s (.hwPrefetch core pa) (r.1.holdLine
             { core := core, line := line, data := BitVec.ofNat 512 r.2.1, bad := r.2.2, dirty := false })))
       ∧ (d.inWriteSet key = false → d.regs.rsvc = false → atHome line here = false →
         let g := (d.cacheRoom core line).sliceRoom here line
         g.proxy? here line = none → g.dirty? line = none →
         let r := g.homeFetch line
         let p : Proxy := { stand := here, line := line, data := BitVec.ofNat 512 r.2.1, marks := 0, bad := r.2.2 }
         RunsEvent s (.hwPrefetch core pa) ((r.1.setProxy p).holdLine
           { core := core, line := line, data := p.data, bad := p.bad, dirty := false })))

/-! ### Bank atomics -/

/-- AMO, CAS, RED, REDF and PGQ (R286 to R298), on one hart, at an aligned address that passes the checks of R292, with room
at the bank, whose port it is the hart's turn at, and no reduction on its way: AMO and CAS perform their operation at the bank at
once, and the old value is on its way back to the destination; RED leaves one request on its way; REDF ends with the hart's own
reductions accepted; PGQ reads a translation, waits for one that the host has been asked for, and never traps. REDV (R292, R295,
R296), on one hart whose vector state it accepts, with no reduction on its way: its active elements, at their aligned and
translated targets on no more lines than the count allows, become requests of the hart, one for each line, counted for REDF. The
latch and the other harts stay. -/
def Obligations.AtomicsAndVectorReduction : Prop :=
  (∀ (s : State) (h : Hdr) (k : Nat) (op : AOp) (w pa : Bool) (z : CasSize) (scope : Scope) (d a b : XReg) (v : Src)
         (e : Device) (st : Stor) (l : Leaf), s.Solo h k → s.begun.res?.isSome = true → s.begun.dev.portQ = [] →
       let t := s.begun.hart k
       let va := (t.getX a).toNat
       let into := fun i dev => RunsInto s h i dev s.iss.target
       let n := if w then 4 else 8
       let m := match z with
         | .d => 8
         | .w => 4
         | .q => 16
       let low := if z = .w then 2 ^ 32 else 2 ^ 64
       let pair := fun (r : XReg) => (t.getX r).toNat % low
         + if z = .q then (t.getX ⟨(r.val + 1) % 64, Nat.mod_lt _ (by decide)⟩).toNat * 2 ^ 64 else 0
       let returns := fun (old : Nat) (t : Hart) =>
         let t := t.put (.x d) (BitVec.ofNat 64 old) none
         if d = 0 then t else { t with flight := some { reg := d, val := BitVec.ofNat 64 old, cv := s.gang.cv } }
       (va < 2 ^ 56 → s.begun.dev.globalAt s.iss.core s.begun.ctx .atomic va = (e, .ok (.mem st)) →
         let cls := e.classOf s.rk
         let rank := hartRank cls s.rk k
         let at_ := (e.ownWrite s.rk k st).wqEnter st none rank
         (e.portOpen st cls rank = true →
         (∀ e' old, va % n = 0 → at_.atomicAt st n (fun x => amoNew op w x (s.begun.src k v).toNat 0) = (e', old, false) →
           into (.amo h op w d a v) (e'.modHart s.rk k (returns old)))
         ∧ (∀ e' old, z ≠ .q → va % m = 0 → at_.atomicAt st m (fun x => if x = pair d then pair b else x) = (e', old, false) →
           into (.cas h z d a b) (e'.modHart s.rk k (returns old)))
         ∧ (∀ e' old, z = .q → va % m = 0 → at_.atomicAt st m (fun x => if x = pair d then pair b else x) = (e', old, false) →
           into (.cas h z d a b) (e'.modHart s.rk k fun t =>
             returns old (t.put (.x ⟨(d.val + 1) % 64, Nat.mod_lt _ (by decide)⟩) (BitVec.ofNat 64 (old / 2 ^ 64)) none))))
         ∧ (∀ f, e.translate s.iss.core s.begun.ctx va = (f, .page l) → va % n = 0 → t.redOut < Config.redLimit →
           (s.begun.rollback.hart s.rk k).redOut ≤ t.redOut →
           into (.red h op w a v) (({ e with portQ := [{ res := s.rk, bank := k, op := op, elt := wordElt op w, sent := e.now
                                                         cls := cls, rank := rank
                                                         parts := [(e.leafPa l (va % 2 ^ l.log), (s.begun.src k v).toNat)] }] }
             : Device).modHart s.rk k fun t => { t with redOut := t.redOut + 1 })))
       ∧ ((s.begun.rollback.hart s.rk k).redOut = 0 → into (.redf h scope) s.begun.dev)
       ∧ ∀ x, x = (t.getX a + s.begun.src k v).toNat →
         (∀ f y, x < 2 ^ 56 → s.begun.dev.translate s.iss.core s.begun.ctx x = (f, y) →
           (y.waits = true → HoldsOn s h (.pgq h pa d a v) (.ats s.begun.ctx x))
           ∧ (y.waits = false →
             (∀ l, y.leaf? = some l → into (.pgq h pa d a v) (f.modHart s.rk k fun t =>
               t.put (.x d) (BitVec.ofNat 64 (if pa then (if l.isHost then l.oa + x % 2 ^ l.log else f.leafPa l (x % 2 ^ l.log))
                 else pgqAttr l)) none))
             ∧ (y.leaf? = none →
               into (.pgq h pa d a v) (f.modHart s.rk k fun t => t.put (.x d) (if pa then BitVec.allOnes 64 else 0) none))))
         ∧ (2 ^ 56 ≤ x → WritesReg s h (.pgq h pa d a v) (.x d) fun _ =>
             if pa then BitVec.allOnes 64 else if inWindow x then 0x20 else 0))
  ∧ (∀ (s : State) (h : Hdr) (k : Nat) (m : MaskMod) (op : AOp) (d : Sys2Proof.Lat) (a : XReg) (form : RedvForm) (e : RedElt) (t' : State),
       let f := (s.begun.lanes k).fmt
       s.LaneReady h k (fun f => (redvElt f op).isSome) [.own d] → redvElt f op = some e → s.begun.dev.portQ = [] →
       (∀ oi, form = .ix oi → (s.begun.lanes k).vl ≤ 2048 ∧ Usable s k .n32 (.own oi)) →
       let t := s.begun.hart k
       let act := actives t m f
       let target := redvAddr s.begun k a form e.bytes
       (∀ i ∈ act, target i % e.bytes = 0 ∧ target i < 2 ^ 56) → redvCheck k (act.map target) s.begun = .ok t' → t.redOut = 0 →
       (s.begun.rollback.hart s.rk k).redOut = 0 → ((act.map fun i => t'.paOf (target i) / 64).dedup).length ≤ Config.redLimit →
       let parts := act.map fun i => (t'.paOf (target i), elemOf f.bits (s.begun.latch k d).data.toNat i)
       ∃ (u : State) (reqs : List RedReq), RunsTo s h (.redv h m op d a form) u
         ∧ u.dev = { t'.dev with portQ := reqs, banks := u.dev.banks, cores := u.dev.cores, harts := u.dev.harts }
         ∧ u.hart k = { t with redOut := reqs.length }
         ∧ (∀ j < 16, j ≠ k → u.hart j = s.begun.hart j) ∧ (∀ b < 16, ∀ g, u.latch b g = s.begun.latch b g)
         ∧ (∀ q ∈ reqs, q.res = s.rk ∧ q.bank = k ∧ q.op = op ∧ q.elt = e ∧ ∀ x ∈ q.parts, ∀ y ∈ q.parts, x.1 / 64 = y.1 / 64)
         ∧ (reqs.flatMap RedReq.parts).Perm parts)

/-! ### Fences, barriers and waits -/

/-- FENCE and IFENCE (R300, R312, R314), on one hart: a FENCE with an empty mask orders nothing; one with nothing of the hart
outstanding goes on at once, and IFENCE then drops the context's captures; a FENCE on `vw` with an array write pending on its
bank from an earlier convoy waits for it. WAIT and WAITV (R333, R342), on one hart, at a scratchpad address: WAIT goes on
once the word of the pool compares with its operand as it asks, and reads it; WAITV goes on once any, or all, of its words
are full, and reads their tags as the convoy found them (R259); else the convoy waits. -/
def Obligations.FencesAndWaits : Prop :=
  (∀ (s : State) (h : Hdr) (k : Nat) (scope : Scope) (pred succ : BitVec 8), s.Solo h k →
       let dev := s.begun.dev
       let c := s.iss.core
       let old := s.begun.rollback
       let into := fun i dev => RunsInto s h i dev s.iss.target
       ((pred = 0 ∨ succ = 0) → into (.fence h scope pred succ) dev)
       ∧ ((old.hart s.rk k).redOut = 0 → dev.portQ = [] → old.forked c s.rk k = false → dev.forked c s.rk k = false →
         (into (.ifence h) (dev.modCore c fun x => { x with loops := x.loops.filter fun l => l.res != s.rk }))
         ∧ ((∀ load, old.moving c s.rk s.iss.base load = false ∧ dev.moving c s.rk s.iss.base load = false) → (∀ g, (dev.group c k g).pend = none) →
           (∀ g, (old.group c k g).pend = none) → into (.fence h scope pred succ) dev))
       ∧ (pred.getLsbD 3 = true → succ ≠ 0 → (old.hart s.rk k).redOut = 0 → (∃ g, (old.group c k g).pend ≠ none) →
         ∃ u : State, exec (.fence h scope pred succ) s = .next (u.endWord h) ∧ u.iss.fails = [] ∧ u.iss.hold = some (.fence [k])
           ∧ u.dev = dev))
  ∧ (∀ (s : State) (h : Hdr) (k : Nat) (cond : WCond) (all : Bool) (n1 : BitVec 3) (d a : XReg) (b : Src) (r before : Residence)
         (o : Nat), s.Solo h k → s.begun.res? = some r → s.begun.dev.portQ = [] → s.begun.rollback.res? s.rk = some before →
       s.iss.conds = [] → r.fb ≤ o → o < r.sb → r.sb ≤ Config.poolBytes →
       let v := s.begun.src k b
       let x : Word := BitVec.ofNat 64 (before.read o 8).1
       let n := n1.toNat + 1
       (s.begun.hart k).getX a = BitVec.ofNat 64 (0xFFFFF00000000000 + o) →
       let waits := fun i on => ∃ u : State, exec i s = .next (u.endWord h) ∧ u.iss.fails = []
         ∧ u.iss.hold = some (.pool [{ bank := k, off := o, on := on }])
       let met := match cond with
         | .eq => x = v
         | .ne => x ≠ v
         | .lt => x.slt v = true
         | .ge => v.sle x = true
         | .ltn => x < v
         | .gen => v ≤ x
       (o % 8 = 0 → (r.read o 8).2 = false →
         (met → WritesReg s h (.wait h cond d a b) (.x d) (fun _ => BitVec.ofNat 64 (r.read o 8).1))
         ∧ (¬ met → waits (.wait h cond d a b) (.word cond v)))
       ∧ (o % 8 = 0 → o % 64 + 8 * n ≤ 64 →
         let filled := fun (j : Nat) => before.tag (o + 8 * j) = true
         ((if all then ∀ j < n, filled j else ∃ j < n, filled j) →
           ∃ w : Word, WritesReg s h (.waitv h all n1 d a) (.x d) (fun _ => w)
             ∧ ∀ j < 64, w.getLsbD j = (decide (j < n) && before.tag (o + 8 * j)))
         ∧ ((if all then ∃ j < n, ¬ filled j else ∀ j < n, ¬ filled j) → waits (.waitv h all n1 d a) (.full all n))))

/-- The barrier words (R330 to R334, R339 to R341), on one hart, at an aligned scratchpad address: BARI makes an object, and
enters it in the lists of its members; BARP and BARA move PEND up and down by their operand, BARA marks a member as arrived,
and a phase completes when a nonzero move leaves PEND at 0; they and BARW read the phase as it was. BARW goes on past a
phase, and traps with 0x11 at a broken object. A count outside the range traps with 0x10, TVAL the address, and so does BARI with
an expected count below its members, with a nonzero bit above its member mask, or where the list of a member is full. -/
def Obligations.BarrierWords : Prop :=
  ∀ (s : State) (h : Hdr) (k : Nat) (d a : XReg) (b : Src) (r before : Residence) (o : Nat),
    s.Solo h k → s.begun.res? = some r → s.begun.dev.portQ = [] → s.begun.rollback.res? s.rk = some before →
    s.iss.conds = [] → r.fb ≤ o → o < r.sb → r.sb ≤ Config.poolBytes → o % 16 = 0 → (r.read o 16).2 = false →
    let t := s.begun.hart k
    let dev := s.begun.dev
    let va := t.getX a
    let v := s.begun.src k b
    va = BitVec.ofNat 64 (0xFFFFF00000000000 + o) →
    let into := fun i dev => RunsInto s h i dev s.iss.target
    let phase := fun (n : Nat) (t : Hart) => t.put (.x d) (BitVec.ofNat 64 n) none
    let obj := r.bar o
    let was := before.bar o
    let out := fun i => FailsWith s h i [(k, { cause := 0x10, tval := va })]
    let after := fun (x : Bar) (c : Int) =>
      let x := { x with pend := x.pend + c }
      if c ≠ 0 ∧ x.pend = 0 ∧ x.brk = false then { x with phase := (x.phase + 1) % 256, pend := x.exp, arr := 0, waitm := 0 } else x
    let inRange := fun (c : Int) => -(2 ^ 39 : Int) ≤ obj.pend + c ∧ obj.pend + c < 2 ^ 39
    (∀ x : Bar, -(2 ^ 39 : Int) ≤ x.pend → x.pend < 2 ^ 39 → x.phase < 256 → x.exp < 2 ^ 24 → x.hi < 128 → (r.setBar o x).bar o = x)
    ∧ (obj.hi = 0 → 0 ≤ v.toInt → v.toInt < 2 ^ 39 →
      (inRange v.toInt → into (.barp h d a b)
        ((dev.setRes s.rk (r.setBar o (after obj v.toInt))).modHart s.rk k (phase obj.phase)))
      ∧ (inRange (-v.toInt) → into (.bara h d a b)
        ((dev.setRes s.rk (r.setBar o (after (if obj.memb.getLsbD k then { obj with arr := obj.arr ||| (1#16 <<< k) } else obj)
          (-v.toInt)))).modHart s.rk k (phase obj.phase)))
      ∧ (¬ inRange v.toInt → out (.barp h d a b)) ∧ (¬ inRange (-v.toInt) → out (.bara h d a b)))
    ∧ (v.toInt < 0 ∨ 2 ^ 39 ≤ v.toInt → out (.barp h d a b) ∧ out (.bara h d a b))
    ∧ (was.hi = 0 → was.brk = false →
      (was.phase ≠ v.toNat % 256 → into (.barw h d a b) (dev.modHart s.rk k (phase obj.phase)))
      ∧ (was.phase = v.toNat % 256 → ∃ u : State, exec (.barw h d a b) s = .next (u.endWord h) ∧ u.iss.fails = []
          ∧ u.iss.hold = some (.pool [{ bank := k, off := o, on := .barrier was.phase }])))
    ∧ (was.hi = 0 → was.brk = true → FailsWith s h (.barw h d a b) [(k, { cause := 0x11, tval := va })])
    ∧ let exp := v.toNat % 2 ^ 24
      let mask : Mask16 := v.extractLsb' 24 16
      let live := dev.liveHarts s.rk
      let room := fun (q : Nat) => ∃ i : Fin 4, (dev.hart s.rk q).bars[i.val] = none ∨ (dev.hart s.rk q).bars[i.val] = some o
      (v.toNat < 2 ^ 40 → bankCount mask ≤ exp → (∀ q < 16, live.getLsbD q = true → mask.getLsbD q = true → room q) →
        ∃ u, RunsTo s h (.bari h a b) u ∧ u.dev = { dev with ress := u.dev.ress, harts := u.dev.harts }
          ∧ u.dev.res? s.rk = some (r.setBar o { pend := (exp - bankCount (mask &&& ~~~ live) : Nat), arr := 0, phase := 0
                                                 exp := exp - bankCount (mask &&& ~~~ live), memb := mask &&& live, waitm := 0
                                                 brk := false, hi := 0 })
          ∧ ∀ q < 16, (live.getLsbD q = false → u.hart q = s.begun.hart q)
            ∧ (live.getLsbD q = true → u.hart q = { s.begun.hart q with bars := (u.hart q).bars }
              ∧ ((∃ i : Fin 4, (u.hart q).bars[i.val] = some o) ↔ mask.getLsbD q = true)
              ∧ ∀ x ≠ o, (∃ i : Fin 4, (u.hart q).bars[i.val] = some x) ↔ ∃ i : Fin 4, (s.begun.hart q).bars[i.val] = some x))
      ∧ (2 ^ 40 ≤ v.toNat ∨ exp < bankCount mask → out (.bari h a b))
      ∧ ((∃ q < 16, live.getLsbD q = true ∧ mask.getLsbD q = true ∧ ¬ room q) → out (.bari h a b))

/-! ### The copy engine -/

/-- The words of the copy engine (R315 to R317, R335 to R338), on one hart. A command that passes its checks takes the lowest
free slot of its channel, or is refused when there is none or a saved command of the context waits for the channel; ENQ1 says
which slot, ENQ which records were taken; a command that fails a check traps. ESTAT reads a slot, a channel and the hart's
own commands. ESUSP stops a command of the context and says where it resumes: as it was accepted when it had not begun to
run, and else at a point that the model leaves free (log entry 11). -/
def Obligations.CopyWords : Prop :=
  ∀ (s : State) (h : Hdr) (k : Nat) (m : MaskMod) (md : Msk) (l : Sys2Proof.Lat) (d a : XReg) (b : Src) (r : Residence)
      (e : Device), s.Solo h k → s.begun.res? = some r →
    let t := s.begun.hart k
    let c := s.iss.core
    let dev := s.begun.dev
    let into := fun i dev => RunsInto s h i dev s.iss.target
    let n := (s.begun.src k b).toNat
    let put := fun (v : Word) (t : Hart) => t.put (.x d) v none
    let ones : Word := BitVec.allOnes 64
    let rec_ := ((List.range 8).map fun j =>
      (t.getX ⟨(a.val + j) % 64, Nat.mod_lt _ (by decide)⟩).toNat * 2 ^ (64 * j)).sum
    (∀ cmd, cmdCheck c s.rk r 0 rec_ dev = (e, .ok cmd) →
      (e.savedFor s.rk cmd.chan = true ∨ (∀ i < 4, (e.cmdSlot c (4 * cmd.chan.val + i)).isSome = true) →
        into (.enq1 h d a) (e.modHart s.rk k (put ones)))
      ∧ ∀ i < 4, e.savedFor s.rk cmd.chan = false → e.cmdSlot c (4 * cmd.chan.val + i) = none →
        (∀ j < i, (e.cmdSlot c (4 * cmd.chan.val + j)).isSome = true) →
        let q := 4 * cmd.chan.val + i
        ∃ f : Device, into (.enq1 h d a) (f.modHart s.rk k (put (BitVec.ofNat 64 q))) ∧ f = { e with cores := f.cores }
          ∧ f.cmdSlot c q = some { res := s.rk, bank := k, state := .queued, cmd := cmd, age := (e.core c).ages, done := cmd.resoff }
          ∧ ∀ j ≠ q, f.cmdSlot c j = e.cmdSlot c j)
    ∧ (∀ f, cmdCheck c s.rk r 0 rec_ dev = (e, .fail f) → FailsWith s h (.enq1 h d a) [(k, f)])
    ∧ (1 ≤ n → n ≤ 128 → (s.begun.latch k l).valid = true → (s.begun.latch k l).poison = 0 →
      let act := (List.range n).filter fun j => !m.me || t.masks[m.mi.val].getLsbD j != m.mn
      ∀ cmds, cmdChecks c s.rk r (act.map fun j => (j, getBytes (s.begun.latch k l).data.toNat (64 * j) 64)) dev [] = (e, .ok cmds) →
        let f := offerAll c s.rk k cmds e []
        ∃ (u : State) (x : LaneMask), RunsTo s h (.enq h m md l b) u
          ∧ u.dev = { f.1 with banks := u.dev.banks, harts := u.dev.harts }
          ∧ u.hart k = { t with masks := t.masks.set md.val x }
          ∧ (∀ j < 16, j ≠ k → u.hart j = s.begun.hart j) ∧ (∀ q < 16, ∀ g, u.latch q g = s.begun.latch q g)
          ∧ ∀ j < 8192, x.getLsbD j = if j < n then f.2.contains j else t.masks[md.val].getLsbD j)
    ∧ (n = 0 ∨ 128 < n ∨ (s.begun.latch k l).valid = false →
        FailsWith s h (.enq h m md l b) [(k, { cause := 0x04, tval := s.begun.iss.addr })])
    ∧ (32 ≤ n → FailsWith s h (.estat h (.slot b) d) [(k, { cause := 0x10, tval := BitVec.ofNat 64 n })]
        ∧ FailsWith s h (.esusp h d b) [(k, { cause := 0x10, tval := BitVec.ofNat 64 n })])
    ∧ (8 ≤ n → FailsWith s h (.estat h (.chan b) d) [(k, { cause := 0x10, tval := BitVec.ofNat 64 n })])
    ∧ (n < 32 →
      (dev.cmdSlot c n = none →
        WritesReg s h (.estat h (.slot b) d) (.x d) (fun _ => 0) ∧ WritesReg s h (.esusp h d b) (.x d) (fun _ => ones))
      ∧ ∀ x, dev.cmdSlot c n = some x →
        (x.res ≠ s.rk →
          WritesReg s h (.estat h (.slot b) d) (.x d) (fun _ => 7) ∧ WritesReg s h (.esusp h d b) (.x d) (fun _ => ones))
        ∧ (x.res = s.rk → WritesReg s h (.estat h (.slot b) d) (.x d) (fun _ => BitVec.ofNat 64 ((match x.state with
            | .queued => 1
            | .running => 2
            | .faulted => 3) + x.bank * 2 ^ 4 + (if x.state = .running then x.done else x.cmd.resoff) % 2 ^ 48 * 2 ^ 16)))
        ∧ (x.res = s.rk → x.state ≠ .running →
          into (.esusp h d b) ((dev.setSlot c n none).modHart s.rk k (put (BitVec.ofNat 64 x.cmd.resoff))))
        ∧ (x.res = s.rk → x.state = .running → ∃ (blocks : Nat),
          into (.esusp h d b) ((dev.stopCmd c n x blocks).1.modHart s.rk k (put (BitVec.ofNat 64 (dev.stopCmd c n x blocks).2)))))
    ∧ (n < 8 → ∃ v : Word, WritesReg s h (.estat h (.chan b) d) (.x d) (fun _ => v)
        ∧ (v.extractLsb' 0 4).toNat = (dev.chanCmds c n).length
        ∧ (v.extractLsb' 4 4).toNat = ((dev.chanCmds c n).filter fun p => p.2.res == s.rk).length
        ∧ v.extractLsb' 9 55 = 0
        ∧ (v.getLsbD 8 = true ↔ ∃ x ∈ r.saved, x.cmd.chan.val = n))
    ∧ ∃ v : Word, WritesReg s h (.estat h .mine d) (.x d) (fun _ => v)
        ∧ ∀ j < 64, v.getLsbD j = true ↔ ∃ x, dev.cmdSlot c j = some x ∧ x.res = s.rk ∧ x.bank = k

/-! ### The Sifter -/

/-- The words of the Sifter (R343 to R347, R350, R356 to R361), on a gang of one active hart. SFCFG binds a free Sifter, sets
up one of the context that is idle and holds no record, traps at one that is not, and says that another context has it; it traps with
0x10 at a capacity over 65536 or one that is no multiple of 4, TVAL the capacity, with 0x09 at an unaligned buffer and with 0x10 at
one that does not lie in one region, TVAL its address. The buffer and the lists lie in the scratchpad, or in one vault, at its address
in the package window. SFPUSH reserves its records, to enter at the end of its sweep, and says how many; SFROUND and SFDRAIN enter an
operation, which starts when no other is before it; SFSTAT reads. -/
def Obligations.SifterWords : Prop :=
  ∀ (s : State) (h : Hdr) (k : Nat) (m : MaskMod) (l : Sys2Proof.Lat) (p : PReg) (d a : XReg) (b : Src) (rel : Bool)
      (comp : CompSpec) (r : Residence), s.Solo h k → s.begun.res? = some r →
    let t := s.begun.hart k
    let c := s.iss.core
    let dev := s.begun.dev
    let into := fun i dev => RunsInto s h i dev s.iss.target
    let n := (s.begun.src k b).toNat
    let va := (t.getX a).toNat
    let unit := (dev.core c).sifter
    let bound := fun f => dev.setSifter c (.bound f)
    (∀ a len, dev.siftPlace c r a len = match dev.region c r a, dev.region c r (a + len - 1) with
      | .scratch _, .scratch _ => some (BitVec.ofNat 64 a)
      | .vault x, .vault y =>
        if x / 2 ^ 20 = y / 2 ^ 20 ∧ len ≤ 2 ^ 20 then some (BitVec.ofNat 64 (0xFFFFF20000000000 + x)) else none
      | _, _ => none)
    ∧ (65536 < n ∨ n % 4 ≠ 0 → FailsWith s h (.sfcfg h p a b) [(k, { cause := 0x10, tval := BitVec.ofNat 64 n })])
    ∧ (1 ≤ n → n ≤ 65536 → n % 4 = 0 →
      (va % 64 ≠ 0 → FailsWith s h (.sfcfg h p a b) [(k, { cause := 0x09, tval := t.getX a })])
      ∧ (va % 64 = 0 → dev.siftPlace c r va (16 * n) = none → FailsWith s h (.sfcfg h p a b) [(k, { cause := 0x10, tval := t.getX a })]))
    ∧ (n ≤ 65536 → n % 4 = 0 → n = 0 ∨ va % 64 = 0 →
      ∀ buf, (if n = 0 then some 0 else dev.siftPlace c r va (16 * n)) = some buf →
        (unit = .free → into (.sfcfg h p a b) ((bound { res := s.rk, seq := r.seq, k := r.k, cap := n, buf := buf }).modHart s.rk k
          fun t => t.put (.p p) 1 none))
        ∧ (∀ f, unit = .bound f → f.res = s.rk → f.ops = [] → f.queue = [] →
          into (.sfcfg h p a b) ((bound { f with cap := n, buf := buf }).modHart s.rk k fun t => t.put (.p p) 1 none))
        ∧ (∀ f, unit = .bound f → f.res = s.rk → f.ops ≠ [] ∨ f.queue ≠ [] →
          FailsWith s h (.sfcfg h p a b) [(k, { cause := 0x10, tval := s.begun.iss.addr })])
        ∧ ((∃ f, unit = .bound f ∧ f.res ≠ s.rk) ∨ (∃ f, unit = .saving f) →
          WritesReg s h (.sfcfg h p a b) (.p p) (fun _ => 0)))
    ∧ (∀ f, unit = .bound f → f.res = s.rk →
      (1 ≤ n → n ≤ 512 → (s.begun.latch k l).valid = true → (s.begun.latch k l).poison = 0 →
        let recs := ((List.range n).filter fun j => !m.me || t.masks[m.mi.val].getLsbD j != m.mn).map fun j =>
          (s.begun.latch k l).data.extractLsb' (128 * j) 128
        (∀ x ∈ recs, recBad x = false) →
        (f.held + recs.length ≤ Config.sifterQueue + f.cap → ∃ u done, RunsTo s h (.sfpush h m d l b) u
          ∧ u.dev = { dev with cores := u.dev.cores, banks := u.dev.banks, harts := u.dev.harts }
          ∧ (u.dev.core c).sifter = .bound { f with pushes := f.pushes ++ [{ done := done, bank := k, recs := recs }] }
          ∧ u.hart k = t.put (.x d) (BitVec.ofNat 64 recs.length) none
          ∧ (∀ j < 16, j ≠ k → u.hart j = s.begun.hart j) ∧ ∀ q < 16, ∀ g, u.latch q g = s.begun.latch q g)
        ∧ (Config.sifterQueue + f.cap < f.held + recs.length →
          FailsWith s h (.sfpush h m d l b) [(k, { cause := 0x16, tval := BitVec.ofNat 64 f.queue.length })]))
      ∧ (∀ e, specComp s.begun k r 1 comp = some e →
        (∀ g, s.begun.rollback.siftOf c s.rk = some g → g.ops = []) →
        let op : Bool → Word → SiftOp := fun drain x =>
          { drain := drain, rel := drain && rel, bank := k, addr := x, max := n, comp := e }
        let entered : SiftOp → SiftState := fun o => { f with
          ops := f.ops ++ [if f.ops = [] then { o with start := dev.now, q0 := f.queue.length } else o] }
        (1 ≤ n → n ≤ 65536 → va % 4 = 0 → ∀ x, dev.siftPlace c r va (4 * (n + 1)) = some x →
          into (.sfround h comp a b) (bound (entered (op false x))))
        ∧ (1 ≤ n → n ≤ 2 ^ 20 → va % 16 = 0 → ∀ x, dev.siftPlace c r va (16 * n) = some x →
          into (.sfdrain h rel comp a b) (bound (entered (op true x)))))
      ∧ (f.queue.length < 2 ^ 64 → WritesReg s h (.sfstat h .queue d) (.x d) (fun _ => BitVec.ofNat 64 f.queue.length))
      ∧ (f.cap < 2 ^ 32 → ∃ v : Word, WritesReg s h (.sfstat h .state d) (.x d) (fun _ => v)
        ∧ v.getLsbD 0 = true ∧ (v.getLsbD 1 = true ↔ f.ops ≠ []) ∧ (v.getLsbD 2 = true ↔ 2 ≤ f.ops.length)
        ∧ (v.getLsbD 3 = true ↔ Config.sifterQueue < f.queue.length) ∧ v.extractLsb' 4 28 = 0
        ∧ (v.extractLsb' 32 32).toNat = f.cap)
      ∧ (f.rounds < 2 ^ 32 → f.lastK < 2 ^ 32 → WritesReg s h (.sfstat h .rounds d) (.x d)
          (fun _ => BitVec.ofNat 64 (f.rounds + f.lastK * 2 ^ 32))))
    ∧ (unit = .free → WritesReg s h (.sfstat h .state d) (.x d) (fun _ => 0))
    ∧ ((∀ f, unit = .bound f → f.res ≠ s.rk) → WritesReg s h (.sfstat h .queue d) (.x d) (fun _ => 0)
        ∧ WritesReg s h (.sfstat h .rounds d) (.x d) (fun _ => 0)
        ∧ FailsWith s h (.sfround h comp a b) [(k, { cause := 0x10, tval := s.begun.iss.addr })]
        ∧ FailsWith s h (.sfdrain h rel comp a b) [(k, { cause := 0x10, tval := s.begun.iss.addr })])

/-! ### System words -/

/-- The control registers (R10, R11, R157, R380, R383), on one hart: CSRR reads the register; CSRW, CSRS and CSRC give it the
operand, or set or clear the operand's bits, in its RW fields, and leave its other fields, every other control register,
every register and every other hart. A one in a field that must be zero, or a reserved rounding mode, traps with 0x01, TVAL
the address of the word; a register that the launch locked traps with 0x18, TVAL its number. -/
def Obligations.ControlRegisters : Prop :=
  ∀ (s : State) (h : Hdr) (k : Nat) (csr : Csr) (d : XReg) (a : Src), s.Solo h k → s.begun.res?.isSome = true →
    let old := csrVal s.begun k csr
    let v := s.begun.src k a
    WritesReg s h (.csrr h d csr) (.x d) (fun _ => old)
    ∧ ∀ i new, (i = .csrw h csr a ∧ new = v) ∨ (i = .csrs h csr a ∧ new = (old ||| v)) ∨ (i = .csrc h csr a ∧ new = (old &&& ~~~ v)) →
      let bad := new &&& csrRzf csr ≠ 0 ∨ (csr = .fpc ∧ 5 ≤ new.toNat % 8)
      (bad → FailsWith s h i [(k, { cause := 0x01, tval := s.begun.iss.addr })])
      ∧ (¬ bad → csrLocked s.begun csr = true →
          FailsWith s h i [(k, { cause := 0x18, tval := BitVec.ofNat 64 (csrNumber csr) })])
      ∧ (¬ bad → csrLocked s.begun csr = false → ∃ u, RunsTo s h i u
          ∧ csrVal u k csr = (old &&& ~~~ csrRw csr) ||| (new &&& csrRw csr)
          ∧ (∀ c ≠ csr, csrVal u k c = csrVal s.begun k c)
          ∧ (∀ q, (u.hart k).get q = (s.begun.hart k).get q) ∧ (∀ j < 16, j ≠ k → u.hart j = s.begun.hart j)
          ∧ u.dev = { s.begun.dev with harts := u.dev.harts, ress := u.dev.ress })

/-- TRAP, BKPT, ERET, HALT, WDOG and CTXQ (R377, R378, R384 to R388), on one hart. TRAP, and BKPT with debugging not armed,
leave a software trap pending, to be taken at the boundary, behind those that are pending already; BKPT with debugging armed asks
for a stop, but not in a handler; ERET goes to TPC with the mask and the stack depth of the trap, and clears HM on the harts that run
again, with every result in flight to land at the end of its convoy (R70), and traps with 0x18 outside a handler; HALT ends the launch by error, with its operand, and stops the gangs of the core; WDOG reads the
count and loads it anew. -/
def Obligations.SystemWords : Prop :=
  ∀ (s : State) (h : Hdr) (k : Nat) (code : BitVec 8) (bk : BitVec 18) (d : XReg) (a : Src) (r : Residence), s.Solo h k →
    s.begun.res? = some r →
    let t := s.begun.hart k
    let dev := s.begun.dev
    let v := s.begun.src k a
    let at_ := s.begun.iss.addr
    let into := fun i dev => RunsInto s h i dev s.iss.target
    let soft := fun (cause : Nat) (tval : Word) => dev.modHart s.rk k fun t =>
      { t with swTraps := t.swTraps ++ [{ cause := cause, tval := tval, tpc := nextWord at_, sw := true }] }
    let armed := dev.regs.armed.contains r.ctx.toNat
    into (.trap h code a) (soft code.toNat v)
    ∧ (armed = false ∨ t.tcause.getLsbD 10 = true → into (.bkpt h bk) (soft 0x17 (bk.signExtend 64)))
    ∧ (armed = true → t.tcause.getLsbD 10 = false → into (.bkpt h bk) (dev.setRes s.rk { r with stopReq := true }))
    ∧ (t.tcause.getLsbD 10 = false → FailsWith s h (.eret h) [(k, { cause := 0x18, tval := at_ })])
    ∧ (∀ e, t.tcause.getLsbD 10 = true → dev.targetCheck s.iss.core r.ctx t.tpc = (e, none) →
      ∃ u, RunsTo s h (.eret h) u ∧ u.iss.target = some t.tpc ∧ u.iss.lands = true
        ∧ u.dev.gang? s.rk s.iss.base = some { s.gang with gm := t.shGm, ds := s.gang.ds.drop (s.gang.ds.length - t.shDepth) }
        ∧ (∀ b < 16, u.hart b = if t.shGm.getLsbD b = true then
            { s.begun.hart b with tcause := (s.begun.hart b).tcause &&& ~~~ (1#64 <<< 10) } else s.begun.hart b)
        ∧ u.dev = { e with gangs := u.dev.gangs, harts := u.dev.harts })
    ∧ (∀ l, (s.begun.rollback.hart s.rk k).redOut = 0 → dev.launch? r.seq = some l → l.killed = none → ∃ u, RunsTo s h (.halt h a) u
        ∧ (u.dev.launch? r.seq).bind Launch.killed = some { cause := 0, tpc := at_, tval := v, bank := k, core := s.iss.core }
        ∧ ((∃ p ∈ l.places, p.state = .resident s.iss.core s.iss.slot) →
          ∀ b g, u.dev.gang? s.rk b = some g → b < 16 → g.ended = true ∧ g.gm = 0))
    ∧ (into (.wdog h d none) ((dev.setRes s.rk { r with wdCount := r.wdt.toNat % 2 ^ 32 * 1024 }).modHart s.rk k
        fun t => t.put (.x d) (BitVec.ofNat 64 r.wdCount) none))
    ∧ (r.lwdt = false → into (.wdog h d (some a))
        ((dev.setRes s.rk { r with wdt := v &&& 0xFFFFFFFF, wdCount := v.toNat % 2 ^ 32 * 1024 }).modHart s.rk k
          fun t => t.put (.x d) (BitVec.ofNat 64 r.wdCount) none))
    ∧ (r.lwdt = true → FailsWith s h (.wdog h d (some a)) [(k, { cause := 0x18, tval := 0x10 })])
    ∧ WritesReg s h (.ctxq h .id d) (.x d) (fun _ => r.ctx.setWidth 64)
    ∧ WritesReg s h (.ctxq h .slot d) (.x d) (fun _ => BitVec.ofNat 64 s.iss.slot.val)
    ∧ WritesReg s h (.ctxq h .class d) (.x d) (fun _ => BitVec.ofNat 64 r.cls.val)
    ∧ WritesReg s h (.ctxq h .nres d) (.x d) (fun _ => BitVec.ofNat 64 (dev.resOfCore s.iss.core).length)
    ∧ WritesReg s h (.ctxq h .time d) (.x d) (fun _ => BitVec.ofNat 64 r.issued)
    ∧ ∀ l, dev.launch? r.seq = some l →
        WritesReg s h (.ctxq h .moves d) (.x d) (fun _ => BitVec.ofNat 64 (l.places.map Placement.moves).sum)

/-! ### Launch words -/

/-- LAUNCH, DEPDEC and DEPQ (R391 to R394, R405 to R407), on one hart of which nothing is outstanding. LAUNCH at an aligned
address whose record it may read writes the sequence number of the accepted launch, which enters the table in DEP or WAITS,
or 2^63 plus the status of the refused one; DEPDEC takes its operand off the counter, which at 0 leaves DEP, and writes what
is left, or marks the launch and leaves the trap 0x12 pending where the counter is too small; DEPQ reads the entry, whose state is
ENDED as soon as every gang of the launch has ended (R392). -/
def Obligations.LaunchWords : Prop :=
  ∀ (s : State) (h : Hdr) (k : Nat) (d a : XReg) (b : Src) (r : Residence), s.Solo h k → s.begun.res? = some r →
    let t := s.begun.hart k
    let dev := s.begun.dev
    let c := s.iss.core
    let old := s.begun.rollback
    let into := fun i dev => RunsInto s h i dev s.iss.target
    let put := fun (v : Nat) (t : Hart) => t.put (.x d) (BitVec.ofNat 64 v) none
    let va := (t.getX a + s.begun.src k b).toNat
    let n := (s.begun.src k b).toNat
    let idle := (old.hart s.rk k).redOut = 0 ∧ dev.portQ = [] ∧ (∀ g, (old.group c k g).pend = none)
      ∧ ∀ g, (dev.group c k g).pend = none
    let done := old.forked c s.rk k = false ∧ dev.forked c s.rk k = false
      ∧ ∀ load, old.moving c s.rk s.iss.base load = false ∧ dev.moving c s.rk s.iss.base load = false
    (va % 128 ≠ 0 → FailsWith s h (.launch h d a b) [(k, { cause := 0x09, tval := BitVec.ofNat 64 va })])
    ∧ (∀ e v, va % 128 = 0 → idle → Device.ldList c s.rk r va 128 dev = (e, .ok v) → e.journal.full = false →
      let rec_ := LaunchRec.ofNat v
      let refused := fun (e : Device) (st : Nat) =>
        into (.launch h d a b) ((e.refuse rec_ st 4 r.seq va).modHart s.rk k (put (2 ^ 63 + st)))
      (recEarly v ≠ 0 → refused e (recEarly v))
      ∧ (recEarly v = 0 →
        (∀ f, readLists (Device.ldList c s.rk r) rec_ e = (f, .error .unreadable) → refused f 3)
        ∧ ∀ f l, readLists (Device.ldList c s.rk r) rec_ e = (f, .ok l) →
          (recLate f rec_ l.1.length ≠ 0 → refused f (recLate f rec_ l.1.length))
          ∧ (recLate f rec_ l.1.length = 0 → ∃ u, RunsTo s h (.launch h d a b) u
              ∧ u.hart k = put f.nextSeq t ∧ u.dev.nextSeq = f.nextSeq + 1
              ∧ u.dev.launches = f.launches ++ [{
                  seq := f.nextSeq
                  record := rec_
                  cores := l.1
                  wset := l.2
                  counter := rec_.dep
                  state := if rec_.dep = 0 then .waits else .dep
                  source := 4
                  parent := r.seq
                  recAddr := BitVec.ofNat 64 va
                  places := [] }])))
    ∧ (n = 0 ∨ 2 ^ 32 ≤ n → FailsWith s h (.depdec h d a b) [(k, { cause := 0x10, tval := BitVec.ofNat 64 n })])
    ∧ (1 ≤ n → n < 2 ^ 32 → idle → done →
      let q := (t.getX a).toNat
      (dev.launch? q = none → into (.depdec h d a b) (dev.modHart s.rk k fun t => t.put (.x d) (BitVec.allOnes 64) none))
      ∧ ∀ l, dev.launch? q = some l →
        let state := fun (left : Nat) => if l.state = .dep ∧ left = 0 then LaunchState.waits else l.state
        let entry := fun (u : State) => u.dev.launch? q
        (n ≤ l.counter → ∃ u, RunsTo s h (.depdec h d a b) u ∧ u.hart k = put (l.counter - n) t
          ∧ u.dev = { dev with launches := u.dev.launches, harts := u.dev.harts }
          ∧ entry u = some { l with counter := l.counter - n, state := state (l.counter - n) }
          ∧ ∀ x ≠ q, u.dev.launch? x = dev.launch? x)
        ∧ (l.counter < n → ∃ u, RunsTo s h (.depdec h d a b) u
          ∧ u.hart k = { put 0 t with swTraps :=
              t.swTraps ++ [{ cause := 0x12, tval := t.getX a, tpc := nextWord s.begun.iss.addr, sw := false }] }
          ∧ entry u = some { l with counter := 0, err := true, state := state 0 }))
    ∧ (dev.launch? (t.getX a).toNat = none → WritesReg s h (.depq h d a) (.x d) (fun _ => 0))
    ∧ ∀ l, dev.launch? (t.getX a).toNat = some l → ∃ v : Word, WritesReg s h (.depq h d a) (.x d) (fun _ => v)
      ∧ (v.extractLsb' 0 32).toNat = l.counter % 2 ^ 32 ∧ v.getLsbD 35 = l.err ∧ v.extractLsb' 36 28 = 0
      ∧ (v.extractLsb' 32 3).toNat = match dev.stateOf l with
        | .dep => 1
        | .waits => 2
        | .ready => 3
        | .running => 4
        | .ended => 5

/-! ### Events of gangs and banks -/

/-- The ends of waits, the traps taken at a boundary and the watchdog (R143, R258, R260, R327, R341, R342, R373, R379, R384).
A convoy that waits at the pool is tried again once all its conditions hold, unless a waiting convoy of a lower bank goes first
at a word of its tags (R258), shows in WAITM of an object that has been initialised again (R339), and traps with 0x1A, each hart at the
address of its first unmet condition, once it has waited 2^(TWL+10) ck. The oldest pending software trap of each hart is taken with its
own values (that those behind it follow one after the other is the model's choice, log entry 59), a watchdog trap after it, a
refresh-deadline and then an engine trap where neither is pending and no hart runs a handler; a refresh-deadline trap pends on its hart
(of one whose DLP has been cleared TVAL names no group, log entry 60). A watchdog that counts goes down by one in a ck; as it reaches 0
it is loaded anew, and a trap is then pending on every gang of its context. An event that is not due changes nothing. -/
def Obligations.WaitAndTrapEvents : Prop :=
  ∀ (s : State) (c : Fin 2048) (b : Fin 16),
    let d := s.dev
    (∀ rk base since l r, d.poolWait c b = some (rk, base, since, l) → d.res? rk = some r →
      let again := if d.poolTurn rk base l = true then d
        else d.modGang rk base fun g => { g with wait := g.wait.map fun w => { w with retry := true } }
      ((∀ x ∈ l, x.holds r = true) →
        ((∃ x ∈ l, x.on.isTag = true) → RunsEvent s (.tagWaitRetry c b) again)
        ∧ ((∃ x ∈ l, x.on.isBarrier = true) → RunsEvent s (.barrierWaitWake c b) again)
        ∧ ((∃ x ∈ l, x.on.isWord = true) → RunsEvent s (.wordWaitSatisfied c b) again)
        ∧ RunsEvent s (.tagWaitTimeout c b) d)
      ∧ ((∃ x ∈ l, x.holds r = false) →
        ((∀ x ∈ l, x.on.isBarrier = false) → RunsEvent s (.tagWaitRetry c b) d ∧ RunsEvent s (.barrierWaitWake c b) d
          ∧ RunsEvent s (.wordWaitSatisfied c b) d)
        ∧ ∀ x, l = [x] → x.on.isBarrier = true →
            let obj := r.bar x.off
            RunsEvent s (.barrierWaitWake c b) (d.setRes rk (r.setBar x.off { obj with waitm := obj.waitm ||| (1#16 <<< x.bank) })))
      ∧ (d.now < since + 2 ^ (r.twl + 10) → RunsEvent s (.tagWaitTimeout c b) d)
      ∧ (∀ g, since + 2 ^ (r.twl + 10) ≤ d.now → d.gang? rk base = some g →
        (∃ x ∈ l, x.holds r = false ∧ x.on.isBarrier = false) →
        ∃ fs, RunsEvent s (.tagWaitTimeout c b) (d.takeFails rk base g.pc fs)
          ∧ (∀ q, (q ∈ fs.map Prod.fst) ↔ ∃ x ∈ l, x.bank = q ∧ x.holds r = false ∧ x.on.isBarrier = false)
          ∧ fs.Pairwise (fun p q => p.1 ≠ q.1)
          ∧ ∀ p ∈ fs, ∃ (before : List WaitCond) (x : WaitCond) (after : List WaitCond), l = before ++ x :: after
              ∧ x.bank = p.1 ∧ x.holds r = false ∧ x.on.isBarrier = false
              ∧ (∀ y ∈ before, y.bank = p.1 → y.holds r = true ∨ y.on.isBarrier = true)
              ∧ p.2 = { cause := 0x1A, tval := BitVec.ofNat 64 (0xFFFFF00000000000 + x.off) }))
    ∧ (d.poolWait c b = none → RunsEvent s (.tagWaitRetry c b) d ∧ RunsEvent s (.barrierWaitWake c b) d
        ∧ RunsEvent s (.wordWaitSatisfied c b) d ∧ RunsEvent s (.tagWaitTimeout c b) d)
    ∧ (∀ rk base g, d.gangAt c b = some (rk, base, g) → d.canTrap rk g = true →
      let act := banksOf g.gm
      let soft := act.filterMap fun k => (d.hart rk k).swTraps.head?.map fun t => (k, t)
      let here := fun (d : Device) fails => d.takeTrap rk base g.pc fails
      (∀ p l, soft = p :: l → RunsEvent s (.softwareTrapTaken c b)
        ((act.foldl (fun d k => d.modHart rk k fun t => { t with swTraps := t.swTraps.drop 1 }) d).takeTrap rk base p.2.tpc
          (soft.map fun q => (q.1, { cause := q.2.cause, tval := q.2.tval, sw := q.2.sw })))
        ∧ RunsEvent s (.watchdogTrapTaken c b) d ∧ RunsEvent s (.refreshDeadlineTrap c b) d ∧ RunsEvent s (.engineTrapTaken c b) d)
      ∧ (soft = [] → RunsEvent s (.softwareTrapTaken c b) d
        ∧ (∀ v, g.wdTrap = some v → RunsEvent s (.watchdogTrapTaken c b)
            (here (d.setGang rk base { g with wdTrap := none }) (act.map fun k => (k, { cause := 0x13, tval := v })))
          ∧ RunsEvent s (.refreshDeadlineTrap c b) d ∧ RunsEvent s (.engineTrapTaken c b) d)
        ∧ (g.wdTrap = none → RunsEvent s (.watchdogTrapTaken c b) d
          ∧ ((∃ k ∈ act, (d.hart rk k).tcause.getLsbD 10 = true) →
              RunsEvent s (.refreshDeadlineTrap c b) d ∧ RunsEvent s (.engineTrapTaken c b) d)
          ∧ ((∀ k ∈ act, (d.hart rk k).tcause.getLsbD 10 = false) →
            let dlp := fun k q => (d.group (rk / 3) k q).dlp.isSome
            ((∀ k ∈ act, (d.hart rk k).refTrap = false) → RunsEvent s (.refreshDeadlineTrap c b) d
              ∧ ∀ k l t x, act = k :: l → (d.hart rk k).engTraps = t :: x → RunsEvent s (.engineTrapTaken c b)
                  (here (d.modHart rk k fun t => { t with engTraps := x }) [(k, { cause := t.cause, tval := t.tval })]))
            ∧ ((∃ k ∈ act, (d.hart rk k).refTrap = true) → RunsEvent s (.engineTrapTaken c b) d
              ∧ ∃ fs, RunsEvent s (.refreshDeadlineTrap c b)
                  (here (act.foldl (fun d k => d.modHart rk k fun t => { t with refTrap := false }) d) fs)
                ∧ (∀ k ∈ act, (d.hart rk k).refTrap = true ∨ (∃ q, dlp k q = true) → ∃ f, (k, f) ∈ fs ∧ f.cause = 0x0A
                    ∧ ∀ q : Sys2Proof.Lat, f.tval.getLsbD q.val = dlp k q)
                ∧ ∀ p ∈ fs, p.1 ∈ act ∧ ((d.hart rk p.1).refTrap = true ∨ ∃ q, dlp p.1 q = true))))))
    ∧ (∀ rk r, d.ress.Pairwise (fun a b => a.1 < b.1) → d.res? rk = some r → r.wdt.toNat % 2 ^ 32 ≠ 0 →
      r.state = .faultWaiting ∨ (r.state = .resident ∧ (d.core (rk / 3)).issuing = some (resSlot rk)) →
      (1 < r.wdCount → (d.tick.res? rk).map Residence.wdCount = some (r.wdCount - 1)
        ∧ ∀ q < 16, d.tick.gang? rk q = d.gang? rk q)
      ∧ (r.wdCount = 1 → (d.tick.res? rk).map Residence.wdCount = some (r.wdt.toNat % 2 ^ 32 * 1024)
        ∧ ∀ q < 16, d.tick.gang? rk q = (d.gang? rk q).map fun g =>
          if g.ended = true then g else { g with wdTrap := some (BitVec.ofNat 64 (r.wdt.toNat % 2 ^ 32)) }))
    ∧ ∀ (slot : Fin 3) r, d.res? (resKey c slot) = some r →
      let period := r.wdt.toNat % 2 ^ 32
      (period = 0 ∨ 0 < r.wdCount → RunsEvent s (.watchdogExpiry c slot) d)
      ∧ (period ≠ 0 → r.wdCount = 0 → ∃ e, RunsEvent s (.watchdogExpiry c slot) e
        ∧ e.res? (resKey c slot) = some { r with wdCount := period * 1024 }
        ∧ (∀ q < 16, ∀ g, d.gang? (resKey c slot) q = some g → e.gang? (resKey c slot) q
            = some (if g.ended = true then g else { g with wdTrap := some (BitVec.ofNat 64 period) }))
        ∧ e = { d with ress := e.ress, gangs := e.gangs })

/-- Refresh and the bank's own work (R116, R123, R134, R137, R140 to R143, R189, R212, R214, R418). A debt tick that is due adds
one to every group of the bank, up to 8, and sets DLP in program mode as a group reaches 8, with a trap pending on the hart; an inserted
refresh, and one of a forced refresh, which is counted as it begins, takes one off the debt of its group and moves its pointer, once
held sense amplifiers are released; a precharge of the bank's own performs the pending array write; an entry at the head of its queue
that has its bus slots, and that no earlier one bars, makes its latches busy to its end, which on the bus is 4 ck after its last
stream; the oldest bus request that waits for slots alone, on equal age that of the matrix unit, takes a free slot, a broadcast takes
all that the matrix unit does not hold together, and a lane word holds its own to the end of its segments (that its request waits until
its segments may start is the model's choice, log entry 53); a row tag of an allottable row is as the host sets it; a
measurement of retention enters the history of its group, and the plan has a stand HOT with the weak groups. An event that is not due
changes nothing. Ports, write queues, atomic
results and translations (R137, R138, R279 to R281, R286, R287, R293, R296, R297). A result on its way lands in its hart's
register; a request whose turn it is comes to its port, and is performed there and counted for its hart when there is room and
nothing goes before it, and on a poisoned sector a reduction is discarded and counted in REDP; the oldest entry of a write queue
leaves it with a column access; a column access arrives with the class of what issued it, and the one that goes first is served
and holds its group for its own activation and precharge; a walk fills the translation cache; the host's answer is cached, with
its leaf walked for again where it is lost (for the whole of a leaf: log entry 56), and its waiters tried again; an invalidation drops the entries of HOST leaves that meet its range, and its completion waits for the
transfers that hold one. -/
def Obligations.BankAndPortEvents : Prop :=
  (∀ (s : State) (c : Fin 2048) (b : Fin 16) (g : Sys2Proof.Lat),
       let d := s.dev
       let k := d.bank c b
       let x := d.group c b g
       let less := fun (e : Device) => (e.group c b g).debt = max (x.debt - 1) (-8) ∧ (e.group c b g).rptr = x.rptr + 1
         ∧ (e.group c b g).latch = x.latch ∧ (e.group c b g).gs = x.gs
         ∧ (∀ q, q ≠ g → e.group c b q = d.group c b q) ∧ e.mem = d.mem ∧ e.harts = d.harts
         ∧ ∀ j, e.core j = { d.core j with credit := (e.core j).credit }
       (d.now < d.nextTick c b → RunsEvent s (.debtTick c b) d)
       ∧ (d.nextTick c b ≤ d.now → ∃ (e : Device) (k' : Bank), RunsEvent s (.debtTick c b) (e.setBank c b k')
         ∧ (let rises := d.refThreshold c b = none ∧ ∃ q : Sys2Proof.Lat, k.groups[q.val].debt = 7
            (∀ slot, rises → (d.core c).issuing = some slot → e = d.modHart (resKey c slot) b fun t => { t with refTrap := true })
            ∧ (¬ rises → e = d))
         ∧ k' = { k with groups := k'.groups, lastTick := d.nextTick c b, ticks := k.ticks + 1 }
         ∧ ∀ q : Sys2Proof.Lat, let y := k.groups[q.val]
           let z := k'.groups[q.val]
           z.debt = min 8 (y.debt + 1)
           ∧ (y.debt = 7 → d.refThreshold c b = none → z = { y with debt := 8, dlp := some d.now })
           ∧ (y.debt ≠ 7 ∨ (d.refThreshold c b).isSome = true → z = { y with debt := z.debt }))
       ∧ (∀ (stand : Fin 16) warm, ∃ e, RunsEvent s (.hotChange stand warm) e
         ∧ e = { d with hot := e.hot, warm := e.warm, paces := e.paces, banks := e.banks }
         ∧ ∀ j < 16, e.warm.getLsbD j = (if j = stand.val then warm else d.warm.getLsbD j)
           ∧ e.hot.getLsbD j = if j = stand.val then warm || d.planned j else d.hot.getLsbD j)
       ∧ (d.autoRefDue c b g = false ∨ d.now < d.insertTime c b g → RunsEvent s (.autoRefInsert c b g) d)
       ∧ (d.forcedDue c b g = false ∨ d.now < d.insertTime c b g → RunsEvent s (.forcedRefresh c b g) d)
       ∧ (d.ownPreDue c b g = false → RunsEvent s (.bankOwnPrecharge c b g) d)
       ∧ (x.phy = true ∨ x.pend ≠ none → d.autoRefDue c b g = true → d.insertTime c b g ≤ d.now → ∃ e, RunsEvent s (.autoRefInsert c b g) e
         ∧ (e.group c b g).phy = false ∧ (e.group c b g).pend = none ∧ (e.group c b g).debt = x.debt ∧ (e.group c b g).rptr = x.rptr)
       ∧ (x.phy = false → x.pend = none → d.insertTime c b g ≤ d.now →
         (d.autoRefDue c b g = true → ∃ e, RunsEvent s (.autoRefInsert c b g) e ∧ less e ∧ e.svc = d.svc)
         ∧ (d.forcedDue c b g = true → ∃ e, RunsEvent s (.forcedRefresh c b g) e ∧ less e
           ∧ (x.force = true → e.svc = d.svc)
           ∧ (x.force = false → ∃ v, e.svc = insertK (groupKey c b g) v d.svc
             ∧ v = { lookupD {} (groupKey c b g) d.svc with forced := v.forced }
             ∧ v.forced = (lookupD {} (groupKey c b g) d.svc).forced + 1)))
       ∧ (d.ownPreDue c b g = true → ∃ e, RunsEvent s (.bankOwnPrecharge c b g) e
         ∧ (e.group c b g).phy = false ∧ (e.group c b g).pend = none ∧ (e.group c b g).latch = x.latch ∧ (e.group c b g).gs = x.gs
         ∧ (∀ q, q ≠ g → e.group c b q = d.group c b q) ∧ (x.pend = none → e.mem = d.mem)
         ∧ ∀ w, x.pend = some w → e.mem = d.mem.write (rowKey c b g.val w.row) 8192 w.data.toNat)
       ∧ (d.segNext c b = none → RunsEvent s (.vectorSegmentStart c b) d)
       ∧ (∀ q, d.segNext c b = some q → (q.stream = true → q.reqs ≠ []) →
         let fin := d.segEnd c b q
         q ∈ k.segs ∧ d.segGranted c q = true ∧ d.segReady c b q ≤ d.now ∧ (∀ h < 16, ∀ p ∈ (d.bank c h).segs, p.bars q = false)
         ∧ ∃ e, RunsEvent s (.vectorSegmentStart c b) e
         ∧ e = { d with banks := e.banks, cores := e.cores } ∧ (q.stream = false → (e.bank c b).segs = k.segs.erase q)
         ∧ (q.store = false → (e.bank c b).lane = fin ∧ (e.bank c b).laneAt = d.now) ∧ (q.store = true → (e.bank c b).out = fin)
         ∧ (q.stream = false → fin = if q.chain = true then max k.lane (d.now + q.time) else d.now + q.time)
         ∧ (q.stream = true → ∀ id ∈ q.reqs, ∀ t, d.busAt c id = some t → t + 20 ≤ fin)
         ∧ (∀ n ∈ q.rd, ∀ p : Sys2Proof.Lat, p.val = n % 4 → fin ≤ (e.group c (n / 4) p).lw)
         ∧ (∀ n ∈ q.wr, ∀ p : Sys2Proof.Lat, p.val = n % 4 → fin ≤ (e.group c (n / 4) p).lr ∧ fin ≤ (e.group c (n / 4) p).lw)
         ∧ ∀ h p, e.latch c h p = d.latch c h p)
       ∧ (d.busFirst c = none → RunsEvent s (.busSlotGrant c) d)
       ∧ (∀ q, d.busFirst c = some q →
         let y := d.core c
         let take := d.busTake c q
         let may := fun (r : BusReq) => r.matrix = false ∨ ((d.busMatrix c).length < 2 ∧ y.switch = none)
         q ∈ y.busQ ∧ may q ∧ (∀ r ∈ y.busQ, may r → d.busOpen c r = true → q.age ≤ r.age ∧ (r.age = q.age → r.matrix = true → q.matrix = true))
         ∧ (∀ i ∈ take, y.bus[i.val].owner = none ∧ y.bus[i.val].free ≤ d.now)
         ∧ (q.all = true → take ≠ [] → ∀ i : Fin 4, i ∈ take ∨ (d.now < y.bus[i.val].free ∧ y.bus[i.val].matrix = true))
         ∧ (take = [] → RunsEvent s (.busSlotGrant c) d)
         ∧ (take ≠ [] → ∃ z, RunsEvent s (.busSlotGrant c) (d.setCore c z)
           ∧ z = { y with bus := z.bus, busQ := z.busQ, busDone := z.busDone }
           ∧ (∀ i : Fin 4, z.bus[i.val] = if i ∈ take then
               (if q.held = true then { free := d.now, owner := some q.id } else { free := d.now + q.time, matrix := q.matrix })
             else y.bus[i.val])
           ∧ (q.all = true ∨ q.need ≤ 1 → z.busQ = y.busQ.filter (fun r => r.id ≠ q.id) ∧ lookupK q.id z.busDone = some d.now)
           ∧ (q.all = false → 1 < q.need → z.busDone = y.busDone
             ∧ z.busQ = y.busQ.map fun r => if r.id = q.id then { r with need := r.need - 1 } else r)))
       ∧ (∀ (row : Fin 512) tag, (508 ≤ row.val → RunsEvent s (.rowTagWrite c b g row tag) d.setHwd)
         ∧ (row.val < 508 → ∃ e, RunsEvent s (.rowTagWrite c b g row tag) e ∧ e = { d with rowTags := e.rowTags }
           ∧ ∀ r, e.rowTag c b g r = if r = row.val then tag else d.rowTag c b g r))
       ∧ ∀ weak, let a : ColAccess := { pa := rowKey c b g.val 511, kind := .read 64, cls := 3 }
         (d.colFree c b a = false → RunsEvent s (.retentionMeasurement c b g weak) d)
         ∧ (d.colFree c b a = true → ∃ e, RunsEvent s (.retentionMeasurement c b g weak) e
           ∧ (lookupD {} (groupKey c b g) e.svc).weak = weak
           ∧ (lookupD {} (groupKey c b g) e.svc).history = weak :: (lookupD {} (groupKey c b g) d.svc).history
           ∧ (∀ j < 16, e.hot.getLsbD j = if j = c.val / 128 then d.warm.getLsbD j || e.planned j else d.hot.getLsbD j)
           ∧ (weak = true → e.planned (c.val / 128) = true)
           ∧ (x.phy = false → x.pend = none → e.mem = d.mem ∧ ∀ p, e.latch c b p = d.latch c b p)))
  ∧ (∀ (s : State) (c : Fin 2048) (b : Fin 16),
       let d := s.dev
       let k := d.bank c b
       (∀ rk base g f, d.gangAt c b = some (rk, base, g) → (d.hart rk b).flight = some f → ∃ e, RunsEvent s (.atomicResultReturn c b) e
         ∧ e = { d with harts := e.harts, gangs := e.gangs }
         ∧ e.hart rk b = { (d.hart rk b).setReg (.x f.reg) f.val with flight := none } ∧ (∀ h < 16, h ≠ b → e.hart rk h = d.hart rk h)
         ∧ ∀ q, d.gang? rk base = some q → ∃ w : List Retiring, e.gang? rk base = some { q with window := w }
           ∧ w = q.window.map fun r => if f.cv < r.id then { r with harts := r.harts.map fun p =>
               if p.1 = b.val then (p.1, p.2.landFlight) else p } else r)
       ∧ ((d.core c).issuing = none → RunsEvent s (.atomicResultReturn c b) d)
       ∧ (∀ i, d.redComes i = none → RunsEvent s (.writeQueueAccept i) d)
       ∧ (∀ i q, d.redComes i = some q →
         let rest : Device := { d with portQ := d.portQ.take i ++ d.portQ.drop (i + 1) }
         let taken := RunsEvent s (.writeQueueAccept i) (rest.redAccept q)
         (d.redTakes q = false → RunsEvent s (.writeQueueAccept i) { d with portQ := d.portQ.set i q })
         ∧ (d.redTakes q = true → taken)
         ∧ ∀ pa v old bad (e : Device), q.parts = [(pa, v)] → (∀ x, rest.stor pa ≠ .dropped x) →
           let first := (rest.ownWrite q.res q.bank (rest.stor pa)).wqEnter (rest.stor pa) (Device.redKind q) q.rank
           first.atomicAt (rest.stor pa) q.elt.bytes (fun x => q.elt.apply q.op x v) = (e, old, bad) →
           let counted := fun (e : Device) => rest.redAccept q = e.redCounted q.res q.bank
           (bad = false ∨ q.atomic = true → counted e)
           ∧ (bad = true → q.atomic = false → counted { e with regs := { e.regs with redp := min 0xFFFF (e.regs.redp + 1) } }))
       ∧ (∀ rk r, d.res? rk = some r → r.spilled = false → r.state ≠ .stopped →
         d.redCounted rk b = d.modHart rk b fun t => { t with redOut := t.redOut - 1 })
       ∧ (k.wq = [] → RunsEvent s (.writeQueueApply c b) d)
       ∧ (∀ e l, k.wq = e :: l → RunsEvent s (.writeQueueApply c b) ((d.setBank c b { k with wq := l }).releaseFor e.pa))
       ∧ (∀ (pa : BitVec 60) kind by_ key, d.stor pa.toNat = .dram key → key < 2 ^ 39 →
         let y := d.bank (keyCore key) (keyBank key)
         RunsEvent s (.columnAccessArrival pa kind by_) (d.setBank (keyCore key) (keyBank key)
           { y with cols := y.cols ++ [{ pa := key, kind := kind, cls := d.colClass by_, host := by_ == .host }] }))
       ∧ (d.colNext c b = none → RunsEvent s (.columnAccessServe c b) d)
       ∧ (∀ a i, d.colNext c b = some (a, i) →
         let g := keyGroup a.pa
         let x := d.group c b g
         let rest := d.modBank c b fun k => { k with cols := k.cols.take i ++ k.cols.drop (i + 1) }
         let busy := rest.releaseFor a.pa a.cls
         (∀ n, a.kind = .read n → RunsEvent s (.columnAccessServe c b) busy)
         ∧ (∀ bytes, a.kind = .write bytes → RunsEvent s (.columnAccessServe c b)
             (busy.physWrite (d.fabric.dev * 2 ^ 39 + a.pa) bytes.length (bytesNat bytes)))
         ∧ (a.pa < 2 ^ 39 → keyCore a.pa = c.val → keyBank a.pa = b.val → x.phy = false → x.pend = none → x.col = none →
           x.sa ≤ d.now → k.spaced g d.now = d.now →
           busy.group c b g = { x with sa := d.now + 80, ro := d.now + 4, col := some (keyRow a.pa, d.now + 56)
                                       stack := (busy.group c b g).stack }
           ∧ busy = { rest with banks := busy.banks, svc := busy.svc }))
       ∧ (∀ slot r (va : Word), (d.core c).issuing = some slot → d.res? (resKey c slot) = some r → va.toNat < 2 ^ 56 →
         (d.core c).atc.find? (fun e => e.covers r.ctx va.toNat) = none →
         ∀ e, (∀ f, d.walked r.ctx va.toNat = (e, .fault f) → RunsEvent s (.pageWalk c b va) e)
         ∧ ∀ l, d.walked r.ctx va.toNat = (e, .ok l) → RunsEvent s (.pageWalk c b va) (e.putAtc c
             { ctx := r.ctx, va := va.toNat / 2 ^ l.log * 2 ^ l.log, log := l.log, leaf := (l.low, l.oa) }))
       ∧ (∀ ctx (va : Word) answer, let page := va.toNat / 2 ^ 16 * 2 ^ 16
         let q : AtsReq := { core := c.val, ctx := ctx, va := page }
         (q ∉ d.ats → RunsEvent s (.atsCompletion c ctx va answer) d)
         ∧ (q ∈ d.ats →
           let f := (({ d with ats := d.ats.filter (· ≠ q) } : Device).translate c ctx page).1
           ∃ e, RunsEvent s (.atsCompletion c ctx va answer) e ∧ e = { f with cores := e.cores, gangs := e.gangs }
           ∧ (e.core c).atc = (f.core c).atc.map (fun x =>
               if x.covers ctx page = true ∧ nbit x.leaf.1 5 = true ∧ x.ats = none then { x with ats := some (match answer with
                 | .refused => (0, false, false)
                 | .granted h r w => (h - BitVec.ofNat 64 (page - x.va), r, w)) }
               else x)
           ∧ (∀ j ≠ c.val, e.core j = f.core j)
           ∧ ∀ rk < 6144, ∀ h < 16, ∀ g w a, f.gang? rk h = some g → g.wait = some w → w.on = .ats ctx a → rk / 3 = c.val →
               a / 2 ^ 16 * 2 ^ 16 = page → e.gang? rk h = some { g with wait := some { w with retry := true } }))
       ∧ ∀ host len : Word, ∃ e, RunsEvent s (.atsInvalidation host len) e
         ∧ e = { d with cores := e.cores, atsInv := e.atsInv, atsDone := e.atsDone }
         ∧ (d.atsBusy (host, len) = false → (host, len) ∈ e.atsDone) ∧ (d.atsBusy (host, len) = true → (host, len) ∈ e.atsInv)
         ∧ ∀ j, e.core j = { d.core j with atc := (d.core j).atc.filter fun x =>
             !(nbit x.leaf.1 5 && x.leaf.2 < host.toNat + len.toNat && host.toNat < x.leaf.2 + 2 ^ x.log) })

/-- The events of the copy engine and of the Sifter (R316, R317, R326 to R329, R346, R348, R350 to R353, R360). A channel's
next command runs; a running command that meets no failure writes its payload, in one event (log entry 11), frees its slot and makes
its completion, once that has its turn at its word (R258); at a translation fault its slot is faulted, with a fault record; at a missing
permission it ends, and its hart will trap; a saved command enters its channel again, unless a switch is under way; one that a switch
suspends is saved in the order of acceptance, with an offset that is a multiple of 64 bytes of its stream (after how many blocks is a
free value, log entry 11; elements whose source and destination overlap are read before any is written, log entry 17);
a walk that meets a translation the host has not answered asks for it. A push enters its records at the end of its sweep, once; a
round that has run its time writes its batch list and keeps what it did not take; a drain writes its records; what the queue
holds past the Sifter's own is as the spill buffer has it; the state of a context that has left is saved (in its placement: the model's
choice, log entry 18). An event that is not due changes nothing. -/
def Obligations.EngineEvents : Prop :=
  ∀ (s : State) (c : Fin 2048) (ch : Fin 8) (k : Fin 32) (slot : Fin 3) (blocks : Nat),
    let d := s.dev
    (∀ q x, d.chanNext c ch = some (q, x) →
      RunsEvent s (.copyCommandStart c ch) (d.setSlot c q (some { x with state := .running })))
    ∧ (d.chanNext c ch = none → RunsEvent s (.copyCommandStart c ch) d)
    ∧ (d.cmdSlot c k = none → RunsEvent s (.copyCompletion c k) d ∧ RunsEvent s (.copyFault c k) d
        ∧ RunsEvent s (.copyPermissionStop c k) d ∧ RunsEvent s (.commandSuspensionStop c k blocks) d)
    ∧ (∀ x r, d.cmdSlot c k = some x → x.state = .running → d.res? x.res = some r →
      (∀ e is, d.copyRest c x = (e, is, none) →
        (d.compTurn x.res (Device.cmdComp x.cmd) = true → RunsEvent s (.copyCompletion c k)
          ((((Device.writeImgs x.res is e).setSlot c k none).complete x.res (Device.cmdComp x.cmd)).sendAts))
        ∧ (d.compTurn x.res (Device.cmdComp x.cmd) = false → RunsEvent s (.copyCompletion c k) d)
        ∧ RunsEvent s (.copyFault c k) d ∧ RunsEvent s (.copyPermissionStop c k) d)
      ∧ (∀ e is n f, d.copyRest c x = (e, is, some (n, .fail f)) → RunsEvent s (.copyCompletion c k) d
        ∧ (f.cause = 0x0C → RunsEvent s (.copyPermissionStop c k) d
          ∧ RunsEvent s (.copyFault c k) ((Device.writeImgs x.res is e).faultCmd c k x f))
        ∧ (f.cause = 0x0D → RunsEvent s (.copyFault c k) d
          ∧ RunsEvent s (.copyPermissionStop c k)
              (((Device.writeImgs x.res is e).setSlot c k none).engTrap x.res x.bank 0x0D f.tval)))
      ∧ (∀ e is n w, d.copyRest c x = (e, is, some (n, .wait w)) → RunsEvent s (.copyCompletion c k) (d.askAts c w)
        ∧ RunsEvent s (.copyFault c k) d ∧ RunsEvent s (.copyPermissionStop c k) d)
      ∧ ((d.core c).switch = none → RunsEvent s (.commandSuspensionStop c k blocks) d)
      ∧ ((d.core c).switch ≠ none → ∃ e off, RunsEvent s (.commandSuspensionStop c k blocks) e
        ∧ x.done ≤ off ∧ off ≤ x.done + 64 * blocks ∧ (x.done % 64 = 0 → off % 64 = 0) ∧ (off = x.done ∨ off < x.cmd.src.bytes)
        ∧ e.cmdSlot c k = none ∧ ∃ r', e.res? x.res = some r'
          ∧ r'.saved = Device.insertSaved { bank := x.bank, cmd := { x.cmd with resoff := off }, age := x.age, fault := x.fault } r.saved))
    ∧ (∀ (x : SavedCmd) l, l.Pairwise (fun y z => y.age ≤ z.age) →
        (Device.insertSaved x l).Pairwise (fun y z => y.age ≤ z.age) ∧ (Device.insertSaved x l).Perm (x :: l))
    ∧ ((d.core c).issuing ≠ some slot ∨ (d.core c).switch ≠ none ∨ d.reentry c (resKey c slot) = none → RunsEvent s (.savedCommandReentry c slot) d)
    ∧ (∀ i q x r, (d.core c).issuing = some slot → (d.core c).switch = none → d.reentry c (resKey c slot) = some (i, q, x) →
      d.res? (resKey c slot) = some r → q < 32 → ∃ e, RunsEvent s (.savedCommandReentry c slot) e
        ∧ e.res? (resKey c slot) = some { r with saved := r.saved.take i ++ r.saved.drop (i + 1) }
        ∧ e.cmdSlot c q = some { res := resKey c slot, bank := x.bank, state := .queued, cmd := x.cmd, age := x.age
                                 done := x.cmd.resoff, fault := x.fault }
        ∧ e = { d with ress := e.ress, cores := e.cores })
    ∧ ((∀ f, (d.core c).sifter ≠ .bound f) → RunsEvent s (.sifterRound c) d ∧ RunsEvent s (.sifterDrainRun c) d
        ∧ RunsEvent s (.pushEnterQueue c) d)
    ∧ (∀ f r, (d.core c).sifter = .bound f → d.res? f.res = some r →
      let here := d.unspill f
      (f.queue.length ≤ Config.sifterQueue → here = f)
      ∧ (∀ p, f.nextPush = some p →
        let after := { here with queue := here.queue ++ p.recs, pushes := f.pushes.erase p }
        (p.done ≤ d.now → RunsEvent s (.pushEnterQueue c) (d.bindSift c after))
        ∧ (after.queue.length ≤ Config.sifterQueue → d.bindSift c after = d.setSifter c (.bound after))
        ∧ (d.now < p.done → RunsEvent s (.pushEnterQueue c) d))
      ∧ (f.ops = [] → RunsEvent s (.sifterRound c) d ∧ RunsEvent s (.sifterDrainRun c) d)
      ∧ ∀ o l, f.ops = o :: l → o.comp = .none →
        (d.now < f.endTime o → RunsEvent s (.sifterRound c) d ∧ RunsEvent s (.sifterDrainRun c) d)
        ∧ (f.endTime o ≤ d.now →
          let q0 := here.queue.take o.q0
          (o.drain = false → RunsEvent s (.sifterDrainRun c) d ∧ ∃ e taken kept, RunsEvent s (.sifterRound c) e
            ∧ (taken ++ kept).Perm q0 ∧ taken.Sublist q0 ∧ kept.Sublist q0 ∧ taken.length ≤ o.max
            ∧ taken.Pairwise (fun x y => ∀ z ∈ recBodies x, z ∉ recBodies y)
            ∧ (taken.length < o.max → ∀ x ∈ kept, ∃ y ∈ taken, ∃ z ∈ recBodies x, z ∈ recBodies y)
            ∧ (o.rel = false → ∃ g, (e.core c).sifter = .bound g ∧ g.queue = kept ++ here.queue.drop o.q0
              ∧ g.rounds = (f.rounds + 1) % 2 ^ 32 ∧ g.lastK = taken.length ∧ g.ops.length = l.length)
            ∧ (f.queue.length ≤ Config.sifterQueue → o.addr.toNat < packageWindow → ∃ r', e.res? f.res = some r'
              ∧ (r'.scratch = r.scratch.write (o.addr.toNat - poolWindow) (4 * (taken.length + 1))
                  (taken.zipIdx.foldl (fun v p => v + (p.1.extractLsb' 0 32).toNat * 2 ^ (32 * p.2)) (0xFFFFFFFF * 2 ^ (32 * taken.length))))))
          ∧ (o.drain = true → RunsEvent s (.sifterRound c) d ∧ ∃ e, RunsEvent s (.sifterDrainRun c) e
            ∧ (o.rel = true → (e.core c).sifter = .free)
            ∧ (o.rel = false → ∃ g, (e.core c).sifter = .bound g ∧ g.queue = q0.drop o.max ++ here.queue.drop o.q0
              ∧ g.rounds = f.rounds ∧ g.lastK = f.lastK ∧ g.ops.length = l.length)
            ∧ (f.queue.length ≤ Config.sifterQueue → o.addr.toNat < packageWindow → ∃ r', e.res? f.res = some r'
              ∧ r'.scratch = r.scratch.write (o.addr.toNat - poolWindow) (16 * (q0.take o.max).length)
                  ((q0.take o.max).zipIdx.foldl (fun v p => v + p.1.toNat * 2 ^ (128 * p.2)) 0)))))
    ∧ ((∀ f, (d.core c).sifter ≠ .saving f) → RunsEvent s (.sifterSave c) d)
    ∧ ∀ f, (d.core c).sifter = .saving f → ∃ e, RunsEvent s (.sifterSave c) e ∧ (e.core c).sifter = .free
        ∧ e = { d with launches := e.launches, cores := e.cores }
        ∧ ∀ l, d.launch? f.seq = some l → e.launch? f.seq = some { l with places := l.places.map fun p =>
            if p.k = f.k then { p with sift := some f } else p }

/-- The scheduler of a core (R64, R144, R230, R260, R297, R364 to R367, R377, R397 to R400). A class-0 context, the next of its
class at the end of a quantum, or another when the issuing one has been unable for 512 ck, asks for the core: waits and replays of the
issuing context are discarded then; a context that has waited long is aged, until its quantum is over. A switch moves on in its phases:
when the drain is over each bank spills its valid latches, when they are in their rows the frames hold the registers and the resume
addresses of the harts, and the latches are invalid, the context that enters brings back its latches from its spill rows and its matrix
entries, and may issue when they are there. A write of a save area puts each byte where Decode has it. A
context that waits in its slot and is wanted gone is asked to leave, or saved (that its placement holds its gangs, its harts and its
saved commands as they were is the model's choice, log entry 18); an admission creates the harts and gangs of a
placement, with the launch's arguments in their registers and the pc at its entry; a debugger stop stops a context at a
boundary, and a resume lets it go on. An event that is not due changes nothing. -/
def Obligations.SchedulerEvents : Prop :=
  ∀ (s : State) (c : Fin 2048) (slot : Fin 3) (ctx : BitVec 12) (on : Bool),
    let d := s.dev
    let rk := resKey c slot
    (∀ dest, let e := d.askSwitch c dest
      (e.core c).switch = some { dest := dest, at_ := d.now, class0 := d.toClass0 c dest
                                 phase := match (d.core c).switch with
                                   | some q => q.phase
                                   | none => .drain }
      ∧ (e.core c).issuing = (d.core c).issuing ∧ e.mem = d.mem ∧ e.ress = d.ress
      ∧ ∀ i, (d.core c).issuing = some i → (d.core c).switch = none → ∀ b < 16, ∀ g, e.gang? (resKey c i) b = some g →
          g.wait = none ∧ g.replay = none)
    ∧ (d.class0Next c = none → RunsEvent s (.class0Request c) d)
    ∧ (∀ t, d.class0Next c = some t → RunsEvent s (.class0Request c) (d.askSwitch c (some t))
        ∧ ∃ r, d.res? (resKey c t) = some r ∧ r.cls = 0)
    ∧ (d.quantumNext c = none → d.agedOver c = false → RunsEvent s (.quantumExpiry c) d)
    ∧ (d.quantumNext c = none → d.agedOver c = true → ∃ i r, (d.core c).issuing = some i ∧ d.res? (resKey c i) = some r
        ∧ 262144 ≤ r.quantum ∧ RunsEvent s (.quantumExpiry c) (d.setRes (resKey c i) { r with aged := false }))
    ∧ (∀ t, d.quantumNext c = some t → RunsEvent s (.quantumExpiry c) (d.askSwitch c (some t))
        ∧ ∃ i r, (d.core c).issuing = some i ∧ t ≠ i ∧ d.res? (resKey c i) = some r ∧ 262144 ≤ r.quantum)
    ∧ (d.idleNext c = none → RunsEvent s (.idleYield c) d)
    ∧ (∀ t, d.idleNext c = some t → RunsEvent s (.idleYield c) (d.askSwitch c (some t))
        ∧ ∃ i, (d.core c).issuing = some i ∧ d.ctxAble (resKey c i) = false ∧ ∀ b < 16, ∀ g, d.gang? (resKey c i) b = some g →
          (match g.wait with
            | some w => w.since
            | none => g.earliest) + 512 ≤ d.now)
    ∧ (d.agesNow rk = false → RunsEvent s (.ageingPromotion c slot) d)
    ∧ (∀ r, d.agesNow rk = true → d.res? rk = some r → RunsEvent s (.ageingPromotion c slot) (d.setRes rk { r with aged := true })
        ∧ r.lastIssue + 4194304 ≤ d.now ∧ r.cls ≠ 0 ∧ (d.core c).issuing ≠ some slot)
    ∧ ((d.core c).switch = none → (d.switchDue c = none → RunsEvent s (.contextSwitch c) d)
      ∧ ∀ dest, d.switchDue c = some dest → RunsEvent s (.contextSwitch c) (d.askSwitch c dest))
    ∧ (∀ q, (d.core c).switch = some q →
      let busy := d.banksBusy c
      (q.phase = .drain → (d.core c).issuing ≠ none → (d.core c).issuing ≠ q.dest → d.drainOver c = false →
        RunsEvent s (.contextSwitch c) d)
      ∧ (q.phase ≠ .drain → busy = true → RunsEvent s (.contextSwitch c) d)
      ∧ (∀ i, q.phase = .drain → (d.core c).issuing = some i → q.dest ≠ some i → d.drainOver c = true → (d.core c).mx = [] →
        (∀ k x, d.cmdSlot c k = some x → x.res ≠ resKey c i) → ∃ e, RunsEvent s (.contextSwitch c) e
        ∧ e = { d with banks := e.banks, cores := e.cores } ∧ (e.core c).switch = some { q with phase := .spill }
        ∧ (∀ h ∈ (e.core c).halves.toList, h.owner = none)
        ∧ ∀ b < 16, ∀ g : Sys2Proof.Lat, (d.latch c b g).valid = true →
            ∃ r ∈ (e.bank c b).rowQ, r.g = g ∧ r.op = .spill (508 + i.val))
      ∧ (∀ i r, q.phase = .spill → busy = false → (d.core c).issuing = some i → q.dest = none → d.res? (resKey c i) = some r →
        ∃ e r', RunsEvent s (.contextSwitch c) e ∧ (e.core c).issuing = none ∧ (e.core c).switch = none
        ∧ e.res? (resKey c i) = some r' ∧ r'.spilled = true ∧ (∀ b < 16, ∀ g, (e.latch c b g).valid = false)
        ∧ (r.state ≠ .stopped → ∀ h < 16, ∀ b < 16, ∀ g, d.gang? (resKey c i) b = some g → b ≤ h → h < b + g.size →
          (∀ b' < 16, ∀ g', d.gang? (resKey c i) b' = some g' → b' ≤ h → h < b' + g'.size → b' = b) →
          let t := e.hart (resKey c i) h
          let at_ := fun off => BitVec.ofNat 64 (r'.frames.read (1024 * h + off) 8)
          (∀ n : Fin 64, 1 ≤ n.val → at_ (8 * n.val) = t.x[n.val]) ∧ at_ 0x200 = g.pc
          ∧ at_ 0x208 = t.rc ∧ at_ 0x210 = t.ei ∧ at_ 0x218 = t.tm ∧ at_ 0x220 = t.tn ∧ at_ 0x228 = t.fpc
          ∧ at_ 0x238 = t.tcause ∧ at_ 0x240 = t.tpc ∧ at_ 0x248 = t.tval ∧ at_ 0x250 = t.tscr
          ∧ (at_ 0).extractLsb' 16 16 = t.vl ∧ (at_ 0).extractLsb' 32 16 = t.vt ∧ ∀ n : Fin 16, (at_ 0).getLsbD n.val = t.p[n.val]))
      ∧ (∀ r, q.phase = .drain → (d.core c).issuing = none → q.dest = some slot → d.res? rk = some r → r.frames.wf = true →
        ∃ e, RunsEvent s (.contextSwitch c) e ∧ (e.core c).issuing = some slot
        ∧ (e.core c).switch = some { dest := some slot, at_ := d.now, class0 := r.cls == 0, phase := .restore }
        ∧ e.res? rk = some { r with spilled := false, quantum := 0, fresh := true, mx := [] }
        ∧ (e.core c).mx = r.mx ++ (d.core c).mx
        ∧ (∀ b < 16, ∀ g : Sys2Proof.Lat, let v := r.frames.read (1024 * b + 0x258 + 8 * g.val) 8
          nbit v 0 = true → ∃ cmd ∈ (e.bank c b).rowQ, cmd.g = g
            ∧ cmd.op = .restore (508 + slot.val) (BitVec.ofNat 4 (v / 2)) (BitVec.ofNat 9 (v / 2 ^ 5)))
        ∧ e.mem = d.mem ∧ e.harts = d.harts ∧ e.gangs = d.gangs)
      ∧ ∀ i, q.phase = .restore → busy = false → (d.core c).issuing = some i → ∃ e, RunsEvent s (.contextSwitch c) e
        ∧ (e.core c).switch = none ∧ (e.core c).issuing = some i
        ∧ (d.portQ = [] → e = { d with gangs := e.gangs, cores := e.cores }
          ∧ ∀ b < 16, ∀ g, d.gang? (resKey c i) b = some g → e.gang? (resKey c i) b = some { g with held := none }))
    ∧ (∀ base off n v j, (base + off) % 8192 + n ≤ 8192 → j < n →
        (d.areaWrite base off n v []).mem.byte (unskew 0 ((base + off + j) % 2 ^ 39)) = BitVec.ofNat 8 (v / 2 ^ (8 * j)))
    ∧ (d.evictMoves c slot = false → RunsEvent s (.eviction c slot) d)
    ∧ (d.evictMoves c slot = true → (d.core c).issuing = some slot → ∃ dest, RunsEvent s (.eviction c slot) (d.askSwitch c dest))
    ∧ (∀ r l, d.evictMoves c slot = true → (d.core c).issuing ≠ some slot → d.res? rk = some r → d.launch? r.seq = some l →
      ∃ e, RunsEvent s (.eviction c slot) e ∧ e.res? rk = none ∧ (∀ p ∈ e.gangs, p.1 / 16 ≠ rk) ∧ (∀ p ∈ e.harts, p.1 / 16 ≠ rk)
        ∧ ∃ l', e.launch? r.seq = some l' ∧ ∀ p ∈ l'.places, p.k = r.k → p.state = .saved ∧ p.gangs = d.gangsOf rk
          ∧ p.harts = d.hartsOf rk ∧ p.wdCount = r.wdCount ∧ p.wdt = r.wdt ∧ p.tvec = r.tvec ∧ p.saved = r.saved)
    ∧ (∀ seq k, d.admits? seq k c slot = none → RunsEvent s (.admission seq k c slot) d)
    ∧ (∀ seq k l p, d.admits? seq k c slot = some (l, p) → p.begun = false → d.regs.rsvc = false → ∃ e,
      RunsEvent s (.admission seq k c slot) e
        ∧ (∃ r, e.res? rk = some r ∧ r.seq = l.seq ∧ r.k = p.k ∧ r.ctx = l.record.ctx ∧ r.cls = l.record.cls ∧ r.fb = 0x4000
          ∧ r.sb = l.record.sb ∧ r.cb = l.record.cb ∧ r.abase = l.record.abase ∧ r.acount = l.record.acount
          ∧ r.tvec = l.record.tvec ∧ r.wdt = BitVec.ofNat 64 l.record.wdtp ∧ r.state = .resident ∧ r.scratch = [] ∧ r.full = [])
        ∧ (∀ h < 16, l.record.hmask.getLsbD h = true →
          ∀ a0 a1 a2, l.record.args = [a0, a1, a2] → ∃ t, e.hart rk h = { ({} : Hart) with x := t }
            ∧ t[2] = a0 ∧ t[3] = a1 ∧ t[4] = a2 ∧ t[5] = BitVec.ofNat 64 p.k ∧ t[6] = BitVec.ofNat 64 l.seq
            ∧ ∀ j : Fin 64, j.val < 2 ∨ 6 < j.val → t[j.val] = 0)
        ∧ (∀ h < 16, l.record.hmask.getLsbD h = true → h % 2 ^ l.record.gl = 0 →
          e.gang? rk h = some { size := 2 ^ l.record.gl, gm := gangMask h (2 ^ l.record.gl), live := gangMask h (2 ^ l.record.gl)
                                pc := l.record.entry, entry := true })
        ∧ e.vault = d.vault ∧ ((∀ x ∈ d.lines, x.core ≠ c.val) → e.mem = d.mem))
    ∧ (d.stopDue rk = false → RunsEvent s (.debugStop c slot) d)
    ∧ (d.stopDue rk = true → ∃ e r, RunsEvent s (.debugStop c slot) e ∧ e.res? rk = some r ∧ r.state = .stopped
        ∧ r.stopReq = false ∧ ((d.core c).issuing = some slot → ∀ b < 16, ∀ g, e.gang? rk b = some g → g.wait = none ∧ g.replay = none)
        ∧ e = { d with ress := e.ress, harts := e.harts, gangs := e.gangs, banks := e.banks, cores := e.cores, launches := e.launches }
        ∧ ((∀ x ∈ (d.core c).mx, x.started = false) → e.launches = d.launches))
    ∧ (∃ l, RunsEvent s (.debugArm ctx on) { d with regs := { d.regs with armed := l } }
        ∧ ∀ n, n ∈ l ↔ if n = ctx.toNat then on = true else n ∈ d.regs.armed)
    ∧ (ctx.toNat ∉ d.regs.armed → RunsEvent s (.debugStopRequest ctx) d)
    ∧ (ctx.toNat ∈ d.regs.armed → ∃ l, RunsEvent s (.debugStopRequest ctx) { d with regs := { d.regs with stops := l } }
        ∧ ∀ n, n ∈ l ↔ n = ctx.toNat ∨ n ∈ d.regs.stops)
    ∧ ∃ e, RunsEvent s (.debugResume ctx) e ∧ ctx.toNat ∉ e.regs.stops
        ∧ (∀ n ≠ ctx.toNat, n ∈ e.regs.stops ↔ n ∈ d.regs.stops) ∧ e.mem = d.mem
        ∧ ((∀ p ∈ d.ress, p.2.ctx = ctx → p.2.state ≠ .stopped) → e = { d with regs := e.regs })
        ∧ ∀ r, d.ress = [(rk, r)] → r.ctx = ctx → r.state = .stopped → (e.res? rk).map Residence.state = some .resident

/-- Launches (R285, R392 to R396, R401 to R403, R411 to R413, R428). The device takes the entry at the head of a queue when
it has one, the journal has room, its turn in the round of 16 ck has not passed and no queue of a lower class goes first: a record that is refused leaves the queue with its journal entry, one that is accepted
enters the table too, and one for which the table has no room stays. A launch whose waits are met becomes READY with a
placement for each core; a placement whose gangs and work have ended frees its slot; a launch whose placements have ended
becomes ENDED once its completion is written, and leaves the table when the journal has room. A resolution answers one
unanswered record, and one of an unknown record sets HWD; a table query takes the entry as the write finds it: that one starts
whenever none is under way is the model's reading (log entry 19). The completion word goes to the address in COMPL under the
launch's own identifier, after the flush; a failed translation makes no write and sets CWF, and one that the host has yet to answer
holds the end. An event that is not due changes nothing. The rings (R395, R410, R411): a tail or a head takes its value as
written and counts modulo the size of its ring, and HWD is set instead where the value has more than 16 bits; what the host has
written before a tail is in memory before it; the base and the size of a ring change only while it is empty, a base is a multiple
of 4096, and a size is 0 or 2^4 to 2^16 entries. That a size leaves the head and the tail as they are is the model's choice (log
entry 58). -/
def Obligations.LaunchAndRingEvents : Prop :=
  (∀ (s : State) (q : Fin 4) (seq k : Nat) (fault : BitVec 62) (v : Word),
       let d := s.dev
       let ring := d.queues[q.val]
       let addr := ring.base.toNat + 128 * (ring.head % 2 ^ ring.log)
       let taken := fun (e : Device) => { e with queues := e.queues.set q.val { ring with head := (ring.head + 1) % 2 ^ ring.log } }
       let round := d.now / 16
       let here : Device := { d.physTouch addr 128 with served := (round, q.val + 1) }
       let bytes := here.physRead addr 128
       let rec_ := LaunchRec.ofNat bytes
       let end_ := fun (l : Launch) (cwf : Bool) (e : Device) => e.modLaunch l.seq fun x => { x with state := .ended, cwf := cwf }
       let flushed := fun (l : Launch) => if l.flushed then d
         else if l.record.hfl then d.releaseFlush (l.cores ++ l.ran)
         else { d with deferred := d.deferred ++ [{ seq := l.seq, stream := l.record.stream, cores := l.cores, ran := l.ran }] }
       let compl := fun (l : Launch) (e : Device) => e.globalAt (l.cores.headD 0) l.record.ctx .write l.record.compl.toNat
       let word := fun (l : Launch) => l.seq + if l.err || l.killed.isSome then 2 ^ 63 else 0
       (ring.log = 0 ∨ ring.head % 2 ^ ring.log = ring.tail % 2 ^ ring.log ∨ d.journal.full = true ∨ (d.served.1 = round ∧ q.val < d.served.2)
           ∨ (∃ e : Fin 4, e < q ∧ d.canConsume e = true) →
         RunsEvent s (.queueEntryConsume q) d)
       ∧ (ring.log ≠ 0 → ring.head % 2 ^ ring.log ≠ ring.tail % 2 ^ ring.log → d.journal.full = false → d.served.1 ≠ round ∨ d.served.2 ≤ q.val →
         (∀ e : Fin 4, e < q → d.canConsume e = false) →
         (recEarly bytes ≠ 0 → RunsEvent s (.queueEntryConsume q) (taken (here.refuse rec_ (recEarly bytes) q.val 0 addr)))
         ∧ (recEarly bytes = 0 → ∀ e x, readLists (Device.hostList rec_.ctx) rec_ here = (e, .error x) →
           RunsEvent s (.queueEntryConsume q) (taken (e.refuse rec_ 3 q.val 0 addr)))
         ∧ (recEarly bytes = 0 → ∀ e l, readLists (Device.hostList rec_.ctx) rec_ here = (e, .ok l) →
           (recLate e rec_ l.1.length ≠ 0 → recLate e rec_ l.1.length ≠ 9 →
             RunsEvent s (.queueEntryConsume q) (taken (e.refuse rec_ (recLate e rec_ l.1.length) q.val 0 addr)))
           ∧ (recLate e rec_ l.1.length = 9 → RunsEvent s (.queueEntryConsume q) d)
           ∧ (recLate e rec_ l.1.length = 0 → ∃ f, RunsEvent s (.queueEntryConsume q) (taken f) ∧ f.nextSeq = e.nextSeq + 1
             ∧ ∃ x, f.launches = e.launches ++ [x] ∧ x.seq = e.nextSeq ∧ x.record = rec_ ∧ x.cores = l.1 ∧ x.wset = l.2
               ∧ x.counter = rec_.dep ∧ x.source = q.val ∧ x.parent = 0 ∧ x.places = [] ∧ x.killed = none
               ∧ (x.state = if rec_.dep = 0 then .waits else .dep))))
       ∧ (d.launch? seq = none → RunsEvent s (.launchLeaveWaits seq) d ∧ RunsEvent s (.launchEnd seq) d)
       ∧ (∀ l, d.launch? seq = some l →
         (d.leavesNext l = false → RunsEvent s (.launchLeaveWaits seq) d)
         ∧ (d.leavesNext l = true → l.state = .waits ∧ ∃ e gone, RunsEvent s (.launchLeaveWaits seq) e
           ∧ e.launch? seq = some { l with state := .ready, flushed := gone, places := l.cores.zipIdx.map fun p => { k := p.2, home := p.1 } })
         ∧ ((∀ p ∈ l.places, p.state = .ended) → l.state = .running → l.record.compl = 0 → ∃ e, RunsEvent s (.launchEnd seq) e
           ∧ e.launch? seq = some { l with state := .ended, cwf := false })
         ∧ ((∀ p ∈ l.places, p.state = .ended) → l.state = .running → l.record.compl ≠ 0 →
           let t := compl l d
           let u := compl l (flushed l)
           (∀ x y, t.2 = .ok x → u.2 = .ok (.mem y) →
             (∀ o, x ≠ .pool o) → RunsEvent s (.launchEnd seq) (end_ l false (u.1.colWrite y 8 (word l))))
           ∧ (∀ x a, t.2 = .ok x → u.2 = .ok (.host a) → (∀ o, x ≠ .pool o) →
             RunsEvent s (.launchEnd seq) (end_ l false { u.1 with host := u.1.host.write a 8 (word l) }))
           ∧ (∀ f g, t.2 = .fail f → u.2 = .fail g → RunsEvent s (.launchEnd seq) (end_ l true u.1))
           ∧ (∀ c va, t.2 = .wait (.ats c va) → ∃ e, RunsEvent s (.launchEnd seq) e ∧ e = { t.1 with ats := e.ats }
             ∧ ({ core := l.cores.headD 0, ctx := c, va := va / 2 ^ 16 * 2 ^ 16 } : AtsReq) ∈ e.ats))
         ∧ (l.state = .ended → d.journal.full = false → ∃ e, RunsEvent s (.launchEnd seq) e ∧ e.launch? seq = none
           ∧ e.launches = d.launches.filter fun o => o.seq != seq)
         ∧ (l.state = .ended → d.journal.full = true → RunsEvent s (.launchEnd seq) d))
       ∧ (d.placeEnds seq k = none → RunsEvent s (.placementEnd seq k) d)
       ∧ (∀ rk, d.placeEnds seq k = some rk → ∃ e, RunsEvent s (.placementEnd seq k) e ∧ e.res? rk = none
         ∧ (∀ p ∈ e.gangs, p.1 / 16 ≠ rk) ∧ (∀ p ∈ e.harts, p.1 / 16 ≠ rk)
         ∧ ((d.core (rk / 3)).issuing = some (resSlot rk) → (e.core (rk / 3)).issuing = none)
         ∧ (∀ a ∈ (e.core (rk / 3)).acc.toList, ∀ p, a.bound = some p → p.1 ≠ rk)
         ∧ ∃ l, e.launch? seq = some l ∧ ∀ p ∈ l.places, p.k = k → p.state = .ended)
       ∧ (d.faultOf fault.toNat = none → RunsEvent s (.fresRetry fault) d.setHwd ∧ RunsEvent s (.fresDeliver fault) d.setHwd
           ∧ RunsEvent s (.fresEnd fault) d.setHwd)
       ∧ (∀ f g t rk, d.faultOf fault.toNat = some f → f.cmd = none → d.faultRes f = some rk → d.gang? rk f.base = some g →
         d.cmdStops rk = false → d.gangs.Pairwise (fun a b => a.1 < b.1) → g.faults = [t] → t.seq = f.seq → f.base < 16 → (∀ p ∈ d.gangsOf rk, p.1 ≠ f.base → p.2.faults = []) →
         ∃ r, d.res? rk = some r ∧ (r.state = .faultWaiting →
           let rest := d.faults.filter fun x => x.seq != fault.toNat
           let gang := { g with faults := [], faultFails := [] }
           (∃ e : Device, RunsEvent s (.fresRetry fault) e ∧ e.faults = rest ∧ e.gang? rk f.base = some gang
             ∧ e.res? rk = some { r with state := .resident }
             ∧ e = { d with faults := e.faults, gangs := e.gangs, ress := e.ress })
           ∧ (∃ e, RunsEvent s (.fresDeliver fault) e ∧ e.faults = rest
             ∧ ∃ y : Device, y = { d with faults := rest, gangs := y.gangs, ress := y.ress }
               ∧ y.gang? rk f.base = some gang ∧ y.res? rk = some { r with state := .resident }
               ∧ e = y.takeTrap rk f.base t.tpc
                   ((t.bank, { cause := 0x0C, tval := t.va, detail := t.detail + t.access * 16 })
                     :: g.faultFails.filter fun p => p.2.cause != 0x0C))
           ∧ ∀ l, d.launch? r.seq = some l → l.killed = none → ∃ e, RunsEvent s (.fresEnd fault) e
             ∧ (e.launch? r.seq).bind Launch.killed = some { cause := 0x0C, tpc := t.tpc, tval := t.va, bank := t.bank, core := rk / 3 }))
       ∧ (d.regs.tqPending = true → RunsEvent s (.tqseq v) d.setHwd
           ∧ RunsEvent s .tableQueryResult { d with regs := { d.regs with tqPending := false, tqres := d.regs.tqres ||| (1#64 <<< 63) } })
       ∧ (d.regs.tqPending = false → RunsEvent s .tableQueryResult d
           ∧ ∃ w : Word, RunsEvent s (.tqseq v) { d with regs := { d.regs with tqseq := v, tqPending := true, tqres := w } }
             ∧ (d.launch? v.toNat = none → w = 0)
             ∧ ∀ l, d.launch? v.toNat = some l → (w.extractLsb' 0 32).toNat = l.counter % 2 ^ 32 ∧ w.getLsbD 35 = l.err
               ∧ ((w.extractLsb' 32 3).toNat = 5 ↔ d.stateOf l = .ended) ∧ w.extractLsb' 36 28 = 0))
  ∧ (∀ (s : State) (q : Fin 4) (r : RingId) (v : Word),
       let d := s.dev
       let ring := d.ring r
       let head := fun (x : Ring) => { x with head := v.toNat }
       let b := d.serveHosts
       let empty := ring.head % 2 ^ ring.log = ring.tail % 2 ^ ring.log
       (2 ^ 16 ≤ v.toNat → RunsEvent s (.qtail q v) d.setHwd ∧ RunsEvent s (.journalHead v) d.setHwd
         ∧ RunsEvent s (.faultLogHead v) d.setHwd)
       ∧ (v.toNat < 2 ^ 16 →
         RunsEvent s (.qtail q v) { b with queues := b.queues.set q.val { b.queues[q.val] with tail := v.toNat } }
         ∧ ((∀ p ∈ d.banks, p.2.cols.any ColAccess.host = false) → b = d)
         ∧ RunsEvent s (.journalHead v) { d with journal := head d.journal }
         ∧ ((∀ f ∈ d.faults, f.written = true) → RunsEvent s (.faultLogHead v) { d with faultLog := head d.faultLog }))
       ∧ (¬ empty → RunsEvent s (.qbase r v) d.setHwd ∧ RunsEvent s (.qsize r v) d.setHwd)
       ∧ (v.toNat % 4096 ≠ 0 → RunsEvent s (.qbase r v) d.setHwd)
       ∧ (v ≠ 0 → v.toNat < 4 ∨ 16 < v.toNat → RunsEvent s (.qsize r v) d.setHwd)
       ∧ (empty → (∀ f ∈ d.faults, f.written = true) →
         (v.toNat % 4096 = 0 → ∃ e, RunsEvent s (.qbase r v) e ∧ e.ring r = { ring with base := v } ∧ (∀ x ≠ r, e.ring x = d.ring x)
           ∧ e = { d with queues := e.queues, journal := e.journal, faultLog := e.faultLog })
         ∧ (v = 0 ∨ (4 ≤ v.toNat ∧ v.toNat ≤ 16) → ∃ e, RunsEvent s (.qsize r v) e
           ∧ e.ring r = { ring with log := v.toNat }
           ∧ (∀ x ≠ r, e.ring x = d.ring x) ∧ e = { d with queues := e.queues, journal := e.journal, faultLog := e.faultLog })))

/-- The host's registers and windows, the fabric, power and service (R280, R377, R408 to R410, R414 to R419). A write of a
reserved value sets HWD and nothing else of the register; ERRST clears the bits written as ones; the package reset leaves
what the reset leaves, but for the memory outside the package; an invalidation drops the entries that it names once no
transfer uses them; the windows read and write the bytes that they lead to, and a register reads as it stands; an atomic or a
reduction of another package is accepted at its port when it is its turn there; a read that the fabric drops is poisoned and sets
RLOST, and a reduction that it drops is waited for no more; full service starts once training is over and no launch runs. That a
debug register, PLIM and the fabric registers are read, and how, is the model's choice (log entry 13); so are what memory and
the registers read after the package reset (R121 leaves memory undefined; log entries 1 and 2), the layout of the mailbox (log entry
16), HWD on a write of a fabric register while a launch runs (log entry 24), and which request a timeout drops (log entry 44). -/
def Obligations.HostEvents : Prop :=
  ∀ (s : State) (v : Word) (link : Fin 32) (c : Fin 2048) (b : Fin 16) (g : Sys2Proof.Lat),
    let d := s.dev
    let regs := fun r => ({ d with regs := r } : Device)
    let run := d.anyRunning
    let reads := fun i l => RunsEvent s i (regs { d.regs with reply := some (Device.wordBytes l) })
    (exec .deviceReset s = .next { s with dev := d.afterReset, iss := {} }
      ∧ d.afterReset = { State.reset.dev with
            host := d.host, mem := d.afterReset.mem, memBad := d.memBad.filter fun x => 2 ^ 60 ≤ 64 * x
            svc := d.svc.map fun p => (p.1, { weak := p.2.weak, history := p.2.history }), hot := d.hot, warm := d.warm }
      ∧ ∀ a, d.afterReset.mem.byte a = if a < 2 ^ 60 then State.reset.dev.mem.byte a else d.mem.byte a)
    ∧ RunsEvent s .linkReset d
    ∧ (4 ≤ v.toNat → RunsEvent s (.placeEnable v) d.setHwd)
    ∧ (v.toNat = 1 ∨ v.toNat = 3 → RunsEvent s (.placeEnable v) d.afterReset)
    ∧ (v.toNat = 0 ∨ v.toNat = 2 → RunsEvent s (.placeEnable v) (regs { d.regs with place := v.toNat == 2 }))
    ∧ RunsEvent s (.errstClear v) (regs { d.regs with hwd := d.regs.hwd && !v.getLsbD 0, rlost := d.regs.rlost && !v.getLsbD 1
                                                      flfull := d.regs.flfull && !v.getLsbD 2 })
    ∧ (d.regs.tinvRun = true → RunsEvent s (.tinv v) d.setHwd ∧ RunsEvent s (.tinvl v) d.setHwd)
    ∧ (d.regs.tinvRun = false → RunsEvent s (.tinv v) (regs { d.regs with tinv := v, tinvSet := true })
      ∧ RunsEvent s .translationInvalidationDone d
      ∧ (d.regs.tinvSet = false → RunsEvent s (.tinvl v) d.setHwd)
      ∧ (d.regs.tinvSet = true → RunsEvent s (.tinvl v) (regs { d.regs with tinvl := v, tinvSet := false, tinvRun := true })))
    ∧ (d.regs.tinvRun = true → d.tinvBusy = false → ∃ e, RunsEvent s .translationInvalidationDone e
      ∧ e = { d with cores := e.cores, regs := { d.regs with tinvRun := false, tinvs := d.regs.tinvs + 1 } }
      ∧ ∀ j, e.core j = { d.core j with atc := (d.core j).atc.filter fun x => !(d.regs.tinv.getLsbD 12
          || (x.ctx == d.regs.tinv.extractLsb' 0 12 && x.va < d.regs.tinv.toNat / 2 ^ 16 * 2 ^ 16 + d.regs.tinvl.toNat
            && d.regs.tinv.toNat / 2 ^ 16 * 2 ^ 16 < x.va + 2 ^ x.log)) })
    ∧ RunsEvent s (.plim (some v)) { d with power := { d.power with plim := min v.toNat 3600 } }
    ∧ reads (.plim none) [d.power.plim, d.power.average, d.power.energy]
    ∧ (∀ r, run = true → RunsEvent s (.fabricConfigWrite r (some v)) d.setHwd)
    ∧ (run = false → RunsEvent s (.fabricConfigWrite .device (some v)) { d with fabric := { d.fabric with dev := v.toNat % 2 ^ 21 } }
      ∧ RunsEvent s (.fabricConfigWrite .board (some v)) { d with fabric := { d.fabric with board := v.toNat } }
      ∧ RunsEvent s (.fabricConfigWrite .pod (some v)) { d with fabric := { d.fabric with pod := v.toNat } }
      ∧ RunsEvent s (.fabricConfigWrite .fsize (some v)) { d with fabric := { d.fabric with fsize := v.toNat % 2 ^ 21 } }
      ∧ ∀ i, RunsEvent s (.fabricConfigWrite (.route i) (some v))
          { d with fabric := { d.fabric with routes := d.fabric.routes.set i.val v } })
    ∧ (∀ i, reads (.fabricConfigWrite (.route i) none) [d.fabric.routes[i.val].toNat])
    ∧ (∀ (off : BitVec 36) n, let x := d.hostRead (d.regs.winbase.toNat + off.toNat) n
      RunsEvent s (.hostBar2Read off n) { x.1 with regs := { x.1.regs with reply := x.2 } })
    ∧ (∀ (off : BitVec 36) bytes, RunsEvent s (.hostBar2Write off bytes) (d.hostWrite (d.regs.winbase.toNat + off.toNat) bytes))
    ∧ (∀ (off : BitVec 32) w rk r o, d.bar4Place off.toNat = some (rk, r, o) →
      let bytes := fun n => (List.range 8).map fun j => BitVec.ofNat 8 (n / 2 ^ (8 * j))
      (o < r.fb → RunsEvent s (.hostBar4Access off (some w)) (d.modRes rk fun r => { r with frames := r.frames.write o 8 w.toNat })
        ∧ RunsEvent s (.hostBar4Access off none) (regs { d.regs with reply := some (bytes (r.frames.read o 8)) }))
      ∧ (r.fb ≤ o → o < r.sb → RunsEvent s (.hostBar4Access off (some w)) (d.modRes rk fun r => r.write o 8 w.toNat)
        ∧ RunsEvent s (.hostBar4Access off none)
            (regs { d.regs with reply := if (r.read o 8).2 then none else some (bytes (r.read o 8).1) })))
    ∧ (∀ (off : BitVec 32) w, d.bar4Place off.toNat = none → RunsEvent s (.hostBar4Access off (some w)) d.setHwd
        ∧ RunsEvent s (.hostBar4Access off none) (regs { d.regs with reply := some (List.replicate 8 0) }))
    ∧ (∃ l, RunsEvent s (.serviceMailbox c b g) (regs { d.regs with reply := some l })
      ∧ let n := lookupD {} (groupKey c b g) d.svc
        let plan := d.svc.any fun p => p.1 / 8192 == c.val / 128 && p.2.weak
        l.length = 48 + n.history.length ∧ l.take 48 = Device.wordBytes
          [n.corrected, n.poisoned, n.forced, n.weak.toNat, plan.toNat, n.history.length]
        ∧ l.drop 48 = n.history.map fun x => BitVec.ofNat 8 x.toNat)
    ∧ (∀ src pa n, RunsEvent s (.fabricArrival src (.read pa n)) (d.hostRead pa.toNat n).1)
    ∧ (∀ src pa bytes, RunsEvent s (.fabricArrival src (.write pa bytes)) (d.hostWrite pa.toNat bytes))
    ∧ (∀ (src : FabricAgent) (pa : BitVec 60) (e : Device) old bad, d.portQ = [] → d.res? (6144 + src.dev.toNat) = none →
      let st := d.stor pa.toNat
      let rank := fabricRank src.cls.val src.dev.toNat
      let into := fun red => d.wqEnter st red rank
      let turn := fun red => d.wqRoom st red = true ∧ d.portLate (Device.portOf st) rank = false
      (∀ op w, turn none → (into none).atomicAt st (wordElt op w).bytes (fun x => (wordElt op w).apply op x v.toNat) = (e, old, bad) →
        RunsEvent s (.fabricArrival src (.amo op w pa v)) e)
      ∧ (∀ op w, turn (some (op, wordElt op w)) →
        (into (some (op, wordElt op w))).atomicAt st (wordElt op w).bytes (fun x => (wordElt op w).apply op x v.toNat) = (e, old, false) →
        RunsEvent s (.fabricArrival src (.red op w pa v)) e))
    ∧ (∃ e, RunsEvent s (.linkFailure link) e ∧ (∀ n, n ∈ e.fabric.down ↔ n = link.val ∨ n ∈ d.fabric.down)
      ∧ e.regs = { d.regs with msi := d.regs.msi.set 3 (d.regs.msi[3] + 1) })
    ∧ (let quiet : Device := { d with fabric := { d.fabric with mute := true } }
      (∃ e, RunsEvent s .fabricRequestTimeout e ∧ (e = quiet ∨ ∃ k q, d.portQ[k]? = some q ∧ d.sentAway q = true
        ∧ e.portQ = d.portQ.take k ++ d.portQ.drop (k + 1) ∧ e.regs.rlost = true ∧ e.mem = d.mem
        ∧ ((d.res? q.res).isSome = true → (e.hart q.res q.bank).redOut = (d.hart q.res q.bank).redOut - 1)))
      ∧ ((∀ q ∈ d.portQ, d.sentAway q = false) → RunsEvent s .fabricRequestTimeout quiet)
      ∧ ∀ pa, pa / 2 ^ 39 ≠ d.fabric.dev → quiet.stor pa = .dropped (2 ^ 60 + pa)
        ∧ ∀ n, (quiet.colRead (quiet.stor pa) n).2.2 = true ∧ (quiet.colRead (quiet.stor pa) n).1.regs.rlost = true
          ∧ (quiet.colRead (quiet.stor pa) n).1.fabric.mute = false)
    ∧ (d.now / 1024 < d.power.windows → RunsEvent s .budgetWindow d)
    ∧ (d.power.windows ≤ d.now / 1024 → ∃ e, RunsEvent s .budgetWindow e ∧ e.power.windows = d.power.windows + 1
      ∧ e.power.plim = d.power.plim ∧ e.power.average ≤ d.power.plim ∧ d.power.energy ≤ e.power.energy
      ∧ e = { d with cores := e.cores, power := e.power }
      ∧ ∃ share : Nat, (∀ j, e.credit j = min (d.credit j) share + share))
    ∧ (d.regs.rsvc = true → RunsEvent s .trainingComplete { d with trained := true })
    ∧ (d.regs.rsvc = false → RunsEvent s .trainingComplete d ∧ RunsEvent s .fullServiceEntry d)
    ∧ (run = true ∨ d.trained = false → RunsEvent s .fullServiceEntry d)
    ∧ (d.regs.rsvc = true → d.trained = true → run = false → RunsEvent s .fullServiceEntry
        { d with regs := { d.regs with rsvc := false, msi := d.regs.msi.set 3 (d.regs.msi[3] + 1) }
                 paces := { until_ := d.now, hot := d.hot, rsvc := true } :: d.paces })
    ∧ (∀ i, i ∈ [(0x00000 : Nat), 0x10008, 0x40018] → RunsEvent s (.registerWrite (BitVec.ofNat 20 i) (some v)) d)
    ∧ (∀ i n, (i, n) ∈ [((0x8 : Nat), Instr.errstClear v), (0x18, .placeEnable v), (0x10000, .tqseq v), (0x11018, .qtail 0 v),
          (0x11058, .qtail 1 v), (0x20010, .journalHead v), (0x30010, .faultLogHead v), (0x20000, .qbase .journal v),
          (0x30008, .qsize .faultLog v), (0x40008, .tinv v), (0x40010, .tinvl v)] →
        exec (.registerWrite (BitVec.ofNat 20 i) (some v)) s = exec n s)
    ∧ (v.toNat % 2 ^ 36 = 0 → v.toNat < 2 ^ 60 → RunsEvent s (.registerWrite 0x10 (some v)) (regs { d.regs with winbase := v }))
    ∧ (v.toNat % 2 ^ 12 = 0 → RunsEvent s (.registerWrite 0x40000 (some v)) (regs { d.regs with rtbase := v }))
    ∧ (v.toNat < 2 ^ 12 → RunsEvent s (.registerWrite 0x78000 (some v)) (regs { d.regs with pview := v.setWidth 12 }))
    ∧ (v.toNat % 2 ^ 36 ≠ 0 → RunsEvent s (.registerWrite 0x10 (some v)) d.setHwd)
    ∧ RunsEvent s (.registerWrite 0x00020 (some v)) d.setHwd
    ∧ (∀ off, reads (.registerWrite off none) [d.regVal off.toNat])
    ∧ d.regVal 0x8 = d.regs.hwd.toNat + 2 * d.regs.rlost.toNat + 4 * d.regs.flfull.toNat + d.regs.redp % 2 ^ 16 * 2 ^ 16
    ∧ d.regVal 0x10 = d.regs.winbase.toNat ∧ d.regVal 0x10008 = d.regs.tqres.toNat ∧ d.regVal 0x40018 = d.regs.tinvs
    ∧ d.regVal 0x20010 = d.journal.head ∧ d.regVal 0x20018 = d.journal.tail ∧ d.regVal 0x11018 = d.queues[0].tail
    ∧ d.regVal 0x78000 = d.regs.pview.toNat ∧ d.regVal 0x20 = 0

/-- Words written out from their rules and from the spec's worked programs decode to the instructions that they stand for,
and the all-zero word and words with a bit set outside the fields of their instruction are refused (R21, R34, R37, R41, R81). -/
def Obligations.SpecWordsDecode : Prop :=
  let h : Hdr := { c := false, gn := false, gp := 0, stall := 0, hint := .none }
  let lane : MaskMod := { me := false, mn := false, mi := 0 }
  decode 0x300000000000000000000000 = .ok (.nop h)
  ∧ decode 0xD42000000000000100000000 = .ok (.pfx 0x0000000100000000)
  ∧ decode 0x006000000000050000680000 = .ok (.add { h with c := true } false 5 (.x 6) (.long .full))
  ∧ decode 0x004300000000070000540064 = .ok (.add { h with gp := 3 } false 7 (.x 5) (.imm 100))
  ∧ decode 0x04C300000000_0C0000940034 = .ok (.fshr { h with gp := 3 } 12 (.x 9) (.imm 52))
  ∧ decode 0x31800000000_0157FFFB40001 = .ok (.subbr h 21 (.imm 0x3FFFB) (.imm 1))
  ∧ decode 0x32C000000000000000000000 = .ok (.exit h)
  ∧ decode 0x400000000080004000000000 = .ok (.act h 0 (.imm 0))
  ∧ decode 0x40C000000080024000000000 = .ok (.wbp h 2 (.imm 0))
  ∧ decode 0x414000000000000000000000 = .ok (.prea h)
  ∧ decode 0x500000000000024200000000 = .ok (.setvl h 2 (.imm 8192))
  ∧ decode 0x50400000000000401BD00000 = .ok (.setvt h 0 (.imm 0x1BD))
  ∧ decode 0x508000000080020800008001 = .ok (.vadd h lane 2 (.lat (.own 0)) (.lat (.own 1)))
  ∧ decode 0x5B8100001080000800208001 = .ok (.vlqq { h with gp := 1 } .bf16 0 0 0 (.own 2) 1)
  ∧ decode 0x5FC000000080010800008002 = .ok (.vsortk h lane false 1 (.own 0) 2)
  ∧ decode 0x88000002D000001800018001 = .ok (.tload h .lq8s false { bank := 0, g := 0 } (some { bank := 0, g := 1 }))
  ∧ decode 0x88400010A100001800300000 = .ok (.tmma h .e4m3 false 0 true 0 0 { bank := 0, g := 3 } none)
  ∧ decode 0x88C100007080021000040000 = .ok (.accrd { h with gp := 1 } .f32 2 0 (.imm 0))
  ∧ decode 0x9A4000003000060000240000 = .ok (.ldv h 3 6 2 (.imm 0))
  ∧ decode 0xA80000000000000000340001 = .ok (.amo h .add false 0 3 (.imm 1))
  ∧ decode 0xA8C000340080000000208001 = .ok (.redv h lane .fadd 0 2 (.ix 1))
  ∧ decode 0xA90000003000000000000000 = .ok (.redf h .core)
  ∧ decode 0xB00000003000004010100000 = .ok (.fence h .core 1 1)
  ∧ decode 0xB440000000000900_00A00000 = .ok (.enq1 h 9 10)
  ∧ decode 0xB50000000000000001440000 = .ok (.bari h 20 (.imm 0))
  ∧ decode 0xB54000000000050001444000 = .ok (.barp h 5 20 (.imm 16384))
  ∧ decode 0xB58000000000130001A40001 = .ok (.bara h 19 26 (.imm 1))
  ∧ decode 0xB60000003000050001800017 = .ok (.wait h .ge 5 24 (.x 23))
  ∧ decode 0xBC0000000040020000040000 = .ok (.sfcfg h 2 0 (.imm 0))
  ∧ (∀ w ∈ [(0 : BitVec 96), 0x300000000000010000000000, 0x300000000000000000000001, 0x32C000000000000000000001], ∃ c, decode w = .error c)

/-- NOP (R41): it has no effect; MOD, D, A and B must be zero; its guard (but for the reserved one of R15), stall and hint
are legal; its plain word and that word's bytes are as the rule gives them. -/
def Obligations.NopWord : Prop :=
  (∀ (s : State) (h : Hdr), s.Calm → RunsInto s h (.nop h) s.begun.dev s.iss.target)
  ∧ (∀ h : Hdr, h.wf = true → ∃ w, encode (.nop h) = w ∧ w.extractLsb' 0 72 = 0 ∧ w.extractLsb' 86 10 = 0x0C0 ∧ decode w = .ok (.nop h))
  ∧ (∀ w : IWord, w.extractLsb' 86 10 = 0x0C0 → w.extractLsb' 0 72 ≠ 0 → ∃ c, decode w = .error c)
  ∧ encode (.nop { c := false, gn := false, gp := 0, stall := 0, hint := .none }) = 0x300000000000000000000000
  ∧ bytesOfWord 0x300000000000000000000000 = List.replicate 11 0 ++ [0x30]

/-- DEPQ (R407): D takes the counter, the state and ERR of the entry that holds the handle as the table is when the word
takes effect, with zero above; the state reads 0 when no entry holds the handle. It runs whatever the handle: it never traps
on one. -/
def Obligations.HandleQuery : Prop :=
  ∀ (s : State) (h : Hdr) (d a : XReg), s.Calm →
    ∃ v : Nat → Word, WritesReg s h (.depq h d a) (.x d) v ∧ ∀ k ∈ s.active,
      (v k).extractLsb' 36 28 = 0
      ∧ (s.begun.dev.launch? ((s.begun.hart k).getX a).toNat = none → (v k).extractLsb' 32 3 = 0)
      ∧ ∀ l, s.begun.dev.launch? ((s.begun.hart k).getX a).toNat = some l →
        ((v k).extractLsb' 0 32).toNat = l.counter % 2 ^ 32 ∧ (v k).getLsbD 35 = l.err
        ∧ (v k).extractLsb' 32 3 = match s.begun.dev.stateOf l with
          | .dep => 1
          | .waits => 2
          | .ready => 3
          | .running => 4
          | .ended => 5
end

