-- ==== Sys2Proof/Laws/Table.lean ====
section
/-! SUPPORT. Laws of the sorted tables and of memory: what a read finds after a write, and the canonical form. -/

namespace Sys2Proof.Machine

/-! ### Tables -/

/-- A key that was set is found. -/
@[simp] theorem lookupK_insertK_same {α : Type} (k : Nat) (a : α) (l : List (Nat × α)) :
    lookupK k (insertK k a l) = some a := by
  induction l with
  | nil => simp [insertK, lookupK]
  | cons p l ih =>
    unfold insertK
    split
    · simp [lookupK]
    · split
      · simp [lookupK]
      · next h => simp [lookupK, h, ih]

/-- Setting a key leaves every other key as it was. -/
theorem lookupK_insertK_ne {α : Type} {k j : Nat} (a : α) (l : List (Nat × α)) (h : j ≠ k) :
    lookupK j (insertK k a l) = lookupK j l := by
  have hk : ¬ k = j := fun e => h e.symm
  induction l with
  | nil => simp [insertK, lookupK, hk]
  | cons p l ih =>
    unfold insertK
    split
    · simp [lookupK, hk]
    · split
      · next e => simp [lookupK, hk, e]
      · simp only [lookupK, ih]

/-- What a table holds at a key after another or the same key is set. -/
theorem lookupK_insertK {α : Type} (j k : Nat) (a : α) (l : List (Nat × α)) :
    lookupK j (insertK k a l) = if j = k then some a else lookupK j l := by
  split
  · next h => subst h; simp
  · next h => exact lookupK_insertK_ne a l h

/-- The same for a table with a default. -/
theorem lookupD_insertK {α : Type} (dflt : α) (j k : Nat) (a : α) (l : List (Nat × α)) :
    lookupD dflt j (insertK k a l) = if j = k then a else lookupD dflt j l := by
  simp only [lookupD, lookupK_insertK]
  split <;> rfl

/-- Setting a key twice is setting it once. -/
theorem insertK_insertK {α : Type} (k : Nat) (a b : α) (l : List (Nat × α)) :
    insertK k a (insertK k b l) = insertK k a l := by
  induction l with
  | nil => simp [insertK]
  | cons p l ih =>
    by_cases h1 : k < p.1
    · simp [insertK, h1]
    · by_cases h2 : p.1 = k
      · simp [insertK, h2]
      · simp [insertK, h1, h2, ih]

/-- An erased key is not found. -/
@[simp] theorem lookupK_eraseK_same {α : Type} (k : Nat) (l : List (Nat × α)) : lookupK k (eraseK k l) = none := by
  induction l with
  | nil => rfl
  | cons p l ih =>
    by_cases h : p.1 = k
    · simpa [eraseK, h] using ih
    · have : eraseK k (p :: l) = p :: eraseK k l := by simp [eraseK, h]
      rw [this]; simp [lookupK, h, ih]

/-! ### Memory -/

/-- A byte found in two tables one after the other. -/
theorem lookupK_append {α : Type} (k : Nat) (l m : List (Nat × α)) :
    lookupK k (l ++ m) = (lookupK k l).or (lookupK k m) := by
  induction l with
  | nil => rfl
  | cons p l ih =>
    simp only [List.cons_append, lookupK]
    split
    · rfl
    · exact ih

/-- A table kept where a property of the key holds. -/
theorem lookupK_filter {α : Type} (k : Nat) (f : Nat → Bool) (l : List (Nat × α)) :
    lookupK k (l.filter fun p => f p.1) = if f k then lookupK k l else none := by
  induction l with
  | nil => simp [lookupK]
  | cons p l ih =>
    by_cases hp : f p.1
    · rw [List.filter_cons_of_pos (by simpa using hp)]
      simp only [lookupK, ih]
      by_cases e : p.1 = k
      · subst e; simp [hp]
      · simp [e]
    · rw [List.filter_cons_of_neg (by simpa using hp), ih]
      by_cases e : p.1 = k
      · subst e; simp [hp]
      · simp [lookupK, e]

/-- The cells of a number hold nothing below their first address. -/
theorem cellsOf_below (a n v k : Nat) (h : k < a) : lookupK k (cellsOf a n v) = none := by
  induction n generalizing a v with
  | zero => rfl
  | succ n ih =>
    unfold cellsOf
    split
    · rfl
    · split
      · exact ih _ _ (by omega)
      · have : ¬ a = k := by omega
        simp only [lookupK, this, if_false]
        exact ih _ _ (by omega)

/-- The cells of a number of `n` bytes hold nothing past them. -/
theorem cellsOf_above (a n v k : Nat) (h : a + n ≤ k) : lookupK k (cellsOf a n v) = none := by
  induction n generalizing a v with
  | zero => rfl
  | succ n ih =>
    unfold cellsOf
    split
    · rfl
    · split
      · exact ih _ _ (by omega)
      · have : ¬ a = k := by omega
        simp only [lookupK, this, if_false]
        exact ih _ _ (by omega)

/-- A cell of a number holds the byte at its place. -/
theorem cellsOf_inside (a n v i : Nat) (h : i < n) :
    (lookupK (a + i) (cellsOf a n v)).getD Memory.blank = BitVec.ofNat 8 (v / 2 ^ (8 * i)) := by
  induction n generalizing a v i with
  | zero => omega
  | succ n ih =>
    have step : ∀ j, v / 256 / 2 ^ (8 * j) = v / 2 ^ (8 * (j + 1)) := by
      intro j
      rw [Nat.div_div_eq_div_mul, show (256 : Nat) = 2 ^ 8 from rfl, ← Nat.pow_add]
      congr 2; omega
    unfold cellsOf
    split
    · next hv => subst hv; simp [lookupK, Memory.blank]
    · split
      · next hz =>
        cases i with
        | zero =>
          rw [cellsOf_below _ _ _ _ (by omega)]
          apply BitVec.eq_of_toNat_eq
          simp [Memory.blank, hz]
        | succ j => rw [show a + (j + 1) = a + 1 + j by omega, ih _ _ _ (by omega), step]
      · cases i with
        | zero => simp [lookupK]
        | succ j =>
          have : ¬ a = a + (j + 1) := by omega
          simp only [lookupK, this, if_false]
          rw [show a + (j + 1) = a + 1 + j by omega, ih _ _ _ (by omega), step]

/-- A byte outside the written bytes is as it was. -/
theorem Memory.byte_write_outside (m : Memory) (a n v k : Nat) (h : k < a ∨ a + n ≤ k) :
    (m.write a n v).byte k = m.byte k := by
  have e1 : lookupK k (m.filter fun c => decide (c.1 < a)) = if k < a then lookupK k m else none := by
    simpa using lookupK_filter k (fun j => decide (j < a)) m
  have e2 : lookupK k (m.filter fun c => decide (a + n ≤ c.1)) = if a + n ≤ k then lookupK k m else none := by
    simpa using lookupK_filter k (fun j => decide (a + n ≤ j)) m
  unfold Memory.byte lookupD Memory.write
  rw [lookupK_append, lookupK_append, e1, e2]
  rcases h with h | h
  · have h2 : ¬ a + n ≤ k := by omega
    rw [cellsOf_below _ _ _ _ h]; simp [h, h2]
  · have h2 : ¬ k < a := by omega
    rw [cellsOf_above _ _ _ _ h]; simp [h, h2]

/-- A written byte is the byte of the number at its place. -/
theorem Memory.byte_write_inside (m : Memory) (a n v i : Nat) (h : i < n) :
    (m.write a n v).byte (a + i) = BitVec.ofNat 8 (v / 2 ^ (8 * i)) := by
  have e1 : lookupK (a + i) (m.filter fun c => decide (c.1 < a)) = none := by
    have := lookupK_filter (a + i) (fun j => decide (j < a)) m
    have hk : ¬ a + i < a := by omega
    simpa [hk] using this
  have e2 : lookupK (a + i) (m.filter fun c => decide (a + n ≤ c.1)) = none := by
    have := lookupK_filter (a + i) (fun j => decide (a + n ≤ j)) m
    have hk : ¬ n ≤ i := by omega
    simpa [hk] using this
  unfold Memory.byte lookupD Memory.write
  rw [lookupK_append, lookupK_append, e1, e2, ← cellsOf_inside a n v i h]
  simp

/-! ### The canonical form -/

/-- The cells of a number rise from their first address. -/
theorem cellsOf_sorted (a n v : Nat) : Memory.sorted a (cellsOf a n v) = true := by
  have mono : ∀ (l : Memory) (lo hi : Nat), lo ≤ hi → Memory.sorted hi l = true → Memory.sorted lo l = true := by
    intro l lo hi h hs
    cases l with
    | nil => rfl
    | cons c l => simp only [Memory.sorted, Bool.and_eq_true, decide_eq_true_eq] at *; exact ⟨by omega, hs.2⟩
  induction n generalizing a v with
  | zero => rfl
  | succ n ih =>
    unfold cellsOf
    split
    · rfl
    · split
      · exact mono _ _ _ (by omega) (ih (a + 1) (v / 256))
      · simp [Memory.sorted, ih]

/-- Every cell of a number lies in its bytes. -/
theorem cellsOf_range (a n v : Nat) : ∀ c ∈ cellsOf a n v, a ≤ c.1 ∧ c.1 < a + n := by
  induction n generalizing a v with
  | zero => simp [cellsOf]
  | succ n ih =>
    unfold cellsOf
    intro c hc
    split at hc
    · simp at hc
    · split at hc
      · have := ih _ _ c hc; omega
      · rcases List.mem_cons.mp hc with rfl | hc
        · exact ⟨Nat.le_refl _, by omega⟩
        · have := ih _ _ c hc; omega

/-- No cell of a number holds the byte that an unlisted address reads as. -/
theorem cellsOf_notBlank (a n v : Nat) : ∀ c ∈ cellsOf a n v, c.2 ≠ Memory.blank := by
  induction n generalizing a v with
  | zero => simp [cellsOf]
  | succ n ih =>
    unfold cellsOf
    intro c hc
    split at hc
    · simp at hc
    · split at hc
      · exact ih _ _ c hc
      · next hz =>
        rcases List.mem_cons.mp hc with rfl | hc
        · intro h
          apply hz
          have := congrArg BitVec.toNat h
          simpa [Memory.blank] using this
        · exact ih _ _ c hc

/-- Rising from a bound: every address is at least the bound, and the rest rises from the next. -/
theorem Memory.sorted_iff (l : Memory) (lo : Nat) :
    Memory.sorted lo l = true ↔ (∀ c ∈ l, lo ≤ c.1) ∧ l.Pairwise fun a b => a.1 < b.1 := by
  induction l generalizing lo with
  | nil => simp [Memory.sorted]
  | cons c l ih =>
    simp only [Memory.sorted, Bool.and_eq_true, decide_eq_true_eq, ih, List.forall_mem_cons, List.pairwise_cons]
    constructor
    · rintro ⟨h, h1, h2⟩
      exact ⟨⟨h, fun x hx => by have := h1 x hx; omega⟩, fun x hx => by have := h1 x hx; omega, h2⟩
    · rintro ⟨⟨h, h1⟩, h2, h3⟩
      exact ⟨h, fun x hx => by have := h2 x hx; omega, h3⟩

/-- The canonical form, said of every cell and every pair of cells. -/
theorem Memory.wf_iff (m : Memory) :
    m.wf = true ↔ (m.Pairwise fun a b => a.1 < b.1) ∧ ∀ c ∈ m, c.2 ≠ Memory.blank := by
  simp [Memory.wf, Memory.sorted_iff]

/-- Empty memory is canonical. -/
@[simp] theorem Memory.wf_nil : Memory.wf [] = true := rfl

/-- A part of canonical memory is canonical. -/
theorem Memory.wf_filter (m : Memory) (f : Host.Cell → Bool) (h : m.wf = true) : Memory.wf (m.filter f) = true := by
  rw [Memory.wf_iff] at *
  exact ⟨h.1.filter _, fun c hc => h.2 c (List.mem_filter.mp hc).1⟩

/-- A write keeps the canonical form. -/
theorem Memory.wf_write (m : Memory) (a n v : Nat) (h : m.wf = true) : (m.write a n v).wf = true := by
  have hs := (Memory.sorted_iff _ _).mp (cellsOf_sorted a n v)
  rw [Memory.wf_iff] at *
  constructor
  · refine List.pairwise_append.mpr ⟨List.pairwise_append.mpr ⟨h.1.filter _, hs.2, ?_⟩, h.1.filter _, ?_⟩
    · intro x hx y hy
      have h1 := (List.mem_filter.mp hx).2
      have h2 := cellsOf_range a n v y hy
      simp only [decide_eq_true_eq] at h1
      omega
    · intro x hx y hy
      have h2 := (List.mem_filter.mp hy).2
      simp only [decide_eq_true_eq] at h2
      rcases List.mem_append.mp hx with hx | hx
      · have h1 := (List.mem_filter.mp hx).2
        simp only [decide_eq_true_eq] at h1
        omega
      · have h1 := cellsOf_range a n v x hx
        omega
  · intro c hc
    rcases List.mem_append.mp hc with hc | hc
    · rcases List.mem_append.mp hc with hc | hc
      · exact h.2 c (List.mem_filter.mp hc).1
      · exact cellsOf_notBlank a n v c hc
    · exact h.2 c (List.mem_filter.mp hc).1

/-- A write of a list of bytes keeps the canonical form. -/
theorem Memory.wf_writeBytes (m : Memory) (a : Nat) (bs : List Byte) (h : m.wf = true) : (m.writeBytes a bs).wf = true :=
  Memory.wf_write _ _ _ _ h

end Sys2Proof.Machine
end

