-- ==== Sys2Proof/Laws/State.lean ====
section
/-! SUPPORT. What each update of the package, of a hart and of the state leaves in each field: one lemma for each field and
update, so that no proof unfolds a record update. -/

namespace Sys2Proof.Machine

/-! ### Updates of one table of the package -/

namespace Device
@[simp] theorem setCore_now (d : Device) (c : Nat) (x : Core) : (d.setCore c x).now = d.now := rfl
@[simp] theorem setCore_mem (d : Device) (c : Nat) (x : Core) : (d.setCore c x).mem = d.mem := rfl
@[simp] theorem setCore_memBad (d : Device) (c : Nat) (x : Core) : (d.setCore c x).memBad = d.memBad := rfl
@[simp] theorem setCore_rowTags (d : Device) (c : Nat) (x : Core) : (d.setCore c x).rowTags = d.rowTags := rfl
@[simp] theorem setCore_vault (d : Device) (c : Nat) (x : Core) : (d.setCore c x).vault = d.vault := rfl
@[simp] theorem setCore_vaultBad (d : Device) (c : Nat) (x : Core) : (d.setCore c x).vaultBad = d.vaultBad := rfl
@[simp] theorem setCore_host (d : Device) (c : Nat) (x : Core) : (d.setCore c x).host = d.host := rfl
@[simp] theorem setCore_banks (d : Device) (c : Nat) (x : Core) : (d.setCore c x).banks = d.banks := rfl
@[simp] theorem setCore_ress (d : Device) (c : Nat) (x : Core) : (d.setCore c x).ress = d.ress := rfl
@[simp] theorem setCore_gangs (d : Device) (c : Nat) (x : Core) : (d.setCore c x).gangs = d.gangs := rfl
@[simp] theorem setCore_harts (d : Device) (c : Nat) (x : Core) : (d.setCore c x).harts = d.harts := rfl
@[simp] theorem setCore_lines (d : Device) (c : Nat) (x : Core) : (d.setCore c x).lines = d.lines := rfl
@[simp] theorem setCore_proxies (d : Device) (c : Nat) (x : Core) : (d.setCore c x).proxies = d.proxies := rfl
@[simp] theorem setCore_portQ (d : Device) (c : Nat) (x : Core) : (d.setCore c x).portQ = d.portQ := rfl
@[simp] theorem setCore_ats (d : Device) (c : Nat) (x : Core) : (d.setCore c x).ats = d.ats := rfl
@[simp] theorem setCore_dies (d : Device) (c : Nat) (x : Core) : (d.setCore c x).dies = d.dies := rfl
@[simp] theorem setCore_hot (d : Device) (c : Nat) (x : Core) : (d.setCore c x).hot = d.hot := rfl
@[simp] theorem setCore_warm (d : Device) (c : Nat) (x : Core) : (d.setCore c x).warm = d.warm := rfl
@[simp] theorem setCore_paces (d : Device) (c : Nat) (x : Core) : (d.setCore c x).paces = d.paces := rfl
@[simp] theorem setCore_launches (d : Device) (c : Nat) (x : Core) : (d.setCore c x).launches = d.launches := rfl
@[simp] theorem setCore_deferred (d : Device) (c : Nat) (x : Core) : (d.setCore c x).deferred = d.deferred := rfl
@[simp] theorem setCore_nextSeq (d : Device) (c : Nat) (x : Core) : (d.setCore c x).nextSeq = d.nextSeq := rfl
@[simp] theorem setCore_queues (d : Device) (c : Nat) (x : Core) : (d.setCore c x).queues = d.queues := rfl
@[simp] theorem setCore_journal (d : Device) (c : Nat) (x : Core) : (d.setCore c x).journal = d.journal := rfl
@[simp] theorem setCore_faultLog (d : Device) (c : Nat) (x : Core) : (d.setCore c x).faultLog = d.faultLog := rfl
@[simp] theorem setCore_faultSeq (d : Device) (c : Nat) (x : Core) : (d.setCore c x).faultSeq = d.faultSeq := rfl
@[simp] theorem setCore_faults (d : Device) (c : Nat) (x : Core) : (d.setCore c x).faults = d.faults := rfl
@[simp] theorem setCore_regs (d : Device) (c : Nat) (x : Core) : (d.setCore c x).regs = d.regs := rfl
@[simp] theorem setCore_fabric (d : Device) (c : Nat) (x : Core) : (d.setCore c x).fabric = d.fabric := rfl
@[simp] theorem setCore_power (d : Device) (c : Nat) (x : Core) : (d.setCore c x).power = d.power := rfl
@[simp] theorem setCore_svc (d : Device) (c : Nat) (x : Core) : (d.setCore c x).svc = d.svc := rfl
@[simp] theorem setCore_trained (d : Device) (c : Nat) (x : Core) : (d.setCore c x).trained = d.trained := rfl
@[simp] theorem setCore_turn (d : Device) (c : Nat) (x : Core) : (d.setCore c x).turn = d.turn := rfl
@[simp] theorem setCore_atsInv (d : Device) (c : Nat) (x : Core) : (d.setCore c x).atsInv = d.atsInv := rfl
@[simp] theorem setCore_atsDone (d : Device) (c : Nat) (x : Core) : (d.setCore c x).atsDone = d.atsDone := rfl
@[simp] theorem setCore_dieLast (d : Device) (c : Nat) (x : Core) : (d.setCore c x).dieLast = d.dieLast := rfl
@[simp] theorem setCore_served (d : Device) (c : Nat) (x : Core) : (d.setCore c x).served = d.served := rfl

@[simp] theorem setBank_now (d : Device) (c b : Nat) (x : Bank) : (d.setBank c b x).now = d.now := rfl
@[simp] theorem setBank_mem (d : Device) (c b : Nat) (x : Bank) : (d.setBank c b x).mem = d.mem := rfl
@[simp] theorem setBank_memBad (d : Device) (c b : Nat) (x : Bank) : (d.setBank c b x).memBad = d.memBad := rfl
@[simp] theorem setBank_rowTags (d : Device) (c b : Nat) (x : Bank) : (d.setBank c b x).rowTags = d.rowTags := rfl
@[simp] theorem setBank_vault (d : Device) (c b : Nat) (x : Bank) : (d.setBank c b x).vault = d.vault := rfl
@[simp] theorem setBank_vaultBad (d : Device) (c b : Nat) (x : Bank) : (d.setBank c b x).vaultBad = d.vaultBad := rfl
@[simp] theorem setBank_host (d : Device) (c b : Nat) (x : Bank) : (d.setBank c b x).host = d.host := rfl
@[simp] theorem setBank_cores (d : Device) (c b : Nat) (x : Bank) : (d.setBank c b x).cores = d.cores := rfl
@[simp] theorem setBank_ress (d : Device) (c b : Nat) (x : Bank) : (d.setBank c b x).ress = d.ress := rfl
@[simp] theorem setBank_gangs (d : Device) (c b : Nat) (x : Bank) : (d.setBank c b x).gangs = d.gangs := rfl
@[simp] theorem setBank_harts (d : Device) (c b : Nat) (x : Bank) : (d.setBank c b x).harts = d.harts := rfl
@[simp] theorem setBank_lines (d : Device) (c b : Nat) (x : Bank) : (d.setBank c b x).lines = d.lines := rfl
@[simp] theorem setBank_proxies (d : Device) (c b : Nat) (x : Bank) : (d.setBank c b x).proxies = d.proxies := rfl
@[simp] theorem setBank_portQ (d : Device) (c b : Nat) (x : Bank) : (d.setBank c b x).portQ = d.portQ := rfl
@[simp] theorem setBank_ats (d : Device) (c b : Nat) (x : Bank) : (d.setBank c b x).ats = d.ats := rfl
@[simp] theorem setBank_dies (d : Device) (c b : Nat) (x : Bank) : (d.setBank c b x).dies = d.dies := rfl
@[simp] theorem setBank_hot (d : Device) (c b : Nat) (x : Bank) : (d.setBank c b x).hot = d.hot := rfl
@[simp] theorem setBank_warm (d : Device) (c b : Nat) (x : Bank) : (d.setBank c b x).warm = d.warm := rfl
@[simp] theorem setBank_paces (d : Device) (c b : Nat) (x : Bank) : (d.setBank c b x).paces = d.paces := rfl
@[simp] theorem setBank_launches (d : Device) (c b : Nat) (x : Bank) : (d.setBank c b x).launches = d.launches := rfl
@[simp] theorem setBank_deferred (d : Device) (c b : Nat) (x : Bank) : (d.setBank c b x).deferred = d.deferred := rfl
@[simp] theorem setBank_nextSeq (d : Device) (c b : Nat) (x : Bank) : (d.setBank c b x).nextSeq = d.nextSeq := rfl
@[simp] theorem setBank_queues (d : Device) (c b : Nat) (x : Bank) : (d.setBank c b x).queues = d.queues := rfl
@[simp] theorem setBank_journal (d : Device) (c b : Nat) (x : Bank) : (d.setBank c b x).journal = d.journal := rfl
@[simp] theorem setBank_faultLog (d : Device) (c b : Nat) (x : Bank) : (d.setBank c b x).faultLog = d.faultLog := rfl
@[simp] theorem setBank_faultSeq (d : Device) (c b : Nat) (x : Bank) : (d.setBank c b x).faultSeq = d.faultSeq := rfl
@[simp] theorem setBank_faults (d : Device) (c b : Nat) (x : Bank) : (d.setBank c b x).faults = d.faults := rfl
@[simp] theorem setBank_regs (d : Device) (c b : Nat) (x : Bank) : (d.setBank c b x).regs = d.regs := rfl
@[simp] theorem setBank_fabric (d : Device) (c b : Nat) (x : Bank) : (d.setBank c b x).fabric = d.fabric := rfl
@[simp] theorem setBank_power (d : Device) (c b : Nat) (x : Bank) : (d.setBank c b x).power = d.power := rfl
@[simp] theorem setBank_svc (d : Device) (c b : Nat) (x : Bank) : (d.setBank c b x).svc = d.svc := rfl
@[simp] theorem setBank_trained (d : Device) (c b : Nat) (x : Bank) : (d.setBank c b x).trained = d.trained := rfl
@[simp] theorem setBank_turn (d : Device) (c b : Nat) (x : Bank) : (d.setBank c b x).turn = d.turn := rfl
@[simp] theorem setBank_atsInv (d : Device) (c b : Nat) (x : Bank) : (d.setBank c b x).atsInv = d.atsInv := rfl
@[simp] theorem setBank_atsDone (d : Device) (c b : Nat) (x : Bank) : (d.setBank c b x).atsDone = d.atsDone := rfl
@[simp] theorem setBank_dieLast (d : Device) (c b : Nat) (x : Bank) : (d.setBank c b x).dieLast = d.dieLast := rfl
@[simp] theorem setBank_served (d : Device) (c b : Nat) (x : Bank) : (d.setBank c b x).served = d.served := rfl

@[simp] theorem setRes_now (d : Device) (rk : Nat) (x : Residence) : (d.setRes rk x).now = d.now := rfl
@[simp] theorem setRes_mem (d : Device) (rk : Nat) (x : Residence) : (d.setRes rk x).mem = d.mem := rfl
@[simp] theorem setRes_memBad (d : Device) (rk : Nat) (x : Residence) : (d.setRes rk x).memBad = d.memBad := rfl
@[simp] theorem setRes_rowTags (d : Device) (rk : Nat) (x : Residence) : (d.setRes rk x).rowTags = d.rowTags := rfl
@[simp] theorem setRes_vault (d : Device) (rk : Nat) (x : Residence) : (d.setRes rk x).vault = d.vault := rfl
@[simp] theorem setRes_vaultBad (d : Device) (rk : Nat) (x : Residence) : (d.setRes rk x).vaultBad = d.vaultBad := rfl
@[simp] theorem setRes_host (d : Device) (rk : Nat) (x : Residence) : (d.setRes rk x).host = d.host := rfl
@[simp] theorem setRes_cores (d : Device) (rk : Nat) (x : Residence) : (d.setRes rk x).cores = d.cores := rfl
@[simp] theorem setRes_banks (d : Device) (rk : Nat) (x : Residence) : (d.setRes rk x).banks = d.banks := rfl
@[simp] theorem setRes_gangs (d : Device) (rk : Nat) (x : Residence) : (d.setRes rk x).gangs = d.gangs := rfl
@[simp] theorem setRes_harts (d : Device) (rk : Nat) (x : Residence) : (d.setRes rk x).harts = d.harts := rfl
@[simp] theorem setRes_lines (d : Device) (rk : Nat) (x : Residence) : (d.setRes rk x).lines = d.lines := rfl
@[simp] theorem setRes_proxies (d : Device) (rk : Nat) (x : Residence) : (d.setRes rk x).proxies = d.proxies := rfl
@[simp] theorem setRes_portQ (d : Device) (rk : Nat) (x : Residence) : (d.setRes rk x).portQ = d.portQ := rfl
@[simp] theorem setRes_ats (d : Device) (rk : Nat) (x : Residence) : (d.setRes rk x).ats = d.ats := rfl
@[simp] theorem setRes_dies (d : Device) (rk : Nat) (x : Residence) : (d.setRes rk x).dies = d.dies := rfl
@[simp] theorem setRes_hot (d : Device) (rk : Nat) (x : Residence) : (d.setRes rk x).hot = d.hot := rfl
@[simp] theorem setRes_warm (d : Device) (rk : Nat) (x : Residence) : (d.setRes rk x).warm = d.warm := rfl
@[simp] theorem setRes_paces (d : Device) (rk : Nat) (x : Residence) : (d.setRes rk x).paces = d.paces := rfl
@[simp] theorem setRes_launches (d : Device) (rk : Nat) (x : Residence) : (d.setRes rk x).launches = d.launches := rfl
@[simp] theorem setRes_deferred (d : Device) (rk : Nat) (x : Residence) : (d.setRes rk x).deferred = d.deferred := rfl
@[simp] theorem setRes_nextSeq (d : Device) (rk : Nat) (x : Residence) : (d.setRes rk x).nextSeq = d.nextSeq := rfl
@[simp] theorem setRes_queues (d : Device) (rk : Nat) (x : Residence) : (d.setRes rk x).queues = d.queues := rfl
@[simp] theorem setRes_journal (d : Device) (rk : Nat) (x : Residence) : (d.setRes rk x).journal = d.journal := rfl
@[simp] theorem setRes_faultLog (d : Device) (rk : Nat) (x : Residence) : (d.setRes rk x).faultLog = d.faultLog := rfl
@[simp] theorem setRes_faultSeq (d : Device) (rk : Nat) (x : Residence) : (d.setRes rk x).faultSeq = d.faultSeq := rfl
@[simp] theorem setRes_faults (d : Device) (rk : Nat) (x : Residence) : (d.setRes rk x).faults = d.faults := rfl
@[simp] theorem setRes_regs (d : Device) (rk : Nat) (x : Residence) : (d.setRes rk x).regs = d.regs := rfl
@[simp] theorem setRes_fabric (d : Device) (rk : Nat) (x : Residence) : (d.setRes rk x).fabric = d.fabric := rfl
@[simp] theorem setRes_power (d : Device) (rk : Nat) (x : Residence) : (d.setRes rk x).power = d.power := rfl
@[simp] theorem setRes_svc (d : Device) (rk : Nat) (x : Residence) : (d.setRes rk x).svc = d.svc := rfl
@[simp] theorem setRes_trained (d : Device) (rk : Nat) (x : Residence) : (d.setRes rk x).trained = d.trained := rfl
@[simp] theorem setRes_turn (d : Device) (rk : Nat) (x : Residence) : (d.setRes rk x).turn = d.turn := rfl
@[simp] theorem setRes_atsInv (d : Device) (rk : Nat) (x : Residence) : (d.setRes rk x).atsInv = d.atsInv := rfl
@[simp] theorem setRes_atsDone (d : Device) (rk : Nat) (x : Residence) : (d.setRes rk x).atsDone = d.atsDone := rfl
@[simp] theorem setRes_dieLast (d : Device) (rk : Nat) (x : Residence) : (d.setRes rk x).dieLast = d.dieLast := rfl
@[simp] theorem setRes_served (d : Device) (rk : Nat) (x : Residence) : (d.setRes rk x).served = d.served := rfl

@[simp] theorem setGang_now (d : Device) (rk b : Nat) (x : Gang) : (d.setGang rk b x).now = d.now := rfl
@[simp] theorem setGang_mem (d : Device) (rk b : Nat) (x : Gang) : (d.setGang rk b x).mem = d.mem := rfl
@[simp] theorem setGang_memBad (d : Device) (rk b : Nat) (x : Gang) : (d.setGang rk b x).memBad = d.memBad := rfl
@[simp] theorem setGang_rowTags (d : Device) (rk b : Nat) (x : Gang) : (d.setGang rk b x).rowTags = d.rowTags := rfl
@[simp] theorem setGang_vault (d : Device) (rk b : Nat) (x : Gang) : (d.setGang rk b x).vault = d.vault := rfl
@[simp] theorem setGang_vaultBad (d : Device) (rk b : Nat) (x : Gang) : (d.setGang rk b x).vaultBad = d.vaultBad := rfl
@[simp] theorem setGang_host (d : Device) (rk b : Nat) (x : Gang) : (d.setGang rk b x).host = d.host := rfl
@[simp] theorem setGang_cores (d : Device) (rk b : Nat) (x : Gang) : (d.setGang rk b x).cores = d.cores := rfl
@[simp] theorem setGang_banks (d : Device) (rk b : Nat) (x : Gang) : (d.setGang rk b x).banks = d.banks := rfl
@[simp] theorem setGang_ress (d : Device) (rk b : Nat) (x : Gang) : (d.setGang rk b x).ress = d.ress := rfl
@[simp] theorem setGang_harts (d : Device) (rk b : Nat) (x : Gang) : (d.setGang rk b x).harts = d.harts := rfl
@[simp] theorem setGang_lines (d : Device) (rk b : Nat) (x : Gang) : (d.setGang rk b x).lines = d.lines := rfl
@[simp] theorem setGang_proxies (d : Device) (rk b : Nat) (x : Gang) : (d.setGang rk b x).proxies = d.proxies := rfl
@[simp] theorem setGang_portQ (d : Device) (rk b : Nat) (x : Gang) : (d.setGang rk b x).portQ = d.portQ := rfl
@[simp] theorem setGang_ats (d : Device) (rk b : Nat) (x : Gang) : (d.setGang rk b x).ats = d.ats := rfl
@[simp] theorem setGang_dies (d : Device) (rk b : Nat) (x : Gang) : (d.setGang rk b x).dies = d.dies := rfl
@[simp] theorem setGang_hot (d : Device) (rk b : Nat) (x : Gang) : (d.setGang rk b x).hot = d.hot := rfl
@[simp] theorem setGang_warm (d : Device) (rk b : Nat) (x : Gang) : (d.setGang rk b x).warm = d.warm := rfl
@[simp] theorem setGang_paces (d : Device) (rk b : Nat) (x : Gang) : (d.setGang rk b x).paces = d.paces := rfl
@[simp] theorem setGang_launches (d : Device) (rk b : Nat) (x : Gang) : (d.setGang rk b x).launches = d.launches := rfl
@[simp] theorem setGang_deferred (d : Device) (rk b : Nat) (x : Gang) : (d.setGang rk b x).deferred = d.deferred := rfl
@[simp] theorem setGang_nextSeq (d : Device) (rk b : Nat) (x : Gang) : (d.setGang rk b x).nextSeq = d.nextSeq := rfl
@[simp] theorem setGang_queues (d : Device) (rk b : Nat) (x : Gang) : (d.setGang rk b x).queues = d.queues := rfl
@[simp] theorem setGang_journal (d : Device) (rk b : Nat) (x : Gang) : (d.setGang rk b x).journal = d.journal := rfl
@[simp] theorem setGang_faultLog (d : Device) (rk b : Nat) (x : Gang) : (d.setGang rk b x).faultLog = d.faultLog := rfl
@[simp] theorem setGang_faultSeq (d : Device) (rk b : Nat) (x : Gang) : (d.setGang rk b x).faultSeq = d.faultSeq := rfl
@[simp] theorem setGang_faults (d : Device) (rk b : Nat) (x : Gang) : (d.setGang rk b x).faults = d.faults := rfl
@[simp] theorem setGang_regs (d : Device) (rk b : Nat) (x : Gang) : (d.setGang rk b x).regs = d.regs := rfl
@[simp] theorem setGang_fabric (d : Device) (rk b : Nat) (x : Gang) : (d.setGang rk b x).fabric = d.fabric := rfl
@[simp] theorem setGang_power (d : Device) (rk b : Nat) (x : Gang) : (d.setGang rk b x).power = d.power := rfl
@[simp] theorem setGang_svc (d : Device) (rk b : Nat) (x : Gang) : (d.setGang rk b x).svc = d.svc := rfl
@[simp] theorem setGang_trained (d : Device) (rk b : Nat) (x : Gang) : (d.setGang rk b x).trained = d.trained := rfl
@[simp] theorem setGang_turn (d : Device) (rk b : Nat) (x : Gang) : (d.setGang rk b x).turn = d.turn := rfl
@[simp] theorem setGang_atsInv (d : Device) (rk b : Nat) (x : Gang) : (d.setGang rk b x).atsInv = d.atsInv := rfl
@[simp] theorem setGang_atsDone (d : Device) (rk b : Nat) (x : Gang) : (d.setGang rk b x).atsDone = d.atsDone := rfl
@[simp] theorem setGang_dieLast (d : Device) (rk b : Nat) (x : Gang) : (d.setGang rk b x).dieLast = d.dieLast := rfl
@[simp] theorem setGang_served (d : Device) (rk b : Nat) (x : Gang) : (d.setGang rk b x).served = d.served := rfl

@[simp] theorem setHart_now (d : Device) (rk h : Nat) (x : Hart) : (d.setHart rk h x).now = d.now := rfl
@[simp] theorem setHart_mem (d : Device) (rk h : Nat) (x : Hart) : (d.setHart rk h x).mem = d.mem := rfl
@[simp] theorem setHart_memBad (d : Device) (rk h : Nat) (x : Hart) : (d.setHart rk h x).memBad = d.memBad := rfl
@[simp] theorem setHart_rowTags (d : Device) (rk h : Nat) (x : Hart) : (d.setHart rk h x).rowTags = d.rowTags := rfl
@[simp] theorem setHart_vault (d : Device) (rk h : Nat) (x : Hart) : (d.setHart rk h x).vault = d.vault := rfl
@[simp] theorem setHart_vaultBad (d : Device) (rk h : Nat) (x : Hart) : (d.setHart rk h x).vaultBad = d.vaultBad := rfl
@[simp] theorem setHart_host (d : Device) (rk h : Nat) (x : Hart) : (d.setHart rk h x).host = d.host := rfl
@[simp] theorem setHart_cores (d : Device) (rk h : Nat) (x : Hart) : (d.setHart rk h x).cores = d.cores := rfl
@[simp] theorem setHart_banks (d : Device) (rk h : Nat) (x : Hart) : (d.setHart rk h x).banks = d.banks := rfl
@[simp] theorem setHart_ress (d : Device) (rk h : Nat) (x : Hart) : (d.setHart rk h x).ress = d.ress := rfl
@[simp] theorem setHart_gangs (d : Device) (rk h : Nat) (x : Hart) : (d.setHart rk h x).gangs = d.gangs := rfl
@[simp] theorem setHart_lines (d : Device) (rk h : Nat) (x : Hart) : (d.setHart rk h x).lines = d.lines := rfl
@[simp] theorem setHart_proxies (d : Device) (rk h : Nat) (x : Hart) : (d.setHart rk h x).proxies = d.proxies := rfl
@[simp] theorem setHart_portQ (d : Device) (rk h : Nat) (x : Hart) : (d.setHart rk h x).portQ = d.portQ := rfl
@[simp] theorem setHart_ats (d : Device) (rk h : Nat) (x : Hart) : (d.setHart rk h x).ats = d.ats := rfl
@[simp] theorem setHart_dies (d : Device) (rk h : Nat) (x : Hart) : (d.setHart rk h x).dies = d.dies := rfl
@[simp] theorem setHart_hot (d : Device) (rk h : Nat) (x : Hart) : (d.setHart rk h x).hot = d.hot := rfl
@[simp] theorem setHart_warm (d : Device) (rk h : Nat) (x : Hart) : (d.setHart rk h x).warm = d.warm := rfl
@[simp] theorem setHart_paces (d : Device) (rk h : Nat) (x : Hart) : (d.setHart rk h x).paces = d.paces := rfl
@[simp] theorem setHart_launches (d : Device) (rk h : Nat) (x : Hart) : (d.setHart rk h x).launches = d.launches := rfl
@[simp] theorem setHart_deferred (d : Device) (rk h : Nat) (x : Hart) : (d.setHart rk h x).deferred = d.deferred := rfl
@[simp] theorem setHart_nextSeq (d : Device) (rk h : Nat) (x : Hart) : (d.setHart rk h x).nextSeq = d.nextSeq := rfl
@[simp] theorem setHart_queues (d : Device) (rk h : Nat) (x : Hart) : (d.setHart rk h x).queues = d.queues := rfl
@[simp] theorem setHart_journal (d : Device) (rk h : Nat) (x : Hart) : (d.setHart rk h x).journal = d.journal := rfl
@[simp] theorem setHart_faultLog (d : Device) (rk h : Nat) (x : Hart) : (d.setHart rk h x).faultLog = d.faultLog := rfl
@[simp] theorem setHart_faultSeq (d : Device) (rk h : Nat) (x : Hart) : (d.setHart rk h x).faultSeq = d.faultSeq := rfl
@[simp] theorem setHart_faults (d : Device) (rk h : Nat) (x : Hart) : (d.setHart rk h x).faults = d.faults := rfl
@[simp] theorem setHart_regs (d : Device) (rk h : Nat) (x : Hart) : (d.setHart rk h x).regs = d.regs := rfl
@[simp] theorem setHart_fabric (d : Device) (rk h : Nat) (x : Hart) : (d.setHart rk h x).fabric = d.fabric := rfl
@[simp] theorem setHart_power (d : Device) (rk h : Nat) (x : Hart) : (d.setHart rk h x).power = d.power := rfl
@[simp] theorem setHart_svc (d : Device) (rk h : Nat) (x : Hart) : (d.setHart rk h x).svc = d.svc := rfl
@[simp] theorem setHart_trained (d : Device) (rk h : Nat) (x : Hart) : (d.setHart rk h x).trained = d.trained := rfl
@[simp] theorem setHart_turn (d : Device) (rk h : Nat) (x : Hart) : (d.setHart rk h x).turn = d.turn := rfl
@[simp] theorem setHart_atsInv (d : Device) (rk h : Nat) (x : Hart) : (d.setHart rk h x).atsInv = d.atsInv := rfl
@[simp] theorem setHart_atsDone (d : Device) (rk h : Nat) (x : Hart) : (d.setHart rk h x).atsDone = d.atsDone := rfl
@[simp] theorem setHart_dieLast (d : Device) (rk h : Nat) (x : Hart) : (d.setHart rk h x).dieLast = d.dieLast := rfl
@[simp] theorem setHart_served (d : Device) (rk h : Nat) (x : Hart) : (d.setHart rk h x).served = d.served := rfl

@[simp] theorem modHart_now (d : Device) (rk h : Nat) (f : Hart → Hart) : (d.modHart rk h f).now = d.now := rfl
@[simp] theorem modHart_mem (d : Device) (rk h : Nat) (f : Hart → Hart) : (d.modHart rk h f).mem = d.mem := rfl
@[simp] theorem modHart_memBad (d : Device) (rk h : Nat) (f : Hart → Hart) : (d.modHart rk h f).memBad = d.memBad := rfl
@[simp] theorem modHart_rowTags (d : Device) (rk h : Nat) (f : Hart → Hart) : (d.modHart rk h f).rowTags = d.rowTags := rfl
@[simp] theorem modHart_vault (d : Device) (rk h : Nat) (f : Hart → Hart) : (d.modHart rk h f).vault = d.vault := rfl
@[simp] theorem modHart_vaultBad (d : Device) (rk h : Nat) (f : Hart → Hart) : (d.modHart rk h f).vaultBad = d.vaultBad := rfl
@[simp] theorem modHart_host (d : Device) (rk h : Nat) (f : Hart → Hart) : (d.modHart rk h f).host = d.host := rfl
@[simp] theorem modHart_cores (d : Device) (rk h : Nat) (f : Hart → Hart) : (d.modHart rk h f).cores = d.cores := rfl
@[simp] theorem modHart_banks (d : Device) (rk h : Nat) (f : Hart → Hart) : (d.modHart rk h f).banks = d.banks := rfl
@[simp] theorem modHart_ress (d : Device) (rk h : Nat) (f : Hart → Hart) : (d.modHart rk h f).ress = d.ress := rfl
@[simp] theorem modHart_gangs (d : Device) (rk h : Nat) (f : Hart → Hart) : (d.modHart rk h f).gangs = d.gangs := rfl
@[simp] theorem modHart_lines (d : Device) (rk h : Nat) (f : Hart → Hart) : (d.modHart rk h f).lines = d.lines := rfl
@[simp] theorem modHart_proxies (d : Device) (rk h : Nat) (f : Hart → Hart) : (d.modHart rk h f).proxies = d.proxies := rfl
@[simp] theorem modHart_portQ (d : Device) (rk h : Nat) (f : Hart → Hart) : (d.modHart rk h f).portQ = d.portQ := rfl
@[simp] theorem modHart_ats (d : Device) (rk h : Nat) (f : Hart → Hart) : (d.modHart rk h f).ats = d.ats := rfl
@[simp] theorem modHart_dies (d : Device) (rk h : Nat) (f : Hart → Hart) : (d.modHart rk h f).dies = d.dies := rfl
@[simp] theorem modHart_hot (d : Device) (rk h : Nat) (f : Hart → Hart) : (d.modHart rk h f).hot = d.hot := rfl
@[simp] theorem modHart_warm (d : Device) (rk h : Nat) (f : Hart → Hart) : (d.modHart rk h f).warm = d.warm := rfl
@[simp] theorem modHart_paces (d : Device) (rk h : Nat) (f : Hart → Hart) : (d.modHart rk h f).paces = d.paces := rfl
@[simp] theorem modHart_launches (d : Device) (rk h : Nat) (f : Hart → Hart) : (d.modHart rk h f).launches = d.launches := rfl
@[simp] theorem modHart_deferred (d : Device) (rk h : Nat) (f : Hart → Hart) : (d.modHart rk h f).deferred = d.deferred := rfl
@[simp] theorem modHart_nextSeq (d : Device) (rk h : Nat) (f : Hart → Hart) : (d.modHart rk h f).nextSeq = d.nextSeq := rfl
@[simp] theorem modHart_queues (d : Device) (rk h : Nat) (f : Hart → Hart) : (d.modHart rk h f).queues = d.queues := rfl
@[simp] theorem modHart_journal (d : Device) (rk h : Nat) (f : Hart → Hart) : (d.modHart rk h f).journal = d.journal := rfl
@[simp] theorem modHart_faultLog (d : Device) (rk h : Nat) (f : Hart → Hart) : (d.modHart rk h f).faultLog = d.faultLog := rfl
@[simp] theorem modHart_faultSeq (d : Device) (rk h : Nat) (f : Hart → Hart) : (d.modHart rk h f).faultSeq = d.faultSeq := rfl
@[simp] theorem modHart_faults (d : Device) (rk h : Nat) (f : Hart → Hart) : (d.modHart rk h f).faults = d.faults := rfl
@[simp] theorem modHart_regs (d : Device) (rk h : Nat) (f : Hart → Hart) : (d.modHart rk h f).regs = d.regs := rfl
@[simp] theorem modHart_fabric (d : Device) (rk h : Nat) (f : Hart → Hart) : (d.modHart rk h f).fabric = d.fabric := rfl
@[simp] theorem modHart_power (d : Device) (rk h : Nat) (f : Hart → Hart) : (d.modHart rk h f).power = d.power := rfl
@[simp] theorem modHart_svc (d : Device) (rk h : Nat) (f : Hart → Hart) : (d.modHart rk h f).svc = d.svc := rfl
@[simp] theorem modHart_trained (d : Device) (rk h : Nat) (f : Hart → Hart) : (d.modHart rk h f).trained = d.trained := rfl
@[simp] theorem modHart_turn (d : Device) (rk h : Nat) (f : Hart → Hart) : (d.modHart rk h f).turn = d.turn := rfl
@[simp] theorem modHart_atsInv (d : Device) (rk h : Nat) (f : Hart → Hart) : (d.modHart rk h f).atsInv = d.atsInv := rfl
@[simp] theorem modHart_atsDone (d : Device) (rk h : Nat) (f : Hart → Hart) : (d.modHart rk h f).atsDone = d.atsDone := rfl
@[simp] theorem modHart_dieLast (d : Device) (rk h : Nat) (f : Hart → Hart) : (d.modHart rk h f).dieLast = d.dieLast := rfl
@[simp] theorem modHart_served (d : Device) (rk h : Nat) (f : Hart → Hart) : (d.modHart rk h f).served = d.served := rfl

@[simp] theorem modCore_now (d : Device) (c : Nat) (f : Core → Core) : (d.modCore c f).now = d.now := rfl
@[simp] theorem modCore_mem (d : Device) (c : Nat) (f : Core → Core) : (d.modCore c f).mem = d.mem := rfl
@[simp] theorem modCore_memBad (d : Device) (c : Nat) (f : Core → Core) : (d.modCore c f).memBad = d.memBad := rfl
@[simp] theorem modCore_rowTags (d : Device) (c : Nat) (f : Core → Core) : (d.modCore c f).rowTags = d.rowTags := rfl
@[simp] theorem modCore_vault (d : Device) (c : Nat) (f : Core → Core) : (d.modCore c f).vault = d.vault := rfl
@[simp] theorem modCore_vaultBad (d : Device) (c : Nat) (f : Core → Core) : (d.modCore c f).vaultBad = d.vaultBad := rfl
@[simp] theorem modCore_host (d : Device) (c : Nat) (f : Core → Core) : (d.modCore c f).host = d.host := rfl
@[simp] theorem modCore_banks (d : Device) (c : Nat) (f : Core → Core) : (d.modCore c f).banks = d.banks := rfl
@[simp] theorem modCore_ress (d : Device) (c : Nat) (f : Core → Core) : (d.modCore c f).ress = d.ress := rfl
@[simp] theorem modCore_gangs (d : Device) (c : Nat) (f : Core → Core) : (d.modCore c f).gangs = d.gangs := rfl
@[simp] theorem modCore_harts (d : Device) (c : Nat) (f : Core → Core) : (d.modCore c f).harts = d.harts := rfl
@[simp] theorem modCore_lines (d : Device) (c : Nat) (f : Core → Core) : (d.modCore c f).lines = d.lines := rfl
@[simp] theorem modCore_proxies (d : Device) (c : Nat) (f : Core → Core) : (d.modCore c f).proxies = d.proxies := rfl
@[simp] theorem modCore_portQ (d : Device) (c : Nat) (f : Core → Core) : (d.modCore c f).portQ = d.portQ := rfl
@[simp] theorem modCore_ats (d : Device) (c : Nat) (f : Core → Core) : (d.modCore c f).ats = d.ats := rfl
@[simp] theorem modCore_dies (d : Device) (c : Nat) (f : Core → Core) : (d.modCore c f).dies = d.dies := rfl
@[simp] theorem modCore_hot (d : Device) (c : Nat) (f : Core → Core) : (d.modCore c f).hot = d.hot := rfl
@[simp] theorem modCore_warm (d : Device) (c : Nat) (f : Core → Core) : (d.modCore c f).warm = d.warm := rfl
@[simp] theorem modCore_paces (d : Device) (c : Nat) (f : Core → Core) : (d.modCore c f).paces = d.paces := rfl
@[simp] theorem modCore_launches (d : Device) (c : Nat) (f : Core → Core) : (d.modCore c f).launches = d.launches := rfl
@[simp] theorem modCore_deferred (d : Device) (c : Nat) (f : Core → Core) : (d.modCore c f).deferred = d.deferred := rfl
@[simp] theorem modCore_nextSeq (d : Device) (c : Nat) (f : Core → Core) : (d.modCore c f).nextSeq = d.nextSeq := rfl
@[simp] theorem modCore_queues (d : Device) (c : Nat) (f : Core → Core) : (d.modCore c f).queues = d.queues := rfl
@[simp] theorem modCore_journal (d : Device) (c : Nat) (f : Core → Core) : (d.modCore c f).journal = d.journal := rfl
@[simp] theorem modCore_faultLog (d : Device) (c : Nat) (f : Core → Core) : (d.modCore c f).faultLog = d.faultLog := rfl
@[simp] theorem modCore_faultSeq (d : Device) (c : Nat) (f : Core → Core) : (d.modCore c f).faultSeq = d.faultSeq := rfl
@[simp] theorem modCore_faults (d : Device) (c : Nat) (f : Core → Core) : (d.modCore c f).faults = d.faults := rfl
@[simp] theorem modCore_regs (d : Device) (c : Nat) (f : Core → Core) : (d.modCore c f).regs = d.regs := rfl
@[simp] theorem modCore_fabric (d : Device) (c : Nat) (f : Core → Core) : (d.modCore c f).fabric = d.fabric := rfl
@[simp] theorem modCore_power (d : Device) (c : Nat) (f : Core → Core) : (d.modCore c f).power = d.power := rfl
@[simp] theorem modCore_svc (d : Device) (c : Nat) (f : Core → Core) : (d.modCore c f).svc = d.svc := rfl
@[simp] theorem modCore_trained (d : Device) (c : Nat) (f : Core → Core) : (d.modCore c f).trained = d.trained := rfl
@[simp] theorem modCore_turn (d : Device) (c : Nat) (f : Core → Core) : (d.modCore c f).turn = d.turn := rfl
@[simp] theorem modCore_atsInv (d : Device) (c : Nat) (f : Core → Core) : (d.modCore c f).atsInv = d.atsInv := rfl
@[simp] theorem modCore_atsDone (d : Device) (c : Nat) (f : Core → Core) : (d.modCore c f).atsDone = d.atsDone := rfl
@[simp] theorem modCore_dieLast (d : Device) (c : Nat) (f : Core → Core) : (d.modCore c f).dieLast = d.dieLast := rfl
@[simp] theorem modCore_served (d : Device) (c : Nat) (f : Core → Core) : (d.modCore c f).served = d.served := rfl

@[simp] theorem modBank_now (d : Device) (c b : Nat) (f : Bank → Bank) : (d.modBank c b f).now = d.now := rfl
@[simp] theorem modBank_mem (d : Device) (c b : Nat) (f : Bank → Bank) : (d.modBank c b f).mem = d.mem := rfl
@[simp] theorem modBank_memBad (d : Device) (c b : Nat) (f : Bank → Bank) : (d.modBank c b f).memBad = d.memBad := rfl
@[simp] theorem modBank_rowTags (d : Device) (c b : Nat) (f : Bank → Bank) : (d.modBank c b f).rowTags = d.rowTags := rfl
@[simp] theorem modBank_vault (d : Device) (c b : Nat) (f : Bank → Bank) : (d.modBank c b f).vault = d.vault := rfl
@[simp] theorem modBank_vaultBad (d : Device) (c b : Nat) (f : Bank → Bank) : (d.modBank c b f).vaultBad = d.vaultBad := rfl
@[simp] theorem modBank_host (d : Device) (c b : Nat) (f : Bank → Bank) : (d.modBank c b f).host = d.host := rfl
@[simp] theorem modBank_cores (d : Device) (c b : Nat) (f : Bank → Bank) : (d.modBank c b f).cores = d.cores := rfl
@[simp] theorem modBank_ress (d : Device) (c b : Nat) (f : Bank → Bank) : (d.modBank c b f).ress = d.ress := rfl
@[simp] theorem modBank_gangs (d : Device) (c b : Nat) (f : Bank → Bank) : (d.modBank c b f).gangs = d.gangs := rfl
@[simp] theorem modBank_harts (d : Device) (c b : Nat) (f : Bank → Bank) : (d.modBank c b f).harts = d.harts := rfl
@[simp] theorem modBank_lines (d : Device) (c b : Nat) (f : Bank → Bank) : (d.modBank c b f).lines = d.lines := rfl
@[simp] theorem modBank_proxies (d : Device) (c b : Nat) (f : Bank → Bank) : (d.modBank c b f).proxies = d.proxies := rfl
@[simp] theorem modBank_portQ (d : Device) (c b : Nat) (f : Bank → Bank) : (d.modBank c b f).portQ = d.portQ := rfl
@[simp] theorem modBank_ats (d : Device) (c b : Nat) (f : Bank → Bank) : (d.modBank c b f).ats = d.ats := rfl
@[simp] theorem modBank_dies (d : Device) (c b : Nat) (f : Bank → Bank) : (d.modBank c b f).dies = d.dies := rfl
@[simp] theorem modBank_hot (d : Device) (c b : Nat) (f : Bank → Bank) : (d.modBank c b f).hot = d.hot := rfl
@[simp] theorem modBank_warm (d : Device) (c b : Nat) (f : Bank → Bank) : (d.modBank c b f).warm = d.warm := rfl
@[simp] theorem modBank_paces (d : Device) (c b : Nat) (f : Bank → Bank) : (d.modBank c b f).paces = d.paces := rfl
@[simp] theorem modBank_launches (d : Device) (c b : Nat) (f : Bank → Bank) : (d.modBank c b f).launches = d.launches := rfl
@[simp] theorem modBank_deferred (d : Device) (c b : Nat) (f : Bank → Bank) : (d.modBank c b f).deferred = d.deferred := rfl
@[simp] theorem modBank_nextSeq (d : Device) (c b : Nat) (f : Bank → Bank) : (d.modBank c b f).nextSeq = d.nextSeq := rfl
@[simp] theorem modBank_queues (d : Device) (c b : Nat) (f : Bank → Bank) : (d.modBank c b f).queues = d.queues := rfl
@[simp] theorem modBank_journal (d : Device) (c b : Nat) (f : Bank → Bank) : (d.modBank c b f).journal = d.journal := rfl
@[simp] theorem modBank_faultLog (d : Device) (c b : Nat) (f : Bank → Bank) : (d.modBank c b f).faultLog = d.faultLog := rfl
@[simp] theorem modBank_faultSeq (d : Device) (c b : Nat) (f : Bank → Bank) : (d.modBank c b f).faultSeq = d.faultSeq := rfl
@[simp] theorem modBank_faults (d : Device) (c b : Nat) (f : Bank → Bank) : (d.modBank c b f).faults = d.faults := rfl
@[simp] theorem modBank_regs (d : Device) (c b : Nat) (f : Bank → Bank) : (d.modBank c b f).regs = d.regs := rfl
@[simp] theorem modBank_fabric (d : Device) (c b : Nat) (f : Bank → Bank) : (d.modBank c b f).fabric = d.fabric := rfl
@[simp] theorem modBank_power (d : Device) (c b : Nat) (f : Bank → Bank) : (d.modBank c b f).power = d.power := rfl
@[simp] theorem modBank_svc (d : Device) (c b : Nat) (f : Bank → Bank) : (d.modBank c b f).svc = d.svc := rfl
@[simp] theorem modBank_trained (d : Device) (c b : Nat) (f : Bank → Bank) : (d.modBank c b f).trained = d.trained := rfl
@[simp] theorem modBank_turn (d : Device) (c b : Nat) (f : Bank → Bank) : (d.modBank c b f).turn = d.turn := rfl
@[simp] theorem modBank_atsInv (d : Device) (c b : Nat) (f : Bank → Bank) : (d.modBank c b f).atsInv = d.atsInv := rfl
@[simp] theorem modBank_atsDone (d : Device) (c b : Nat) (f : Bank → Bank) : (d.modBank c b f).atsDone = d.atsDone := rfl
@[simp] theorem modBank_dieLast (d : Device) (c b : Nat) (f : Bank → Bank) : (d.modBank c b f).dieLast = d.dieLast := rfl
@[simp] theorem modBank_served (d : Device) (c b : Nat) (f : Bank → Bank) : (d.modBank c b f).served = d.served := rfl

@[simp] theorem modGroup_now (d : Device) (c b : Nat) (g : Lat) (f : Group → Group) : (d.modGroup c b g f).now = d.now := rfl
@[simp] theorem modGroup_mem (d : Device) (c b : Nat) (g : Lat) (f : Group → Group) : (d.modGroup c b g f).mem = d.mem := rfl
@[simp] theorem modGroup_memBad (d : Device) (c b : Nat) (g : Lat) (f : Group → Group) : (d.modGroup c b g f).memBad = d.memBad := rfl
@[simp] theorem modGroup_rowTags (d : Device) (c b : Nat) (g : Lat) (f : Group → Group) : (d.modGroup c b g f).rowTags = d.rowTags := rfl
@[simp] theorem modGroup_vault (d : Device) (c b : Nat) (g : Lat) (f : Group → Group) : (d.modGroup c b g f).vault = d.vault := rfl
@[simp] theorem modGroup_vaultBad (d : Device) (c b : Nat) (g : Lat) (f : Group → Group) : (d.modGroup c b g f).vaultBad = d.vaultBad := rfl
@[simp] theorem modGroup_host (d : Device) (c b : Nat) (g : Lat) (f : Group → Group) : (d.modGroup c b g f).host = d.host := rfl
@[simp] theorem modGroup_cores (d : Device) (c b : Nat) (g : Lat) (f : Group → Group) : (d.modGroup c b g f).cores = d.cores := rfl
@[simp] theorem modGroup_ress (d : Device) (c b : Nat) (g : Lat) (f : Group → Group) : (d.modGroup c b g f).ress = d.ress := rfl
@[simp] theorem modGroup_gangs (d : Device) (c b : Nat) (g : Lat) (f : Group → Group) : (d.modGroup c b g f).gangs = d.gangs := rfl
@[simp] theorem modGroup_harts (d : Device) (c b : Nat) (g : Lat) (f : Group → Group) : (d.modGroup c b g f).harts = d.harts := rfl
@[simp] theorem modGroup_lines (d : Device) (c b : Nat) (g : Lat) (f : Group → Group) : (d.modGroup c b g f).lines = d.lines := rfl
@[simp] theorem modGroup_proxies (d : Device) (c b : Nat) (g : Lat) (f : Group → Group) : (d.modGroup c b g f).proxies = d.proxies := rfl
@[simp] theorem modGroup_portQ (d : Device) (c b : Nat) (g : Lat) (f : Group → Group) : (d.modGroup c b g f).portQ = d.portQ := rfl
@[simp] theorem modGroup_ats (d : Device) (c b : Nat) (g : Lat) (f : Group → Group) : (d.modGroup c b g f).ats = d.ats := rfl
@[simp] theorem modGroup_dies (d : Device) (c b : Nat) (g : Lat) (f : Group → Group) : (d.modGroup c b g f).dies = d.dies := rfl
@[simp] theorem modGroup_hot (d : Device) (c b : Nat) (g : Lat) (f : Group → Group) : (d.modGroup c b g f).hot = d.hot := rfl
@[simp] theorem modGroup_warm (d : Device) (c b : Nat) (g : Lat) (f : Group → Group) : (d.modGroup c b g f).warm = d.warm := rfl
@[simp] theorem modGroup_paces (d : Device) (c b : Nat) (g : Lat) (f : Group → Group) : (d.modGroup c b g f).paces = d.paces := rfl
@[simp] theorem modGroup_launches (d : Device) (c b : Nat) (g : Lat) (f : Group → Group) : (d.modGroup c b g f).launches = d.launches := rfl
@[simp] theorem modGroup_deferred (d : Device) (c b : Nat) (g : Lat) (f : Group → Group) : (d.modGroup c b g f).deferred = d.deferred := rfl
@[simp] theorem modGroup_nextSeq (d : Device) (c b : Nat) (g : Lat) (f : Group → Group) : (d.modGroup c b g f).nextSeq = d.nextSeq := rfl
@[simp] theorem modGroup_queues (d : Device) (c b : Nat) (g : Lat) (f : Group → Group) : (d.modGroup c b g f).queues = d.queues := rfl
@[simp] theorem modGroup_journal (d : Device) (c b : Nat) (g : Lat) (f : Group → Group) : (d.modGroup c b g f).journal = d.journal := rfl
@[simp] theorem modGroup_faultLog (d : Device) (c b : Nat) (g : Lat) (f : Group → Group) : (d.modGroup c b g f).faultLog = d.faultLog := rfl
@[simp] theorem modGroup_faultSeq (d : Device) (c b : Nat) (g : Lat) (f : Group → Group) : (d.modGroup c b g f).faultSeq = d.faultSeq := rfl
@[simp] theorem modGroup_faults (d : Device) (c b : Nat) (g : Lat) (f : Group → Group) : (d.modGroup c b g f).faults = d.faults := rfl
@[simp] theorem modGroup_regs (d : Device) (c b : Nat) (g : Lat) (f : Group → Group) : (d.modGroup c b g f).regs = d.regs := rfl
@[simp] theorem modGroup_fabric (d : Device) (c b : Nat) (g : Lat) (f : Group → Group) : (d.modGroup c b g f).fabric = d.fabric := rfl
@[simp] theorem modGroup_power (d : Device) (c b : Nat) (g : Lat) (f : Group → Group) : (d.modGroup c b g f).power = d.power := rfl
@[simp] theorem modGroup_svc (d : Device) (c b : Nat) (g : Lat) (f : Group → Group) : (d.modGroup c b g f).svc = d.svc := rfl
@[simp] theorem modGroup_trained (d : Device) (c b : Nat) (g : Lat) (f : Group → Group) : (d.modGroup c b g f).trained = d.trained := rfl
@[simp] theorem modGroup_turn (d : Device) (c b : Nat) (g : Lat) (f : Group → Group) : (d.modGroup c b g f).turn = d.turn := rfl
@[simp] theorem modGroup_atsInv (d : Device) (c b : Nat) (g : Lat) (f : Group → Group) : (d.modGroup c b g f).atsInv = d.atsInv := rfl
@[simp] theorem modGroup_atsDone (d : Device) (c b : Nat) (g : Lat) (f : Group → Group) : (d.modGroup c b g f).atsDone = d.atsDone := rfl
@[simp] theorem modGroup_dieLast (d : Device) (c b : Nat) (g : Lat) (f : Group → Group) : (d.modGroup c b g f).dieLast = d.dieLast := rfl
@[simp] theorem modGroup_served (d : Device) (c b : Nat) (g : Lat) (f : Group → Group) : (d.modGroup c b g f).served = d.served := rfl

@[simp] theorem modRes_now (d : Device) (rk : Nat) (f : Residence → Residence) : (d.modRes rk f).now = d.now := by
  unfold modRes; split <;> rfl
@[simp] theorem modRes_mem (d : Device) (rk : Nat) (f : Residence → Residence) : (d.modRes rk f).mem = d.mem := by
  unfold modRes; split <;> rfl
@[simp] theorem modRes_memBad (d : Device) (rk : Nat) (f : Residence → Residence) : (d.modRes rk f).memBad = d.memBad := by
  unfold modRes; split <;> rfl
@[simp] theorem modRes_rowTags (d : Device) (rk : Nat) (f : Residence → Residence) : (d.modRes rk f).rowTags = d.rowTags := by
  unfold modRes; split <;> rfl
@[simp] theorem modRes_vault (d : Device) (rk : Nat) (f : Residence → Residence) : (d.modRes rk f).vault = d.vault := by
  unfold modRes; split <;> rfl
@[simp] theorem modRes_vaultBad (d : Device) (rk : Nat) (f : Residence → Residence) : (d.modRes rk f).vaultBad = d.vaultBad := by
  unfold modRes; split <;> rfl
@[simp] theorem modRes_host (d : Device) (rk : Nat) (f : Residence → Residence) : (d.modRes rk f).host = d.host := by
  unfold modRes; split <;> rfl
@[simp] theorem modRes_cores (d : Device) (rk : Nat) (f : Residence → Residence) : (d.modRes rk f).cores = d.cores := by
  unfold modRes; split <;> rfl
@[simp] theorem modRes_banks (d : Device) (rk : Nat) (f : Residence → Residence) : (d.modRes rk f).banks = d.banks := by
  unfold modRes; split <;> rfl
@[simp] theorem modRes_gangs (d : Device) (rk : Nat) (f : Residence → Residence) : (d.modRes rk f).gangs = d.gangs := by
  unfold modRes; split <;> rfl
@[simp] theorem modRes_harts (d : Device) (rk : Nat) (f : Residence → Residence) : (d.modRes rk f).harts = d.harts := by
  unfold modRes; split <;> rfl
@[simp] theorem modRes_lines (d : Device) (rk : Nat) (f : Residence → Residence) : (d.modRes rk f).lines = d.lines := by
  unfold modRes; split <;> rfl
@[simp] theorem modRes_proxies (d : Device) (rk : Nat) (f : Residence → Residence) : (d.modRes rk f).proxies = d.proxies := by
  unfold modRes; split <;> rfl
@[simp] theorem modRes_portQ (d : Device) (rk : Nat) (f : Residence → Residence) : (d.modRes rk f).portQ = d.portQ := by
  unfold modRes; split <;> rfl
@[simp] theorem modRes_ats (d : Device) (rk : Nat) (f : Residence → Residence) : (d.modRes rk f).ats = d.ats := by
  unfold modRes; split <;> rfl
@[simp] theorem modRes_dies (d : Device) (rk : Nat) (f : Residence → Residence) : (d.modRes rk f).dies = d.dies := by
  unfold modRes; split <;> rfl
@[simp] theorem modRes_hot (d : Device) (rk : Nat) (f : Residence → Residence) : (d.modRes rk f).hot = d.hot := by
  unfold modRes; split <;> rfl
@[simp] theorem modRes_warm (d : Device) (rk : Nat) (f : Residence → Residence) : (d.modRes rk f).warm = d.warm := by
  unfold modRes; split <;> rfl
@[simp] theorem modRes_paces (d : Device) (rk : Nat) (f : Residence → Residence) : (d.modRes rk f).paces = d.paces := by
  unfold modRes; split <;> rfl
@[simp] theorem modRes_launches (d : Device) (rk : Nat) (f : Residence → Residence) : (d.modRes rk f).launches = d.launches := by
  unfold modRes; split <;> rfl
@[simp] theorem modRes_deferred (d : Device) (rk : Nat) (f : Residence → Residence) : (d.modRes rk f).deferred = d.deferred := by
  unfold modRes; split <;> rfl
@[simp] theorem modRes_nextSeq (d : Device) (rk : Nat) (f : Residence → Residence) : (d.modRes rk f).nextSeq = d.nextSeq := by
  unfold modRes; split <;> rfl
@[simp] theorem modRes_queues (d : Device) (rk : Nat) (f : Residence → Residence) : (d.modRes rk f).queues = d.queues := by
  unfold modRes; split <;> rfl
@[simp] theorem modRes_journal (d : Device) (rk : Nat) (f : Residence → Residence) : (d.modRes rk f).journal = d.journal := by
  unfold modRes; split <;> rfl
@[simp] theorem modRes_faultLog (d : Device) (rk : Nat) (f : Residence → Residence) : (d.modRes rk f).faultLog = d.faultLog := by
  unfold modRes; split <;> rfl
@[simp] theorem modRes_faultSeq (d : Device) (rk : Nat) (f : Residence → Residence) : (d.modRes rk f).faultSeq = d.faultSeq := by
  unfold modRes; split <;> rfl
@[simp] theorem modRes_faults (d : Device) (rk : Nat) (f : Residence → Residence) : (d.modRes rk f).faults = d.faults := by
  unfold modRes; split <;> rfl
@[simp] theorem modRes_regs (d : Device) (rk : Nat) (f : Residence → Residence) : (d.modRes rk f).regs = d.regs := by
  unfold modRes; split <;> rfl
@[simp] theorem modRes_fabric (d : Device) (rk : Nat) (f : Residence → Residence) : (d.modRes rk f).fabric = d.fabric := by
  unfold modRes; split <;> rfl
@[simp] theorem modRes_power (d : Device) (rk : Nat) (f : Residence → Residence) : (d.modRes rk f).power = d.power := by
  unfold modRes; split <;> rfl
@[simp] theorem modRes_svc (d : Device) (rk : Nat) (f : Residence → Residence) : (d.modRes rk f).svc = d.svc := by
  unfold modRes; split <;> rfl
@[simp] theorem modRes_trained (d : Device) (rk : Nat) (f : Residence → Residence) : (d.modRes rk f).trained = d.trained := by
  unfold modRes; split <;> rfl
@[simp] theorem modRes_turn (d : Device) (rk : Nat) (f : Residence → Residence) : (d.modRes rk f).turn = d.turn := by
  unfold modRes; split <;> rfl
@[simp] theorem modRes_atsInv (d : Device) (rk : Nat) (f : Residence → Residence) : (d.modRes rk f).atsInv = d.atsInv := by
  unfold modRes; split <;> rfl
@[simp] theorem modRes_atsDone (d : Device) (rk : Nat) (f : Residence → Residence) : (d.modRes rk f).atsDone = d.atsDone := by
  unfold modRes; split <;> rfl
@[simp] theorem modRes_dieLast (d : Device) (rk : Nat) (f : Residence → Residence) : (d.modRes rk f).dieLast = d.dieLast := by
  unfold modRes; split <;> rfl
@[simp] theorem modRes_served (d : Device) (rk : Nat) (f : Residence → Residence) : (d.modRes rk f).served = d.served := by
  unfold modRes; split <;> rfl

@[simp] theorem modGang_now (d : Device) (rk b : Nat) (f : Gang → Gang) : (d.modGang rk b f).now = d.now := by
  unfold modGang; split <;> rfl
@[simp] theorem modGang_mem (d : Device) (rk b : Nat) (f : Gang → Gang) : (d.modGang rk b f).mem = d.mem := by
  unfold modGang; split <;> rfl
@[simp] theorem modGang_memBad (d : Device) (rk b : Nat) (f : Gang → Gang) : (d.modGang rk b f).memBad = d.memBad := by
  unfold modGang; split <;> rfl
@[simp] theorem modGang_rowTags (d : Device) (rk b : Nat) (f : Gang → Gang) : (d.modGang rk b f).rowTags = d.rowTags := by
  unfold modGang; split <;> rfl
@[simp] theorem modGang_vault (d : Device) (rk b : Nat) (f : Gang → Gang) : (d.modGang rk b f).vault = d.vault := by
  unfold modGang; split <;> rfl
@[simp] theorem modGang_vaultBad (d : Device) (rk b : Nat) (f : Gang → Gang) : (d.modGang rk b f).vaultBad = d.vaultBad := by
  unfold modGang; split <;> rfl
@[simp] theorem modGang_host (d : Device) (rk b : Nat) (f : Gang → Gang) : (d.modGang rk b f).host = d.host := by
  unfold modGang; split <;> rfl
@[simp] theorem modGang_cores (d : Device) (rk b : Nat) (f : Gang → Gang) : (d.modGang rk b f).cores = d.cores := by
  unfold modGang; split <;> rfl
@[simp] theorem modGang_banks (d : Device) (rk b : Nat) (f : Gang → Gang) : (d.modGang rk b f).banks = d.banks := by
  unfold modGang; split <;> rfl
@[simp] theorem modGang_ress (d : Device) (rk b : Nat) (f : Gang → Gang) : (d.modGang rk b f).ress = d.ress := by
  unfold modGang; split <;> rfl
@[simp] theorem modGang_harts (d : Device) (rk b : Nat) (f : Gang → Gang) : (d.modGang rk b f).harts = d.harts := by
  unfold modGang; split <;> rfl
@[simp] theorem modGang_lines (d : Device) (rk b : Nat) (f : Gang → Gang) : (d.modGang rk b f).lines = d.lines := by
  unfold modGang; split <;> rfl
@[simp] theorem modGang_proxies (d : Device) (rk b : Nat) (f : Gang → Gang) : (d.modGang rk b f).proxies = d.proxies := by
  unfold modGang; split <;> rfl
@[simp] theorem modGang_portQ (d : Device) (rk b : Nat) (f : Gang → Gang) : (d.modGang rk b f).portQ = d.portQ := by
  unfold modGang; split <;> rfl
@[simp] theorem modGang_ats (d : Device) (rk b : Nat) (f : Gang → Gang) : (d.modGang rk b f).ats = d.ats := by
  unfold modGang; split <;> rfl
@[simp] theorem modGang_dies (d : Device) (rk b : Nat) (f : Gang → Gang) : (d.modGang rk b f).dies = d.dies := by
  unfold modGang; split <;> rfl
@[simp] theorem modGang_hot (d : Device) (rk b : Nat) (f : Gang → Gang) : (d.modGang rk b f).hot = d.hot := by
  unfold modGang; split <;> rfl
@[simp] theorem modGang_warm (d : Device) (rk b : Nat) (f : Gang → Gang) : (d.modGang rk b f).warm = d.warm := by
  unfold modGang; split <;> rfl
@[simp] theorem modGang_paces (d : Device) (rk b : Nat) (f : Gang → Gang) : (d.modGang rk b f).paces = d.paces := by
  unfold modGang; split <;> rfl
@[simp] theorem modGang_launches (d : Device) (rk b : Nat) (f : Gang → Gang) : (d.modGang rk b f).launches = d.launches := by
  unfold modGang; split <;> rfl
@[simp] theorem modGang_deferred (d : Device) (rk b : Nat) (f : Gang → Gang) : (d.modGang rk b f).deferred = d.deferred := by
  unfold modGang; split <;> rfl
@[simp] theorem modGang_nextSeq (d : Device) (rk b : Nat) (f : Gang → Gang) : (d.modGang rk b f).nextSeq = d.nextSeq := by
  unfold modGang; split <;> rfl
@[simp] theorem modGang_queues (d : Device) (rk b : Nat) (f : Gang → Gang) : (d.modGang rk b f).queues = d.queues := by
  unfold modGang; split <;> rfl
@[simp] theorem modGang_journal (d : Device) (rk b : Nat) (f : Gang → Gang) : (d.modGang rk b f).journal = d.journal := by
  unfold modGang; split <;> rfl
@[simp] theorem modGang_faultLog (d : Device) (rk b : Nat) (f : Gang → Gang) : (d.modGang rk b f).faultLog = d.faultLog := by
  unfold modGang; split <;> rfl
@[simp] theorem modGang_faultSeq (d : Device) (rk b : Nat) (f : Gang → Gang) : (d.modGang rk b f).faultSeq = d.faultSeq := by
  unfold modGang; split <;> rfl
@[simp] theorem modGang_faults (d : Device) (rk b : Nat) (f : Gang → Gang) : (d.modGang rk b f).faults = d.faults := by
  unfold modGang; split <;> rfl
@[simp] theorem modGang_regs (d : Device) (rk b : Nat) (f : Gang → Gang) : (d.modGang rk b f).regs = d.regs := by
  unfold modGang; split <;> rfl
@[simp] theorem modGang_fabric (d : Device) (rk b : Nat) (f : Gang → Gang) : (d.modGang rk b f).fabric = d.fabric := by
  unfold modGang; split <;> rfl
@[simp] theorem modGang_power (d : Device) (rk b : Nat) (f : Gang → Gang) : (d.modGang rk b f).power = d.power := by
  unfold modGang; split <;> rfl
@[simp] theorem modGang_svc (d : Device) (rk b : Nat) (f : Gang → Gang) : (d.modGang rk b f).svc = d.svc := by
  unfold modGang; split <;> rfl
@[simp] theorem modGang_trained (d : Device) (rk b : Nat) (f : Gang → Gang) : (d.modGang rk b f).trained = d.trained := by
  unfold modGang; split <;> rfl
@[simp] theorem modGang_turn (d : Device) (rk b : Nat) (f : Gang → Gang) : (d.modGang rk b f).turn = d.turn := by
  unfold modGang; split <;> rfl
@[simp] theorem modGang_atsInv (d : Device) (rk b : Nat) (f : Gang → Gang) : (d.modGang rk b f).atsInv = d.atsInv := by
  unfold modGang; split <;> rfl
@[simp] theorem modGang_atsDone (d : Device) (rk b : Nat) (f : Gang → Gang) : (d.modGang rk b f).atsDone = d.atsDone := by
  unfold modGang; split <;> rfl
@[simp] theorem modGang_dieLast (d : Device) (rk b : Nat) (f : Gang → Gang) : (d.modGang rk b f).dieLast = d.dieLast := by
  unfold modGang; split <;> rfl
@[simp] theorem modGang_served (d : Device) (rk b : Nat) (f : Gang → Gang) : (d.modGang rk b f).served = d.served := by
  unfold modGang; split <;> rfl

theorem wdExpire_frame (l : List (Nat × Residence)) (d : Device) :
    l.foldl wdExpire d = { d with gangs := (l.foldl wdExpire d).gangs } := by
  induction l generalizing d with
  | nil => rfl
  | cons p l ih => rw [List.foldl_cons, ih]; rfl
/-- A ck changes the clock, the counts of the residences, and the watchdog traps of their gangs (R379). -/
theorem tick_frame (d : Device) : d.tick = { d with now := d.now + 1, ress := d.tick.ress, gangs := d.tick.gangs } := by
  unfold tick elapse
  rw [wdExpire_frame]
@[simp] theorem tick_mem (d : Device) : d.tick.mem = d.mem := by rw [tick_frame]
@[simp] theorem tick_memBad (d : Device) : d.tick.memBad = d.memBad := by rw [tick_frame]
@[simp] theorem tick_rowTags (d : Device) : d.tick.rowTags = d.rowTags := by rw [tick_frame]
@[simp] theorem tick_vault (d : Device) : d.tick.vault = d.vault := by rw [tick_frame]
@[simp] theorem tick_vaultBad (d : Device) : d.tick.vaultBad = d.vaultBad := by rw [tick_frame]
@[simp] theorem tick_host (d : Device) : d.tick.host = d.host := by rw [tick_frame]
@[simp] theorem tick_cores (d : Device) : d.tick.cores = d.cores := by rw [tick_frame]
@[simp] theorem tick_banks (d : Device) : d.tick.banks = d.banks := by rw [tick_frame]
@[simp] theorem tick_harts (d : Device) : d.tick.harts = d.harts := by rw [tick_frame]
@[simp] theorem tick_lines (d : Device) : d.tick.lines = d.lines := by rw [tick_frame]
@[simp] theorem tick_proxies (d : Device) : d.tick.proxies = d.proxies := by rw [tick_frame]
@[simp] theorem tick_portQ (d : Device) : d.tick.portQ = d.portQ := by rw [tick_frame]
@[simp] theorem tick_ats (d : Device) : d.tick.ats = d.ats := by rw [tick_frame]
@[simp] theorem tick_dies (d : Device) : d.tick.dies = d.dies := by rw [tick_frame]
@[simp] theorem tick_hot (d : Device) : d.tick.hot = d.hot := by rw [tick_frame]
@[simp] theorem tick_warm (d : Device) : d.tick.warm = d.warm := by rw [tick_frame]
@[simp] theorem tick_paces (d : Device) : d.tick.paces = d.paces := by rw [tick_frame]
@[simp] theorem tick_launches (d : Device) : d.tick.launches = d.launches := by rw [tick_frame]
@[simp] theorem tick_deferred (d : Device) : d.tick.deferred = d.deferred := by rw [tick_frame]
@[simp] theorem tick_nextSeq (d : Device) : d.tick.nextSeq = d.nextSeq := by rw [tick_frame]
@[simp] theorem tick_queues (d : Device) : d.tick.queues = d.queues := by rw [tick_frame]
@[simp] theorem tick_journal (d : Device) : d.tick.journal = d.journal := by rw [tick_frame]
@[simp] theorem tick_faultLog (d : Device) : d.tick.faultLog = d.faultLog := by rw [tick_frame]
@[simp] theorem tick_faultSeq (d : Device) : d.tick.faultSeq = d.faultSeq := by rw [tick_frame]
@[simp] theorem tick_faults (d : Device) : d.tick.faults = d.faults := by rw [tick_frame]
@[simp] theorem tick_regs (d : Device) : d.tick.regs = d.regs := by rw [tick_frame]
@[simp] theorem tick_fabric (d : Device) : d.tick.fabric = d.fabric := by rw [tick_frame]
@[simp] theorem tick_power (d : Device) : d.tick.power = d.power := by rw [tick_frame]
@[simp] theorem tick_svc (d : Device) : d.tick.svc = d.svc := by rw [tick_frame]
@[simp] theorem tick_trained (d : Device) : d.tick.trained = d.trained := by rw [tick_frame]
@[simp] theorem tick_turn (d : Device) : d.tick.turn = d.turn := by rw [tick_frame]
@[simp] theorem tick_atsInv (d : Device) : d.tick.atsInv = d.atsInv := by rw [tick_frame]
@[simp] theorem tick_atsDone (d : Device) : d.tick.atsDone = d.atsDone := by rw [tick_frame]
@[simp] theorem tick_dieLast (d : Device) : d.tick.dieLast = d.dieLast := by rw [tick_frame]
@[simp] theorem tick_served (d : Device) : d.tick.served = d.served := by rw [tick_frame]
@[simp] theorem tick_now (d : Device) : d.tick.now = d.now + 1 := by rw [tick_frame]

/-! ### What an accessor of another table reads -/

@[simp] theorem setCore_bank (d : Device) (c : Nat) (x : Core) (c' b' : Nat) : (d.setCore c x).bank c' b' = d.bank c' b' := rfl
@[simp] theorem setCore_res (d : Device) (c : Nat) (x : Core) (rk' : Nat) : (d.setCore c x).res? rk' = d.res? rk' := rfl
@[simp] theorem setCore_gang (d : Device) (c : Nat) (x : Core) (rk' b' : Nat) : (d.setCore c x).gang? rk' b' = d.gang? rk' b' := rfl
@[simp] theorem setCore_hart (d : Device) (c : Nat) (x : Core) (rk' h' : Nat) : (d.setCore c x).hart rk' h' = d.hart rk' h' := rfl
@[simp] theorem setCore_launch (d : Device) (c : Nat) (x : Core) (q' : Nat) : (d.setCore c x).launch? q' = d.launch? q' := rfl

@[simp] theorem setBank_core (d : Device) (c b : Nat) (x : Bank) (c' : Nat) : (d.setBank c b x).core c' = d.core c' := rfl
@[simp] theorem setBank_res (d : Device) (c b : Nat) (x : Bank) (rk' : Nat) : (d.setBank c b x).res? rk' = d.res? rk' := rfl
@[simp] theorem setBank_gang (d : Device) (c b : Nat) (x : Bank) (rk' b' : Nat) : (d.setBank c b x).gang? rk' b' = d.gang? rk' b' := rfl
@[simp] theorem setBank_hart (d : Device) (c b : Nat) (x : Bank) (rk' h' : Nat) : (d.setBank c b x).hart rk' h' = d.hart rk' h' := rfl
@[simp] theorem setBank_launch (d : Device) (c b : Nat) (x : Bank) (q' : Nat) : (d.setBank c b x).launch? q' = d.launch? q' := rfl

@[simp] theorem setRes_core (d : Device) (rk : Nat) (x : Residence) (c' : Nat) : (d.setRes rk x).core c' = d.core c' := rfl
@[simp] theorem setRes_bank (d : Device) (rk : Nat) (x : Residence) (c' b' : Nat) : (d.setRes rk x).bank c' b' = d.bank c' b' := rfl
@[simp] theorem setRes_gang (d : Device) (rk : Nat) (x : Residence) (rk' b' : Nat) : (d.setRes rk x).gang? rk' b' = d.gang? rk' b' := rfl
@[simp] theorem setRes_hart (d : Device) (rk : Nat) (x : Residence) (rk' h' : Nat) : (d.setRes rk x).hart rk' h' = d.hart rk' h' := rfl
@[simp] theorem setRes_launch (d : Device) (rk : Nat) (x : Residence) (q' : Nat) : (d.setRes rk x).launch? q' = d.launch? q' := rfl

@[simp] theorem setGang_core (d : Device) (rk b : Nat) (x : Gang) (c' : Nat) : (d.setGang rk b x).core c' = d.core c' := rfl
@[simp] theorem setGang_bank (d : Device) (rk b : Nat) (x : Gang) (c' b' : Nat) : (d.setGang rk b x).bank c' b' = d.bank c' b' := rfl
@[simp] theorem setGang_res (d : Device) (rk b : Nat) (x : Gang) (rk' : Nat) : (d.setGang rk b x).res? rk' = d.res? rk' := rfl
@[simp] theorem setGang_hart (d : Device) (rk b : Nat) (x : Gang) (rk' h' : Nat) : (d.setGang rk b x).hart rk' h' = d.hart rk' h' := rfl
@[simp] theorem setGang_launch (d : Device) (rk b : Nat) (x : Gang) (q' : Nat) : (d.setGang rk b x).launch? q' = d.launch? q' := rfl

@[simp] theorem setHart_core (d : Device) (rk h : Nat) (x : Hart) (c' : Nat) : (d.setHart rk h x).core c' = d.core c' := rfl
@[simp] theorem setHart_bank (d : Device) (rk h : Nat) (x : Hart) (c' b' : Nat) : (d.setHart rk h x).bank c' b' = d.bank c' b' := rfl
@[simp] theorem setHart_res (d : Device) (rk h : Nat) (x : Hart) (rk' : Nat) : (d.setHart rk h x).res? rk' = d.res? rk' := rfl
@[simp] theorem setHart_gang (d : Device) (rk h : Nat) (x : Hart) (rk' b' : Nat) : (d.setHart rk h x).gang? rk' b' = d.gang? rk' b' := rfl
@[simp] theorem setHart_launch (d : Device) (rk h : Nat) (x : Hart) (q' : Nat) : (d.setHart rk h x).launch? q' = d.launch? q' := rfl

@[simp] theorem modHart_core (d : Device) (rk h : Nat) (f : Hart → Hart) (c' : Nat) : (d.modHart rk h f).core c' = d.core c' := rfl
@[simp] theorem modHart_bank (d : Device) (rk h : Nat) (f : Hart → Hart) (c' b' : Nat) : (d.modHart rk h f).bank c' b' = d.bank c' b' := rfl
@[simp] theorem modHart_res (d : Device) (rk h : Nat) (f : Hart → Hart) (rk' : Nat) : (d.modHart rk h f).res? rk' = d.res? rk' := rfl
@[simp] theorem modHart_gang (d : Device) (rk h : Nat) (f : Hart → Hart) (rk' b' : Nat) : (d.modHart rk h f).gang? rk' b' = d.gang? rk' b' := rfl
@[simp] theorem modHart_launch (d : Device) (rk h : Nat) (f : Hart → Hart) (q' : Nat) : (d.modHart rk h f).launch? q' = d.launch? q' := rfl

@[simp] theorem modCore_bank (d : Device) (c : Nat) (f : Core → Core) (c' b' : Nat) : (d.modCore c f).bank c' b' = d.bank c' b' := rfl
@[simp] theorem modCore_res (d : Device) (c : Nat) (f : Core → Core) (rk' : Nat) : (d.modCore c f).res? rk' = d.res? rk' := rfl
@[simp] theorem modCore_gang (d : Device) (c : Nat) (f : Core → Core) (rk' b' : Nat) : (d.modCore c f).gang? rk' b' = d.gang? rk' b' := rfl
@[simp] theorem modCore_hart (d : Device) (c : Nat) (f : Core → Core) (rk' h' : Nat) : (d.modCore c f).hart rk' h' = d.hart rk' h' := rfl
@[simp] theorem modCore_launch (d : Device) (c : Nat) (f : Core → Core) (q' : Nat) : (d.modCore c f).launch? q' = d.launch? q' := rfl

@[simp] theorem modBank_core (d : Device) (c b : Nat) (f : Bank → Bank) (c' : Nat) : (d.modBank c b f).core c' = d.core c' := rfl
@[simp] theorem modBank_res (d : Device) (c b : Nat) (f : Bank → Bank) (rk' : Nat) : (d.modBank c b f).res? rk' = d.res? rk' := rfl
@[simp] theorem modBank_gang (d : Device) (c b : Nat) (f : Bank → Bank) (rk' b' : Nat) : (d.modBank c b f).gang? rk' b' = d.gang? rk' b' := rfl
@[simp] theorem modBank_hart (d : Device) (c b : Nat) (f : Bank → Bank) (rk' h' : Nat) : (d.modBank c b f).hart rk' h' = d.hart rk' h' := rfl
@[simp] theorem modBank_launch (d : Device) (c b : Nat) (f : Bank → Bank) (q' : Nat) : (d.modBank c b f).launch? q' = d.launch? q' := rfl

@[simp] theorem modGroup_core (d : Device) (c b : Nat) (g : Lat) (f : Group → Group) (c' : Nat) : (d.modGroup c b g f).core c' = d.core c' := rfl
@[simp] theorem modGroup_res (d : Device) (c b : Nat) (g : Lat) (f : Group → Group) (rk' : Nat) : (d.modGroup c b g f).res? rk' = d.res? rk' := rfl
@[simp] theorem modGroup_gang (d : Device) (c b : Nat) (g : Lat) (f : Group → Group) (rk' b' : Nat) : (d.modGroup c b g f).gang? rk' b' = d.gang? rk' b' := rfl
@[simp] theorem modGroup_hart (d : Device) (c b : Nat) (g : Lat) (f : Group → Group) (rk' h' : Nat) : (d.modGroup c b g f).hart rk' h' = d.hart rk' h' := rfl
@[simp] theorem modGroup_launch (d : Device) (c b : Nat) (g : Lat) (f : Group → Group) (q' : Nat) : (d.modGroup c b g f).launch? q' = d.launch? q' := rfl

@[simp] theorem modRes_core (d : Device) (rk : Nat) (f : Residence → Residence) (c' : Nat) : (d.modRes rk f).core c' = d.core c' := by
  unfold modRes; split <;> rfl
@[simp] theorem modRes_bank (d : Device) (rk : Nat) (f : Residence → Residence) (c' b' : Nat) : (d.modRes rk f).bank c' b' = d.bank c' b' := by
  unfold modRes; split <;> rfl
@[simp] theorem modRes_gang (d : Device) (rk : Nat) (f : Residence → Residence) (rk' b' : Nat) : (d.modRes rk f).gang? rk' b' = d.gang? rk' b' := by
  unfold modRes; split <;> rfl
@[simp] theorem modRes_hart (d : Device) (rk : Nat) (f : Residence → Residence) (rk' h' : Nat) : (d.modRes rk f).hart rk' h' = d.hart rk' h' := by
  unfold modRes; split <;> rfl
@[simp] theorem modRes_launch (d : Device) (rk : Nat) (f : Residence → Residence) (q' : Nat) : (d.modRes rk f).launch? q' = d.launch? q' := by
  unfold modRes; split <;> rfl

@[simp] theorem modGang_core (d : Device) (rk b : Nat) (f : Gang → Gang) (c' : Nat) : (d.modGang rk b f).core c' = d.core c' := by
  unfold modGang; split <;> rfl
@[simp] theorem modGang_bank (d : Device) (rk b : Nat) (f : Gang → Gang) (c' b' : Nat) : (d.modGang rk b f).bank c' b' = d.bank c' b' := by
  unfold modGang; split <;> rfl
@[simp] theorem modGang_res (d : Device) (rk b : Nat) (f : Gang → Gang) (rk' : Nat) : (d.modGang rk b f).res? rk' = d.res? rk' := by
  unfold modGang; split <;> rfl
@[simp] theorem modGang_hart (d : Device) (rk b : Nat) (f : Gang → Gang) (rk' h' : Nat) : (d.modGang rk b f).hart rk' h' = d.hart rk' h' := by
  unfold modGang; split <;> rfl
@[simp] theorem modGang_launch (d : Device) (rk b : Nat) (f : Gang → Gang) (q' : Nat) : (d.modGang rk b f).launch? q' = d.launch? q' := by
  unfold modGang; split <;> rfl

/-! ### What an accessor of the same table reads -/

/-- Different banks have different keys. -/
theorem hartKey_inj {rk h rk' h' : Nat} (a : h < 16) (b : h' < 16) (e : hartKey rk h = hartKey rk' h') : rk = rk' ∧ h = h' := by
  unfold hartKey at e; omega
/-- Different banks have different keys. -/
theorem bankKey_inj {c b c' b' : Nat} (x : b < 16) (y : b' < 16) (e : bankKey c b = bankKey c' b') : c = c' ∧ b = b' := by
  unfold bankKey at e; omega

@[simp] theorem setHart_hart_same (d : Device) (rk h : Nat) (x : Hart) : (d.setHart rk h x).hart rk h = x := by
  simp [hart, setHart, lookupD]
theorem setHart_hart (d : Device) {rk h rk' h' : Nat} (a : h < 16) (b : h' < 16) (x : Hart) :
    (d.setHart rk h x).hart rk' h' = if rk' = rk ∧ h' = h then x else d.hart rk' h' := by
  simp only [hart, setHart, lookupD_insertK]
  by_cases e : hartKey rk' h' = hartKey rk h
  · obtain ⟨rfl, rfl⟩ := hartKey_inj b a e; simp
  · rw [if_neg e, if_neg]; rintro ⟨rfl, rfl⟩; exact e rfl
@[simp] theorem modHart_hart_same (d : Device) (rk h : Nat) (f : Hart → Hart) :
    (d.modHart rk h f).hart rk h = f (d.hart rk h) := by simp [modHart]
theorem modHart_hart (d : Device) {rk h rk' h' : Nat} (a : h < 16) (b : h' < 16) (f : Hart → Hart) :
    (d.modHart rk h f).hart rk' h' = if rk' = rk ∧ h' = h then f (d.hart rk' h') else d.hart rk' h' := by
  rw [modHart, setHart_hart d a b]
  split
  · next e => obtain ⟨rfl, rfl⟩ := e; rfl
  · rfl
@[simp] theorem setGang_gang_same (d : Device) (rk b : Nat) (x : Gang) : (d.setGang rk b x).gang? rk b = some x := by
  simp [gang?, setGang]
@[simp] theorem modGang_gang_same (d : Device) (rk b : Nat) (f : Gang → Gang) :
    (d.modGang rk b f).gang? rk b = (d.gang? rk b).map f := by
  unfold modGang; split
  · next x h => simp [h]
  · next h => simp [h]
@[simp] theorem setRes_res_same (d : Device) (rk : Nat) (x : Residence) : (d.setRes rk x).res? rk = some x := by
  simp [res?, setRes]
@[simp] theorem modRes_res_same (d : Device) (rk : Nat) (f : Residence → Residence) :
    (d.modRes rk f).res? rk = (d.res? rk).map f := by
  unfold modRes; split
  · next x h => simp [h]
  · next h => simp [h]
@[simp] theorem setCore_core_same (d : Device) (c : Nat) (x : Core) : (d.setCore c x).core c = x := by
  simp [core, setCore, lookupD]
theorem setCore_core_ne (d : Device) {c c' : Nat} (x : Core) (h : c' ≠ c) : (d.setCore c x).core c' = d.core c' := by
  simp [core, setCore, lookupD_insertK, h]
@[simp] theorem modCore_core_same (d : Device) (c : Nat) (f : Core → Core) : (d.modCore c f).core c = f (d.core c) := by
  simp [modCore]
@[simp] theorem setBank_bank_same (d : Device) (c b : Nat) (x : Bank) : (d.setBank c b x).bank c b = x := by
  simp [bank, setBank, lookupD]
theorem setBank_bank (d : Device) {c b c' b' : Nat} (x : b < 16) (y : b' < 16) (k : Bank) :
    (d.setBank c b k).bank c' b' = if c' = c ∧ b' = b then k else d.bank c' b' := by
  simp only [bank, setBank, lookupD_insertK]
  by_cases e : bankKey c' b' = bankKey c b
  · obtain ⟨rfl, rfl⟩ := bankKey_inj y x e; simp
  · rw [if_neg e, if_neg]
    · rfl
    · rintro ⟨rfl, rfl⟩; exact e rfl
@[simp] theorem modBank_bank_same (d : Device) (c b : Nat) (f : Bank → Bank) :
    (d.modBank c b f).bank c b = f (d.bank c b) := by simp [modBank]
@[simp] theorem modGroup_group_same (d : Device) (c b : Nat) (g : Lat) (f : Group → Group) :
    (d.modGroup c b g f).group c b g = f (d.group c b g) := by
  simp [group, modGroup]
theorem modGroup_group_ne (d : Device) (c b : Nat) {g g' : Lat} (f : Group → Group) (h : g' ≠ g) :
    (d.modGroup c b g f).group c b g' = d.group c b g' := by
  have : ¬ g.val = g'.val := fun e => h (Fin.ext e.symm)
  simp [group, modGroup, this]

end Device

/-! ### Updates of the state -/

namespace State

@[simp] theorem modDev_dev (s : State) (f : Device → Device) : (s.modDev f).dev = f s.dev := rfl
@[simp] theorem modDev_iss (s : State) (f : Device → Device) : (s.modDev f).iss = s.iss := rfl
@[simp] theorem modDev_agenda (s : State) (f : Device → Device) : (s.modDev f).agenda = s.agenda := rfl
@[simp] theorem modHart_dev (s : State) (h : Nat) (f : Hart → Hart) : (s.modHart h f).dev = s.dev.modHart s.rk h f := rfl
@[simp] theorem modHart_iss (s : State) (h : Nat) (f : Hart → Hart) : (s.modHart h f).iss = s.iss := rfl
@[simp] theorem modHart_agenda (s : State) (h : Nat) (f : Hart → Hart) : (s.modHart h f).agenda = s.agenda := rfl
@[simp] theorem modGang_iss (s : State) (f : Gang → Gang) : (s.modGang f).iss = s.iss := rfl
@[simp] theorem modGang_agenda (s : State) (f : Gang → Gang) : (s.modGang f).agenda = s.agenda := rfl
@[simp] theorem modDev_rk (s : State) (f : Device → Device) : (s.modDev f).rk = s.rk := rfl
@[simp] theorem modHart_rk (s : State) (h : Nat) (f : Hart → Hart) : (s.modHart h f).rk = s.rk := rfl
@[simp] theorem modHart_gang (s : State) (h : Nat) (f : Hart → Hart) : (s.modHart h f).gang = s.gang := rfl
@[simp] theorem modHart_res (s : State) (h : Nat) (f : Hart → Hart) : (s.modHart h f).res? = s.res? := rfl
@[simp] theorem modHart_rollback (s : State) (h : Nat) (f : Hart → Hart) (u : Device) (e : s.iss.undo = some u) :
    (s.modHart h f).rollback = s.rollback := by simp [rollback, e]
@[simp] theorem modHart_latch (s : State) (h : Nat) (f : Hart → Hart) (b : Nat) (g : Lat) :
    (s.modHart h f).latch b g = s.latch b g := rfl
@[simp] theorem addFail_dev (s : State) (h : Nat) (f : Fail) : (s.addFail h f).dev = s.dev := by
  unfold addFail; split <;> rfl
@[simp] theorem addFail_agenda (s : State) (h : Nat) (f : Fail) : (s.addFail h f).agenda = s.agenda := by
  unfold addFail; split <;> rfl
@[simp] theorem holdOn_dev (s : State) (w : WaitOn) : (s.holdOn w).dev = s.dev := by
  unfold holdOn; split <;> rfl
@[simp] theorem holdOn_agenda (s : State) (w : WaitOn) : (s.holdOn w).agenda = s.agenda := by
  unfold holdOn; split <;> rfl
@[simp] theorem goto_dev (s : State) (a : Word) : (s.goto a).dev = s.dev := rfl
@[simp] theorem goto_target (s : State) (a : Word) : (s.goto a).iss.target = some a := rfl

/-- What a hart is after a hart of the context was changed. -/
theorem modHart_hart (s : State) {h k : Nat} (a : h < 16) (b : k < 16) (f : Hart → Hart) :
    (s.modHart h f).hart k = if k = h then f (s.hart k) else s.hart k := by
  unfold hart
  rw [modHart_dev, modHart_rk, Device.modHart_hart _ a b]
  simp
@[simp] theorem modHart_hart_same (s : State) (h : Nat) (f : Hart → Hart) : (s.modHart h f).hart h = f (s.hart h) := by
  unfold hart; simp
/-- A hart changed twice. -/
theorem modHart_modHart (s : State) (h : Nat) (f g : Hart → Hart) :
    (s.modHart h f).modHart h g = s.modHart h fun t => g (f t) := by
  unfold modHart modDev
  simp only [Device.modHart, Device.setHart, Device.hart]
  have e : ∀ x l, lookupD ({} : Hart) (hartKey s.rk h) (insertK (hartKey s.rk h) x l) = x := by
    intro x l; simp [lookupD]
  have r : ∀ d : Device, ({ s with dev := d } : State).rk = s.rk := fun _ => rfl
  simp only [r, e, insertK_insertK]

end State

/-! ### Registers of a hart -/

namespace Hart

/-- A register written by a word of the convoy reads as written; `x0` and `p0` read as they always do (R23, R32). -/
theorem get_put (t : Hart) (r q : Reg) (v : Word) (lat : Option Nat) :
    (t.put r v lat).get q = if q = r ∧ r.fixed = false then v else t.get q := by
  by_cases hr : r.fixed = true
  · simp [put, hr]
  · have hr' : r.fixed = false := by simpa using hr
    have hl : ∀ q, (t.put r v lat).landed q = t.landed q := by
      intro q; unfold put; rw [if_neg hr]; cases q <;> rfl
    by_cases hq : q = r
    · subst hq
      unfold get
      rw [if_neg hr]
      have : (t.put q v lat).conv = { reg := q, val := v, lat := lat } :: t.conv := by unfold put; rw [if_neg hr]
      rw [this]; simp [hr']
    · unfold get
      rw [hl]
      have : (t.put r v lat).conv = { reg := r, val := v, lat := lat } :: t.conv := by unfold put; rw [if_neg hr]
      rw [this]
      have hne : ¬ r = q := fun e => hq e.symm
      simp [hq, hne]
/-- The constant register `x0`. -/
@[simp] theorem get_x0 (t : Hart) : t.get (.x 0) = 0 := by simp [get, Reg.fixed, landed]
/-- The constant predicate `p0`. -/
@[simp] theorem get_p0 (t : Hart) : t.get (.p 0) = 1 := by simp [get, Reg.fixed, landed]
/-- `x0` as an operand. -/
@[simp] theorem getX_x0 (t : Hart) : t.getX 0 = 0 := by simp [getX]

@[simp] theorem put_x (t : Hart) (r : Reg) (v : Word) (lat : Option Nat) : (t.put r v lat).x = t.x := by
  unfold put; split <;> rfl
@[simp] theorem put_p (t : Hart) (r : Reg) (v : Word) (lat : Option Nat) : (t.put r v lat).p = t.p := by
  unfold put; split <;> rfl
@[simp] theorem put_due (t : Hart) (r : Reg) (v : Word) (lat : Option Nat) : (t.put r v lat).due = t.due := by
  unfold put; split <;> rfl
@[simp] theorem put_vl (t : Hart) (r : Reg) (v : Word) (lat : Option Nat) : (t.put r v lat).vl = t.vl := by
  unfold put; split <;> rfl
@[simp] theorem put_vt (t : Hart) (r : Reg) (v : Word) (lat : Option Nat) : (t.put r v lat).vt = t.vt := by
  unfold put; split <;> rfl
@[simp] theorem put_masks (t : Hart) (r : Reg) (v : Word) (lat : Option Nat) : (t.put r v lat).masks = t.masks := by
  unfold put; split <;> rfl
@[simp] theorem put_rc (t : Hart) (r : Reg) (v : Word) (lat : Option Nat) : (t.put r v lat).rc = t.rc := by
  unfold put; split <;> rfl
@[simp] theorem put_ei (t : Hart) (r : Reg) (v : Word) (lat : Option Nat) : (t.put r v lat).ei = t.ei := by
  unfold put; split <;> rfl
@[simp] theorem put_tm (t : Hart) (r : Reg) (v : Word) (lat : Option Nat) : (t.put r v lat).tm = t.tm := by
  unfold put; split <;> rfl
@[simp] theorem put_tn (t : Hart) (r : Reg) (v : Word) (lat : Option Nat) : (t.put r v lat).tn = t.tn := by
  unfold put; split <;> rfl
@[simp] theorem put_schk (t : Hart) (r : Reg) (v : Word) (lat : Option Nat) : (t.put r v lat).schk = t.schk := by
  unfold put; split <;> rfl
@[simp] theorem put_fpc (t : Hart) (r : Reg) (v : Word) (lat : Option Nat) : (t.put r v lat).fpc = t.fpc := by
  unfold put; split <;> rfl
@[simp] theorem put_fps (t : Hart) (r : Reg) (v : Word) (lat : Option Nat) : (t.put r v lat).fps = t.fps := by
  unfold put; split <;> rfl
@[simp] theorem put_refm (t : Hart) (r : Reg) (v : Word) (lat : Option Nat) : (t.put r v lat).refm = t.refm := by
  unfold put; split <;> rfl
@[simp] theorem put_tcause (t : Hart) (r : Reg) (v : Word) (lat : Option Nat) : (t.put r v lat).tcause = t.tcause := by
  unfold put; split <;> rfl
@[simp] theorem put_tpc (t : Hart) (r : Reg) (v : Word) (lat : Option Nat) : (t.put r v lat).tpc = t.tpc := by
  unfold put; split <;> rfl
@[simp] theorem put_tval (t : Hart) (r : Reg) (v : Word) (lat : Option Nat) : (t.put r v lat).tval = t.tval := by
  unfold put; split <;> rfl
@[simp] theorem put_tscr (t : Hart) (r : Reg) (v : Word) (lat : Option Nat) : (t.put r v lat).tscr = t.tscr := by
  unfold put; split <;> rfl
@[simp] theorem put_shGm (t : Hart) (r : Reg) (v : Word) (lat : Option Nat) : (t.put r v lat).shGm = t.shGm := by
  unfold put; split <;> rfl
@[simp] theorem put_shDepth (t : Hart) (r : Reg) (v : Word) (lat : Option Nat) : (t.put r v lat).shDepth = t.shDepth := by
  unfold put; split <;> rfl
@[simp] theorem put_bars (t : Hart) (r : Reg) (v : Word) (lat : Option Nat) : (t.put r v lat).bars = t.bars := by
  unfold put; split <;> rfl
@[simp] theorem put_redOut (t : Hart) (r : Reg) (v : Word) (lat : Option Nat) : (t.put r v lat).redOut = t.redOut := by
  unfold put; split <;> rfl
@[simp] theorem put_swTraps (t : Hart) (r : Reg) (v : Word) (lat : Option Nat) : (t.put r v lat).swTraps = t.swTraps := by
  unfold put; split <;> rfl
@[simp] theorem put_refTrap (t : Hart) (r : Reg) (v : Word) (lat : Option Nat) : (t.put r v lat).refTrap = t.refTrap := by
  unfold put; split <;> rfl
@[simp] theorem put_engTraps (t : Hart) (r : Reg) (v : Word) (lat : Option Nat) : (t.put r v lat).engTraps = t.engTraps := by
  unfold put; split <;> rfl

end Hart

end Sys2Proof.Machine
end

