-- ==== Sys2Proof/Laws/Word.lean ====
section
/-! SUPPORT. What the execution of one word does: its shared checks pass when nothing is outstanding, its own part runs on the
active harts whose guard is true, and a word that writes one register changes nothing else. -/

namespace Sys2Proof.Machine

/-! ### Banks of a mask -/

theorem banksOf_lt {m : Mask16} {k : Nat} (h : k ∈ banksOf m) : k < 16 := by
  have := (List.mem_filter.mp h).1; simpa using this
theorem banksOf_nodup (m : Mask16) : (banksOf m).Nodup := List.Nodup.filter _ List.nodup_range

/-! ### The start of a convoy -/

/-- Two states that differ only in the registers of harts, in what the convoy has been charged and in the checks that have
failed. -/
def State.Near (s t : State) : Prop :=
  t.agenda = s.agenda ∧ t.iss = { s.iss with charge := t.iss.charge, sweeps := t.iss.sweeps, fails := t.iss.fails, acted := t.iss.acted, long := t.iss.long }
    ∧ t.dev = { s.dev with harts := t.dev.harts }

theorem State.Near.refl (s : State) : s.Near s := ⟨rfl, rfl, rfl⟩
theorem State.Near.trans {s t u : State} (a : s.Near t) (b : t.Near u) : s.Near u :=
  ⟨b.1.trans a.1, by rw [b.2.1, a.2.1], by rw [b.2.2, a.2.2]⟩
theorem State.near_modHart (s : State) (k : Nat) (f : Hart → Hart) : s.Near (s.modHart k f) := ⟨rfl, rfl, rfl⟩
theorem State.near_fails (s : State) (l : List (Nat × Fail)) : s.Near { s with iss := { s.iss with fails := l } } :=
  ⟨rfl, rfl, rfl⟩
theorem State.near_count (s : State) (h : Hdr) (u : Uses) (l : List Nat) : s.Near (s.count h u l) := ⟨rfl, rfl, rfl⟩

theorem State.Near.rk {s t : State} (a : s.Near t) : t.rk = s.rk := by unfold State.rk; rw [a.2.1]
theorem State.Near.gang {s t : State} (a : s.Near t) : t.gang = s.gang := by
  unfold State.gang; rw [a.rk, a.2.1, a.2.2]; rfl
theorem State.Near.res {s t : State} (a : s.Near t) : t.res? = s.res? := by
  unfold State.res?; rw [a.rk, a.2.2]; rfl
theorem State.Near.bank {s t : State} (a : s.Near t) (c b : Nat) : t.dev.bank c b = s.dev.bank c b := by rw [a.2.2]; rfl
theorem State.Near.core {s t : State} (a : s.Near t) (c : Nat) : t.dev.core c = s.dev.core c := by rw [a.2.2]; rfl
theorem State.Near.addr {s t : State} (a : s.Near t) : t.iss.addr = s.iss.addr := by rw [a.2.1]
theorem State.Near.hold {s t : State} (a : s.Near t) : t.iss.hold = s.iss.hold := by rw [a.2.1]
/-- A scalar source reads the same where the hart is the same. -/
theorem State.Near.src {s t : State} (a : s.Near t) {k : Nat} (e : t.hart k = s.hart k) (v : Src) : t.src k v = s.src k v := by
  unfold State.src; rw [e, a.2.1]

theorem foldl_modHart_frame (rk : Nat) (f : Hart → Hart) (l : List Nat) (d : Device) :
    l.foldl (fun d h => d.modHart rk h f) d = { d with harts := (l.foldl (fun d h => d.modHart rk h f) d).harts } := by
  induction l generalizing d with
  | nil => rfl
  | cons k l ih => simp only [List.foldl_cons]; rw [ih]; rfl

/-- The start of a convoy changes no table but that of the harts. -/
theorem begin_dev (s : State) (g : Gang) : (s.begin g).dev = { s.dev with harts := (s.begin g).dev.harts } := by
  unfold State.begin
  split
  · rfl
  · split
    · rfl
    · exact foldl_modHart_frame _ _ _ _
@[simp] theorem begin_core (s : State) (g : Gang) : (s.begin g).iss.core = s.iss.core := by unfold State.begin; split <;> rfl
@[simp] theorem begin_slot (s : State) (g : Gang) : (s.begin g).iss.slot = s.iss.slot := by unfold State.begin; split <;> rfl
@[simp] theorem begin_base (s : State) (g : Gang) : (s.begin g).iss.base = s.iss.base := by unfold State.begin; split <;> rfl
@[simp] theorem begin_fails (s : State) (g : Gang) : (s.begin g).iss.fails = s.iss.fails := by unfold State.begin; split <;> rfl
@[simp] theorem begin_hold (s : State) (g : Gang) : (s.begin g).iss.hold = s.iss.hold := by unfold State.begin; split <;> rfl
@[simp] theorem begin_pfx (s : State) (g : Gang) : (s.begin g).iss.pfx = s.iss.pfx := by unfold State.begin; split <;> rfl
@[simp] theorem begin_rk (s : State) (g : Gang) : (s.begin g).rk = s.rk := by simp [State.rk]
@[simp] theorem begin_gang (s : State) (g : Gang) : (s.begin g).gang = s.gang := by
  unfold State.gang; rw [begin_rk, begin_base, begin_dev]; rfl
@[simp] theorem begin_res (s : State) (g : Gang) : (s.begin g).res? = s.res? := by
  unfold State.res?; rw [begin_rk, begin_dev]; rfl
@[simp] theorem begun_rk (s : State) : s.begun.rk = s.rk := begin_rk s _
@[simp] theorem begun_gang (s : State) : s.begun.gang = s.gang := begin_gang s _
@[simp] theorem begun_core (s : State) : s.begun.iss.core = s.iss.core := begin_core s _
@[simp] theorem begun_base (s : State) : s.begun.iss.base = s.iss.base := begin_base s _
@[simp] theorem begun_fails (s : State) : s.begun.iss.fails = s.iss.fails := begin_fails s _
@[simp] theorem begun_hold (s : State) : s.begun.iss.hold = s.iss.hold := begin_hold s _
@[simp] theorem begun_pfx (s : State) : s.begun.iss.pfx = s.iss.pfx := begin_pfx s _

/-- The gang that a running convoy finds. -/
theorem State.Runs.gang_eq {s : State} (h : s.Runs) : s.dev.gang? s.rk s.iss.base = some s.gang := by
  have := h.gang
  unfold State.gang
  cases e : s.dev.gang? s.rk s.iss.base with
  | none => simp [e] at this
  | some g => simp

/-! ### Counting -/

@[simp] theorem count_dev (s : State) (h : Hdr) (u : Uses) (l : List Nat) : (s.count h u l).dev = s.dev := rfl
@[simp] theorem count_agenda (s : State) (h : Hdr) (u : Uses) (l : List Nat) : (s.count h u l).agenda = s.agenda := rfl
@[simp] theorem count_fails (s : State) (h : Hdr) (u : Uses) (l : List Nat) : (s.count h u l).iss.fails = s.iss.fails := rfl
@[simp] theorem count_hold (s : State) (h : Hdr) (u : Uses) (l : List Nat) : (s.count h u l).iss.hold = s.iss.hold := rfl
@[simp] theorem count_core (s : State) (h : Hdr) (u : Uses) (l : List Nat) : (s.count h u l).iss.core = s.iss.core := rfl
@[simp] theorem count_base (s : State) (h : Hdr) (u : Uses) (l : List Nat) : (s.count h u l).iss.base = s.iss.base := rfl
@[simp] theorem count_pfx (s : State) (h : Hdr) (u : Uses) (l : List Nat) : (s.count h u l).iss.pfx = s.iss.pfx := rfl
@[simp] theorem count_addr (s : State) (h : Hdr) (u : Uses) (l : List Nat) : (s.count h u l).iss.addr = s.iss.addr := rfl
@[simp] theorem count_undo (s : State) (h : Hdr) (u : Uses) (l : List Nat) : (s.count h u l).iss.undo = s.iss.undo := rfl
@[simp] theorem count_rk (s : State) (h : Hdr) (u : Uses) (l : List Nat) : (s.count h u l).rk = s.rk := rfl
@[simp] theorem count_gang (s : State) (h : Hdr) (u : Uses) (l : List Nat) : (s.count h u l).gang = s.gang := rfl
@[simp] theorem count_res (s : State) (h : Hdr) (u : Uses) (l : List Nat) : (s.count h u l).res? = s.res? := rfl
@[simp] theorem count_hart (s : State) (h : Hdr) (u : Uses) (l : List Nat) (k : Nat) : (s.count h u l).hart k = s.hart k := rfl
@[simp] theorem count_guard (s : State) (h : Hdr) (u : Uses) (l : List Nat) (g : Hdr) (k : Nat) :
    (s.count h u l).guard g k = s.guard g k := rfl
@[simp] theorem count_src (s : State) (h : Hdr) (u : Uses) (l : List Nat) (k : Nat) (v : Src) :
    (s.count h u l).src k v = s.src k v := rfl
@[simp] theorem count_latch (s : State) (h : Hdr) (u : Uses) (l : List Nat) (k : Nat) (g : Lat) :
    (s.count h u l).latch k g = s.latch k g := rfl
@[simp] theorem count_rollback (s : State) (h : Hdr) (u : Uses) (l : List Nat) : (s.count h u l).rollback = s.rollback := rfl
@[simp] theorem count_unretired (s : State) (h : Hdr) (u : Uses) (l : List Nat) (k : Nat) :
    (s.count h u l).unretired k = s.unretired k := rfl
@[simp] theorem count_failed (s : State) (h : Hdr) (u : Uses) (l : List Nat) (k : Nat) :
    (s.count h u l).failed k = s.failed k := rfl

/-! ### The shared checks -/

/-- A word that reads and writes registers only. -/
def Uses.plain (u : Uses) : Bool := u.latch.isEmpty && !u.mx && !u.old && !u.queued

theorem settle_plain (s : State) (h : Hdr) (u : Uses) (b : Nat) (hu : u.plain = true)
    (hd : ∀ r, s.dev.mxDest s.rk b r = false) : s.settle h u b = s := by
  simp only [Uses.plain, Bool.and_eq_true, Bool.not_eq_true'] at hu
  obtain ⟨⟨⟨h1, h2⟩, -⟩, -⟩ := hu
  have : u.latch = [] := by simpa using h1
  simp [State.settle, Uses.onQueue, this, h2, hd]

/-- On a calm hart a word that only touches registers runs where its guard is true. -/
theorem pre_plain (s : State) (h : Hdr) (u : Uses) (b : Nat) (hu : u.plain = true) (hc : (s.hart b).Calm)
    (hd : ∀ r, s.dev.mxDest s.rk b r = false) :
    s.pre h u b = if s.guard h b then .run else .off := by
  simp only [Uses.plain, Bool.and_eq_true, Bool.not_eq_true'] at hu
  obtain ⟨⟨⟨h1, h2⟩, h3⟩, h4⟩ := hu
  have h1' : u.latch = [] := by simpa using h1
  obtain ⟨hf, hs⟩ := hc
  unfold State.pre
  have e1 : ∀ regs : List Reg, ((s.hart b).schk.getLsbD 0 && regs.any fun r => (s.hart b).due.any fun e => e.reg == r) = false := by
    intro regs
    rcases hs with hs | hs
    · simp only [BitVec.getLsbD, Nat.testBit_zero] at hs ⊢
      simp [hs]
    · simp [hs]
  have e2 : ∀ regs : List Reg, (regs.any fun _ => false) = false := fun regs => by simp
  have e3 : ∀ regs : List Reg, regs.any (s.dev.mxDest s.rk b) = false := fun regs => by simp [hd]
  simp only [e1, hf, e2, e3]
  by_cases hg : s.guard h b = true
  · simp [hg, h1', h2, h3, h4, Uses.onQueue]
  · have : s.guard h b = false := by simpa using hg
    simp [this]

/-- What a state that keeps to its harts leaves of a word that is not to run there. -/
theorem settles_plain (s : State) (h : Hdr) (u : Uses) (l : List Nat) (hu : u.plain = true)
    (hd : ∀ k ∈ l, ∀ r, s.dev.mxDest s.rk k r = false) : l.foldl (fun t b => t.settle h u b) s = s := by
  induction l with
  | nil => rfl
  | cons k l ih =>
    rw [List.foldl_cons, settle_plain s h u k hu (hd k (by simp))]
    exact ih fun j hj => hd j (by simp [hj])

theorem pres_take (s : State) (g : Nat → Bool) (l : List Nat) :
    (l.map fun b => (b, if g b then Pre.run else Pre.off)).foldl State.takePre s = s := by
  induction l with
  | nil => rfl
  | cons k l ih =>
    rw [List.map_cons, List.foldl_cons]
    have : State.takePre s (k, if g k = true then Pre.run else Pre.off) = s := by cases g k <;> rfl
    rw [this, ih]
theorem pres_wait (s : State) (g : Nat → Bool) (l : List Nat) :
    (l.map fun b => (b, if g b then Pre.run else Pre.off)).findSome? (fun p => if s.failed p.1 then none else p.2.waits) = none := by
  induction l with
  | nil => rfl
  | cons k l ih => rw [List.map_cons, List.findSome?_cons]; cases g k <;> cases s.failed k <;> exact ih
theorem pres_run (g : Nat → Bool) (l : List Nat) :
    ((l.map fun b => (b, if g b then Pre.run else Pre.off)).filter fun p => p.2 == .run).map Prod.fst = l.filter g := by
  induction l with
  | nil => rfl
  | cons k l ih =>
    rw [List.map_cons, List.filter_cons, List.filter_cons]
    cases g k
    · exact ih
    · exact congrArg (k :: ·) ih

/-- The shared checks pass on calm harts, and the word's own part runs where its guard is true. -/
theorem runWord_plain (s : State) (h : Hdr) (u : Uses) (body : List Nat → State → State) (act : List Nat)
    (hu : u.plain = true) (hc : ∀ k ∈ act, (s.hart k).Calm) (hd : ∀ k ∈ act, ∀ r, s.dev.mxDest s.rk k r = false) :
    s.runWord h u body act = body (act.filter (s.guard h)) s := by
  have pres : act.map (fun b => (b, s.pre h u b)) = act.map fun b => (b, if s.guard h b then Pre.run else Pre.off) := by
    apply List.map_congr_left; intro k hk; rw [pre_plain s h u k hu (hc k hk) (hd k hk)]
  unfold State.runWord
  simp only [settles_plain s h u act hu hd, pres, pres_take, pres_wait, pres_run]

/-- A word that only touches registers, in a calm convoy. -/
theorem wordOp_plain (h : Hdr) (u : Uses) (body : List Nat → State → State) (s : State) (hu : u.plain = true) (hs : s.Calm) :
    wordOp h u body s
      = .next ((body (s.active.filter (s.begun.guard h)) (s.begun.count h u s.active)).endWord h) := by
  have hg := hs.toRuns.gang_eq
  have hh : (s.begun.count h u s.active).iss.hold.isSome = false := by
    rw [count_hold, begun_hold, hs.hold]; rfl
  unfold wordOp
  rw [hg]
  show Host.Outcome.next _ = _
  have key : (if ((s.begin s.gang).count h u (banksOf s.gang.gm)).iss.hold.isSome then
      (s.begin s.gang).count h u (banksOf s.gang.gm)
      else ((s.begin s.gang).count h u (banksOf s.gang.gm)).runWord h u body (banksOf s.gang.gm))
      = body (s.active.filter (s.begun.guard h)) (s.begun.count h u s.active) := by
    have e : s.begin s.gang = s.begun := rfl
    have ea : banksOf s.gang.gm = s.active := rfl
    simp only [e, ea, hh]
    exact runWord_plain (s.begun.count h u s.active) h u body s.active hu (fun k hk => hs.harts k hk) (fun k hk => by simpa using hs.dests k hk)
  exact congrArg (fun x => Host.Outcome.next (State.endWord x h)) key

/-! ### A word of one active hart -/

@[simp] theorem resCore_rk (s : State) : resCore s.rk = s.iss.core := by
  have := s.iss.slot.isLt
  unfold State.rk resCore resKey; omega
/-- With no matrix operation queued, none has a register to write. -/
theorem mxDest_quiet (s : State) (b : Nat) (hm : (s.dev.core s.iss.core).mx = []) (r : Reg) : s.dev.mxDest s.rk b r = false := by
  simp [Device.mxDest, hm]

/-- With nothing outstanding every shared check passes. -/
theorem pre_quiet (s : State) (h : Hdr) (u : Uses) (b : Nat) (hc : (s.hart b).Calm)
    (hr : ∀ k < 16, (s.dev.bank s.iss.core k).rowQ = []) (hl : ∀ r ∈ u.latch, (s.latOf b r).1 < 16)
    (hm : (s.dev.core s.iss.core).mx = []) (ht : s.unretired b = false)
    (hlong : s.rollback.longRuns s.rk s.iss.base s.gang = false) :
    s.pre h u b = if s.guard h b then .run else .off := by
  obtain ⟨hf, hs⟩ := hc
  have e1 : ∀ regs : List Reg, ((s.hart b).schk.getLsbD 0 && regs.any fun r => (s.hart b).due.any fun e => e.reg == r) = false := by
    intro regs
    rcases hs with hs | hs
    · simp only [BitVec.getLsbD, Nat.testBit_zero] at hs ⊢
      simp [hs]
    · simp [hs]
  have e2 : u.latch.find? (s.latchWaits s.dev b) = none := by
    rw [List.find?_eq_none]
    intro r hrm
    simp [State.latchWaits, Device.latchWaits, hr _ (hl r hrm)]
  have e3 : s.dev.mxWaits s.rk s.iss.base = false := by simp [Device.mxWaits, hm]
  have e4 : ∀ regs : List Reg, regs.any (s.dev.mxDest s.rk b) = false := fun regs => by simp [mxDest_quiet s b hm]
  have e5 : ∀ regs : List Reg, (regs.any fun _ => false) = false := fun regs => by simp
  unfold State.pre
  simp only [e1, hf, e2, e3, e4, e5, ht, hlong]
  by_cases hg : s.guard h b = true
  · simp [hg]
  · have : s.guard h b = false := by simpa using hg
    simp [this]

theorem settle_quiet (s : State) (h : Hdr) (u : Uses) (b : Nat) (hr : ∀ k < 16, (s.dev.bank s.iss.core k).rowQ = [])
    (hl : ∀ r ∈ u.latch, (s.latOf b r).1 < 16) (hm : (s.dev.core s.iss.core).mx = []) : s.settle h u b = s := by
  have e2 : ∀ r ∈ u.latch, s.latchWaits s.dev b r = false := by
    intro r hrm; simp [State.latchWaits, Device.latchWaits, hr _ (hl r hrm)]
  have e3 : s.dev.mxWaits s.rk s.iss.base = false := by simp [Device.mxWaits, hm]
  have e4 : ((s.regsOf h u b).any fun r => s.dev.mxDest s.rk b r && !s.rollback.mxDest s.rk b r) = false := by
    simp [mxDest_quiet s b hm]
  have fold : ∀ l : List LatRef, (∀ r ∈ l, s.latchWaits s.dev b r = false) →
      l.foldl (fun s r => if s.latchWaits s.dev b r && !s.latchBusy b r then s.settleRows (s.latOf b r).1 else s) s = s := by
    intro l hl
    induction l with
    | nil => rfl
    | cons r l ih =>
      simp only [List.foldl_cons, hl r (by simp), Bool.false_and, Bool.false_eq_true, if_false]
      exact ih (fun q hq => hl q (by simp [hq]))
  unfold State.settle
  simp only [e4, Bool.false_eq_true, if_false, fold _ e2]
  split
  · rfl
  · split
    · simp [State.settleQueue, e3]
    · rfl

/-- A word of a gang with one active hart, whose guard is true and with nothing outstanding: the word's own part runs on that
hart. -/
theorem wordOp_solo (h : Hdr) (u : Uses) (body : List Nat → State → State) (s : State) (k : Nat) (hs : s.Solo h k)
    (hl : ∀ r ∈ u.latch, (s.latOf k r).1 < 16) :
    wordOp h u body s = .next ((body [k] (s.begun.count h u [k])).endWord h) := by
  have hg := hs.toRuns.gang_eq
  have hk : k ∈ s.active := by rw [hs.only]; simp
  have hh : (s.begun.count h u [k]).iss.hold.isSome = false := by
    rw [count_hold, begun_hold, hs.hold]; rfl
  have hl' : ∀ r ∈ u.latch, ((s.begun.count h u [k]).latOf k r).1 < 16 := by
    intro r hr
    have := hl r hr
    cases r <;> simpa [State.latOf] using this
  have hrow : ∀ j < 16, ((s.begun.count h u [k]).dev.bank (s.begun.count h u [k]).iss.core j).rowQ = [] := by
    intro j hj; simpa using hs.rows j hj
  have hmx : ((s.begun.count h u [k]).dev.core (s.begun.count h u [k]).iss.core).mx = [] := by simpa using hs.matrix
  have hon : (s.begun.count h u [k]).guard h k = true := by simpa using hs.on
  have hret : (s.begun.count h u [k]).unretired k = false := by simpa using hs.retired k hk
  have hlong : (s.begun.count h u [k]).rollback.longRuns (s.begun.count h u [k]).rk (s.begun.count h u [k]).iss.base
      (s.begun.count h u [k]).gang = false := by simpa using hs.long
  have hcalm : ((s.begun.count h u [k]).hart k).Calm := by simpa using hs.harts k hk
  unfold wordOp
  rw [hg]
  show Host.Outcome.next _ = _
  have key : (if ((s.begin s.gang).count h u (banksOf s.gang.gm)).iss.hold.isSome then
      (s.begin s.gang).count h u (banksOf s.gang.gm)
      else ((s.begin s.gang).count h u (banksOf s.gang.gm)).runWord h u body (banksOf s.gang.gm))
      = body [k] (s.begun.count h u [k]) := by
    have e : s.begin s.gang = s.begun := rfl
    have ea : banksOf s.gang.gm = [k] := hs.only
    simp only [e, ea, hh]
    generalize s.begun.count h u [k] = t at *
    simp [State.runWord, hon, settle_quiet t h u k hrow hl' hmx, pre_quiet t h u k hcalm hrow hl' hmx hret hlong]
    cases (t.takePre (k, Pre.run)).failed k <;> rfl
  exact congrArg (fun x => Host.Outcome.next (State.endWord x h)) key

/-- The part of a word on one hart that has not failed. -/
theorem perHart_one (f : Nat → State → HRes) (k : Nat) (s t : State) (hn : s.failed k = false) (e : f k s = .ok t) :
    perHart f [k] s = t := by simp [perHart, hn, e]

/-! ### Words that write one register -/

theorem filterMap_failed (r : Nat → Option Fail) (l : List Nat) (k : Nat) (h : k ∉ l) :
    ((l.filterMap fun j => (r j).map fun f => (j, f)).any fun p => p.1 == k) = false := by
  rw [List.any_eq_false]
  rintro ⟨j, f⟩ hp
  simp only [List.mem_filterMap, Option.map_eq_some_iff, Prod.mk.injEq] at hp
  obtain ⟨i, hi, g, -, rfl, -⟩ := hp
  simp only [beq_iff_eq]
  rintro rfl
  exact h hi

/-- The harts after a word whose part on each hart changes that hart, or fails, by what it finds there; all else is as it
was. -/
theorem perHart_modHart (body : Nat → State → HRes) (r : Nat → Option Fail) (f : Nat → Hart → Hart) (l : List Nat) (s : State)
    (hf : s.iss.fails = []) (hn : l.Nodup) (hl : ∀ k ∈ l, k < 16)
    (hb : ∀ t, ∀ k ∈ l, s.Near t → t.hart k = s.hart k → body k t = match r k with
      | none => .ok (t.modHart k (f k))
      | some e => .fail e) :
    let t := perHart body l s
    s.Near t ∧ t.iss.fails = l.filterMap (fun k => (r k).map fun e => (k, e))
      ∧ ∀ k < 16, t.hart k = if k ∈ l ∧ r k = none then f k (s.hart k) else s.hart k := by
  suffices H : ∀ (l' done : List Nat) (t : State), l'.Nodup → (∀ k ∈ l', k ∈ l) → (∀ k ∈ l', k ∉ done) → s.Near t →
      (∀ k ∈ l', t.hart k = s.hart k) → t.iss.fails = done.filterMap (fun k => (r k).map fun e => (k, e)) →
      let u := perHart body l' t
      s.Near u ∧ u.iss.fails = (done ++ l').filterMap (fun k => (r k).map fun e => (k, e))
        ∧ ∀ k < 16, u.hart k = if k ∈ l' ∧ r k = none then f k (s.hart k) else t.hart k by
    exact H l [] s hn (fun _ h => h) (fun _ _ => by simp) (State.Near.refl s) (fun _ _ => rfl) (by simp [hf])
  intro l'
  induction l' with
  | nil => intro done t _ _ _ ht _ hd; exact ⟨ht, by simpa [perHart] using hd, by simp [perHart]⟩
  | cons b l' ih =>
    intro done t hnd hlt hdn ht he hd
    have hft : t.failed b = false := by
      unfold State.failed; rw [hd]; exact filterMap_failed r done b (hdn b (by simp))
    have hmem : b ∈ l := hlt b (by simp)
    have hb16 : b < 16 := hl b hmem
    obtain ⟨hb1, hnd'⟩ := List.nodup_cons.mp hnd
    have hne : ∀ k ∈ l', k ≠ b := fun k hk e => hb1 (e ▸ hk)
    have hbt := hb t b hmem ht (he b (by simp))
    cases hr : r b with
    | none =>
      rw [hr] at hbt
      have hstep : perHart body (b :: l') t = perHart body l' (t.modHart b (f b)) := by
        conv => lhs; unfold perHart
        rw [hbt]; simp only [hft]; rfl
      have hw : ∀ j < 16, (t.modHart b (f b)).hart j = if j = b then f b (t.hart j) else t.hart j := by
        intro j hj; exact State.modHart_hart t hb16 hj _
      have := ih (done ++ [b]) (t.modHart b (f b)) hnd' (fun k hk => hlt k (by simp [hk]))
        (fun k hk => by simp [hdn k (by simp [hk]), hne k hk]) (ht.trans (State.near_modHart _ _ _))
        (fun k hk => by rw [hw k (hl k (hlt k (by simp [hk])))]; simp [hne k hk, he k (by simp [hk])])
        (by rw [List.filterMap_append]; simpa [hr] using hd)
      simp only [hstep]
      refine ⟨this.1, by rw [this.2.1]; simp, fun k hk => ?_⟩
      rw [this.2.2 k hk, hw k hk]
      by_cases e : k = b
      · subst e; simp [hb1, he, hr]
      · simp [e]
    | some e =>
      rw [hr] at hbt
      have hstep : perHart body (b :: l') t = perHart body l' (t.addFail b e) := by
        conv => lhs; unfold perHart
        rw [hbt]
      have hadd : t.addFail b e = { t with iss := { t.iss with fails := t.iss.fails ++ [(b, e)] } } := by
        unfold State.addFail; rw [hft]; rfl
      have := ih (done ++ [b]) (t.addFail b e) hnd' (fun k hk => hlt k (by simp [hk]))
        (fun k hk => by simp [hdn k (by simp [hk]), hne k hk]) (ht.trans (by rw [hadd]; exact State.near_fails _ _))
        (fun k hk => by rw [hadd]; exact he k (by simp [hk]))
        (by rw [List.filterMap_append, hadd]; simp [hr, hd])
      simp only [hstep]
      refine ⟨this.1, by rw [this.2.1]; simp, fun k hk => ?_⟩
      have hh : (t.addFail b e).hart k = t.hart k := by rw [hadd]; rfl
      rw [this.2.2 k hk, hh]
      by_cases q : k = b
      · subst q; simp [hb1, hr]
      · simp [q]

/-- A word in a calm convoy whose part on each hart changes that hart, or fails, by what it finds there. -/
theorem wordOp_mixed (h : Hdr) (u : Uses) (body : Nat → State → HRes) (r : Nat → Option Fail) (f : Nat → Hart → Hart) (s : State)
    (hu : u.plain = true) (hs : s.Calm)
    (hb : ∀ t, ∀ k ∈ s.active, s.begun.guard h k = true → s.begun.Near t → t.hart k = s.begun.hart k →
      body k t = match r k with
        | none => .ok (t.modHart k (f k))
        | some e => .fail e) :
    ∃ t, wordOp h u (perHart body) s = .next (t.endWord h)
      ∧ t.iss.fails = (s.active.filter (s.begun.guard h)).filterMap (fun k => (r k).map fun e => (k, e))
      ∧ t.iss.hold = none ∧ s.begun.Near t
      ∧ ∀ k < 16, t.hart k = if k ∈ s.active ∧ s.begun.guard h k = true ∧ r k = none then f k (s.begun.hart k)
          else s.begun.hart k := by
  have hw := wordOp_plain h u (perHart body) s hu hs
  refine ⟨_, hw, ?_⟩
  have hn : s.begun.Near (s.begun.count h u s.active) := State.near_count _ _ _ _
  have mem : ∀ k, k ∈ s.active.filter (s.begun.guard h) ↔ k ∈ s.active ∧ s.begun.guard h k = true := by
    intro k; rw [List.mem_filter]
  obtain ⟨hN, hF, hH⟩ := perHart_modHart body r f (s.active.filter (s.begun.guard h)) (s.begun.count h u s.active)
    (by rw [count_fails, begun_fails, hs.fails]) ((banksOf_nodup _).filter _)
    (fun k hk => banksOf_lt (List.mem_filter.mp hk).1)
    (fun t k hk ht he => hb t k ((mem k).mp hk).1 ((mem k).mp hk).2 (hn.trans ht) he)
  refine ⟨hF, by rw [hN.hold, count_hold, begun_hold, hs.hold], hn.trans hN, fun k hk => ?_⟩
  rw [hH k hk]
  simp only [mem, count_hart, and_assoc]

/-- A word in a calm convoy whose part on each hart only changes that hart: it runs, and the harts that ran it are changed. -/
theorem wordOp_harts (h : Hdr) (u : Uses) (body : Nat → State → HRes) (f : Nat → Hart → Hart) (s : State) (hu : u.plain = true)
    (hs : s.Calm)
    (hb : ∀ t, ∀ k ∈ s.active, s.begun.guard h k = true → s.begun.Near t → t.hart k = s.begun.hart k →
      body k t = .ok (t.modHart k (f k))) :
    ∃ t, wordOp h u (perHart body) s = .next (t.endWord h) ∧ t.iss.fails = [] ∧ t.iss.hold = none ∧ s.begun.Near t
      ∧ ∀ k < 16, t.hart k = if k ∈ s.active ∧ s.begun.guard h k = true then f k (s.begun.hart k) else s.begun.hart k := by
  obtain ⟨t, a, b, c, d, e⟩ := wordOp_mixed h u body (fun _ => none) f s hu hs hb
  exact ⟨t, a, by simpa using b, c, d, by simpa using e⟩

theorem Hart.put_rest (t : Hart) (d : Reg) (v : Word) (lat : Option Nat) :
    { t.put d v lat with conv := t.conv, flight := t.flight } = t := by unfold Hart.put; split <;> rfl

/-- The effect of a word that changes each hart that runs it by a write of one register. -/
theorem regEffect_of (s : State) (h : Hdr) (d : Reg) (v : Nat → Word) (lat : Option Nat) (t : State) (hN : s.begun.Near t)
    (hH : ∀ k < 16, t.hart k = if k ∈ s.active ∧ s.begun.guard h k = true then (s.begun.hart k).put d (v k) lat
      else s.begun.hart k) : RegEffect s h d v t := by
  constructor
  · intro k hk hon hd
    rw [hH k (banksOf_lt hk), if_pos ⟨hk, hon⟩, Hart.get_put, if_pos ⟨rfl, hd⟩]
  · intro k h16 r hr
    rw [hH k h16]
    by_cases e : k ∈ s.active ∧ s.begun.guard h k = true
    · rw [if_pos e, Hart.get_put, if_neg]
      rintro ⟨rfl, hf⟩
      rcases hr with q | q | q | q
      · exact q rfl
      · rw [hf] at q; exact absurd q (by simp)
      · exact q e.1
      · rw [e.2] at q; exact absurd q (by simp)
    · rw [if_neg e]
  · intro k h16
    rw [hH k h16]
    by_cases e : k ∈ s.active ∧ s.begun.guard h k = true
    · rw [if_pos e]; exact Hart.put_rest _ _ _ _
    · rw [if_neg e]
  · exact hN.2.2

/-- A word that writes one register, in a calm convoy: it runs, the register reads as the word computes, and nothing else
changes. -/
theorem regWord_writes (h : Hdr) (d : Reg) (lat : Option Nat) (rd : List Reg) (v : State → Nat → Word) (s : State) (hs : s.Calm)
    (hv : ∀ t k, s.begun.Near t → t.hart k = s.begun.hart k → v t k = v s.begun k) :
    ∃ u, regWord h d lat rd v s = .next (u.endWord h) ∧ u.iss.fails = [] ∧ u.iss.hold = none
      ∧ RegEffect s h d (v s.begun) u := by
  obtain ⟨t, a, b, c, hN, hH⟩ := wordOp_harts h { rd := rd, wr := [d] } (fun b s => .ok (writeReg b d (v s b) lat s))
    (fun k x => x.put d (v s.begun k) lat) s rfl hs (fun t k _ _ ht he => by rw [hv t k ht he]; rfl)
  exact ⟨t, a, b, c, regEffect_of s h d _ lat t hN hH⟩

end Sys2Proof.Machine
end

