-- ==== Sys2Proof/Laws/Fp.lean ====
section
/-! SUPPORT. What a scalar floating-point word and a dividing word do, once for all of them (R94, R103). -/

namespace Sys2Proof.Machine

theorem Hart.get_raise (t : Hart) (f : Flags) (r : Reg) : (t.raise f).get r = t.get r := rfl

/-- A floating-point word whose flags are not enabled to trap writes its result and raises its flags. -/
theorem fpWord_writes {s : State} {h : Hdr} {i : Instr} {d : Reg} {lat : Option Nat} {rd : List Reg}
    {val : State → Nat → Nat × Flags} (e : exec i s = fpWord h d lat rd val s) (hs : s.Calm)
    (hv : ∀ t k, s.begun.Near t → t.hart k = s.begun.hart k → val t k = val s.begun k) (v : Nat → Nat × Flags)
    (hw : ∀ k, val s.begun k = v k) : WritesFp s h i d v := by
  intro hq
  obtain ⟨t, a, b, c, hN, hH⟩ := wordOp_harts h { rd := rd, wr := [d] }
    (fun b s => let r := val s b; withFlags b r.2 s (writeReg b d (BitVec.ofNat 64 r.1) lat))
    (fun k x => (x.raise (v k).2).put d (BitVec.ofNat 64 (v k).1) lat) s rfl hs (by
      intro t k hk hon hn he
      simp only [hv t k hn he, hw, withFlags, he, hq k hk hon, bne_self_eq_false, Bool.false_eq_true, if_false]
      congr 1
      simp only [writeReg]
      exact State.modHart_modHart t k _ _)
  refine ⟨t, ⟨e ▸ a, b, c⟩, ?_⟩
  constructor
  · intro k hk hon hd
    rw [hH k (banksOf_lt hk), if_pos ⟨hk, hon⟩, Hart.get_put, if_pos ⟨rfl, hd⟩]
  · intro k h16 r hr
    rw [hH k h16]
    by_cases q : k ∈ s.active ∧ s.begun.guard h k = true
    · rw [if_pos q, Hart.get_put, if_neg, Hart.get_raise]
      rintro ⟨rfl, hf⟩
      rcases hr with p | p | p | p
      · exact p rfl
      · rw [hf] at p; exact absurd p (by simp)
      · exact p q.1
      · rw [q.2] at p; exact absurd p (by simp)
    · rw [if_neg q]
  · intro k hk hon
    rw [hH k (banksOf_lt hk), if_pos ⟨hk, hon⟩]
    unfold Hart.put; split <;> rfl
  · intro k h16 hr
    rw [hH k h16, if_neg]
    rintro ⟨p, q⟩
    rcases hr with r | r
    · exact r p
    · rw [q] at r; exact absurd r (by simp)
  · intro k h16
    rw [hH k h16]
    by_cases q : k ∈ s.active ∧ s.begun.guard h k = true
    · rw [if_pos q]; unfold Hart.put; split <;> rfl
    · rw [if_neg q]
  · exact hN.2.2

/-- A floating-point word traps on each hart that runs it with a raised flag whose trap is enabled (R103). -/
theorem fpWord_traps {s : State} {h : Hdr} {i : Instr} {d : Reg} {lat : Option Nat} {rd : List Reg}
    {val : State → Nat → Nat × Flags} (e : exec i s = fpWord h d lat rd val s) (hs : s.Calm)
    (hv : ∀ t k, s.begun.Near t → t.hart k = s.begun.hart k → val t k = val s.begun k) (v : Nat → Nat × Flags)
    (hw : ∀ k, val s.begun k = v k) :
    FailsWith s h i (s.failing h fun k => if (v k).2 &&& trapMask (s.begun.hart k).fpc = 0 then none
      else some (fpTrap s.begun.iss.addr (v k).2)) := by
  obtain ⟨t, a, b, c, -, -⟩ := wordOp_mixed h { rd := rd, wr := [d] }
    (fun b s => let r := val s b; withFlags b r.2 s (writeReg b d (BitVec.ofNat 64 r.1) lat))
    (fun k => if (v k).2 &&& trapMask (s.begun.hart k).fpc = 0 then none else some (fpTrap s.begun.iss.addr (v k).2))
    (fun k x => (x.raise (v k).2).put d (BitVec.ofNat 64 (v k).1) lat) s rfl hs (by
      intro t k hk hon hn he
      simp only [hv t k hn he, hw, withFlags, he, hn.addr]
      by_cases q : (v k).2 &&& trapMask (s.begun.hart k).fpc = 0
      · simp only [q, bne_self_eq_false, Bool.false_eq_true, if_false, if_true]
        congr 1
        exact State.modHart_modHart t k _ _
      · have : ((v k).2 &&& trapMask (s.begun.hart k).fpc != 0) = true := by simpa using q
        simp only [this, q, if_true, if_false])
  exact ⟨t, e ▸ a, b, c⟩

/-- A dividing word: on each hart that runs it the quotient or remainder, or a trap for a zero divisor (R93, R94). -/
theorem divWord_mixed {s : State} {h : Hdr} {i : Instr} {w : Bool} {d : XReg} {a b : Src} {f : Word → Word → Word}
    (e : exec i s = divWord h w d a b f s) (hs : s.Calm) :
    ((∀ k ∈ s.active, s.begun.guard h k = true → uintN (widthOf w) (s.begun.src k b) ≠ 0) →
      WritesReg s h i (.x d) fun k => f (s.begun.src k a) (s.begun.src k b))
    ∧ FailsWith s h i (s.failing h fun k => if uintN (widthOf w) (s.begun.src k b) = 0 then
        some { cause := 0x15, tval := s.begun.iss.addr } else none) := by
  obtain ⟨t, q, r, c, hN, hH⟩ := wordOp_mixed h { rd := srcRegs a ++ srcRegs b, wr := [.x d] }
    (fun k s => if uintN (widthOf w) (s.src k b) = 0 then .fail { cause := 0x15, tval := s.iss.addr }
      else .ok (writeReg k (.x d) (f (s.src k a) (s.src k b)) none s))
    (fun k => if uintN (widthOf w) (s.begun.src k b) = 0 then some { cause := 0x15, tval := s.begun.iss.addr } else none)
    (fun k x => x.put (.x d) (f (s.begun.src k a) (s.begun.src k b)) none) s rfl hs (by
      intro t k hk hon hn he
      simp only [hn.src he, hn.addr]
      by_cases z : uintN (widthOf w) (s.begun.src k b) = 0 <;> simp only [z, if_true, if_false]; rfl)
  refine ⟨fun hz => ⟨t, ⟨e ▸ q, ?_, c⟩, regEffect_of s h _ _ none t hN fun k hk => ?_⟩, t, e ▸ q, r, c⟩
  · rw [r, List.filterMap_eq_nil_iff]
    intro k hk
    have := List.mem_filter.mp hk
    simp [hz k this.1 this.2]
  · rw [hH k hk]
    by_cases p : k ∈ s.active ∧ s.begun.guard h k = true
    · simp [p.1, p.2, hz k p.1 p.2]
    · rw [if_neg p, if_neg (fun z => p ⟨z.1, z.2.1⟩)]

end Sys2Proof.Machine
end

