-- ==== Sys2Proof/Laws/PerInstr.lean ====
section
/-! SUPPORT. Per instruction: which instructions have a word. -/

namespace Sys2Proof.Laws.Encoding

/-- An instruction has fields exactly when it is a word of the opcode map and no event. -/
def Statement (i : Instr) : Prop := (encodeFields i).isSome = i.isWord

theorem add : ∀ x0 x1 x2 x3 x4, Statement (.add x0 x1 x2 x3 x4) := fun _ _ _ _ _ => rfl
theorem sub : ∀ x0 x1 x2 x3 x4, Statement (.sub x0 x1 x2 x3 x4) := fun _ _ _ _ _ => rfl
theorem mul : ∀ x0 x1 x2 x3 x4, Statement (.mul x0 x1 x2 x3 x4) := fun _ _ _ _ _ => rfl
theorem mulh : ∀ x0 x1 x2 x3, Statement (.mulh x0 x1 x2 x3) := fun _ _ _ _ => rfl
theorem mulhn : ∀ x0 x1 x2 x3, Statement (.mulhn x0 x1 x2 x3) := fun _ _ _ _ => rfl
theorem div : ∀ x0 x1 x2 x3 x4, Statement (.div x0 x1 x2 x3 x4) := fun _ _ _ _ _ => rfl
theorem divn : ∀ x0 x1 x2 x3 x4, Statement (.divn x0 x1 x2 x3 x4) := fun _ _ _ _ _ => rfl
theorem rem : ∀ x0 x1 x2 x3 x4, Statement (.rem x0 x1 x2 x3 x4) := fun _ _ _ _ _ => rfl
theorem remn : ∀ x0 x1 x2 x3 x4, Statement (.remn x0 x1 x2 x3 x4) := fun _ _ _ _ _ => rfl
theorem and : ∀ x0 x1 x2 x3, Statement (.and x0 x1 x2 x3) := fun _ _ _ _ => rfl
theorem or : ∀ x0 x1 x2 x3, Statement (.or x0 x1 x2 x3) := fun _ _ _ _ => rfl
theorem xor : ∀ x0 x1 x2 x3, Statement (.xor x0 x1 x2 x3) := fun _ _ _ _ => rfl
theorem andn : ∀ x0 x1 x2 x3, Statement (.andn x0 x1 x2 x3) := fun _ _ _ _ => rfl
theorem shl : ∀ x0 x1 x2 x3 x4, Statement (.shl x0 x1 x2 x3 x4) := fun _ _ _ _ _ => rfl
theorem shr : ∀ x0 x1 x2 x3 x4, Statement (.shr x0 x1 x2 x3 x4) := fun _ _ _ _ _ => rfl
theorem sar : ∀ x0 x1 x2 x3 x4, Statement (.sar x0 x1 x2 x3 x4) := fun _ _ _ _ _ => rfl
theorem rol : ∀ x0 x1 x2 x3 x4, Statement (.rol x0 x1 x2 x3 x4) := fun _ _ _ _ _ => rfl
theorem fshl : ∀ x0 x1 x2 x3, Statement (.fshl x0 x1 x2 x3) := fun _ _ _ _ => rfl
theorem fshr : ∀ x0 x1 x2 x3, Statement (.fshr x0 x1 x2 x3) := fun _ _ _ _ => rfl
theorem bfx : ∀ x0 x1 x2 x3 x4, Statement (.bfx x0 x1 x2 x3 x4) := fun _ _ _ _ _ => rfl
theorem bfxn : ∀ x0 x1 x2 x3 x4, Statement (.bfxn x0 x1 x2 x3 x4) := fun _ _ _ _ _ => rfl
theorem bfi : ∀ x0 x1 x2 x3 x4, Statement (.bfi x0 x1 x2 x3 x4) := fun _ _ _ _ _ => rfl
theorem clz : ∀ x0 x1 x2 x3, Statement (.clz x0 x1 x2 x3) := fun _ _ _ _ => rfl
theorem ctz : ∀ x0 x1 x2 x3, Statement (.ctz x0 x1 x2 x3) := fun _ _ _ _ => rfl
theorem popc : ∀ x0 x1 x2 x3, Statement (.popc x0 x1 x2 x3) := fun _ _ _ _ => rfl
theorem brev : ∀ x0 x1 x2 x3, Statement (.brev x0 x1 x2 x3) := fun _ _ _ _ => rfl
theorem bswap : ∀ x0 x1 x2 x3, Statement (.bswap x0 x1 x2 x3) := fun _ _ _ _ => rfl
theorem min : ∀ x0 x1 x2 x3 x4, Statement (.min x0 x1 x2 x3 x4) := fun _ _ _ _ _ => rfl
theorem max : ∀ x0 x1 x2 x3 x4, Statement (.max x0 x1 x2 x3 x4) := fun _ _ _ _ _ => rfl
theorem minn : ∀ x0 x1 x2 x3 x4, Statement (.minn x0 x1 x2 x3 x4) := fun _ _ _ _ _ => rfl
theorem maxn : ∀ x0 x1 x2 x3 x4, Statement (.maxn x0 x1 x2 x3 x4) := fun _ _ _ _ _ => rfl
theorem abs : ∀ x0 x1 x2 x3, Statement (.abs x0 x1 x2 x3) := fun _ _ _ _ => rfl
theorem sel : ∀ x0 x1 x2 x3 x4 x5, Statement (.sel x0 x1 x2 x3 x4 x5) := fun _ _ _ _ _ _ => rfl
theorem mov : ∀ x0 x1, Statement (.mov x0 x1) := fun _ y => by cases y <;> rfl
theorem sext : ∀ x0 x1 x2 x3, Statement (.sext x0 x1 x2 x3) := fun _ _ _ _ => rfl
theorem zext : ∀ x0 x1 x2 x3, Statement (.zext x0 x1 x2 x3) := fun _ _ _ _ => rfl
theorem cmp : ∀ x0 x1 x2 x3 x4 x5, Statement (.cmp x0 x1 x2 x3 x4 x5) := fun _ _ _ _ _ _ => rfl
theorem lea : ∀ x0 x1 x2 x3 x4, Statement (.lea x0 x1 x2 x3 x4) := fun _ _ _ _ _ => rfl
theorem pand : ∀ x0 x1 x2 x3 x4, Statement (.pand x0 x1 x2 x3 x4) := fun _ _ _ _ _ => rfl
theorem fadd : ∀ x0 x1 x2 x3 x4 x5, Statement (.fadd x0 x1 x2 x3 x4 x5) := fun _ _ _ _ _ _ => rfl
theorem fsub : ∀ x0 x1 x2 x3 x4 x5, Statement (.fsub x0 x1 x2 x3 x4 x5) := fun _ _ _ _ _ _ => rfl
theorem fmul : ∀ x0 x1 x2 x3 x4 x5, Statement (.fmul x0 x1 x2 x3 x4 x5) := fun _ _ _ _ _ _ => rfl
theorem fdiv : ∀ x0 x1 x2 x3 x4 x5, Statement (.fdiv x0 x1 x2 x3 x4 x5) := fun _ _ _ _ _ _ => rfl
theorem fsqrt : ∀ x0 x1 x2 x3 x4, Statement (.fsqrt x0 x1 x2 x3 x4) := fun _ _ _ _ _ => rfl
theorem fma : ∀ x0 x1 x2 x3 x4 x5 x6 x7, Statement (.fma x0 x1 x2 x3 x4 x5 x6 x7) := fun _ _ _ _ _ _ _ _ => rfl
theorem fmin : ∀ x0 x1 x2 x3 x4, Statement (.fmin x0 x1 x2 x3 x4) := fun _ _ _ _ _ => rfl
theorem fmax : ∀ x0 x1 x2 x3 x4, Statement (.fmax x0 x1 x2 x3 x4) := fun _ _ _ _ _ => rfl
theorem fabs : ∀ x0 x1 x2 x3, Statement (.fabs x0 x1 x2 x3) := fun _ _ _ _ => rfl
theorem fneg : ∀ x0 x1 x2 x3, Statement (.fneg x0 x1 x2 x3) := fun _ _ _ _ => rfl
theorem fcmp : ∀ x0 x1 x2 x3 x4 x5, Statement (.fcmp x0 x1 x2 x3 x4 x5) := fun _ _ _ _ _ _ => rfl
theorem fcvt : ∀ x0 x1 x2 x3 x4 x5, Statement (.fcvt x0 x1 x2 x3 x4 x5) := fun _ _ _ _ _ _ => rfl
theorem fclass : ∀ x0 x1 x2 x3, Statement (.fclass x0 x1 x2 x3) := fun _ _ _ _ => rfl
theorem frnd : ∀ x0 x1 x2 x3 x4, Statement (.frnd x0 x1 x2 x3 x4) := fun _ _ _ _ _ => rfl
theorem nop : ∀ x0, Statement (.nop x0) := fun _ => rfl
theorem br : ∀ x0 x1, Statement (.br x0 x1) := fun _ _ => rfl
theorem brx : ∀ x0 x1 x2, Statement (.brx x0 x1 x2) := fun _ _ _ => rfl
theorem call : ∀ x0 x1 x2, Statement (.call x0 x1 x2) := fun _ _ _ => rfl
theorem callx : ∀ x0 x1 x2 x3, Statement (.callx x0 x1 x2 x3) := fun _ _ _ _ => rfl
theorem ret : ∀ x0 x1, Statement (.ret x0 x1) := fun _ _ => rfl
theorem subbr : ∀ x0 x1 x2 x3, Statement (.subbr x0 x1 x2 x3) := fun _ _ _ _ => rfl
theorem brd : ∀ x0 x1 x2, Statement (.brd x0 x1 x2) := fun _ _ _ => rfl
theorem join : ∀ x0, Statement (.join x0) := fun _ => rfl
theorem capt : ∀ x0 x1 x2, Statement (.capt x0 x1 x2) := fun _ _ _ => rfl
theorem replay : ∀ x0 x1 x2 x3, Statement (.replay x0 x1 x2 x3) := fun _ _ _ _ => rfl
theorem exit : ∀ x0, Statement (.exit x0) := fun _ => rfl
theorem yield : ∀ x0, Statement (.yield x0) := fun _ => rfl
theorem gmask : ∀ x0 x1 x2, Statement (.gmask x0 x1 x2) := fun _ y _ => by cases y <;> rfl
theorem hartid : ∀ x0 x1 x2, Statement (.hartid x0 x1 x2) := fun _ _ _ => rfl
theorem act : ∀ x0 x1 x2, Statement (.act x0 x1 x2) := fun _ _ _ => rfl
theorem actw : ∀ x0 x1, Statement (.actw x0 x1) := fun _ _ => rfl
theorem wb : ∀ x0 x1 x2, Statement (.wb x0 x1 x2) := fun _ _ _ => rfl
theorem wbp : ∀ x0 x1 x2, Statement (.wbp x0 x1 x2) := fun _ _ _ => rfl
theorem pre : ∀ x0 x1, Statement (.pre x0 x1) := fun _ _ => rfl
theorem prea : ∀ x0, Statement (.prea x0) := fun _ => rfl
theorem ref : ∀ x0 x1, Statement (.ref x0 x1) := fun _ _ => rfl
theorem refq : ∀ x0 x1 x2, Statement (.refq x0 x1 x2) := fun _ _ y => by cases y <;> rfl
theorem rowq : ∀ x0 x1 x2, Statement (.rowq x0 x1 x2) := fun _ _ y => by cases y <;> rfl
theorem rowCommandStart : ∀ x0 x1, Statement (.rowCommandStart x0 x1) := fun _ _ => rfl
theorem setvl : ∀ x0 x1 x2, Statement (.setvl x0 x1 x2) := fun _ _ _ => rfl
theorem setvt : ∀ x0 x1 x2, Statement (.setvt x0 x1 x2) := fun _ _ _ => rfl
theorem vadd : ∀ x0 x1 x2 x3 x4, Statement (.vadd x0 x1 x2 x3 x4) := fun _ _ _ _ _ => rfl
theorem vsub : ∀ x0 x1 x2 x3 x4, Statement (.vsub x0 x1 x2 x3 x4) := fun _ _ _ _ _ => rfl
theorem vmul : ∀ x0 x1 x2 x3 x4, Statement (.vmul x0 x1 x2 x3 x4) := fun _ _ _ _ _ => rfl
theorem vmulh : ∀ x0 x1 x2 x3 x4, Statement (.vmulh x0 x1 x2 x3 x4) := fun _ _ _ _ _ => rfl
theorem vmad : ∀ x0 x1 x2 x3 x4, Statement (.vmad x0 x1 x2 x3 x4) := fun _ _ _ _ _ => rfl
theorem vmin : ∀ x0 x1 x2 x3 x4, Statement (.vmin x0 x1 x2 x3 x4) := fun _ _ _ _ _ => rfl
theorem vmax : ∀ x0 x1 x2 x3 x4, Statement (.vmax x0 x1 x2 x3 x4) := fun _ _ _ _ _ => rfl
theorem vabs : ∀ x0 x1 x2 x3, Statement (.vabs x0 x1 x2 x3) := fun _ _ _ _ => rfl
theorem vneg : ∀ x0 x1 x2 x3, Statement (.vneg x0 x1 x2 x3) := fun _ _ _ _ => rfl
theorem vand : ∀ x0 x1 x2 x3 x4, Statement (.vand x0 x1 x2 x3 x4) := fun _ _ _ _ _ => rfl
theorem vor : ∀ x0 x1 x2 x3 x4, Statement (.vor x0 x1 x2 x3 x4) := fun _ _ _ _ _ => rfl
theorem vxor : ∀ x0 x1 x2 x3 x4, Statement (.vxor x0 x1 x2 x3 x4) := fun _ _ _ _ _ => rfl
theorem vnot : ∀ x0 x1 x2 x3, Statement (.vnot x0 x1 x2 x3) := fun _ _ _ _ => rfl
theorem vshl : ∀ x0 x1 x2 x3 x4, Statement (.vshl x0 x1 x2 x3 x4) := fun _ _ _ _ _ => rfl
theorem vshr : ∀ x0 x1 x2 x3 x4, Statement (.vshr x0 x1 x2 x3 x4) := fun _ _ _ _ _ => rfl
theorem vsar : ∀ x0 x1 x2 x3 x4, Statement (.vsar x0 x1 x2 x3 x4) := fun _ _ _ _ _ => rfl
theorem vsadd : ∀ x0 x1 x2 x3 x4, Statement (.vsadd x0 x1 x2 x3 x4) := fun _ _ _ _ _ => rfl
theorem vssub : ∀ x0 x1 x2 x3 x4, Statement (.vssub x0 x1 x2 x3 x4) := fun _ _ _ _ _ => rfl
theorem vavg : ∀ x0 x1 x2 x3 x4, Statement (.vavg x0 x1 x2 x3 x4) := fun _ _ _ _ _ => rfl
theorem vclz : ∀ x0 x1 x2 x3, Statement (.vclz x0 x1 x2 x3) := fun _ _ _ _ => rfl
theorem vpopc : ∀ x0 x1 x2 x3, Statement (.vpopc x0 x1 x2 x3) := fun _ _ _ _ => rfl
theorem vfadd : ∀ x0 x1 x2 x3 x4, Statement (.vfadd x0 x1 x2 x3 x4) := fun _ _ _ _ _ => rfl
theorem vfsub : ∀ x0 x1 x2 x3 x4, Statement (.vfsub x0 x1 x2 x3 x4) := fun _ _ _ _ _ => rfl
theorem vfmul : ∀ x0 x1 x2 x3 x4, Statement (.vfmul x0 x1 x2 x3 x4) := fun _ _ _ _ _ => rfl
theorem vfma : ∀ x0 x1 x2 x3 x4 x5 x6, Statement (.vfma x0 x1 x2 x3 x4 x5 x6) := fun _ _ _ _ _ _ _ => rfl
theorem vfdiv : ∀ x0 x1 x2 x3 x4, Statement (.vfdiv x0 x1 x2 x3 x4) := fun _ _ _ _ _ => rfl
theorem vfsqrt : ∀ x0 x1 x2 x3, Statement (.vfsqrt x0 x1 x2 x3) := fun _ _ _ _ => rfl
theorem vfrcp : ∀ x0 x1 x2 x3, Statement (.vfrcp x0 x1 x2 x3) := fun _ _ _ _ => rfl
theorem vfmin : ∀ x0 x1 x2 x3 x4, Statement (.vfmin x0 x1 x2 x3 x4) := fun _ _ _ _ _ => rfl
theorem vfmax : ∀ x0 x1 x2 x3 x4, Statement (.vfmax x0 x1 x2 x3 x4) := fun _ _ _ _ _ => rfl
theorem vfabs : ∀ x0 x1 x2 x3, Statement (.vfabs x0 x1 x2 x3) := fun _ _ _ _ => rfl
theorem vfneg : ∀ x0 x1 x2 x3, Statement (.vfneg x0 x1 x2 x3) := fun _ _ _ _ => rfl
theorem vcmp : ∀ x0 x1 x2 x3 x4 x5, Statement (.vcmp x0 x1 x2 x3 x4 x5) := fun _ _ _ _ _ _ => rfl
theorem vfcmp : ∀ x0 x1 x2 x3 x4 x5, Statement (.vfcmp x0 x1 x2 x3 x4 x5) := fun _ _ _ _ _ _ => rfl
theorem mand : ∀ x0 x1 x2 x3, Statement (.mand x0 x1 x2 x3) := fun _ _ _ _ => rfl
theorem mor : ∀ x0 x1 x2 x3, Statement (.mor x0 x1 x2 x3) := fun _ _ _ _ => rfl
theorem mxor : ∀ x0 x1 x2 x3, Statement (.mxor x0 x1 x2 x3) := fun _ _ _ _ => rfl
theorem mnot : ∀ x0 x1 x2, Statement (.mnot x0 x1 x2) := fun _ _ _ => rfl
theorem mpopc : ∀ x0 x1 x2 x3, Statement (.mpopc x0 x1 x2 x3) := fun _ _ _ _ => rfl
theorem mfirst : ∀ x0 x1 x2 x3, Statement (.mfirst x0 x1 x2 x3) := fun _ _ _ _ => rfl
theorem vsel : ∀ x0 x1 x2 x3 x4, Statement (.vsel x0 x1 x2 x3 x4) := fun _ _ _ _ _ => rfl
theorem vcvt : ∀ x0 x1 x2 x3 x4 x5, Statement (.vcvt x0 x1 x2 x3 x4 x5) := fun _ _ _ _ _ _ => rfl
theorem vmxq : ∀ x0 x1 x2 x3 x4 x5 x6, Statement (.vmxq x0 x1 x2 x3 x4 x5 x6) := fun _ _ _ _ _ _ _ => rfl
theorem vmxd : ∀ x0 x1 x2 x3 x4 x5 x6, Statement (.vmxd x0 x1 x2 x3 x4 x5 x6) := fun _ _ _ _ _ _ _ => rfl
theorem vlqq : ∀ x0 x1 x2 x3 x4 x5 x6, Statement (.vlqq x0 x1 x2 x3 x4 x5 x6) := fun _ _ _ _ _ _ _ => rfl
theorem vlqd : ∀ x0 x1 x2 x3 x4 x5 x6, Statement (.vlqd x0 x1 x2 x3 x4 x5 x6) := fun _ _ _ _ _ _ _ => rfl
theorem vmov : ∀ x0 x1 x2 x3, Statement (.vmov x0 x1 x2 x3) := fun _ _ _ _ => rfl
theorem vsplat : ∀ x0 x1 x2 x3, Statement (.vsplat x0 x1 x2 x3) := fun _ _ _ _ => rfl
theorem vext : ∀ x0 x1 x2 x3, Statement (.vext x0 x1 x2 x3) := fun _ _ _ _ => rfl
theorem vins : ∀ x0 x1 x2 x3, Statement (.vins x0 x1 x2 x3) := fun _ _ _ _ => rfl
theorem vperm : ∀ x0 x1 x2 x3 x4, Statement (.vperm x0 x1 x2 x3 x4) := fun _ _ _ _ _ => rfl
theorem vgath : ∀ x0 x1 x2 x3 x4, Statement (.vgath x0 x1 x2 x3 x4) := fun _ _ _ _ _ => rfl
theorem vslide : ∀ x0 x1 x2 x3 x4, Statement (.vslide x0 x1 x2 x3 x4) := fun _ _ _ _ _ => rfl
theorem vcomp : ∀ x0 x1 x2 x3, Statement (.vcomp x0 x1 x2 x3) := fun _ _ _ _ => rfl
theorem vexp : ∀ x0 x1 x2 x3, Statement (.vexp x0 x1 x2 x3) := fun _ _ _ _ => rfl
theorem viota : ∀ x0 x1 x2 x3 x4, Statement (.viota x0 x1 x2 x3 x4) := fun _ _ _ _ _ => rfl
theorem vreds : ∀ x0 x1 x2 x3 x4, Statement (.vreds x0 x1 x2 x3 x4) := fun _ _ _ _ _ => rfl
theorem vredmin : ∀ x0 x1 x2 x3 x4, Statement (.vredmin x0 x1 x2 x3 x4) := fun _ _ _ _ _ => rfl
theorem vredmax : ∀ x0 x1 x2 x3 x4, Statement (.vredmax x0 x1 x2 x3 x4) := fun _ _ _ _ _ => rfl
theorem vfreds : ∀ x0 x1 x2 x3 x4 x5, Statement (.vfreds x0 x1 x2 x3 x4 x5) := fun _ _ _ _ _ _ => rfl
theorem vscan : ∀ x0 x1 x2 x3 x4 x5, Statement (.vscan x0 x1 x2 x3 x4 x5) := fun _ _ _ _ _ _ => rfl
theorem vsortk : ∀ x0 x1 x2 x3 x4 x5, Statement (.vsortk x0 x1 x2 x3 x4 x5) := fun _ _ _ _ _ _ => rfl
theorem vuniq : ∀ x0 x1 x2 x3 x4, Statement (.vuniq x0 x1 x2 x3 x4) := fun _ _ _ _ _ => rfl
theorem vectorSegmentStart : ∀ x0 x1, Statement (.vectorSegmentStart x0 x1) := fun _ _ => rfl
theorem rshuf : ∀ x0 x1 x2 x3, Statement (.rshuf x0 x1 x2 x3) := fun _ _ _ _ => rfl
theorem rbcast : ∀ x0 x1 x2 x3, Statement (.rbcast x0 x1 x2 x3) := fun _ _ _ _ => rfl
theorem rxch : ∀ x0 x1 x2 x3, Statement (.rxch x0 x1 x2 x3) := fun _ _ _ _ => rfl
theorem rrot : ∀ x0 x1 x2 x3, Statement (.rrot x0 x1 x2 x3) := fun _ _ _ _ => rfl
theorem rseg : ∀ x0 x1 x2, Statement (.rseg x0 x1 x2) := fun _ _ _ => rfl
theorem busSlotGrant : ∀ x0, Statement (.busSlotGrant x0) := fun _ => rfl
theorem tload : ∀ x0 x1 x2 x3 x4, Statement (.tload x0 x1 x2 x3 x4) := fun _ _ _ _ _ => rfl
theorem tmma : ∀ x0 x1 x2 x3 x4 x5 x6 x7 x8, Statement (.tmma x0 x1 x2 x3 x4 x5 x6 x7 x8) := fun _ _ _ _ _ _ _ _ _ => rfl
theorem accz : ∀ x0 x1 x2, Statement (.accz x0 x1 x2) := fun _ _ _ => rfl
theorem accrd : ∀ x0 x1 x2 x3 x4, Statement (.accrd x0 x1 x2 x3 x4) := fun _ _ _ _ _ => rfl
theorem accwr : ∀ x0 x1 x2 x3 x4, Statement (.accwr x0 x1 x2 x3 x4) := fun _ _ _ _ _ => rfl
theorem accclm : ∀ x0 x1 x2 x3, Statement (.accclm x0 x1 x2 x3) := fun _ _ _ _ => rfl
theorem accrel : ∀ x0 x1, Statement (.accrel x0 x1) := fun _ _ => rfl
theorem accsv : ∀ x0 x1 x2 x3, Statement (.accsv x0 x1 x2 x3) := fun _ _ _ _ => rfl
theorem accld : ∀ x0 x1 x2 x3, Statement (.accld x0 x1 x2 x3) := fun _ _ _ _ => rfl
theorem tstat : ∀ x0 x1 x2, Statement (.tstat x0 x1 x2) := fun _ y _ => by cases y <;> rfl
theorem matrixOpStart : ∀ x0 x1, Statement (.matrixOpStart x0 x1) := fun _ _ => rfl
theorem matrixOpComplete : ∀ x0 x1, Statement (.matrixOpComplete x0 x1) := fun _ _ => rfl
theorem accTransferComplete : ∀ x0 x1, Statement (.accTransferComplete x0 x1) := fun _ _ => rfl
theorem ld : ∀ x0 x1 x2 x3 x4 x5, Statement (.ld x0 x1 x2 x3 x4 x5) := fun _ _ _ _ _ _ => rfl
theorem st : ∀ x0 x1 x2 x3 x4 x5, Statement (.st x0 x1 x2 x3 x4 x5) := fun _ _ _ _ _ _ => rfl
theorem lde : ∀ x0 x1 x2 x3, Statement (.lde x0 x1 x2 x3) := fun _ _ _ _ => rfl
theorem ste : ∀ x0 x1 x2 x3, Statement (.ste x0 x1 x2 x3) := fun _ _ _ _ => rfl
theorem ldf : ∀ x0 x1 x2 x3, Statement (.ldf x0 x1 x2 x3) := fun _ _ _ _ => rfl
theorem stf : ∀ x0 x1 x2 x3, Statement (.stf x0 x1 x2 x3) := fun _ _ _ _ => rfl
theorem tagr : ∀ x0 x1 x2 x3 x4, Statement (.tagr x0 x1 x2 x3 x4) := fun _ _ _ _ _ => rfl
theorem tagw : ∀ x0 x1 x2 x3 x4, Statement (.tagw x0 x1 x2 x3 x4) := fun _ _ _ _ _ => rfl
theorem pref : ∀ x0 x1 x2 x3, Statement (.pref x0 x1 x2 x3) := fun _ _ _ _ => rfl
theorem ldv : ∀ x0 x1 x2 x3 x4, Statement (.ldv x0 x1 x2 x3 x4) := fun _ _ _ _ _ => rfl
theorem stv : ∀ x0 x1 x2 x3 x4, Statement (.stv x0 x1 x2 x3 x4) := fun _ _ _ _ _ => rfl
theorem cinv : ∀ x0 x1, Statement (.cinv x0 x1) := fun _ y => by cases y <;> rfl
theorem cwb : ∀ x0 x1, Statement (.cwb x0 x1) := fun _ y => by cases y <;> rfl
theorem amop : ∀ x0 x1 x2 x3 x4 x5, Statement (.amop x0 x1 x2 x3 x4 x5) := fun _ _ _ _ _ _ => rfl
theorem tagWaitRetry : ∀ x0 x1, Statement (.tagWaitRetry x0 x1) := fun _ _ => rfl
theorem tagWaitTimeout : ∀ x0 x1, Statement (.tagWaitTimeout x0 x1) := fun _ _ => rfl
theorem cacheLineEvict : ∀ x0 x1, Statement (.cacheLineEvict x0 x1) := fun _ _ => rfl
theorem proxyEvict : ∀ x0 x1, Statement (.proxyEvict x0 x1) := fun _ _ => rfl
theorem hwPrefetch : ∀ x0 x1, Statement (.hwPrefetch x0 x1) := fun _ _ => rfl
theorem amo : ∀ x0 x1 x2 x3 x4 x5, Statement (.amo x0 x1 x2 x3 x4 x5) := fun _ _ _ _ _ _ => rfl
theorem cas : ∀ x0 x1 x2 x3 x4, Statement (.cas x0 x1 x2 x3 x4) := fun _ _ _ _ _ => rfl
theorem red : ∀ x0 x1 x2 x3 x4, Statement (.red x0 x1 x2 x3 x4) := fun _ _ _ _ _ => rfl
theorem redv : ∀ x0 x1 x2 x3 x4 x5, Statement (.redv x0 x1 x2 x3 x4 x5) := fun _ _ _ _ _ y => by cases y <;> rfl
theorem redf : ∀ x0 x1, Statement (.redf x0 x1) := fun _ _ => rfl
theorem pgq : ∀ x0 x1 x2 x3 x4, Statement (.pgq x0 x1 x2 x3 x4) := fun _ _ _ _ _ => rfl
theorem writeQueueAccept : ∀ x0, Statement (.writeQueueAccept x0) := fun _ => rfl
theorem writeQueueApply : ∀ x0 x1, Statement (.writeQueueApply x0 x1) := fun _ _ => rfl
theorem atomicResultReturn : ∀ x0 x1, Statement (.atomicResultReturn x0 x1) := fun _ _ => rfl
theorem columnAccessArrival : ∀ x0 x1 x2, Statement (.columnAccessArrival x0 x1 x2) := fun _ _ _ => rfl
theorem columnAccessServe : ∀ x0 x1, Statement (.columnAccessServe x0 x1) := fun _ _ => rfl
theorem pageWalk : ∀ x0 x1 x2, Statement (.pageWalk x0 x1 x2) := fun _ _ _ => rfl
theorem atsCompletion : ∀ x0 x1 x2 x3, Statement (.atsCompletion x0 x1 x2 x3) := fun _ _ _ _ => rfl
theorem atsInvalidation : ∀ x0 x1, Statement (.atsInvalidation x0 x1) := fun _ _ => rfl
theorem fence : ∀ x0 x1 x2 x3, Statement (.fence x0 x1 x2 x3) := fun _ _ _ _ => rfl
theorem ifence : ∀ x0, Statement (.ifence x0) := fun _ => rfl
theorem enq : ∀ x0 x1 x2 x3 x4, Statement (.enq x0 x1 x2 x3 x4) := fun _ _ _ _ _ => rfl
theorem enq1 : ∀ x0 x1 x2, Statement (.enq1 x0 x1 x2) := fun _ _ _ => rfl
theorem estat : ∀ x0 x1 x2, Statement (.estat x0 x1 x2) := fun _ y _ => by cases y <;> rfl
theorem esusp : ∀ x0 x1 x2, Statement (.esusp x0 x1 x2) := fun _ _ _ => rfl
theorem bari : ∀ x0 x1 x2, Statement (.bari x0 x1 x2) := fun _ _ _ => rfl
theorem barp : ∀ x0 x1 x2 x3, Statement (.barp x0 x1 x2 x3) := fun _ _ _ _ => rfl
theorem bara : ∀ x0 x1 x2 x3, Statement (.bara x0 x1 x2 x3) := fun _ _ _ _ => rfl
theorem barw : ∀ x0 x1 x2 x3, Statement (.barw x0 x1 x2 x3) := fun _ _ _ _ => rfl
theorem wait : ∀ x0 x1 x2 x3 x4, Statement (.wait x0 x1 x2 x3 x4) := fun _ _ _ _ _ => rfl
theorem waitv : ∀ x0 x1 x2 x3 x4, Statement (.waitv x0 x1 x2 x3 x4) := fun _ _ _ _ _ => rfl
theorem barrierWaitWake : ∀ x0 x1, Statement (.barrierWaitWake x0 x1) := fun _ _ => rfl
theorem wordWaitSatisfied : ∀ x0 x1, Statement (.wordWaitSatisfied x0 x1) := fun _ _ => rfl
theorem copyCommandStart : ∀ x0 x1, Statement (.copyCommandStart x0 x1) := fun _ _ => rfl
theorem copyCompletion : ∀ x0 x1, Statement (.copyCompletion x0 x1) := fun _ _ => rfl
theorem copyFault : ∀ x0 x1, Statement (.copyFault x0 x1) := fun _ _ => rfl
theorem copyPermissionStop : ∀ x0 x1, Statement (.copyPermissionStop x0 x1) := fun _ _ => rfl
theorem savedCommandReentry : ∀ x0 x1, Statement (.savedCommandReentry x0 x1) := fun _ _ => rfl
theorem sfcfg : ∀ x0 x1 x2 x3, Statement (.sfcfg x0 x1 x2 x3) := fun _ _ _ _ => rfl
theorem sfpush : ∀ x0 x1 x2 x3 x4, Statement (.sfpush x0 x1 x2 x3 x4) := fun _ _ _ _ _ => rfl
theorem sfround : ∀ x0 x1 x2 x3, Statement (.sfround x0 x1 x2 x3) := fun _ _ _ _ => rfl
theorem sfdrain : ∀ x0 x1 x2 x3 x4, Statement (.sfdrain x0 x1 x2 x3 x4) := fun _ _ _ _ _ => rfl
theorem sfstat : ∀ x0 x1 x2, Statement (.sfstat x0 x1 x2) := fun _ _ _ => rfl
theorem sifterRound : ∀ x0, Statement (.sifterRound x0) := fun _ => rfl
theorem sifterDrainRun : ∀ x0, Statement (.sifterDrainRun x0) := fun _ => rfl
theorem pushEnterQueue : ∀ x0, Statement (.pushEnterQueue x0) := fun _ => rfl
theorem sifterSave : ∀ x0, Statement (.sifterSave x0) := fun _ => rfl
theorem csrr : ∀ x0 x1 x2, Statement (.csrr x0 x1 x2) := fun _ _ _ => rfl
theorem csrw : ∀ x0 x1 x2, Statement (.csrw x0 x1 x2) := fun _ _ _ => rfl
theorem csrs : ∀ x0 x1 x2, Statement (.csrs x0 x1 x2) := fun _ _ _ => rfl
theorem csrc : ∀ x0 x1 x2, Statement (.csrc x0 x1 x2) := fun _ _ _ => rfl
theorem trap : ∀ x0 x1 x2, Statement (.trap x0 x1 x2) := fun _ _ _ => rfl
theorem eret : ∀ x0, Statement (.eret x0) := fun _ => rfl
theorem halt : ∀ x0 x1, Statement (.halt x0 x1) := fun _ _ => rfl
theorem wdog : ∀ x0 x1 x2, Statement (.wdog x0 x1 x2) := fun _ _ y => by cases y <;> rfl
theorem ctxq : ∀ x0 x1 x2, Statement (.ctxq x0 x1 x2) := fun _ _ _ => rfl
theorem bkpt : ∀ x0 x1, Statement (.bkpt x0 x1) := fun _ _ => rfl
theorem pfx : ∀ x0, Statement (.pfx x0) := fun _ => rfl
theorem launch : ∀ x0 x1 x2 x3, Statement (.launch x0 x1 x2 x3) := fun _ _ _ _ => rfl
theorem depdec : ∀ x0 x1 x2 x3, Statement (.depdec x0 x1 x2 x3) := fun _ _ _ _ => rfl
theorem depq : ∀ x0 x1 x2, Statement (.depq x0 x1 x2) := fun _ _ _ => rfl
theorem softwareTrapTaken : ∀ x0 x1, Statement (.softwareTrapTaken x0 x1) := fun _ _ => rfl
theorem engineTrapTaken : ∀ x0 x1, Statement (.engineTrapTaken x0 x1) := fun _ _ => rfl
theorem debtTick : ∀ x0 x1, Statement (.debtTick x0 x1) := fun _ _ => rfl
theorem hotChange : ∀ x0 x1, Statement (.hotChange x0 x1) := fun _ _ => rfl
theorem autoRefInsert : ∀ x0 x1 x2, Statement (.autoRefInsert x0 x1 x2) := fun _ _ _ => rfl
theorem refreshDeadlineTrap : ∀ x0 x1, Statement (.refreshDeadlineTrap x0 x1) := fun _ _ => rfl
theorem forcedRefresh : ∀ x0 x1 x2, Statement (.forcedRefresh x0 x1 x2) := fun _ _ _ => rfl
theorem watchdogExpiry : ∀ x0 x1, Statement (.watchdogExpiry x0 x1) := fun _ _ => rfl
theorem class0Request : ∀ x0, Statement (.class0Request x0) := fun _ => rfl
theorem quantumExpiry : ∀ x0, Statement (.quantumExpiry x0) := fun _ => rfl
theorem idleYield : ∀ x0, Statement (.idleYield x0) := fun _ => rfl
theorem ageingPromotion : ∀ x0 x1, Statement (.ageingPromotion x0 x1) := fun _ _ => rfl
theorem contextSwitch : ∀ x0, Statement (.contextSwitch x0) := fun _ => rfl
theorem eviction : ∀ x0 x1, Statement (.eviction x0 x1) := fun _ _ => rfl
theorem admission : ∀ x0 x1 x2 x3, Statement (.admission x0 x1 x2 x3) := fun _ _ _ _ => rfl
theorem debugStop : ∀ x0 x1, Statement (.debugStop x0 x1) := fun _ _ => rfl
theorem debugArm : ∀ x0 x1, Statement (.debugArm x0 x1) := fun _ _ => rfl
theorem debugStopRequest : ∀ x0, Statement (.debugStopRequest x0) := fun _ => rfl
theorem debugResume : ∀ x0, Statement (.debugResume x0) := fun _ => rfl
theorem queueEntryConsume : ∀ x0, Statement (.queueEntryConsume x0) := fun _ => rfl
theorem qtail : ∀ x0 x1, Statement (.qtail x0 x1) := fun _ _ => rfl
theorem launchLeaveWaits : ∀ x0, Statement (.launchLeaveWaits x0) := fun _ => rfl
theorem launchEnd : ∀ x0, Statement (.launchEnd x0) := fun _ => rfl
theorem placementEnd : ∀ x0 x1, Statement (.placementEnd x0 x1) := fun _ _ => rfl
theorem journalHead : ∀ x0, Statement (.journalHead x0) := fun _ => rfl
theorem faultLogHead : ∀ x0, Statement (.faultLogHead x0) := fun _ => rfl
theorem fresRetry : ∀ x0, Statement (.fresRetry x0) := fun _ => rfl
theorem fresDeliver : ∀ x0, Statement (.fresDeliver x0) := fun _ => rfl
theorem fresEnd : ∀ x0, Statement (.fresEnd x0) := fun _ => rfl
theorem tqseq : ∀ x0, Statement (.tqseq x0) := fun _ => rfl
theorem tinv : ∀ x0, Statement (.tinv x0) := fun _ => rfl
theorem tinvl : ∀ x0, Statement (.tinvl x0) := fun _ => rfl
theorem translationInvalidationDone : Statement (.translationInvalidationDone) := rfl
theorem errstClear : ∀ x0, Statement (.errstClear x0) := fun _ => rfl
theorem deviceReset : Statement (.deviceReset) := rfl
theorem placeEnable : ∀ x0, Statement (.placeEnable x0) := fun _ => rfl
theorem plim : ∀ x0, Statement (.plim x0) := fun _ => rfl
theorem fabricConfigWrite : ∀ x0 x1, Statement (.fabricConfigWrite x0 x1) := fun _ _ => rfl
theorem registerWrite : ∀ x0 x1, Statement (.registerWrite x0 x1) := fun _ _ => rfl
theorem hostBar2Read : ∀ x0 x1, Statement (.hostBar2Read x0 x1) := fun _ _ => rfl
theorem hostBar2Write : ∀ x0 x1, Statement (.hostBar2Write x0 x1) := fun _ _ => rfl
theorem hostBar4Access : ∀ x0 x1, Statement (.hostBar4Access x0 x1) := fun _ _ => rfl
theorem linkReset : Statement (.linkReset) := rfl
theorem serviceMailbox : ∀ x0 x1 x2, Statement (.serviceMailbox x0 x1 x2) := fun _ _ _ => rfl
theorem fabricArrival : ∀ x0 x1, Statement (.fabricArrival x0 x1) := fun _ _ => rfl
theorem linkFailure : ∀ x0, Statement (.linkFailure x0) := fun _ => rfl
theorem fabricRequestTimeout : Statement .fabricRequestTimeout := rfl
theorem budgetWindow : Statement (.budgetWindow) := rfl
theorem retentionMeasurement : ∀ x0 x1 x2 x3, Statement (.retentionMeasurement x0 x1 x2 x3) := fun _ _ _ _ => rfl
theorem trainingComplete : Statement (.trainingComplete) := rfl
theorem fullServiceEntry : Statement (.fullServiceEntry) := rfl
theorem bankOwnPrecharge : ∀ x0 x1 x2, Statement (.bankOwnPrecharge x0 x1 x2) := fun _ _ _ => rfl
theorem commandSuspensionStop : ∀ x0 x1 x2, Statement (.commandSuspensionStop x0 x1 x2) := fun _ _ _ => rfl
theorem watchdogTrapTaken : ∀ x0 x1, Statement (.watchdogTrapTaken x0 x1) := fun _ _ => rfl
theorem qsize : ∀ x0 x1, Statement (.qsize x0 x1) := fun _ _ => rfl
theorem qbase : ∀ x0 x1, Statement (.qbase x0 x1) := fun _ _ => rfl
theorem tableQueryResult : Statement (.tableQueryResult) := rfl
theorem rowTagWrite : ∀ x0 x1 x2 x3 x4, Statement (.rowTagWrite x0 x1 x2 x3 x4) := fun _ _ _ _ _ => rfl

end Sys2Proof.Laws.Encoding
end

