-- ==== Sys2Proof/Laws/Scalar.lean ====
section
/-! SUPPORT. What the result functions of the scalar integer words compute, as bit-vector operations (R93 to R99). -/

namespace Sys2Proof.Machine

/-! ### Register words -/

/-- A word that is a register word writes its register. -/
theorem writes_of {s : State} {h : Hdr} {i : Instr} {d : Reg} {lat : Option Nat} {rd : List Reg} {v : State → Nat → Word}
    (e : exec i s = regWord h d lat rd v s) (hs : s.Calm)
    (hv : ∀ t k, s.begun.Near t → t.hart k = s.begun.hart k → v t k = v s.begun k) (w : Nat → Word)
    (hw : ∀ k, v s.begun k = w k) : WritesReg s h i d w := by
  obtain ⟨u, a, b, c, r⟩ := regWord_writes h d lat rd v s hs hv
  rw [funext hw] at r
  exact ⟨u, ⟨e ▸ a, b, c⟩, r⟩
/-- A two-source word writes what it computes from its sources (R91). -/
theorem writes2 {s : State} {h : Hdr} {i : Instr} {d : XReg} {a b : Src} {lat : Option Nat} (f : Word → Word → Word)
    {g : Nat → Word} (e : exec i s = word2 h d a b lat f s) (hs : s.Calm)
    (hg : ∀ k, f (s.begun.src k a) (s.begun.src k b) = g k) : WritesReg s h i (.x d) g :=
  writes_of e hs (fun t k n hk => by simp only [n.src hk]) _ hg
/-- A one-source word writes what it computes from its source (R91). -/
theorem writes1 {s : State} {h : Hdr} {i : Instr} {d : XReg} {a : Src} {lat : Option Nat} (f : Word → Word)
    {g : Nat → Word} (e : exec i s = word1 h d a lat f s) (hs : s.Calm) (hg : ∀ k, f (s.begun.src k a) = g k) :
    WritesReg s h i (.x d) g :=
  writes_of e hs (fun t k n hk => by simp only [n.src hk]) _ hg
/-- A word that also reads its destination writes what it computes (R92). -/
theorem writes3 {s : State} {h : Hdr} {i : Instr} {d : XReg} {a b : Src} {lat : Option Nat} (f : Word → Word → Word → Word)
    {g : Nat → Word} (e : exec i s = word3 h d a b lat f s) (hs : s.Calm)
    (hg : ∀ k, f ((s.begun.hart k).getX d) (s.begun.src k a) (s.begun.src k b) = g k) : WritesReg s h i (.x d) g :=
  writes_of e hs (fun t k n hk => by simp only [n.src hk, hk]) _ hg

/-! ### Values at a width -/

theorem sintOf_toNat {n : Nat} (x : BitVec n) : sintOf n x.toNat = x.toInt := by
  simp only [sintOf, Nat.mod_eq_of_lt x.isLt, BitVec.toInt_eq_toNat_cond]; norm_cast
theorem sintOf_mod (n v : Nat) : sintOf n (v % 2 ^ n) = sintOf n v := by simp [sintOf]
theorem sintN_64 (a : Word) : sintN 64 a = a.toInt := sintOf_toNat a
theorem sintN_32 (a : Word) : sintN 32 a = (a.setWidth 32).toInt := by
  rw [← sintOf_toNat, BitVec.toNat_setWidth, sintOf_mod]; rfl
theorem uintN_64 (a : Word) : uintN 64 a = a.toNat := Nat.mod_eq_of_lt a.isLt
theorem uintN_32 (a : Word) : uintN 32 a = (a.setWidth 32).toNat := by rw [BitVec.toNat_setWidth]; rfl

theorem resOf_wide (v : Int) (x : Word) (h : BitVec.ofInt 64 v = x) : resOf false v = x := h
theorem resOf_low (v : Int) (x : BitVec 32) (h : BitVec.ofInt 32 v = x) : resOf true v = x.signExtend 64 := by rw [← h]; rfl

/-- A result function that computes an operation at both widths. -/
theorem atWidth_res (v : (w : Bool) → Word → Word → Int) (f : (n : Nat) → BitVec n → BitVec n → BitVec n)
    (h64 : ∀ a b : Word, BitVec.ofInt 64 (v false a b) = f 64 a b)
    (h32 : ∀ a b : Word, BitVec.ofInt 32 (v true a b) = f 32 (a.setWidth 32) (b.setWidth 32)) (w : Bool) (a b : Word) :
    resOf w (v w a b) = atWidth w f a b := by
  cases w
  · exact h64 a b
  · exact resOf_low _ _ (h32 a b)

theorem addRes_eq (w : Bool) (a b : Word) : addRes w a b = atWidth w (fun _ x y => x + y) a b := by
  refine atWidth_res (fun w a b => (uintN (widthOf w) a + uintN (widthOf w) b : Nat)) (fun _ x y => x + y) ?_ ?_ w a b <;>
    intro a b <;> apply BitVec.eq_of_toNat_eq <;> simp [widthOf, uintN_64, uintN_32, BitVec.toNat_add] <;> omega
theorem subRes_eq (w : Bool) (a b : Word) : subRes w a b = atWidth w (fun _ x y => x - y) a b := by
  refine atWidth_res (fun w a b => (uintN (widthOf w) a : Int) - uintN (widthOf w) b) (fun _ x y => x - y) ?_ ?_ w a b <;>
    intro a b <;> apply BitVec.eq_of_toNat_eq <;> simp only [widthOf, uintN_64, uintN_32, BitVec.toNat_sub, BitVec.toNat_ofInt, if_false, if_true, Bool.false_eq_true] <;> omega
theorem mulRes_eq (w : Bool) (a b : Word) : mulRes w a b = atWidth w (fun _ x y => x * y) a b := by
  refine atWidth_res (fun w a b => sintN (widthOf w) a * sintN (widthOf w) b) (fun _ x y => x * y) ?_ ?_ w a b <;>
    intro a b <;>
    simp only [widthOf, sintN_64, sintN_32, BitVec.ofInt_mul, BitVec.ofInt_toInt, if_false, if_true, Bool.false_eq_true]
theorem mulhRes_eq (a b : Word) : mulhRes a b = (a.signExtend 128 * b.signExtend 128).extractLsb' 64 64 := by
  have ha := BitVec.toInt_signExtend_of_le (x := a) (v := 128) (by decide)
  have hb := BitVec.toInt_signExtend_of_le (x := b) (v := 128) (by decide)
  have : a.signExtend 128 * b.signExtend 128 = BitVec.ofInt 128 (a.toInt * b.toInt) := by
    rw [BitVec.ofInt_mul, ← ha, ← hb, BitVec.ofInt_toInt, BitVec.ofInt_toInt]
  rw [this]
  apply BitVec.eq_of_toNat_eq
  simp only [mulhRes, word64, sint64, sintN_64, BitVec.extractLsb'_toNat, BitVec.toNat_ofInt, Nat.shiftRight_eq_div_pow]
  omega
theorem mulhnRes_eq (a b : Word) : mulhnRes a b = (a.setWidth 128 * b.setWidth 128).extractLsb' 64 64 := by
  apply BitVec.eq_of_toNat_eq
  have h : a.toNat * b.toNat < 2 ^ 128 := by
    have := Nat.mul_lt_mul'' a.isLt b.isLt; simpa using this
  have ha : a.toNat % 2 ^ 128 = a.toNat := Nat.mod_eq_of_lt (by have := a.isLt; omega)
  have hb : b.toNat % 2 ^ 128 = b.toNat := Nat.mod_eq_of_lt (by have := b.isLt; omega)
  simp only [mulhnRes, BitVec.extractLsb'_toNat, BitVec.toNat_mul, BitVec.toNat_setWidth, BitVec.toNat_ofNat,
    Nat.shiftRight_eq_div_pow, ha, hb, Nat.mod_eq_of_lt h]
theorem divRes_eq (w : Bool) (a b : Word) : divRes w a b = atWidth w (fun _ x y => x.sdiv y) a b := by
  refine atWidth_res (fun w a b => (sintN (widthOf w) a).tdiv (sintN (widthOf w) b)) (fun _ x y => x.sdiv y) ?_ ?_ w a b <;>
    intro a b <;> simp only [widthOf, sintN_64, sintN_32, if_false, if_true, Bool.false_eq_true] <;>
    
    rw [← BitVec.ofInt_toInt (x := BitVec.sdiv _ _), BitVec.toInt_sdiv] <;> apply BitVec.eq_of_toNat_eq <;>
    simp only [BitVec.toNat_ofInt, Int.bmod_def] <;> split <;> omega
theorem divnRes_eq (w : Bool) (a b : Word) : divnRes w a b = atWidth w (fun _ x y => x / y) a b := by
  refine atWidth_res (fun w a b => (uintN (widthOf w) a / uintN (widthOf w) b : Nat)) (fun _ x y => x / y) ?_ ?_ w a b <;>
    intro a b <;> simp only [widthOf, uintN_64, uintN_32, if_false, if_true, Bool.false_eq_true] <;>
    rw [BitVec.ofInt_natCast, ← BitVec.toNat_udiv, BitVec.ofNat_toNat, BitVec.setWidth_eq]
theorem remnRes_eq (w : Bool) (a b : Word) : remnRes w a b = atWidth w (fun _ x y => x % y) a b := by
  refine atWidth_res (fun w a b => (uintN (widthOf w) a % uintN (widthOf w) b : Nat)) (fun _ x y => x % y) ?_ ?_ w a b <;>
    intro a b <;> simp only [widthOf, uintN_64, uintN_32, if_false, if_true, Bool.false_eq_true] <;>
    rw [BitVec.ofInt_natCast, ← BitVec.toNat_umod, BitVec.ofNat_toNat, BitVec.setWidth_eq]
theorem remRes_eq (w : Bool) (a b : Word) : remRes w a b = atWidth w (fun _ x y => x.srem y) a b := by
  refine atWidth_res (fun w a b => sintN (widthOf w) a - sintN (widthOf w) b * (sintN (widthOf w) a).tdiv (sintN (widthOf w) b))
    (fun _ x y => x.srem y) ?_ ?_ w a b <;>
    intro a b <;> simp only [widthOf, sintN_64, sintN_32, if_false, if_true, Bool.false_eq_true] <;>
    rw [← BitVec.ofInt_toInt (x := BitVec.srem _ _), BitVec.toInt_srem, Int.tmod_def]
theorem shlRes_eq (w : Bool) (a b : Word) : shlRes w a b = atWidth w (fun n x y => x <<< (y.toNat % n)) a b := by
  refine atWidth_res (fun w a b => (uintN (widthOf w) a * 2 ^ (b.toNat % widthOf w) : Nat)) (fun n x y => x <<< (y.toNat % n))
    ?_ ?_ w a b <;>
    intro a b <;> simp only [widthOf, uintN_64, uintN_32, if_false, if_true, Bool.false_eq_true] <;>
    rw [BitVec.ofInt_natCast] <;> apply BitVec.eq_of_toNat_eq <;>
    simp [BitVec.toNat_shiftLeft, Nat.shiftLeft_eq, BitVec.toNat_setWidth, Nat.mod_mod_of_dvd]
theorem shrRes_eq (w : Bool) (a b : Word) : shrRes w a b = atWidth w (fun n x y => x >>> (y.toNat % n)) a b := by
  refine atWidth_res (fun w a b => (uintN (widthOf w) a / 2 ^ (b.toNat % widthOf w) : Nat)) (fun n x y => x >>> (y.toNat % n))
    ?_ ?_ w a b <;>
    intro a b <;> simp only [widthOf, uintN_64, uintN_32, if_false, if_true, Bool.false_eq_true] <;>
    rw [BitVec.ofInt_natCast] <;> apply BitVec.eq_of_toNat_eq <;>
    simp [BitVec.toNat_ushiftRight, Nat.shiftRight_eq_div_pow, BitVec.toNat_setWidth, Nat.mod_mod_of_dvd] <;>
    exact lt_of_le_of_lt (Nat.div_le_self _ _) (by omega)
theorem sarRes_eq (w : Bool) (a b : Word) : sarRes w a b = atWidth w (fun n x y => x.sshiftRight (y.toNat % n)) a b := by
  refine atWidth_res (fun w a b => sintN (widthOf w) a / 2 ^ (b.toNat % widthOf w))
    (fun n x y => x.sshiftRight (y.toNat % n)) ?_ ?_ w a b <;>
    intro a b <;> simp only [widthOf, sintN_64, sintN_32, if_false, if_true, Bool.false_eq_true] <;>
    rw [← BitVec.ofInt_toInt (x := BitVec.sshiftRight _ _), BitVec.toInt_sshiftRight, Int.shiftRight_eq_div_pow] <;>
    simp [BitVec.toNat_setWidth, Nat.mod_mod_of_dvd]
theorem minRes_eq (w : Bool) (a b : Word) : minRes w a b = atWidth w (fun _ x y => if x.sle y then x else y) a b := by
  refine atWidth_res (fun w a b => Min.min (sintN (widthOf w) a) (sintN (widthOf w) b)) (fun _ x y => if x.sle y then x else y)
    ?_ ?_ w a b <;>
    intro a b <;> simp only [widthOf, sintN_64, sintN_32, if_false, if_true, Bool.false_eq_true, BitVec.sle, min_def,
      decide_eq_true_eq] <;> split <;> simp only [BitVec.ofInt_toInt]
theorem maxRes_eq (w : Bool) (a b : Word) : maxRes w a b = atWidth w (fun _ x y => if x.sle y then y else x) a b := by
  refine atWidth_res (fun w a b => Max.max (sintN (widthOf w) a) (sintN (widthOf w) b)) (fun _ x y => if x.sle y then y else x)
    ?_ ?_ w a b <;>
    intro a b <;> simp only [widthOf, sintN_64, sintN_32, if_false, if_true, Bool.false_eq_true, BitVec.sle, max_def,
      decide_eq_true_eq] <;> split <;> simp only [BitVec.ofInt_toInt]
theorem minnRes_eq (w : Bool) (a b : Word) : minnRes w a b = atWidth w (fun _ x y => if x ≤ y then x else y) a b := by
  refine atWidth_res (fun w a b => (Min.min (uintN (widthOf w) a) (uintN (widthOf w) b) : Nat))
    (fun _ x y => if x ≤ y then x else y) ?_ ?_ w a b <;>
    intro a b <;> simp only [widthOf, uintN_64, uintN_32, if_false, if_true, Bool.false_eq_true, BitVec.le_def, min_def] <;>
    split <;> rw [BitVec.ofInt_natCast, BitVec.ofNat_toNat, BitVec.setWidth_eq]
theorem maxnRes_eq (w : Bool) (a b : Word) : maxnRes w a b = atWidth w (fun _ x y => if x ≤ y then y else x) a b := by
  refine atWidth_res (fun w a b => (Max.max (uintN (widthOf w) a) (uintN (widthOf w) b) : Nat))
    (fun _ x y => if x ≤ y then y else x) ?_ ?_ w a b <;>
    intro a b <;> simp only [widthOf, uintN_64, uintN_32, if_false, if_true, Bool.false_eq_true, BitVec.le_def, max_def] <;>
    split <;> rw [BitVec.ofInt_natCast, BitVec.ofNat_toNat, BitVec.setWidth_eq]
theorem natAbs_abs {n : Nat} (x : BitVec n) : BitVec.ofInt n x.toInt.natAbs = x.abs := by
  unfold BitVec.abs
  rw [BitVec.msb_eq_toInt]
  by_cases h : x.toInt < 0
  · rw [decide_eq_true h, if_pos rfl, Int.ofNat_natAbs_of_nonpos (Int.le_of_lt h), BitVec.ofInt_neg, BitVec.ofInt_toInt]; rfl
  · rw [decide_eq_false h, if_neg (by simp), Int.natAbs_of_nonneg (by omega), BitVec.ofInt_toInt]
theorem absRes_eq (w : Bool) (a : Word) : absRes w a = atWidth1 w (fun _ x => x.abs) a := by
  refine atWidth_res (fun w a _ => (sintN (widthOf w) a).natAbs) (fun _ x _ => x.abs) ?_ ?_ w a a <;>
    intro a _ <;> simp only [widthOf, sintN_64, sintN_32, if_false, if_true, Bool.false_eq_true] <;>
    exact natAbs_abs _
theorem rol_nat {n : Nat} (x : BitVec n) (k : Nat) (hk : k < n) :
    (x.toNat * 2 ^ k + x.toNat / 2 ^ (n - k)) % 2 ^ n = x.toNat <<< k % 2 ^ n ||| x.toNat >>> (n - k) := by
  have e : 2 ^ n = 2 ^ (n - k) * 2 ^ k := by rw [← Nat.pow_add]; congr 1; omega
  have hx := x.isLt
  have hq : x.toNat / 2 ^ (n - k) < 2 ^ k := by
    rw [Nat.div_lt_iff_lt_mul (by positivity)]; calc _ < 2 ^ n := hx
      _ = _ := by rw [e, Nat.mul_comm]
  have h1 : x.toNat * 2 ^ k % 2 ^ n = (x.toNat % 2 ^ (n - k)) * 2 ^ k := by
    rw [e, Nat.mul_mod_mul_right]
  rw [Nat.shiftLeft_eq, Nat.shiftRight_eq_div_pow, h1, ← Nat.shiftLeft_eq (x.toNat % _), ← Nat.shiftLeft_add_eq_or_of_lt hq, Nat.add_mod, h1,
    Nat.shiftLeft_eq, Nat.add_mod_mod]
  apply Nat.mod_eq_of_lt
  have h2 : x.toNat % 2 ^ (n - k) < 2 ^ (n - k) := Nat.mod_lt _ (by positivity)
  have h3 : (x.toNat % 2 ^ (n - k) + 1) * 2 ^ k ≤ 2 ^ (n - k) * 2 ^ k := Nat.mul_le_mul_right _ h2
  rw [Nat.add_mul] at h3
  rw [e]; omega
theorem rolRes_eq (w : Bool) (a b : Word) : rolRes w a b = atWidth w (fun _ x y => x.rotateLeft y.toNat) a b := by
  refine atWidth_res (fun w a b => ((uintN (widthOf w) a * 2 ^ (b.toNat % widthOf w)
    + uintN (widthOf w) a / 2 ^ (widthOf w - b.toNat % widthOf w)) % 2 ^ widthOf w : Nat))
    (fun _ x y => x.rotateLeft y.toNat) ?_ ?_ w a b <;>
    intro a b <;> simp only [widthOf, uintN_64, uintN_32, if_false, if_true, Bool.false_eq_true] <;>
    rw [BitVec.ofInt_natCast] <;> apply BitVec.eq_of_toNat_eq
  · rw [BitVec.toNat_rotateLeft, ← rol_nat _ _ (Nat.mod_lt _ (by decide)), BitVec.toNat_ofNat, Nat.mod_mod]
  · have : (b.setWidth 32).toNat % 32 = b.toNat % 32 := by rw [BitVec.toNat_setWidth, Nat.mod_mod_of_dvd _ (by decide)]
    rw [BitVec.toNat_rotateLeft, ← rol_nat _ _ (Nat.mod_lt _ (by decide)), BitVec.toNat_ofNat, Nat.mod_mod, this]
theorem sextN_eq (n : Nat) (a : Word) : sextN n a = (a.setWidth n).signExtend 64 := by
  unfold sextN sintN word64
  rw [← sintOf_mod, ← BitVec.toNat_setWidth, sintOf_toNat]; rfl
theorem zextN_eq (n : Nat) (a : Word) : zextN n a = (a.setWidth n).setWidth 64 := by
  apply BitVec.eq_of_toNat_eq; simp [zextN, uintN]
theorem leaRes_eq (k : BitVec 2) (a b : Word) : leaRes k a b = a + b <<< k.toNat := by
  apply BitVec.eq_of_toNat_eq
  simp [leaRes, BitVec.toNat_add, BitVec.toNat_shiftLeft, Nat.shiftLeft_eq]
theorem toNat_pair (d a : Word) : (d ++ a).toNat = d.toNat * 2 ^ 64 + a.toNat := by
  rw [BitVec.toNat_append, ← Nat.shiftLeft_add_eq_or_of_lt a.isLt, Nat.shiftLeft_eq]
theorem fshlRes_eq (d a b : Word) : fshlRes d a b = ((d ++ a) <<< (b.toNat % 64)).extractLsb' 64 64 := by
  apply BitVec.eq_of_toNat_eq
  simp only [fshlRes, BitVec.extractLsb'_toNat, BitVec.toNat_shiftLeft, toNat_pair, Nat.shiftLeft_eq, Nat.shiftRight_eq_div_pow,
    BitVec.toNat_ofNat]
  omega
theorem fshrRes_eq (d a b : Word) : fshrRes d a b = ((a ++ d) >>> (b.toNat % 64)).extractLsb' 0 64 := by
  apply BitVec.eq_of_toNat_eq
  simp [fshrRes, BitVec.extractLsb'_toNat, BitVec.toNat_ushiftRight, toNat_pair, Nat.shiftRight_eq_div_pow]
theorem bfxRes_eq (pos len1 : BitVec 6) (a : Word) :
    bfxRes pos len1 a = ((a >>> pos.toNat).setWidth (len1.toNat + 1)).signExtend 64 := sextN_eq _ _
theorem bfxnRes_eq (pos len1 : BitVec 6) (a : Word) :
    bfxnRes pos len1 a = ((a >>> pos.toNat).setWidth (len1.toNat + 1)).setWidth 64 := zextN_eq _ _

/-! ### Bits -/

/-- The bits of a bit-field insertion (R95). -/
theorem bfiRes_bit (pos len1 : BitVec 6) (d a : Word) (i : Nat) (hi : i < 64) :
    (bfiRes pos len1 d a).getLsbD i
      = if pos.toNat ≤ i ∧ i ≤ pos.toNat + len1.toNat then a.getLsbD (i - pos.toNat) else d.getLsbD i := by
  have e : d.toNat % 2 ^ pos.toNat + uintN (len1.toNat + 1) a * 2 ^ pos.toNat
      + d.toNat / 2 ^ (pos.toNat + len1.toNat + 1) * 2 ^ (pos.toNat + len1.toNat + 1)
      = 2 ^ pos.toNat * (2 ^ (len1.toNat + 1) * (d.toNat / 2 ^ (pos.toNat + len1.toNat + 1)) + uintN (len1.toNat + 1) a)
        + d.toNat % 2 ^ pos.toNat := by
    rw [Nat.add_assoc pos.toNat, Nat.pow_add]; ring
  have hm : uintN (len1.toNat + 1) a < 2 ^ (len1.toNat + 1) := Nat.mod_lt _ (by positivity)
  unfold bfiRes
  rw [BitVec.getLsbD_ofNat, e]
  simp only [hi, decide_true, Bool.true_and,
    Nat.testBit_two_pow_mul_add _ (Nat.mod_lt d.toNat (show 0 < 2 ^ pos.toNat by positivity)), Nat.testBit_two_pow_mul_add _ hm]
  simp only [Nat.testBit_div_two_pow, Nat.testBit_mod_two_pow, uintN]
  by_cases h1 : i < pos.toNat
  · rw [if_pos h1, if_neg (by omega)]; simp [h1, BitVec.getLsbD]
  · rw [if_neg h1]
    by_cases h2 : i - pos.toNat < len1.toNat + 1
    · rw [if_pos h2, if_pos (by omega)]; simp [h2, BitVec.getLsbD]
    · rw [if_neg h2, if_neg (by omega)]
      rw [BitVec.getLsbD]; congr 1; omega

theorem bitsOf_get (n v i : Nat) (h : i < n) : (bitsOf n v)[i]? = some (v.testBit i) := by
  simp only [bitsOf, List.getElem?_map, List.getElem?_range h, Option.map_some, nbit]
  rw [Nat.testBit_eq_decide_div_mod_eq]; rfl
theorem bitsOf_length (n v : Nat) : (bitsOf n v).length = n := by simp [bitsOf]
theorem uintN_bit (w : Bool) (a : Word) (i : Nat) (h : i < widthOf w) : (uintN (widthOf w) a).testBit i = a.getLsbD i := by
  simp [uintN, Nat.testBit_mod_two_pow, h, BitVec.getLsbD]
theorem takeWhile_zeros (l : List Bool) :
    let c := (l.takeWhile (! ·)).length
    c ≤ l.length ∧ (∀ i < c, l[i]? = some false) ∧ (c < l.length → l[c]? = some true) := by
  induction l with
  | nil => simp
  | cons b l ih =>
    cases b
    · simp only [List.takeWhile_cons, Bool.not_false, if_true, List.length_cons] at ih ⊢
      refine ⟨by omega, ?_, fun h => ?_⟩
      · intro i hi
        cases i with
        | zero => rfl
        | succ i => exact ih.2.1 i (by omega)
      · exact ih.2.2 (by omega)
    · simp
theorem width_le (w : Bool) : widthOf w ≤ 64 := by cases w <;> decide
/-- The leading zeros (R93). -/
theorem clzRes_is (w : Bool) (a : Word) :
    let c := (clzRes w a).toNat
    let n := widthOf w
    c ≤ n ∧ (∀ i < n, n - c ≤ i → a.getLsbD i = false) ∧ (c < n → a.getLsbD (n - 1 - c) = true) := by
  have h := takeWhile_zeros (bitsOf (widthOf w) (uintN (widthOf w) a)).reverse
  simp only [List.length_reverse, bitsOf_length] at h
  have hc : (clzRes w a).toNat = ((bitsOf (widthOf w) (uintN (widthOf w) a)).reverse.takeWhile (! ·)).length := by
    rw [clzRes, BitVec.toNat_ofNat, Nat.mod_eq_of_lt]; have := width_le w; omega
  have rev : ∀ i < widthOf w, (bitsOf (widthOf w) (uintN (widthOf w) a)).reverse[i]? = some (a.getLsbD (widthOf w - 1 - i)) := by
    intro i hi
    rw [List.getElem?_reverse (by rw [bitsOf_length]; exact hi), bitsOf_length, bitsOf_get _ _ _ (by omega),
      uintN_bit _ _ _ (by omega)]
  simp only [hc]
  refine ⟨h.1, fun i hi hci => ?_, fun hlt => ?_⟩
  · have := h.2.1 (widthOf w - 1 - i) (by omega)
    rw [rev _ (by omega)] at this
    have e : widthOf w - 1 - (widthOf w - 1 - i) = i := by omega
    rw [e] at this; simpa using this
  · have := h.2.2 hlt
    rw [rev _ hlt] at this; simpa using this
/-- The trailing zeros (R93). -/
theorem ctzRes_is (w : Bool) (a : Word) :
    let c := (ctzRes w a).toNat
    let n := widthOf w
    c ≤ n ∧ (∀ i < c, a.getLsbD i = false) ∧ (c < n → a.getLsbD c = true) := by
  have h := takeWhile_zeros (bitsOf (widthOf w) (uintN (widthOf w) a))
  simp only [bitsOf_length] at h
  have hc : (ctzRes w a).toNat = ((bitsOf (widthOf w) (uintN (widthOf w) a)).takeWhile (! ·)).length := by
    rw [ctzRes, BitVec.toNat_ofNat, Nat.mod_eq_of_lt]; have := width_le w; omega
  have get : ∀ i < widthOf w, (bitsOf (widthOf w) (uintN (widthOf w) a))[i]? = some (a.getLsbD i) := by
    intro i hi; rw [bitsOf_get _ _ _ hi, uintN_bit _ _ _ hi]
  simp only [hc]
  refine ⟨h.1, fun i hi => ?_, fun hlt => ?_⟩
  · have := h.2.1 i hi
    rw [get _ (by omega)] at this; simpa using this
  · have := h.2.2 hlt
    rw [get _ hlt] at this; simpa using this
/-- The one bits (R93). -/
theorem popcRes_is (w : Bool) (a : Word) : popcRes w a = BitVec.ofNat 64 (((List.range (widthOf w)).map a.getLsbD).count true) := by
  have : bitsOf (widthOf w) (uintN (widthOf w) a) = (List.range (widthOf w)).map a.getLsbD := by
    apply List.ext_getElem?
    intro i
    by_cases h : i < widthOf w
    · rw [bitsOf_get _ _ _ h, uintN_bit _ _ _ h]; simp [h]
    · simp [bitsOf, h]
  rw [popcRes, this]
theorem ofBits_bit (l : List Bool) (i : Nat) : (ofBits l).testBit i = l[i]?.getD false := by
  induction l generalizing i with
  | nil => simp [ofBits]
  | cons b l ih =>
    have e : ofBits (b :: l) = 2 ^ 1 * ofBits l + b.toNat := rfl
    rw [e, Nat.testBit_two_pow_mul_add _ (by cases b <;> decide)]
    cases i with
    | zero => cases b <;> rfl
    | succ i => simpa using ih i
/-- The bits reversed (R93). -/
theorem brevRes_is (w : Bool) (a : Word) : brevRes w a = atWidth1 w (fun _ x => x.reverse) a := by
  have key : ∀ (w : Bool) (a : Word), BitVec.ofNat (widthOf w) (ofBits (bitsOf (widthOf w) (uintN (widthOf w) a)).reverse)
      = (a.setWidth (widthOf w)).reverse := by
    intro w a
    apply BitVec.eq_of_getLsbD_eq
    intro i hi
    have hn : widthOf w - 1 - i < widthOf w := by omega
    rw [BitVec.getLsbD_ofNat, BitVec.getLsbD_reverse, BitVec.getMsbD_eq_getLsbD, BitVec.getLsbD_setWidth, ofBits_bit,
      List.getElem?_reverse (by rw [bitsOf_length]; exact hi), bitsOf_length, bitsOf_get _ _ _ hn, uintN_bit _ _ _ hn]
    simp [hi, hn]
  cases w
  · have h := key false a
    have e : a.setWidth (widthOf false) = a := BitVec.setWidth_eq a
    rw [e] at h
    exact h
  · exact resOf_low _ _ (key true a)

theorem bytes_get (n : Nat) (f : Nat → Nat) (hf : ∀ j, f j < 256) (j : Nat) (hj : j < n) :
    (List.range n).foldl (fun acc j => acc + f j * 2 ^ (8 * j)) 0 / 2 ^ (8 * j) % 256 = f j := by
  have lt : ∀ n, (List.range n).foldl (fun acc j => acc + f j * 2 ^ (8 * j)) 0 < 2 ^ (8 * n) := by
    intro n
    induction n with
    | zero => simp
    | succ n ih =>
      rw [List.range_succ, List.foldl_append]
      have := hf n
      simp only [List.foldl_cons, List.foldl_nil]
      rw [show 8 * (n + 1) = 8 * n + 8 from by omega, Nat.pow_add]
      have h3 : (f n + 1) * 2 ^ (8 * n) ≤ 256 * 2 ^ (8 * n) := Nat.mul_le_mul_right _ (hf n)
      rw [Nat.add_mul] at h3
      omega
  induction n with
  | zero => omega
  | succ n ih =>
    rw [List.range_succ, List.foldl_append]
    simp only [List.foldl_cons, List.foldl_nil]
    by_cases h : j < n
    · have e : 2 ^ (8 * n) = 2 ^ (8 * j) * (256 * 2 ^ (8 * (n - j - 1))) := by
        rw [show (256 : Nat) = 2 ^ 8 from rfl, ← Nat.pow_add, ← Nat.pow_add]; congr 1; omega
      have e2 : f n * 2 ^ (8 * n) = 2 ^ (8 * j) * (256 * (f n * 2 ^ (8 * (n - j - 1)))) := by rw [e]; ring
      rw [e2, Nat.add_mul_div_left _ _ (by positivity), Nat.add_mul_mod_self_left]
      exact ih h
    · have : j = n := by omega
      subst this
      rw [Nat.add_mul_div_right _ _ (by positivity), Nat.div_eq_of_lt (lt j), Nat.zero_add, Nat.mod_eq_of_lt (hf j)]
/-- The bytes reversed (R93). -/
theorem bswapRes_is (w : Bool) (a : Word) : ∃ v : Word, bswapRes w a = atWidth1 w (fun n _ => v.setWidth n) a ∧
    ∀ j < widthOf w / 8, v.extractLsb' (8 * j) 8 = a.extractLsb' (widthOf w - 8 - 8 * j) 8 := by
  let v := (List.range (widthOf w / 8)).foldl (fun acc j => acc + getBytes a.toNat (widthOf w / 8 - 1 - j) 1 * 2 ^ (8 * j)) 0
  refine ⟨BitVec.ofNat 64 v, ?_, fun j hj => ?_⟩
  · cases w
    · have h : bswapRes false a = BitVec.ofInt 64 (v : Int) := rfl
      rw [h, BitVec.ofInt_natCast]
      exact (BitVec.setWidth_eq _).symm
    · refine resOf_low _ _ ?_
      rw [BitVec.ofInt_natCast]; apply BitVec.eq_of_toNat_eq
      rw [BitVec.toNat_setWidth, BitVec.toNat_ofNat, BitVec.toNat_ofNat, Nat.mod_mod_of_dvd _ (by decide)]
  · apply BitVec.eq_of_toNat_eq
    have hb := bytes_get (widthOf w / 8) (fun j => getBytes a.toNat (widthOf w / 8 - 1 - j) 1)
      (fun j => Nat.mod_lt _ (by decide)) j hj
    have h8 : 8 * j + 8 ≤ 64 := by have := width_le w; omega
    have e : 2 ^ 64 = 2 ^ (8 * j) * (256 * 2 ^ (56 - 8 * j)) := by
      rw [show (256 : Nat) = 2 ^ 8 from rfl, ← Nat.pow_add, ← Nat.pow_add]; congr 1; omega
    have e2 : v % 2 ^ 64 / 2 ^ (8 * j) % 256 = v / 2 ^ (8 * j) % 256 := by
      rw [e, Nat.mod_mul_right_div_self, Nat.mod_mul_right_mod]
    have e3 : 8 * (widthOf w / 8 - 1 - j) = widthOf w - 8 - 8 * j := by cases w <;> simp [widthOf] at hj ⊢ <;> omega
    simp only [BitVec.extractLsb'_toNat, BitVec.toNat_ofNat, Nat.shiftRight_eq_div_pow]
    refine e2.trans (hb.trans ?_)
    simp only [getBytes, e3]

end Sys2Proof.Machine
end

