-- ==== Sys2Proof/Tests/Slice0.lean ====
section
/-! SUPPORT. Tests of the model: ill-formed terms, words written out from the spec, one step of instructions of each family, and
for the statements with hypotheses states and operands that meet them. -/

namespace Sys2Proof.Tests
open Sys2Proof Sys2Proof.Machine

/-! ### Ill-formed terms -/

/-- A header with guard `p0`, no stall and no hint, which ends its convoy. -/
def hdr : Hdr := { c := false, gn := false, gp := 0, stall := 0, hint := .none }
/-- The mask modifier of a word without a mask. -/
def bare : MaskMod := { me := false, mn := false, mi := 0 }

theorem test_illformed_guard : (Instr.add { hdr with gn := true } false 1 (.imm 0) (.imm 0)).wellFormed = false := by decide
theorem test_illformed_terminal : (Instr.exit { hdr with c := true }).wellFormed = false := by decide
theorem test_illformed_plain : (Instr.join { hdr with gp := 1 }).wellFormed = false := by decide
theorem test_illformed_bitfield : (Instr.bfx hdr 60 4 1 (.imm 0)).wellFormed = false := by decide
theorem test_illformed_fpImmediate : (Instr.fadd hdr .f64 .rne 1 (.imm 1) (.x 2)).wellFormed = false := by decide
theorem test_illformed_intConversion : (Instr.fcvt hdr .i64 .n32 .rne 1 (.x 2)).wellFormed = false := by decide
theorem test_illformed_registerDisplacement : (Instr.br hdr (.x 1)).wellFormed = false := by decide
theorem test_illformed_longStride : (Instr.replay hdr 0 0 (.long .full)).wellFormed = false := by decide
theorem test_illformed_mask : (Instr.vadd hdr { bare with mi := 3 } 0 (.lat (.own 0)) (.lat (.own 1))).wellFormed = false := by decide
theorem test_illformed_maskNeeded : (Instr.vcomp hdr bare 0 (.own 1)).wellFormed = false := by decide
theorem test_illformed_scaleLatch : (Instr.vmxq hdr .f32 0 0 1 (.own 2) 1).wellFormed = false := by decide
theorem test_illformed_rankedIota : (Instr.viota hdr true bare 0 (.imm 0)).wellFormed = false := by decide
theorem test_illformed_loadRange : (Instr.ldv hdr 7 60 1 (.imm 0)).wellFormed = false := by decide
theorem test_illformed_atomic : (Instr.amo hdr .cas false 1 2 (.imm 0)).wellFormed = false := by decide
theorem test_illformed_pair : (Instr.cas hdr .q 1 2 4).wellFormed = false := by decide
theorem test_illformed_reduction : (Instr.red hdr .swap false 2 (.imm 0)).wellFormed = false := by decide
theorem test_illformed_command : (Instr.enq1 hdr 1 57).wellFormed = false := by decide
theorem test_illformed_trapCode : (Instr.trap hdr 0 (.imm 0)).wellFormed = false := by decide

/-! ### Words of the spec -/

/-- The worked words of R34 to R36, and of the programs in spec/17 to spec/21. -/
theorem test_decode_pfx : decode 0xD42000000000000100000000 = .ok (.pfx 0x0000000100000000) := by decide
theorem test_decode_scalar :
    decode 0x006000000000050000680000 = .ok (.add { hdr with c := true } false 5 (.x 6) (.long .full)) := by decide
theorem test_decode_guarded :
    decode 0x004300000000070000540064 = .ok (.add { hdr with gp := 3 } false 7 (.x 5) (.imm 100)) := by decide
theorem test_decode_control : decode 0x32C000000000000000000000 = .ok (.exit hdr) := by decide
theorem test_decode_row : decode 0x40C000000080024000000000 = .ok (.wbp hdr 2 (.imm 0)) := by decide
theorem test_decode_lane :
    decode 0x508000000080020800008001 = .ok (.vadd hdr bare 2 (.lat (.own 0)) (.lat (.own 1))) := by decide
theorem test_decode_masked : decode 0x50800000B080010800008002
    = .ok (.vadd hdr { me := true, mn := false, mi := 3 } 1 (.lat (.own 0)) (.lat (.own 2))) := by decide
theorem test_decode_lattice :
    decode 0x5B8100001080000800208001 = .ok (.vlqq { hdr with gp := 1 } .bf16 0 0 0 (.own 2) 1) := by decide
theorem test_decode_matrix :
    decode 0x88000002D000001800018001 = .ok (.tload hdr .lq8s false { bank := 0, g := 0 } (some { bank := 0, g := 1 })) := by decide
theorem test_decode_pool : decode 0x9A4000003000060000240000 = .ok (.ldv hdr 3 6 2 (.imm 0)) := by decide
theorem test_decode_global : decode 0xA8C000340080000000208001 = .ok (.redv hdr bare .fadd 0 2 (.ix 1)) := by decide
theorem test_decode_fence : decode 0xB00000003000004010100000 = .ok (.fence hdr .core 1 1) := by decide
theorem test_decode_engine : decode 0xB54000000000050001444000 = .ok (.barp hdr 5 20 (.imm 16384)) := by decide
theorem test_decode_sifter : decode 0xBC0000000040020000040000 = .ok (.sfcfg hdr 2 0 (.imm 0)) := by decide
/-- NOP with a bit in B (R41), and the opcode zero (R37). -/
theorem test_decode_refused : (decode 0x300000000000000000000001).isOk = false ∧ (decode 0).isOk = false := by decide

/-! ### One step -/

/-- A word placed where the first step after reset fetches it. -/
def placed (w : Nat) : State := State.reset.withFetchWord 96 w
/-- A convoy of one hart under way on core 0, its package changed by `f` and its hart set to `t`. -/
def under (t : Hart) (f : Device → Device := id) : State :=
  { placed 0 with dev := f ((placed 0).dev.setHart 0 0 t), iss := {}, agenda := [] }
/-- A hart whose registers hold these values from x0 on. -/
def holding (l : List Word) : Hart := { ({} : Hart) with x := Vector.ofFn fun i => l.getD i.val 0 }
/-- What holds after a step that goes on. -/
def after (o : Out) (f : State → Bool) : Bool :=
  match o with
  | .next s => f s
  | _ => false
/-- A register of the hart reads as given once every result in flight has landed. -/
def reads (r : XReg) (v : Word) (s : State) : Bool := (s.dev.hart 0 0).landAll.getX r == v

/-- The step fetches, decodes and runs the placed word: ADD x5, x0, 1. -/
theorem test_step : after (step (placed 0x004000000000050000040001)) (reads 5 1) = true := by decide

/-- 64-bit sums wrap (R93). -/
theorem test_add_wraps : after (exec (.add hdr false 5 (.x 1) (.imm 2)) (under (holding [0, BitVec.allOnes 64]))) (reads 5 1) = true := by
  decide
/-- A 32-bit result is sign-extended (R89). -/
theorem test_add_word : after (exec (.add hdr true 5 (.x 1) (.imm 1)) (under (holding [0, 0x7FFFFFFF])))
    (reads 5 0xFFFFFFFF80000000) = true := by decide
/-- A write to x0 is discarded (R23). -/
theorem test_add_x0 : after (exec (.add hdr false 0 (.imm 1) (.imm 2)) (under {})) (reads 0 0) = true := by decide
/-- The least number divided by -1 is itself, and the quotient is truncated toward zero (R94). -/
theorem test_div_corner : after (exec (.div hdr false 5 (.x 1) (.imm 0x3FFFF)) (under (holding [0, 0x8000000000000000])))
    (reads 5 0x8000000000000000) = true := by decide
theorem test_div_truncates : after (exec (.div hdr false 5 (.x 1) (.imm 2)) (under (holding [0, BitVec.ofInt 64 (-7)])))
    (reads 5 (BitVec.ofInt 64 (-3))) = true := by decide
/-- With no handler, a zero divisor ends the convoy without its effect (R94, R376). -/
theorem test_div_zero : after (exec (.div hdr false 5 (.x 1) (.imm 0)) (under (holding [0, 7, 0, 0, 0, 9]))) (reads 5 9) = true := by decide
/-- FSHR: the low word of A above the old destination, moved down by the count (R95). -/
theorem test_fshr : after (exec (.fshr hdr 2 (.x 1) (.imm 4)) (under (holding [0, 0xF, 0xA]))) (reads 2 0xF000000000000000) = true := by decide
/-- 1.5 + 2.25 = 3.75 in f32 (R104). -/
theorem test_fadd : after (exec (.fadd hdr .f32 .rne 5 (.x 1) (.x 2)) (under (holding [0, 0x3FC00000, 0x40100000])))
    (reads 5 0x40700000) = true := by decide
/-- SUBBR falls through at zero and goes to its target above it (R108). -/
theorem test_subbr_falls : after (exec (.subbr hdr 1 (.imm 2) (.imm 1)) (under (holding [0, 1])))
    (fun s => (s.dev.gang? 0 0).any fun g => g.pc == 12) = true := by decide
theorem test_subbr_goes : after (exec (.subbr hdr 1 (.imm 2) (.imm 1)) (under (holding [0, 2])))
    (fun s => (s.dev.gang? 0 0).any fun g => g.pc == 24) = true := by decide
/-- ACTW makes the latch valid at once and leaves one command at the bank (R129). -/
theorem test_act : after (exec (.actw hdr 1) (under {})) (fun s => (s.dev.bank 0 0).rowQ.length == 1 && (s.dev.latch 0 0 1).valid)
    = true := by decide
/-- HARTID.gsize of a gang of one (R84). -/
theorem test_hartid : after (exec (.hartid hdr .gsize 5) (under {})) (reads 5 1) = true := by decide
/-- SETVT returns the old VT, which resets to 0x000F (R191). -/
theorem test_setvt : after (exec (.setvt hdr 5 (.imm 0)) (under {})) (fun s => reads 5 0xF s && (s.dev.hart 0 0).vt == 0) = true := by
  decide
/-- A store and then the byte at its address in the scratchpad, lowest first (R9, R263). -/
theorem test_st : after (exec (.st hdr .b16 false 1 2 (.imm 0)) (under (holding [0, 0xBEEF, 0xFFFFF00000004000])
    fun d => d.modRes 0 fun r => { r with sb := 32768 }))
    (fun s => (s.dev.res? 0).any fun r => r.scratch == [(0x4000, 0xEF), (0x4001, 0xBE)]) = true := by decide
/-- A misaligned load traps, and its destination stays (R263). -/
theorem test_ld_misaligned : after (exec (.ld hdr .x64 false 5 2 (.imm 1)) (under (holding [0, 0, 0xFFFFF00000004000, 0, 0, 9])
    fun d => d.modRes 0 fun r => { r with sb := 32768 })) (reads 5 9) = true := by decide
/-- BARP on a barrier object returns the phase and moves PEND (R339). -/
theorem test_barp : after (exec (.barp hdr 5 2 (.imm 3)) (under (holding [0, 0, 0xFFFFF00000004000])
    fun d => d.modRes 0 fun r => { r with sb := 32768 })) (fun s => reads 5 0 s && (s.dev.res? 0).any fun r => (r.bar 0x4000).pend == 3)
    = true := by decide
/-- CSRR of VT at its reset value (R380). -/
theorem test_csrr : after (exec (.csrr hdr 5 .vt) (under {})) (reads 5 0xF) = true := by decide
/-- DEPQ of a handle that no launch holds (R407). -/
theorem test_depq : after (exec (.depq hdr 5 1) (under (holding [0, 77, 0, 0, 0, 3]))) (reads 5 0) = true := by decide
/-- SFCFG of no buffer binds the free Sifter (R356). -/
theorem test_sfcfg : after (exec (.sfcfg hdr 2 0 (.imm 0)) (under {}))
    (fun s => (s.dev.hart 0 0).landAll.getP 2 && (s.dev.core 0).sifter != .free) = true := by decide
/-- ESTAT of an empty slot (R337). -/
theorem test_estat : after (exec (.estat hdr (.slot (.imm 0)) 5) (under (holding [0, 0, 0, 0, 0, 3]))) (reads 5 0) = true := by decide
/-- REGISTER_WRITE at an offset that names no register sets HWD (R408). -/
theorem test_registerWrite : after (exec (.registerWrite 0x00020 (some 5)) (under {})) (fun s => s.dev.regs.hwd) = true := by decide
/-- A tail of more than 16 bits sets HWD (R395). -/
theorem test_qtail : after (exec (.qtail 0 0x10000) (under {})) (fun s => s.dev.regs.hwd) = true := by decide

/-! ### States that meet the hypotheses of the statements -/

/-- What `State.Quiet` asks, as a check. -/
def quietB (s : State) : Bool :=
  (s.dev.gang? s.rk s.iss.base).isSome && decide (s.iss.fails = []) && decide (s.iss.hold = none)
    && decide (∀ k ∈ s.active, (s.begun.hart k).flight = none ∧ (s.begun.hart k).due = [] ∧ s.begun.unretired k = false)
    && decide (∀ k ∈ List.range 16, (s.begun.dev.bank s.iss.core k).rowQ = [] ∧ (s.begun.dev.bank s.iss.core k).segs = []
        ∧ (s.begun.rollback.bank s.iss.core k).rowQ = [])
    && decide ((s.begun.dev.core s.iss.core).mx = []) && decide ((s.begun.rollback.core s.iss.core).mx = [])
    && !s.begun.rollback.longRuns s.rk s.iss.base s.gang
/-- What `State.Solo` asks more. -/
def soloB (s : State) (h : Hdr) (k : Nat) : Bool := quietB s && decide (s.active = [k]) && s.begun.guard h k
theorem quiet_of {s : State} (hb : quietB s = true) : s.Quiet := by
  simp only [quietB, Bool.and_eq_true, decide_eq_true_eq, Bool.not_eq_true'] at hb
  obtain ⟨⟨⟨⟨⟨⟨⟨g, f⟩, w⟩, t⟩, r⟩, m⟩, n⟩, long⟩ := hb
  exact ⟨⟨⟨g, f, w⟩, fun k hk => ⟨(t k hk).1, .inr (t k hk).2.1⟩,
      fun k _ r => by rw [← begun_rk s]; exact mxDest_quiet s.begun k (by rw [begun_core]; exact m) r⟩,
    fun k hk => (r k (List.mem_range.2 hk)).1, fun k hk => (r k (List.mem_range.2 hk)).2.1, m, fun k hk => (r k (List.mem_range.2 hk)).2.2, n,
    fun k hk => (t k hk).2.2, long⟩
theorem solo_of {s : State} {h : Hdr} {k : Nat} (hb : soloB s h k = true) : s.Solo h k := by
  simp only [soloB, Bool.and_eq_true, decide_eq_true_eq] at hb
  exact ⟨quiet_of hb.1.1, hb.1.2, hb.2⟩
/-- What `State.LaneReady` asks more. -/
def laneB (s : State) (h : Hdr) (k : Nat) (ok : VFmt → Bool) (ls : List LatRef) : Bool :=
  soloB s h k && decide (s.iss.view = []) && ok (s.begun.lanes k).fmt && decide ((s.begun.lanes k).fmt ≠ .illegal)
    && blkOk (s.begun.lanes k).fmt (s.begun.lanes k).bl && !s.begun.wide (s.begun.lanes k).fmt.bits
    && decide (∀ r ∈ ls, (s.latOf k r).1 < 16 ∧ (s.begun.latR k r).valid = true
        ∧ ((s.begun.latR k r).tag = 0xF ∨ (s.begun.latR k r).tag.toNat = (s.begun.lanes k).fmt.code) ∧ (s.begun.latR k r).poison = 0)
theorem lane_of {s : State} {h : Hdr} {k : Nat} {ok : VFmt → Bool} {ls : List LatRef} (hb : laneB s h k ok ls = true) :
    s.LaneReady h k ok ls := by
  simp only [laneB, Bool.and_eq_true, decide_eq_true_eq, Bool.not_eq_true'] at hb
  obtain ⟨⟨⟨⟨⟨⟨a, b⟩, c⟩, d⟩, e⟩, f⟩, g⟩ := hb
  exact ⟨solo_of a, b, c, d, e, f, fun r hr => ⟨(g r hr).1, (g r hr).2.1, (g r hr).2.2.1, (g r hr).2.2.2⟩⟩

/-- The package with these latches in bank 0. -/
def latches (l : LatchRec) (d : Device) : Device :=
  d.setBank 0 0 { d.bank 0 0 with groups := Vector.replicate 4 { latch := l } }
/-- The package with a group state in bank 0. -/
def groups (x : Group) (d : Device) : Device := d.setBank 0 0 { d.bank 0 0 with groups := Vector.replicate 4 x }
/-- The package in full service. -/
def served (d : Device) : Device := { d with regs := { d.regs with rsvc := false } }
/-- The package with a scratchpad of the context. -/
def pooled (d : Device) : Device := d.modRes 0 fun r => { r with sb := 32768 }
/-- A hart with this VT and VL. -/
def lanes (vt : BitVec 16) (vl : BitVec 16) : Hart := { ({} : Hart) with vt := vt, vl := vl }
def raw : LatchRec := { valid := true }

theorem test_meets_calm : (under {}).Calm := (quiet_of (by decide)).toCalm
theorem test_meets_quiet : (under {}).Quiet ∧ (under {}).iss.base + (under {}).gang.size ≤ 16 := ⟨quiet_of (by decide), by decide⟩
theorem test_meets_solo : (under {}).Solo hdr 0 := solo_of (by decide)
theorem test_meets_integerLanes :
    (under (lanes 0 2) (latches raw)).LaneReady hdr 0 VFmt.isInt (.own 0 :: lopLats (.lat (.own 1)) ++ lopLats (.lat (.own 2))) :=
  lane_of (by decide)
theorem test_meets_floatLanes :
    (under (lanes 7 2) fun d => served (latches raw d)).LaneReady hdr 0 VFmt.isFloat (.own 0 :: lopLats (.lat (.own 1)) ++ lopLats (.lat (.own 2)))
    ∧ trapMask ((under (lanes 7 2) fun d => served (latches raw d)).begun.hart 0).fpc = 0 := ⟨lane_of (by decide), by decide⟩
theorem test_meets_laneMoves :
    let s := under (lanes 1 2) (latches raw)
    (activeUnits (s.begun.hart 0) bare (s.begun.lanes 0).fmt).2 = none ∧ s.LaneReady hdr 0 (fun _ => true) [.own 0, .own 1]
    ∧ s.LaneReady hdr 0 (fun _ => true) (.own 0 :: gangLats s.gang.size 1) ∧ (s.begun.src 0 (.imm 1)).toNat < 2
    ∧ 2 ≤ (s.begun.lanes 0).vl / (s.begun.lanes 0).fmt.per := ⟨by decide, lane_of (by decide), lane_of (by decide), by decide, by decide⟩
theorem test_meets_laneReductions :
    (under (lanes 3 4) (latches raw)).LaneReady hdr 0 VFmt.isInt [.own 0, .own 1]
    ∧ (under (lanes 8 4) (latches raw)).LaneReady hdr 0 intOrFloat [.own 0, .own 1]
    ∧ (under (lanes 8 4) fun d => served (latches raw d)).begun.wide 32 = false := ⟨lane_of (by decide), lane_of (by decide), by decide⟩
/-- VT: e4m3 with blocks of 32 under one segment, and lq8s with blocks of 32; nothing of a conversion is out of range. -/
theorem test_meets_laneConversions :
    let s := under (lanes 10 32) (latches raw)
    s.Solo hdr 0 ∧ s.iss.view = [] ∧ trapMask (s.begun.hart 0).fpc = 0 ∧ (s.begun.lanes 0).lqt = false
    ∧ (s.begun.lanes 0).fmt.code ≤ 11 ∧ (s.begun.lanes 0).bl = 0 ∧ Usable s 0 .f32 (.own 1) ∧ Usable s 0 .e4m3 (.own 0) :=
  ⟨solo_of (by decide), by decide, by decide, by decide, by decide, by decide, ⟨by decide, by decide, by decide, by decide⟩,
    ⟨by decide, by decide, by decide, by decide⟩⟩
theorem test_meets_scaledConversions :
    let c := ((under (lanes 0x3A 32) (latches raw)).begun.lanes 0)
    let q := ((under (lanes 0x3D 32) (latches raw)).begun.lanes 0)
    c.fmt = .e4m3 ∧ c.bl ≠ 0 ∧ c.vl % c.bl = 0 ∧ c.lqt = false ∧ q.fmt.isLq = true ∧ q.bl = 32 ∧ q.vl % 8 = 0 := by decide
theorem test_meets_division : let s := under (holding [0, 6, 3])
    s.Calm ∧ (∀ j ∈ s.active, s.begun.guard hdr j = true → zeroAt false (s.begun.src j (.x 2)) = false) :=
  ⟨(quiet_of (by decide)).toCalm, by decide⟩
theorem test_meets_nan : ((fOf .f32).decode (fpBits (fOf .f32) 0x7FC00001)).isNan = true := by decide

/-! #### Steps, convoys and traps -/

/-- ADD x5, x0, 1, placed. -/
def addWord : IWord := 0x004000000000050000040001
theorem test_meets_step :
    let s := placed addWord.toNat
    let x := s.dev.fetchConvoy 0 0 0
    s.iss.rest = [] ∧ s.agenda = [.issue 0 0] ∧ (s.dev.core 0).issuing = some 0 ∧ (s.dev.res? 0).isSome = true
    ∧ (s.dev.gang? 0 0).any (fun g => g.pc == 0 && decide (g.replay = none) && !g.entry && decide (s.dev.dueTrap 0 0 g = none)) = true
    ∧ 0 ∈ s.dev.candidates 0 ∧ (match x.2 with | .ok l => l == [(0, addWord)] | _ => false) = true
    ∧ encodingFail 1 [(0, addWord)] = none := by decide
theorem test_meets_underWay : decode addWord = .ok (.add hdr false 5 (.x 0) (.imm 1)) := by decide
theorem test_meets_illegalWord : badWord 1 true false [(0, (0 : IWord))] = some 0 := by decide
theorem test_meets_fetch :
    let d := served (placed addWord.toNat).dev
    d.mem.wf = true ∧ ((d.core 0).atc.find? fun x => x.covers 0 0).any (fun e => nbit e.leaf.1 4 && !nbit e.leaf.1 5) = true := by
  decide
theorem test_meets_convoy :
    let u := (under {}).begun
    u.iss.fails = [] ∧ u.iss.hold = none ∧ u.iss.replay = false ∧ (∀ p ∈ u.iss.sweeps, p.2.cost ≤ 96)
    ∧ (u.dev.gang? u.rk u.iss.base).any (fun g => decide (u.iss.base + g.size ≤ 16)) = true ∧ u.iss.undo.isSome = true
    ∧ u.rollback.throttled u.iss.core u.rk (u.iss.charge + u.iss.later) = false := by decide
/-- A convoy held by an interlock, and one that waits for a place of the loop buffer. -/
theorem test_meets_waits : (WaitOn.rows 0).interlock = true ∧ WaitOn.buffer.interlock = false := by decide
theorem test_meets_latency : let t : Hart := { ({} : Hart) with conv := [{ reg := .x 5, val := 9, lat := some 4 }] }
    (Reg.x 5).fixed = false ∧ t.due = [] ∧ t.flight = none := by decide
theorem test_meets_trap :
    let d := (under {}).dev.modRes 0 fun r => { r with tvec := 64 }
    (d.res? 0).any (fun r => r.tvec != 0) = true
    ∧ (d.gang? 0 0).any (fun g => (banksOf g.gm).all fun k => decide (k < g.size) && !(d.hart 0 k).tcause.getLsbD 10) = true := by
  decide
theorem test_meets_kill : ((under {}).dev.res? 0).any (fun r => r.tvec == 0) = true := by decide
theorem test_meets_pageFault : (under {}).dev.faultLog.full = true := by decide
/-- A fault log with room, whose next entry lies in the array. -/
theorem test_meets_faultLog :
    let d := { served (under {}).dev with faultLog := { base := 8192, log := 4 } }
    d.faultLog.full = false ∧ d.faults = [] ∧ d.mem.wf = true ∧ d.faultLog.entry 32 d.faultLog.tail % 32 = 0
    ∧ (match d.stor (d.faultLog.entry 32 d.faultLog.tail) with | .dram _ => true | _ => false) = true := by decide
theorem test_meets_encoding : (Instr.add hdr false 5 (.x 0) (.imm 1)).isWord = true
    ∧ (Instr.add hdr false 5 (.x 0) (.imm 1)).wellFormed = true := by decide
theorem test_meets_memories : (placed addWord.toNat).stored = true ∧ after (step (placed addWord.toNat)) (fun _ => true) = true := by
  decide

/-! #### Control and row words -/

theorem test_meets_transfers :
    let s := under (holding [0, 24])
    s.active ≠ [] ∧ (∀ k ∈ s.active, s.begun.guard hdr k = true ∧ s.begun.src k (.x 1) = 24)
    ∧ (s.begun.dev.targetCheck s.iss.core s.begun.ctx 24).2 = none
    ∧ (s.begun.dev.targetCheck s.iss.core s.begun.ctx 1).2.isSome = true := by decide
/-- A gang of two harts. -/
def pair (s : State) : State :=
  { s with dev := ((s.dev.setHart 0 1 { ({} : Hart) with p := Vector.replicate 16 true }).setGang 0 0
      { size := 2, gm := 3, live := 3, pc := 0 }) }
theorem test_meets_disagreement :
    let s := pair (under (holding [0, 24]))
    let h : Hdr := { hdr with gp := 1 }
    s.Calm ∧ (∃ k ∈ s.active, s.begun.guard h k = true) ∧ (∃ k ∈ s.active, s.begun.guard h k = false)
    ∧ (∃ j ∈ s.active, ∃ k ∈ s.active, (s.begun.hart j).getX 1 ≠ (s.begun.hart k).getX 1) :=
  ⟨(quiet_of (by decide)).toCalm, by decide, by decide, by decide⟩
theorem test_meets_join :
    let r : DsRec := { j := 0, ma := 1, mw := 1, pw := 12 }
    let s := { under {} with dev := (under {}).dev.setGang 0 0 { size := 1, gm := 1, live := 1, pc := 0, ds := [r] } }
    s.Calm ∧ s.gang.ds = [] ++ [r] ∧ r.j = s.begun.iss.addr ∧ r.mw ≠ 0 :=
  ⟨(quiet_of (by decide)).toCalm, by decide, by decide, by decide⟩
theorem test_meets_exit :
    let s := under {}
    (s.begun.hart 0).bars = Vector.replicate 4 none ∧ (s.begun.rollback.hart s.rk 0).redOut = 0 ∧ (s.begun.hart 0).engTraps = []
    ∧ s.iss.base ≤ 0 ∧ 0 < s.iss.base + s.gang.size
    ∧ s.gang.ds = [] := by decide
/-- A hart that ends on the arrived side of a record whose other side has ended. -/
theorem test_meets_exitArrives :
    let r : DsRec := { j := 24, ma := 3, mw := 0, pw := 12 }
    let s := { under {} with dev := (under {}).dev.setGang 0 0 { size := 2, gm := 1, live := 3, pc := 0, ds := [r] } }
    s.Solo hdr 0 ∧ s.gang.ds = [] ++ [r] ∧ r.mw &&& ~~~ (1#16 <<< 0) = 0 ∧ r.ma &&& ~~~ (1#16 <<< 0) ≠ 0 :=
  ⟨solo_of (by decide), by decide, by decide, by decide⟩
/-- EXIT on no hart, and on every hart of a gang with an empty stack. -/
theorem test_meets_exitCompletes :
    let s := under {}
    s.Quiet ∧ (∀ k ∈ s.active, s.begun.guard { hdr with gp := 1 } k = false) ∧ (∃ k ∈ s.active, s.begun.guard hdr k = true)
    ∧ (∀ k ∈ s.active, s.begun.guard hdr k = true) ∧ s.gang.ds = [] := ⟨quiet_of (by decide), by decide, by decide, by decide, by decide⟩
theorem test_meets_replay :
    let c : Capture := { res := 0, body := 12, n := 1, convoys := [(12, [0x300000000000000000000000])], used := 0 }
    let s := under { ({} : Hart) with rc := 2 } fun d => d.modCore 0 fun x => { x with loops := [c] }
    s.Solo hdr 0 ∧ wordDisp s.begun.iss.addr 1 = 12 ∧ s.begun.dev.capture? s.iss.core s.rk 12 1 = some c
    ∧ (s.begun.dev.targetCheck s.iss.core s.begun.ctx 12).2 = none ∧ (s.begun.hart 0).rc.extractLsb' 0 32 = 2
    ∧ (s.begun.hart 0).ei.getLsbD 38 = false := ⟨solo_of (by decide), by decide, by decide, by decide, by decide, by decide⟩
/-- Row 0 and row 507 of an allotment of 508 rows; row 508 is past it. -/
theorem test_meets_rowWords :
    let s := under {} fun d => served (latches raw d)
    s.Solo hdr 0 ∧ s.dev.regs.rsvc = false ∧ (s.begun.res?.any fun r => r.acount == 508 && r.abase == 0) = true
    ∧ s.begun.rowIndex 0 (.imm 0) = 0 ∧ s.begun.rowIndex 0 (.imm 507) = 507 ∧ s.begun.rowIndex 0 (.imm 508) = 508
    ∧ s.begun.rowIndex 0 (.imm 0x3FFFF) = -1 ∧ (s.begun.grp 0 0).gs = .free ∧ (s.begun.grp 0 0).latch.valid = true :=
  ⟨solo_of (by decide), by decide, by decide, by decide, by decide, by decide, by decide, by decide, by decide⟩
theorem test_meets_claimedRow :
    let s := under {} fun d => served (groups { latch := raw, gs := .opened 3 } d)
    s.Solo hdr 0 ∧ (s.begun.grp 0 0).gs = .opened 3 := ⟨solo_of (by decide), by decide⟩
theorem test_meets_rowStart :
    let cmd : RowCmd := { g := 0, op := .actw, t0 := some 0 }
    let d := served ((under {}).dev.setBank 0 0 { rowQ := [cmd] })
    (d.rowNext 0 0).any (fun x => x.1 == 0 && x.2.1 == cmd) = true ∧ (d.bank 0 0).rowQ = [cmd] := by decide
/-- A body that the array holds, one that no convoy may be, and a loop buffer full of another body that a gang replays or not. -/
theorem test_meets_capture :
    let loops := fun (d : Device) => d.modCore 0 fun x => { x with loops := [{ res := 0, body := 96, n := 64, convoys := [], used := 0 }] }
    let full := loops (placed 0x300000000000000000000000).dev
    let busy := full.modGang 0 0 fun g => { g with replay := some { at_ := 0, body := 96, n := 64, stride := .imm 0 } }
    let made := fun (d : Device) => d.capture 0 0 0 1 0 1
    full.capture? 0 0 0 1 = none
    ∧ (match (full.fetchBody 0 0 1 1 0).2 with
      | .ok l => l.length == 1
      | .error _ => false) = true
    ∧ (match made full, made (loops (placed 0).dev) with
      | .ok _, .fail _ => true
      | _, _ => false) = true ∧ made busy = .full := by decide

/-- A bank of these rows. -/
def queued (op : RowOp) (d : Device) : Device := d.setBank 0 0 { d.bank 0 0 with rowQ := [{ g := 0, op := op, t0 := some 0 }] }
theorem test_meets_switchRows :
    let d := served (under {}).dev
    ∀ op ∈ [RowOp.spill 508, .restore 508 0xF 3, .wbp 507 true, .close, .pre, .ref],
      ((queued op d).rowNext 0 0).any (fun x => x.1 == 0 && x.2.1.op == op) = true := by decide

/-- Two harts with ranks in the gang that differ, one of them out of the gang, and a source latch that is invalid. -/
theorem test_meets_bus :
    let s := fun v w => pair { under (holding [0, v]) with dev := (under (holding [0, v])).dev.setHart 0 1 (holding [0, w]) }
    let t := fun v w => { s v w with dev := (s v w).dev.setHart 0 1 (holding [0, w]) }
    (t 0 1).Quiet ∧ (∀ k ∈ (t 0 1).active, (t 0 1).begun.guard hdr k = true ∧ ((t 0 1).begun.src k (.x 1)).toNat < 2)
    ∧ (t 0 1).begun.src 0 (.x 1) ≠ (t 0 1).begun.src 1 (.x 1) ∧ 2 ≤ ((t 0 2).begun.src 1 (.x 1)).toNat
    ∧ ((t 0 1).begun.latch 1 0).valid = false :=
  ⟨quiet_of (by decide), by decide, by decide, by decide, by decide⟩

/-! #### The matrix unit -/

/-- A gang of eight harts under way with these latches, of which the first alone is active, with a slot bound. -/
def eight : State :=
  under { ({} : Hart) with vt := 15 } fun d =>
    let d := served d
    let d := (List.range 8).foldl (fun d b => d.setBank 0 b { groups := Vector.replicate 4 { latch := raw } }) d
    let d := d.modCore 0 fun c => { c with acc := c.acc.set 0 { bound := some (0, 0) } }
    d.setGang 0 0 { size := 8, gm := 1, live := 1, pc := 0
                    halves := Vector.replicate 2 { valid := true, bf := 8, rank := 0, g := 0 } }
theorem test_meets_matrixWords :
    let tile : GLat := { bank := 0, g := 0 }
    eight.Solo hdr 0 ∧ eight.iss.view = [] ∧ (eight.begun.dev.core 0).xfers = [] ∧ (eight.begun.rollback.core 0).xfers = []
    ∧ tile.bank.val + 8 ≤ eight.gang.size ∧ bscOk .bf16 false = true
    ∧ (∀ l ∈ tileLats tile, (eight.latOf 0 (.gang l)).1 < 16 ∧ (eight.begun.latR 0 (.gang l)).valid = true
        ∧ (eight.begun.latR 0 (.gang l)).tag = 0xF ∧ (eight.begun.latR 0 (.gang l)).poison = 0) :=
  ⟨solo_of (by decide), by decide, by decide, by decide, by decide, by decide, by decide⟩
theorem test_meets_tmma :
    let r := eight.gang.half false
    let t := eight.begun.hart 0
    eight.begun.slot? 0 = some 0 ∧ r.valid = true ∧ pairs (VFmt.ofCode r.bf) .bf16 = true ∧ (0 : BitVec 2).toNat ≤ kqMax (VFmt.ofCode r.bf)
    ∧ (eight.begun.accSlot 0).int = false ∧ ascOk .bf16 false = true
    ∧ 1 ≤ (t.tm.extractLsb' 0 7).toNat ∧ (t.tm.extractLsb' 0 7).toNat ≤ 64
    ∧ 1 ≤ (t.tn.extractLsb' 0 10).toNat ∧ (t.tn.extractLsb' 0 10).toNat ≤ 512 := by decide
/-- The last row of an accumulator, and the first past it. -/
theorem test_meets_accRows : accrdOk .f32 false = true ∧ 63 + accNr .f32 ≤ 64 + accNr .f32 ∧ eight.begun.wide (accVfmt .f32).bits = false := by
  decide
theorem test_meets_accumulators :
    let s := under {}
    s.begun.slot? 0 = none ∧ s.begun.res?.isSome = true ∧ (∀ half : Bool, (s.gang.half half).valid = false)
    ∧ ∃ q, s.begun.dev.freeSlot s.iss.core = some q := by
  refine ⟨by decide, by decide, by decide, ?_⟩
  have h : ((under {}).begun.dev.freeSlots (under {}).iss.core).length = 6 := by decide
  exact ⟨_, List.getElem?_eq_getElem (Nat.mod_lt _ (by rw [h]; decide))⟩
/-- An ACCZ of the whole accumulator that has run its time. -/
def cleared : MxEntry := { res := 0, base := 0, word := 0, op := .accz false 0 64 512, started := true, doneAt := 0 }
theorem test_meets_matrixEvents :
    let s := { eight with dev := eight.dev.modCore 0 fun c => { c with mx := [cleared] } }
    (s.dev.core 0).mx = [cleared] ∧ cleared.started = true ∧ cleared.doneAt ≤ s.dev.now
    ∧ cleared.slot? = some 0 := by decide
theorem test_meets_matrixStart :
    let s := { eight with dev := eight.dev.modCore 0 fun c => { c with mx := [{ cleared with started := false }] } }
    s.dev.mxCanStart 0 0 = true := by decide
/-- The range of an accumulator in the own vault. -/
theorem test_meets_accTransfers :
    eight.begun.slot? 0 = some 0 ∧ (eight.begun.accSlot 0).int = false
    ∧ ∃ pages, xferPages .write 0 0 (pageStarts 0xFFFFF10000000000 imageBytes) eight.begun.dev [] = (eight.begun.dev, .ok pages) :=
  ⟨by decide, by decide, _, rfl⟩
theorem ownVault_place (d : Device) (r : Residence) (h : d.res? 0 = some r) (x : AccXfer) (hx : x.res = 0) (i : Nat) (hi : i < 5121) :
    d.xferPlace 0 x (ownWindow + 64 * i) = some (.mem (.vault (0 + 64 * i))) := by
  have a : ¬ ownWindow + 64 * i < 2 ^ 56 := by unfold ownWindow; omega
  have b : (poolWindow ≤ ownWindow + 64 * i && ownWindow + 64 * i < poolWindow + Config.poolBytes) = false := by
    have : ¬ ownWindow + 64 * i < poolWindow + Config.poolBytes := by unfold ownWindow poolWindow Config.poolBytes; omega
    simp [this]
  have c : (ownWindow ≤ ownWindow + 64 * i && ownWindow + 64 * i < ownWindow + Config.vaultBytes) = true := by
    have : 64 * i < Config.vaultBytes := by unfold Config.vaultBytes; omega
    simp [this]
  have g : d.region 0 r (ownWindow + 64 * i) = .vault (0 * 2 ^ 20 + 64 * i) := by
    unfold Device.region
    rw [if_neg a, b, if_neg Bool.false_ne_true, if_pos c, Nat.add_sub_cancel_left]
  simp [Device.xferPlace, hx, h, g]
theorem test_meets_vaultTransfer :
    let x : AccXfer := { res := 0, bank := 0, slot := 0, load := true, image := [], va := 0xFFFFF10000000000, pages := [], comp := .none }
    let d := (under {}).dev.modCore 0 fun c => { c with xfers := [x] }
    (d.core 0).xfers[0]? = some x ∧ d.vaultBad = [] ∧ d.vault.wf = true ∧ x.image.wf = true
    ∧ ∀ i < 5121, d.xferPlace 0 x (x.va.toNat + 64 * i) = some (.mem (.vault (0 + 64 * i))) := by
  obtain ⟨r, hr⟩ : ∃ r, (under {}).dev.res? 0 = some r := ⟨_, rfl⟩
  exact ⟨by decide, by decide, by decide, by decide, fun i hi => ownVault_place _ r (by rw [Device.modCore_res]; exact hr) _ rfl i hi⟩

/-- A TMMA that asks the bus for its broadcasts, and one that has them. -/
theorem test_meets_broadcasts :
    let e : MxEntry :=
      { res := 0, base := 0, word := 0
        op := .tmma .bf16 false 0 true 0 0 { bank := 0, g := 1 } none (eight.gang.half false) 1 0 1 }
    let d := eight.dev.modCore 0 fun c => { c with mx := [e] }
    let f := eight.dev.modCore 0 fun c => { c with mx := [{ e with req := some 3 }], busDone := [(3, 0)] }
    d.mxCanStart 0 0 = true ∧ (Device.mxTime e).2 ≠ 0 ∧ e.req = none ∧ f.mxCanStart 0 0 = true := by decide

/-! #### Memory, tags, caches and atomics -/

/-- A hart whose x1 is the first scratchpad address of its context. -/
def atPool (o : Nat) (v : Word := 0) : State := under (holding [0, BitVec.ofNat 64 (0xFFFFF00000000000 + o), v]) pooled
/-- The first and the last word of the scratchpad pass the checks of a load. -/
theorem test_meets_load :
    (atPool 0x4000).Solo hdr 0 ∧ (atPool 0x4000).begun.dev.portQ = []
    ∧ (match ((atPool 0x4000).begun.dev.checkAt 0 ((atPool 0x4000).begun.res?.getD
        { seq := 0, k := 0, ctx := 0, cls := 0, hmask := 0, gl := 0, fb := 0, sb := 0, cb := 0, abase := 0, acount := 0, twl := 0
          lwdt := false, ltvec := false }) { frames := true } .read (0xFFFFF00000000000 + 0x7FF8)).2 with
      | .ok p => p == .pool 0x7FF8
      | _ => false) = true := ⟨solo_of (by decide), by decide, by decide⟩
theorem test_meets_scratchpad :
    (atPool 0x4000).begun.res?.any (fun r => r.scratch.wf && decide (r.fb ≤ 0x4000) && decide (0x7FFF < r.sb)
      && decide (r.sb ≤ Config.poolBytes)) = true := by decide
theorem test_meets_tags :
    let s := atPool 0x4000
    s.Solo hdr 0 ∧ s.begun.rollback.res? s.rk = s.begun.res? ∧ s.iss.conds = [] ∧ s.iss.tagWrites = []
    ∧ s.begun.dev.portQ = [] ∧ (s.begun.rollback.hart s.rk 0).redOut = 0
    ∧ (∀ want : Bool, s.begun.rollback.poolTurn s.rk s.iss.base [{ bank := 0, off := 0x4000, on := .tag want false }] = false)
    ∧ s.begun.res?.any (fun r => !r.tag 0x4000 && !(r.read 0x4000 8).2) = true
    ∧ ((s.begun.hart 0).getX 1 + s.begun.src 0 (.imm 0)).toNat = 0xFFFFF00000000000 + 0x4000 :=
  ⟨solo_of (by decide), by decide, by decide, by decide, by decide, by decide, by decide, by decide, by decide⟩
theorem test_meets_cacheWords :
    let s := atPool 0x4000
    2 ^ 56 ≤ ((s.begun.hart 0).getX 1 + s.begun.src 0 (.imm 0)).toNat ∧ s.begun.src 0 (.imm 0) = 0
    ∧ s.begun.dev.portQ = [] ∧ (s.begun.rollback.hart s.rk 0).redOut = 0 ∧ s.begun.dev.lines = []
    ∧ (s.begun.dev.proxies.map fun p => (p.stand, p.line)).Nodup := by decide
/-- One dirty line of the core's pool cache, and two. -/
theorem test_meets_dirtyLines :
    let line := fun n => ({ core := 0, line := n, data := 5, bad := false, dirty := true } : CacheLine)
    let s := fun l => under {} fun d => { served d with lines := l }
    (∀ inv : Bool, (s [line 1]).begun.rollback.cleanList 0 (s [line 1]).begun.ctx inv none = [1]
      ∧ (s [line 1, line 2]).begun.rollback.cleanList 0 (s [line 1]).begun.ctx inv none = [1, 2])
    ∧ (s [line 1]).begun.rollback.cleanList 0 (s [line 1]).begun.ctx false (some (64, 8)) = [1]
    ∧ ((s [line 1]).begun.dev.dirty? 1).isSome = true ∧ atHome 1 0 = true := by decide
theorem test_meets_cacheEvents :
    let d := served (under {}).dev
    (match d.stor 0 with | .dram key => key == 0 | _ => false) = true ∧ d.dirty? 0 = none ∧ d.proxy? 0 0 = none := by decide
/-- The code page lets an atomic through, with room at the place that it leads to. -/
theorem test_meets_atomics :
    let s := under (holding [0, 64])
    (match s.begun.dev.globalAt 0 s.begun.ctx .read 64 with | (_, .ok (.mem _)) => true | _ => false) = true
    ∧ (s.begun.rollback.hart s.rk 0).redOut = 0 ∧ s.begun.dev.portQ = [] := by decide
/-- A cache of which each set is full has a line that falls out, whatever the sets are. -/
theorem test_meets_fullSet : ∃ l : List Nat, setEvicts l 0 = true ∧ setEvicts [] 0 = false := by
  refine ⟨List.replicate (Config.cacheWays + 1) 0, ?_, by simp [setEvicts]⟩
  simp [setEvicts, List.getLast?_replicate]

theorem test_meets_port :
    let s := under (holding [0, 64])
    (match s.begun.dev.globalAt 0 s.begun.ctx .atomic 64 with
      | (e, .ok (.mem st)) => e.portOpen st (e.classOf 0) (hartRank (e.classOf 0) 0 0)
      | _ => false) = true
    ∧ (s.begun.dev.translate 0 s.begun.ctx 64).2.leaf?.isSome = true ∧ (s.begun.hart 0).redOut < Config.redLimit
    ∧ (s.begun.rollback.hart s.rk 0).redOut ≤ (s.begun.hart 0).redOut := by decide
/-- A page that the host has been asked for. -/
theorem test_meets_askedHost :
    let d := (under {}).dev.modCore 0 fun c => { c with atc := c.atc.map fun e => { e with leaf := (e.leaf.1 + 32, 0) } }
    (d.translate 0 (under {}).begun.ctx 64).2.waits = true := by decide
/-- Two elements of i32 at the addresses from 64 on. -/
theorem test_meets_redv :
    let s := under { lanes 4 2 with x := (holding [0, 64]).x } fun d => served (latches raw d)
    s.LaneReady hdr 0 (fun f => (redvElt f .add).isSome) [.own 0] ∧ redvElt (s.begun.lanes 0).fmt .add = some (.int 32)
    ∧ (∀ i ∈ actives (s.begun.hart 0) bare (s.begun.lanes 0).fmt, redvAddr s.begun 0 1 (.disp (.imm 0)) 4 i % 4 = 0)
    ∧ (match redvCheck 0 [64, 68] s.begun with
      | .ok _ => true
      | .error _ => false) = true := ⟨lane_of (by decide), by decide, by decide, by decide⟩

/-! #### Fences, barriers, copies and the Sifter -/

theorem test_meets_fence :
    let s := under {}
    s.Solo hdr 0 ∧ (s.begun.rollback.hart s.rk 0).redOut = 0 ∧ s.begun.dev.portQ = []
    ∧ (s.begun.rollback.forked 0 s.rk 0 = false ∧ s.begun.dev.forked 0 s.rk 0 = false)
    ∧ (∀ load : Bool, s.begun.rollback.moving 0 s.rk 0 load = false ∧ s.begun.dev.moving 0 s.rk 0 load = false) ∧ (∀ g : Sys2Proof.Lat, (s.begun.dev.group 0 0 g).pend = none) :=
  ⟨solo_of (by decide), by decide, by decide, by decide, by decide, by decide⟩
theorem test_meets_fenceWaits :
    let s := under {} (groups { pend := some { row := 0, data := 0, poison := 0 } })
    s.Solo hdr 0 ∧ (s.begun.rollback.group 0 0 0).pend ≠ none := ⟨solo_of (by decide), by decide⟩
theorem test_meets_wait :
    let s := atPool 0x4000 0
    s.begun.res?.any (fun r => (r.read 0x4000 8) == (0, false)) = true ∧ s.begun.src 0 (.x 2) = 0
    ∧ (s.begun.hart 0).getX 1 = BitVec.ofNat 64 (0xFFFFF00000000000 + 0x4000) := by decide
/-- The greatest count of arrivals that a fresh object admits, and the first that it does not. -/
theorem test_meets_barriers :
    let s := atPool 0x4000
    s.begun.res?.any (fun r => (r.bar 0x4000).hi == 0 && !(r.bar 0x4000).brk && (r.bar 0x4000).pend == 0
      && (r.bar 0x4000).phase == 0 && !(r.read 0x4000 16).2) = true
    ∧ (0 : Int) + 549755813887 < 2 ^ 39 ∧ ¬ (0 : Int) + 549755813888 < 2 ^ 39 := by decide
/-- A member whose list of barriers is full, and an operand with a bit above its member mask. -/
theorem test_meets_fullBarriers :
    let s := under { ({} : Hart) with bars := Vector.replicate 4 (some 64) } pooled
    (s.begun.dev.liveHarts s.rk).getLsbD 0 = true ∧ (∀ i : Fin 4, (s.begun.hart 0).bars[i.val] = some 64)
    ∧ ((0x1000001#64).extractLsb' 24 16).getLsbD 0 = true ∧ (2 ^ 40 ≤ (0x10000000001#64).toNat) := by decide
theorem test_meets_copyWords :
    let s := under (holding [0, 31, 32, 7, 8]) (latches raw)
    s.Solo hdr 0 ∧ s.begun.dev.cmdSlot 0 31 = none ∧ (s.begun.src 0 (.x 1)).toNat < 32 ∧ 32 ≤ (s.begun.src 0 (.x 2)).toNat
    ∧ (s.begun.src 0 (.x 3)).toNat < 8 ∧ 8 ≤ (s.begun.src 0 (.x 4)).toNat ∧ (s.begun.latch 0 0).valid = true :=
  ⟨solo_of (by decide), by decide, by decide, by decide, by decide, by decide, by decide⟩
/-- The Sifter of core 0 bound to the context, with no buffer. -/
def sift : SiftState := { res := 0, seq := 0, k := 0, cap := 0, buf := 0 }
theorem test_meets_sifter :
    let s := under (holding [0, 0xFFFFF00000004000, 1]) fun d => (latches raw (pooled d)).setSifter 0 (.bound sift)
    s.Solo hdr 0 ∧ (s.begun.dev.core 0).sifter = .bound sift ∧ sift.res = s.rk
    ∧ s.begun.res?.any (fun r => (s.begun.dev.siftPlace 0 r 0xFFFFF00000004000 8).isSome) = true
    ∧ (s.begun.latch 0 0).valid = true ∧ recBad (1#128 <<< 112) = false ∧ recBad 0 = true :=
  ⟨solo_of (by decide), by decide, by decide, by decide, by decide, by decide, by decide⟩
/-- Capacities that are too large and no multiple of 4, an address that is not aligned, and a buffer in no region. -/
theorem test_meets_sifterTraps :
    let s := under {} pooled
    65536 < (65540#64).toNat ∧ (6#64).toNat % 4 ≠ 0 ∧ (0xFFFFF00000004008#64).toNat % 64 ≠ 0
    ∧ s.begun.res?.any (fun r => (s.begun.dev.siftPlace 0 r 0 64).isNone) = true := by decide
theorem test_meets_freeSifter :
    ((under {}).begun.dev.core 0).sifter = .free ∧ ((under {}).begun.src 0 (.imm 0)).toNat = 0 := by decide

/-! #### System and launch words -/

theorem test_meets_controlRegisters :
    let s := under {}
    (s.begun.src 0 (.imm 1)) &&& csrRzf .fpc = 0 ∧ csrLocked s.begun .fpc = false ∧ 5 ≤ (s.begun.src 0 (.imm 5)).toNat % 8
    ∧ (s.begun.res?.isSome) = true := by decide
theorem test_meets_eret :
    let s := under { ({} : Hart) with tcause := 1#64 <<< 10, tpc := 24, shGm := 1 }
    s.Solo hdr 0 ∧ (s.begun.hart 0).tcause.getLsbD 10 = true ∧ (s.begun.dev.targetCheck 0 s.begun.ctx 24).2 = none :=
  ⟨solo_of (by decide), by decide, by decide⟩
/-- A launch record with every field zero. -/
def blank : LaunchRec :=
  { entry := 0, gl := 0, cls := 0, ctx := 0, twl := 0, aclm := 0, aint := 0, lwdt := false, ltvec := false, hfl := false
    move := false, hmask := 0, coreset := 0, abase := 0, acount := 0, sb := 0, cb := 0, wdtp := 0, tvec := 0, save := 0, dep := 0
    stream := 0, compl := 0, wait0 := 0, wait1 := 0, args := [0, 0, 0], wset := 0 }
/-- A running launch of the placed context, with four to go. -/
def running : Launch :=
  { seq := 0, record := blank, cores := [0], wset := [], counter := 4, state := .running, source := 4, parent := 0, recAddr := 0
    places := [{ k := 0, home := 0, state := .resident 0 0 }] }
theorem test_meets_halt :
    let s := under {} fun d => { d with launches := [running] }
    s.Solo hdr 0 ∧ (s.begun.hart 0).redOut = 0 ∧ s.begun.dev.launch? 0 = some running ∧ running.killed = none :=
  ⟨solo_of (by decide), by decide, by decide, by decide⟩
/-- DEPDEC of exactly what is left, and of one more. -/
theorem test_meets_launchWords :
    let s := under (holding [0, 0, 4, 5, 64]) fun d => { d with launches := [running] }
    s.begun.dev.launch? ((s.begun.hart 0).getX 1).toNat = some running ∧ (s.begun.src 0 (.x 2)).toNat ≤ running.counter
    ∧ running.counter < (s.begun.src 0 (.x 3)).toNat ∧ ((s.begun.hart 0).getX 4 + s.begun.src 0 (.imm 0)).toNat % 128 ≠ 0 := by decide

/-! #### Events -/

/-- A gang that waits for a full tag since time 0. -/
def waiting : Device :=
  (pooled (under {}).dev).modGang 0 0 fun g =>
    { g with wait := some { on := .pool [{ bank := 0, off := 0x4000, on := .tag true false }], since := 0, retry := false } }
theorem test_meets_poolWait : (waiting.poolWait 0 0).any (fun x => x.1 == 0 && x.2.2.2.all fun c =>
    (waiting.res? 0).any fun r => !c.holds r) = true := by decide
theorem test_meets_trapsTaken :
    let d := (under { ({} : Hart) with swTraps := [{ cause := 1, tval := 0, tpc := 0, sw := true }] }).dev
    (d.gangAt 0 0).any (fun x => d.canTrap x.1 x.2.2) = true := by decide
/-- The same wait when its time is over. -/
theorem test_meets_tagTimeout :
    let d := { waiting with now := 2 ^ 40 }
    (d.poolWait 0 0).any (fun x => x.2.2.2.any fun c => (d.res? 0).any fun r => !c.holds r && !c.on.isBarrier) = true
    ∧ (d.res? 0).any (fun r => 2 ^ (r.twl + 10) ≤ d.now) = true := by decide
/-- A watchdog with a period that stands at 1 and one that stands at 0, of a context that issues. -/
theorem test_meets_watchdogExpiry :
    let d := fun n => (under {}).dev.modRes 0 fun r => { r with wdt := 5, wdCount := n }
    (∀ n ∈ [0, 1], ((d n).res? 0).any (fun r => r.wdt.toNat % 2 ^ 32 != 0 && r.wdCount == n && r.state == .resident) = true)
    ∧ ((d 1).core 0).issuing = some 0 ∧ (d 1).ress.map Prod.fst = [0] := by decide
/-- Two software traps that are pending on one hart. -/
theorem test_meets_twoTraps :
    let x : SwTrap := { cause := 1, tval := 0, tpc := 0, sw := true }
    let d := (under { ({} : Hart) with swTraps := [x, { x with cause := 0x12 }] }).dev
    (d.gangAt 0 0).any (fun y => d.canTrap y.1 y.2.2) = true ∧ (d.hart 0 0).swTraps.head? = some x := by decide
theorem test_meets_watchdog : ((under {}).dev.res? (resKey 0 0)).any (fun r => r.wdt == 0 && r.wdCount == 0) = true := by decide
theorem test_meets_debtTick :
    let d := (under {}).dev
    { d with now := d.nextTick 0 0 }.nextTick 0 0 ≤ { d with now := d.nextTick 0 0 }.now := Nat.le_refl _
/-- A tick by which a group comes to the limit in program mode. -/
theorem test_meets_deadline :
    let d := served (under { ({} : Hart) with refm := 0 } (groups { debt := 7 })).dev
    d.refThreshold 0 0 = none ∧ (d.group 0 0 0).debt = 7 ∧ (d.core 0).issuing = some 0 := by decide
theorem test_meets_notDue :
    let d := (under {}).dev
    d.redComes 0 = none ∧ d.autoRefDue 0 0 0 = false ∧ d.forcedDue 0 0 0 = false ∧ d.ownPreDue 0 0 0 = false ∧ (d.bank 0 0).segs = []
    ∧ (d.core 0).busQ = [] ∧ d.redReady 0 = none ∧ d.colNext 0 0 = none := by decide
theorem test_meets_busSlot :
    let q : BusReq := { id := 0, age := 0, time := 8, need := 1, all := false }
    let d := (under {}).dev.modCore 0 fun c => { c with busQ := [q] }
    d.busFirst 0 = some q ∧ d.busTake 0 q ≠ [] := by decide
theorem test_meets_copyEvents :
    let d := (under {}).dev
    d.chanNext 0 0 = none ∧ d.cmdSlot 0 0 = none ∧ d.reentry 0 (resKey 0 0) = none := by decide
theorem test_meets_push :
    let p : SiftPush := { done := 0, bank := 0, recs := [5] }
    let f : SiftState := { sift with pushes := [p] }
    f.nextPush = some p ∧ p.done ≤ (under {}).dev.now ∧ f.ops = [] ∧ (f.queue ++ p.recs).length ≤ Config.sifterQueue := by decide
theorem test_meets_round :
    let o : SiftOp := { drain := false, rel := false, bank := 0, addr := 0xFFFFF00000004000, max := 1, comp := .none }
    let f : SiftState := { sift with ops := [o] }
    let d := { ((under {}).dev.setSifter 0 (.bound f)) with now := f.endTime o }
    (d.core 0).sifter = .bound f ∧ f.ops = [o] ∧ f.queue.length ≤ Config.sifterQueue ∧ o.addr.toNat < packageWindow ∧ f.endTime o ≤ d.now := by decide
theorem test_meets_scheduler :
    let d := (under {}).dev
    d.class0Next 0 = none ∧ d.switchDue 0 = none ∧ d.quantumNext 0 = none ∧ d.idleNext 0 = none ∧ d.agesNow 0 = false ∧ d.switchTo 0 = none
    ∧ d.evictMoves 0 0 = false ∧ d.admits? 0 0 0 0 = none ∧ d.stopDue 0 = false := by decide
theorem test_meets_launchEvents :
    let d := { (under {}).dev with launches := [{ running with state := .ended, places := [] }] }
    d.launch? 0 = some { running with state := .ended, places := [] } ∧ d.launch? 1 = none ∧ d.placeEnds 0 0 = none
    ∧ d.faultOf 0 = none ∧ d.regs.tqPending = false := by decide
/-- A tail of 16 bits and the first value past it; an empty ring. -/
theorem test_meets_rings : (0xFFFF#64).toNat < 2 ^ 16 ∧ 2 ^ 16 ≤ (0x10000#64).toNat
    ∧ ((under {}).dev.ring .journal).head = ((under {}).dev.ring .journal).tail ∧ (4 ≤ (4#64).toNat ∧ (16#64).toNat ≤ 16) := by decide
theorem test_meets_host :
    let d := (under {}).dev
    d.regs.tinvRun = false ∧ d.regs.tinvSet = false ∧ d.anyRunning = false ∧ d.regs.rlost = false
    ∧ d.regs.rsvc = true ∧ d.trained = false ∧ d.bar4Place 0x3FFFFFFF = none := by decide
/-- Debt at the limit in automatic mode, a refresh that is asked for, and a precharge that a column access asks for. -/
theorem test_meets_bankWork :
    let d := served (under {}).dev
    let auto := groups { debt := 8 } d
    let forced := groups { force := true } d
    let close := (groups { phy := true } d).modBank 0 0 fun k => { k with cols := [{ pa := 0, kind := .read 64, cls := 1 }] }
    auto.autoRefDue 0 0 0 = true ∧ auto.insertTime 0 0 0 ≤ auto.now ∧ (auto.group 0 0 0).phy = false
    ∧ forced.forcedDue 0 0 0 = true ∧ forced.insertTime 0 0 0 ≤ forced.now ∧ close.ownPreDue 0 0 0 = true := by decide
/-- A segment that is ready, and a bus word whose stream has its slot. -/
theorem test_meets_segments :
    let q : VecSeg := { cv := 0, rd := [0], wr := [1], time := 16 }
    let r : VecSeg := { q with reqs := [7], stream := true }
    let d := (under {}).dev.setBank 0 0 { segs := [q] }
    let e := ((under {}).dev.setBank 0 0 { segs := [r] }).modCore 0 fun x => { x with busDone := [(7, 0)] }
    d.segNext 0 0 = some q ∧ e.segNext 0 0 = some r
    ∧ (d.bank 0 0).segs = [q] ∧ d.segGranted 0 q = true ∧ d.segReady 0 0 q ≤ d.now
    ∧ (e.bank 0 0).segs = [r] ∧ e.segGranted 0 r = true ∧ e.segReady 0 0 r ≤ e.now ∧ e.busAt 0 7 = some 0 := by decide
/-- VGATH, which takes all slots, and a matrix broadcast that takes two, one after the other. -/
theorem test_meets_busArbiter :
    let q : BusReq := { id := 0, age := 0, time := 52, need := 1, all := true }
    let r : BusReq := { id := 1, age := 0, time := 16, need := 2, all := false, matrix := true }
    let d := (under {}).dev.modCore 0 fun c => { c with busQ := [q] }
    let e := (under {}).dev.modCore 0 fun c => { c with busQ := [q, r] }
    d.busFirst 0 = some q ∧ (d.busTake 0 q).length = 4 ∧ e.busFirst 0 = some r ∧ (e.busTake 0 r).length = 1 := by decide
/-- A reduction whose turn it is, at an address of the package's own array, an entry of the write queue, a column access, and a
result on its way. -/
theorem test_meets_ports :
    let q : RedReq := { res := 0, bank := 0, op := .add, elt := .int 64, parts := [(64, 1)], sent := 0, cls := 1, rank := 0 }
    let a : ColAccess := { pa := 64, kind := .read 64, cls := 0 }
    let d := { served (under { ({} : Hart) with flight := some { reg := 5, val := 9 } }).dev with portQ := [q] }
    let d := d.setBank 0 0 { d.bank 0 0 with wq := [{ pa := 64, n := 1 }], cols := [a] }
    (d.redComes 0).isSome = true ∧ (d.redComes 0).any d.redTakes = true ∧ (d.bank 0 0).wq ≠ [] ∧ d.colNext 0 0 = some (a, 0)
    ∧ (d.hart 0 0).flight = some { reg := 5, val := 9 } ∧ (d.core 0).issuing = some 0
    ∧ (match d.stor 64 with
      | .dram key => key == 64
      | _ => false) = true := by decide
theorem test_meets_measurement :
    (under {}).dev.colFree 0 0 { pa := rowKey 0 0 0 511, kind := .read 64, cls := 3 } = true := by decide
/-- A page of the placed context that no cache holds is walked to; one that the host has been asked for is answered. -/
theorem test_meets_walks :
    let d := (under {}).dev.modCore 0 fun c => { c with atc := [] }
    let q : AtsReq := { core := 0, ctx := 0, va := 0 }
    let e := { d with ats := [q] }
    ((d.core 0).atc.find? fun e => e.covers 0 64) = none ∧ q ∈ e.ats := by decide
/-- Two bytes after each other. -/
def flat : Layout := { rank := 1, pgf := false, fmt := 0, bic := 0, nib := false, fill := 0, dims := [2], strides := [1], origins := [0]
                       extents := [2], raw := 0 }
/-- A copy of them from one address to another. -/
def copyOf (a b : Word) : CopyCmd :=
  { chan := 0, comp := 0, slay := 0, dlay := 0, sbase := a, dbase := b, soff := 0, sval := 0, resoff := 0, src := flat, dst := flat }
/-- Its slot. -/
def slotOf (st : SlotState) (a b : Word) : CopySlot := { res := 0, bank := 0, state := st, cmd := copyOf a b, age := 0, done := 0 }
theorem test_meets_copyCommands :
    let d := (pooled (under {}).dev)
    let host := d.modCore 0 fun c => { c with atc := c.atc.map fun e => { e with leaf := (e.leaf.1 + 32, 0) } }
    let pool := 0xFFFFF00000004000
    let stop := fun (d : Device) a => match (d.copyRest 0 (slotOf .running a pool)).2.2 with
      | none => 0
      | some (_, .fail f) => f.cause
      | _ => 1
    ((d.setSlot 0 0 (some (slotOf .queued pool pool))).chanNext 0 0).isSome = true
    ∧ (stop d pool, stop d 0x400000000000, stop d 0xFFFFFF0000000000, stop host 64) = (0, 0x0C, 0x0D, 1) := by decide
/-- A switch that finds a running command of the core. -/
theorem test_meets_suspension :
    let d := ((under {}).dev.modCore 0 fun c => { c with
      switch := some { dest := none, at_ := 0, class0 := false, phase := .drain } }).setSlot 0 0 (some (slotOf .running 0 0))
    (d.core 0).switch ≠ none ∧ (d.cmdSlot 0 0).any (fun x => x.state == .running) = true := by decide
theorem test_meets_savedCommand :
    let d := (under {}).dev.modRes 0 fun r => { r with saved := [{ bank := 0, cmd := copyOf 0 0 }] }
    (d.core 0).issuing = some 0 ∧ (d.core 0).switch = none ∧ (d.reentry 0 0).any (fun x => x.2.1 == 0) = true := by decide

/-- Core 0 with a switch under way. -/
def switching (dest : Option (Fin 3)) (ph : SwitchPhase) (from_ : Option (Fin 3)) : Device :=
  (under {}).dev.modCore 0 fun c => { c with issuing := from_, switch := some { dest := dest, at_ := 0, class0 := false, phase := ph } }
theorem test_meets_switch :
    (switching none .drain (some 0)).drainOver 0 = true ∧ (switching none .spill (some 0)).banksBusy 0 = false
    ∧ ((switching none .drain (some 0)).setBank 0 3 { rowQ := [{ g := 0, op := .pre }] }).drainOver 0 = false
    ∧ ((switching none .spill (some 0)).setBank 0 3 { rowQ := [{ g := 0, op := .pre }] }).banksBusy 0 = true
    ∧ ((switching (some 0) .drain none).res? 0).any (fun r => r.frames.wf) = true
    ∧ (switching (some 0) .restore (some 0)).banksBusy 0 = false ∧ ((switching none .drain (some 0)).core 0).mx.isEmpty = true := by decide
/-- A class-0 context that may issue on an idle core, and one whose quantum has ended beside another of its class. -/
theorem test_meets_requests :
    let d := served (under {}).dev
    let two := fun f => (d.setRes 1 (((d.res? 0).getD
      { seq := 0, k := 0, ctx := 0, cls := 0, hmask := 0, gl := 0, fb := 0, sb := 0, cb := 0, abase := 0, acount := 0, twl := 0
        lwdt := false, ltvec := false }))).setGang 1 0 { size := 1, gm := 1, live := 1, pc := 0 } |>.modRes 0 f
    ((d.modCore 0 fun c => { c with issuing := none }).modRes 0 fun r => { r with cls := 0 }).class0Next 0 = some 0
    ∧ ((two fun r => { r with quantum := 262144 }).quantumNext 0) = some 1 := by decide
theorem test_meets_ageing :
    let d := (served (under {}).dev).modCore 0 fun c => { c with issuing := none }
    ({ d with now := 4194304 }.modRes 0 fun r => { r with cls := 1 }).agesNow 0 = true := by decide
/-- A context of class 0 that waits for a core with three others, and one that waits for a free slot of a core. -/
theorem test_meets_admission :
    let d := { served (under {}).dev with regs := { (served (under {}).dev).regs with place := true } }
    let r : Residence := (d.res? 0).getD
      { seq := 0, k := 0, ctx := 0, cls := 0, hmask := 0, gl := 0, fb := 0, sb := 0, cb := 0, abase := 0, acount := 0, twl := 0
        lwdt := false, ltvec := false }
    let small : Residence := { r with cls := 1, fb := 0x4000, sb := 0x5000, cb := 0x170000 }
    let l : Launch := { running with seq := 9, state := .ready, places := [{ k := 0, home := 0 }]
                                     record := { blank with hmask := 1, sb := 0x5000, cb := 0x170000, acount := 1 } }
    let three := fun (last : Fin 4) =>
      { ((d.setRes 0 small).setRes 1 { small with cls := last }).setRes 2 small with launches := [running, l] }
    (three 1).evictMoves 0 0 = true ∧ ((three 1).core 0).issuing = some 0
    ∧ (three 3).evictMoves 0 1 = true ∧ ((three 3).core 0).issuing ≠ some 1 ∧ ((three 3).res? 1).isSome = true
    ∧ ((three 3).launch? 0).isSome = true ∧ ({ d.setRes 0 small with launches := [l] }.admits? 9 0 0 2).isSome = true := by decide
theorem test_meets_debugStop :
    let d := (under {}).dev
    ({ d with regs := { d.regs with stops := [0] } }).stopDue 0 = true ∧ (d.modRes 0 fun r => { r with stopReq := true }).stopDue 0 = true := by decide
/-- An entry of the last queue, and none in the others. -/
def lastQueue : Device :=
  let d := served { (placed 0).dev with journal := { base := 8192, log := 4 } }
  { d with queues := d.queues.set 3 { base := 4096, log := 4, head := 0, tail := 1 } }
theorem lastQueue_alone : ∀ e : Fin 4, e < 3 → lastQueue.queueReady e = false := by decide
theorem test_meets_queues : lastQueue.journal.full = false ∧ lastQueue.queueReady 3 = true
    ∧ ∀ e : Fin 4, e < 3 → lastQueue.canConsume e = false :=
  ⟨by decide, by decide, fun e he => Bool.and_eq_false_iff.2 (.inl (lastQueue_alone e he))⟩
/-- Tables that map one page of 64 KiB for context 0, the core set of core 0 in it, and a record in the first queue whose launch is to
have one hart. -/
def tabled : Device :=
  let d := { served (placed 0).dev with journal := { base := 8192, log := 4 }, launches := [] }
  let d := [(0x100000, 0x200000), (0x200000, 1 + 0x210000 * 2 ^ 64), (0x210000, 1 + 0x220000 * 2 ^ 64), (0x220000, 1 + 0x230000 * 2 ^ 64),
    (0x230000, 1 + 0x240000 * 2 ^ 64), (0x240030, 15 + 0x30000 * 2 ^ 64), (0x6000000, 1), (0x1000, 2 ^ 112), (0x1010, 0x30000 + 2 ^ 80)].foldl
    (fun (d : Device) (p : Nat × Nat) => d.physWrite p.1 16 p.2) d
  { d with regs := { d.regs with rtbase := 0x100000 }, queues := d.queues.set 0 { base := 4096, log := 4, head := 0, tail := 1 } }
set_option maxRecDepth 20000 in
/-- The record is accepted, and would be refused once the table is full. -/
theorem test_meets_accepted :
    let r := LaunchRec.ofNat (tabled.physRead 0x1000 128)
    recEarly (tabled.physRead 0x1000 128) = 0 ∧ tabled.queueReady 0 = true
    ∧ (match readLists (Device.hostList r.ctx) r tabled with
      | (e, .ok l) => recLate e r l.1.length == 0 && recLate e { r with acount := 0 } l.1.length == 4
          && recLate { e with launches := List.replicate Config.launchEntries running } r l.1.length == 9
      | _ => false) = true := by decide
set_option maxRecDepth 20000 in
/-- A launch that has ended, whose completion word the page holds. -/
theorem test_meets_completion :
    let l : Launch := { running with places := [], record := { blank with compl := 0x30000 } }
    l.state = .running ∧ l.record.compl ≠ 0 ∧ (match (tabled.globalAt 0 0 .write 0x30000).2 with
      | .ok (.mem _) => true
      | _ => false) = true := by decide
/-- A launch whose waits are met, and a placement whose gangs have ended. -/
theorem test_meets_launchMoves :
    let d := served (under {}).dev
    let l : Launch := { running with seq := 5, state := .waits, places := [] }
    ({ d with launches := [l] }).leavesNext l = true
    ∧ (({ d with launches := [running] }).modGang 0 0 fun g => { g with ended := true }).placeEnds 0 0 = some 0 := by decide
/-- A page fault of a convoy that the host may answer. -/
theorem test_meets_resolution :
    let t : FaultTicket := { seq := 7, va := 64, detail := 0, access := 0, bank := 0, tpc := 0, resolved := none }
    let f : FaultRec := { seq := 7, launch := 0, ctx := 0, core := 0, slot := 0, bank := 0, base := 0, cmd := none, va := 64, tpc := 0, detail := 0, access := 0, written := true }
    let d := { (under {}).dev with faults := [f] }
    let d := (d.modGang 0 0 fun g => { g with faults := [t] }).modRes 0 fun r => { r with state := .faultWaiting }
    d.faultOf 7 = some f ∧ d.faultRes f = some 0 ∧ (d.gang? 0 0).any (fun g => g.faults == [t]) = true ∧ d.cmdStops 0 = false
    ∧ (d.gangs.map Prod.fst) = [0] ∧ (d.gangsOf 0).length = 1 := by decide
theorem test_meets_tableQuery :
    let d := (under {}).dev
    d.regs.tqPending = false ∧ ({ d with regs := { d.regs with tqPending := true } }).regs.tqPending = true := by decide
/-- An atomic and a reduction of package 5 that come to a bank whose turn is theirs. -/
theorem test_meets_fabric :
    let d := served (under {}).dev
    let st := d.stor 64
    let rank := fabricRank 2 5
    d.portQ = [] ∧ d.res? (6144 + 5) = none ∧ d.wqRoom st none = true ∧ d.wqRoom st (some (.add, wordElt .add false)) = true
    ∧ d.portLate (Device.portOf st) rank = false ∧ (d.bar4Place 0).isSome = true := by decide
theorem test_meets_fullService :
    let d := { (under {}).dev with trained := true, launches := [] }
    d.regs.rsvc = true ∧ d.trained = true ∧ d.anyRunning = false ∧ d.now / 1024 ≥ d.power.windows := by decide
/-- A deferred watchdog, waits of tags, trap pending. -/
theorem test_meets_pendingTraps :
    let d := (under { ({} : Hart) with engTraps := [{ cause := 0x0D, tval := 64 }] }).dev
    let e := groups { dlp := some 0 } (under { ({} : Hart) with refTrap := true }).dev
    let w := (under {}).dev.modGang 0 0 fun g => { g with wdTrap := some 3 }
    (d.gangAt 0 0).any (fun x => d.canTrap x.1 x.2.2) = true ∧ (e.gangAt 0 0).any (fun x => e.canTrap x.1 x.2.2) = true
    ∧ (w.gangAt 0 0).any (fun x => w.canTrap x.1 x.2.2) = true := by decide
/-- A pool wait all of whose conditions hold, and one that a convoy of a lower bank goes before. -/
theorem test_meets_turns :
    let c : WaitCond := { bank := 0, off := 0x4000, on := .tag false false }
    let d := waiting.modGang 0 0 fun g => { g with wait := some { on := .pool [c], since := 0, retry := false } }
    (d.res? 0).any (fun r => c.holds r) = true ∧ d.poolTurn 0 0 [c] = false ∧ d.poolTurn 0 4 [c] = true := by decide

end Sys2Proof.Tests
end

