-- ==== Sys2Proof/Proofs/ControlRegisters.lean ====
section
/-! PROOF. The control registers (R10, R11, R157, R380, R383): what each of them reads after one of them is written, and what a CSR write
answers on a hart. -/

namespace Sys2Proof.Machine

/-! ### What a change of a hart or of the own residence leaves of a control register's sources -/

@[simp] theorem Device.modHart_dlpAny (d : Device) (rk k : Nat) (f : Hart → Hart) (c b : Nat) :
    (d.modHart rk k f).dlpAny c b = d.dlpAny c b := rfl

/-- The state with the residence of the convoy changed. -/
def State.modOwnRes (s : State) (f : Residence → Residence) : State := s.modDev fun d => d.modRes s.rk f

@[simp] theorem State.modOwnRes_res (s : State) (f : Residence → Residence) : (s.modOwnRes f).res? = s.res?.map f :=
  Device.modRes_res_same s.dev s.rk f
@[simp] theorem State.modOwnRes_hart (s : State) (f : Residence → Residence) (k : Nat) : (s.modOwnRes f).hart k = s.hart k :=
  Device.modRes_hart s.dev s.rk f s.rk k
@[simp] theorem State.modOwnRes_gang (s : State) (f : Residence → Residence) : (s.modOwnRes f).gang = s.gang :=
  congrArg (Option.getD · noGang) (Device.modRes_gang s.dev s.rk f s.rk s.iss.base)
@[simp] theorem State.modOwnRes_iss (s : State) (f : Residence → Residence) : (s.modOwnRes f).iss = s.iss := rfl
/-- A change of a residence changes no table but theirs, and no hart. -/
theorem Device.modRes_only (d : Device) (rk : Nat) (f : Residence → Residence) :
    d.modRes rk f = { d with harts := (d.modRes rk f).harts, ress := (d.modRes rk f).ress } := by
  unfold modRes; split <;> rfl
@[simp] theorem State.modOwnRes_dlpAny (s : State) (f : Residence → Residence) (c b : Nat) :
    (s.modOwnRes f).dev.dlpAny c b = s.dev.dlpAny c b := by
  show (s.dev.modRes s.rk f).dlpAny c b = _
  rw [Device.modRes_only]; rfl
@[simp] theorem State.modOwnRes_hid (s : State) (f : Residence → Residence) (b : Nat) : hidOf (s.modOwnRes f) b = hidOf s b := by
  unfold hidOf
  rw [modOwnRes_gang, modOwnRes_iss, show (s.modOwnRes f).dev = s.dev.modRes s.rk f from rfl, Device.modRes_only]
/-- A field that a change of the residence leaves alone. -/
theorem State.modOwnRes_resField (s : State) (f : Residence → Residence) (g : Residence → Nat) (e : ∀ r, g (f r) = g r) :
    (s.modOwnRes f).resField g = s.resField g := by
  unfold resField; rw [modOwnRes_res]; cases s.res? <;> simp [e]
theorem State.modOwnRes_resField_set (s : State) (f : Residence → Residence) (g : Residence → Nat) (n : Nat)
    (hr : s.res?.isSome = true) (e : ∀ r, g (f r) = n) : (s.modOwnRes f).resField g = BitVec.ofNat 64 n := by
  obtain ⟨r, hr⟩ := Option.isSome_iff_exists.mp hr
  simp [resField, hr, e]

/-- What a write makes of a control register: its RW fields are new, and its other fields stay (R10, R383). -/
def csrMerge (r : Csr) (old new : Word) : Word := (old &&& ~~~ csrRw r) ||| (new &&& csrRw r)

/-- New bits under a mask, read again under it beside bits that lie outside it. -/
theorem merge_under_mask {n : Nat} (m x old new : BitVec n) (h : x &&& m = 0) :
    ((((old &&& m) ||| x) &&& ~~~m ||| (new &&& m)) &&& m) ||| x = (((old &&& m) ||| x) &&& ~~~m) ||| (new &&& m) := by
  ext i hi
  have hx : (x[i] && m[i]) = false := by
    simpa [BitVec.getElem_and, -Bool.and_eq_false_imp] using congrArg (fun y : BitVec n => y[i]) h
  simp only [BitVec.getElem_or, BitVec.getElem_and, BitVec.getElem_not]
  revert hx
  cases x[i] <;> cases m[i] <;> simp

/-- A register without RW fields keeps its value. -/
theorem csrMerge_readOnly {r : Csr} (old new : Word) (h : csrRw r = 0) : csrMerge r old new = old := by
  have h0 : csrRw r = 0#64 := h
  rw [csrMerge, h0, BitVec.not_zero, BitVec.and_allOnes, BitVec.and_zero, BitVec.or_zero]

/-- A control register reads as it was written, in its RW fields and beside them (R10, R380). -/
theorem csrVal_putCsr (s : State) (k : Nat) (r : Csr) (new : Word) (hr : s.res?.isSome = true) :
    csrVal (putCsr r (csrMerge r (csrVal s k r) new) k s) k r = csrMerge r (csrVal s k r) new := by
  cases r
  case wdt =>
    show State.resField (s.modOwnRes fun x => x.setWdt _) (fun r => r.wdt.toNat) = _
    rw [State.modOwnRes_resField_set s _ _ (BitVec.toNat (csrMerge _ _ new)) hr fun _ => rfl, BitVec.ofNat_toNat, BitVec.setWidth_eq]
  case tvec =>
    show State.resField (s.modOwnRes fun x => { x with tvec := _ }) (fun r => r.tvec.toNat) = _
    rw [State.modOwnRes_resField_set s _ _ (BitVec.toNat (csrMerge _ _ new)) hr fun _ => rfl, BitVec.ofNat_toNat, BitVec.setWidth_eq]
  case refm =>
    simp only [csrVal, putCsr, State.modHart_hart_same, State.modHart_dev, Device.modHart_dlpAny, State.modHart_iss, csrMerge, csrRw]
    exact merge_under_mask _ _ _ _ (by split <;> decide)
  case vl | vt | gm | hid | ctx | pri | fb | sb | cb => exact (csrMerge_readOnly _ _ rfl).symm
  case rc | ei | tm | tn | schk | fpc | fps | tcause | tpc | tval | tscr => simp [putCsr, csrVal]

/-- A write of one control register leaves what every other one reads. -/
theorem csrVal_putCsr_ne (s : State) (k : Nat) {r c : Csr} (v : Word) (h : c ≠ r) :
    csrVal (putCsr r v k s) k c = csrVal s k c := by
  cases r
  case vl | vt | gm | hid | ctx | pri | fb | sb | cb => rfl
  case wdt | tvec =>
    cases c <;> simp [csrVal, putCsr, ← State.modOwnRes.eq_def, State.modOwnRes_resField, Residence.setWdt] at h ⊢
  case rc | ei | tm | tn | schk | fpc | fps | tcause | tpc | tval | refm | tscr =>
    cases c <;> simp [csrVal, putCsr] at h ⊢ <;> rfl

/-- A write of a control register leaves the registers of the hart. -/
theorem putCsr_get (s : State) (k : Nat) (r : Csr) (v : Word) (q : Reg) :
    ((putCsr r v k s).hart k).get q = (s.hart k).get q := by
  cases r <;> simp [putCsr, Hart.get, Hart.landed, ← State.modOwnRes.eq_def]

/-- A write of a control register changes no other hart. -/
theorem putCsr_hart_ne (s : State) {k j : Nat} (r : Csr) (v : Word) (hk : k < 16) (hj : j < 16) (h : j ≠ k) :
    (putCsr r v k s).hart j = s.hart j := by
  cases r <;> simp [putCsr, State.modHart_hart s hk hj, h, ← State.modOwnRes.eq_def]

/-- Of the package a write of a control register changes harts and residences only. -/
theorem putCsr_dev (s : State) (k : Nat) (r : Csr) (v : Word) :
    (putCsr r v k s).dev = { s.dev with harts := (putCsr r v k s).dev.harts, ress := (putCsr r v k s).dev.ress } := by
  cases r
  case wdt | tvec => exact Device.modRes_only _ _ _
  all_goals rfl

@[simp] theorem count_csrVal (s : State) (h : Hdr) (u : Uses) (l : List Nat) (k : Nat) (r : Csr) :
    csrVal (s.count h u l) k r = csrVal s k r := by cases r <;> rfl

/-- A control register of a hart reads the same in a state that differs only in other harts. -/
theorem State.Near.csrVal {s t : State} (n : s.Near t) {k : Nat} (e : t.hart k = s.hart k) (r : Csr) :
    Machine.csrVal t k r = Machine.csrVal s k r := by
  have hres : ∀ g, t.resField g = s.resField g := fun g => by unfold State.resField; rw [n.res]
  have hslot : t.iss.slot = s.iss.slot := by rw [n.2.1]
  have hcore : t.iss.core = s.iss.core := by rw [n.2.1]
  have hbase : t.iss.base = s.iss.base := by rw [n.2.1]
  have hdlp : t.dev.dlpAny s.iss.core k = s.dev.dlpAny s.iss.core k := by rw [n.2.2]; rfl
  have hdev : t.dev.fabric = s.dev.fabric := by rw [n.2.2]
  cases r <;> simp only [Machine.csrVal, e, hres, hslot, hcore, hdlp, hbase, hdev, n.gang, hidOf]

/-- A register written on the one active hart of a gang: what it would read elsewhere is free. -/
theorem RegEffect.solo {s u : State} {h : Hdr} {k : Nat} {d : Reg} {v w : Nat → Word} (e : RegEffect s h d v u)
    (ha : s.active = [k]) (hv : w k = v k) : RegEffect s h d w u := by
  refine ⟨fun j hj hg hd => ?_, e.others, e.csrs, e.rest⟩
  have hjk : j = k := by simpa [ha] using hj
  rw [e.result j hj hg hd, hjk, hv]

/-- The value that a CSR write tries to give is refused: a one in a field that must be zero, or a reserved rounding mode (R11,
R157). -/
def csrRefused (r : Csr) (new : Word) : Prop := new &&& csrRzf r ≠ 0 ∨ (r = .fpc ∧ 5 ≤ new.toNat % 8)

theorem csrRefused_iff (r : Csr) (new : Word) :
    (new &&& csrRzf r ≠ 0 || rmReserved r new) = true ↔ csrRefused r new := by
  simp [csrRefused, rmReserved]

/-- What a CSR write answers on a hart: 0x01 for a refused value, else 0x18 for a locked register, else the register written
(R11, R157, R383). -/
theorem csrWrite_refused {r : Csr} {new : Word} (k : Nat) (s : State) (h : csrRefused r new) :
    csrWrite r new k s = .fail { cause := 0x01, tval := s.iss.addr } := if_pos ((csrRefused_iff r new).mpr h)
theorem csrWrite_locked {r : Csr} {new : Word} (k : Nat) (s : State) (h : ¬ csrRefused r new) (hl : csrLocked s r = true) :
    csrWrite r new k s = .fail { cause := 0x18, tval := BitVec.ofNat 64 (csrNumber r) } := by
  rw [csrWrite, if_neg (mt (csrRefused_iff r new).mp h), if_pos hl]; rfl
theorem csrWrite_done {r : Csr} {new : Word} (k : Nat) (s : State) (h : ¬ csrRefused r new) (hl : csrLocked s r = false) :
    csrWrite r new k s = .ok (putCsr r (csrMerge r (csrVal s k r) new) k s) := by
  rw [csrWrite, if_neg (mt (csrRefused_iff r new).mp h), if_neg (by simp [hl])]; rfl

/-- The part of a word on one hart that fails is recorded as the failed check of that hart. -/
theorem perHart_one_fail (f : Nat → State → HRes) (k : Nat) (s : State) {e : Fail} (hs : s.iss.fails = []) (h : f k s = .fail e) :
    (perHart f [k] s).iss.fails = [(k, e)] ∧ (perHart f [k] s).iss.hold = s.iss.hold := by
  simp [perHart, h, State.addFail, State.failed, hs]

@[simp] theorem putCsr_iss (s : State) (k : Nat) (r : Csr) (v : Word) : (putCsr r v k s).iss = s.iss := by cases r <;> rfl

/-- A CSR write on the one active hart of its gang, by the value that it tries to give (R383). -/
theorem csrWord_solo {s : State} {h : Hdr} {i : Instr} {k : Nat} {r : Csr} {a : Src} {f : Word → Word → Word} {new : Word}
    (hs : s.Solo h k) (hr : s.begun.res?.isSome = true) (hi : exec i s = csrWord h r a f s)
    (hnew : new = f (csrVal s.begun k r) (s.begun.src k a)) :
    (csrRefused r new → FailsWith s h i [(k, { cause := 0x01, tval := s.begun.iss.addr })])
    ∧ (¬ csrRefused r new → csrLocked s.begun r = true →
        FailsWith s h i [(k, { cause := 0x18, tval := BitVec.ofNat 64 (csrNumber r) })])
    ∧ (¬ csrRefused r new → csrLocked s.begun r = false → ∃ u, RunsTo s h i u
        ∧ csrVal u k r = csrMerge r (csrVal s.begun k r) new
        ∧ (∀ c ≠ r, csrVal u k c = csrVal s.begun k c)
        ∧ (∀ q, (u.hart k).get q = (s.begun.hart k).get q) ∧ (∀ j < 16, j ≠ k → u.hart j = s.begun.hart j)
        ∧ u.dev = { s.begun.dev with harts := u.dev.harts, ress := u.dev.ress }) := by
  have hk : k < 16 := banksOf_lt (hs.only ▸ List.mem_singleton_self k : k ∈ s.active)
  let uses : Uses := { rd := srcRegs a, old := csrShared r }
  let t := s.begun.count h uses [k]
  let part := fun k s => csrWrite r (f (csrVal s k r) (s.src k a)) k s
  have hex : exec i s = .next ((perHart part [k] t).endWord h) := by
    rw [hi]; exact wordOp_solo h uses (perHart part) s k hs (by simp [uses])
  have hpart : part k t = csrWrite r new k t := by
    simp only [part, t, count_csrVal, count_src, hnew]
  have hfails : t.iss.fails = [] := by simpa [t] using hs.fails
  have hhold : t.iss.hold = none := by simpa [t] using hs.hold
  have fails : ∀ e, csrWrite r new k t = .fail e → FailsWith s h i [(k, e)] := fun e he => by
    obtain ⟨h1, h2⟩ := perHart_one_fail part k t hfails (hpart.trans he)
    exact ⟨_, hex, h1, h2.trans hhold⟩
  refine ⟨fun hb => fails _ (csrWrite_refused k t hb), fun hb hl => fails _ (csrWrite_locked k t hb hl), fun hb hl => ?_⟩
  have hdone := perHart_one part k t _ (by simp [State.failed, hfails]) (hpart.trans (csrWrite_done k t hb hl))
  rw [hdone] at hex
  refine ⟨_, ⟨hex, by rw [putCsr_iss, hfails], by rw [putCsr_iss, hhold]⟩, ?_, fun c hc => ?_, fun q => ?_, fun j hj hne => ?_, ?_⟩
  · exact csrVal_putCsr t k r new hr
  · exact (csrVal_putCsr_ne t k _ hc).trans (count_csrVal ..)
  · exact putCsr_get t k r _ q
  · exact putCsr_hart_ne t r _ hk hj hne
  · exact putCsr_dev t k r _

end Sys2Proof.Machine

open Sys2Proof Sys2Proof.Machine in
/-- Settles O48: CSRR is a word that writes one register, and each CSR write is `csrWord` with its own way to make the new
value. -/
theorem controlRegisters : Obligations.ControlRegisters := by
  intro s h k csr d a hs hr old v
  refine ⟨?_, fun i new hi => ?_⟩
  · obtain ⟨u, he, hf, hh, hu⟩ := regWord_writes h (.x d) (some 2) [] (fun s k => csrVal s k csr) s hs.toCalm
      fun t j hn ht => hn.csrVal ht csr
    exact ⟨u, ⟨he, hf, hh⟩, hu.solo hs.only rfl⟩
  · obtain ⟨rfl, hn⟩ | ⟨rfl, hn⟩ | ⟨rfl, hn⟩ := hi
    · exact csrWord_solo (f := fun _ v => v) hs hr rfl hn
    · exact csrWord_solo (f := fun o v => o ||| v) hs hr rfl hn
    · exact csrWord_solo (f := fun o v => o &&& ~~~ v) hs hr rfl hn

end

