-- ==== Sys2Proof/Proofs/Fetch.lean ====
section
/-! PROOF. A fetch may move memory before it reads (R137, R245, R253): a word that misses in the pool cache makes room there, a dirty
line that leaves is written to its bank, and the bank first performs the array write that is pending in the group of that line. The
statement bounds what is pending in the group of the fetched word only. -/

namespace Sys2Proof.Machine

/-! ### A package in which another group's pending write lies over the fetched word -/

namespace StrayRow

/-- The code page of context 0, at its own address: executable, on the device. -/
def codePage : AtcEntry := { ctx := 0, va := 0, log := 16, leaf := (2 ^ 4, 0) }
/-- A residence whose share takes the whole pool of its core, so that its pool cache has room for no line (R243). -/
def fullRes : Residence :=
  { seq := 0, k := 0, ctx := 0, cls := 0, hmask := 1, gl := 0, fb := 0, sb := 0, cb := 0, abase := 0, acount := 0, twl := 0
    lwdt := false, ltvec := false }
/-- In full service, core 0 holds line 0 dirty, and group 0 of bank 0, where that line lies, has a write pending whose row number is no
row of a group. -/
def package : Device :=
  { regs := { rsvc := false }
    cores := [(0, { atc := [codePage] })]
    ress := [(0, fullRes)]
    banks := [(0, { groups := #v[{ pend := some { row := 512, data := 1, poison := 0 } }, {}, {}, {}] })]
    lines := [{ core := 0, line := 0, data := 0, bad := false }] }
/-- The first byte of the word fetched at virtual address 2^13, which the page leads to group 1, row 0. -/
def firstByte (d : Device) : Option Byte :=
  match (d.fetchWord 0 0 (2 ^ 13)).2 with
  | .ok w => some (w.extractLsb' 0 8)
  | .error _ => none

/-- The eviction of line 0 writes the stray row, which lies where row 0 of group 1 does, and the fetch reads a byte of it. -/
theorem firstByte_written : firstByte package = some 1 := by decide +kernel
theorem byte_before : package.mem.byte (rowKey 0 0 1 0) = 0 := by decide

end StrayRow

end Sys2Proof.Machine

open Sys2Proof Sys2Proof.Machine in
/-- Refutes O10: in `StrayRow.package` the fetch evicts a dirty line, its bank performs the write that is pending in another group, and
since the row of a pending write is any number, that row lies over the fetched word. -/
theorem not_fetchReadsTheArray : ¬ Obligations.FetchReadsTheArray := by
  intro holds
  obtain ⟨w, fetched, bytes⟩ := holds StrayRow.package 0 0 (2 ^ 13) (rowKey 0 0 1 0) StrayRow.codePage
    (by decide) (by decide) (by decide) (by decide) (by decide) (by decide) (by decide) (by decide) (by decide)
    (by decide) (by decide) (by decide) (by decide)
  have read : w.extractLsb' 0 8 = StrayRow.package.mem.byte (rowKey 0 0 1 0) := bytes 0 (by decide)
  have written : some (w.extractLsb' 0 8) = some 1 := by
    have h := StrayRow.firstByte_written
    unfold StrayRow.firstByte at h
    rwa [fetched] at h
  rw [read, StrayRow.byte_before] at written
  exact absurd written (by decide)

end

