-- ==== Sys2Proof/Proofs/HostEvents.lean ====
section
/-! PROOF. The host's registers and windows, resets, the fabric, power and service (R280, R377, R408 to R410, R414 to R419). -/

namespace Sys2Proof.Machine

/-! ### Tables whose values are all changed by one function -/

theorem lookupK_map {α β : Type} (f : α → β) (k : Nat) (l : List (Nat × α)) :
    lookupK k (l.map fun p => (p.1, f p.2)) = (lookupK k l).map f := by
  induction l with
  | nil => rfl
  | cons p l ih =>
    simp only [List.map_cons, lookupK]
    split
    · rfl
    · exact ih

theorem lookupD_map {α : Type} (f : α → α) (x : α) (hx : f x = x) (k : Nat) (l : List (Nat × α)) :
    lookupD x k (l.map fun p => (p.1, f p.2)) = f (lookupD x k l) := by
  unfold lookupD
  rw [lookupK_map]
  cases lookupK k l <;> simp [hx]

/-- The members of a set of numbers with one more. -/
theorem mem_insertN (n k : Nat) (l : List Nat) : n ∈ insertN k l ↔ n = k ∨ n ∈ l := by
  induction l with
  | nil => simp [insertN]
  | cons m l ih =>
    simp only [insertN]
    split
    · simp
    · split
      · next e => simp [e]
      · simp only [List.mem_cons, ih]; tauto

/-! ### Events that change the package -/

/-- An event whose meaning is a change of the package. -/
theorem runsEvent_modDev {s : State} {i : Instr} {d : Device} (f : Device → Device) (h : exec i s = .next (s.modDev f))
    (e : f s.dev = d) : RunsEvent s i d := by subst e; exact h

namespace Device

/-! ### Resets (R408, R409) -/

/-- After a package reset the own memory reads as after reset, and that of other packages as before (R121, R408). -/
theorem afterReset_byte (d : Device) (a : Nat) :
    d.afterReset.mem.byte a = if a < 2 ^ 60 then State.reset.dev.mem.byte a else d.mem.byte a := by
  unfold afterReset Memory.byte lookupD
  rw [lookupK_filter a (fun k => decide (2 ^ 60 ≤ k))]
  by_cases h : a < 2 ^ 60
  · rw [if_pos h, if_neg (by simpa using h)]; rfl
  · rw [if_neg h, if_pos (by simpa using h)]

theorem devrst_reserved (d : Device) (v : Word) (h : 4 ≤ v.toNat) : d.devrst v = d.setHwd := if_pos (by omega)
theorem devrst_go (d : Device) (v : Word) (h : v.toNat = 1 ∨ v.toNat = 3) : d.devrst v = d.afterReset := by
  have hv : v = 1 ∨ v = 3 := h.imp (fun e => BitVec.eq_of_toNat_eq e) fun e => BitVec.eq_of_toNat_eq e
  obtain rfl | rfl := hv <;> rfl
theorem devrst_place (d : Device) (v : Word) (h : v.toNat = 0 ∨ v.toNat = 2) :
    d.devrst v = { d with regs := { d.regs with place := v.toNat == 2 } } := by
  have hv : v = 0 ∨ v = 2 := h.imp (fun e => BitVec.eq_of_toNat_eq e) fun e => BitVec.eq_of_toNat_eq e
  obtain rfl | rfl := hv <;> rfl

/-! ### Invalidation of translations (R280, R414) -/

theorem tinvHits_eq (d : Device) (x : AtcEntry) : d.tinvHits x = (d.regs.tinv.getLsbD 12
    || (x.ctx == d.regs.tinv.extractLsb' 0 12 && decide (x.va < d.regs.tinv.toNat / 2 ^ 16 * 2 ^ 16 + d.regs.tinvl.toNat)
      && decide (d.regs.tinv.toNat / 2 ^ 16 * 2 ^ 16 < x.va + 2 ^ x.log))) := by
  have ctx : (x.ctx.toNat == d.regs.tinv.toNat % 2 ^ 12) = (x.ctx == d.regs.tinv.extractLsb' 0 12) := by
    rw [Bool.eq_iff_iff, beq_iff_eq, beq_iff_eq, ← BitVec.toNat_inj]
    simp
  have bit : nbit d.regs.tinv.toNat 12 = d.regs.tinv.getLsbD 12 := by
    rw [Bool.eq_iff_iff]; simp [nbit, BitVec.getLsbD, Nat.testBit_eq_decide_div_mod_eq]
  simp only [tinvHits, ctx, bit]

theorem setTinv_busy {d : Device} (v : Word) (h : d.regs.tinvRun = true) : d.setTinv v = d.setHwd := if_pos h
theorem setTinv_idle {d : Device} (v : Word) (h : d.regs.tinvRun = false) :
    d.setTinv v = { d with regs := { d.regs with tinv := v, tinvSet := true } } := if_neg (by simp [h])
theorem setTinvl_busy {d : Device} (v : Word) (h : d.regs.tinvRun = true) : d.setTinvl v = d.setHwd := if_pos (by simp [h])
theorem setTinvl_unset {d : Device} (v : Word) (h : d.regs.tinvSet = false) : d.setTinvl v = d.setHwd := if_pos (by simp [h])
theorem setTinvl_idle {d : Device} (v : Word) (h : d.regs.tinvRun = false) (hs : d.regs.tinvSet = true) :
    d.setTinvl v = { d with regs := { d.regs with tinvl := v, tinvSet := false, tinvRun := true } } := if_neg (by simp [h, hs])

/-- An invalidation drops the entries that it names from every translation cache. -/
theorem tinvDone_core (d : Device) (j : Nat) :
    d.tinvDone.core j = { d.core j with atc := (d.core j).atc.filter fun e => !d.tinvHits e } :=
  lookupD_map (fun c : Core => { c with atc := c.atc.filter fun e => !d.tinvHits e }) {} rfl j d.cores

/-! ### The window of BAR4 (R414) -/

theorem bar4Write_frames {d : Device} {off rk o : Nat} {r : Residence} (v : Word) (h : d.bar4Place off = some (rk, r, o))
    (hf : o < r.fb) : d.bar4Write off v = d.modRes rk fun r => { r with frames := r.frames.write o 8 v.toNat } := by
  simp [bar4Write, h, hf]
theorem bar4Write_scratch {d : Device} {off rk o : Nat} {r : Residence} (v : Word) (h : d.bar4Place off = some (rk, r, o))
    (hf : r.fb ≤ o) (hs : o < r.sb) : d.bar4Write off v = d.modRes rk fun r => r.write o 8 v.toNat := by
  simp [bar4Write, h, hs, Nat.not_lt.mpr hf]
theorem bar4Read_frames {d : Device} {off rk o : Nat} {r : Residence} (h : d.bar4Place off = some (rk, r, o))
    (hf : o < r.fb) :
    d.bar4Read off = d.answer (some ((List.range 8).map fun j => BitVec.ofNat 8 (r.frames.read o 8 / 2 ^ (8 * j)))) := by
  simp [bar4Read, h, hf]
theorem bar4Read_scratch {d : Device} {off rk o : Nat} {r : Residence} (h : d.bar4Place off = some (rk, r, o))
    (hf : r.fb ≤ o) (hs : o < r.sb) :
    d.bar4Read off = d.answer (if (r.read o 8).2 then none
      else some ((List.range 8).map fun j => BitVec.ofNat 8 ((r.read o 8).1 / 2 ^ (8 * j)))) := by
  simp [bar4Read, h, hs, Nat.not_lt.mpr hf]
theorem bar4Write_none {d : Device} {off : Nat} (v : Word) (h : d.bar4Place off = none) : d.bar4Write off v = d.setHwd := by
  simp [bar4Write, h]
theorem bar4Read_none {d : Device} {off : Nat} (h : d.bar4Place off = none) :
    d.bar4Read off = d.answer (some (List.replicate 8 0)) := by
  simp only [bar4Read, h]
  rfl

/-! ### The service mailbox (R418) -/

theorem wordBytes_length (l : List Nat) : (wordBytes l).length = 8 * l.length := by
  induction l with
  | nil => rfl
  | cons v l ih =>
    rw [wordBytes, List.flatMap_cons, List.length_append, List.length_map, List.length_range, ← wordBytes, ih, List.length_cons]
    omega

/-- The mailbox gives six counts of eight bytes and then the history of the measurements. -/
theorem svcBytes_parts (hot : Bool) (v : SvcCount) :
    (svcBytes hot v).length = 48 + v.history.length
    ∧ (svcBytes hot v).take 48 = wordBytes [v.corrected, v.poisoned, v.forced, v.weak.toNat, hot.toNat, v.history.length]
    ∧ (svcBytes hot v).drop 48 = v.history.map fun b => BitVec.ofNat 8 b.toNat := by
  have h := wordBytes_length [v.corrected, v.poisoned, v.forced, v.weak.toNat, hot.toNat, v.history.length]
  refine ⟨?_, List.take_left' h, List.drop_left' h⟩
  rw [svcBytes, List.length_append, h, List.length_map]
  rfl

/-! ### Requests of other packages (R282, R286, R287) -/

/-- What leads an access of the device: its address map. -/
theorem stor_congr {d e : Device} (hr : e.regs = d.regs) (hf : e.fabric = d.fabric) (pa : Nat) : e.stor pa = d.stor pa := by
  unfold stor; rw [hr, hf]

/-- A request of another package with nothing else on its way: it is accepted at once where there is room and its turn has not passed. -/
theorem atPort_alone (d : Device) (src : Nat) (cls : Fin 4) (atomic : Bool) (op : AOp) (e : RedElt) (pa v : Nat)
    (hq : d.portQ = []) (hroom : d.wqRoom (d.stor pa) (if atomic then none else some (op, e)) = true)
    (hturn : d.portLate (portOf (d.stor pa)) (fabricRank cls.val src) = false) :
    d.atPort src cls atomic op e [(pa, v)] = d.redAccept
      { res := 3 * Config.cores + src, bank := 0, op := op, elt := e, parts := [(pa, v)], sent := d.now, cls := cls.val
        rank := fabricRank cls.val src, arrived := some d.now, atomic := atomic } := by
  let q : RedReq := { res := 3 * Config.cores + src, bank := 0, op := op, elt := e, parts := [(pa, v)], sent := d.now
                      cls := cls.val, rank := fabricRank cls.val src, atomic := atomic }
  have comes : ({ d with portQ := [q] } : Device).redComes 0 = some { q with arrived := some d.now } := if_neg (by
    show ¬ d.portLate (portOf (d.stor pa)) (fabricRank cls.val src) = true
    simp [hturn])
  have takes : ({ d with portQ := [q] } : Device).redTakes { q with arrived := some d.now } = true := by
    have room : ({ d with portQ := [q] } : Device).wqRoom (d.stor pa) (if atomic then none else some (op, e)) = true := hroom
    have first : redBefore q { q with arrived := some d.now } = false := rfl
    show (({ d with portQ := [q] } : Device).wqRoom (d.stor pa) (if atomic then none else some (op, e))
      && !(([q] : List RedReq).any fun o => portOf _ == portOf _ && redBefore o _)) = true
    rw [room]
    simp [first]
  have gone : ({ d with portQ := dropIdx 0 [q] } : Device) = d := by
    show ({ d with portQ := [] } : Device) = d
    rw [← hq]
  unfold atPort
  simp only [hq, List.nil_append, List.length_singleton, Nat.sub_self]
  rw [comes]
  exact (if_pos takes).trans (congrArg (fun x : Device => x.redAccept _) gone)

@[simp] theorem wqClose_ress (d : Device) (key : Nat) : (d.wqClose key).ress = d.ress := by unfold wqClose; split <;> rfl
@[simp] theorem wqClose_regs (d : Device) (key : Nat) : (d.wqClose key).regs = d.regs := by unfold wqClose; split <;> rfl
@[simp] theorem wqClose_fabric (d : Device) (key : Nat) : (d.wqClose key).fabric = d.fabric := by unfold wqClose; split <;> rfl
/-- What an operation that enters a write queue leaves: the residences, and where addresses lead. -/
theorem wqFresh_keeps (d : Device) (st : Stor) :
    (d.wqFresh st).ress = d.ress ∧ (d.wqFresh st).regs = d.regs ∧ (d.wqFresh st).fabric = d.fabric := by
  unfold wqFresh
  split
  · split
    · exact ⟨wqClose_ress d _, wqClose_regs d _, wqClose_fabric d _⟩
    · exact ⟨rfl, rfl, rfl⟩
  · exact ⟨rfl, rfl, rfl⟩
theorem wqEnter_keeps (d : Device) (st : Stor) (red : Option (AOp × RedElt)) (rank : Nat) :
    (d.wqEnter st red rank).ress = d.ress ∧ (d.wqEnter st red rank).regs = d.regs ∧ (d.wqEnter st red rank).fabric = d.fabric := by
  unfold wqEnter
  split
  · exact wqFresh_keeps d _
  · exact ⟨rfl, rfl, rfl⟩
/-- A read-modify-write at a bank, or at the vault that stands for it, changes no residence. -/
theorem atomicAt_ress (d : Device) (st : Stor) (n : Nat) (f : Nat → Nat) : (d.atomicAt st n f).1.ress = d.ress := by
  cases st with
  | dram key =>
    simp only [atomicAt]
    split
    · exact (wqFresh_keeps d _).1
    · exact (wqFresh_keeps d _).1
  | vault v => cases h : (d.vaultRead v n).2 <;> simp [atomicAt, colRead, colWrite, vaultWrite, h]
  | nothing => rfl
  | dropped key => rfl
/-- An operation of an agent that is no residence of the package counts for no hart. -/
theorem redCounted_foreign {d : Device} {rk : Nat} (bank : Nat) (h : d.res? rk = none) : d.redCounted rk bank = d := by
  simp [redCounted, h]
/-- A bank lies at no core that another package's agent could be taken for. -/
theorem ownWrite_foreign (d : Device) (src bank : Nat) (st : Stor) : d.ownWrite (3 * Config.cores + src) bank st = d := by
  unfold ownWrite
  split
  · next key =>
    rw [if_neg]
    have far : keyCore key ≠ resCore (3 * Config.cores + src) := by
      unfold keyCore resCore Config.cores
      omega
    simp [far]
  · rfl

/-- A request that the fabric does not drop is performed at its bank. -/
theorem redAccept_there (d : Device) (q : RedReq) (h : ∀ key, d.redStor q ≠ .dropped key) :
    d.redAccept q = (q.parts.foldl (fun (d : Device) p =>
        if q.atomic then (d.atomicAt (d.stor p.1) q.elt.bytes fun v => q.elt.apply q.op v p.2).1 else redOne q.op q.elt d p)
      ((d.ownWrite q.res q.bank (d.redStor q)).wqEnter (d.redStor q) (redKind q) q.rank)).redCounted q.res q.bank := by
  unfold redAccept
  generalize d.redStor q = st at h
  cases st with
  | dropped key => exact absurd rfl (h key)
  | dram key => rfl
  | vault a => rfl
  | nothing => rfl

/-- A request of one element that another package sends: it enters the write queue and is performed there (R282, R286). -/
theorem redAccept_foreign {d : Device} {q : RedReq} {src pa v : Nat} (hres : q.res = 3 * Config.cores + src)
    (hnone : d.res? q.res = none) (hparts : q.parts = [(pa, v)]) :
    let t := (d.wqEnter (d.stor pa) (redKind q) q.rank).atomicAt (d.stor pa) q.elt.bytes fun x => q.elt.apply q.op x v
    q.atomic = true ∨ t.2.2 = false → d.redAccept q = t.1 := by
  intro t hq
  have stor : d.redStor q = d.stor pa := by unfold redStor; rw [hparts]
  obtain ⟨kr, kg, kf⟩ := wqEnter_keeps d (d.stor pa) (redKind q) q.rank
  have done : t.1.redCounted q.res q.bank = t.1 := redCounted_foreign _ (by
    show lookupK q.res t.1.ress = none
    rw [atomicAt_ress, kr]; exact hnone)
  by_cases hd : ∃ key, d.stor pa = .dropped key
  · obtain ⟨key, hd⟩ := hd
    have ht : t = (d.setLost, 0, true) := by simp only [t, hd]; rfl
    rw [ht] at done ⊢
    simp only [redAccept, stor, hd]
    exact done
  · rw [redAccept_there d q (by rw [stor]; exact fun key e => hd ⟨key, e⟩), stor, hparts, hres, ownWrite_foreign, ← hres]
    simp only [List.foldl_cons, List.foldl_nil, stor_congr kg kf pa]
    refine Eq.trans ?_ done
    congr 1
    split
    · rfl
    · next ha =>
      have hb : t.2.2 = false := hq.resolve_left ha
      simp only [redOne, stor_congr kg kf pa]
      exact if_neg (by simp [t] at hb; simp [hb])

/-! ### Requests that the fabric drops (R415) -/

/-- A timeout mutes the next reply, or loses one of the reductions that are on their way to another package. -/
theorem dropRequest_cases (d : Device) :
    d.dropRequest = { d with fabric := { d.fabric with mute := true } }
    ∨ ∃ k q, d.portQ[k]? = some q ∧ d.sentAway q = true
      ∧ d.dropRequest = (({ d with portQ := dropIdx k d.portQ } : Device).redCounted q.res q.bank).setLost := by
  unfold dropRequest
  dsimp only
  split
  · exact .inl rfl
  · next k hk =>
    have hmem := (List.mem_filter.mp (List.mem_of_getElem? hk)).2
    cases hq : d.portQ[k]? with
    | none => simp [hq] at hmem
    | some q => exact .inr ⟨k, q, hq, by simpa [hq] using hmem, rfl⟩

/-- With no reduction on its way to another package a timeout mutes the next reply. -/
theorem dropRequest_none (d : Device) (h : ∀ q ∈ d.portQ, d.sentAway q = false) :
    d.dropRequest = { d with fabric := { d.fabric with mute := true } } := by
  obtain e | ⟨k, q, hq, hs, -⟩ := d.dropRequest_cases
  · exact e
  · rw [h q (List.mem_of_getElem? hq)] at hs
    exact absurd hs (by simp)

@[simp] theorem redCounted_portQ (d : Device) (rk bank : Nat) : (d.redCounted rk bank).portQ = d.portQ := by
  unfold redCounted; split
  · rfl
  · dsimp only; split <;> rfl
@[simp] theorem redCounted_mem (d : Device) (rk bank : Nat) : (d.redCounted rk bank).mem = d.mem := by
  unfold redCounted; split
  · rfl
  · dsimp only; split <;> rfl
/-- A reduction that is accepted or lost is one that its hart waits for no more. -/
theorem redCounted_redOut {d : Device} {rk : Nat} (bank : Nat) (h : (d.res? rk).isSome = true) :
    ((d.redCounted rk bank).hart rk bank).redOut = (d.hart rk bank).redOut - 1 := by
  obtain ⟨r, hr⟩ := Option.isSome_iff_exists.mp h
  unfold redCounted
  rw [hr]
  dsimp only
  rw [modHart_hart_same]
  split <;> rfl
theorem setLost_rlost (d : Device) : d.setLost.regs.rlost = true := by unfold setLost raise; dsimp only; split <;> rfl

theorem setLost_unmutes (d : Device) : d.setLost.fabric.mute = false := rfl

/-- While replies are muted, an address of another package leads nowhere, and a read of it is poisoned and ends the muting. -/
theorem muted_stor {d : Device} (hm : d.fabric.mute = true) {pa : Nat} (h : pa / 2 ^ 39 ≠ d.fabric.dev) :
    d.stor pa = .dropped (2 ^ 60 + pa) := by
  unfold stor
  rw [if_neg h, hm]
  rfl

theorem muted_colRead {d : Device} (hm : d.fabric.mute = true) {pa : Nat} (h : pa / 2 ^ 39 ≠ d.fabric.dev) (n : Nat) :
    (d.colRead (d.stor pa) n).2.2 = true ∧ (d.colRead (d.stor pa) n).1.regs.rlost = true
      ∧ (d.colRead (d.stor pa) n).1.fabric.mute = false := by
  rw [muted_stor hm h]
  exact ⟨rfl, setLost_rlost d, setLost_unmutes d⟩

/-! ### Power (R416, R417) -/

/-- A core with its share of a window: it carries over at most one (R417). -/
def withShare (share : Int) (c : Core) : Core := { c with credit := c.credit.map fun v => min v share + share }

theorem openWindow_core (d : Device) (j : Nat) : d.openWindow.core j = withShare (Config.powerShare d.power.plim : Nat) (d.core j) :=
  lookupD_map (withShare (Config.powerShare d.power.plim : Nat)) {} rfl j d.cores
theorem openWindow_credit (d : Device) (j : Nat) : d.openWindow.credit j
    = min (d.credit j) (Config.powerShare d.power.plim : Nat) + (Config.powerShare d.power.plim : Nat) := by
  unfold credit
  rw [openWindow_core]
  cases h : (d.core j).credit <;> simp [withShare, h, openWindow]

/-! ### The registers of BAR0 and of the fabric (R408, R409, R415) -/

theorem setFabric_running {d : Device} (r : FabricReg) (v : Word) (h : d.anyRunning = true) : d.setFabric r v = d.setHwd := if_pos h
/-- With no launch running a fabric register takes its value. -/
theorem setFabric_idle {d : Device} (v : Word) (h : d.anyRunning = false) :
    d.setFabric .device v = { d with fabric := { d.fabric with dev := v.toNat % 2 ^ 21 } }
    ∧ d.setFabric .board v = { d with fabric := { d.fabric with board := v.toNat } }
    ∧ d.setFabric .pod v = { d with fabric := { d.fabric with pod := v.toNat } }
    ∧ d.setFabric .fsize v = { d with fabric := { d.fabric with fsize := v.toNat % 2 ^ 21 } }
    ∧ ∀ i, d.setFabric (.route i) v = { d with fabric := { d.fabric with routes := d.fabric.routes.set i.val v } } := by
  simp [setFabric, h]
theorem regVal_errst (d : Device) : d.regVal 0x8
    = d.regs.hwd.toNat + 2 * d.regs.rlost.toNat + 4 * d.regs.flfull.toNat + d.regs.redp % 2 ^ 16 * 2 ^ 16 := by
  show errst d.regs = _
  simp only [errst, bitsNat, List.foldr_cons, List.foldr_nil]
  omega
theorem setWinbase_ok {d : Device} {v : Word} (h : v.toNat % 2 ^ 36 = 0) (h60 : v.toNat < 2 ^ 60) :
    d.setWinbase v = { d with regs := { d.regs with winbase := v } } := if_neg (by simp; omega)
theorem setWinbase_unaligned {d : Device} {v : Word} (h : v.toNat % 2 ^ 36 ≠ 0) : d.setWinbase v = d.setHwd :=
  if_pos (by simp; omega)
theorem setRtbase_ok {d : Device} {v : Word} (h : v.toNat % 2 ^ 12 = 0) :
    d.setRtbase v = { d with regs := { d.regs with rtbase := v } } := if_neg (by omega)
theorem setPview_ok {d : Device} {v : Word} (h : v.toNat < 2 ^ 12) :
    d.setPview v = { d with regs := { d.regs with pview := v.setWidth 12 } } := by
  unfold setPview
  rw [if_neg (by omega), BitVec.ofNat_toNat]

end Device

/-! ### Events that happen when they are due -/

theorem execTranslationInvalidationDone_due {s : State} (h : s.dev.regs.tinvRun = true) (hb : s.dev.tinvBusy = false) :
    RunsEvent s .translationInvalidationDone s.dev.tinvDone := runsEvent_modDev _ rfl (if_pos (by simp [h, hb]))
theorem execTranslationInvalidationDone_idle {s : State} (h : s.dev.regs.tinvRun = false) :
    RunsEvent s .translationInvalidationDone s.dev := runsEvent_modDev _ rfl (if_neg (by simp [h]))
theorem execBudgetWindow_due {s : State} (h : s.dev.power.windows ≤ s.dev.now / 1024) :
    RunsEvent s .budgetWindow s.dev.openWindow := runsEvent_modDev _ rfl (if_pos h)
theorem execBudgetWindow_idle {s : State} (h : s.dev.now / 1024 < s.dev.power.windows) :
    RunsEvent s .budgetWindow s.dev := runsEvent_modDev _ rfl (if_neg (Nat.not_le.mpr h))
theorem execTrainingComplete_reduced {s : State} (h : s.dev.regs.rsvc = true) :
    RunsEvent s .trainingComplete { s.dev with trained := true } := runsEvent_modDev _ rfl (if_pos h)
theorem execTrainingComplete_full {s : State} (h : s.dev.regs.rsvc = false) :
    RunsEvent s .trainingComplete s.dev := runsEvent_modDev _ rfl (if_neg (by simp [h]))
theorem execFullServiceEntry_idle {s : State} (h : s.dev.regs.rsvc = false ∨ s.dev.anyRunning = true ∨ s.dev.trained = false) :
    RunsEvent s .fullServiceEntry s.dev := runsEvent_modDev _ rfl (if_neg (by
  obtain h | h | h := h <;> simp [h]))
theorem execFullServiceEntry_due {s : State} (hs : s.dev.regs.rsvc = true) (ht : s.dev.trained = true)
    (hr : s.dev.anyRunning = false) : RunsEvent s .fullServiceEntry
      { s.dev with regs := { s.dev.regs with rsvc := false, msi := s.dev.regs.msi.set 3 (s.dev.regs.msi[3] + 1) }
                   paces := { until_ := s.dev.now, hot := s.dev.hot, rsvc := true } :: s.dev.paces } :=
  runsEvent_modDev _ rfl ((if_pos (by simp [hs, ht, hr])).trans (by rw [Device.pace, hs]; rfl))

/-- An atomic of another package, or a reduction that is not lost, with nothing else on its way to a port: when it is its turn there and
there is room, it is performed at its bank (R282, R286, R287). -/
theorem arrive_accepted {d : Device} {src : FabricAgent} {pa : BitVec 60} {op : AOp} {w atomic : Bool} {v : Word}
    (hq : d.portQ = []) (hn : d.res? (6144 + src.dev.toNat) = none)
    (hroom : d.wqRoom (d.stor pa.toNat) (if atomic then none else some (op, wordElt op w)) = true)
    (hturn : d.portLate (Device.portOf (d.stor pa.toNat)) (fabricRank src.cls.val src.dev.toNat) = false) :
    let t := (d.wqEnter (d.stor pa.toNat) (if atomic then none else some (op, wordElt op w))
      (fabricRank src.cls.val src.dev.toNat)).atomicAt (d.stor pa.toNat) (wordElt op w).bytes
        fun x => (wordElt op w).apply op x v.toNat
    atomic = true ∨ t.2.2 = false →
      d.atPort src.dev.toNat src.cls atomic op (wordElt op w) [(pa.toNat, v.toNat)] = t.1 := fun h =>
  (d.atPort_alone _ _ _ _ _ _ _ hq hroom hturn).trans (Device.redAccept_foreign rfl hn rfl h)

theorem registerWrite_at {i : Nat} (h : i < 2 ^ 20) (v : Word) (s : State) :
    exec (.registerWrite (BitVec.ofNat 20 i) (some v)) s = bar0Write i v s := by
  show bar0Write (BitVec.ofNat 20 i).toNat v s = _
  rw [BitVec.toNat_ofNat, Nat.mod_eq_of_lt h]
/-- A host write by offset of a register that an event stands for. -/
theorem registerWrite_event (v : Word) (s : State) {i : Nat} {n : Instr}
    (h : (i, n) ∈ [((0x8 : Nat), Instr.errstClear v), (0x18, .placeEnable v), (0x10000, .tqseq v), (0x11018, .qtail 0 v),
      (0x11058, .qtail 1 v), (0x20010, .journalHead v), (0x30010, .faultLogHead v), (0x20000, .qbase .journal v),
      (0x30008, .qsize .faultLog v), (0x40008, .tinv v), (0x40010, .tinvl v)]) :
    exec (.registerWrite (BitVec.ofNat 20 i) (some v)) s = exec n s := by
  simp only [List.mem_cons, Prod.mk.injEq, List.not_mem_nil, or_false] at h
  obtain ⟨rfl, rfl⟩ | ⟨rfl, rfl⟩ | ⟨rfl, rfl⟩ | ⟨rfl, rfl⟩ | ⟨rfl, rfl⟩ | ⟨rfl, rfl⟩ | ⟨rfl, rfl⟩ | ⟨rfl, rfl⟩ | ⟨rfl, rfl⟩
    | ⟨rfl, rfl⟩ | ⟨rfl, rfl⟩ := h
  all_goals
    rw [registerWrite_at (by omega)]
    simp [bar0Write, readOnly, ringWrite]
    rfl
/-- A write of a read-only register changes nothing (R10). -/
theorem registerWrite_readOnly (v : Word) (s : State) {i : Nat} (h : i ∈ [(0x00000 : Nat), 0x10008, 0x40018]) :
    RunsEvent s (.registerWrite (BitVec.ofNat 20 i) (some v)) s.dev := by
  simp only [List.mem_cons, List.not_mem_nil, or_false] at h
  obtain rfl | rfl | rfl := h <;> rfl

end Sys2Proof.Machine

open Sys2Proof Sys2Proof.Machine Sys2Proof.Machine.Device in
/-- Settles O56: each event is a change of the package, and the lemmas above say what that change is. -/
theorem hostEvents : Obligations.HostEvents := by
  intro s v link c b g d regs run reads
  refine ⟨⟨rfl, rfl, d.afterReset_byte⟩, rfl, fun h => runsEvent_modDev _ rfl (d.devrst_reserved v h),
    fun h => runsEvent_modDev _ rfl (d.devrst_go v h), fun h => runsEvent_modDev _ rfl (d.devrst_place v h), rfl, fun h => ?_,
    fun h => ?_, fun h hb => ?_, rfl, rfl, fun r h => runsEvent_modDev _ rfl (setFabric_running r v h), fun h => ?_, fun i => rfl,
    fun off n => rfl, fun off bytes => rfl, fun off w rk r o h => ?_, fun off w h => ?_, ?_, fun src pa n => rfl,
    fun src pa bytes => rfl, fun src pa e old bad hq hn => ?_, ⟨_, rfl, fun n => ?_, rfl⟩, ?_, fun h => execBudgetWindow_idle h,
    fun h => ?_, fun h => execTrainingComplete_reduced h,
    fun h => ⟨execTrainingComplete_full h, execFullServiceEntry_idle (.inl h)⟩, fun h => execFullServiceEntry_idle (.inr h),
    fun h ht hr => execFullServiceEntry_due h ht hr, fun i hi => registerWrite_readOnly v s hi,
    fun i n hi => registerWrite_event v s hi, fun h h60 => runsEvent_modDev _ rfl (setWinbase_ok h h60),
    fun h => runsEvent_modDev _ rfl (setRtbase_ok h), fun h => runsEvent_modDev _ rfl (setPview_ok h),
    fun h => runsEvent_modDev _ rfl (setWinbase_unaligned h), rfl, fun off => rfl, d.regVal_errst, rfl, rfl, rfl, rfl, rfl, rfl,
    rfl, rfl⟩
  -- TINV and TINVL
  · exact ⟨runsEvent_modDev _ rfl (setTinv_busy v h), runsEvent_modDev _ rfl (setTinvl_busy v h)⟩
  · exact ⟨runsEvent_modDev _ rfl (setTinv_idle v h), execTranslationInvalidationDone_idle h,
      fun hs => runsEvent_modDev _ rfl (setTinvl_unset v hs), fun hs => runsEvent_modDev _ rfl (setTinvl_idle v h hs)⟩
  · refine ⟨d.tinvDone, execTranslationInvalidationDone_due h hb, rfl, fun j => ?_⟩
    simpa only [tinvHits_eq] using d.tinvDone_core j
  -- the fabric registers
  · obtain ⟨hdev, hboard, hpod, hsize, hroute⟩ := setFabric_idle v h
    exact ⟨runsEvent_modDev _ rfl hdev, runsEvent_modDev _ rfl hboard, runsEvent_modDev _ rfl hpod, runsEvent_modDev _ rfl hsize,
      fun i => runsEvent_modDev _ rfl (hroute i)⟩
  -- BAR4
  · exact ⟨fun hf => ⟨runsEvent_modDev _ rfl (bar4Write_frames w h hf), runsEvent_modDev _ rfl (bar4Read_frames h hf)⟩,
      fun hf hs => ⟨runsEvent_modDev _ rfl (bar4Write_scratch w h hf hs), runsEvent_modDev _ rfl (bar4Read_scratch h hf hs)⟩⟩
  · exact ⟨runsEvent_modDev _ rfl (bar4Write_none w h), runsEvent_modDev _ rfl (bar4Read_none h)⟩
  -- the mailbox
  · exact ⟨_, rfl, svcBytes_parts _ _⟩
  -- arrivals
  · refine ⟨fun op w ht he => runsEvent_modDev _ rfl ?_, fun op w ht he => runsEvent_modDev _ rfl ?_⟩
    · exact (arrive_accepted (atomic := true) hq hn ht.1 ht.2 (.inl rfl)).trans (congrArg Prod.fst he)
    · exact (arrive_accepted (atomic := false) hq hn ht.1 ht.2 (.inr (congrArg (fun x => x.2.2) he))).trans (congrArg Prod.fst he)
  -- a link that fails, and requests that the fabric drops
  · exact mem_insertN _ _ _
  · refine ⟨?_, fun h => runsEvent_modDev _ rfl (d.dropRequest_none h), fun pa h => ⟨?_, fun n => ?_⟩⟩
    · refine ⟨d.dropRequest, rfl, d.dropRequest_cases.imp id ?_⟩
      rintro ⟨k, q, hq, hs, e⟩
      refine ⟨k, q, hq, hs, ?_⟩
      rw [e]
      exact ⟨redCounted_portQ _ _ _, setLost_rlost _, redCounted_mem _ _ _, fun hr => redCounted_redOut _ hr⟩
    · exact muted_stor rfl h
    · exact muted_colRead (d := { d with fabric := { d.fabric with mute := true } }) rfl h n
  -- the window of the power budget
  · exact ⟨_, execBudgetWindow_due h, rfl, rfl, Nat.min_le_right _ _, Nat.le_add_right _ _, rfl, _, d.openWindow_credit⟩
end

