-- ==== Sys2Proof/Proofs/StoredBasics.lean ====
section
/-! PROOF. The canonical form of the memories: what it says of a package and of a state, and the writes that keep it. -/

namespace Sys2Proof.Machine

/-! ### Tables -/

theorem all_insertK {α : Type} {p : Nat × α → Bool} {k : Nat} {a : α} {l : List (Nat × α)} (hl : l.all p = true)
    (ha : p (k, a) = true) : (insertK k a l).all p = true := by
  induction l with
  | nil => simp [insertK, ha]
  | cons q l ih =>
    simp only [List.all_cons, Bool.and_eq_true] at hl
    unfold insertK
    split
    · simp [ha, hl]
    · split
      · simp [ha, hl]
      · simp [hl, ih hl.2]

theorem lookupK_mem {α : Type} {k : Nat} {a : α} {l : List (Nat × α)} (h : lookupK k l = some a) : (k, a) ∈ l := by
  induction l with
  | nil => simp [lookupK] at h
  | cons q l ih =>
    unfold lookupK at h
    split at h
    · next e => cases h; subst e; simp
    · exact List.mem_cons_of_mem _ (ih h)

/-! ### Packages -/

theorem Residence.memOk_iff (r : Residence) : r.memOk = true ↔ r.scratch.wf = true ∧ r.frames.wf = true := by
  simp [memOk]

/-- The four places in which a package keeps bytes are canonical. -/
def memoriesOk (mem vault host : Memory) (ress : List (Nat × Residence)) : Bool :=
  mem.wf && vault.wf && host.wf && ress.all fun p => p.2.memOk

/-- A walk over a list keeps the canonical form when each of its steps does. -/
theorem foldl_stored {α : Type} {f : Device → α → Device} (hf : ∀ d x, d.stored = true → (f d x).stored = true)
    (l : List α) {d : Device} (h : d.stored = true) : (l.foldl f d).stored = true := by
  induction l generalizing d with
  | nil => exact h
  | cons x l ih => exact ih (hf d x h)

namespace Device
variable {d : Device}

/-- Nothing but the memories and the residences of a package counts. -/
theorem stored_eq (d : Device) : d.stored = memoriesOk d.mem d.vault d.host d.ress := rfl

theorem stored_iff (d : Device) :
    d.stored = true ↔ d.mem.wf = true ∧ d.vault.wf = true ∧ d.host.wf = true ∧ ∀ p ∈ d.ress, p.2.memOk = true := by
  simp [stored, memOk, and_assoc]

theorem res_memOk (h : d.stored = true) {rk : Nat} {r : Residence} (e : d.res? rk = some r) : r.memOk = true := by
  obtain ⟨_, _, _, hress⟩ := (stored_iff d).mp h
  exact hress _ (lookupK_mem e)

theorem host_wf (h : d.stored = true) : d.host.wf = true := by
  obtain ⟨_, _, hhost, _⟩ := (stored_iff d).mp h
  exact hhost

theorem withMem_stored (h : d.stored = true) (m : Memory) (hm : m.wf = true) : { d with mem := m }.stored = true := by
  obtain ⟨_, hvault, hhost, hress⟩ := (stored_iff d).mp h
  exact (stored_iff _).mpr ⟨hm, hvault, hhost, hress⟩

theorem withHost_stored (h : d.stored = true) {m : Memory} (hm : m.wf = true) : { d with host := m }.stored = true := by
  obtain ⟨hmem, hvault, _, hress⟩ := (stored_iff d).mp h
  exact (stored_iff _).mpr ⟨hmem, hvault, hm, hress⟩

theorem setRes_stored (h : d.stored = true) (rk : Nat) {r : Residence} (hr : r.memOk = true) :
    (d.setRes rk r).stored = true := by
  simp only [stored, Bool.and_eq_true] at h
  exact Bool.and_eq_true _ _ ▸ ⟨h.1, all_insertK h.2 hr⟩

theorem modRes_stored (h : d.stored = true) (rk : Nat) (f : Residence → Residence)
    (hf : ∀ r, r.memOk = true → (f r).memOk = true) : (d.modRes rk f).stored = true := by
  unfold modRes
  split
  · next e => exact setRes_stored h rk (hf _ (res_memOk h e))
  · exact h

theorem arrWrite_stored (h : d.stored = true) (key n v : Nat) (bad : Bool) : (d.arrWrite key n v bad).stored = true := by
  unfold arrWrite
  grind [stored_iff, Memory.wf_write]

theorem rowWrite_stored (h : d.stored = true) (key : Nat) (data : RowData) (p : BitVec 128) :
    (d.rowWrite key data p).stored = true := by
  unfold rowWrite
  grind [stored_iff, Memory.wf_write]

theorem vaultWrite_stored (h : d.stored = true) (key n v : Nat) (bad : Bool) :
    (d.vaultWrite key n v bad).stored = true := by
  unfold vaultWrite
  grind [stored_iff, Memory.wf_write]

end Device

/-! ### States and outcomes -/

theorem State.stored_iff (s : State) :
    s.stored = true ↔ s.dev.stored = true ∧ ∀ d, s.iss.undo = some d → d.stored = true := by
  unfold State.stored
  cases s.iss.undo <;> simp

/-- The part of a word on a hart answers a canonical state, if it answers one. -/
def HRes.stored : HRes → Bool
  | .ok s => s.stored
  | .fail _ => true
  | .hold _ => true

@[simp] theorem HRes.stored_ok (s : State) : (HRes.ok s).stored = s.stored := rfl

/-- An outcome whose next state, if there is one, is canonical. -/
def Out.stored : Out → Bool
  | .next s => s.stored
  | .fault _ => true
  | .refused _ => true

theorem foldl_state_stored {α : Type} {f : State → α → State} (hf : ∀ s x, s.stored = true → (f s x).stored = true)
    (l : List α) {s : State} (h : s.stored = true) : (l.foldl f s).stored = true := by
  induction l generalizing s with
  | nil => exact h
  | cons x l ih => exact ih (hf s x h)

theorem State.stored_dev {s : State} (h : s.stored = true) : s.dev.stored = true := ((State.stored_iff s).mp h).1

/-- Outside a word there is no package to fall back to. -/
theorem State.stored_of_dev {d : Device} (h : d.stored = true) (l : List Turn) :
    ({ dev := d, iss := {}, agenda := l } : State).stored = true :=
  (State.stored_iff _).mpr ⟨h, fun _ e => by cases e⟩

theorem State.stored_with_dev {s : State} (h : s.stored = true) {d : Device} (hd : d.stored = true) :
    { s with dev := d }.stored = true :=
  (State.stored_iff _).mpr ⟨hd, ((State.stored_iff s).mp h).2⟩

end Sys2Proof.Machine
end

