-- ==== Sys2Proof/Proofs/StoredMemory.lean ====
section
/-! PROOF. The canonical form along the operations of a package: its tables, the array, the caches, translation,
the row port and the matrix queue. One lemma per operation, named after it. -/

namespace Sys2Proof.Machine

/-! ### `Machine/Access` -/

theorem Device.setGang_stored {d : Device} (h : d.stored = true) (rk b : Nat) (x : Gang) :
    (d.setGang rk b x).stored = true := h

theorem Device.setHart_stored {d : Device} (h : d.stored = true) (rk k : Nat) (x : Hart) :
    (d.setHart rk k x).stored = true := h

theorem Device.modGang_stored {d : Device} (h : d.stored = true) (rk b : Nat) (f : Gang → Gang) :
    (d.modGang rk b f).stored = true := by
  unfold Device.modGang
  split <;> exact h

theorem Device.modHart_stored {d : Device} (h : d.stored = true) (rk k : Nat) (f : Hart → Hart) :
    (d.modHart rk k f).stored = true := by
  unfold Device.modHart
  grind [Device.stored_eq, Device.setHart_stored]

theorem Device.modCore_stored {d : Device} (h : d.stored = true) (c : Nat) (f : Core → Core) :
    (d.modCore c f).stored = true := h

theorem Device.charge_stored {d : Device} (h : d.stored = true) (c n : Nat) : (d.charge c n).stored = true := h

theorem Device.modBank_stored {d : Device} (h : d.stored = true) (c b : Nat) (f : Bank → Bank) :
    (d.modBank c b f).stored = true := h

theorem Device.modGroup_stored {d : Device} (h : d.stored = true) (c b : Nat) (g : Lat) (f : Group → Group) :
    (d.modGroup c b g f).stored = true := h

theorem Device.copyLost_stored {d : Device} (h : d.stored = true) (c b : Nat) (g : Lat) :
    (d.copyLost c b g).stored = true := by
  unfold Device.copyLost
  grind [Device.stored_eq, Device.modCore_stored]

theorem Device.setLatch_stored {d : Device} (h : d.stored = true) (c b : Nat) (g : Lat) (l : LatchRec) :
    (d.setLatch c b g l).stored = true := Device.copyLost_stored h ..

theorem Device.modLaunch_stored {d : Device} (h : d.stored = true) (seq : Nat) (f : Launch → Launch) :
    (d.modLaunch seq f).stored = true := h

theorem Device.mapGangs_stored {d : Device} (h : d.stored = true) (rk : Nat) (f : Gang → Gang) :
    (d.mapGangs rk f).stored = true := h

theorem Device.mapHarts_stored {d : Device} (h : d.stored = true) (rk : Nat) (f : Hart → Hart) :
    (d.mapHarts rk f).stored = true := h

theorem Device.dropHarts_stored {d : Device} (h : d.stored = true) (rk : Nat) : (d.dropHarts rk).stored = true := h

theorem Device.modFound_stored {d : Device} (h : d.stored = true) (rk base cv b : Nat) (f : Hart → Hart) :
    (d.modFound rk base cv b f).stored = true := Device.modGang_stored h ..

/-! ### `Machine/Array` -/

theorem Device.setHwd_stored {d : Device} (h : d.stored = true) : d.setHwd.stored = true := h

theorem Device.setLost_stored {d : Device} (h : d.stored = true) : d.setLost.stored = true := h

theorem Device.setFull_stored {d : Device} (h : d.stored = true) : d.setFull.stored = true := h

theorem Device.notify_stored {d : Device} (h : d.stored = true) (v : Fin 4) : (d.notify v).stored = true := h

theorem Device.performPend_stored {d : Device} (h : d.stored = true) (c b : Nat) (g : Lat) :
    (d.performPend c b g).stored = true := by
  unfold Device.performPend
  grind [Device.stored_eq, Device.modBank_stored, Device.modGroup_stored, Device.rowWrite_stored]

theorem Device.closeSense_stored {d : Device} (h : d.stored = true) (c b : Nat) (g : Lat) (t : Nat) :
    (d.closeSense c b g t).stored = true := Device.performPend_stored h ..

theorem Device.wdExpire_stored {d : Device} (h : d.stored = true) (p : Nat × Residence) :
    (d.wdExpire p).stored = true := h

theorem Device.elapse_stored {d : Device} (h : d.stored = true) (n : Nat) : (d.elapse n).stored = true := by
  unfold elapse
  refine foldl_stored (fun d p hd => Device.wdExpire_stored hd p) _ ?_
  obtain ⟨hm, hv, hh, hr⟩ := (Device.stored_iff d).mp h
  refine (Device.stored_iff _).mpr ⟨hm, hv, hh, fun q hq => ?_⟩
  obtain ⟨p, hp, rfl⟩ := List.mem_map.mp hq
  have := hr p hp
  dsimp only
  split <;> split <;> exact this

theorem Device.tick_stored {d : Device} (h : d.stored = true) : d.tick.stored = true := Device.elapse_stored h ..

theorem Device.advanceTo_stored {d : Device} (h : d.stored = true) (t : Nat) : (d.advanceTo t).stored = true := by
  unfold Device.advanceTo
  split
  · exact h
  · exact Device.elapse_stored h ..

theorem Device.dieStart_stored {d : Device} (h : d.stored = true) (c b t : Nat) : (d.dieStart c b t).stored = true :=
  h

theorem Device.applyRow_stored {d : Device} (h : d.stored = true) (c b key : Nat) :
    (d.applyRow c b key).stored = true := h

theorem Device.modSvc_stored {d : Device} (h : d.stored = true) (c b : Nat) (g : Lat) (f : SvcCount → SvcCount) :
    (d.modSvc c b g f).stored = true := h

theorem Device.sensed_stored {d : Device} (h : d.stored = true) (c b : Nat) (g : Lat) (key : Nat) :
    (d.sensed c b g key).stored = true := h

theorem Device.sensedRow_stored {d : Device} (h : d.stored = true) (c b : Nat) (g : Lat) (key : Nat) :
    (d.sensedRow c b g key).stored = true := by
  unfold Device.sensedRow
  grind [Device.stored_eq, Device.modSvc_stored, Device.sensed_stored]

theorem Device.refresh_stored {d : Device} (h : d.stored = true) (c b : Nat) (g : Lat) (t : Nat) :
    (d.refresh c b g t).stored = true := h

theorem Device.activate_stored {d : Device} (h : d.stored = true) (c b : Nat) (g : Lat) (row t : Nat) (tag : BitVec 4)
    (src : BitVec 9) : (d.activate c b g row t tag src).stored = true := by
  unfold Device.activate
  grind [Device.stored_eq, Device.applyRow_stored, Device.copyLost_stored, Device.modGroup_stored,
    Device.sensedRow_stored]

theorem Device.drive_stored {d : Device} (h : d.stored = true) (c b : Nat) (g : Lat) (row t : Nat) :
    (d.drive c b g row t).stored = true := h

theorem Device.startRow_stored {d : Device} (h : d.stored = true) (c b : Nat) (cmd : RowCmd) (t : Nat) :
    (d.startRow c b cmd t).stored = true := by
  unfold Device.startRow
  grind [Device.stored_eq, Device.activate_stored, Device.charge_stored, Device.closeSense_stored,
    Device.copyLost_stored, Device.dieStart_stored, Device.drive_stored, Device.modGroup_stored,
      Device.refresh_stored]

theorem Device.startAt_stored {d : Device} (h : d.stored = true) (c b : Nat) (p : Nat × RowCmd × Nat) :
    (d.startAt c b p).stored = true := Device.startRow_stored h ..

theorem Device.ownClose_stored {d : Device} (h : d.stored = true) (c b : Nat) (g : Lat) :
    (d.ownClose c b g).stored = true := by
  unfold Device.ownClose
  split
  · exact Device.closeSense_stored h ..
  · exact h

theorem Device.insertRef_stored {d : Device} (h : d.stored = true) (c b : Nat) (g : Lat) :
    (d.insertRef c b g).stored = true := by
  unfold Device.insertRef
  split
  · exact Device.ownClose_stored h ..
  · exact h

theorem Device.forceRef_stored {d : Device} (h : d.stored = true) (c b : Nat) (g : Lat) :
    (d.forceRef c b g).stored = true := by
  unfold Device.forceRef
  grind [Device.stored_eq, Device.insertRef_stored, Device.modGroup_stored, Device.modSvc_stored]

theorem Device.forceAll_stored {d : Device} (h : d.stored = true) (c b : Nat) (g : Lat) (n : Nat) :
    (d.forceAll c b g n).stored = true := by
  induction n generalizing d with
  | zero => exact h
  | succ n ih => unfold forceAll; grind [Device.forceRef_stored]

theorem Device.release_stored {d : Device} (h : d.stored = true) (c b : Nat) (g : Lat) :
    (d.release c b g).stored = true := by
  unfold Device.release
  grind [Device.stored_eq, Device.modBank_stored, Device.ownClose_stored, Device.startAt_stored]

theorem Device.colUse_stored {d : Device} (h : d.stored = true) (c b : Nat) (g : Lat) (key cls : Nat) :
    (d.colUse c b g key cls).stored = true := by
  unfold Device.colUse
  grind [Device.stored_eq, Device.forceAll_stored, Device.modGroup_stored, Device.release_stored,
    Device.sensed_stored]

theorem Device.releaseFor_stored {d : Device} (h : d.stored = true) (key cls : Nat) :
    (d.releaseFor key cls).stored = true := by
  unfold Device.releaseFor
  split
  · exact Device.colUse_stored h ..
  · exact h

/-! ### `Machine/Store` -/

theorem Device.dropCopy_stored {d : Device} (h : d.stored = true) (core line : Nat) :
    (d.dropCopy core line).stored = true := h

theorem Device.dropCopies_stored {d : Device} (h : d.stored = true) (stand line : Nat) :
    (d.dropCopies stand line).stored = true := h

theorem Device.dropLine_stored {d : Device} (h : d.stored = true) (line : Nat) : (d.dropLine line).stored = true := h

theorem Device.wqClose_stored {d : Device} (h : d.stored = true) (key : Nat) : (d.wqClose key).stored = true := by
  unfold Device.wqClose
  split <;> exact h

theorem Device.cleanHome_stored {d : Device} (h : d.stored = true) (line : Nat) : (d.cleanHome line).stored = true := by
  unfold Device.cleanHome
  grind [Device.stored_eq, Device.arrWrite_stored, Device.releaseFor_stored, Device.wqClose_stored]

theorem Device.recallLine_stored {d : Device} (h : d.stored = true) (line : Nat) :
    (d.recallLine line).stored = true := by
  unfold Device.recallLine
  split
  · exact Device.cleanHome_stored h ..
  · exact h

theorem Device.evictLine_stored {d : Device} (h : d.stored = true) (core line : Nat) :
    (d.evictLine core line).stored = true := by
  unfold Device.evictLine
  grind [Device.stored_eq, Device.dropCopy_stored, Device.recallLine_stored]

theorem Device.trimCache_stored {d : Device} (h : d.stored = true) (core n : Nat) :
    (d.trimCache core n).stored = true := foldl_stored (fun _ c hd => Device.evictLine_stored hd core c.line) _ h

theorem Device.cacheRoom_stored {d : Device} (h : d.stored = true) (core line : Nat) :
    (d.cacheRoom core line).stored = true := foldl_stored (fun _ c hd => Device.evictLine_stored hd core c.line) _ h

theorem Device.holdLine_stored {d : Device} (h : d.stored = true) (c : CacheLine) : (d.holdLine c).stored = true :=
  Device.cacheRoom_stored h ..

theorem Device.bankWrite_stored {d : Device} (h : d.stored = true) (key n v : Nat) (bad : Bool) :
    (d.bankWrite key n v bad).stored = true := by
  unfold Device.bankWrite
  grind [Device.stored_eq, Device.arrWrite_stored, Device.dropLine_stored, Device.recallLine_stored,
    Device.releaseFor_stored, Device.wqClose_stored]

theorem Device.putMarked_stored {d : Device} (h : d.stored = true) (p : Proxy) : (d.putMarked p).stored = true := by
  unfold Device.putMarked
  grind [Device.stored_eq, Device.arrWrite_stored, Device.dropLine_stored, Device.releaseFor_stored,
    Device.wqClose_stored]

theorem Device.writeHome_stored {d : Device} (h : d.stored = true) (p : Proxy) : (d.writeHome p).stored = true := by
  unfold Device.writeHome
  grind [Device.stored_eq, Device.putMarked_stored, Device.setLost_stored]

theorem Device.dropProxy_stored {d : Device} (h : d.stored = true) (stand line : Nat) :
    (d.dropProxy stand line).stored = true := by
  unfold Device.dropProxy
  split <;> exact h

theorem Device.flushProxy_stored {d : Device} (h : d.stored = true) (stand line : Nat) :
    (d.flushProxy stand line).stored = true := by
  unfold Device.flushProxy
  grind [Device.stored_eq, Device.dropProxy_stored, Device.writeHome_stored]

theorem Device.sliceRoom_stored {d : Device} (h : d.stored = true) (stand line : Nat) :
    (d.sliceRoom stand line).stored = true :=
  foldl_stored (fun _ q hd => Device.flushProxy_stored hd q.stand q.line) _ h

theorem Device.setProxy_stored {d : Device} (h : d.stored = true) (p : Proxy) : (d.setProxy p).stored = true :=
  Device.sliceRoom_stored h ..

theorem Device.homeFetch_stored {d : Device} (h : d.stored = true) (line : Nat) :
    (d.homeFetch line).1.stored = true := by
  unfold Device.homeFetch
  grind [Device.stored_eq, Device.releaseFor_stored, Device.setProxy_stored, Device.sliceRoom_stored]

theorem Device.homeLoad_stored {d : Device} (h : d.stored = true) (core line : Nat) (na : Bool) :
    (d.homeLoad core line na).1.stored = true := by
  unfold Device.homeLoad
  grind [Device.stored_eq, Device.cacheRoom_stored, Device.holdLine_stored, Device.homeFetch_stored]

theorem Device.fillProxy_stored {d : Device} (h : d.stored = true) (stand line : Nat) :
    (d.fillProxy stand line).1.stored = true := by
  unfold Device.fillProxy
  grind [Device.stored_eq, Device.homeFetch_stored, Device.recallLine_stored, Device.sliceRoom_stored]

theorem Device.cleanLine_stored {d : Device} (h : d.stored = true) (core : Nat) (inv : Bool) (line : Nat) :
    (d.cleanLine core inv line).stored = true := by
  unfold Device.cleanLine
  grind [Device.stored_eq, Device.cleanHome_stored, Device.dropCopy_stored, Device.flushProxy_stored,
    Device.writeHome_stored]

theorem Device.colWrite_stored {d : Device} (h : d.stored = true) (st : Stor) (n v : Nat) (bad : Bool) :
    (d.colWrite st n v bad).stored = true := by
  unfold Device.colWrite
  grind [Device.stored_eq, Device.bankWrite_stored, Device.setLost_stored, Device.vaultWrite_stored]

theorem Device.colRead_stored {d : Device} (h : d.stored = true) (st : Stor) (n : Nat) :
    (d.colRead st n).1.stored = true := by
  unfold Device.colRead
  grind [Device.stored_eq, Device.releaseFor_stored, Device.setLost_stored]

theorem Device.cachedRead_stored {d : Device} (h : d.stored = true) (core : Nat) (st : Stor) (n : Nat) (na : Bool) :
    (d.cachedRead core st n na).1.stored = true := by
  unfold Device.cachedRead
  grind [Device.stored_eq, Device.cacheRoom_stored, Device.colRead_stored, Device.fillProxy_stored,
    Device.holdLine_stored, Device.homeLoad_stored, Device.setProxy_stored]

theorem Device.cachedWrite_stored {d : Device} (h : d.stored = true) (core : Nat) (st : Stor) (n v : Nat)
    (na : Bool) : (d.cachedWrite core st n v na).stored = true := by
  unfold Device.cachedWrite
  grind [Device.stored_eq, Device.cacheRoom_stored, Device.colWrite_stored, Device.dropCopies_stored,
    Device.dropLine_stored, Device.fillProxy_stored, Device.holdLine_stored, Device.homeLoad_stored,
      Device.setProxy_stored]

theorem Device.physTouch_stored {d : Device} (h : d.stored = true) (pa n : Nat) : (d.physTouch pa n).stored = true :=
  foldl_stored (fun _ _ hd => Device.colRead_stored hd ..) _ h

theorem Device.physWrite_stored {d : Device} (h : d.stored = true) (pa n v : Nat) :
    (d.physWrite pa n v).stored = true := foldl_stored (fun _ _ hd => Device.colWrite_stored hd ..) _ h

/-! ### `Machine/Xlate` -/

theorem Device.walkFrom_stored {d : Device} (h : d.stored = true) (va level t : Nat) :
    (d.walkFrom va level t).1.stored = true := by
  induction level generalizing d t with
  | zero => unfold walkFrom; grind [Device.physTouch_stored]
  | succ level ih => unfold walkFrom; grind [Device.physTouch_stored]

theorem Device.walked_stored {d : Device} (h : d.stored = true) (ctx : BitVec 12) (va : Nat) :
    (d.walked ctx va).1.stored = true := by
  unfold Device.walked
  grind [Device.stored_eq, Device.physTouch_stored, Device.walkFrom_stored]

theorem Device.sendAts_stored {d : Device} (h : d.stored = true) : d.sendAts.stored = true := h

theorem Device.putAtc_stored {d : Device} (h : d.stored = true) (core : Nat) (e : AtcEntry) :
    (d.putAtc core e).stored = true := h

theorem Device.translate_stored {d : Device} (h : d.stored = true) (core : Nat) (ctx : BitVec 12) (va : Nat) :
    (d.translate core ctx va).1.stored = true := by
  unfold Device.translate
  grind [Device.stored_eq, Device.putAtc_stored, Device.walked_stored]

theorem Device.globalAt_stored {d : Device} (h : d.stored = true) (core : Nat) (ctx : BitVec 12) (k : Acc)
    (va : Nat) : (d.globalAt core ctx k va).1.stored = true := Device.translate_stored h ..

theorem Device.checkAt_stored {d : Device} (h : d.stored = true) (core : Nat) (r : Residence) (ad : Admits) (k : Acc)
    (va : Nat) : (d.checkAt core r ad k va).1.stored = true := by
  unfold Device.checkAt
  grind [Device.stored_eq, Device.globalAt_stored]

theorem Device.readAt_stored {d : Device} (h : d.stored = true) (core rk : Nat) (p : Place) (n : Nat) (na : Bool) :
    (d.readAt core rk p n na).1.stored = true := by
  unfold Device.readAt
  grind [Device.stored_eq, Device.cachedRead_stored]

/-! ### `Machine/Store` -/

theorem Residence.write_memOk {r : Residence} (h : r.memOk = true) (off n v : Nat) (bad : Bool) :
    (r.write off n v bad).memOk = true := by
  unfold write
  grind [Residence.memOk_iff, Memory.wf_write]

/-! ### `Machine/Xlate` -/

theorem Device.writeAt_stored {d : Device} (h : d.stored = true) (core rk : Nat) (p : Place) (n v : Nat) (na : Bool) :
    (d.writeAt core rk p n v na).stored = true := by
  cases p with
  | mem st => exact Device.cachedWrite_stored h core st n v na
  | host a => exact Device.withHost_stored h (Memory.wf_write _ a n v (Device.host_wf h))
  | pool o => exact Device.modRes_stored h rk _ fun r hr => Residence.write_memOk hr o n v false

/-! ### `Machine/RowPort` -/

theorem Device.closeBank_stored {d : Device} (h : d.stored = true) (c b : Nat) : (d.closeBank c b).stored = true :=
  foldl_stored (fun _ g hd => Device.modGroup_stored (Device.ownClose_stored hd c b g) c b g _) _
    (Device.modBank_stored h c b _)

theorem Device.busAsk_stored {d : Device} (h : d.stored = true) (c time need : Nat) (all held matrix : Bool) :
    (d.busAsk c time need all held matrix).1.stored = true := h

theorem Device.busGrant_stored {d : Device} (h : d.stored = true) (c : Nat) : (d.busGrant c).stored = true := by
  unfold Device.busGrant
  grind [Device.stored_eq, Device.modCore_stored]

theorem Device.busMore_stored {d : Device} (h : d.stored = true) (c id need : Nat) :
    (d.busMore c id need).stored = true := h

theorem Device.busDrop_stored {d : Device} (h : d.stored = true) (c id : Nat) : (d.busDrop c id).stored = true := h

theorem Device.segLatches_stored {d : Device} (h : d.stored = true) (c e : Nat) (s : VecSeg) :
    (d.segLatches c e s).stored = true :=
  foldl_stored (fun _ _ hd => Device.modGroup_stored hd ..) _
    (foldl_stored (fun _ _ hd => Device.modGroup_stored hd ..) _ h)

theorem Device.segReqs_stored {d : Device} (h : d.stored = true) (c e : Nat) (s : VecSeg) :
    (d.segReqs c e s).stored = true := foldl_stored (fun _ _ hd => Device.modCore_stored hd c _) _ h

theorem Device.startSeg_stored {d : Device} (h : d.stored = true) (c b : Nat) : (d.startSeg c b).stored = true := by
  unfold startSeg
  split
  · exact h
  · exact Device.segReqs_stored (foldl_stored (fun _ (p : Nat × VecSeg) hd => Device.segLatches_stored hd c _ p.2) _
      (foldl_stored (fun _ (p : Nat × VecSeg) hd => Device.modBank_stored hd c p.1 _) _ h)) c ..

theorem Device.rowRefMove_stored {d : Device} (h : d.stored = true) (c b : Nat) (g : Lat) :
    (d.rowRefMove c b g).stored = true := by
  unfold Device.rowRefMove
  split
  · exact Device.forceRef_stored h ..
  · exact Device.insertRef_stored h ..

theorem Device.bankStep_stored {d : Device} (h : d.stored = true) (c b : Nat) :
    ∀ e, d.bankStep c b = some e → e.stored = true := by
  intro e he
  unfold bankStep at he
  split at he
  · cases he; exact Device.rowRefMove_stored h c b _
  · obtain ⟨p, -, rfl⟩ := Option.map_eq_some_iff.mp he
    exact Device.startAt_stored h c b p

theorem Device.coreStep_stored {d : Device} (h : d.stored = true) (c : Nat) :
    ∀ e, d.coreStep c = some e → e.stored = true := by
  intro e he
  unfold coreStep at he
  split at he
  · cases he; exact Device.busGrant_stored h c
  · split at he
    · cases he; exact Device.startSeg_stored h c _
    · obtain ⟨b, -, hb⟩ := List.exists_of_findSome?_eq_some he
      exact Device.bankStep_stored h c b e hb

theorem Device.settleBank_stored {d : Device} (h : d.stored = true) (c b n : Nat) :
    (d.settleBank c b n).stored = true := by
  induction n generalizing d with
  | zero => exact h
  | succ n ih => unfold settleBank; grind [Device.coreStep_stored, Device.advanceTo_stored]

/-! ### `Machine/MatrixCore` -/

theorem Device.spend_stored {d : Device} (h : d.stored = true) (rk n : Nat) : (d.spend rk n).stored = true := by
  unfold Device.spend
  split <;> exact h

theorem Device.modSlot_stored {d : Device} (h : d.stored = true) (c : Nat) (s : Fin 6) (f : AccSlot → AccSlot) :
    (d.modSlot c s f).stored = true := h

theorem Device.bindSlot_stored {d : Device} (h : d.stored = true) (c rk : Nat) (k : Fin 6) (i : Sys2Proof.Acc)
    (int : Bool) : (d.bindSlot c rk k i int).stored = true := h

theorem Device.freeUp_stored {d : Device} (h : d.stored = true) (c : Nat) (k : Fin 6) :
    (d.freeUp c k).stored = true := h

theorem Device.fillHalf_stored {d : Device} (h : d.stored = true) (c res base : Nat) (half : Bool) (r : HalfRec) :
    (d.fillHalf c res base half r).stored = true := h

theorem Device.mxRows_stored {d : Device} (h : d.stored = true) (c : Nat) (e : MxEntry) (hi : Nat) :
    (d.mxRows c e hi).stored = true := by
  unfold Device.mxRows
  grind [Device.stored_eq, Device.charge_stored, Device.fillHalf_stored, Device.modSlot_stored, Device.spend_stored]

theorem Device.deliver_stored {d : Device} (h : d.stored = true) (e : MxEntry) (r : Reg) (v : Word)
    (banks : List Nat) : (d.deliver e r v banks).stored = true :=
  foldl_stored (fun _ _ hd => Device.modFound_stored (Device.modHart_stored hd ..) ..) _ h

theorem Device.mxPerform_stored {d : Device} (h : d.stored = true) (c : Nat) (e : MxEntry) :
    (d.mxPerform c e).stored = true := by
  have readOut : ∀ parts : List (GLat × Nat × RowData), (parts.foldl (fun d p =>
      (d.copyLost c (e.base + p.1.bank.val) p.1.g).modGroup c (e.base + p.1.bank.val) p.1.g fun x =>
        { x with latch := { x.latch with valid := true, poison := 0, data := p.2.2 }
                 lr := max x.lr (d.now + 1), lw := max x.lw (d.now + 1) }) d).stored = true := fun parts =>
    foldl_stored (fun _ _ hd => Device.modGroup_stored (Device.copyLost_stored hd ..) ..) parts h
  unfold mxPerform
  split
  case h_4 => exact readOut _
  case h_5 => exact foldl_stored (fun _ _ hd => Device.modSlot_stored hd ..) _ h
  all_goals grind [Device.fillHalf_stored, Device.mxRows_stored, Device.modSlot_stored, Device.bindSlot_stored,
    Device.deliver_stored,
    Device.freeUp_stored, Device.modCore_stored]

theorem Device.refill_stored {d : Device} (h : d.stored = true) (c : Nat) (e : MxEntry) :
    (d.refill c e).stored = true := by
  unfold Device.refill
  grind [Device.stored_eq, Device.fillHalf_stored]

theorem Device.mxStart_stored {d : Device} (h : d.stored = true) (c k : Nat) : (d.mxStart c k).stored = true := by
  unfold mxStart
  split
  · exact h
  · next e _ =>
    dsimp only
    split
    · exact Device.modCore_stored (Device.busAsk_stored h c ..) c _
    · have dropped : (match e.req with
          | some id => d.busDrop c id
          | none => d).stored = true := by
        split
        · exact Device.busDrop_stored h c _
        · exact h
      split
      · grind [Device.refill_stored, Device.modCore_stored]
      · exact Device.modCore_stored
          (foldl_stored (fun _ _ hd => Device.modBank_stored hd c ..) _ (Device.refill_stored dropped c e)) c _

theorem Device.settleMx_stored {d : Device} (h : d.stored = true) (c rk : Nat) : (d.settleMx c rk).stored = true := by
  unfold settleMx
  refine foldl_stored (fun _ e hd => Device.mxPerform_stored hd c e) _
    (Device.modCore_stored (foldl_stored (fun d e hd => ?_) _ h) c _)
  split
  · exact Device.busDrop_stored hd c _
  · exact hd

end Sys2Proof.Machine
end

