-- ==== Sys2Proof/Proofs/StoredWords.lean ====
section
/-! PROOF. The canonical form along the life of a word: faults, the frame of a word and of a convoy, registers,
flags and lanes. -/

namespace Sys2Proof.Machine

/-! ### `Machine/Ops` -/

theorem Device.journalWrite_stored {d : Device} (h : d.stored = true) (v : Nat) : (d.journalWrite v).stored = true :=
  Device.physWrite_stored h ..

theorem Device.faultWrite_stored {d : Device} (h : d.stored = true) (f : FaultRec) : (d.faultWrite f).stored = true := by
  unfold Device.faultWrite
  grind [Device.stored_eq, Device.notify_stored, Device.physWrite_stored, Device.setFull_stored]

theorem Device.flushFaults_stored {d : Device} (h : d.stored = true) : d.flushFaults.stored = true :=
  foldl_stored (fun _ f hd => Device.faultWrite_stored hd f) _ h

theorem Residence.setBar_memOk {r : Residence} (h : r.memOk = true) (off : Nat) (b : Bar) :
    (r.setBar off b).memOk = true := Residence.write_memOk h off 16 ..

theorem Residence.killBar_memOk {r : Residence} (h : r.memOk = true) (k off : Nat) : (r.killBar k off).memOk = true := by
  unfold killBar
  grind [Residence.setBar_memOk]

theorem Residence.exitBar_memOk {r : Residence} (h : r.memOk = true) (k off : Nat) : (r.exitBar k off).memOk = true := by
  unfold exitBar
  grind [Residence.setBar_memOk]

theorem Residence.engineArrive_memOk {r : Residence} (h : r.memOk = true) (off n : Nat) :
    (r.engineArrive off n).memOk = true := by
  unfold engineArrive
  grind [Residence.setBar_memOk]

theorem Device.showWaits_stored {d : Device} (h : d.stored = true) (rk : Nat) (l : List WaitCond) :
    (d.showWaits rk l).stored = true :=
  foldl_stored (fun _ c hd => by
    split
    · exact Device.modRes_stored hd rk _ fun r hr => Residence.setBar_memOk hr ..
    · exact hd) _ h

theorem Device.stopForCmd_stored {d : Device} (h : d.stored = true) (rk : Nat) : (d.stopForCmd rk).stored = true := by
  unfold stopForCmd
  split
  · exact Device.modRes_stored h rk _ fun r hr => by split <;> exact hr
  · exact h

theorem Device.stopRes_stored {d : Device} (h : d.stored = true) (rk : Nat) : (d.stopRes rk).stored = true := by
  have bars : ∀ live : List Nat, (live.foldl (fun d h => (d.hart rk h).bars.toList.foldl (fun d e =>
      match e with
      | some off => d.modRes rk fun r => r.killBar h off
      | none => d) d) d).stored = true := fun live => foldl_stored (fun _ k hd => foldl_stored (fun _ e he => by
    split
    · exact Device.modRes_stored he rk _ fun r hr => Residence.killBar_memOk hr k _
    · exact he) _ hd) live h
  unfold stopRes
  extract_lets c live d₁ issuing d₂ d₃ d₄
  have h₁ : d₁.stored = true := bars live
  have h₂ : d₂.stored = true := by
    dsimp only [d₂]
    split
    · exact foldl_stored (fun _ k hd => Device.closeBank_stored hd c k) live h₁
    · exact h₁
  have h₃ : d₃.stored = true := Device.mapGangs_stored h₂ rk _
  have h₄ : d₄.stored = true := Device.mapHarts_stored h₃ rk _
  have h₅ : (d₄.modRes rk fun r => { r with saved := [] }).stored = true := Device.modRes_stored h₄ rk _
    fun r hr => hr
  exact Device.modCore_stored h₅ c _

theorem Device.kill_stored {d : Device} (h : d.stored = true) (seq : Nat) (k : KillInfo) :
    (d.kill seq k).stored = true := by
  unfold kill
  split
  · exact h
  · split
    · exact h
    · refine Device.sendAts_stored (Device.modLaunch_stored (foldl_stored (fun d p hd => ?_) _ h) seq _)
      split
      · exact Device.stopRes_stored hd _
      · exact hd

theorem Device.killBy_stored {d : Device} (h : d.stored = true) (rk bank cause : Nat) (tpc tval : Word) :
    (d.killBy rk bank cause tpc tval).stored = true := by
  unfold Device.killBy
  split
  · exact Device.kill_stored h ..
  · exact h

theorem Device.takeTrap_stored {d : Device} (h : d.stored = true) (rk base : Nat) (tpc : Word)
    (fails : List (Nat × Fail)) : (d.takeTrap rk base tpc fails).stored = true := by
  unfold takeTrap
  split
  · dsimp only
    split
    · exact Device.killBy_stored h ..
    · exact Device.setGang_stored (foldl_stored (fun _ _ hd => Device.modHart_stored hd ..) _
        (foldl_stored (fun _ _ hd => Device.modHart_stored hd ..) _ h)) ..
  · exact h

theorem Device.takePageFault_stored {d : Device} (h : d.stored = true) (rk base : Nat) (tpc : Word)
    (fails : List (Nat × Fail)) : (d.takePageFault rk base tpc fails).stored = true := by
  unfold takePageFault
  split
  · exact Device.flushFaults_stored (Device.modRes_stored (Device.setGang_stored h ..) rk _ fun r hr => hr)
  · exact h

theorem Device.takeFails_stored {d : Device} (h : d.stored = true) (rk base : Nat) (tpc : Word)
    (fails : List (Nat × Fail)) : (d.takeFails rk base tpc fails).stored = true := by
  unfold Device.takeFails
  split
  · exact Device.takePageFault_stored h ..
  · exact Device.takeTrap_stored h ..

theorem Device.trapReturn_stored {d : Device} (h : d.stored = true) (rk base : Nat) (gm : Mask16) (depth : Nat) :
    (d.trapReturn rk base gm depth).stored = true :=
  foldl_stored (fun _ _ hd => Device.modHart_stored hd ..) _ (Device.modGang_stored h ..)

theorem Device.discard_stored {d : Device} (h : d.stored = true) (rk base : Nat) :
    (d.discard rk base).stored = true := by
  unfold discard
  split
  · exact h
  · dsimp only
    split
    · exact Device.setGang_stored h ..
    · exact Device.setGang_stored (foldl_stored (fun _ _ hd => Device.modGroup_stored hd ..) _
        (foldl_stored (fun _ _ hd => Device.modHart_stored hd ..) _
          (foldl_stored (fun _ _ hd => Device.modBank_stored hd ..) _
          (foldl_stored (fun _ _ hd => Device.busDrop_stored hd ..) _ (Device.setGang_stored h ..))))) ..

theorem Device.preempt_stored {d : Device} (h : d.stored = true) (rk : Nat) : (d.preempt rk).stored = true :=
  Device.mapGangs_stored (foldl_stored (fun _ p hd => Device.discard_stored hd rk p.1) _
    (Device.mapGangs_stored h rk _)) rk _

theorem Device.yielded_stored {d : Device} (h : d.stored = true) (rk base : Nat) :
    (d.yielded rk base).stored = true := h

theorem State.modDev_stored {s : State} (h : s.stored = true) {f : Device → Device} (hf : (f s.dev).stored = true) :
    (s.modDev f).stored = true := (State.stored_iff _).mpr ⟨hf, ((State.stored_iff s).mp h).2⟩

theorem State.modHart_stored {s : State} (h : s.stored = true) (k : Nat) (f : Hart → Hart) :
    (s.modHart k f).stored = true := State.modDev_stored h (Device.modHart_stored (State.stored_dev h) ..)

theorem State.modGang_stored {s : State} (h : s.stored = true) (f : Gang → Gang) : (s.modGang f).stored = true :=
  State.stored_with_dev h (Device.modGang_stored (State.stored_dev h) ..)

theorem State.addFail_stored {s : State} (h : s.stored = true) (k : Nat) (f : Fail) : (s.addFail k f).stored = true := by
  unfold State.addFail
  grind [State.stored_iff]

theorem State.failAll_stored {s : State} (h : s.stored = true) (f : Fail) : (s.failAll f).stored = true :=
  foldl_state_stored (fun _ k hs => State.addFail_stored hs k f) _ h

theorem State.holdOn_stored {s : State} (h : s.stored = true) (w : WaitOn) : (s.holdOn w).stored = true := by
  unfold State.holdOn
  split <;> exact h

theorem State.goto_stored {s : State} (h : s.stored = true) (a : Word) : (s.goto a).stored = true := h

theorem State.rollback_stored {s : State} (h : s.stored = true) : s.rollback.stored = true := by
  obtain ⟨hd, hu⟩ := (State.stored_iff s).mp h
  unfold rollback
  cases e : s.iss.undo with
  | none => exact hd
  | some d => exact hu d e

theorem State.settleRows_stored {s : State} (h : s.stored = true) (bank : Nat) : (s.settleRows bank).stored = true :=
  State.stored_with_dev h (Device.settleBank_stored (State.stored_dev h) ..)

theorem State.settleQueue_stored {s : State} (h : s.stored = true) : s.settleQueue.stored = true := by
  unfold State.settleQueue
  grind [State.stored_iff, Device.settleMx_stored, State.modDev_stored]

theorem State.settle_stored {s : State} (h : s.stored = true) (hd : Hdr) (u : Uses) (b : Nat) :
    (s.settle hd u b).stored = true := by
  have rows : ∀ {t : State}, t.stored = true → (u.latch.foldl (fun s r =>
      if s.latchWaits s.dev b r && !s.latchBusy b r then s.settleRows (s.latOf b r).1 else s) t).stored = true :=
        fun ht =>
    foldl_state_stored (fun _ _ hs => by
      split
      · exact State.settleRows_stored hs _
      · exact hs) _ ht
  unfold settle
  grind [State.settleQueue_stored]

theorem State.begin_stored {s : State} (h : s.stored = true) (g : Gang) : (s.begin g).stored = true := by
  have hd := State.stored_dev h
  unfold begin
  split
  · exact h
  · refine (State.stored_iff _).mpr ⟨?_, fun d e => by cases e; exact hd⟩
    dsimp only
    split
    · exact hd
    · exact foldl_stored (fun _ _ hx => Device.modHart_stored hx ..) _ hd

theorem State.count_stored {s : State} (h : s.stored = true) (hd : Hdr) (u : Uses) (act : List Nat) :
    (s.count hd u act).stored = true := by
  unfold State.count
  grind [State.stored_iff, Device.charge_stored]

theorem State.takePre_stored {s : State} (h : s.stored = true) (p : Nat × Pre) : (s.takePre p).stored = true := by
  unfold State.takePre
  split
  · exact State.addFail_stored h ..
  · exact h

theorem State.runWord_stored {s : State} (h : s.stored = true) (hd : Hdr) (u : Uses) {body : List Nat → State → State}
    (hb : ∀ l t, t.stored = true → (body l t).stored = true) (act : List Nat) :
    (s.runWord hd u body act).stored = true := by
  unfold runWord
  have settled := foldl_state_stored (fun _ b hs => State.settle_stored hs hd u b) act h
  have taken := foldl_state_stored (fun _ p hs => State.takePre_stored hs p)
    (act.map fun b => (b, (act.foldl (fun s b => s.settle hd u b) s).pre hd u b)) settled
  dsimp only
  split
  · exact State.holdOn_stored taken _
  · exact hb _ _ taken

theorem State.replayNext_stored {s : State} (h : s.stored = true) (g : Gang) (r : Replay) :
    (s.replayNext g r).stored = true := by
  unfold replayNext
  extract_lets act step s₁
  have h₁ : s₁.stored = true := foldl_state_stored (fun _ _ hs => State.modHart_stored hs ..) act h
  cases act with
  | nil => exact h₁
  | cons k _ =>
    dsimp only
    split
    · exact State.modGang_stored h₁ _
    · exact h₁

theorem State.issued_stored (s : State) {d : Device} (hd : d.stored = true) : (s.issued d).stored = true := by
  unfold State.issued
  grind [Device.stored_eq, Device.modCore_stored, Device.yielded_stored]

theorem State.commit_stored {s : State} (h : s.stored = true) (g : Gang) : (s.commit g).stored = true := by
  unfold commit
  extract_lets i w land d₁ d₂ d₃ d₄ d₅ s₁ s₂
  have h₁ : d₁.stored = true := foldl_stored (fun _ _ hd => Device.modHart_stored hd ..) _ (State.stored_dev h)
  have h₃ : d₃.stored = true := Device.modRes_stored (Device.modGang_stored h₁ ..) _ _ fun r hr => hr
  have h₄ : d₄.stored = true := by
    dsimp only [d₄]
    split
    · exact h₃
    · exact Device.charge_stored h₃ ..
  have h₅ : d₅.stored = true := State.issued_stored _ h₄
  have hs₁ : s₁.stored = true := by
    refine State.stored_with_dev h ?_
    split
    · exact h₅
    · exact Device.tick_stored h₅
  have hs₂ : s₂.stored = true := by
    dsimp only [s₂]
    split
    · split
      · exact State.replayNext_stored hs₁ ..
      · exact hs₁
    · exact hs₁
  exact State.stored_of_dev (State.stored_dev hs₂) _

theorem State.walked_stored (s : State) {d : Device} (hd : d.stored = true) : (s.walked d).stored = true := by
  unfold State.walked
  grind [Device.stored_eq, Device.modCore_stored]

theorem State.suspend_stored {s : State} (h : s.stored = true) (w : WaitOn) : (s.suspend w).stored = true := by
  have back := State.walked_stored s (State.rollback_stored h)
  unfold suspend
  extract_lets d₁ d₂
  have h₂ : d₂.stored = true := by
    unfold d₂
    split
    · extract_lets q
      split
      · exact back
      · exact back
    · exact Device.showWaits_stored back ..
    · exact Device.cleanLine_stored back ..
    · exact back
  exact State.stored_of_dev (Device.stopForCmd_stored (Device.yielded_stored (Device.modGang_stored h₂ ..) ..) _) _

theorem State.fallOut_stored {s : State} (h : s.stored = true) (fails : List (Nat × Fail)) :
    (s.fallOut fails).stored = true := by
  unfold fallOut
  extract_lets r d
  have hr : r.stored = true := State.rollback_stored h
  have hd : d.stored = true := State.walked_stored _ hr
  exact State.stored_of_dev (Device.tick_stored (State.issued_stored _ (Device.takeFails_stored hd ..))) _

theorem State.endConvoy_stored {s : State} (h : s.stored = true) : s.endConvoy.stored = true := by
  unfold State.endConvoy
  grind [State.stored_iff, Device.charge_stored, State.commit_stored, State.fallOut_stored, State.rollback_stored,
    State.suspend_stored]

theorem State.endWord_stored {s : State} (h : s.stored = true) (hd : Hdr) : (s.endWord hd).stored = true := by
  unfold State.endWord
  grind [State.stored_iff, State.endConvoy_stored]

theorem wordOp_stored {s : State} (h : s.stored = true) (hd : Hdr) (u : Uses) {body : List Nat → State → State}
    (hb : ∀ l t, t.stored = true → (body l t).stored = true) : Out.stored (wordOp hd u body s) = true := by
  unfold wordOp
  split
  · rfl
  · next g _ =>
    refine State.endWord_stored ?_ hd
    have counted : ((s.begin g).count hd u (banksOf g.gm)).stored = true := State.count_stored
      (State.begin_stored h g) hd u _
    split
    · exact counted
    · exact State.runWord_stored counted hd u hb _

theorem State.quiet_stored {s t : State} (h : t.stored = true) : (s.quiet t).stored = true := h

theorem perHart_stored {body : Nat → State → HRes} (hb : ∀ k t, t.stored = true → (body k t).stored = true)
    (l : List Nat) {s : State} (h : s.stored = true) : (perHart body l s).stored = true := by
  induction l generalizing s with
  | nil => exact h
  | cons k l ih =>
    unfold perHart
    have hk := hb k s h
    split
    · next t e =>
      rw [e] at hk
      refine ih ?_
      split
      · exact State.quiet_stored hk
      · exact hk
    · exact ih (State.addFail_stored h k _)
    · refine ih ?_
      split
      · exact h
      · exact State.holdOn_stored h _

theorem wholeGang_stored {body : List Nat → State → State} (hb : ∀ l t, t.stored = true → (body l t).stored = true)
    (run : List Nat) {s : State} (h : s.stored = true) : (wholeGang body run s).stored = true := hb _ s h

theorem writeReg_stored {s : State} (h : s.stored = true) (k : Nat) (r : Reg) (v : Word) (lat : Option Nat) :
    (writeReg k r v lat s).stored = true := by
  unfold writeReg
  grind [State.stored_iff, Device.modHart_stored, State.modHart_stored]

/-! ### `Machine/Operands` -/

theorem hartWordOp {s : State} (h : s.stored = true) (hd : Hdr) (u : Uses) {body : Nat → State → HRes}
    (hb : ∀ k t, t.stored = true → (body k t).stored = true) : Out.stored (wordOp hd u (perHart body) s) = true :=
  wordOp_stored h hd u fun l _ ht => perHart_stored hb l ht

theorem regWord_stored {s : State} (h : s.stored = true) (hd : Hdr) (d : Reg) (lat : Option Nat) (rd : List Reg)
    (val : State → Nat → Word) : Out.stored (regWord hd d lat rd val s) = true :=
  hartWordOp h hd _ fun k _ ht => writeReg_stored ht k d _ lat

/-! ### `Machine/Flags` -/

theorem withFlags_stored {s : State} (h : s.stored = true) (b : Nat) (f : Flags) {k : State → State}
    (hk : ∀ t, t.stored = true → (k t).stored = true) : (withFlags b f s k).stored = true := by
  unfold withFlags
  split
  · rfl
  · exact hk _ (State.modHart_stored h b _)

theorem fpWord_stored {s : State} (h : s.stored = true) (hd : Hdr) (d : Reg) (lat : Option Nat) (rd : List Reg)
    (val : State → Nat → Nat × Flags) : Out.stored (fpWord hd d lat rd val s) = true :=
  hartWordOp h hd _ fun k _ ht => withFlags_stored ht k _ fun _ hu => writeReg_stored hu k d _ lat

/-! ### `Machine/Lane` -/

theorem State.askBus_stored {s : State} (h : s.stored = true) (remote : List Nat) (all : Bool) :
    (s.askBus remote all).1.stored = true := by
  unfold askBus
  split
  · exact h
  · split
    · exact (State.stored_iff _).mpr ⟨Device.busAsk_stored (State.stored_dev h) .., ((State.stored_iff s).mp h).2⟩
    · exact (State.stored_iff _).mpr ⟨Device.busMore_stored (State.stored_dev h) .., ((State.stored_iff s).mp h).2⟩

theorem State.pushSeg_stored {s : State} (h : s.stored = true) (b : Nat) (rd wr : List LatRef) (elem : Bool)
    (time : Nat) (all store : Bool) : (s.pushSeg b rd wr elem time all store).stored = true :=
  State.modDev_stored (State.askBus_stored h ..) (Device.modBank_stored
    (State.stored_dev (State.askBus_stored h ..)) ..)

theorem State.putLatch_stored {s : State} (h : s.stored = true) (b : Nat) (g : Lat) (n : Nat) (written : List Nat)
    (data : Nat) : (s.putLatch b g n written data).stored = true :=
  State.stored_with_dev h (Device.setLatch_stored (State.stored_dev h) ..)

theorem State.stepSeed_stored {s : State} (h : s.stored = true) (b : Nat) (rounds : Bool) :
    (s.stepSeed b rounds).stored = true := by
  unfold State.stepSeed
  grind [State.stored_iff, Device.modHart_stored, State.modHart_stored]

theorem perLane_stored {body : Nat → State → HRes} (hb : ∀ k t, t.stored = true → (body k t).stored = true)
    (run : List Nat) {s : State} (h : s.stored = true) : (perLane body run s).stored = true :=
  (perHart_stored hb run (s := { s with iss := { s.iss with view := _, bus := none } }) h :)

theorem laneWordOp {s : State} (h : s.stored = true) (hd : Hdr) (u : Uses) {body : Nat → State → HRes}
    (hb : ∀ k t, t.stored = true → (body k t).stored = true) : Out.stored (wordOp hd u (perLane body) s) = true :=
  wordOp_stored h hd u fun l _ ht => perLane_stored hb l ht

theorem latchWord_stored {s : State} (h : s.stored = true) (chain : Bool) (b : Nat) (d : Lat) (n time : Nat)
    (bad : Bool) (uses : List LatUse) (part : Option Nat) (rounds : Bool) (written : List Nat) (f : Nat → Nat × Flags)
    (all : Bool) : (latchWord chain b d n time bad uses part rounds written f s all).stored = true := by
  unfold latchWord
  split
  · rfl
  · dsimp only
    split
    · rfl
    · exact withFlags_stored h b _ fun _ ht => State.pushSeg_stored
        (State.putLatch_stored (State.stepSeed_stored ht b _) b d n ..) b ..

/-! ### `Machine/LaneInt` -/

theorem State.zeroFill_stored {s : State} (h : s.stored = true) (b : Nat) : (s.zeroFill b).stored = true :=
  foldl_state_stored (fun _ _ hs => by
    split
    · exact hs
    · exact State.modDev_stored hs (Device.setLatch_stored (State.stored_dev hs) ..)) _ h

theorem setvlOn_stored {s : State} (h : s.stored = true) (d : XReg) (n : Src) (b : Nat) :
    (setvlOn d n b s).stored = true := by
  unfold setvlOn
  extract_lets c g
  have granted := State.modHart_stored h b fun t => { t with vl := g.extractLsb' 0 16 }
  rw [HRes.stored_ok]
  exact State.pushSeg_stored (writeReg_stored (State.zeroFill_stored granted b) b ..) b ..

theorem setvtOn_stored {s : State} (h : s.stored = true) (d : XReg) (v : Src) (b : Nat) :
    (setvtOn d v b s).stored = true := by
  unfold setvtOn
  dsimp only
  split
  · rfl
  · exact State.pushSeg_stored (writeReg_stored (State.modHart_stored h b _) b ..) b ..

theorem laneElem_stored {s : State} (h : s.stored = true) (m : MaskMod) (d : Lat) (a b : LOp) (readD : Bool)
    (p : VFmt → Nat) (ok : VFmt → Bool) (rounds : Bool) (f : LaneCfg → Nat → Nat → Nat → Nat → Nat × Flags)
    (k : Nat) : (laneElem m d a b readD p ok rounds f k s).stored = true := latchWord_stored h ..

theorem laneWord_stored {s : State} (h : s.stored = true) (hd : Hdr) (m : MaskMod) (d : Lat) (a b : LOp)
    (readD : Bool) (p : VFmt → Nat) (ok : VFmt → Bool) (rounds : Bool)
    (f : LaneCfg → Nat → Nat → Nat → Nat → Nat × Flags) :
    Out.stored (laneWord hd m d a b readD p ok rounds f s) = true :=
  laneWordOp h hd _ fun k _ ht => laneElem_stored ht m d a b readD p ok rounds f k

/-! ### `Machine/LaneFp` -/

theorem State.putMask_stored {s : State} (h : s.stored = true) (b : Nat) (d : Msk) (v : LaneMask) :
    (s.putMask b d v).stored = true := h

theorem laneCmp_stored {s : State} (h : s.stored = true) (m : MaskMod) (d : Msk) (a b : LOp) (ok : VFmt → Bool)
    (f : LaneCfg → Nat → Nat → Bool × Flags) (k : Nat) : (laneCmp m d a b ok f k s).stored = true := by
  unfold laneCmp
  dsimp only
  split
  · rfl
  · exact withFlags_stored h k _ fun _ ht => State.pushSeg_stored (State.putMask_stored ht k d _) k ..

theorem maskOp_stored {s : State} (h : s.stored = true) (d : Msk) (f : Hart → LaneMask) (k : Nat) :
    (maskOp d f k s).stored = true := by
  unfold maskOp
  dsimp only
  split
  · rfl
  · exact State.pushSeg_stored (State.putMask_stored h k d _) k ..

theorem maskCount_stored {s : State} (h : s.stored = true) (d : XReg) (f : Hart → Word) (k : Nat) :
    (maskCount d f k s).stored = true := by
  unfold maskCount
  split
  · rfl
  · exact State.pushSeg_stored (writeReg_stored h k ..) k ..

/-! ### `Machine/LaneConv` -/

theorem vselOn_stored {s : State} (h : s.stored = true) (m : MaskMod) (d : Lat) (a b : LOp) (k : Nat) :
    (vselOn m d a b k s).stored = true := latchWord_stored h ..

theorem vcvtOn_stored {s : State} (h : s.stored = true) (m : MaskMod) (sty : VFmt) (part : Nat) (d : Lat) (a : LatRef)
    (k : Nat) : (vcvtOn m sty part d a k s).stored = true := latchWord_stored h ..

theorem quantOn_stored {s : State} (h : s.stored = true) (lq : Bool) (x : Scaled) (d : Lat) (a : LatRef) (b : Lat)
    (k : Nat) : (quantOn lq x d a b k s).stored = true := by
  unfold quantOn
  dsimp only
  split
  · rfl
  · generalize List.foldl _ _ _ = q
    split
    · rfl
    · exact withFlags_stored h k _ fun _ ht => State.pushSeg_stored (State.putLatch_stored
        (State.putLatch_stored (State.stepSeed_stored ht k _) k d ..) k b ..) k ..

theorem dequantOn_stored {s : State} (h : s.stored = true) (lq : Bool) (x : Scaled) (d : Lat) (a : LatRef) (b : Lat)
    (k : Nat) : (dequantOn lq x d a b k s).stored = true := latchWord_stored h ..

/-! ### `Machine/LaneMove` -/

theorem vmovOn_stored {s : State} (h : s.stored = true) (m : MaskMod) (d : Lat) (a : LatRef) (k : Nat) :
    (vmovOn m d a k s).stored = true := latchWord_stored h ..

theorem vsplatOn_stored {s : State} (h : s.stored = true) (m : MaskMod) (d : Lat) (a : Src) (k : Nat) :
    (vsplatOn m d a k s).stored = true := latchWord_stored h ..

theorem vextOn_stored {s : State} (h : s.stored = true) (d : XReg) (a : LatRef) (b : Src) (k : Nat) :
    (vextOn d a b k s).stored = true := by
  unfold vextOn
  dsimp only
  split
  · rfl
  · split
    · rfl
    · split
      · rfl
      · exact State.pushSeg_stored (writeReg_stored h k ..) k ..

theorem vinsOn_stored {s : State} (h : s.stored = true) (d : Lat) (a b : Src) (k : Nat) :
    (vinsOn d a b k s).stored = true := by
  unfold vinsOn
  dsimp only
  split
  · rfl
  · split
    · rfl
    · exact latchWord_stored h ..

theorem vpermOn_stored {s : State} (h : s.stored = true) (m : MaskMod) (d : Lat) (a : LatRef) (b : Lat) (k : Nat) :
    (vpermOn m d a b k s).stored = true := latchWord_stored h ..

theorem vgathOn_stored {s : State} (h : s.stored = true) (m : MaskMod) (d a b : Lat) (k : Nat) :
    (vgathOn m d a b k s).stored = true := latchWord_stored h ..

theorem vslideOn_stored {s : State} (h : s.stored = true) (m : MaskMod) (d : Lat) (a : LatRef) (b : Src) (k : Nat) :
    (vslideOn m d a b k s).stored = true := latchWord_stored h ..

theorem vcompOn_stored {s : State} (h : s.stored = true) (m : MaskMod) (d : Lat) (a : LatRef) (k : Nat) :
    (vcompOn m d a k s).stored = true := latchWord_stored h ..

theorem vexpOn_stored {s : State} (h : s.stored = true) (m : MaskMod) (d : Lat) (a : LatRef) (k : Nat) :
    (vexpOn m d a k s).stored = true := latchWord_stored h ..

theorem viotaOn_stored {s : State} (h : s.stored = true) (rank : Bool) (m : MaskMod) (d : Lat) (b : Src) (k : Nat) :
    (viotaOn rank m d b k s).stored = true := latchWord_stored h ..

/-! ### `Machine/LaneRed` -/

theorem laneRed_stored {s : State} (h : s.stored = true) (m : MaskMod) (d : XReg) (a : LatRef) (b : Src)
    (ok : VFmt → Bool) (bits : Nat) (rounds : Bool) (f : LaneCfg → Word → List Nat → Nat × Flags) (k : Nat) :
    (laneRed m d a b ok bits rounds f k s).stored = true := by
  unfold laneRed
  dsimp only
  split
  · rfl
  · exact withFlags_stored h k _ fun _ ht => State.pushSeg_stored (State.stepSeed_stored (writeReg_stored ht k ..)
      k _) k ..

theorem vscanOn_stored {s : State} (h : s.stored = true) (m : MaskMod) (excl : Bool) (d : Lat) (a : LatRef)
    (b : Option Msk) (k : Nat) : (vscanOn m excl d a b k s).stored = true := by
  unfold vscanOn
  dsimp only
  split
  · rfl
  · exact withFlags_stored h k _ fun _ ht => State.pushSeg_stored
      (State.putLatch_stored (State.stepSeed_stored ht k _) k d ..) k ..

theorem vsortkOn_stored {s : State} (h : s.stored = true) (m : MaskMod) (desc : Bool) (d : Lat) (a : LatRef) (b : Lat)
    (k : Nat) : (vsortkOn m desc d a b k s).stored = true := by
  unfold vsortkOn
  dsimp only
  split
  · rfl
  · exact State.pushSeg_stored (State.putLatch_stored (State.putLatch_stored h k d ..) k b ..) k ..

theorem vuniqOn_stored {s : State} (h : s.stored = true) (m : MaskMod) (last : Bool) (d : Msk) (a : LatRef)
    (k : Nat) : (vuniqOn m last d a k s).stored = true := by
  unfold vuniqOn
  dsimp only
  split
  · rfl
  · exact State.pushSeg_stored (State.putMask_stored h k d _) k ..

theorem execVectorSegmentStart_stored {s : State} (h : s.stored = true) (core : Fin 2048) (bank : Fin 16) :
    Out.stored (execVectorSegmentStart core bank s) = true :=
  State.stored_with_dev h (Device.startSeg_stored (State.stored_dev h) ..)

end Sys2Proof.Machine
end

