-- ==== Sys2Proof/Proofs/StoredControl.lean ====
section
/-! PROOF. The canonical form along the moves of the gang, fetch, reductions and control transfer. -/

namespace Sys2Proof.Machine

/-! ### `Machine/Bus` -/

theorem State.busWrite_stored {s : State} (h : s.stored = true) (d a : Lat) (ranks : List Nat)
    (ws : List (Nat × LatchRec)) : (s.busWrite d a ranks ws).stored = true := by
  unfold busWrite
  split
  · exact h
  · extract_lets c q cv rd
    have hq : q.1.stored = true := Device.busAsk_stored (State.stored_dev h) ..
    refine foldl_state_stored (fun t w ht => State.modDev_stored ht ?_) ws (State.stored_with_dev h hq)
    exact Device.modBank_stored (Device.setLatch_stored (State.stored_dev ht) c w.1 d w.2) c w.1 _

theorem moveWord_stored {s : State} (h : s.stored = true) (d a : Lat) (b : Src) (uniform : Bool)
    (from_ : Nat → Nat → Word → Except Word Nat) (run : List Nat) :
    (moveWord d a b uniform from_ run s).stored = true := by
  unfold moveWord
  extract_lets size vs agree srcs t
  have ht : t.stored = true := foldl_state_stored (fun t p ht => by
    split
    · exact State.addFail_stored ht ..
    · split
      · exact ht
      · exact State.addFail_stored ht ..) srcs h
  by_cases hc : (uniform && !agree) = true
  · rw [if_pos hc]
    exact State.failAll_stored h _
  · rw [if_neg hc]
    exact State.busWrite_stored ht d a ..

theorem segWord_stored {s : State} (h : s.stored = true) (d a : Lat) (run : List Nat) :
    (segWord d a run s).stored = true := by
  unfold segWord
  dsimp only
  split
  · exact foldl_state_stored (fun _ k ht => State.addFail_stored ht k _) _ h
  · exact State.busWrite_stored h d a ..

theorem execBusSlotGrant_stored {s : State} (h : s.stored = true) (core : Fin 2048) :
    Out.stored (execBusSlotGrant core s) = true :=
  State.stored_with_dev h (Device.busGrant_stored (State.stored_dev h) ..)

/-! ### `Machine/Fetch` -/

theorem Device.fetchAt_stored {d : Device} (h : d.stored = true) (core : Nat) (ctx : BitVec 12) (a : Nat) :
    (d.fetchAt core ctx a).1.stored = true := by
  unfold Device.fetchAt
  split
  · exact Device.globalAt_stored h ..
  · exact h

theorem Device.fetchBytes_stored {d : Device} (h : d.stored = true) (core : Nat) (p : Place) (n : Nat) :
    (d.fetchBytes core p n).1.stored = true := by
  unfold Device.fetchBytes
  split
  · exact Device.cachedRead_stored h ..
  · exact h

theorem Device.fetchWord_stored {d : Device} (h : d.stored = true) (core : Nat) (ctx : BitVec 12) (a : Nat) :
    (d.fetchWord core ctx a).1.stored = true := by
  unfold Device.fetchWord
  grind [Device.stored_eq, Device.fetchAt_stored, Device.fetchBytes_stored]

theorem Device.fetchFrom_stored {d : Device} (h : d.stored = true) (core : Nat) (ctx : BitVec 12) (n : Nat)
    (a : Word) : (d.fetchFrom core ctx n a).1.stored = true := by
  induction n generalizing d a with
  | zero => exact h
  | succ n ih =>
    have hw := Device.fetchWord_stored h core ctx a.toNat
    unfold fetchFrom
    dsimp only
    split
    · exact hw
    · split
      · split
        · exact hw
        · exact ih hw _
      · exact hw

theorem Device.fetchConvoy_stored {d : Device} (h : d.stored = true) (core : Nat) (ctx : BitVec 12) (a : Word) :
    (d.fetchConvoy core ctx a).1.stored = true := Device.fetchFrom_stored h ..

theorem Device.targetCheck_stored {d : Device} (h : d.stored = true) (core : Nat) (ctx : BitVec 12) (a : Word) :
    (d.targetCheck core ctx a).1.stored = true := by
  unfold Device.targetCheck
  grind [Device.stored_eq, Device.fetchAt_stored, Device.fetchBytes_stored]

theorem Device.fetchBody_stored {d : Device} (h : d.stored = true) (core : Nat) (ctx : BitVec 12) (size n : Nat)
    (a : Word) : (d.fetchBody core ctx size n a).1.stored = true := by
  induction n generalizing d a with
  | zero => exact h
  | succ n ih =>
    have hc := Device.fetchConvoy_stored h core ctx a
    unfold fetchBody
    dsimp only
    split
    · exact hc
    · split
      · exact hc
      · exact hc
      · exact hc
      · exact ih hc _

theorem Device.makeRoom_stored {d : Device} (h : d.stored = true) (core need n : Nat) :
    (d.makeRoom core need n).stored = true := by
  induction n generalizing d with
  | zero => exact h
  | succ n ih =>
    unfold makeRoom
    dsimp only
    split
    · exact h
    · split
      · exact h
      · exact ih (Device.modCore_stored h core _)

/-! ### `Machine/Reduce` -/

theorem Device.wqFresh_stored {d : Device} (h : d.stored = true) (st : Stor) : (d.wqFresh st).stored = true := by
  unfold Device.wqFresh
  grind [Device.stored_eq, Device.arrWrite_stored, Device.wqClose_stored]

theorem Device.wqEnter_stored {d : Device} (h : d.stored = true) (st : Stor) (red : Option (AOp × RedElt))
    (rank : Nat) : (d.wqEnter st red rank).stored = true := by
  unfold Device.wqEnter
  split
  · exact Device.wqFresh_stored h ..
  · exact h

theorem Device.atomicAt_stored {d : Device} (h : d.stored = true) (st : Stor) (n : Nat) (f : Nat → Nat) :
    (d.atomicAt st n f).1.stored = true := by
  unfold Device.atomicAt
  grind [Device.stored_eq, Device.arrWrite_stored, Device.colRead_stored, Device.colWrite_stored,
    Device.dropLine_stored, Device.wqFresh_stored]

theorem Device.redOne_stored {d : Device} (h : d.stored = true) (op : AOp) (e : RedElt) (p : Nat × Nat) :
    (Device.redOne op e d p).stored = true := by
  unfold Device.redOne
  grind [Device.stored_eq, Device.atomicAt_stored]

theorem Device.ownWrite_stored {d : Device} (h : d.stored = true) (rk bank : Nat) (st : Stor) :
    (d.ownWrite rk bank st).stored = true := by
  unfold Device.ownWrite
  grind [Device.stored_eq, Device.releaseFor_stored]

theorem resCountDown_memOk {r : Residence} (h : r.memOk = true) (k : Nat) : (Device.resCountDown r k).memOk = true := by
  unfold Device.resCountDown
  grind [Residence.memOk_iff, Memory.wf_write]

theorem Device.redCounted_stored {d : Device} (h : d.stored = true) (rk bank : Nat) :
    (d.redCounted rk bank).stored = true := by
  unfold redCounted
  split
  · exact h
  · next r e =>
    refine Device.modHart_stored ?_ rk bank _
    split
    · exact Device.setRes_stored h rk (resCountDown_memOk (Device.res_memOk h e) bank)
    · exact h

theorem Device.redAccept_stored {d : Device} (h : d.stored = true) (q : RedReq) : (d.redAccept q).stored = true := by
  unfold redAccept
  dsimp only
  split
  · exact Device.redCounted_stored (Device.setLost_stored h) ..
  · refine Device.redCounted_stored (foldl_stored (fun d p hd => ?_) _
      (Device.wqEnter_stored (Device.ownWrite_stored h ..) ..)) ..
    split
    · exact Device.atomicAt_stored hd ..
    · exact redOne_stored hd _ _ p

theorem Device.wqSpace_stored {d : Device} (h : d.stored = true) (st : Stor) : (d.wqSpace st).stored = true := by
  unfold Device.wqSpace
  split <;> exact h

theorem Device.redCome_stored {d : Device} (h : d.stored = true) (k : Nat) : (d.redCome k).stored = true := by
  unfold Device.redCome
  grind [Device.stored_eq, Device.advanceTo_stored]

theorem Device.drainSome_stored {d : Device} (h : d.stored = true) (rk bank most n : Nat) :
    (d.drainSome rk bank most n).stored = true := by
  induction n generalizing d with
  | zero => exact h
  | succ n ih =>
    unfold drainSome
    split
    · exact h
    · split
      · exact h
      · next k _ =>
        extract_lets e
        have he : e.stored = true := Device.redCome_stored h k
        split
        · exact he
        · next i q _ =>
          have dropped : { e with portQ := dropIdx i e.portQ }.stored = true := he
          exact ih (Device.redAccept_stored (Device.wqSpace_stored dropped _) q)

theorem Device.drainReds_stored {d : Device} (h : d.stored = true) (rk bank most : Nat) :
    (d.drainReds rk bank most).stored = true := Device.drainSome_stored h ..

/-! ### `Machine/Control` -/

theorem State.jumpOf_stored {s : State} (h : s.stored = true) (run : List Nat) (a : Word) :
    (s.jumpOf run a).stored = true := by
  have ht : { s with dev := (s.dev.targetCheck s.iss.core s.ctx a).1 }.stored = true :=
    State.stored_with_dev h (Device.targetCheck_stored (State.stored_dev h) ..)
  unfold jumpOf
  dsimp only
  split
  · exact State.goto_stored ht a
  · exact foldl_state_stored (fun _ b hs => State.addFail_stored hs b _) _ ht

theorem State.jump_stored {s : State} (h : s.stored = true) (a : Word) : (s.jump a).stored = true :=
  State.jumpOf_stored h ..

theorem State.disagree_stored {s : State} (h : s.stored = true) : s.disagree.stored = true :=
  State.failAll_stored h ..

theorem State.transfer_stored {s : State} (h : s.stored = true) (takers : List (Nat × Word)) :
    (s.transfer takers).stored = true := by
  unfold State.transfer
  grind [State.stored_iff, State.disagree_stored, State.jump_stored]

theorem transferWord_stored {s : State} (h : s.stored = true) (hd : Hdr) (u : Uses)
    (target : State → Nat → Option Word) {write : Nat → State → State}
    (hw : ∀ k t, t.stored = true → (write k t).stored = true) :
    Out.stored (transferWord hd u target write s) = true :=
  wordOp_stored h hd u fun _ _ ht => foldl_state_stored (fun _ b hs => hw b _ hs) _ (State.transfer_stored ht _)

theorem putLink_stored {s : State} (h : s.stored = true) (l : XReg) (b : Nat) : (putLink l b s).stored = true := h

theorem State.follow_stored {s : State} (h : s.stored = true) (run : List Nat) (c : Course) :
    (s.follow run c).stored = true := by
  unfold State.follow
  grind [State.stored_iff, Device.modGang_stored, State.goto_stored, State.jumpOf_stored, State.modGang_stored]

theorem Device.stored_of_capture {d e : Device} (h : d.stored = true) {core rk : Nat} {ctx : BitVec 12} {size : Nat}
    {body : Word} {n : Nat} (he : d.capture core rk ctx size body n = .ok e) : e.stored = true := by
  unfold capture at he
  split at he
  · cases he; exact h
  · dsimp only at he
    split at he
    · cases he
    · split at he
      · cases he
      · cases he
        exact Device.modCore_stored (Device.makeRoom_stored (Device.fetchBody_stored h core ctx size n body) core n _)
          core _

theorem State.ensureCapture_stored {s : State} (h : s.stored = true) (run : List Nat) (body : Word) (n : Nat) :
    (s.ensureCapture run body n).stored = true := by
  unfold ensureCapture
  split
  · next d e => exact State.stored_with_dev h (Device.stored_of_capture (State.stored_dev h) e)
  · exact foldl_state_stored (fun _ b hs => State.addFail_stored hs b _) _ h
  · exact State.holdOn_stored h _

theorem Device.lostTraps_stored {d : Device} (h : d.stored = true) (rk b : Nat) : (d.lostTraps rk b).stored = true := by
  unfold Device.lostTraps
  split
  · exact Device.killBy_stored h ..
  · exact h

theorem State.windUp_stored {s : State} (h : s.stored = true) (run : List Nat) : (s.windUp run).stored = true :=
  State.settleQueue_stored (foldl_state_stored (fun _ b hs =>
    State.settleRows_stored (State.modDev_stored hs (Device.drainReds_stored (State.stored_dev hs) _ b 0)) b) run h)

theorem State.endHart_stored {s : State} (h : s.stored = true) (b : Nat) : (s.endHart b).stored = true := by
  refine State.modDev_stored h (Device.setHart_stored (Device.lostTraps_stored (foldl_stored (fun d e hd => ?_) _
    (Device.modBank_stored (Device.closeBank_stored (State.stored_dev h) _ b) _ b _)) _ b) _ b _)
  split
  · exact Device.modRes_stored hd _ _ fun r hr => Residence.exitBar_memOk hr b _
  · exact hd

theorem State.endHarts_stored {s : State} (h : s.stored = true) (run : List Nat) : (s.endHarts run).stored = true := by
  unfold endHarts
  extract_lets e s₁ s₂
  have h₂ : s₂.stored = true := State.modGang_stored (foldl_state_stored (fun _ b hs => State.endHart_stored hs b) run
    h) _
  exact State.modDev_stored h₂ (foldl_stored (fun _ b hd => Device.modHart_stored hd _ b _) _ (State.stored_dev h₂))

theorem State.leave_stored {s : State} (h : s.stored = true) (run : List Nat) : (s.leave run).stored = true := by
  unfold leave
  split
  · exact h
  · split
    · exact State.follow_stored h run _
    · exact State.modGang_stored h _

theorem execPfx_stored {s : State} (h : s.stored = true) (imm : Word) : Out.stored (execPfx imm s) = true := by
  unfold execPfx
  cases s.dev.gang? s.rk s.iss.base with
  | none => rfl
  | some g => exact State.begin_stored h g

theorem gangOp {s : State} (h : s.stored = true) (hd : Hdr) (u : Uses) {body : List Nat → State → State}
    (hb : ∀ l t, t.stored = true → (body l t).stored = true) : Out.stored (wordOp hd u (wholeGang body) s) = true :=
  wordOp_stored h hd u fun l _ ht => wholeGang_stored hb l ht

theorem execBrd_stored {s : State} (h : s.stored = true) (hd : Hdr) (target joinAt : BitVec 18) :
    Out.stored (execBrd hd target joinAt s) = true :=
  gangOp h hd _ fun run t ht => by
    extract_lets a b act tk u
    have hu : u.stored = true := State.jumpOf_stored ht run b
    split
    · exact ht
    · split
      · exact State.modGang_stored hu _
      · exact hu

theorem execJoin_stored {s : State} (h : s.stored = true) (hd : Hdr) : Out.stored (execJoin hd s) = true :=
  wordOp_stored h hd _ fun _ _ ht => State.follow_stored ht ..

theorem execCapt_stored {s : State} (h : s.stored = true) (hd : Hdr) (n1 : BitVec 6) (body : BitVec 18) :
    Out.stored (execCapt hd n1 body s) = true :=
  gangOp h hd _ fun run t ht => by
    split
    · exact ht
    · exact State.ensureCapture_stored ht ..

theorem execReplay_stored {s : State} (h : s.stored = true) (hd : Hdr) (n1 : BitVec 6) (body : BitVec 18)
    (stride : Src) : Out.stored (execReplay hd n1 body stride s) = true :=
  gangOp h hd _ fun run t ht => by
    extract_lets a b n c t₁ t₂ at_
    have h₁ : t₁.stored = true := State.stored_with_dev ht (Device.targetCheck_stored (State.stored_dev ht) ..)
    have h₂ : t₂.stored = true := State.ensureCapture_stored h₁ ..
    clear_value t₂
    cases c.2 with
    | some f => exact State.failAll_stored h₁ f
    | none =>
      dsimp only
      split
      · exact h₂
      · cases run with
        | nil => exact h₂
        | cons k l =>
          dsimp only
          split
          · exact State.failAll_stored h₂ _
          · cases at_ k with
            | none => exact foldl_state_stored (fun _ q hs => State.modHart_stored hs q _) _ h₂
            | some p =>
              have set := foldl_state_stored (fun s q hs => State.modHart_stored hs q
                fun t => { t with ei := eiAt p }) (k :: l) h₂
              dsimp only
              generalize List.foldl _ t₂ (k :: l) = u at set ⊢
              exact State.goto_stored (State.modGang_stored (State.modDev_stored set
                (Device.modCore_stored (State.stored_dev set) ..)) _) a

theorem execExit_stored {s : State} (h : s.stored = true) (hd : Hdr) : Out.stored (execExit hd s) = true :=
  gangOp h hd _ fun run t ht => by
    extract_lets u
    have hu : u.stored = true := State.windUp_stored ht run
    split
    · exact ht
    · cases run.find? t.unfinished with
      | some b => exact State.holdOn_stored ht _
      | none =>
        cases run.find? fun b => !(u.dev.bank u.iss.core b).rowQ.isEmpty with
        | some b => exact State.holdOn_stored hu _
        | none => exact State.leave_stored (State.endHarts_stored hu run) run

theorem execYield_stored {s : State} (h : s.stored = true) (hd : Hdr) : Out.stored (execYield hd s) = true :=
  gangOp h hd _ fun run t ht => by
    dsimp only
    split
    · exact ht
    · exact State.modGang_stored ht _

theorem execGmask_stored {s : State} (h : s.stored = true) (hd : Hdr) (d : GmaskDst) (a : PReg) :
    Out.stored (execGmask hd d a s) = true :=
  wordOp_stored h hd _ fun run _ ht =>
    perHart_stored (body := fun k t => .ok (writeReg k _ _ (some 2) t)) (fun k _ hu => writeReg_stored hu k ..) run ht

end Sys2Proof.Machine
end

