-- ==== Sys2Proof/Proofs/StoredMatrix.lean ====
section
/-! PROOF. The canonical form along the words and events of the matrix unit. -/

namespace Sys2Proof.Machine

/-! ### `Machine/Store` -/

theorem State.stored_with_iss {s : State} (h : s.stored = true) (i : Issue) (hu : i.undo = s.iss.undo) :
    ({ s with iss := i } : State).stored = true :=
  (State.stored_iff _).mpr ⟨((State.stored_iff s).mp h).1, fun d e => ((State.stored_iff s).mp h).2 d (hu ▸ e)⟩

theorem Residence.setTag_memOk {r : Residence} (h : r.memOk = true) (off : Nat) (v : Bool) :
    (r.setTag off v).memOk = true := h

/-! ### `Machine/Matrix` -/

theorem Device.complete_stored {d : Device} (h : d.stored = true) (rk : Nat) (c : Comp) :
    (d.complete rk c).stored = true := by
  unfold complete
  split
  · exact h
  · exact Device.modRes_stored h rk _ fun r hr => Residence.setTag_memOk (Residence.write_memOk hr _ 8 ..) _ true
  · exact Device.modRes_stored h rk _ fun r hr => Residence.engineArrive_memOk hr ..

theorem Device.xferLine_stored {c : Nat} {x : AccXfer} {t : Device × Memory × List Nat} (h : t.1.stored = true)
    (k : Nat) : (Device.xferLine c x t k).1.stored = true := by
  unfold Device.xferLine
  split
  · exact Device.colRead_stored h _ 64
  · exact h
  · exact h

theorem Device.xferLines {c : Nat} {x : AccXfer} (l : List Nat) {t : Device × Memory × List Nat}
    (h : t.1.stored = true) : (l.foldl (Device.xferLine c x) t).1.stored = true := by
  induction l generalizing t with
  | nil => exact h
  | cons k l ih => exact ih (Device.xferLine_stored h k)

theorem Device.xferEnd_stored {d : Device} (h : d.stored = true) (c : Nat) (x : AccXfer) :
    (d.xferEnd c x).stored = true := by
  refine Device.sendAts_stored (Device.modCore_stored (Device.complete_stored ?_ ..) c _)
  split
  · exact Device.modSlot_stored (Device.xferLines (t := (d, [], [])) _ h) c ..
  · refine foldl_stored (fun d k hd => ?_) _ h
    split
    · exact Device.colWrite_stored hd ..
    · exact Device.withHost_stored hd (Memory.wf_write _ _ 64 _ (Device.host_wf hd))
    · exact hd

theorem gangWord_stored {s : State} (h : s.stored = true) (vals : State → Nat → List Nat)
    {body : Nat → List Nat → State → State} (hb : ∀ k l t, t.stored = true → (body k l t).stored = true)
    (run : List Nat) : (gangWord vals body run s).stored = true :=
  wholeGang_stored (fun l t ht => by
    cases l with
    | nil => exact ht
    | cons k l =>
      dsimp only
      split
      · exact State.failAll_stored ht _
      · exact hb k _ t ht) run h

theorem agreedOp {s : State} (h : s.stored = true) (hd : Hdr) (u : Uses) (vals : State → Nat → List Nat)
    {body : Nat → List Nat → State → State} (hb : ∀ k l t, t.stored = true → (body k l t).stored = true) :
    Out.stored (wordOp hd u (gangWord vals body) s) = true :=
  wordOp_stored h hd u fun l _ ht => gangWord_stored ht vals hb l

theorem State.afterLoad_stored {s : State} (h : s.stored = true) (k : Fin 6) {f : State → State}
    (hf : ∀ t, t.stored = true → (f t).stored = true) : (s.afterLoad k f).stored = true := by
  unfold State.afterLoad
  extract_lets c loading queued t
  have ht : t.stored = true := by
    unfold t
    split
    · exact State.settleQueue_stored h
    · exact h
  split
  · exact State.holdOn_stored h _
  · exact hf _ (State.modDev_stored ht (foldl_stored (fun _ x hd => Device.xferEnd_stored hd c x) _
      (State.stored_dev ht)))

theorem State.enqueue_stored {s : State} (h : s.stored = true) (i : Instr) (op : MxOp) :
    (s.enqueue i op).stored = true := by
  unfold State.enqueue
  grind [State.stored_iff, Device.modCore_stored, State.holdOn_stored, State.modDev_stored]

theorem State.spend_stored {s : State} (h : s.stored = true) (n : Nat) : (s.spend n).stored = true :=
  State.stored_with_dev h (Device.spend_stored (State.stored_dev h) ..)

theorem tloadOn_stored {s : State} (h : s.stored = true) (i : Instr) (bf : BFmt) (half : Bool) (tile : GLat)
    (scale : Option GLat) (k : Nat) : (tloadOn i bf half tile scale k s).stored = true := by
  unfold tloadOn
  extract_lets rank bad uses
  cases s.mxCheck k bad uses with
  | some f => exact State.failAll_stored h f
  | none => exact State.enqueue_stored (State.spend_stored (State.modGang_stored h _) 64) i _

theorem tmmaOn_stored {s : State} (h : s.stored = true) (i : Instr) (af : AFmt) (half : Bool) (kq : BitVec 2)
    (z : Bool) (aseg : BitVec 3) (d : Sys2Proof.Acc) (a : GLat) (scale : Option GLat) (k : Nat) :
    (tmmaOn i af half kq z aseg d a scale k s).stored = true := by
  unfold tmmaOn
  split
  · exact State.failAll_stored h _
  · refine State.afterLoad_stored h _ fun t ht => ?_
    extract_lets x r bf m n ke bad
    cases t.mxCheck k bad (if bad then [] else tmmaUses af kq.toNat aseg.toNat a scale r m ke n) with
    | some f => exact State.failAll_stored ht f
    | none =>
      refine State.enqueue_stored ?_ i _
      exact State.stored_with_iss ht _ rfl

theorem acczOn_stored {s : State} (h : s.stored = true) (i : Instr) (edge : Bool) (a : Sys2Proof.Acc) (k : Nat) :
    (acczOn i edge a k s).stored = true := by
  unfold acczOn
  split
  · exact State.failAll_stored h _
  · refine State.afterLoad_stored h _ fun t ht => ?_
    split
    · exact State.failAll_stored ht _
    · exact State.enqueue_stored (State.spend_stored ht 16) i _

theorem accrdPart_stored {s : State} (h : s.stored = true) (fmt : AccFmt) (d : Lat) (slot : Fin 6) (row : Src)
    (k : Nat) : (accrdPart fmt d slot row k s).1.stored = true := by
  unfold accrdPart
  extract_lets t _ c x r l v
  split
  · exact h
  · split
    · exact State.addFail_stored h k _
    · split
      · exact State.addFail_stored h k _
      · have hf := withFlags_stored h k v.2 (k := fun s => s.stepSeed k (!c.fmt.isInt))
          fun _ ht => State.stepSeed_stored ht k _
        generalize withFlags k v.2 s (fun s => s.stepSeed k (!c.fmt.isInt)) = w at hf ⊢
        cases w with
        | ok t => exact hf
        | fail f => exact State.addFail_stored h k f
        | hold w => exact State.holdOn_stored h w

theorem partsOf_stored {α : Type} {f : Nat → State → State × Option α}
    (hf : ∀ k t, t.stored = true → (f k t).1.stored = true) (l : List Nat) {s : State} (h : s.stored = true) :
    (partsOf f l s).1.stored = true := by
  induction l generalizing s with
  | nil => exact h
  | cons k l ih => exact ih (hf k s h)

theorem accrdOn_stored {s : State} (h : s.stored = true) (i : Instr) (fmt : AccFmt) (d : Lat) (a : Sys2Proof.Acc)
    (row : Src) (run : List Nat) : (accrdOn i fmt d a row run s).stored = true := by
  unfold accrdOn
  split
  · exact h
  · split
    · exact foldl_state_stored (fun _ k hs => State.addFail_stored hs k _) run h
    · next slot _ =>
      refine State.afterLoad_stored h slot fun t ht => ?_
      have parts := partsOf_stored (f := accrdPart fmt d slot row) (fun k _ hu => accrdPart_stored hu fmt d slot row
        k) run ht
      dsimp only
      split
      · exact parts
      · exact State.enqueue_stored (State.spend_stored parts _) i _

theorem accwrPart_stored {s : State} (h : s.stored = true) (fmt : AccFmt) (a : Lat) (slot : Fin 6) (row : Src)
    (k : Nat) : (accwrPart fmt a slot row k s).1.stored = true := by
  unfold accwrPart
  extract_lets r l bad
  split
  · exact h
  · cases s.mxCheck k bad [{ ref := gref l, fmt := accVfmt fmt, read := List.range 128 }] with
    | some f => exact State.addFail_stored h k f
    | none => exact h

theorem accwrOn_stored {s : State} (h : s.stored = true) (i : Instr) (fmt : AccFmt) (d : Sys2Proof.Acc) (a : Lat)
    (row : Src) (run : List Nat) : (accwrOn i fmt d a row run s).stored = true := by
  unfold accwrOn
  split
  · exact h
  · split
    · exact foldl_state_stored (fun _ k hs => State.addFail_stored hs k _) run h
    · next slot _ =>
      refine State.afterLoad_stored h slot fun t ht => ?_
      have parts := partsOf_stored (f := accwrPart fmt a slot row) (fun k _ hu => accwrPart_stored hu fmt a slot row
        k) run ht
      dsimp only
      split
      · exact parts
      · exact State.enqueue_stored (State.spend_stored parts _) i _

theorem accclmOn_stored {s : State} (h : s.stored = true) (i : Instr) (int : Bool) (d : PReg) (a : Sys2Proof.Acc)
    (k : Nat) (run : List Nat) : (accclmOn i int d a k run s).stored = true := by
  unfold accclmOn
  split
  · refine State.afterLoad_stored h _ fun t ht => ?_
    split
    · exact State.enqueue_stored ht i _
    · exact State.failAll_stored ht _
  · split
    · exact State.enqueue_stored h i _
    · exact State.enqueue_stored h i _

theorem accrelOn_stored {s : State} (h : s.stored = true) (i : Instr) (a : Sys2Proof.Acc) (k : Nat) (run : List Nat) :
    (accrelOn i a k run s).stored = true := State.enqueue_stored h i _

theorem xferPages_stored {d : Device} (h : d.stored = true) (acc : Acc) (core rk : Nat) (as : List Nat)
    (l : List AtcEntry) : (xferPages acc core rk as d l).1.stored = true := by
  induction as generalizing d l with
  | nil => exact h
  | cons a as ih =>
    unfold xferPages
    split
    · exact h
    · next r _ =>
      have hx := Device.checkAt_stored h core r { scratch := false } acc a
      dsimp only
      split
      · exact ih hx _
      · exact hx

theorem accmoveOn_stored {s : State} (h : s.stored = true) (i : Instr) (load : Bool) (comp : CompSpec) (addr : XReg)
    (a : Sys2Proof.Acc) (k : Nat) (run : List Nat) : (accmoveOn i load comp addr a k run s).stored = true := by
  unfold accmoveOn
  extract_lets va p t
  have ht : t.stored = true := State.stored_with_dev h (xferPages_stored (State.stored_dev h) ..)
  split
  · split
    · exact State.failAll_stored h _
    · split
      · exact State.failAll_stored ht _
      · exact State.holdOn_stored ht _
      · exact ht
      · split
        · exact State.failAll_stored ht _
        · exact State.enqueue_stored (State.spend_stored ht 64) i _
  · exact State.failAll_stored h _

theorem putStat_stored {s : State} (h : s.stored = true) (d : XReg) (v : Nat) (run : List Nat) :
    (putStat d v run s).stored = true := foldl_state_stored (fun _ k hs => writeReg_stored hs k ..) run h

theorem tstatOn_stored {s : State} (h : s.stored = true) (i : Instr) (sel : TstatSel) (d : XReg) (k : Nat)
    (run : List Nat) : (tstatOn i sel d k run s).stored = true := by
  unfold tstatOn
  split
  · exact State.enqueue_stored h i _
  · exact State.enqueue_stored h i _
  · exact State.enqueue_stored h i _
  · split
    · exact State.enqueue_stored h i _
    · exact State.failAll_stored h _

theorem execMatrixOpStart_stored {s : State} (h : s.stored = true) (core : Fin 2048) (k : Fin 16) :
    Out.stored (execMatrixOpStart core k s) = true :=
  State.modDev_stored h (by
    split
    · exact Device.mxStart_stored (State.stored_dev h) ..
    · exact State.stored_dev h)

theorem execMatrixOpComplete_stored {s : State} (h : s.stored = true) (core : Fin 2048) (k : Fin 16) :
    Out.stored (execMatrixOpComplete core k s) = true :=
  State.modDev_stored h (by
    split
    · split
      · exact Device.mxPerform_stored (Device.modCore_stored (State.stored_dev h) ..) ..
      · exact State.stored_dev h
    · exact State.stored_dev h)

theorem execAccTransferComplete_stored {s : State} (h : s.stored = true) (core : Fin 2048) (k : Nat) :
    Out.stored (execAccTransferComplete core k s) = true :=
  State.modDev_stored h (by
    split
    · split
      · exact Device.xferEnd_stored (State.stored_dev h) ..
      · exact State.stored_dev h
    · exact State.stored_dev h)

end Sys2Proof.Machine
end

