-- ==== Sys2Proof/Proofs/StoredPool.lean ====
section
/-! PROOF. The canonical form along the pool: waits, tags and the words on a scratchpad. -/

namespace Sys2Proof.Machine

/-! ### `Machine/Pool` -/

theorem State.afterReds_stored {s : State} (h : s.stored = true) (k : Nat) {go : State → HRes}
    (hg : ∀ t, t.stored = true → (go t).stored = true) : (s.afterReds k go).stored = true := by
  unfold State.afterReds
  split
  · rfl
  · exact hg _ (State.modDev_stored h (Device.drainReds_stored (State.stored_dev h) _ k 0))

theorem State.access_stored {s : State} (h : s.stored = true) (k : Nat) (ad : Admits) (acc : Acc) (aligned : Bool)
    (va : Nat) {go : State → Place → HRes} (hg : ∀ p t, t.stored = true → (go t p).stored = true) :
    (s.access k ad acc aligned va go).stored = true := by
  unfold State.access
  split
  · rfl
  · cases s.res? with
    | none => exact h
    | some r =>
      have hx := State.stored_with_dev h (Device.checkAt_stored (State.stored_dev h) s.iss.core r ad acc va)
      dsimp only
      generalize s.dev.checkAt s.iss.core r ad acc va = x at hx ⊢
      cases x.2 with
      | fail f => rfl
      | wait w => rfl
      | ok p =>
        dsimp only
        split
        · exact State.afterReds_stored hx k fun _ hu => hg p _ hu
        · exact hg p _ hx

theorem State.readBytes_stored {s : State} (h : s.stored = true) (p : Place) (va n : Nat) {go : State → Nat → HRes}
    (hg : ∀ v t, t.stored = true → (go t v).stored = true) (na : Bool) : (s.readBytes p va n go na).stored = true := by
  unfold State.readBytes
  extract_lets r
  split
  · rfl
  · exact hg _ _ (State.stored_with_dev h (Device.readAt_stored (State.stored_dev h) ..))

theorem State.writeBytes_stored {s : State} (h : s.stored = true) (p : Place) (n v : Nat) (na : Bool) :
    (s.writeBytes p n v na).stored = true := State.stored_with_dev h (Device.writeAt_stored (State.stored_dev h) ..)

theorem ldOn_stored {s : State} (h : s.stored = true) (ty : LdTy) (na : Bool) (d base : XReg) (disp : Src) (k : Nat) :
    (ldOn ty na d base disp k s).stored = true := by
  refine State.access_stored h _ _ _ _ _ fun p t ht => ?_
  refine State.readBytes_stored ht p _ _ (fun _ u hu => ?_) na
  exact writeReg_stored hu k ..

theorem stOn_stored {s : State} (h : s.stored = true) (sz : StSz) (na : Bool) (reg base : XReg) (disp : Src)
    (k : Nat) : (stOn sz na reg base disp k s).stored = true :=
  State.access_stored h _ _ _ _ _ fun p _ ht => State.writeBytes_stored ht p _ _ na

theorem ldvOn_stored {s : State} (h : s.stored = true) (n1 : BitVec 3) (d base : XReg) (disp : Src) (k : Nat) :
    (ldvOn n1 d base disp k s).stored = true := by
  refine State.access_stored h _ _ _ _ _ fun p t ht => ?_
  refine State.readBytes_stored ht p _ _ (fun v u hu => ?_) _
  exact foldl_state_stored (fun _ _ hv => writeReg_stored hv k ..) _ hu

theorem stvOn_stored {s : State} (h : s.stored = true) (n1 : BitVec 3) (reg base : XReg) (disp : Src) (k : Nat) :
    (stvOn n1 reg base disp k s).stored = true :=
  State.access_stored h _ _ _ _ _ fun p _ ht => State.writeBytes_stored ht p ..

theorem State.putTag_stored {s : State} (h : s.stored = true) (off : Nat) (v : Bool) :
    (s.putTag off v).stored = true :=
  State.stored_with_iss (State.modDev_stored h (Device.modRes_stored (State.stored_dev h) _ _ fun _ hr =>
    Residence.setTag_memOk hr off v)) _ rfl

theorem tagCheck_stored {s : State} (h : s.stored = true) (base : XReg) (disp : Src) (reads : Bool) (align k : Nat) :
    (tagCheck base disp reads align k s).stored = true := by
  refine State.access_stored h _ _ _ _ _ fun p t ht => ?_
  split
  · refine State.readBytes_stored ht p _ _ (fun _ u hu => ?_) _
    exact hu
  · exact ht

theorem waitWord_stored {s : State} (h : s.stored = true) {check : Nat → State → HRes}
    (conds : State → List Nat → List WaitCond) {act : Nat → State → HRes}
    (hc : ∀ k t, t.stored = true → (check k t).stored = true) (ha : ∀ k t, t.stored = true → (act k t).stored = true)
    (run : List Nat) : (waitWord check conds act run s).stored = true := by
  unfold waitWord
  extract_lets t
  have ht : t.stored = true := perHart_stored hc run h
  split
  · exact ht
  · cases t.rollback.res? t.rk with
    | none => exact ht
    | some r =>
      dsimp only
      split
      · exact perHart_stored ha _ (State.stored_with_iss ht _ rfl)
      · exact State.holdOn_stored ht _

theorem waitOp {s : State} (h : s.stored = true) (hd : Hdr) (u : Uses) {check : Nat → State → HRes}
    (conds : State → List Nat → List WaitCond) {act : Nat → State → HRes}
    (hc : ∀ k t, t.stored = true → (check k t).stored = true)
    (ha : ∀ k t, t.stored = true → (act k t).stored = true) :
    Out.stored (wordOp hd u (waitWord check conds act) s) = true :=
  wordOp_stored h hd u fun l _ ht => waitWord_stored ht conds hc ha l

theorem tagWord_stored {s : State} (h : s.stored = true) (want writes reads : Bool) (base : XReg) (disp : Src)
    {act : Nat → State → HRes} (ha : ∀ k t, t.stored = true → (act k t).stored = true) (run : List Nat) :
    (tagWord want writes reads base disp act run s).stored = true :=
  waitWord_stored h _ (fun k _ ht => tagCheck_stored ht base disp reads 8 k) ha run

theorem tagLoad_stored {s : State} (h : s.stored = true) (empties : Bool) (d base : XReg) (disp : Src) (k : Nat) :
    (tagLoad empties d base disp k s).stored = true := by
  unfold tagLoad
  refine State.readBytes_stored h _ _ _ (fun v t ht => ?_) _
  have hw := writeReg_stored ht k (.x d) (BitVec.ofNat 64 v) none
  cases empties with
  | true => exact State.putTag_stored hw ..
  | false => exact hw

theorem tagStore_stored {s : State} (h : s.stored = true) (reg base : XReg) (disp : Src) (k : Nat) :
    (tagStore reg base disp k s).stored = true := by
  unfold tagStore
  refine State.afterReds_stored h k fun t ht => ?_
  exact State.putTag_stored (State.writeBytes_stored ht ..) ..

theorem tagNow_stored {s : State} (h : s.stored = true) (base : XReg) (disp : Src) (align : Nat)
    {act : Nat → State → HRes} (ha : ∀ k t, t.stored = true → (act k t).stored = true) (k : Nat) :
    (tagNow base disp align act k s).stored = true := by
  have hc := tagCheck_stored h base disp false align k
  unfold tagNow
  generalize tagCheck base disp false align k s = r at hc ⊢
  cases r with
  | ok t => exact ha k t hc
  | fail f => rfl
  | hold w => rfl

theorem tagwOn_stored {s : State} (h : s.stored = true) (blk : Bool) (reg base : XReg) (disp : Src) (k : Nat) :
    (tagwOn blk reg base disp k s).stored = true :=
  foldl_state_stored (fun _ _ ht => State.putTag_stored ht ..) (blkWords blk) h

theorem Device.retryGang_stored {d : Device} (h : d.stored = true) (rk base : Nat) :
    (d.retryGang rk base).stored = true := Device.modGang_stored h ..

theorem Device.wakePool_stored {d : Device} (h : d.stored = true) (c b : Nat) (kind : PoolCond → Bool) :
    (d.wakePool c b kind).stored = true := by
  unfold Device.wakePool
  cases d.poolWait c b with
  | none => exact h
  | some p =>
    dsimp only
    split
    · exact h
    · split
      · split
        · exact h
        · exact Device.retryGang_stored h ..
      · exact Device.showWaits_stored h ..

theorem execTagWaitRetry_stored {s : State} (h : s.stored = true) (core : Fin 2048) (bank : Fin 16) :
    Out.stored (execTagWaitRetry core bank s) = true :=
  State.modDev_stored h (Device.wakePool_stored (State.stored_dev h) ..)

theorem execTagWaitTimeout_stored {s : State} (h : s.stored = true) (core : Fin 2048) (bank : Fin 16) :
    Out.stored (execTagWaitTimeout core bank s) = true := by
  have hd := State.stored_dev h
  refine State.modDev_stored h ?_
  cases s.dev.poolWait core bank with
  | none => exact hd
  | some p =>
    dsimp only
    split
    · exact hd
    · cases s.dev.gang? p.1 p.2.1 with
      | none => exact hd
      | some g => exact Device.takeFails_stored hd ..

theorem Device.prefetch_stored {d : Device} (h : d.stored = true) (core : Nat) (st : Stor) :
    (d.prefetch core st).stored = true := by
  cases st with
  | dram key =>
    unfold prefetch
    dsimp only
    split
    · exact h
    · exact Device.cachedRead_stored h core _ 1 _
  | _ => exact h

theorem Device.cleanAll_stored {d : Device} (h : d.stored = true) (core : Nat) (inv : Bool) (l : List Nat) :
    (d.cleanAll core inv l).stored = true := foldl_stored (fun _ n hd => Device.cleanLine_stored hd core inv n) l h

theorem prefOn_stored {s : State} (h : s.stored = true) (ex : Bool) (base : XReg) (disp : Src) (k : Nat) :
    (prefOn ex base disp k s).stored = true := by
  unfold prefOn
  extract_lets va x
  have hx : x.1.stored = true := Device.globalAt_stored (State.stored_dev h) ..
  split
  · exact h
  · refine State.stored_with_dev h ?_
    split
    · exact Device.prefetch_stored hx ..
    · exact hx

theorem cleanOn_stored {s : State} (h : s.stored = true) (inv : Bool) (r : CRange) (k : Nat) :
    (cleanOn inv r k s).stored = true :=
  State.afterReds_stored h k fun t ht => by
    dsimp only
    split
    · rfl
    · exact State.modDev_stored ht (Device.cleanAll_stored (State.stored_dev ht) ..)

theorem execCacheLineEvict_stored {s : State} (h : s.stored = true) (core : Fin 2048) (pa : BitVec 60) :
    Out.stored (execCacheLineEvict core pa s) = true := by
  have hd := State.stored_dev h
  refine State.modDev_stored h ?_
  cases s.dev.stor pa.toNat with
  | dram key =>
    dsimp only
    split
    · exact Device.evictLine_stored hd ..
    · exact hd
  | _ => exact hd

theorem execProxyEvict_stored {s : State} (h : s.stored = true) (stand : Fin 16) (pa : BitVec 60) :
    Out.stored (execProxyEvict stand pa s) = true := by
  have hd := State.stored_dev h
  refine State.modDev_stored h ?_
  cases s.dev.stor pa.toNat with
  | dram key =>
    dsimp only
    split
    · exact Device.flushProxy_stored hd ..
    · exact hd
  | _ => exact hd

theorem execHwPrefetch_stored {s : State} (h : s.stored = true) (core : Fin 2048) (pa : BitVec 60) :
    Out.stored (execHwPrefetch core pa s) = true :=
  State.modDev_stored h (Device.prefetch_stored (State.stored_dev h) ..)

theorem amopOn_stored {s : State} (h : s.stored = true) (op : AOp) (w : Bool) (d a : XReg) (b : Src) (k : Nat) :
    (amopOn op w d a b k s).stored = true := by
  refine State.access_stored h _ _ _ _ _ fun p t ht => ?_
  refine State.readBytes_stored ht p _ _ (fun _ u hu => ?_) _
  exact writeReg_stored (State.writeBytes_stored hu p ..) k ..

end Sys2Proof.Machine
end

