-- ==== Sys2Proof/Proofs/StoredRows.lean ====
section
/-! PROOF. The canonical form along the row words and the words on global memory. -/

namespace Sys2Proof.Machine

/-! ### `Machine/Row` -/

theorem State.modGrp_stored {s : State} (h : s.stored = true) (b : Nat) (g : Lat) (f : Group → Group) :
    (s.modGrp b g f).stored = true := State.modDev_stored h (Device.modGroup_stored (State.stored_dev h) _ b g f)

theorem State.pushRow_stored {s : State} (h : s.stored = true) (b : Nat) (g : Lat) (op : RowOp) (joined : Bool) :
    (s.pushRow b g op joined).stored = true :=
  State.modDev_stored h (Device.modBank_stored (State.stored_dev h) _ b _)

theorem actOn_stored {s : State} (h : s.stored = true) (g : Lat) (row : Src) (b : Nat) :
    (actOn g row b s).stored = true := by
  unfold actOn
  extract_lets i
  cases s.physRow i with
  | none => rfl
  | some r =>
    dsimp only
    split
    · rfl
    · exact State.pushRow_stored (State.modGrp_stored h b g _) b g ..

theorem actwOn_stored {s : State} (h : s.stored = true) (g : Lat) (b : Nat) : (actwOn g b s).stored = true :=
  State.pushRow_stored (State.modGrp_stored h b g _) b g ..

theorem wbOn_stored {s : State} (h : s.stored = true) (op : Nat → Bool → RowOp) (after : Nat → GroupState) (g : Lat)
    (row : Src) (b : Nat) : (wbOn op after g row b s).stored = true := by
  unfold wbOn
  extract_lets i x
  cases s.physRow i with
  | none => rfl
  | some r =>
    dsimp only
    split
    · rfl
    · exact State.pushRow_stored (State.modGrp_stored h b g _) b g ..

theorem preOf_stored {s : State} (h : s.stored = true) (b : Nat) (g : Lat) (joined : Bool) :
    (preOf b g joined s).stored = true := by
  unfold preOf
  split
  · exact h
  · exact State.pushRow_stored (State.modGrp_stored h b g _) b g ..

theorem preaOn_stored {s : State} (h : s.stored = true) (b : Nat) : (preaOn b s).stored = true :=
  foldl_state_stored (fun _ g hs => preOf_stored hs b g _) _ h

theorem refOn_stored {s : State} (h : s.stored = true) (g : Lat) (b : Nat) : (refOn g b s).stored = true := by
  unfold refOn
  split
  · rfl
  · split
    · rfl
    · exact State.pushRow_stored h b g ..

theorem drained_stored {s : State} (h : s.stored = true) (b : Nat) {k : State → HRes}
    (hk : ∀ t, t.stored = true → (k t).stored = true) : (drained b s k).stored = true := by
  unfold drained
  split
  · rfl
  · extract_lets t
    have ht : t.stored = true := by
      unfold t
      split
      · exact h
      · exact State.settleRows_stored h b
    split
    · rfl
    · exact hk t ht

theorem execRowCommandStart_stored {s : State} (h : s.stored = true) (core : Fin 2048) (bank : Fin 16) :
    Out.stored (execRowCommandStart core bank s) = true := by
  refine State.modDev_stored h ?_
  cases s.dev.rowNext core bank with
  | none => exact State.stored_dev h
  | some p => exact Device.startAt_stored (State.stored_dev h) _ _ p

/-! ### `Machine/Global` -/

theorem State.atomicAccess_stored {s : State} (h : s.stored = true) (k va n : Nat) {go : State → Stor → HRes}
    (hg : ∀ st t, t.stored = true → (go t st).stored = true) : (s.atomicAccess k va n go).stored = true := by
  refine State.access_stored h _ _ _ _ _ fun p t ht => ?_
  cases p with
  | mem st => exact hg st t ht
  | _ => exact ht

theorem State.putFlight_stored {s : State} (h : s.stored = true) (k : Nat) (d : XReg) (v : Word) :
    (s.putFlight k d v).stored = true := by
  have hw := writeReg_stored h k (.x d) v none
  unfold State.putFlight
  dsimp only
  split
  · exact hw
  · exact State.modHart_stored hw k _

theorem Device.afterOwn_stored {d : Device} (h : d.stored = true) (st : Stor) (rank : Nat) :
    (d.afterOwn st rank).stored = true := by
  refine Device.wqSpace_stored ?_ st
  split
  · exact Device.advanceTo_stored h _
  · exact h

theorem State.atomic_stored {s : State} (h : s.stored = true) (k va n : Nat) (f : Nat → Nat) {go : State → Nat → HRes}
    (hg : ∀ v t, t.stored = true → (go t v).stored = true) : (s.atomic k va n f go).stored = true := by
  refine State.atomicAccess_stored h _ _ _ fun st t ht => ?_
  extract_lets cls rank now perform
  have hnow : ∀ d : Device, d.stored = true → (now d).stored = true := fun d hd => by
    have hr := Device.atomicAt_stored (Device.wqEnter_stored (Device.ownWrite_stored hd t.rk k st) st none rank) st n
      f
    unfold now
    extract_lets r u
    have hu : u.stored = true := State.stored_with_dev ht hr
    split
    · rfl
    · exact hg _ u hu
  have hperform : ∀ u : State, u.stored = true → (perform u).stored = true := fun u hu => by
    unfold perform
    split
    · exact hnow _ (State.stored_dev hu)
    · split
      · exact hnow _ (Device.afterOwn_stored (State.stored_dev hu) st rank)
      · rfl
  split
  · rfl
  · split
    · exact State.afterReds_stored ht k hperform
    · exact hperform t ht

theorem amoOn_stored {s : State} (h : s.stored = true) (op : AOp) (w : Bool) (d a : XReg) (b : Src) (k : Nat) :
    (amoOn op w d a b k s).stored = true := by
  refine State.atomic_stored h _ _ _ _ fun v t ht => ?_
  exact State.putFlight_stored ht k d _

theorem casOn_stored {s : State} (h : s.stored = true) (z : CasSize) (d a b : XReg) (k : Nat) :
    (casOn z d a b k s).stored = true := by
  unfold casOn
  refine State.atomic_stored h _ _ _ _ fun v t ht => ?_
  refine State.putFlight_stored ?_ k d _
  split
  · exact writeReg_stored ht k ..
  · exact ht

theorem State.afterRows_stored {s : State} (h : s.stored = true) (k : Nat) (ps : List (Nat × Nat)) :
    (s.afterRows k ps).stored = true := by
  unfold State.afterRows
  split
  · exact State.settleRows_stored h ..
  · exact h

theorem Device.putReds_stored {d : Device} (h : d.stored = true) (rk k : Nat) (reqs : List RedReq) :
    (d.putReds rk k reqs).stored = true := by
  refine foldl_stored (fun d q hd => Device.modHart_stored ?_ rk k _) reqs h
  split
  · exact hd
  · exact Device.drainReds_stored hd rk k _

theorem State.sendReds_stored {s : State} (h : s.stored = true) (k : Nat) (op : AOp) (e : RedElt)
    (ps : List (Nat × Nat)) : (s.sendReds k op e ps).stored = true := by
  unfold State.sendReds
  extract_lets lines before own t cls reqs
  have ht : t.stored = true := State.afterRows_stored h k ps
  split
  · rfl
  · split
    · rfl
    · exact State.modDev_stored ht (Device.putReds_stored (State.stored_dev ht) _ k reqs)

theorem redOn_stored {s : State} (h : s.stored = true) (op : AOp) (w : Bool) (a : XReg) (b : Src) (k : Nat) :
    (redOn op w a b k s).stored = true := by
  unfold redOn
  refine State.atomicAccess_stored h _ _ _ fun st t ht => ?_
  exact State.sendReds_stored ht k op ..

theorem redvCheck_ok {k : Nat} {l : List Nat} {s t : State} (h : s.stored = true) (e : redvCheck k l s = .ok t) :
    t.stored = true := by
  induction l generalizing s with
  | nil => cases e; exact h
  | cons va l ih =>
    have hx := State.stored_with_dev h (Device.globalAt_stored (State.stored_dev h) s.iss.core s.ctx .atomic va)
    unfold redvCheck at e
    dsimp only at e
    generalize s.dev.globalAt s.iss.core s.ctx .atomic va = x at hx e
    obtain ⟨d, r⟩ := x
    cases r with
    | ok p => exact ih hx e
    | fail f => cases e
    | wait w => cases e

theorem redvCheck_error {k : Nat} {l : List Nat} {s : State} {r : HRes} (e : redvCheck k l s = .error r) :
    r.stored = true := by
  induction l generalizing s with
  | nil => cases e
  | cons va l ih =>
    unfold redvCheck at e
    dsimp only at e
    generalize s.dev.globalAt s.iss.core s.ctx .atomic va = x at e
    obtain ⟨d, a⟩ := x
    cases a with
    | ok p => exact ih e
    | fail f => cases e; rfl
    | wait w => cases e; rfl

theorem redvOn_stored {s : State} (h : s.stored = true) (m : MaskMod) (op : AOp) (d : Lat) (a : XReg)
    (form : RedvForm) (k : Nat) : (redvOn m op d a form k s).stored = true := by
  unfold redvOn
  extract_lets c act n elt uses short
  cases s.laneCheck k (s.badFmt c (fun _ => true) || elt.isNone || short) uses none with
  | some e => rfl
  | none =>
    cases elt with
    | none => rfl
    | some e =>
      dsimp only
      generalize (act.map fun i => (redvAddr s k a form e.bytes i, elemOf n (s.latData k (.own d)) i)) = ts
      cases ts.find? fun p => p.1 % e.bytes != 0 with
      | some p => rfl
      | none =>
        cases ts.find? fun p => decide (2 ^ 56 ≤ p.1) with
        | some p => rfl
        | none =>
          cases hc : redvCheck k (ts.map Prod.fst) s with
          | error r => exact redvCheck_error hc
          | ok t =>
            have hs := State.sendReds_stored (redvCheck_ok h hc) k op e (ts.map fun p => (t.paOf p.1, p.2))
            dsimp only
            generalize t.sendReds k op e (ts.map fun p => (t.paOf p.1, p.2)) = r at hs ⊢
            cases r with
            | ok u => exact State.pushSeg_stored hs k ..
            | fail f => rfl
            | hold w => rfl

theorem redfOn_stored {s : State} (h : s.stored = true) (k : Nat) : (redfOn k s).stored = true :=
  State.afterReds_stored h k fun _ ht => ht

theorem pgqOn_stored {s : State} (h : s.stored = true) (pa : Bool) (d base : XReg) (disp : Src) (k : Nat) :
    (pgqOn pa d base disp k s).stored = true := by
  unfold pgqOn
  extract_lets va t
  have ht : t.1.stored = true := by
    unfold t
    split
    · exact Device.translate_stored (State.stored_dev h) ..
    · exact State.stored_dev h
  split
  · rfl
  · exact writeReg_stored (State.stored_with_dev h ht) k ..

theorem execWriteQueueAccept_stored {s : State} (h : s.stored = true) (k : Nat) :
    Out.stored (execWriteQueueAccept k s) = true := by
  have hd := State.stored_dev h
  refine State.modDev_stored h ?_
  cases s.dev.redComes k with
  | none => exact hd
  | some q =>
    have dropped : { s.dev with portQ := dropIdx k s.dev.portQ }.stored = true := hd
    dsimp only
    split
    · exact Device.redAccept_stored dropped q
    · exact hd

theorem execWriteQueueApply_stored {s : State} (h : s.stored = true) (core : Fin 2048) (bank : Fin 16) :
    Out.stored (execWriteQueueApply core bank s) = true := by
  have hd := State.stored_dev h
  refine State.modDev_stored h ?_
  cases (s.dev.bank core bank).wq with
  | nil => exact hd
  | cons e l => exact Device.releaseFor_stored (Device.modBank_stored hd ..) ..

theorem Device.returnFlight_stored {d : Device} (h : d.stored = true) (rk base bank : Nat) :
    (d.returnFlight rk base bank).stored = true := Device.modFound_stored (Device.modHart_stored h ..) ..

theorem execAtomicResultReturn_stored {s : State} (h : s.stored = true) (core : Fin 2048) (bank : Fin 16) :
    Out.stored (execAtomicResultReturn core bank s) = true := by
  refine State.modDev_stored h ?_
  cases s.dev.gangAt core bank with
  | none => exact State.stored_dev h
  | some p => exact Device.returnFlight_stored (State.stored_dev h) ..

theorem Device.modPort_stored {d : Device} (h : d.stored = true) (key : Nat) (f : Bank → Bank) :
    (d.modPort key f).stored = true := by
  unfold Device.modPort
  split <;> exact h

theorem execColumnAccessArrival_stored {s : State} (h : s.stored = true) (pa : BitVec 60) (kind : ColKind)
    (by_ : ColSource) : Out.stored (execColumnAccessArrival pa kind by_ s) = true := by
  refine State.modDev_stored h ?_
  cases s.dev.stor pa.toNat with
  | dram key => exact Device.modPort_stored (State.stored_dev h) key _
  | _ => exact State.stored_dev h

theorem Device.colServe_stored {d : Device} (h : d.stored = true) (c b : Nat) (p : ColAccess × Nat) :
    (d.colServe c b p).stored = true := by
  have hr := Device.releaseFor_stored (Device.modBank_stored h c b fun k => { k with cols := dropIdx p.2 k.cols })
    p.1.pa p.1.cls
  unfold Device.colServe
  cases p.1.kind with
  | read n => exact hr
  | write bytes => exact Device.physWrite_stored hr ..

theorem Device.serveHost_stored {d : Device} (h : d.stored = true) (c b n : Nat) :
    (d.serveHost c b n).stored = true := by
  induction n generalizing d with
  | zero => exact h
  | succ n ih =>
    unfold Device.serveHost
    cases (d.bank c b).cols.zipIdx.find? fun p => p.1.host with
    | none => exact h
    | some p => exact ih (Device.colServe_stored h c b p)

theorem Device.serveHosts_stored {d : Device} (h : d.stored = true) : d.serveHosts.stored = true :=
  foldl_stored (fun _ _ hd => Device.serveHost_stored hd ..) _ h

theorem execColumnAccessServe_stored {s : State} (h : s.stored = true) (core : Fin 2048) (bank : Fin 16) :
    Out.stored (execColumnAccessServe core bank s) = true := by
  refine State.modDev_stored h ?_
  cases s.dev.colNext core bank with
  | none => exact State.stored_dev h
  | some p => exact Device.colServe_stored (State.stored_dev h) _ _ p

theorem execPageWalk_stored {s : State} (h : s.stored = true) (core : Fin 2048) (bank : Fin 16) (va : Word) :
    Out.stored (execPageWalk core bank va s) = true := by
  have hd := State.stored_dev h
  refine State.modDev_stored h ?_
  cases (s.dev.core core).issuing with
  | none => exact hd
  | some slot =>
    dsimp only
    cases s.dev.res? (resKey core slot) with
    | none => exact hd
    | some r =>
      dsimp only
      split
      · exact Device.translate_stored hd ..
      · exact hd

theorem execAtsCompletion_stored {s : State} (h : s.stored = true) (core : Fin 2048) (ctx : BitVec 12) (va : Word)
    (answer : AtsAnswer) : Out.stored (execAtsCompletion core ctx va answer s) = true := by
  have hd := State.stored_dev h
  refine State.modDev_stored h ?_
  extract_lets page q d₁ d₂
  have h₀ : { s.dev with ats := s.dev.ats.filter (· != q) }.stored = true := hd
  have h₁ : d₁.stored = true := Device.translate_stored h₀ core ctx page
  have h₂ : d₂.stored = true := Device.modCore_stored h₁ core _
  split
  · exact hd
  · exact h₂

theorem execAtsInvalidation_stored {s : State} (h : s.stored = true) (host len : Word) :
    Out.stored (execAtsInvalidation host len s) = true :=
  State.modDev_stored h (Device.sendAts_stored (d := { s.dev with cores := _, atsInv := _ }) (State.stored_dev h))

end Sys2Proof.Machine
end

