-- ==== Sys2Proof/Proofs/StoredEngine.lean ====
section
/-! PROOF. The canonical form along the copy engine, its commands and its events. -/

namespace Sys2Proof.Machine

/-! ### `Machine/Engine` -/

theorem Device.engineRead_stored {d : Device} (h : d.stored = true) (rk : Nat) (p : Place) (n : Nat) :
    (d.engineRead rk p n).1.stored = true := by
  unfold engineRead
  cases p with
  | mem st => exact Device.colRead_stored h st n
  | host a => exact h
  | pool o =>
    cases d.res? rk with
    | none => exact h
    | some r => dsimp only; split <;> exact h

theorem Device.engineWrite_stored {d : Device} (h : d.stored = true) (rk : Nat) (p : Place) (n v : Nat) (bad : Bool) :
    (d.engineWrite rk p n v bad).stored = true := by
  cases p with
  | mem st => exact Device.colWrite_stored h st n v bad
  | host a => exact Device.withHost_stored h (Memory.wf_write _ a n v (Device.host_wf h))
  | pool o => exact Device.modRes_stored h rk _ fun _ hr => Residence.write_memOk hr o n v bad

theorem Device.layoutRead_stored {d : Device} (h : d.stored = true) (core rk : Nat) (r : Residence) (va : Nat)
    (l : List Nat) (v : Nat) : (d.layoutRead core rk r va l v).1.stored = true := by
  induction l generalizing d v with
  | nil => exact h
  | cons k l ih =>
    have hx := Device.checkAt_stored h core r { frames := true } .read ((va + 32 * k) % 2 ^ 64)
    unfold layoutRead
    dsimp only
    generalize d.checkAt core r { frames := true } .read ((va + 32 * k) % 2 ^ 64) = x at hx ⊢
    obtain ⟨e, a⟩ := x
    cases a with
    | ok p => exact ih (Device.engineRead_stored hx rk p 32) _
    | fail f => exact hx
    | wait w => exact hx

theorem Device.layoutFmt_stored {d : Device} (h : d.stored = true) (core : Nat) (ctx : BitVec 12) (lay : Nat)
    (l : Layout) (base : Nat) : (d.layoutFmt core ctx lay l base).1.stored = true := by
  unfold layoutFmt
  dsimp only
  split
  · exact h
  · split
    · exact h
    · exact Device.translate_stored h ..

theorem cmdCheck_stored {d : Device} (h : d.stored = true) (core rk : Nat) (r : Residence) (tv v : Nat) :
    (cmdCheck core rk r tv v d).1.stored = true := by
  unfold cmdCheck
  extract_lets bad slay dlay sbase dbase read resoff
  have hread : ∀ (e : Device) (va : Nat) (go : Device → Nat → Device × CmdR), e.stored = true →
      (∀ e w, e.stored = true → (go e w).1.stored = true) → (read e va go).1.stored = true := fun e va go he hg => by
    have hx := Device.layoutRead_stored he core rk r va [0, 1, 2] 0
    unfold read
    dsimp only
    split
    · exact hg _ _ hx
    · exact hx
    · exact hx
    · exact hx
  clear_value read
  split
  · exact h
  · split
    · exact h
    · split
      · exact h
      · refine hread d slay _ h fun e sv he => ?_
        refine hread e dlay _ he fun e dv he => ?_
        have hs := Device.layoutFmt_stored he core r.ctx slay (Layout.ofNat sv) sbase
        dsimp only
        generalize e.layoutFmt core r.ctx slay (Layout.ofNat sv) sbase = x at hs ⊢
        obtain ⟨e, x⟩ := x
        cases x with
        | error f => exact hs
        | ok y =>
          dsimp only
          split
          · exact hs
          · have ht := Device.layoutFmt_stored hs core r.ctx dlay (Layout.ofNat dv) dbase
            generalize e.layoutFmt core r.ctx dlay (Layout.ofNat dv) dbase = z at ht ⊢
            obtain ⟨e, z⟩ := z
            cases z with
            | error f => exact ht
            | ok t =>
              dsimp only
              split
              · exact ht
              · split
                · exact ht
                · split <;> exact ht

theorem Device.setSlot_stored {d : Device} (h : d.stored = true) (c k : Nat) (x : Option CopySlot) :
    (d.setSlot c k x).stored = true := h

theorem Device.placeCmd_stored {d : Device} (h : d.stored = true) (c rk bank k : Nat) (cmd : CopyCmd)
    (age fault : Nat) : (d.placeCmd c rk bank k cmd age fault).stored = true := h

theorem Device.offer_stored {d : Device} (h : d.stored = true) (c rk bank : Nat) (cmd : CopyCmd) :
    (d.offer c rk bank cmd).1.stored = true := by
  unfold offer
  split
  · exact h
  · cases d.chanFree c cmd.chan with
    | none => exact h
    | some k => exact Device.placeCmd_stored h c rk bank k cmd ..

theorem Device.writeImg_stored {d : Device} (h : d.stored = true) (rk : Nat) (p : Place) (l : LineImg) :
    (d.writeImg rk p l).stored = true := by
  unfold writeImg
  extract_lets sram
  split
  · exact Device.engineWrite_stored h rk p 64 ..
  · refine foldl_stored (fun d j hd => ?_) _ h
    extract_lets m v bad
    split
    · exact hd
    · split
      · exact Device.engineWrite_stored hd rk _ 8 v bad
      · refine foldl_stored (fun d i hd => ?_) _ hd
        dsimp only
        split
        · exact hd
        · exact Device.engineWrite_stored hd rk _ 1 _ bad
        · exact Device.engineWrite_stored (Device.engineRead_stored hd rk _ 1) rk _ 1 _ bad

theorem Device.elemRead_stored {d : Device} (h : d.stored = true) (core rk : Nat) (r : Residence) (l : List Nat)
    (k : Nat) (v : Nat × Bool) : (Device.elemRead core rk r l k d v).1.stored = true := by
  induction l generalizing d k v with
  | nil => exact h
  | cons a l ih =>
    have hx := Device.checkAt_stored h core r { frames := false } .copyRead a
    unfold Device.elemRead
    dsimp only
    generalize d.checkAt core r { frames := false } .copyRead a = x at hx ⊢
    obtain ⟨e, q⟩ := x
    cases q with
    | ok p => exact ih (Device.engineRead_stored hx rk p 1) ..
    | fail f => exact hx
    | wait w => exact hx

theorem Device.elemCheck_stored {d : Device} (h : d.stored = true) (core : Nat) (r : Residence) (l : List Nat)
    (ps : List (Nat × Place)) : (Device.elemCheck core r l d ps).1.stored = true := by
  induction l generalizing d ps with
  | nil => exact h
  | cons a l ih =>
    have hx := Device.checkAt_stored h core r { frames := false } .copyWrite a
    unfold Device.elemCheck
    dsimp only
    generalize d.checkAt core r { frames := false } .copyWrite a = x at hx ⊢
    obtain ⟨e, q⟩ := x
    cases q with
    | ok p => exact ih hx _
    | fail f => exact hx
    | wait w => exact hx

theorem Device.copyScan_stored {d : Device} (h : d.stored = true) (core rk : Nat) (r : Residence) (c : CopyCmd)
    (l : List Nat) (is : List LineImg) : (Device.copyScan core rk r c l d is).1.stored = true := by
  induction l generalizing d is with
  | nil => exact h
  | cons n l ih =>
    unfold Device.copyScan
    extract_lets be src
    have hs : src.1.stored = true := by
      unfold src
      cases c.src.coord c.sbase.toNat n with
      | some bit => exact Device.elemRead_stored h core rk r _ 0 _
      | none => exact h
    clear_value src
    obtain ⟨e, v⟩ := src
    cases v with
    | error f => exact hs
    | ok v =>
      cases c.dst.coord c.dbase.toNat n with
      | none => exact ih hs is
      | some bit =>
        have hx := Device.elemCheck_stored hs core r (Device.elemBytes be bit) []
        dsimp only
        generalize Device.elemCheck core r (Device.elemBytes be bit) e [] = x at hx ⊢
        obtain ⟨e, ps⟩ := x
        cases ps with
        | error f => exact hx
        | ok ps => exact ih hx _

theorem Device.writeImgs_stored {d : Device} (h : d.stored = true) (rk : Nat) (is : List LineImg) :
    (Device.writeImgs rk is d).stored = true :=
  foldl_stored (fun _ l hd => Device.writeImg_stored hd rk l.place l) is h

theorem Device.copyRest_stored {d : Device} (h : d.stored = true) (c : Nat) (x : CopySlot) :
    (d.copyRest c x).1.stored = true := by
  unfold copyRest
  cases d.res? x.res with
  | none => exact h
  | some r => exact Device.copyScan_stored h ..

theorem Device.askAts_stored {d : Device} (h : d.stored = true) (core : Nat) (w : WaitOn) :
    (d.askAts core w).stored = true := by
  cases w with
  | ats ctx va =>
    unfold askAts
    dsimp only
    split <;> exact h
  | _ => exact h

theorem Device.engTrap_stored {d : Device} (h : d.stored = true) (rk b cause : Nat) (tval : Word) :
    (d.engTrap rk b cause tval).stored = true := by
  unfold Device.engTrap
  split
  · exact h
  · exact Device.killBy_stored h ..

theorem Device.faultCmd_stored {d : Device} (h : d.stored = true) (c k : Nat) (x : CopySlot) (f : Fail) :
    (d.faultCmd c k x f).stored = true := by
  unfold faultCmd
  cases d.res? x.res with
  | none => exact h
  | some r =>
    have hs := Device.setSlot_stored h c k (some { x with state := .faulted, fault := d.faultSeq })
    dsimp only
    generalize d.setSlot c k (some { x with state := .faulted, fault := d.faultSeq }) = e at hs ⊢
    refine Device.stopForCmd_stored (Device.flushFaults_stored ?_) _
    exact hs

theorem Device.stopCmd_stored {d : Device} (h : d.stored = true) (c k : Nat) (x : CopySlot) (blocks : Nat) :
    (d.stopCmd c k x blocks).1.stored = true := by
  unfold stopCmd
  split
  · exact Device.setSlot_stored h c k _
  · refine Device.setSlot_stored ?_ c k _
    cases d.res? x.res with
    | none => exact h
    | some r => exact Device.writeImgs_stored (Device.copyScan_stored h ..) ..

theorem Device.saveCmd_stored {d : Device} (h : d.stored = true) (c k blocks : Nat) :
    (d.saveCmd c k blocks).stored = true := by
  unfold saveCmd
  cases d.cmdSlot c k with
  | none => exact h
  | some x => exact Device.modRes_stored (Device.stopCmd_stored h c k x blocks) _ _ fun _ hr => hr

theorem Device.saveCmds_stored {d : Device} (h : d.stored = true) (c rk : Nat) : (d.saveCmds c rk).stored = true :=
  foldl_stored (fun _ k hd => Device.saveCmd_stored hd c k _) _ h

theorem cmdChecks_stored {d : Device} (h : d.stored = true) (core rk : Nat) (r : Residence) (l : List (Nat × Nat))
    (cs : List (Nat × CopyCmd)) : (cmdChecks core rk r l d cs).1.stored = true := by
  induction l generalizing d cs with
  | nil => exact h
  | cons p l ih =>
    have hx := cmdCheck_stored h core rk r p.1 p.2
    unfold cmdChecks
    dsimp only
    generalize cmdCheck core rk r p.1 p.2 d = x at hx ⊢
    obtain ⟨e, c⟩ := x
    cases c with
    | ok c => exact ih hx _
    | fail f => exact hx
    | wait w => exact hx

theorem offerAll_stored {d : Device} (h : d.stored = true) (c rk bank : Nat) (l : List (Nat × CopyCmd))
    (got : List Nat) : (offerAll c rk bank l d got).1.stored = true := by
  induction l generalizing d got with
  | nil => exact h
  | cons p l ih => exact ih (Device.offer_stored h c rk bank p.2) _

theorem enqOn_stored {s : State} (h : s.stored = true) (m : MaskMod) (d : Msk) (a : Lat) (n : Src) (k : Nat) :
    (enqOn m d a n k s).stored = true := by
  unfold enqOn
  extract_lets cnt t act
  split
  · rfl
  · cases s.poisonOf k { ref := .own a, fmt := .illegal, read := act } with
    | some f => rfl
    | none =>
      cases s.res? with
      | none => exact h
      | some r =>
        dsimp only
        have hx := State.stored_with_dev h (cmdChecks_stored (State.stored_dev h) s.iss.core s.rk r
          (act.map fun j => (j, getBytes (s.latData k (.own a)) (64 * j) 64)) [])
        generalize cmdChecks s.iss.core s.rk r (act.map fun j => (j, getBytes (s.latData k (.own a)) (64 * j) 64))
          s.dev [] = x at hx ⊢
        obtain ⟨e, x⟩ := x
        cases x with
        | error f => cases f with
          | ok c => exact hx
          | fail f => rfl
          | wait w => rfl
        | ok cmds =>
          exact State.pushSeg_stored (State.putMask_stored (State.stored_with_dev h
            (offerAll_stored (State.stored_dev hx) _ _ k cmds [])) k d _) k ..

theorem enq1On_stored {s : State} (h : s.stored = true) (d a : XReg) (k : Nat) : (enq1On d a k s).stored = true := by
  have hc := fun r v => cmdCheck_stored (State.stored_dev h) s.iss.core s.rk r 0 v
  delta enq1On
  obtain ⟨f, hf⟩ : ∃ f, cmdCheck s.iss.core s.rk = f := ⟨_, rfl⟩
  rw [hf] at hc ⊢
  cases s.res? with
  | none => exact h
  | some r =>
    dsimp only
    generalize List.foldl _ _ (enqRegs a).zipIdx = v
    have hx := State.stored_with_dev h (hc r v)
    generalize f r 0 v s.dev = x at hx ⊢
    obtain ⟨e, x⟩ := x
    cases x with
    | fail f => rfl
    | wait w => rfl
    | ok c =>
      have hy := State.stored_with_dev h (Device.offer_stored (State.stored_dev hx) s.iss.core s.rk k c)
      exact writeReg_stored hy k ..

theorem estatOn_stored {s : State} (h : s.stored = true) (form : EstatForm) (d : XReg) (k : Nat) :
    (estatOn form d k s).stored = true := by
  have hput : ∀ v, (HRes.ok (writeReg k (.x d) (BitVec.ofNat 64 v) none s)).stored = true := fun v => writeReg_stored
    h k ..
  cases form with
  | slot b => unfold estatOn; dsimp only; split; · rfl
              · exact hput _
  | chan b => unfold estatOn; dsimp only; split; · rfl
              · exact hput _
  | mine => exact hput _

theorem esuspOn_stored {s : State} (h : s.stored = true) (d : XReg) (b : Src) (k : Nat) :
    (esuspOn d b k s).stored = true := by
  unfold esuspOn
  extract_lets n
  split
  · rfl
  · cases s.dev.cmdSlot s.iss.core n with
    | none => exact writeReg_stored h k ..
    | some x =>
      dsimp only
      split
      · exact writeReg_stored h k ..
      · exact writeReg_stored (State.stored_with_dev h (Device.stopCmd_stored (State.stored_dev h) ..)) k ..

theorem State.barAccess_stored {s : State} (h : s.stored = true) (k : Nat) (a : XReg) {go : State → Nat → Bar → HRes}
    (hg : ∀ o b t, t.stored = true → (go t o b).stored = true) : (s.barAccess k a go).stored = true := by
  unfold State.barAccess
  refine State.access_stored h _ _ _ _ _ fun p t ht => ?_
  refine State.readBytes_stored ht p _ _ (fun v u hu => ?_) _
  exact hg _ _ u hu

theorem State.modBar {s : State} (h : s.stored = true) (off : Nat) (o : Bar) :
    (s.modDev fun d => d.modRes s.rk fun r => r.setBar off o).stored = true :=
  State.modDev_stored h (Device.modRes_stored (State.stored_dev h) _ _ fun _ hr => Residence.setBar_memOk hr off o)

theorem bariOn_stored {s : State} (h : s.stored = true) (a : XReg) (b : Src) (k : Nat) :
    (bariOn a b k s).stored = true := by
  unfold bariOn
  refine State.access_stored h _ _ _ _ _ fun p t ht => ?_
  extract_lets live m e lists o u
  have hu : u.stored = true := State.modBar ht p.off o
  split
  · rfl
  · refine foldl_state_stored (fun w q hw => ?_) lists hu
    split
    · exact State.modHart_stored hw ..
    · exact hw

theorem barMove_stored {s : State} (h : s.stored = true) (post : Bool) (d a : XReg) (b : Src) (k : Nat) :
    (barMove post d a b k s).stored = true := by
  refine State.barAccess_stored h _ _ fun off o t ht => ?_
  extract_lets c by_ o'
  split
  · rfl
  · exact writeReg_stored (State.modBar ht off _) k ..

theorem barwCheck_stored {s : State} (h : s.stored = true) (a : XReg) (k : Nat) : (barwCheck a k s).stored = true := by
  refine State.barAccess_stored h _ _ fun off o t ht => ?_
  dsimp only
  split
  · rfl
  · split
    · rfl
    · exact ht

theorem barwOn_stored {s : State} (h : s.stored = true) (d a : XReg) (k : Nat) : (barwOn d a k s).stored = true := by
  refine State.barAccess_stored h _ _ fun off o t ht => ?_
  exact writeReg_stored ht k ..

theorem State.wordAccess_stored {s : State} (h : s.stored = true) (k : Nat) (a : XReg) {go : State → Nat → Nat → HRes}
    (hg : ∀ o v t, t.stored = true → (go t o v).stored = true) : (s.wordAccess k a go).stored = true := by
  unfold State.wordAccess
  refine State.access_stored h _ _ _ _ _ fun p t ht => ?_
  refine State.readBytes_stored ht p _ _ (fun v u hu => ?_) _
  exact hg _ _ u hu

theorem execWait_stored {s : State} (h : s.stored = true) (hd : Hdr) (cond : WCond) (d a : XReg) (b : Src) :
    Out.stored (execWait hd cond d a b s) = true := by
  refine waitOp h hd _ _ (fun k t ht => ?_) fun k t ht => ?_
  · refine State.wordAccess_stored ht k a fun _ _ u hu => ?_
    exact hu
  · refine State.wordAccess_stored ht k a fun _ _ u hu => ?_
    exact writeReg_stored hu k ..

theorem waitvCheck_stored {s : State} (h : s.stored = true) (n : Nat) (a : XReg) (k : Nat) :
    (waitvCheck n a k s).stored = true := by
  unfold waitvCheck
  refine State.access_stored h _ _ _ _ _ fun p t ht => ?_
  exact ht

theorem execWaitv_stored {s : State} (h : s.stored = true) (hd : Hdr) (all : Bool) (n1 : BitVec 3) (d a : XReg) :
    Out.stored (execWaitv hd all n1 d a s) = true := by
  refine waitOp h hd _ _ (fun k _ ht => waitvCheck_stored ht _ a k) fun k t ht => ?_
  cases t.rollback.res? t.rk with
  | none => exact ht
  | some r => exact writeReg_stored ht k ..

theorem Device.finishCmd_stored {d : Device} (h : d.stored = true) (c k : Nat) (x : CopySlot) :
    ∀ e, d.finishCmd c k x = some e → e.stored = true := by
  intro e he
  unfold finishCmd at he
  dsimp only at he
  split at he
  · cases he
    exact Device.sendAts_stored (Device.complete_stored (Device.setSlot_stored
      (Device.writeImgs_stored (Device.copyRest_stored h c x) ..) c k _) ..)
  · cases he

theorem execBarrierWaitWake_stored {s : State} (h : s.stored = true) (core : Fin 2048) (bank : Fin 16) :
    Out.stored (execBarrierWaitWake core bank s) = true :=
  State.modDev_stored h (Device.wakePool_stored (State.stored_dev h) ..)

theorem execWordWaitSatisfied_stored {s : State} (h : s.stored = true) (core : Fin 2048) (bank : Fin 16) :
    Out.stored (execWordWaitSatisfied core bank s) = true :=
  State.modDev_stored h (Device.wakePool_stored (State.stored_dev h) ..)

theorem execCopyCommandStart_stored {s : State} (h : s.stored = true) (core : Fin 2048) (ch : Fin 8) :
    Out.stored (execCopyCommandStart core ch s) = true := by
  refine State.modDev_stored h ?_
  cases s.dev.chanNext core ch with
  | none => exact State.stored_dev h
  | some p => exact Device.setSlot_stored (State.stored_dev h) ..

theorem execCopyCompletion_stored {s : State} (h : s.stored = true) (core : Fin 2048) (slot : Fin 32) :
    Out.stored (execCopyCompletion core slot s) = true := by
  have hd := State.stored_dev h
  refine State.modDev_stored h ?_
  cases s.dev.cmdSlot core slot with
  | none => exact hd
  | some x =>
    dsimp only
    split
    · exact hd
    · cases he : s.dev.finishCmd core slot x with
      | some e =>
        dsimp only
        split
        · exact Device.finishCmd_stored hd _ _ _ e he
        · exact hd
      | none =>
        dsimp only
        split
        · exact Device.askAts_stored hd ..
        · exact hd

theorem execCopyFault_stored {s : State} (h : s.stored = true) (core : Fin 2048) (slot : Fin 32) :
    Out.stored (execCopyFault core slot s) = true := by
  have hd := State.stored_dev h
  refine State.modDev_stored h ?_
  cases s.dev.cmdSlot core slot with
  | none => exact hd
  | some x =>
    dsimp only
    split
    · split
      · exact Device.faultCmd_stored (Device.writeImgs_stored (Device.copyRest_stored hd ..) ..) ..
      · exact hd
    · exact hd

theorem execCopyPermissionStop_stored {s : State} (h : s.stored = true) (core : Fin 2048) (slot : Fin 32) :
    Out.stored (execCopyPermissionStop core slot s) = true := by
  have hd := State.stored_dev h
  refine State.modDev_stored h ?_
  cases s.dev.cmdSlot core slot with
  | none => exact hd
  | some x =>
    dsimp only
    split
    · split
      · exact Device.engTrap_stored (Device.setSlot_stored
          (Device.writeImgs_stored (Device.copyRest_stored hd ..) ..) ..) ..
      · exact hd
    · exact hd

theorem execSavedCommandReentry_stored {s : State} (h : s.stored = true) (core : Fin 2048) (slot : Fin 3) :
    Out.stored (execSavedCommandReentry core slot s) = true := by
  have hd := State.stored_dev h
  refine State.modDev_stored h ?_
  extract_lets rk
  split
  · exact hd
  · cases s.dev.reentry core rk with
    | none => exact hd
    | some p =>
      have taken : (s.dev.modRes rk fun r => { r with saved := dropIdx p.1 r.saved }).stored = true :=
        Device.modRes_stored hd rk _ fun _ hr => hr
      exact Device.placeCmd_stored taken core rk ..

theorem execCommandSuspensionStop_stored {s : State} (h : s.stored = true) (core : Fin 2048) (slot : Fin 32)
    (blocks : Nat) : Out.stored (execCommandSuspensionStop core slot blocks s) = true := by
  have hd := State.stored_dev h
  refine State.modDev_stored h ?_
  cases s.dev.cmdSlot core slot with
  | none => exact hd
  | some x =>
    dsimp only
    split
    · exact Device.saveCmd_stored hd ..
    · exact hd

end Sys2Proof.Machine
end

