-- ==== Sys2Proof/Proofs/StoredSystem.lean ====
section
/-! PROOF. The canonical form along the Sifter, the fences and the system words. -/

namespace Sys2Proof.Machine

/-! ### `Machine/Sifter` -/

theorem Device.setSifter_stored {d : Device} (h : d.stored = true) (c : Nat) (x : Sifter) :
    (d.setSifter c x).stored = true := h

theorem Device.siftWrite_stored {d : Device} (h : d.stored = true) (rk : Nat) (a : Word) (n v : Nat) :
    (d.siftWrite rk a n v).stored = true := by
  unfold Device.siftWrite
  split
  · exact Device.modRes_stored h rk _ fun _ hr => Residence.write_memOk hr _ n v _
  · exact Device.vaultWrite_stored h _ n v _

theorem Device.bindSift_stored {d : Device} (h : d.stored = true) (c : Nat) (f : SiftState) :
    (d.bindSift c f).stored = true :=
  Device.setSifter_stored (foldl_stored (fun _ _ hd => Device.siftWrite_stored hd ..) _ h) c _

theorem Device.siftPerform_stored {d : Device} (h : d.stored = true) (c : Nat) (f : SiftState) :
    (d.siftPerform c f).stored = true := by
  unfold Device.siftPerform
  split
  · exact h
  · extract_lets g r k d₁ u comp
    have h₁ : d₁.stored = true := by
      unfold d₁
      split
      · exact Device.siftWrite_stored h ..
      · exact Device.siftWrite_stored h ..
    refine Device.complete_stored ?_ _ comp
    split
    · exact Device.setSifter_stored h₁ c _
    · exact Device.bindSift_stored h₁ c _

theorem Device.siftFinish_stored {d : Device} (h : d.stored = true) (c rk : Nat) :
    (d.siftFinish c rk).stored = true := by
  unfold Device.siftFinish
  cases d.siftOf c rk with
  | none => exact h
  | some f => exact Device.setSifter_stored (Device.siftPerform_stored h c f) c _

theorem sfcfgOn_stored {s : State} (h : s.stored = true) (d : PReg) (a : XReg) (b : Src) (k : Nat) (run : List Nat) :
    (sfcfgOn d a b k run s).stored = true := by
  unfold sfcfgOn
  extract_lets cap va put
  have hput : ∀ v t, t.stored = true → (put v t).stored = true := fun v t ht =>
    foldl_state_stored (fun _ q hu => writeReg_stored hu q ..) run ht
  have hset := fun x => State.modDev_stored h (f := fun e => e.setSifter s.iss.core x)
    (Device.setSifter_stored (State.stored_dev h) s.iss.core x)
  cases s.res? with
  | none => exact h
  | some r =>
    dsimp only
    split
    · exact State.failAll_stored h _
    · split
      · exact State.failAll_stored h _
      · split
        · exact State.failAll_stored h _
        · split
          · exact hput _ _ (hset _)
          · split
            · exact hput _ _ h
            · split
              · exact State.failAll_stored h _
              · exact hput _ _ (hset _)
          · exact hput _ _ h

theorem pushCheck_stored {s : State} (h : s.stored = true) (m : MaskMod) (a : Lat) (n : Src) (k : Nat) :
    (pushCheck m a n k s).stored = true := by
  unfold pushCheck
  cases pushRecs m a n k s with
  | error f => rfl
  | ok l => exact h

theorem pushEffect_stored {s : State} (h : s.stored = true) (m : MaskMod) (d : XReg) (a : Lat) (n : Src) (k : Nat) :
    (pushEffect m d a n k s).stored = true := by
  unfold pushEffect
  cases pushRecs m a n k s with
  | error f => exact h
  | ok l =>
    cases s.dev.siftOf s.iss.core s.rk with
    | none => exact h
    | some f =>
      exact State.pushSeg_stored (writeReg_stored (State.modDev_stored h
        (Device.setSifter_stored (State.stored_dev h) ..)) k ..) k ..

theorem sfpushOn_stored {s : State} (h : s.stored = true) (m : MaskMod) (d : XReg) (a : Lat) (n : Src)
    (run : List Nat) : (sfpushOn m d a n run s).stored = true := by
  unfold sfpushOn
  extract_lets t run
  have ht : t.stored = true := perHart_stored (fun k _ hu => pushCheck_stored hu m a n k) _ h
  cases t.dev.siftOf t.iss.core t.rk with
  | none => exact ht
  | some f =>
    dsimp only
    split
    · exact foldl_state_stored (fun _ k hu => State.addFail_stored hu k _) _ ht
    · exact perHart_stored (fun k _ hu => pushEffect_stored hu m d a n k) _ ht

theorem sfopOn_stored {s : State} (h : s.stored = true) (drain rel : Bool) (comp : CompSpec) (addr : XReg) (max : Src)
    (k : Nat) (run : List Nat) : (sfopOn drain rel comp addr max k run s).stored = true := by
  unfold sfopOn
  extract_lets va n before
  generalize (if drain then 2 ^ 20 else 65536) = most
  generalize (if drain then 16 else 4) = unit
  generalize (if drain then 16 * n else 4 * (n + 1)) = len
  cases s.dev.siftOf s.iss.core s.rk with
  | none => exact State.failAll_stored h _
  | some f =>
    cases s.res? with
    | none => exact State.failAll_stored h _
    | some r =>
      dsimp only
      split
      · exact State.failAll_stored h _
      · split
        · exact State.failAll_stored h _
        · cases s.dev.siftPlace s.iss.core r va len with
          | none => exact State.failAll_stored h _
          | some b =>
            cases specComp s k r 1 comp with
            | none => exact State.failAll_stored h _
            | some c =>
              cases before with
              | true => exact State.holdOn_stored h _
              | false => exact State.modDev_stored h (Device.setSifter_stored (State.stored_dev h) ..)

theorem Device.enterPushes_stored {d : Device} (h : d.stored = true) (c n : Nat) :
    (d.enterPushes c n).stored = true := by
  induction n generalizing d with
  | zero => exact h
  | succ n ih =>
    unfold Device.enterPushes
    split
    · split
      · split
        · exact ih (Device.bindSift_stored h c _)
        · exact h
      · exact h
    · exact h

theorem Device.siftThrough_stored {d : Device} (h : d.stored = true) (c rk k n : Nat) :
    (d.siftThrough c rk k n).stored = true := by
  induction n generalizing d with
  | zero => exact h
  | succ n ih =>
    unfold Device.siftThrough
    split
    · next f _ =>
      split
      · next o l _ =>
        split
        · have he : ((d.advanceTo (f.endTime o)).enterPushes c f.pushes.length).stored = true :=
            Device.enterPushes_stored (Device.advanceTo_stored h _) c _
          dsimp only
          refine ih ?_
          split
          · exact Device.siftPerform_stored he c _
          · exact he
        · exact h
      · exact h
    · exact h

theorem execSifterRound_stored {s : State} (h : s.stored = true) (core : Fin 2048) :
    Out.stored (execSifterRound core s) = true := by
  have hd := State.stored_dev h
  refine State.modDev_stored h ?_
  cases s.dev.sift? core with
  | none => exact hd
  | some f =>
    dsimp only
    split
    · exact Device.siftPerform_stored hd _ f
    · exact hd

theorem execSifterDrainRun_stored {s : State} (h : s.stored = true) (core : Fin 2048) :
    Out.stored (execSifterDrainRun core s) = true := by
  have hd := State.stored_dev h
  refine State.modDev_stored h ?_
  cases s.dev.sift? core with
  | none => exact hd
  | some f =>
    dsimp only
    split
    · exact Device.siftPerform_stored hd _ f
    · exact hd

theorem execPushEnterQueue_stored {s : State} (h : s.stored = true) (core : Fin 2048) :
    Out.stored (execPushEnterQueue core s) = true := by
  have hd := State.stored_dev h
  refine State.modDev_stored h ?_
  cases s.dev.sift? core with
  | none => exact hd
  | some f =>
    dsimp only
    cases f.nextPush with
    | none => exact hd
    | some p =>
      dsimp only
      split
      · exact Device.bindSift_stored hd ..
      · exact hd

theorem execSifterSave_stored {s : State} (h : s.stored = true) (core : Fin 2048) :
    Out.stored (execSifterSave core s) = true := by
  have hd := State.stored_dev h
  refine State.modDev_stored h ?_
  cases (s.dev.core core).sifter with
  | saving f => exact Device.setSifter_stored (Device.modLaunch_stored hd ..) ..
  | _ => exact hd

/-! ### `Machine/Fence` -/

theorem Device.finishMoves_stored {d : Device} (h : d.stored = true) (c rk base : Nat) (load : Bool) :
    (d.finishMoves c rk base load).stored = true := foldl_stored (fun _ x hd => Device.xferEnd_stored hd c x) _ h

theorem Device.closePending_stored {d : Device} (h : d.stored = true) (c k : Nat) :
    (d.closePending c k).stored = true := foldl_stored (fun _ g hd => Device.ownClose_stored hd c k g) _ h

theorem fenceRows_stored {s : State} (h : s.stored = true) (pred : BitVec 8) (k : Nat) :
    (fenceRows pred k s).stored = true := by
  unfold fenceRows
  extract_lets rows t u
  have ht : t.stored = true := by
    unfold t
    split
    · exact State.modDev_stored h (Device.drainReds_stored (State.stored_dev h) _ k 0)
    · exact h
  have hu : u.stored = true := by
    unfold u
    split
    · exact State.settleRows_stored ht k
    · exact ht
  split
  · exact State.modDev_stored hu (Device.closePending_stored (State.stored_dev hu) _ k)
  · exact hu

theorem fenceMoves_stored {s : State} (h : s.stored = true) (pred : BitVec 8) : (fenceMoves pred s).stored = true := by
  unfold fenceMoves
  extract_lets t u
  have ht : t.stored = true := by
    unfold t
    split
    · exact State.settleQueue_stored h
    · exact h
  have hu : u.stored = true := by
    unfold u
    split
    · exact State.modDev_stored ht (Device.finishMoves_stored (State.stored_dev ht) ..)
    · exact ht
  split
  · exact State.modDev_stored hu (Device.finishMoves_stored (State.stored_dev hu) ..)
  · exact hu

theorem Device.stored_of_runCmd {d e : Device} (h : d.stored = true) {c k rk b : Nat} {x : CopySlot}
    (he : d.runCmd c k rk b x = .ok e) : e.stored = true := by
  unfold Device.runCmd at he
  dsimp only at he
  split at he
  · split at he
    · next hf => cases he; exact Device.finishCmd_stored h c k x _ hf
    · cases he
  · cases he
  · split at he
    · cases he
    · cases he
      exact Device.engTrap_stored (Device.setSlot_stored (Device.writeImgs_stored (Device.copyRest_stored h c x) ..) c
        k _) ..
  · cases he

theorem Device.stored_of_runSlot {d e : Device} (h : d.stored = true) {c k rk b n : Nat}
    (he : Device.runSlot c k rk b n d = .ok e) : e.stored = true := by
  induction n generalizing d with
  | zero => cases he
  | succ n ih =>
    unfold Device.runSlot at he
    dsimp only at he
    split at he
    · cases he; exact h
    · split at he
      · cases he
      · split at he
        · next hr =>
          have hd := Device.stored_of_runCmd h hr
          split at he
          · cases he; exact hd
          · exact ih hd he
        · next hno => exact absurd he (hno e)

theorem Device.stored_of_runSlots {c rk b : Nat} {l : List Nat} {d e : Device} (h : d.stored = true)
    (he : Device.runSlots c rk b l d = .ok e) : e.stored = true := by
  induction l generalizing d with
  | nil => cases he; exact h
  | cons k l ih =>
    unfold Device.runSlots at he
    split at he
    · split at he
      · split at he
        · next hr => exact ih (Device.stored_of_runSlot h hr) he
        · next hno => exact absurd he (hno e)
      · exact ih h he
    · exact ih h he

theorem Device.stored_of_finishForks {d e : Device} (h : d.stored = true) {c rk b : Nat}
    (he : d.finishForks c rk b = .ok e) : e.stored = true := by
  unfold Device.finishForks at he
  split at he
  · next hr => cases he; exact Device.siftThrough_stored (Device.stored_of_runSlots h hr) ..
  · next hno => exact absurd he (hno e)

theorem fenceOwn_stored {s : State} (h : s.stored = true) (pred : BitVec 8) (k : Nat) :
    (fenceOwn pred k s).stored = true := by
  unfold fenceOwn
  extract_lets c t u
  have ht : t.stored = true := fenceRows_stored h pred k
  have hu : u.stored = true := fenceMoves_stored ht pred
  split
  · rfl
  · split
    · rfl
    · split
      · split
        · next e => exact State.stored_with_dev hu (Device.stored_of_finishForks (State.stored_dev hu) e)
        · rfl
        · rfl
      · exact hu

theorem fenceOn_stored {s : State} (h : s.stored = true) (pred : BitVec 8) (k : Nat) :
    (fenceOn pred k s).stored = true := by
  unfold fenceOn
  cases fenceWait pred k s with
  | some w => rfl
  | none => exact fenceOwn_stored h pred k

theorem execFence_stored {s : State} (h : s.stored = true) (hd : Hdr) (sc : Scope) (pred succ : BitVec 8) :
    Out.stored (execFence hd sc pred succ s) = true := by
  refine wordOp_stored h hd _ fun run t ht => ?_
  split
  · exact ht
  · exact perHart_stored (fun k _ hu => fenceOn_stored hu pred k) run ht

theorem execIfence_stored {s : State} (h : s.stored = true) (hd : Hdr) : Out.stored (execIfence hd s) = true := by
  refine wordOp_stored h hd _ fun run t ht => ?_
  have hp := perHart_stored (fun k _ hu => fenceOn_stored hu 0x22 k) run ht
  split
  · exact ht
  · exact State.modDev_stored hp (Device.modCore_stored (State.stored_dev hp) ..)

/-! ### `Machine/System` -/

theorem putCsr_stored {s : State} (h : s.stored = true) (r : Csr) (v : Word) (k : Nat) :
    (putCsr r v k s).stored = true := by
  have hres : ∀ f : Residence → Residence, (∀ r, r.memOk = true → (f r).memOk = true) →
      (s.modDev fun d => d.modRes s.rk f).stored = true := fun f hf =>
    State.modDev_stored h (Device.modRes_stored (State.stored_dev h) _ f hf)
  cases r with
  | wdt => exact hres _ fun _ hr => hr
  | tvec => exact hres _ fun _ hr => hr
  | vl | vt | gm | hid | ctx | pri | fb | sb | cb => exact h
  | _ => exact State.modHart_stored h k _

theorem csrWrite_stored {s : State} (h : s.stored = true) (r : Csr) (v : Word) (k : Nat) :
    (csrWrite r v k s).stored = true := by
  unfold csrWrite
  split
  · rfl
  · split
    · rfl
    · exact putCsr_stored h r _ k

theorem csrWord_stored {s : State} (h : s.stored = true) (hd : Hdr) (r : Csr) (a : Src) (f : Word → Word → Word) :
    Out.stored (csrWord hd r a f s) = true := hartWordOp h hd _ fun k _ ht => csrWrite_stored ht r _ k

theorem softTrap_stored {s : State} (h : s.stored = true) (cause : Nat) (tval : Word) (sw : Bool) (k : Nat) :
    (softTrap cause tval sw k s).stored = true := h

theorem execBkpt_stored {s : State} (h : s.stored = true) (hd : Hdr) (a : BitVec 18) :
    Out.stored (execBkpt hd a s) = true := by
  refine wordOp_stored h hd _ fun run t ht => ?_
  split
  · exact ht
  · split
    · exact State.modDev_stored ht (Device.modRes_stored (State.stored_dev ht) _ _ fun _ hr => hr)
    · exact perHart_stored (body := fun k s => .ok (softTrap 0x17 (a.signExtend 64) true k s))
        (fun k _ hu => softTrap_stored hu _ _ _ k) run ht

theorem execEret_stored {s : State} (h : s.stored = true) (hd : Hdr) : Out.stored (execEret hd s) = true := by
  refine gangOp h hd _ fun run t ht => ?_
  dsimp only
  split
  · exact foldl_state_stored (fun _ k hu => State.addFail_stored hu k _) _ ht
  · cases run with
    | nil => exact ht
    | cons k l =>
      dsimp only
      split
      · exact State.failAll_stored ht _
      · have hj := State.stored_with_iss (State.jump_stored ht (t.hart k).tpc)
          { (t.jump (t.hart k).tpc).iss with lands := true } rfl
        split
        · exact State.modDev_stored hj (Device.trapReturn_stored (State.stored_dev hj) ..)
        · exact hj

theorem execHalt_stored {s : State} (h : s.stored = true) (hd : Hdr) (a : Src) :
    Out.stored (execHalt hd a s) = true := by
  refine gangOp h hd _ fun run t ht => ?_
  cases run with
  | nil => exact ht
  | cons k l =>
    dsimp only
    cases (k :: l).find? t.unfinished with
    | some b => exact State.holdOn_stored ht _
    | none => exact State.modDev_stored ht (Device.killBy_stored (State.stored_dev ht) ..)

theorem wdogOn_stored {s : State} (h : s.stored = true) (d : XReg) (set : Option Src) (k : Nat) :
    (wdogOn d set k s).stored = true := by
  unfold wdogOn
  split
  · rfl
  · refine writeReg_stored (State.modDev_stored h (Device.modRes_stored (State.stored_dev h) _ _ fun _ hr => ?_)) k ..
    split <;> exact hr

end Sys2Proof.Machine
end

