-- ==== Sys2Proof/Proofs/StoredLaunch.lean ====
section
/-! PROOF. The canonical form along launches, their ends and the frames of a saved context. -/

namespace Sys2Proof.Machine

/-! ### `Machine/Launch` -/

theorem readLists_stored {read : Nat → Nat → Device → Device × Except ListFail Nat}
    (hr : ∀ a n d, d.stored = true → (read a n d).1.stored = true) (r : LaunchRec) {d : Device}
    (h : d.stored = true) : (readLists read r d).1.stored = true := by
  unfold readLists
  have hc := hr r.coreset.toNat 256 d h
  dsimp only
  generalize read r.coreset.toNat 256 d = c at hc ⊢
  obtain ⟨d, c⟩ := c
  cases c with
  | error e => exact hc
  | ok v =>
    have hw := hr r.wset.toNat 16 d hc
    dsimp only
    generalize read r.wset.toNat 16 d = w at hw ⊢
    obtain ⟨e, w⟩ := w
    split
    · exact hc
    · split
      · exact hc
      · cases w with
        | error e => exact hw
        | ok w =>
          have hb := hr (r.wset.toNat + 16) (16 * (w % 2 ^ 64)) e hw
          dsimp only
          generalize read (r.wset.toNat + 16) (16 * (w % 2 ^ 64)) e = b at hb ⊢
          obtain ⟨f, b⟩ := b
          split
          · exact hw
          · cases b <;> exact hb

theorem Device.foldlPair {α β : Type} {f : Device × α → β → Device × α}
    (hf : ∀ x b, x.1.stored = true → (f x b).1.stored = true) (l : List β) {x : Device × α} (h : x.1.stored = true) :
    (l.foldl f x).1.stored = true := by
  induction l generalizing x with
  | nil => exact h
  | cons b l ih => exact ih (hf x b h)

theorem Device.hostList_stored {d : Device} (h : d.stored = true) (ctx : BitVec 12) (a n : Nat) :
    (Device.hostList ctx a n d).1.stored = true := by
  refine Device.foldlPair (fun x c hx => ?_) _ h
  obtain ⟨e, v⟩ := x
  cases v with
  | error e => exact hx
  | ok v =>
    have ht := Device.walked_stored hx ctx c.1
    dsimp only
    generalize e.walked ctx c.1 = t at ht ⊢
    obtain ⟨e, t⟩ := t
    split
    · exact hx
    · cases t with
      | fault n => exact ht
      | ok l =>
        dsimp only
        split
        · exact ht
        · have hy := Device.colRead_stored ht (e.stor (e.leafPa l (c.1 % 2 ^ l.log))) c.2
          split
          · exact hy
          · exact hy

theorem Device.ldList_stored {d : Device} (h : d.stored = true) (core rk : Nat) (r : Residence) (a n : Nat) :
    (Device.ldList core rk r a n d).1.stored = true := by
  refine Device.foldlPair (fun x c hx => ?_) _ h
  obtain ⟨e, v⟩ := x
  cases v with
  | error e => exact hx
  | ok v =>
    have hy := Device.checkAt_stored hx core r { frames := true } .read (c.1 % 2 ^ 64)
    dsimp only
    generalize e.checkAt core r { frames := true } .read (c.1 % 2 ^ 64) = y at hy ⊢
    obtain ⟨e, y⟩ := y
    cases y with
    | ok p =>
      have hz := Device.readAt_stored hy core rk p c.2 false
      dsimp only
      split
      · exact hz
      · exact hz
    | fail f => exact hy
    | wait w => exact hy

theorem Device.refuse_stored {d : Device} (h : d.stored = true) (r : LaunchRec) (status source parent addr : Nat) :
    (d.refuse r status source parent addr).stored = true := Device.journalWrite_stored h ..

theorem Device.acceptLaunch_stored {d : Device} (h : d.stored = true) (r : LaunchRec) (cores : List Nat)
    (wset : List (Nat × Nat)) (source parent addr : Nat) :
    (d.acceptLaunch r cores wset source parent addr).stored = true := by
  unfold Device.acceptLaunch
  refine Device.journalWrite_stored ?_ _
  exact h

theorem Device.advance_stored {d : Device} (h : d.stored = true) (c : Fin 4) : (d.advance c).stored = true := h

theorem Device.consume_stored {d : Device} (h : d.stored = true) (c : Fin 4) : (d.consume c).stored = true := by
  unfold Device.consume
  extract_lets q addr hold touched e v r l
  have he : e.stored = true := Device.physTouch_stored h addr 128
  have hl : l.1.stored = true := readLists_stored (fun a n _ hd => Device.hostList_stored hd r.ctx a n) r he
  split
  · exact Device.advance_stored (Device.refuse_stored he ..) c
  · split
    · exact Device.advance_stored (Device.acceptLaunch_stored hl ..) c
    · exact h
    · exact Device.advance_stored (Device.refuse_stored hl ..) c

theorem Device.invalidateAll_stored {d : Device} (h : d.stored = true) (c : Nat) :
    (d.invalidateAll c).stored = true := Device.cleanAll_stored h ..

theorem Device.releaseFlush_stored {d : Device} (h : d.stored = true) (cores : List Nat) :
    (d.releaseFlush cores).stored = true := foldl_stored (fun _ c hd => Device.invalidateAll_stored hd c) cores h

theorem Device.dropProxies_stored {d : Device} (h : d.stored = true) (stands : List Nat) :
    (d.dropProxies stands).stored = true := foldl_stored (fun _ _ hd => Device.flushProxy_stored hd ..) _ h

theorem Device.flushFor_stored {d : Device} (h : d.stored = true) (l : Launch) : (d.flushFor l).stored = true := by
  unfold Device.flushFor
  extract_lets mine due e
  have he : e.stored = true := foldl_stored (fun _ p hd => Device.modLaunch_stored
    (Device.releaseFlush_stored hd _) ..) due h
  split
  · exact h
  · exact Device.dropProxies_stored he mine

theorem Device.eraseRes {d : Device} (h : d.stored = true) (rk : Nat) :
    { d with ress := eraseK rk d.ress }.stored = true := by
  obtain ⟨hm, hv, hh, hr⟩ := (Device.stored_iff d).mp h
  exact (Device.stored_iff _).mpr ⟨hm, hv, hh, fun p hp => hr p (List.mem_filter.mp hp).1⟩

theorem Device.freeRes_stored {d : Device} (h : d.stored = true) (rk : Nat) : (d.freeRes rk).stored = true := by
  unfold Device.freeRes
  extract_lets c slot d₁ d₂
  have h₁ : d₁.stored = true := Device.siftFinish_stored h c rk
  have h₂ : d₂.stored = true := Device.modCore_stored h₁ c _
  exact Device.eraseRes (d := d₂.dropHarts rk) (Device.dropHarts_stored h₂ rk) rk

theorem Device.modPlace_stored {d : Device} (h : d.stored = true) (seq k : Nat) (f : Placement → Placement) :
    (d.modPlace seq k f).stored = true := h

theorem Device.settleRes_stored {d : Device} (h : d.stored = true) (rk : Nat) : (d.settleRes rk).stored = true :=
  foldl_stored (fun _ b hd => Device.drainReds_stored hd rk b 0) _
    (foldl_stored (fun _ x hd => Device.xferEnd_stored hd _ x) _ h)

theorem Device.complWrite_stored {d : Device} (h : d.stored = true) (l : Launch) : (d.complWrite l).1.stored = true := by
  have ht := Device.globalAt_stored h (l.cores.headD 0) l.record.ctx .write l.record.compl.toNat
  unfold Device.complWrite
  dsimp only
  generalize d.globalAt (l.cores.headD 0) l.record.ctx .write l.record.compl.toNat = t at ht ⊢
  split
  · exact h
  · obtain ⟨e, t⟩ := t
    cases t with
    | fail f => exact ht
    | wait w =>
      cases w with
      | ats ctx va =>
        dsimp only
        split <;> exact ht
      | _ => exact ht
    | ok p =>
      cases p with
      | mem st => exact Device.colWrite_stored ht _ 8 ..
      | host a => exact Device.withHost_stored ht (Memory.wf_write _ _ 8 _ (Device.host_wf ht))
      | pool o => exact ht

theorem Device.endWrites_stored {d : Device} (h : d.stored = true) (l : Launch) : (d.endWrites l).stored = true := by
  unfold Device.endWrites
  have hw := Device.complWrite_stored h l
  dsimp only
  generalize d.complWrite l = w at hw ⊢
  obtain ⟨e, w⟩ := w
  cases w with
  | none => exact hw
  | some cwf =>
    refine Device.modLaunch_stored (Device.complWrite_stored ?_ l) ..
    split
    · exact h
    · split
      · exact Device.releaseFlush_stored h _
      · exact h

theorem Device.endFree_stored {d : Device} (h : d.stored = true) (l : Launch) : (d.endFree l).stored = true :=
  Device.journalWrite_stored h _

theorem Device.launchEnds_stored {d : Device} (h : d.stored = true) (l : Launch) : (d.launchEnds l).stored = true := by
  unfold Device.launchEnds
  grind [Device.stored_eq, Device.endFree_stored, Device.endWrites_stored]

theorem Device.settleFaults_stored {d : Device} (h : d.stored = true) (rk : Nat) :
    (d.settleFaults rk).stored = true := by
  unfold Device.settleFaults
  split
  · exact h
  · refine Device.modRes_stored h rk _ fun r hr => ?_
    split <;> exact hr

theorem Device.gangAnswered_stored {d : Device} (h : d.stored = true) (rk base : Nat) :
    (d.gangAnswered rk base).stored = true := by
  unfold Device.gangAnswered
  cases d.gang? rk base with
  | none => exact h
  | some g =>
    dsimp only
    have hc := Device.settleFaults_stored (Device.setGang_stored h rk base { g with faults := [], faultFails := [] })
      rk
    split
    · exact h
    · cases g.faults.find? fun t => t.resolved == some 2 with
      | some t => exact Device.killBy_stored hc ..
      | none =>
        cases g.faults.find? fun t => t.resolved == some 1 with
        | some t => exact Device.takeTrap_stored hc ..
        | none => exact hc

theorem Device.answerHart_stored {d : Device} (h : d.stored = true) (f : FaultRec) (act : Nat) :
    (d.answerHart f act).stored = true := by
  unfold Device.answerHart
  cases d.faultRes f with
  | none => exact h
  | some rk => exact Device.gangAnswered_stored (Device.modGang_stored h ..) ..

theorem Device.placeTrap_stored {d : Device} (h : d.stored = true) (seq : Nat) (p : Placement) (b : Nat)
    (t : EngTrap) : (d.placeTrap seq p b t).stored = true := by
  unfold Device.placeTrap
  split
  · exact h
  · exact Device.kill_stored h ..

theorem Device.dropSavedOf {d : Device} (h : d.stored = true) (rk seq : Nat) :
    (d.modRes rk fun r => { r with saved := dropSaved r.saved seq }).stored = true :=
  Device.modRes_stored h rk _ fun _ hr => hr

theorem Device.deliverSaved_stored {d : Device} (h : d.stored = true) (f : FaultRec) (tval : Word) :
    (d.deliverSaved f tval).stored = true := by
  unfold Device.deliverSaved
  dsimp only
  cases d.ress.findSome? fun p => (faultSaved p.2.saved f.seq).map fun x => (p.1, x) with
  | some p => exact Device.engTrap_stored (Device.dropSavedOf h p.1 f.seq) ..
  | none =>
    dsimp only
    cases d.launch? f.launch with
    | none => exact h
    | some l =>
      dsimp only
      cases l.places.findSome? fun p => (faultSaved p.saved f.seq).map fun x => (p, x) with
      | none => exact h
      | some p => exact Device.placeTrap_stored (Device.modLaunch_stored h ..) ..

theorem Device.answerCmd_stored {d : Device} (h : d.stored = true) (f : FaultRec) (k act : Nat) :
    (d.answerCmd f k act).stored = true := by
  unfold Device.answerCmd
  split
  · exact Device.kill_stored h ..
  · split
    · split
      · exact Device.setSlot_stored h ..
      · exact h
    · exact h
  · split
    · exact Device.engTrap_stored (Device.setSlot_stored h ..) ..
    · exact Device.deliverSaved_stored h f _

theorem Device.settleCmd_stored {d : Device} (h : d.stored = true) (f : FaultRec) : (d.settleCmd f).stored = true := by
  unfold Device.settleCmd
  cases d.faultRes f with
  | none => exact h
  | some rk => exact Device.settleFaults_stored h rk

theorem Device.resolve_stored {d : Device} (h : d.stored = true) (seq act : Nat) :
    (d.resolve seq act).stored = true := by
  unfold Device.resolve
  cases d.faultOf seq with
  | none => exact Device.setHwd_stored h
  | some f =>
    have hd : { d with faults := d.faults.filter fun g => g.seq != seq }.stored = true := h
    dsimp only
    cases f.cmd with
    | some k => exact Device.settleCmd_stored (Device.answerCmd_stored hd f k act) f
    | none => exact Device.answerHart_stored hd f act

theorem Device.setRing_stored {d : Device} (h : d.stored = true) (i : RingId) (r : Ring) :
    (d.setRing i r).stored = true := by
  cases i with
  | queue c => exact h
  | journal => exact h
  | faultLog =>
    have hd : { d with faultLog := r }.stored = true := h
    exact Device.flushFaults_stored hd

theorem launchRec_stored {s : State} (h : s.stored = true) (d : XReg) (addr v : Nat) (r : Residence) (k : Nat) :
    (launchRec d addr v r k s).stored = true := by
  unfold launchRec
  extract_lets rec_ put no l t
  have hput : ∀ x t, t.stored = true → (put x t).stored = true := fun x t ht => writeReg_stored ht k ..
  have hno : ∀ t st, t.stored = true → (no t st).stored = true := fun t st ht =>
    hput _ _ (State.modDev_stored ht (Device.refuse_stored (State.stored_dev ht) ..))
  have hl : t.stored = true := State.stored_with_dev h
    (readLists_stored (fun a n _ hd => Device.ldList_stored hd s.iss.core s.rk r a n) rec_ (State.stored_dev h))
  split
  · exact hno _ _ h
  · split
    · rfl
    · rfl
    · exact hno _ _ hl
    · dsimp only
      split
      · exact hno _ _ hl
      · exact hput _ _ (State.modDev_stored hl (Device.acceptLaunch_stored (State.stored_dev hl) ..))

theorem launchOn_stored {s : State} (h : s.stored = true) (d base : XReg) (disp : Src) (k : Nat) :
    (launchOn d base disp k s).stored = true := by
  unfold launchOn
  extract_lets va
  split
  · rfl
  · have hf := fenceOn_stored h 0x0F k
    generalize fenceOn 0x0F k s = w at hf ⊢
    cases w with
    | fail f => rfl
    | hold w => rfl
    | ok s =>
      dsimp only
      cases s.res? with
      | none => exact hf
      | some r =>
        have hx := State.stored_with_dev hf (Device.ldList_stored (State.stored_dev hf) s.iss.core s.rk r va 128)
        dsimp only
        generalize Device.ldList s.iss.core s.rk r va 128 s.dev = x at hx ⊢
        obtain ⟨e, x⟩ := x
        split
        · rfl
        · rfl
        · exact hx
        · split
          · rfl
          · exact launchRec_stored hx d va _ r k

theorem depdecOn_stored {s : State} (h : s.stored = true) (d a : XReg) (n : Src) (k : Nat) :
    (depdecOn d a n k s).stored = true := by
  unfold depdecOn
  extract_lets m q
  split
  · rfl
  · have hf := fenceOn_stored h 0xFF k
    generalize fenceOn 0xFF k s = w at hf ⊢
    cases w with
    | fail f => rfl
    | hold w => rfl
    | ok s =>
      dsimp only
      cases s.dev.launch? q.toNat with
      | none => exact writeReg_stored hf k ..
      | some l =>
        have hm := fun f => State.modDev_stored hf (f := fun x => x.modLaunch l.seq f)
          (Device.modLaunch_stored (State.stored_dev hf) l.seq f)
        dsimp only
        split
        · exact writeReg_stored (hm _) k ..
        · exact softTrap_stored (writeReg_stored (hm _) k ..) _ _ _ k

theorem execQueueEntryConsume_stored {s : State} (h : s.stored = true) (c : Fin 4) :
    Out.stored (execQueueEntryConsume c s) = true := by
  have hd := State.stored_dev h
  refine State.modDev_stored h ?_
  split
  · exact Device.consume_stored hd c
  · exact hd

theorem execLaunchLeaveWaits_stored {s : State} (h : s.stored = true) (seq : Nat) :
    Out.stored (execLaunchLeaveWaits seq s) = true := by
  have hd := State.stored_dev h
  refine State.modDev_stored h ?_
  cases s.dev.launch? seq with
  | none => exact hd
  | some l =>
    dsimp only
    split
    · exact Device.modLaunch_stored (Device.flushFor_stored hd l) seq _
    · exact hd

theorem execPlacementEnd_stored {s : State} (h : s.stored = true) (seq k : Nat) :
    Out.stored (execPlacementEnd seq k s) = true := by
  have hd := State.stored_dev h
  refine State.modDev_stored h ?_
  cases s.dev.placeEnds seq k with
  | none => exact hd
  | some rk => exact Device.modPlace_stored (Device.freeRes_stored (Device.settleRes_stored hd rk) rk) seq k _

theorem execLaunchEnd_stored {s : State} (h : s.stored = true) (seq : Nat) :
    Out.stored (execLaunchEnd seq s) = true := by
  have hd := State.stored_dev h
  refine State.modDev_stored h ?_
  cases s.dev.launch? seq with
  | none => exact hd
  | some l => exact Device.launchEnds_stored hd l

theorem execQtail_stored {s : State} (h : s.stored = true) (c : Fin 4) (v : Word) :
    Out.stored (execQtail c v s) = true := by
  have hd := State.stored_dev h
  refine State.modDev_stored h ?_
  split
  · exact Device.setHwd_stored hd
  · exact Device.setRing_stored (Device.serveHosts_stored hd) ..

theorem execQsize_stored {s : State} (h : s.stored = true) (r : RingId) (v : Word) :
    Out.stored (execQsize r v s) = true := by
  have hd := State.stored_dev h
  refine State.modDev_stored h ?_
  dsimp only
  split
  · exact Device.setHwd_stored hd
  · exact Device.setRing_stored hd ..

theorem execQbase_stored {s : State} (h : s.stored = true) (r : RingId) (v : Word) :
    Out.stored (execQbase r v s) = true := by
  have hd := State.stored_dev h
  refine State.modDev_stored h ?_
  dsimp only
  split
  · exact Device.setHwd_stored hd
  · exact Device.setRing_stored hd ..

theorem headWrite_stored {s : State} (h : s.stored = true) (r : RingId) (v : Word) :
    Out.stored (headWrite r v s) = true := by
  have hd := State.stored_dev h
  refine State.modDev_stored h ?_
  dsimp only
  split
  · exact Device.setHwd_stored hd
  · exact Device.setRing_stored hd ..

theorem execJournalHead_stored {s : State} (h : s.stored = true) (v : Word) :
    Out.stored (execJournalHead v s) = true := headWrite_stored h ..

theorem execFaultLogHead_stored {s : State} (h : s.stored = true) (v : Word) :
    Out.stored (execFaultLogHead v s) = true := headWrite_stored h ..

theorem execFresRetry_stored {s : State} (h : s.stored = true) (seq : BitVec 62) :
    Out.stored (execFresRetry seq s) = true := State.modDev_stored h (Device.resolve_stored (State.stored_dev h) _ 0)

theorem execFresDeliver_stored {s : State} (h : s.stored = true) (seq : BitVec 62) :
    Out.stored (execFresDeliver seq s) = true :=
  State.modDev_stored h (Device.resolve_stored (State.stored_dev h) _ 1)

theorem execFresEnd_stored {s : State} (h : s.stored = true) (seq : BitVec 62) :
    Out.stored (execFresEnd seq s) = true := State.modDev_stored h (Device.resolve_stored (State.stored_dev h) _ 2)

theorem execTqseq_stored {s : State} (h : s.stored = true) (v : Word) : Out.stored (execTqseq v s) = true := by
  have hd := State.stored_dev h
  refine State.modDev_stored h ?_
  split
  · exact Device.setHwd_stored hd
  · exact hd

theorem execTableQueryResult_stored {s : State} (h : s.stored = true) : Out.stored (execTableQueryResult s) = true := by
  have hd := State.stored_dev h
  refine State.modDev_stored h ?_
  split <;> exact hd

/-! ### `Machine/Frames` -/

theorem framesWritten (d : Device) (rk : Nat) (latches : Nat → List FField) (r : Residence) (l : List Nat)
    {m : Memory} (h : m.wf = true) :
    (l.foldl (fun (m : Memory) k => m.write (1024 * k) 1024 (d.frameOf rk k r (latches k))) m).wf = true := by
  induction l generalizing m with
  | nil => exact h
  | cons k l ih => exact ih (Memory.wf_write m _ _ _ h)

theorem Device.writeFrames_stored {d : Device} (h : d.stored = true) (rk : Nat) (latches : Nat → List FField) :
    (d.writeFrames rk latches).stored = true := by
  refine Device.modRes_stored h rk _ fun r hr => ?_
  obtain ⟨hs, hf⟩ := (Residence.memOk_iff r).mp hr
  exact (Residence.memOk_iff _).mpr ⟨hs, framesWritten d rk latches r _ hf⟩

theorem Device.setMxOf {d : Device} (h : d.stored = true) (rk : Nat) (l : List MxEntry) :
    (d.modRes rk fun r => { r with mx := l }).stored = true := Device.modRes_stored h rk _ fun _ hr => hr

theorem Device.setMx_stored {d : Device} (h : d.stored = true) (rk : Nat) (l : List MxEntry) :
    (d.setMx rk l).stored = true := by
  unfold Device.setMx
  dsimp only
  split
  · exact Device.modCore_stored (Device.setMxOf h rk []) ..
  · exact Device.setMxOf h rk l

theorem Device.readMx_stored {d : Device} (h : d.stored = true) (rk base : Nat) : (d.readMx rk base).stored = true := by
  unfold Device.readMx
  cases d.res? rk with
  | none => exact h
  | some r => exact Device.setMx_stored h rk _

theorem Device.readFrames_stored {d : Device} (h : d.stored = true) (rk : Nat) : (d.readFrames rk).stored = true := by
  unfold Device.readFrames
  cases d.res? rk with
  | none => exact h
  | some r =>
    exact Device.modRes_stored (foldl_stored (fun _ p hd => Device.readMx_stored (Device.modGang_stored hd rk p.1 _)
      rk p.1) _
      (foldl_stored (fun _ k hd => Device.modHart_stored hd rk k _) _ h)) rk _ fun _ hr => hr

theorem Device.areaWrite_stored {d : Device} (h : d.stored = true) (base off n v : Nat) (bad : List Nat) :
    (d.areaWrite base off n v bad).stored = true := by
  refine foldl_stored (fun d p hd => ?_) _ h
  extract_lets key d₁ d₂ inside
  have h₁ : d₁.stored = true := Device.releaseFor_stored hd key _
  have h₂ : d₂.stored = true := Device.modBank_stored h₁ ..
  have hm := Memory.wf_write d₂.mem key p.2 (v / 2 ^ (8 * (p.1 - off))) ((Device.stored_iff d₂).mp h₂).1
  exact Device.withMem_stored h₂ _ hm

theorem Device.areaTouch_stored {d : Device} (h : d.stored = true) (base off n : Nat) :
    (d.areaTouch base off n).stored = true := foldl_stored (fun _ _ hd => Device.releaseFor_stored hd ..) _ h

theorem Device.writeCmdArea_stored {d : Device} (h : d.stored = true) (rk : Nat) :
    (d.writeCmdArea rk).stored = true := by
  unfold Device.writeCmdArea
  cases d.res? rk with
  | none => exact h
  | some r =>
    dsimp only
    cases d.launch? r.seq with
    | none => exact h
    | some l =>
      dsimp only
      refine Device.bankWrite_stored ?_ _ 8 ..
      split
      · exact h
      · exact Device.areaWrite_stored h ..

end Sys2Proof.Machine
end

