-- ==== Sys2Proof/Proofs/StoredSched.lean ====
section
/-! PROOF. The canonical form along the schedulers and the traps of a boundary. -/

namespace Sys2Proof.Machine

/-! ### `Machine/Sched` -/

theorem Device.stopEntry_stored {d : Device} (h : d.stored = true) (c : Nat) (e : MxEntry) :
    (Device.stopEntry c d e).stored = true := Device.modCore_stored (Device.mxRows_stored h c e _) c _

theorem Device.stopRows_stored {d : Device} (h : d.stored = true) (c rk : Nat) : (d.stopRows c rk).stored = true :=
  foldl_stored (fun _ e hd => Device.stopEntry_stored hd c e) _ h

theorem Device.haltRows_stored {d : Device} (h : d.stored = true) (c rk : Nat) : (d.haltRows c rk).stored = true :=
  foldl_stored (fun _ e hd => Device.stopEntry_stored hd c e) _ h

theorem Device.stopMatrix_stored {d : Device} (h : d.stored = true) (c : Nat) : (d.stopMatrix c).stored = true :=
  Device.modCore_stored (foldl_stored (fun _ id hd => Device.busDrop_stored hd c id) _ h) c _

theorem Device.askSwitch_stored {d : Device} (h : d.stored = true) (c : Nat) (dest : Option (Fin 3)) :
    (d.askSwitch c dest).stored = true := by
  unfold Device.askSwitch
  refine Device.modCore_stored ?_ c _
  split
  · exact Device.haltRows_stored (Device.preempt_stored h _) c _
  · exact h

theorem Device.pushOwn_stored {d : Device} (h : d.stored = true) (c b : Nat) (g : Lat) (ops : List RowOp) :
    (d.pushOwn c b g ops).stored = true := h

theorem Device.eachGroup_stored {d : Device} (h : d.stored = true) {f : Device → Nat → Lat → Device}
    (hf : ∀ d b g, d.stored = true → (f d b g).stored = true) : (d.eachGroup f).stored = true :=
  foldl_stored (fun _ b hd => foldl_stored (fun _ g he => hf _ b g he) _ hd) _ h

theorem Device.beginSpill_stored {d : Device} (h : d.stored = true) (c : Nat) (slot : Fin 3) :
    (d.beginSpill c slot).stored = true := by
  have hs := Device.stopMatrix_stored (Device.saveCmds_stored h c (resKey c slot)) c
  refine Device.modCore_stored (Device.eachGroup_stored hs fun d b g hd => ?_) c _
  exact Device.pushOwn_stored hd c b g _

theorem Device.finishSpill_stored {d : Device} (h : d.stored = true) (c : Nat) (s : Fin 3) (byClass0 : Bool) :
    (d.finishSpill c s byClass0).stored = true := by
  unfold Device.finishSpill
  extract_lets rk d₁ d₂ mx d₃ d₄
  have h₁ : d₁.stored = true := Device.mapHarts_stored h rk _
  have h₂ : d₂.stored = true := by
    unfold d₂
    cases d₁.res? rk with
    | none => exact h₁
    | some r =>
      dsimp only
      split
      · exact h₁
      · exact Device.writeFrames_stored h₁ rk _
  have h₃ : d₃.stored = true := Device.eachGroup_stored h₂ fun d b g hd => by
    split
    · exact Device.modGroup_stored hd c b g _
    · exact hd
  have h₄ : d₄.stored = true := Device.modCore_stored h₃ c _
  have h₅ : (d₄.modRes rk fun r => { r with spilled := true, mx := mx, aged := r.aged && byClass0 }).stored = true :=
    Device.modRes_stored h₄ rk _ fun _ hr => hr
  exact Device.writeCmdArea_stored h₅ rk

theorem Device.unspilled {d : Device} (h : d.stored = true) (rk : Nat) :
    (d.modRes rk fun r => { r with spilled := false, quantum := 0, fresh := true, mx := [] }).stored = true :=
  Device.modRes_stored h rk _ fun _ hr => hr

theorem Device.beginRestore_stored {d : Device} (h : d.stored = true) (c : Nat) (s : Fin 3) :
    (d.beginRestore c s).stored = true := by
  unfold Device.beginRestore
  extract_lets rk
  cases d.res? rk with
  | none => exact Device.modCore_stored h c _
  | some r =>
    refine Device.modCore_stored (Device.unspilled (Device.eachGroup_stored h fun d b g hd => ?_) rk) c _
    extract_lets v x y e
    have he : e.stored = true := by
      unfold e
      split
      · exact hd
      · exact Device.modGroup_stored hd c b g _
    split
    · exact Device.pushOwn_stored he c b g _
    · exact he

theorem Device.finishRestore_stored {d : Device} (h : d.stored = true) (c : Nat) (s : Fin 3) :
    (d.finishRestore c s).stored = true := by
  unfold Device.finishRestore
  extract_lets rk e
  have he : e.stored = true := foldl_stored (fun _ b hd => Device.drainReds_stored hd rk b 0) _ h
  exact Device.modCore_stored (Device.mapGangs_stored he rk _) c _

theorem Device.enter_stored {d : Device} (h : d.stored = true) (c : Nat) (dest : Option (Fin 3)) :
    (d.enter c dest).stored = true := by
  cases dest with
  | none => exact Device.modCore_stored h c _
  | some t => exact Device.beginRestore_stored h c t

theorem Device.switchNext_stored {d : Device} (h : d.stored = true) (c : Nat) (q : SwitchReq) :
    (d.switchNext c q).stored = true := by
  unfold Device.switchNext
  split
  · exact Device.enter_stored h c _
  · split
    · exact Device.finishRestore_stored h c _
    · exact Device.beginSpill_stored h c _
  · exact Device.enter_stored (Device.finishSpill_stored h c ..) c _
  · exact Device.enter_stored h c _
  · exact Device.finishRestore_stored h c _
  · exact Device.modCore_stored h c _

theorem Device.switchStep_stored {d : Device} (h : d.stored = true) (c : Nat) : (d.switchStep c).stored = true := by
  unfold Device.switchStep
  cases (d.core c).switch with
  | some q =>
    dsimp only
    split
    · exact Device.switchNext_stored h c q
    · exact h
  | none =>
    dsimp only
    cases d.switchDue c with
    | some dest => exact Device.askSwitch_stored h c dest
    | none => exact h

theorem Device.enterNow_stored {d : Device} (h : d.stored = true) (c : Nat) (s : Fin 3) :
    (d.enterNow c s).stored = true := Device.finishRestore_stored (Device.beginRestore_stored h ..) ..

theorem Device.writeArea_stored {d : Device} (h : d.stored = true) (c : Nat) (s : Fin 3) (r : Residence)
    (base : Nat) : (d.writeArea c s r base).stored = true := by
  unfold Device.writeArea
  generalize imageBytes = len
  extract_lets rk d₁ d₂ mine d₃ d₄ d₅ d₆ n d₇ d₈
  have h₁ : d₁.stored = true := Device.areaWrite_stored h base ..
  have h₂ : d₂.stored = true := foldl_stored (fun _ k hd => foldl_stored (fun _ j he => Device.areaWrite_stored he
    base ..) _ hd) _ h₁
  have h₃ : d₃.stored = true := Device.bankWrite_stored h₂ _ 8 ..
  have h₄ : d₄.stored = true := Device.bankWrite_stored h₃ _ 8 ..
  have h₅ : d₅.stored = true := by
    unfold d₅
    cases d₄.siftOf c rk with
    | none => exact h₄
    | some f => exact foldl_stored (fun _ p hd => Device.bankWrite_stored hd _ 16 ..) _ h₄
  have h₆ : d₆.stored = true := foldl_stored (fun _ n hd => Device.areaWrite_stored (Device.releaseFor_stored hd ..)
    base ..) _ h₅
  have h₇ : d₇.stored = true := Device.areaWrite_stored h₆ base ..
  have h₈ : d₈.stored = true := Device.areaWrite_stored h₇ base ..
  exact foldl_stored (fun _ p hd => Device.areaWrite_stored hd base ..) mine h₈

theorem Device.standHome_stored {d : Device} (h : d.stored = true) (stand : Nat) :
    (d.standHome stand).stored = true := foldl_stored (fun _ p hd => Device.writeHome_stored hd p) _ h

theorem Device.evict_stored {d : Device} (h : d.stored = true) (c : Nat) (s : Fin 3) : (d.evict c s).stored = true := by
  unfold Device.evict
  extract_lets rk e
  have he : e.stored = true := Device.standHome_stored (Device.writeFrames_stored h rk _) _
  cases e.res? rk with
  | none => exact he
  | some r =>
    dsimp only
    cases e.launch? r.seq with
    | none => exact he
    | some l =>
      have hw : (e.writeArea c s r (saveBase l r.k)).stored = true := Device.writeArea_stored he c s r _
      dsimp only
      generalize e.writeArea c s r (saveBase l r.k) = w at hw ⊢
      refine Device.modPlace_stored (Device.freeRes_stored ?_ rk) ..
      cases w.siftOf c rk with
      | none => exact hw
      | some f => exact Device.setSifter_stored hw c _

theorem Device.evictStep_stored {d : Device} (h : d.stored = true) (c : Nat) (s : Fin 3) :
    (d.evictStep c s).stored = true := by
  unfold Device.evictStep
  split
  · exact Device.askSwitch_stored h ..
  · exact Device.evict_stored h ..

theorem Device.newRes_memOk (l : Launch) (k now : Nat) : (Device.newRes l k now).memOk = true := by
  rfl

theorem Device.bindSlots_stored {d : Device} (h : d.stored = true) (c rk : Nat) (int : Fin 6 → Bool)
    (l : List (Fin 6)) : (d.bindSlots c rk int l).stored = true := by
  refine foldl_stored (fun d i hd => ?_) l h
  cases d.freeSlot c with
  | none => exact hd
  | some k => exact Device.bindSlot_stored hd c rk k i _

theorem Device.useBanks_stored {d : Device} (h : d.stored = true) (c : Nat) (m : Mask16) :
    (d.useBanks c m).stored = true := foldl_stored (fun _ b hd => Device.modBank_stored hd c b _) _ h

theorem Device.createRes_stored {d : Device} (h : d.stored = true) (l : Launch) (k c : Nat) (s : Fin 3) :
    (d.createRes l k c s).stored = true := by
  unfold Device.createRes
  extract_lets rk r n d₁ d₂ d₃ d₄
  have h₁ : d₁.stored = true := Device.setRes_stored (Device.dropHarts_stored (Device.useBanks_stored h c _) rk) rk
    (Device.newRes_memOk l k d.now)
  have h₂ : d₂.stored = true := foldl_stored (fun _ b hd => Device.setHart_stored hd rk b _) _ h₁
  have h₃ : d₃.stored = true := foldl_stored (fun _ b hd => Device.setGang_stored hd rk b _) _ h₂
  have h₄ : d₄.stored = true := Device.writeFrames_stored h₃ rk _
  exact Device.bindSlots_stored h₄ c rk ..

theorem Device.restoreRes_stored {d : Device} (h : d.stored = true) (l : Launch) (p : Placement) (c : Nat)
    (s : Fin 3) : (d.restoreRes l p c s).stored = true := by
  unfold Device.restoreRes
  generalize imageBytes = len
  extract_lets rk base r n d₁ tags r' bound d₂ d₃ d₄ d₅ ls d₆ d₇ free d₈
  have h₁ : d₁.stored = true := foldl_stored (fun _ q hd => Device.areaTouch_stored hd base ..) _ h
  have hr : r'.memOk = true := (Residence.memOk_iff r').mpr
    ⟨Memory.wf_write [] _ _ _ Memory.wf_nil, Memory.wf_write [] _ _ _ Memory.wf_nil⟩
  have h₂ : d₂.stored = true := Device.setRes_stored (Device.dropHarts_stored (Device.useBanks_stored h₁ c _) rk) rk
    hr
  have h₃ : d₃.stored = true := foldl_stored (fun _ q hd => Device.setHart_stored hd rk ..) _ h₂
  have h₄ : d₄.stored = true := foldl_stored (fun _ q hd => Device.setGang_stored hd rk ..) _ h₃
  have h₅ : d₅.stored = true := foldl_stored (fun _ n hd => Device.rowWrite_stored
    (Device.releaseFor_stored hd ..) ..) _ h₄
  have h₆ : d₆.stored = true := Device.bindSlots_stored h₅ c rk _ ls
  have h₇ : d₇.stored = true := foldl_stored (fun _ i hd => Device.modSlot_stored hd c ..) ls h₆
  have h₈ : d₈.stored = true := Device.modRes_stored h₇ rk _ fun _ hr => hr
  cases p.sift with
  | none => exact h₈
  | some f => exact Device.setSifter_stored h₈ c _

theorem Device.placeIn_stored {d : Device} (h : d.stored = true) (l : Launch) (p : Placement) (c : Nat) (s : Fin 3) :
    (d.placeIn l p c s).stored = true := by
  unfold Device.placeIn
  extract_lets d₁ d₂ d₃
  have h₁ : d₁.stored = true := by
    unfold d₁
    split
    · exact Device.restoreRes_stored h l p c s
    · exact Device.createRes_stored h l p.k c s
  have h₂ : d₂.stored = true := Device.modLaunch_stored h₁ ..
  have h₃ : d₃.stored = true := Device.trimCache_stored h₂ c _
  split
  · exact Device.enterNow_stored h₃ c s
  · exact h₃

theorem Device.debugStop_stored {d : Device} (h : d.stored = true) (rk : Nat) : (d.debugStop rk).stored = true := by
  unfold Device.debugStop
  extract_lets c e
  have he : e.stored = true := by
    unfold e
    split
    · exact Device.writeFrames_stored (Device.mapHarts_stored (Device.stopRows_stored (Device.preempt_stored h rk) c
        rk) rk _) rk _
    · exact Device.writeFrames_stored h rk _
  exact Device.modRes_stored he rk _ fun _ hr => hr

theorem Device.debugResume_stored {d : Device} (h : d.stored = true) (rk : Nat) : (d.debugResume rk).stored = true := by
  unfold Device.debugResume
  have hr := Device.readFrames_stored h rk
  dsimp only
  generalize d.readFrames rk = e at hr ⊢
  cases e.res? rk with
  | none => exact hr
  | some r =>
    refine Device.modRes_stored ?_ rk _ fun _ hr => hr
    split
    · exact foldl_stored (fun _ b hd => foldl_stored (fun _ g he => Device.modGroup_stored he _ b g _) _ hd) _ hr
    · exact hr

theorem Device.refPend_stored {d : Device} (h : d.stored = true) (c b : Nat) : (d.refPend c b).stored = true := by
  unfold Device.refPend
  cases (d.core c).issuing with
  | none => exact h
  | some s => exact Device.modHart_stored h _ b _

theorem Device.debtTick_stored {d : Device} (h : d.stored = true) (c b : Nat) : (d.debtTick c b).stored = true := by
  refine Device.modBank_stored ?_ c b _
  split
  · exact Device.refPend_stored h c b
  · exact h

theorem Device.setHot_stored {d : Device} (h : d.stored = true) (stand : Nat) (hot : Bool) :
    (d.setHot stand hot).stored = true := by
  unfold Device.setHot
  split <;> exact h

theorem Device.planHot_stored {d : Device} (h : d.stored = true) (stand : Nat) : (d.planHot stand).stored = true :=
  Device.setHot_stored h ..

theorem Device.warmthSet_stored {d : Device} (h : d.stored = true) (stand : Nat) (warm : Bool) :
    (d.setWarm stand warm).stored = true := by
  have hw : { d with warm := if warm then d.warm ||| bitOf stand else d.warm &&& ~~~ bitOf stand }.stored = true := h
  exact Device.planHot_stored hw stand

theorem Device.ownPre_stored {d : Device} (h : d.stored = true) (c b : Nat) (g : Lat) :
    (d.ownPre c b g).stored = true := by
  have hc := Device.closeSense_stored h c b g d.now
  unfold Device.ownPre
  dsimp only
  split
  · exact Device.modBank_stored hc c b _
  · exact hc

theorem execClass0Request_stored {s : State} (h : s.stored = true) (core : Fin 2048) :
    Out.stored (execClass0Request core s) = true := by
  have hd := State.stored_dev h
  refine State.modDev_stored h ?_
  cases s.dev.class0Next core with
  | none => exact hd
  | some t => exact Device.askSwitch_stored hd ..

theorem Device.setAged {d : Device} (h : d.stored = true) (rk : Nat) (v : Bool) :
    (d.modRes rk fun r => { r with aged := v }).stored = true := Device.modRes_stored h rk _ fun _ hr => hr

theorem execQuantumExpiry_stored {s : State} (h : s.stored = true) (core : Fin 2048) :
    Out.stored (execQuantumExpiry core s) = true := by
  have hd := State.stored_dev h
  refine State.modDev_stored h ?_
  cases s.dev.quantumNext core with
  | some t => exact Device.askSwitch_stored hd ..
  | none =>
    cases (s.dev.core core).issuing with
    | none => exact hd
    | some slot =>
      dsimp only
      split
      · exact Device.setAged hd _ false
      · exact hd

theorem execIdleYield_stored {s : State} (h : s.stored = true) (core : Fin 2048) :
    Out.stored (execIdleYield core s) = true := by
  have hd := State.stored_dev h
  refine State.modDev_stored h ?_
  cases s.dev.idleNext core with
  | none => exact hd
  | some t => exact Device.askSwitch_stored hd ..

theorem execAgeingPromotion_stored {s : State} (h : s.stored = true) (core : Fin 2048) (slot : Fin 3) :
    Out.stored (execAgeingPromotion core slot s) = true := by
  have hd := State.stored_dev h
  refine State.modDev_stored h ?_
  split
  · exact Device.setAged hd _ true
  · exact hd

theorem execContextSwitch_stored {s : State} (h : s.stored = true) (core : Fin 2048) :
    Out.stored (execContextSwitch core s) = true :=
  State.modDev_stored h (Device.switchStep_stored (State.stored_dev h) _)

theorem execEviction_stored {s : State} (h : s.stored = true) (core : Fin 2048) (slot : Fin 3) :
    Out.stored (execEviction core slot s) = true := by
  have hd := State.stored_dev h
  refine State.modDev_stored h ?_
  split
  · exact Device.evictStep_stored hd ..
  · exact hd

theorem execAdmission_stored {s : State} (h : s.stored = true) (seq k : Nat) (core : Fin 2048) (slot : Fin 3) :
    Out.stored (execAdmission seq k core slot s) = true := by
  have hd := State.stored_dev h
  refine State.modDev_stored h ?_
  cases s.dev.admits? seq k core slot with
  | none => exact hd
  | some p => exact Device.placeIn_stored hd ..

theorem execDebugStop_stored {s : State} (h : s.stored = true) (core : Fin 2048) (slot : Fin 3) :
    Out.stored (execDebugStop core slot s) = true := by
  have hd := State.stored_dev h
  refine State.modDev_stored h ?_
  split
  · exact Device.debugStop_stored hd _
  · exact hd

theorem execDebugArm_stored {s : State} (h : s.stored = true) (ctx : BitVec 12) (on : Bool) :
    Out.stored (execDebugArm ctx on s) = true := State.modDev_stored h (State.stored_dev h)

theorem execDebugStopRequest_stored {s : State} (h : s.stored = true) (ctx : BitVec 12) :
    Out.stored (execDebugStopRequest ctx s) = true := by
  have hd := State.stored_dev h
  refine State.modDev_stored h ?_
  split <;> exact hd

theorem execDebugResume_stored {s : State} (h : s.stored = true) (ctx : BitVec 12) :
    Out.stored (execDebugResume ctx s) = true := by
  refine State.modDev_stored h ?_
  extract_lets l e
  have he : e.stored = true := foldl_stored (fun _ p hd => Device.debugResume_stored hd _) l (State.stored_dev h)
  exact he

theorem execDebtTick_stored {s : State} (h : s.stored = true) (core : Fin 2048) (bank : Fin 16) :
    Out.stored (execDebtTick core bank s) = true := by
  have hd := State.stored_dev h
  refine State.modDev_stored h ?_
  split
  · exact Device.debtTick_stored hd ..
  · exact hd

theorem execHotChange_stored {s : State} (h : s.stored = true) (stand : Fin 16) (hot : Bool) :
    Out.stored (execHotChange stand hot s) = true :=
  State.modDev_stored h (Device.warmthSet_stored (State.stored_dev h) ..)

theorem execAutoRefInsert_stored {s : State} (h : s.stored = true) (core : Fin 2048) (bank : Fin 16) (g : Lat) :
    Out.stored (execAutoRefInsert core bank g s) = true := by
  have hd := State.stored_dev h
  refine State.modDev_stored h ?_
  split
  · exact Device.insertRef_stored hd ..
  · exact hd

theorem execForcedRefresh_stored {s : State} (h : s.stored = true) (core : Fin 2048) (bank : Fin 16) (g : Lat) :
    Out.stored (execForcedRefresh core bank g s) = true := by
  have hd := State.stored_dev h
  refine State.modDev_stored h ?_
  split
  · exact Device.forceRef_stored hd ..
  · exact hd

theorem execBankOwnPrecharge_stored {s : State} (h : s.stored = true) (core : Fin 2048) (bank : Fin 16) (g : Lat) :
    Out.stored (execBankOwnPrecharge core bank g s) = true := by
  have hd := State.stored_dev h
  refine State.modDev_stored h ?_
  split
  · exact Device.ownPre_stored hd ..
  · exact hd

/-! ### `Machine/Traps` -/

theorem Device.trapSoft_stored {d : Device} (h : d.stored = true) (rk base : Nat) (g : Gang) :
    ∀ e, d.trapSoft rk base g = some e → e.stored = true := by
  intro e he
  unfold Device.trapSoft at he
  dsimp only at he
  split at he
  · cases he
  · cases he
    exact Device.takeTrap_stored (foldl_stored (fun _ k hd => Device.modHart_stored hd rk k _) _ h) ..

theorem Device.trapDog_stored {d : Device} (h : d.stored = true) (rk base : Nat) (g : Gang) :
    ∀ e, d.trapDog rk base g = some e → e.stored = true := by
  intro e he
  obtain ⟨v, -, rfl⟩ := Option.map_eq_some_iff.mp he
  exact Device.takeTrap_stored (Device.setGang_stored h rk base _) ..

theorem Device.trapRefresh_stored {d : Device} (h : d.stored = true) (rk base : Nat) (g : Gang) :
    ∀ e, d.trapRefresh rk base g = some e → e.stored = true := by
  intro e he
  unfold Device.trapRefresh at he
  dsimp only at he
  split at he
  · cases he
    exact Device.takeTrap_stored (foldl_stored (fun _ k hd => Device.modHart_stored hd rk k _) _ h) ..
  · cases he

theorem Device.trapEngine_stored {d : Device} (h : d.stored = true) (rk base : Nat) (g : Gang) :
    ∀ e, d.trapEngine rk base g = some e → e.stored = true := by
  intro e he
  obtain ⟨p, -, rfl⟩ := Option.map_eq_some_iff.mp he
  exact Device.takeTrap_stored (Device.modHart_stored h rk ..) ..

theorem Device.dueTrap_stored {d : Device} (h : d.stored = true) (rk base : Nat) (g : Gang) :
    ∀ e, d.dueTrap rk base g = some e → e.stored = true := by
  intro e he
  have hsoft := Device.trapSoft_stored h rk base g
  have hdog := Device.trapDog_stored h rk base g
  have href := Device.trapRefresh_stored h rk base g
  unfold Device.dueTrap at he
  split at he
  · cases he
  · cases hs : d.trapSoft rk base g with
    | some x => rw [hs] at he hsoft; cases he; exact hsoft _ rfl
    | none =>
      rw [hs] at he
      cases hg : d.trapDog rk base g with
      | some x => rw [hg] at he hdog; cases he; exact hdog _ rfl
      | none =>
        rw [hg] at he
        dsimp only at he
        split at he
        · cases he
        · cases hr : d.trapRefresh rk base g with
          | some x => rw [hr] at he href; cases he; exact href _ rfl
          | none => rw [hr] at he; exact Device.trapEngine_stored h rk base g e he

theorem trapEvent_stored {s : State} (h : s.stored = true) (core bank : Nat)
    {f : Device → Nat → Nat → Gang → Option Device}
    (hf : ∀ d rk base g, d.stored = true → ∀ e, f d rk base g = some e → e.stored = true) :
    Out.stored (trapEvent core bank f s) = true := by
  have hd := State.stored_dev h
  refine State.modDev_stored h ?_
  cases s.dev.gangAt core bank with
  | none => exact hd
  | some p =>
    dsimp only
    split
    · cases he : f s.dev p.1 p.2.1 p.2.2 with
      | none => exact hd
      | some e => exact hf _ _ _ _ hd e he
    · exact hd

theorem execSoftwareTrapTaken_stored {s : State} (h : s.stored = true) (core : Fin 2048) (bank : Fin 16) :
    Out.stored (execSoftwareTrapTaken core bank s) = true :=
  trapEvent_stored h _ _ fun _ rk base g hd => Device.trapSoft_stored hd rk base g

theorem execWatchdogTrapTaken_stored {s : State} (h : s.stored = true) (core : Fin 2048) (bank : Fin 16) :
    Out.stored (execWatchdogTrapTaken core bank s) = true :=
  trapEvent_stored h _ _ fun _ rk base g hd e he => by
    split at he
    · cases he
    · exact Device.trapDog_stored hd rk base g e he

theorem execRefreshDeadlineTrap_stored {s : State} (h : s.stored = true) (core : Fin 2048) (bank : Fin 16) :
    Out.stored (execRefreshDeadlineTrap core bank s) = true :=
  trapEvent_stored h _ _ fun _ rk base g hd e he => by
    split at he
    · exact Device.trapRefresh_stored hd rk base g e he
    · cases he

theorem execEngineTrapTaken_stored {s : State} (h : s.stored = true) (core : Fin 2048) (bank : Fin 16) :
    Out.stored (execEngineTrapTaken core bank s) = true :=
  trapEvent_stored h _ _ fun _ rk base g hd e he => by
    split at he
    · exact Device.trapEngine_stored hd rk base g e he
    · cases he

theorem execWatchdogExpiry_stored {s : State} (h : s.stored = true) (core : Fin 2048) (slot : Fin 3) :
    Out.stored (execWatchdogExpiry core slot s) = true := by
  have hd := State.stored_dev h
  refine State.modDev_stored h ?_
  dsimp only
  cases hr : s.dev.res? (resKey core slot) with
  | none => exact hd
  | some r =>
    have hm : r.memOk = true := Device.res_memOk hd hr
    have hw : (r.setWdt r.wdt).memOk = true := hm
    dsimp only
    split
    · exact Device.wdExpire_stored (Device.setRes_stored hd _ hw) _
    · exact hd

end Sys2Proof.Machine
end

