-- ==== Sys2Proof/Proofs/StoredHost.lean ====
section
/-! PROOF. The canonical form along the host interface, the fabric, power and service. -/

namespace Sys2Proof.Machine

/-! ### `Machine/HostIf` -/

theorem Device.afterReset_stored {d : Device} (h : d.stored = true) : d.afterReset.stored = true := by
  obtain ⟨hm, -, hh, -⟩ := (Device.stored_iff d).mp h
  exact (Device.stored_iff _).mpr ⟨Memory.wf_filter _ _ hm, Memory.wf_nil, hh, fun _ hp => nomatch hp⟩

theorem Device.devrst_stored {d : Device} (h : d.stored = true) (v : Word) : (d.devrst v).stored = true := by
  unfold Device.devrst
  split
  · exact Device.setHwd_stored h
  · split
    · exact Device.afterReset_stored h
    · exact h

theorem Device.clearErr_stored {d : Device} (h : d.stored = true) (v : Word) : (d.clearErr v).stored = true := h

theorem Device.setWinbase_stored {d : Device} (h : d.stored = true) (v : Word) : (d.setWinbase v).stored = true := by
  unfold Device.setWinbase
  split <;> exact h

theorem Device.setRtbase_stored {d : Device} (h : d.stored = true) (v : Word) : (d.setRtbase v).stored = true := by
  unfold Device.setRtbase
  split <;> exact h

theorem Device.setPview_stored {d : Device} (h : d.stored = true) (v : Word) : (d.setPview v).stored = true := by
  unfold Device.setPview
  split <;> exact h

theorem Device.setTinv_stored {d : Device} (h : d.stored = true) (v : Word) : (d.setTinv v).stored = true := by
  unfold Device.setTinv
  split <;> exact h

theorem Device.setTinvl_stored {d : Device} (h : d.stored = true) (v : Word) : (d.setTinvl v).stored = true := by
  unfold Device.setTinvl
  split <;> exact h

theorem Device.tinvDone_stored {d : Device} (h : d.stored = true) : d.tinvDone.stored = true := h

theorem Device.setFabric_stored {d : Device} (h : d.stored = true) (r : FabricReg) (v : Word) :
    (d.setFabric r v).stored = true := by
  unfold Device.setFabric
  split
  · exact Device.setHwd_stored h
  · exact h

theorem Device.hostRead_stored {d : Device} (h : d.stored = true) (pa n : Nat) : (d.hostRead pa n).1.stored = true := by
  unfold Device.hostRead
  refine Device.foldlPair (fun x c hx => ?_) _ h
  exact Device.colRead_stored hx ..

theorem Device.hostWrite_stored {d : Device} (h : d.stored = true) (pa : Nat) (bytes : List Byte) :
    (d.hostWrite pa bytes).stored = true := foldl_stored (fun _ _ hd => Device.colWrite_stored hd ..) _ h

theorem Device.answer_stored {d : Device} (h : d.stored = true) (l : Option (List Byte)) :
    (d.answer l).stored = true := h

theorem Device.bar4Read_stored {d : Device} (h : d.stored = true) (off : Nat) : (d.bar4Read off).stored = true := by
  unfold Device.bar4Read
  cases d.bar4Place off with
  | none => exact h
  | some p =>
    dsimp only
    split
    · exact h
    · split <;> exact h

theorem Device.bar4Write_stored {d : Device} (h : d.stored = true) (off : Nat) (v : Word) :
    (d.bar4Write off v).stored = true := by
  unfold Device.bar4Write
  cases d.bar4Place off with
  | none => exact Device.setHwd_stored h
  | some p =>
    dsimp only
    split
    · refine Device.modRes_stored h _ _ fun r hr => ?_
      obtain ⟨hs, hf⟩ := (Residence.memOk_iff r).mp hr
      exact (Residence.memOk_iff _).mpr ⟨hs, Memory.wf_write _ _ 8 _ hf⟩
    · split
      · exact Device.modRes_stored h _ _ fun _ hr => Residence.write_memOk hr _ 8 ..
      · exact Device.setHwd_stored h

theorem Device.atPort_stored {d : Device} (h : d.stored = true) (src : Nat) (cls : Fin 4) (atomic : Bool) (op : AOp)
    (e : RedElt) (parts : List (Nat × Nat)) : (d.atPort src cls atomic op e parts).stored = true := by
  unfold Device.atPort
  extract_lets q e k
  have he : e.stored = true := h
  cases e.redComes k with
  | none => exact he
  | some q =>
    have dropped : { e with portQ := dropIdx k e.portQ }.stored = true := he
    dsimp only
    split
    · exact Device.redAccept_stored dropped q
    · exact he

theorem Device.arrive_stored {d : Device} (h : d.stored = true) (src : Nat) (cls : Fin 4) (q : FabricReq) :
    (d.arrive src cls q).stored = true := by
  unfold Device.arrive
  cases q with
  | read pa n => exact Device.hostRead_stored h _ n
  | write pa bytes => exact Device.hostWrite_stored h _ bytes
  | redv op t pa parts =>
    dsimp only
    cases lineElt t op with
    | none => exact h
    | some e => exact Device.atPort_stored h ..
  | _ => exact Device.atPort_stored h ..

theorem Device.dropRequest_stored {d : Device} (h : d.stored = true) : d.dropRequest.stored = true := by
  unfold Device.dropRequest
  extract_lets l
  cases l[Config.timedOut d.now % (l.length + 1)]? with
  | none => exact h
  | some k =>
    dsimp only
    cases d.portQ[k]? with
    | none => exact h
    | some q =>
      have dropped : { d with portQ := dropIdx k d.portQ }.stored = true := h
      exact Device.setLost_stored (Device.redCounted_stored dropped ..)

theorem Device.measure_stored {d : Device} (h : d.stored = true) (c b : Nat) (g : Lat) (weak : Bool) :
    (d.measure c b g weak).stored = true :=
  Device.planHot_stored (Device.modSvc_stored (Device.releaseFor_stored h _ 3) c b g _) _

theorem Device.setRowTag_stored {d : Device} (h : d.stored = true) (c b : Nat) (g : Lat) (row : Nat)
    (tag : BitVec 4) : (d.setRowTag c b g row tag).stored = true := by
  unfold Device.setRowTag
  dsimp only
  split
  · exact Device.setHwd_stored h
  · exact h

theorem execTinv_stored {s : State} (h : s.stored = true) (v : Word) : Out.stored (execTinv v s) = true :=
  State.modDev_stored h (Device.setTinv_stored (State.stored_dev h) v)

theorem execTinvl_stored {s : State} (h : s.stored = true) (v : Word) : Out.stored (execTinvl v s) = true :=
  State.modDev_stored h (Device.setTinvl_stored (State.stored_dev h) v)

theorem execTranslationInvalidationDone_stored {s : State} (h : s.stored = true) :
    Out.stored (execTranslationInvalidationDone s) = true := by
  have hd := State.stored_dev h
  refine State.modDev_stored h ?_
  split
  · exact Device.tinvDone_stored hd
  · exact hd

theorem execErrstClear_stored {s : State} (h : s.stored = true) (v : Word) : Out.stored (execErrstClear v s) = true :=
  State.modDev_stored h (Device.clearErr_stored (State.stored_dev h) v)

theorem execDeviceReset_stored {s : State} (h : s.stored = true) : Out.stored (execDeviceReset s) = true :=
  State.stored_of_dev (Device.afterReset_stored (State.stored_dev h)) _

theorem execPlaceEnable_stored {s : State} (h : s.stored = true) (v : Word) :
    Out.stored (execPlaceEnable v s) = true := State.modDev_stored h (Device.devrst_stored (State.stored_dev h) v)

theorem execPlim_stored {s : State} (h : s.stored = true) (v : Option Word) : Out.stored (execPlim v s) = true := by
  have hd := State.stored_dev h
  refine State.modDev_stored h ?_
  cases v <;> exact hd

theorem execFabricConfigWrite_stored {s : State} (h : s.stored = true) (r : FabricReg) (v : Option Word) :
    Out.stored (execFabricConfigWrite r v s) = true := by
  have hd := State.stored_dev h
  refine State.modDev_stored h ?_
  cases v with
  | some v => exact Device.setFabric_stored hd r v
  | none => exact hd

theorem execHostBar2Read_stored {s : State} (h : s.stored = true) (off : BitVec 36) (n : Nat) :
    Out.stored (execHostBar2Read off n s) = true :=
  State.modDev_stored h (Device.answer_stored (Device.hostRead_stored (State.stored_dev h) _ n) _)

theorem execHostBar2Write_stored {s : State} (h : s.stored = true) (off : BitVec 36) (bytes : List Byte) :
    Out.stored (execHostBar2Write off bytes s) = true :=
  State.modDev_stored h (Device.hostWrite_stored (State.stored_dev h) _ bytes)

theorem execHostBar4Access_stored {s : State} (h : s.stored = true) (off : BitVec 32) (write : Option Word) :
    Out.stored (execHostBar4Access off write s) = true := by
  have hd := State.stored_dev h
  refine State.modDev_stored h ?_
  cases write with
  | some v => exact Device.bar4Write_stored hd _ v
  | none => exact Device.bar4Read_stored hd _

theorem execLinkReset_stored {s : State} (h : s.stored = true) : Out.stored (execLinkReset s) = true := h

theorem execServiceMailbox_stored {s : State} (h : s.stored = true) (core : Fin 2048) (bank : Fin 16) (g : Lat) :
    Out.stored (execServiceMailbox core bank g s) = true :=
  State.modDev_stored h (Device.answer_stored (State.stored_dev h) _)

theorem execFabricArrival_stored {s : State} (h : s.stored = true) (src : FabricAgent) (req : FabricReq) :
    Out.stored (execFabricArrival src req s) = true :=
  State.modDev_stored h (Device.arrive_stored (State.stored_dev h) _ _ req)

theorem execLinkFailure_stored {s : State} (h : s.stored = true) (link : Fin 32) :
    Out.stored (execLinkFailure link s) = true := by
  refine State.modDev_stored h (Device.notify_stored ?_ 3)
  exact State.stored_dev h

theorem execFabricRequestTimeout_stored {s : State} (h : s.stored = true) :
    Out.stored (execFabricRequestTimeout s) = true :=
  State.modDev_stored h (Device.dropRequest_stored (State.stored_dev h))

theorem execBudgetWindow_stored {s : State} (h : s.stored = true) : Out.stored (execBudgetWindow s) = true := by
  have hd := State.stored_dev h
  refine State.modDev_stored h ?_
  split <;> exact hd

theorem execRetentionMeasurement_stored {s : State} (h : s.stored = true) (core : Fin 2048) (bank : Fin 16) (g : Lat)
    (weak : Bool) : Out.stored (execRetentionMeasurement core bank g weak s) = true := by
  have hd := State.stored_dev h
  refine State.modDev_stored h ?_
  split
  · exact Device.measure_stored hd _ _ g weak
  · exact hd

theorem execTrainingComplete_stored {s : State} (h : s.stored = true) : Out.stored (execTrainingComplete s) = true := by
  have hd := State.stored_dev h
  refine State.modDev_stored h ?_
  split <;> exact hd

theorem execFullServiceEntry_stored {s : State} (h : s.stored = true) : Out.stored (execFullServiceEntry s) = true := by
  have hd := State.stored_dev h
  refine State.modDev_stored h ?_
  split
  · refine Device.notify_stored ?_ 3
    exact hd
  · exact hd

theorem execRowTagWrite_stored {s : State} (h : s.stored = true) (core : Fin 2048) (bank : Fin 16) (g : Lat)
    (row : Fin 512) (tag : BitVec 4) : Out.stored (execRowTagWrite core bank g row tag s) = true :=
  State.modDev_stored h (Device.setRowTag_stored (State.stored_dev h) _ _ g _ tag)

theorem debugWrite_stored {s : State} (h : s.stored = true) (ctx : BitVec 12) (v : Word) :
    Out.stored (debugWrite ctx v s) = true := by
  have ha := execDebugArm_stored h ctx (v.getLsbD 0)
  unfold debugWrite
  generalize execDebugArm ctx (v.getLsbD 0) s = o at ha ⊢
  cases o with
  | fault f => rfl
  | refused r => rfl
  | next t =>
    have hs : Out.stored (if v.getLsbD 1 then execDebugStopRequest ctx t else .next t) = true := by
      split
      · exact execDebugStopRequest_stored ha ctx
      · exact ha
    dsimp only
    generalize (if v.getLsbD 1 then execDebugStopRequest ctx t else .next t) = o at hs ⊢
    cases o with
    | fault f => rfl
    | refused r => rfl
    | next u =>
      dsimp only
      split
      · exact execDebugResume_stored hs ctx
      · exact hs

theorem setHwdNext {s : State} (h : s.stored = true) : (s.modDev Device.setHwd).stored = true :=
  State.modDev_stored h (Device.setHwd_stored (State.stored_dev h))

theorem fresWrite_stored {s : State} (h : s.stored = true) (v : Word) : Out.stored (fresWrite v s) = true := by
  unfold fresWrite
  dsimp only
  split
  · exact execFresRetry_stored h _
  · exact execFresDeliver_stored h _
  · exact execFresEnd_stored h _
  · exact setHwdNext h

theorem ringWrite_stored {s : State} (h : s.stored = true) (r : RingId) (o : Nat) (v : Word) :
    Out.stored (ringWrite r o v s) = true := by
  have hhead : ∀ r, Out.stored (if o = 0x10 then headWrite r v s else .next s) = true := fun r => by
    split
    · exact headWrite_stored h r v
    · exact h
  unfold ringWrite
  split
  · exact execQbase_stored h r v
  · split
    · exact execQsize_stored h r v
    · cases r with
      | queue c =>
        dsimp only
        split
        · exact execQtail_stored h c v
        · exact h
      | journal => exact hhead _
      | faultLog => exact hhead _

theorem Out.ite_next {c : Prop} [Decidable c] {a b : Out} (ha : a.stored = true) (hb : b.stored = true) :
    Out.stored (if c then a else b) = true := by
  split
  · exact ha
  · exact hb

theorem bar0Write_stored {s : State} (h : s.stored = true) (o : Nat) (v : Word) :
    Out.stored (bar0Write o v s) = true := by
  have hd := State.stored_dev h
  refine Out.ite_next h ?_
  refine Out.ite_next (execErrstClear_stored h v) ?_
  refine Out.ite_next (State.modDev_stored h (Device.setWinbase_stored hd v)) ?_
  refine Out.ite_next (execPlaceEnable_stored h v) ?_
  refine Out.ite_next (execTqseq_stored h v) ?_
  refine Out.ite_next (ringWrite_stored h _ _ v) ?_
  refine Out.ite_next (ringWrite_stored h _ _ v) ?_
  refine Out.ite_next (ringWrite_stored h _ _ v) ?_
  refine Out.ite_next (fresWrite_stored h v) ?_
  refine Out.ite_next (State.modDev_stored h (Device.setRtbase_stored hd v)) ?_
  refine Out.ite_next (execTinv_stored h v) ?_
  refine Out.ite_next (execTinvl_stored h v) ?_
  refine Out.ite_next (debugWrite_stored h _ v) ?_
  refine Out.ite_next (State.modDev_stored h (Device.setPview_stored hd v)) ?_
  exact setHwdNext h

theorem execRegisterWrite_stored {s : State} (h : s.stored = true) (off : BitVec 20) (v : Option Word) :
    Out.stored (execRegisterWrite off v s) = true := by
  cases v with
  | some v => exact bar0Write_stored h _ v
  | none => exact State.modDev_stored h (Device.answer_stored (State.stored_dev h) _)

end Sys2Proof.Machine
end

