-- ==== Sys2Proof/Proofs/StoredStep.lean ====
section
/-! PROOF. The canonical form along a whole step: issue, the agenda, and every instruction and event. -/

namespace Sys2Proof.Machine

/-! ### `Machine/Issue` -/

/-- What the semantics of the instructions is asked for: from a canonical state it answers a canonical one. -/
def ExecKeeps (exec : Instr → State → Out) : Prop := ∀ i s, s.stored = true → Out.stored (exec i s) = true
/-- The event that moves next, if one does, answers a canonical state from a canonical one. -/
def EventKeeps (event : State → Option Out) : Prop :=
  ∀ s, s.stored = true → ∀ o, event s = some o → Out.stored o = true

section
variable {exec : Instr → State → Out} (he : ExecKeeps exec) {s : State} (h : s.stored = true)
include h

include he in
theorem runHead_stored : Out.stored (runHead exec s) = true := by
  unfold runHead
  split
  · exact State.endConvoy_stored h
  · next l _ =>
    have popped : { s with iss := { s.iss with rest := l } }.stored = true := State.stored_with_iss h _ rfl
    dsimp only
    split
    · exact he _ _ popped
    · exact State.endConvoy_stored (State.failAll_stored popped _)

theorem failIssue_stored (rk base : Nat) (g : Gang) (f : Fail) : Out.stored (failIssue s rk base g f) = true :=
  State.stored_of_dev (Device.tick_stored (Device.takeFails_stored
    (Device.yielded_stored (Device.modCore_stored (State.stored_dev h) _ _) rk base) ..)) _

include he in
theorem beginConvoy_stored (core : Nat) (slot : Fin 3) (base : Nat) (addr : Word) (ws : List IWord) (replay : Bool) :
    Out.stored (beginConvoy exec s core slot base addr ws replay) = true :=
  have turned : { s.dev with turn := core }.stored = true := State.stored_dev h
  runHead_stored he ((State.stored_iff _).mpr ⟨turned, fun _ e => by cases e⟩)

include he in
theorem issueReplay_stored (core : Nat) (slot : Fin 3) (base : Nat) (g : Gang) (r : Replay) :
    Out.stored (issueReplay exec s core slot base g r) = true := by
  unfold issueReplay
  extract_lets rk pos
  split
  · exact beginConvoy_stored he h ..
  · exact State.stored_with_dev h (Device.tick_stored (Device.modGang_stored (State.stored_dev h) ..))

include he in
theorem issueFetch_stored (core : Nat) (slot : Fin 3) (base : Nat) (g : Gang) :
    Out.stored (issueFetch exec s core slot base g) = true := by
  unfold issueFetch
  extract_lets rk ctx t c u
  have entered : t.1.stored = true := by
    unfold t
    split
    · exact Device.targetCheck_stored (State.stored_dev h) ..
    · exact State.stored_dev h
  have fetched : u.stored = true := State.stored_with_dev h (Device.fetchConvoy_stored entered ..)
  split
  · exact failIssue_stored (State.stored_with_dev h entered) ..
  · split
    · exact failIssue_stored fetched ..
    · split
      · exact failIssue_stored fetched ..
      · exact beginConvoy_stored he fetched ..

theorem boundary_stored (rk base : Nat) : ∀ o, boundary rk base s = some o → Out.stored o = true := by
  intro o ho
  unfold boundary at ho
  split at ho
  · cases ho
  · obtain ⟨e, taken, rfl⟩ := Option.map_eq_some_iff.mp ho
    exact State.stored_with_dev h (Device.tick_stored (Device.dueTrap_stored (State.stored_dev h) _ _ _ e taken))

include he in
theorem issueGang_stored (core base : Nat) : Out.stored (issueGang exec s core base) = true := by
  have idle : Out.stored (.next { s with dev := s.dev.tick }) = true :=
    State.stored_with_dev h (Device.tick_stored (State.stored_dev h))
  unfold issueGang
  split
  · exact idle
  · next slot _ =>
    dsimp only
    split
    · exact idle
    · refine Out.ite_next idle ?_
      split
      · next o due => exact boundary_stored h _ _ o due
      · split
        · exact issueReplay_stored he h ..
        · exact issueFetch_stored he h ..

include he in
theorem stepWith_stored {event : State → Option Out} (hv : EventKeeps event) :
    Out.stored (stepWith exec event s) = true := by
  have left (l : List Turn) : { s with agenda := l }.stored = true :=
    (State.stored_iff _).mpr ((State.stored_iff s).mp h)
  unfold stepWith
  split
  · exact runHead_stored he h
  · split
    · next i l _ => exact he i _ (left l)
    · next l _ => exact issueGang_stored he (left l) ..
    · split
      · next o due => exact hv s h o due
      · split
        · exact issueGang_stored he h ..
        · exact State.stored_with_dev h (Device.tick_stored (State.stored_dev h))

end

/-! ### `Machine/Agenda` -/

theorem firstOf_stored {α : Type} {l : List α} {can : α → Bool} {act : α → Out}
    (ha : ∀ x, Out.stored (act x) = true) : ∀ o, firstOf l can act = some o → Out.stored o = true := by
  intro o ho
  obtain ⟨x, _, rfl⟩ := Option.map_eq_some_iff.mp ho
  exact ha x

theorem firstSome_keeps {l : List (State → Option Out)} (hl : ∀ f ∈ l, EventKeeps f) : EventKeeps (firstSome l) := by
  intro s h o ho
  induction l with
  | nil => cases ho
  | cons f l ih =>
    obtain ⟨hf, hl⟩ := List.forall_mem_cons.mp hl
    unfold firstSome at ho
    split at ho
    · next moves =>
      cases ho
      exact hf s h _ moves
    · exact ih hl ho

/-- An event that moves on a condition on the state. -/
theorem onlyIf_keeps {c : State → Prop} [∀ s, Decidable (c s)] {act : State → Out}
    (ha : ∀ s, s.stored = true → Out.stored (act s) = true) :
    EventKeeps fun s => if c s then some (act s) else none := by
  intro s h o ho
  obtain ⟨_, e⟩ := Option.ite_none_right_eq_some.mp ho
  cases e
  exact ha s h

/-- An event that moves on the first element of a list that can. -/
theorem firstOf_keeps {α : Type} {l : State → List α} {can : State → α → Bool} {act : α → State → Out}
    (ha : ∀ x s, s.stored = true → Out.stored (act x s) = true) :
    EventKeeps fun s => firstOf (l s) (can s) fun x => act x s :=
  fun s h => firstOf_stored fun x => ha x s h

theorem unitEvents_keep : ∀ f ∈ unitEvents, EventKeeps f := by
  unfold unitEvents
  simp only [List.forall_mem_cons, List.not_mem_nil, false_implies, implies_true, and_true]
  exact ⟨firstOf_keeps fun _ _ h => execPushEnterQueue_stored h ..,
    firstOf_keeps fun _ _ h => execSifterRound_stored h ..,
    firstOf_keeps fun _ _ h => execSifterDrainRun_stored h ..,
    firstOf_keeps fun _ _ h => execSifterSave_stored h ..,
    firstOf_keeps fun _ _ h => execBusSlotGrant_stored h ..,
    firstOf_keeps fun _ _ h => execMatrixOpComplete_stored h ..,
    firstOf_keeps fun _ _ h => execMatrixOpStart_stored h ..,
    firstOf_keeps fun _ _ h => execAccTransferComplete_stored h ..,
    firstOf_keeps fun _ _ h => execCopyCommandStart_stored h ..,
    firstOf_keeps fun _ _ h => execCopyCompletion_stored h ..,
    firstOf_keeps fun _ _ h => execCopyFault_stored h ..,
    firstOf_keeps fun _ _ h => execCopyPermissionStop_stored h ..,
    firstOf_keeps fun _ _ h => execSavedCommandReentry_stored h ..⟩

theorem bankEvents_keep : ∀ f ∈ bankEvents, EventKeeps f := by
  unfold bankEvents
  simp only [List.forall_mem_cons, List.not_mem_nil, false_implies, implies_true, and_true]
  exact ⟨firstOf_keeps fun _ _ h => execDebtTick_stored h ..,
    firstOf_keeps fun _ _ h => execForcedRefresh_stored h ..,
    firstOf_keeps fun _ _ h => execAutoRefInsert_stored h ..,
    firstOf_keeps fun _ _ h => execVectorSegmentStart_stored h ..,
    firstOf_keeps fun _ _ h => execRowCommandStart_stored h ..,
    firstOf_keeps fun _ _ h => execBankOwnPrecharge_stored h ..,
    firstOf_keeps fun _ _ h => execColumnAccessServe_stored h ..,
    firstOf_keeps fun _ _ h => execWriteQueueAccept_stored h ..,
    firstOf_keeps fun _ _ h => execWriteQueueApply_stored h ..,
    firstOf_keeps fun _ _ h => execAtomicResultReturn_stored h ..⟩

theorem waitEvents_keep : ∀ f ∈ waitEvents, EventKeeps f := by
  unfold waitEvents
  simp only [List.forall_mem_cons, List.not_mem_nil, false_implies, implies_true, and_true]
  exact ⟨firstOf_keeps fun _ _ h => execSoftwareTrapTaken_stored h ..,
    firstOf_keeps fun _ _ h => execWatchdogTrapTaken_stored h ..,
    firstOf_keeps fun _ _ h => execRefreshDeadlineTrap_stored h ..,
    firstOf_keeps fun _ _ h => execEngineTrapTaken_stored h ..,
    firstOf_keeps fun _ _ h => execTagWaitRetry_stored h ..,
    firstOf_keeps fun _ _ h => execBarrierWaitWake_stored h ..,
    firstOf_keeps fun _ _ h => execWordWaitSatisfied_stored h ..,
    firstOf_keeps fun _ _ h => execTagWaitTimeout_stored h ..,
    firstOf_keeps fun _ _ h => execWatchdogExpiry_stored h ..⟩

theorem schedEvents_keep : ∀ f ∈ schedEvents, EventKeeps f := by
  unfold schedEvents
  simp only [List.forall_mem_cons, List.not_mem_nil, false_implies, implies_true, and_true]
  exact ⟨firstOf_keeps fun _ _ h => execClass0Request_stored h ..,
    firstOf_keeps fun _ _ h => execDebugStop_stored h ..,
    firstOf_keeps fun _ _ h => execQuantumExpiry_stored h ..,
    firstOf_keeps fun _ _ h => execIdleYield_stored h ..,
    firstOf_keeps fun _ _ h => execAgeingPromotion_stored h ..,
    firstOf_keeps fun _ _ h => execEviction_stored h ..,
    firstOf_keeps fun _ _ h => execContextSwitch_stored h ..,
    firstOf_keeps fun _ _ h => execAdmission_stored h ..⟩

theorem launchEvents_keep : ∀ f ∈ launchEvents, EventKeeps f := by
  unfold launchEvents
  simp only [List.forall_mem_cons, List.not_mem_nil, false_implies, implies_true, and_true]
  exact ⟨firstOf_keeps fun _ _ h => execPlacementEnd_stored h ..,
    firstOf_keeps fun _ _ h => execLaunchEnd_stored h ..,
    firstOf_keeps fun _ _ h => execLaunchLeaveWaits_stored h ..,
    firstOf_keeps fun _ _ h => execQueueEntryConsume_stored h ..,
    onlyIf_keeps fun _ h => execTableQueryResult_stored h,
    onlyIf_keeps fun _ h => execTranslationInvalidationDone_stored h,
    onlyIf_keeps fun _ h => execBudgetWindow_stored h,
    onlyIf_keeps fun _ h => execFullServiceEntry_stored h⟩

theorem nextEvent_keeps : EventKeeps nextEvent := by
  refine firstSome_keeps ?_
  simp only [List.forall_mem_append]
  exact ⟨⟨⟨⟨unitEvents_keep, bankEvents_keep⟩, schedEvents_keep⟩, waitEvents_keep⟩, launchEvents_keep⟩

/-! ### `Machine/Dispatch` and `Machine/Step` -/

/-- DIV, DIVN, REM and REMN write one register, unless the divisor is 0. -/
theorem divWord_stored {s : State} (h : s.stored = true) (hd : Hdr) (w : Bool) (d : XReg) (a b : Src)
    (f : Word → Word → Word) : Out.stored (divWord hd w d a b f s) = true :=
  hartWordOp h hd _ fun k t ht => by
    split
    · rfl
    · exact writeReg_stored ht ..

/-- Every instruction and every event that the scheduler names keeps the canonical form. -/
theorem exec_stored (i : Instr) {s : State} (h : s.stored = true) : Out.stored (exec i s) = true := by
  cases i with
  | add | sub | mul | mulh | mulhn | and | or | xor | andn | shl | shr | sar | rol | fshl | fshr
  | bfx | bfxn | bfi | clz | ctz | popc | brev | bswap | min | max | minn | maxn | abs | sel | sext
  | zext | cmp | lea | pand | fabs | fneg | fclass | hartid | csrr | ctxq | depq => exact regWord_stored h ..
  | div | divn | rem | remn => exact divWord_stored h ..
  | mov _ m =>
    cases m with
    | xs | xp | pp | px => exact regWord_stored h ..
  | fadd | fsub | fmul | fdiv | fsqrt | fma | fmin | fmax | fcmp | fcvt | frnd => exact fpWord_stored h ..
  | nop => exact wordOp_stored h _ _ fun _ _ ht => ht
  | br | brx | ret => exact transferWord_stored h _ _ _ fun _ _ ht => ht
  | call | callx => exact transferWord_stored h _ _ _ fun _ _ ht => putLink_stored ht ..
  | subbr => exact transferWord_stored h _ _ _ fun _ _ ht => writeReg_stored ht ..
  | brd => exact execBrd_stored h ..
  | join => exact execJoin_stored h ..
  | capt => exact execCapt_stored h ..
  | replay => exact execReplay_stored h ..
  | exit => exact execExit_stored h ..
  | yield => exact execYield_stored h ..
  | gmask => exact execGmask_stored h ..
  | act => exact hartWordOp h _ _ fun _ _ ht => actOn_stored ht ..
  | actw => exact hartWordOp h _ _ fun _ _ ht => actwOn_stored ht ..
  | wb | wbp => exact hartWordOp h _ _ fun _ _ ht => wbOn_stored ht ..
  | pre => exact hartWordOp h _ _ fun _ _ ht => preOf_stored ht ..
  | prea => exact hartWordOp h _ _ fun _ _ ht => preaOn_stored ht ..
  | ref => exact hartWordOp h _ _ fun _ _ ht => refOn_stored ht ..
  | refq => exact hartWordOp h _ _ fun _ _ ht => drained_stored ht _ fun _ hu => writeReg_stored hu ..
  | rowq _ _ form =>
    cases form with
    | allot => exact hartWordOp h _ _ fun _ _ ht => writeReg_stored ht ..
    | state | plo | phi => exact hartWordOp h _ _ fun _ _ ht => drained_stored ht _ fun _ hu => writeReg_stored hu ..
  | rowCommandStart => exact execRowCommandStart_stored h ..
  | setvl => exact hartWordOp h _ _ fun _ _ ht => setvlOn_stored ht ..
  | setvt => exact hartWordOp h _ _ fun _ _ ht => setvtOn_stored ht ..
  | vadd | vsub | vmul | vmulh | vmad | vmin | vmax | vabs | vneg | vand | vor | vxor | vnot | vshl
  | vshr | vsar | vsadd | vssub | vavg | vclz | vpopc | vfadd | vfsub | vfmul | vfma | vfdiv
  | vfsqrt | vfrcp | vfmin | vfmax | vfabs | vfneg => exact laneWord_stored h ..
  | vcmp | vfcmp => exact laneWordOp h _ _ fun _ _ ht => laneCmp_stored ht ..
  | mand | mor | mxor | mnot => exact hartWordOp h _ _ fun _ _ ht => maskOp_stored ht ..
  | mpopc | mfirst => exact hartWordOp h _ _ fun _ _ ht => maskCount_stored ht ..
  | vsel => exact laneWordOp h _ _ fun _ _ ht => vselOn_stored ht ..
  | vcvt => exact laneWordOp h _ _ fun _ _ ht => vcvtOn_stored ht ..
  | vmxq | vlqq => exact laneWordOp h _ _ fun _ _ ht => quantOn_stored ht ..
  | vmxd | vlqd => exact laneWordOp h _ _ fun _ _ ht => dequantOn_stored ht ..
  | vmov => exact laneWordOp h _ _ fun _ _ ht => vmovOn_stored ht ..
  | vsplat => exact hartWordOp h _ _ fun _ _ ht => vsplatOn_stored ht ..
  | vext => exact laneWordOp h _ _ fun _ _ ht => vextOn_stored ht ..
  | vins => exact hartWordOp h _ _ fun _ _ ht => vinsOn_stored ht ..
  | vperm => exact laneWordOp h _ _ fun _ _ ht => vpermOn_stored ht ..
  | vgath => exact laneWordOp h _ _ fun _ _ ht => vgathOn_stored ht ..
  | vslide => exact laneWordOp h _ _ fun _ _ ht => vslideOn_stored ht ..
  | vcomp => exact laneWordOp h _ _ fun _ _ ht => vcompOn_stored ht ..
  | vexp => exact laneWordOp h _ _ fun _ _ ht => vexpOn_stored ht ..
  | viota => exact hartWordOp h _ _ fun _ _ ht => viotaOn_stored ht ..
  | vreds | vredmin | vredmax | vfreds => exact laneWordOp h _ _ fun _ _ ht => laneRed_stored ht ..
  | vscan => exact laneWordOp h _ _ fun _ _ ht => vscanOn_stored ht ..
  | vsortk => exact laneWordOp h _ _ fun _ _ ht => vsortkOn_stored ht ..
  | vuniq => exact laneWordOp h _ _ fun _ _ ht => vuniqOn_stored ht ..
  | vectorSegmentStart => exact execVectorSegmentStart_stored h ..
  | rshuf | rbcast | rxch | rrot => exact gangOp h _ _ fun _ _ ht => moveWord_stored ht ..
  | rseg => exact gangOp h _ _ fun _ _ ht => segWord_stored ht ..
  | busSlotGrant => exact execBusSlotGrant_stored h ..
  | tload => exact agreedOp h _ _ _ fun _ _ _ ht => tloadOn_stored ht ..
  | tmma => exact agreedOp h _ _ _ fun _ _ _ ht => tmmaOn_stored ht ..
  | accz => exact agreedOp h _ _ _ fun _ _ _ ht => acczOn_stored ht ..
  | accrd => exact wordOp_stored h _ _ fun _ _ ht => accrdOn_stored ht ..
  | accwr => exact wordOp_stored h _ _ fun _ _ ht => accwrOn_stored ht ..
  | accclm => exact agreedOp h _ _ _ fun _ _ _ ht => accclmOn_stored ht ..
  | accrel => exact agreedOp h _ _ _ fun _ _ _ ht => accrelOn_stored ht ..
  | accsv | accld => exact agreedOp h _ _ _ fun _ _ _ ht => accmoveOn_stored ht ..
  | tstat => exact agreedOp h _ _ _ fun _ _ _ ht => tstatOn_stored ht ..
  | matrixOpStart => exact execMatrixOpStart_stored h ..
  | matrixOpComplete => exact execMatrixOpComplete_stored h ..
  | accTransferComplete => exact execAccTransferComplete_stored h ..
  | ld => exact hartWordOp h _ _ fun _ _ ht => ldOn_stored ht ..
  | st => exact hartWordOp h _ _ fun _ _ ht => stOn_stored ht ..
  | lde | ldf =>
    exact wordOp_stored h _ _ fun l _ ht => tagWord_stored ht _ _ _ _ _ (fun _ _ hu => tagLoad_stored hu ..) l
  | ste => exact wordOp_stored h _ _ fun l _ ht => tagWord_stored ht _ _ _ _ _ (fun _ _ hu => tagStore_stored hu ..) l
  | stf => exact hartWordOp h _ _ fun k _ ht => tagNow_stored ht _ _ _ (fun _ _ hu => tagStore_stored hu ..) k
  | tagr =>
    exact hartWordOp h _ _ fun k _ ht => tagNow_stored ht _ _ _ (act := fun k s => .ok _)
      (fun _ _ hu => writeReg_stored hu ..) k
  | tagw => exact hartWordOp h _ _ fun k _ ht => tagNow_stored ht _ _ _ (fun _ _ hu => tagwOn_stored hu ..) k
  | pref => exact hartWordOp h _ _ fun _ _ ht => prefOn_stored ht ..
  | ldv => exact hartWordOp h _ _ fun _ _ ht => ldvOn_stored ht ..
  | stv => exact hartWordOp h _ _ fun _ _ ht => stvOn_stored ht ..
  | cinv | cwb => exact hartWordOp h _ _ fun _ _ ht => cleanOn_stored ht ..
  | amop => exact hartWordOp h _ _ fun _ _ ht => amopOn_stored ht ..
  | tagWaitRetry => exact execTagWaitRetry_stored h ..
  | tagWaitTimeout => exact execTagWaitTimeout_stored h ..
  | cacheLineEvict => exact execCacheLineEvict_stored h ..
  | proxyEvict => exact execProxyEvict_stored h ..
  | hwPrefetch => exact execHwPrefetch_stored h ..
  | amo => exact hartWordOp h _ _ fun _ _ ht => amoOn_stored ht ..
  | cas => exact hartWordOp h _ _ fun _ _ ht => casOn_stored ht ..
  | red => exact hartWordOp h _ _ fun _ _ ht => redOn_stored ht ..
  | redv => exact hartWordOp h _ _ fun _ _ ht => redvOn_stored ht ..
  | redf => exact hartWordOp h _ _ fun _ _ ht => redfOn_stored ht ..
  | pgq => exact hartWordOp h _ _ fun _ _ ht => pgqOn_stored ht ..
  | writeQueueAccept => exact execWriteQueueAccept_stored h ..
  | writeQueueApply => exact execWriteQueueApply_stored h ..
  | atomicResultReturn => exact execAtomicResultReturn_stored h ..
  | columnAccessArrival => exact execColumnAccessArrival_stored h ..
  | columnAccessServe => exact execColumnAccessServe_stored h ..
  | pageWalk core bank va => exact execPageWalk_stored h core bank va
  | atsCompletion => exact execAtsCompletion_stored h ..
  | atsInvalidation => exact execAtsInvalidation_stored h ..
  | fence hd scope pred succ => exact execFence_stored h hd scope pred succ
  | ifence => exact execIfence_stored h ..
  | enq => exact hartWordOp h _ _ fun _ _ ht => enqOn_stored ht ..
  | enq1 => exact hartWordOp h _ _ fun _ _ ht => enq1On_stored ht ..
  | estat => exact hartWordOp h _ _ fun _ _ ht => estatOn_stored ht ..
  | esusp => exact hartWordOp h _ _ fun _ _ ht => esuspOn_stored ht ..
  | bari => exact hartWordOp h _ _ fun _ _ ht => bariOn_stored ht ..
  | barp | bara => exact hartWordOp h _ _ fun _ _ ht => barMove_stored ht ..
  | barw => exact waitOp h _ _ _ (fun _ _ ht => barwCheck_stored ht ..) fun _ _ ht => barwOn_stored ht ..
  | wait => exact execWait_stored h ..
  | waitv => exact execWaitv_stored h ..
  | barrierWaitWake => exact execBarrierWaitWake_stored h ..
  | wordWaitSatisfied => exact execWordWaitSatisfied_stored h ..
  | copyCommandStart => exact execCopyCommandStart_stored h ..
  | copyCompletion => exact execCopyCompletion_stored h ..
  | copyFault => exact execCopyFault_stored h ..
  | copyPermissionStop => exact execCopyPermissionStop_stored h ..
  | savedCommandReentry => exact execSavedCommandReentry_stored h ..
  | sfcfg => exact agreedOp h _ _ _ fun _ _ _ ht => sfcfgOn_stored ht ..
  | sfpush => exact wordOp_stored h _ _ fun _ _ ht => sfpushOn_stored ht ..
  | sfround | sfdrain => exact agreedOp h _ _ _ fun _ _ _ ht => sfopOn_stored ht ..
  | sfstat => exact agreedOp h _ _ _ fun _ _ _ ht => putStat_stored ht ..
  | sifterRound => exact execSifterRound_stored h ..
  | sifterDrainRun => exact execSifterDrainRun_stored h ..
  | pushEnterQueue => exact execPushEnterQueue_stored h ..
  | sifterSave => exact execSifterSave_stored h ..
  | csrw hd r a => exact csrWord_stored h hd r a fun _ v => v
  | csrs hd r a => exact csrWord_stored h hd r a fun o v => o ||| v
  | csrc hd r a => exact csrWord_stored h hd r a fun o v => o &&& ~~~ v
  | trap => exact hartWordOp h _ _ fun _ _ ht => softTrap_stored ht ..
  | eret => exact execEret_stored h ..
  | halt => exact execHalt_stored h ..
  | wdog => exact hartWordOp h _ _ fun _ _ ht => wdogOn_stored ht ..
  | bkpt => exact execBkpt_stored h ..
  | pfx => exact execPfx_stored h ..
  | launch => exact hartWordOp h _ _ fun _ _ ht => launchOn_stored ht ..
  | depdec => exact hartWordOp h _ _ fun _ _ ht => depdecOn_stored ht ..
  | softwareTrapTaken => exact execSoftwareTrapTaken_stored h ..
  | engineTrapTaken => exact execEngineTrapTaken_stored h ..
  | debtTick => exact execDebtTick_stored h ..
  | hotChange => exact execHotChange_stored h ..
  | autoRefInsert => exact execAutoRefInsert_stored h ..
  | refreshDeadlineTrap => exact execRefreshDeadlineTrap_stored h ..
  | forcedRefresh => exact execForcedRefresh_stored h ..
  | watchdogExpiry => exact execWatchdogExpiry_stored h ..
  | class0Request => exact execClass0Request_stored h ..
  | quantumExpiry => exact execQuantumExpiry_stored h ..
  | idleYield => exact execIdleYield_stored h ..
  | ageingPromotion => exact execAgeingPromotion_stored h ..
  | contextSwitch => exact execContextSwitch_stored h ..
  | eviction => exact execEviction_stored h ..
  | admission => exact execAdmission_stored h ..
  | debugStop => exact execDebugStop_stored h ..
  | debugArm => exact execDebugArm_stored h ..
  | debugStopRequest => exact execDebugStopRequest_stored h ..
  | debugResume => exact execDebugResume_stored h ..
  | queueEntryConsume => exact execQueueEntryConsume_stored h ..
  | qtail => exact execQtail_stored h ..
  | launchLeaveWaits => exact execLaunchLeaveWaits_stored h ..
  | launchEnd => exact execLaunchEnd_stored h ..
  | placementEnd => exact execPlacementEnd_stored h ..
  | journalHead => exact execJournalHead_stored h ..
  | faultLogHead => exact execFaultLogHead_stored h ..
  | fresRetry => exact execFresRetry_stored h ..
  | fresDeliver => exact execFresDeliver_stored h ..
  | fresEnd => exact execFresEnd_stored h ..
  | tqseq => exact execTqseq_stored h ..
  | tinv => exact execTinv_stored h ..
  | tinvl => exact execTinvl_stored h ..
  | translationInvalidationDone => exact execTranslationInvalidationDone_stored h ..
  | errstClear => exact execErrstClear_stored h ..
  | deviceReset => exact execDeviceReset_stored h ..
  | placeEnable => exact execPlaceEnable_stored h ..
  | plim => exact execPlim_stored h ..
  | fabricConfigWrite => exact execFabricConfigWrite_stored h ..
  | registerWrite => exact execRegisterWrite_stored h ..
  | hostBar2Read => exact execHostBar2Read_stored h ..
  | hostBar2Write => exact execHostBar2Write_stored h ..
  | hostBar4Access => exact execHostBar4Access_stored h ..
  | linkReset => exact execLinkReset_stored h ..
  | serviceMailbox => exact execServiceMailbox_stored h ..
  | fabricArrival => exact execFabricArrival_stored h ..
  | linkFailure => exact execLinkFailure_stored h ..
  | fabricRequestTimeout => exact execFabricRequestTimeout_stored h ..
  | budgetWindow => exact execBudgetWindow_stored h ..
  | retentionMeasurement => exact execRetentionMeasurement_stored h ..
  | trainingComplete => exact execTrainingComplete_stored h ..
  | fullServiceEntry => exact execFullServiceEntry_stored h ..
  | bankOwnPrecharge => exact execBankOwnPrecharge_stored h ..
  | commandSuspensionStop => exact execCommandSuspensionStop_stored h ..
  | watchdogTrapTaken => exact execWatchdogTrapTaken_stored h ..
  | qsize => exact execQsize_stored h ..
  | qbase => exact execQbase_stored h ..
  | tableQueryResult => exact execTableQueryResult_stored h ..
  | rowTagWrite => exact execRowTagWrite_stored h ..

/-- Every step that answers a next state keeps the canonical form of the memories. -/
theorem step_stored {s : State} (h : s.stored = true) : Out.stored (step s) = true :=
  stepWith_stored (fun i _ ht => exec_stored i ht) h nextEvent_keeps

end Sys2Proof.Machine

open Sys2Proof Sys2Proof.Machine in
/-- Settles O20: a step is a word, a fetch, an event or an empty cycle, and each of them keeps the canonical form. -/
theorem stepKeepsMemoriesCanonical : Obligations.StepKeepsMemoriesCanonical := by
  unfold Obligations.StepKeepsMemoriesCanonical
  intro s s' h next
  have kept := step_stored h
  rwa [next] at kept
end

