-- ==== Sys2Proof/Proofs/WordOperands.lean ====
section
/-! PROOF. The operand fields and the codes of the modifiers (R20, R21, R35, R90): each parser reads exactly what the encoder
writes. -/

namespace Sys2Proof

@[simp] theorem DecM.bind_eq_ok {α β : Type} (x : DecM α) (f : α → DecM β) (b : β) :
    (x >>= f) = .ok b ↔ ∃ a, x = .ok a ∧ f a = .ok b := by
  cases x with
  | error e => exact ⟨nofun, fun ⟨_, h, _⟩ => nomatch h⟩
  | ok a => exact ⟨fun h => ⟨a, rfl, h⟩, fun ⟨_, h, h'⟩ => by cases h; exact h'⟩

@[simp] theorem DecM.error_bind {α β : Type} (e : DecodeErr) (f : α → DecM β) : ((.error e : DecM α) >>= f) = .error e := rfl

@[simp] theorem DecM.map_eq_ok {α β : Type} (x : DecM α) (f : α → β) (b : β) :
    (f <$> x) = .ok b ↔ ∃ a, x = .ok a ∧ f a = b := by
  cases x with
  | error e => exact ⟨nofun, fun ⟨_, h, _⟩ => nomatch h⟩
  | ok a => exact ⟨fun h => ⟨a, rfl, Except.ok.inj h⟩, fun ⟨_, h, h'⟩ => by cases h; exact congrArg _ h'⟩

/-- What a check in a decoder lets through. -/
@[simp] theorem DecM.ite_eq_ok {α : Type} (c : Prop) [Decidable c] (x : DecM α) (e : DecodeErr) (a : α) :
    (if c then x else .error e) = .ok a ↔ c ∧ x = .ok a := by split <;> simp [*]

@[simp] theorem DecM.ite_error_eq_ok {α : Type} (c : Prop) [Decidable c] (x : DecM α) (e : DecodeErr) (a : α) :
    (if c then .error e else x) = .ok a ↔ ¬ c ∧ x = .ok a := by split <;> simp [*]

theorem eReg_toNat {file k : Nat} (h : file * 2 ^ 14 + k < 2 ^ 20) : (eReg file k).toNat = file * 2 ^ 14 + k := by
  rw [eReg, BitVec.toNat_ofNat, Nat.mod_eq_of_lt h]

theorem pReg_eq_ok {file n : Nat} (h : file * 2 ^ 14 + n ≤ 2 ^ 20) {v : BitVec 20} {r : Fin n} :
    pReg file n v = .ok r ↔ v = eReg file r.val := by
  have hr := r.isLt
  have he : (eReg file r.val).toNat = file * 2 ^ 14 + r.val := eReg_toNat (by omega)
  unfold pReg
  constructor
  · split
    · next hv =>
      intro e
      have : v.toNat - file * 2 ^ 14 = r.val := congrArg Fin.val (Except.ok.inj e)
      apply BitVec.eq_of_toNat_eq
      rw [he]; omega
    · nofun
  · rintro rfl
    rw [dif_pos (by rw [he]; omega)]
    exact congrArg _ (Fin.ext (by simp only [he]; omega))

@[simp] theorem pX_eq_ok {v : BitVec 20} {r : XReg} : pX v = .ok r ↔ v = eX r := pReg_eq_ok (by decide)
@[simp] theorem pP_eq_ok {v : BitVec 20} {r : PReg} : pP v = .ok r ↔ v = eP r := pReg_eq_ok (by decide)
@[simp] theorem pO_eq_ok {v : BitVec 20} {g : Lat} : pO v = .ok g ↔ v = eO g := pReg_eq_ok (by decide)
@[simp] theorem pM_eq_ok {v : BitVec 20} {m : Msk} : pM v = .ok m ↔ v = eM m := pReg_eq_ok (by decide)
@[simp] theorem pA_eq_ok {v : BitVec 20} {a : Acc} : pA v = .ok a ↔ v = eA a := pReg_eq_ok (by decide)

@[simp] theorem pG_eq_ok {v : BitVec 20} {l : GLat} : pG v = .ok l ↔ v = eG l := by
  obtain ⟨⟨b, hb⟩, ⟨g, hg⟩⟩ := l
  simp only [pG, DecM.bind_eq_ok, pReg_eq_ok (file := 6) (n := 64) (by decide), Except.ok.injEq, GLat.mk.injEq, Fin.mk.injEq, eG]
  constructor
  · rintro ⟨k, rfl, hb, hg⟩
    exact congrArg (eReg 6) (by omega)
  · rintro rfl
    exact ⟨⟨b * 4 + g, by omega⟩, rfl, by simp only []; omega, by simp only []; omega⟩

@[simp] theorem pZero_eq_ok {v : BitVec 20} {u : Unit} : pZero v = .ok u ↔ v = 0 := by simp [pZero]

/-- The class of an operand field: its two highest bits (R20). -/
theorem field_class_imm {v : BitVec 20} {i : BitVec 18} : (v.toNat / 2 ^ 18 = 1 ∧ v.extractLsb' 0 18 = i) ↔ v = eImm i := by
  have hi := i.isLt
  have he : (eImm i).toNat = 2 ^ 18 + i.toNat := by
    rw [eImm, BitVec.toNat_append, ← Nat.shiftLeft_add_eq_or_of_lt i.isLt]; rfl
  constructor
  · rintro ⟨h, rfl⟩
    apply BitVec.eq_of_toNat_eq
    rw [he, BitVec.extractLsb'_toNat]; omega
  · rintro rfl
    refine ⟨by rw [he]; omega, BitVec.eq_of_toNat_eq ?_⟩
    rw [BitVec.extractLsb'_toNat, he]; omega

@[simp] theorem pImm_eq_ok {v : BitVec 20} {i : BitVec 18} : pImm v = .ok i ↔ v = eImm i := by
  simp [pImm, ← field_class_imm]

theorem pLong_eq_ok {v : BitVec 20} {s : LongSel} : (v.toNat / 2 ^ 18 = 2 ∧ pLong v = .ok s) ↔ v = eLong s := by
  constructor
  · rintro ⟨hc, h⟩
    simp only [pLong, DecM.ite_error_eq_ok, not_not] at h
    obtain ⟨hlow, h⟩ := h
    apply BitVec.eq_of_toNat_eq
    split at h <;> cases h <;> simp only [eLong, BitVec.reduceToNat] <;> omega
  · rintro rfl
    rcases s with _ | hi | hi
    · exact ⟨rfl, rfl⟩
    all_goals cases hi <;> exact ⟨rfl, rfl⟩

theorem eX_toNat (r : XReg) : (eX r).toNat = r.val := by rw [eX, eReg_toNat (by omega)]; omega

theorem eImm_toNat (i : BitVec 18) : (eImm i).toNat = 2 ^ 18 + i.toNat := by
  rw [eImm, BitVec.toNat_append, ← Nat.shiftLeft_add_eq_or_of_lt i.isLt]; rfl

@[simp] theorem pSrc_eq_ok {v : BitVec 20} {s : Src} : pSrc v = .ok s ↔ v = eSrc s := by
  constructor
  · unfold pSrc
    split
    · simp only [DecM.map_eq_ok, pX_eq_ok]
      rintro ⟨r, rfl, rfl⟩; rfl
    · next hc =>
      intro h
      cases h
      exact field_class_imm.mp ⟨hc, rfl⟩
    · next hc =>
      simp only [DecM.map_eq_ok]
      rintro ⟨l, hl, rfl⟩
      exact pLong_eq_ok.mp ⟨hc, hl⟩
    · nofun
  · rintro rfl
    cases s with
    | x r =>
      have hc : (eX r).toNat / 2 ^ 18 = 0 := by rw [eX_toNat]; omega
      simp only [pSrc, eSrc, hc, DecM.map_eq_ok, pX_eq_ok]
      exact ⟨r, rfl, rfl⟩
    | imm i =>
      obtain ⟨hc, hi⟩ := field_class_imm.mpr (rfl : eImm i = _)
      simp only [pSrc, eSrc, hc, hi]
    | long l =>
      obtain ⟨hc, hl⟩ := pLong_eq_ok.mpr (rfl : eLong l = _)
      simp only [pSrc, eSrc, hc, hl]
      rfl


@[simp] theorem pSrcIf_eq_ok {ok : Src → Bool} {v : BitVec 20} {s : Src} :
    pSrcIf ok v = .ok s ↔ v = eSrc s ∧ ok s = true := by
  simp only [pSrcIf, DecM.bind_eq_ok, pSrc_eq_ok, DecM.ite_eq_ok, Except.ok.injEq]
  constructor
  · rintro ⟨_, hv, hs, rfl⟩; exact ⟨hv, hs⟩
  · rintro ⟨hv, hs⟩; exact ⟨s, hv, hs, rfl⟩
@[simp] theorem pDisp_eq_ok {v : BitVec 20} {s : Src} : pDisp v = .ok s ↔ v = eSrc s ∧ s.notX = true := pSrcIf_eq_ok
@[simp] theorem pF_eq_ok {v : BitVec 20} {s : Src} : pF v = .ok s ↔ v = eSrc s ∧ s.notImm = true := pSrcIf_eq_ok
@[simp] theorem pXI_eq_ok {v : BitVec 20} {s : Src} : pXI v = .ok s ↔ v = eSrc s ∧ s.notLong = true := pSrcIf_eq_ok

/-! ### Files -/

/-- The file of a register field (R21). -/
theorem eReg_file {file k : Nat} (hf : file < 8) (hk : k < 2 ^ 14) : (eReg file k).toNat / 2 ^ 14 = file := by
  rw [eReg_toNat (by omega)]; omega
theorem eX_file (r : XReg) : (eX r).toNat / 2 ^ 14 = 0 := eReg_file (by decide) (by omega)
theorem eP_file (r : PReg) : (eP r).toNat / 2 ^ 14 = 1 := eReg_file (by decide) (by omega)
theorem eO_file (g : Lat) : (eO g).toNat / 2 ^ 14 = 2 := eReg_file (by decide) (by omega)
theorem eM_file (m : Msk) : (eM m).toNat / 2 ^ 14 = 3 := eReg_file (by decide) (by omega)
theorem eG_file (l : GLat) : (eG l).toNat / 2 ^ 14 = 6 := eReg_file (by decide) (by omega)
/-- A scalar source is an `x` register, or its class is not 00. -/
theorem eSrc_file (s : Src) : (eSrc s).toNat / 2 ^ 14 = 0 ∨ 16 ≤ (eSrc s).toNat / 2 ^ 14 := by
  cases s with
  | x r => exact .inl (eX_file r)
  | imm i => right; rw [eSrc, eImm_toNat]; omega
  | long l => right; have := (pLong_eq_ok.mpr (rfl : eLong l = _)).1; rw [eSrc]; omega

@[simp] theorem pXP_eq_ok {v : BitVec 20} {d : XP} : pXP v = .ok d ↔ v = eXP d := by
  constructor
  · unfold pXP
    split <;> simp only [DecM.map_eq_ok, pP_eq_ok, pX_eq_ok] <;> rintro ⟨r, rfl, rfl⟩ <;> rfl
  · rintro rfl
    cases d with
    | x r => rw [pXP, eXP, eX_file, if_neg (by decide)]; simp
    | p r => rw [pXP, eXP, eP_file, if_pos rfl]; simp

@[simp] theorem pLg_eq_ok {v : BitVec 20} {l : LatRef} : pLg v = .ok l ↔ v = eLg l := by
  constructor
  · unfold pLg
    split <;> simp only [DecM.map_eq_ok, pG_eq_ok, pO_eq_ok] <;> rintro ⟨r, rfl, rfl⟩ <;> rfl
  · rintro rfl
    cases l with
    | own g => rw [pLg, eLg, eO_file, if_neg (by decide)]; simp
    | gang l => rw [pLg, eLg, eG_file, if_pos rfl]; simp

theorem eLg_file (l : LatRef) : (eLg l).toNat / 2 ^ 14 = 6 ∨ (eLg l).toNat / 2 ^ 14 = 2 := by
  cases l with
  | own g => exact .inr (eO_file g)
  | gang l => exact .inl (eG_file l)

@[simp] theorem pLS_eq_ok {v : BitVec 20} {l : LOp} : pLS v = .ok l ↔ v = eLS l := by
  constructor
  · unfold pLS
    split <;> simp only [DecM.map_eq_ok, pLg_eq_ok, pSrc_eq_ok] <;> rintro ⟨r, rfl, rfl⟩ <;> rfl
  · rintro rfl
    cases l with
    | lat l => rw [pLS, eLS, if_pos (eLg_file l)]; simp
    | s a => rw [pLS, eLS, if_neg (by have := eSrc_file a; omega)]; simp

/-- An optional operand, of a form whose field is never zero. -/
theorem pOpt_eq_ok {α : Type} {p : BitVec 20 → DecM α} {e : α → BitVec 20} (hp : ∀ v x, p v = .ok x ↔ v = e x)
    (he : ∀ x, e x ≠ 0) {v : BitVec 20} {o : Option α} : pOpt p v = .ok o ↔ v = eOpt e o := by
  unfold pOpt
  split
  · next h =>
    cases o with
    | none => simp [eOpt, h]
    | some x => simp only [eOpt, h, reduceCtorEq, Except.ok.injEq, (he x).symm]
  · next h => cases o <;> simp [eOpt, hp]; exact h

@[simp] theorem pOpt_mask_eq_ok {v : BitVec 20} {o : Option Msk} : pOpt pM v = .ok o ↔ v = eOpt eM o :=
  pOpt_eq_ok (fun _ _ => pM_eq_ok) fun m h => by have := eM_file m; rw [h] at this; simp at this

/-- A scale operand is there exactly when its bit says so (R233). -/
@[simp] theorem pScale_eq_ok {on : Bool} {v : BitVec 20} {o : Option GLat} :
    pScale on v = .ok o ↔ on = o.isSome ∧ v = eOpt eG o := by
  cases on <;> cases o <;> simp [pScale, eOpt]

@[simp] theorem pComp_eq_ok {n : Nat} {v : BitVec 20} {c : CompSpec} :
    pComp n v = .ok c ↔ n = c.code ∧ v = eComp c := by
  unfold pComp
  split
  case h_4 h0 h1 h2 => cases c <;> simp [CompSpec.code] <;> intro h <;> contradiction
  all_goals cases c <;> simp [CompSpec.code, eComp]

/-! ### Codes -/

@[simp] theorem Hint.ofCode_eq_ok {n : Nat} {x : Hint} : Hint.ofCode n = .ok x ↔ n = x.code :=
  ⟨by unfold ofCode; split <;> rintro ⟨⟩ <;> rfl, by rintro rfl; cases x <;> rfl⟩
@[simp] theorem FFmt.ofCode_eq_ok {n : Nat} {x : FFmt} : FFmt.ofCode n = .ok x ↔ n = x.code :=
  ⟨by unfold ofCode; split <;> rintro ⟨⟩ <;> rfl, by rintro rfl; cases x <;> rfl⟩
@[simp] theorem FRm.ofCode_eq_ok {n : Nat} {x : FRm} : FRm.ofCode n = .ok x ↔ n = x.code :=
  ⟨by unfold ofCode; split <;> rintro ⟨⟩ <;> rfl, by rintro rfl; cases x <;> rfl⟩
@[simp] theorem CvtTy.ofCode_eq_ok {n : Nat} {x : CvtTy} : CvtTy.ofCode n = .ok x ↔ n = x.code :=
  ⟨by unfold ofCode; split <;> rintro ⟨⟩ <;> rfl, by rintro rfl; cases x <;> rfl⟩
@[simp] theorem Cond.ofCode_eq_ok {n : Nat} {x : Cond} : Cond.ofCode n = .ok x ↔ n = x.code :=
  ⟨by unfold ofCode; split <;> rintro ⟨⟩ <;> rfl, by rintro rfl; cases x <;> rfl⟩
@[simp] theorem FCond.ofCode_eq_ok {n : Nat} {x : FCond} : FCond.ofCode n = .ok x ↔ n = x.code :=
  ⟨by unfold ofCode; split <;> rintro ⟨⟩ <;> rfl, by rintro rfl; cases x <;> rfl⟩
@[simp] theorem VCond.ofCode_eq_ok {n : Nat} {x : VCond} : VCond.ofCode n = .ok x ↔ n = x.code :=
  ⟨by unfold ofCode; split <;> rintro ⟨⟩ <;> rfl, by rintro rfl; cases x <;> rfl⟩
@[simp] theorem WCond.ofCode_eq_ok {n : Nat} {x : WCond} : WCond.ofCode n = .ok x ↔ n = x.code :=
  ⟨by unfold ofCode; split <;> rintro ⟨⟩ <;> rfl, by rintro rfl; cases x <;> rfl⟩
@[simp] theorem POp.ofCode_eq_ok {n : Nat} {x : POp} : POp.ofCode n = .ok x ↔ n = x.code :=
  ⟨by unfold ofCode; split <;> rintro ⟨⟩ <;> rfl, by rintro rfl; cases x <;> rfl⟩
@[simp] theorem ExtSize.ofCode_eq_ok {n : Nat} {x : ExtSize} : ExtSize.ofCode n = .ok x ↔ n = x.code :=
  ⟨by unfold ofCode; split <;> rintro ⟨⟩ <;> rfl, by rintro rfl; cases x <;> rfl⟩
@[simp] theorem BallotMode.ofCode_eq_ok {n : Nat} {x : BallotMode} : BallotMode.ofCode n = .ok x ↔ n = x.code :=
  ⟨by unfold ofCode; split <;> rintro ⟨⟩ <;> rfl, by rintro rfl; cases x <;> rfl⟩
@[simp] theorem HidSel.ofCode_eq_ok {n : Nat} {x : HidSel} : HidSel.ofCode n = .ok x ↔ n = x.code :=
  ⟨by unfold ofCode; split <;> rintro ⟨⟩ <;> rfl, by rintro rfl; cases x <;> rfl⟩
@[simp] theorem CvtFmt.ofCode_eq_ok {n : Nat} {x : CvtFmt} : CvtFmt.ofCode n = .ok x ↔ n = x.code :=
  ⟨by unfold ofCode; split <;> rintro ⟨⟩ <;> rfl, by rintro rfl; cases x <;> rfl⟩
@[simp] theorem WideFmt.ofCode_eq_ok {n : Nat} {x : WideFmt} : WideFmt.ofCode n = .ok x ↔ n = x.code :=
  ⟨by unfold ofCode; split <;> rintro ⟨⟩ <;> rfl, by rintro rfl; cases x <;> rfl⟩
@[simp] theorem BFmt.ofCode_eq_ok {n : Nat} {x : BFmt} : BFmt.ofCode n = .ok x ↔ n = x.code :=
  ⟨by unfold ofCode; split <;> rintro ⟨⟩ <;> rfl, by rintro rfl; cases x <;> rfl⟩
@[simp] theorem AFmt.ofCode_eq_ok {n : Nat} {x : AFmt} : AFmt.ofCode n = .ok x ↔ n = x.code :=
  ⟨by unfold ofCode; split <;> rintro ⟨⟩ <;> rfl, by rintro rfl; cases x <;> rfl⟩
@[simp] theorem AccFmt.ofCode_eq_ok {n : Nat} {x : AccFmt} : AccFmt.ofCode n = .ok x ↔ n = x.code :=
  ⟨by unfold ofCode; split <;> rintro ⟨⟩ <;> rfl, by rintro rfl; cases x <;> rfl⟩
@[simp] theorem LdTy.ofCode_eq_ok {n : Nat} {x : LdTy} : LdTy.ofCode n = .ok x ↔ n = x.code :=
  ⟨by unfold ofCode; split <;> rintro ⟨⟩ <;> rfl, by rintro rfl; cases x <;> rfl⟩
@[simp] theorem StSz.ofCode_eq_ok {n : Nat} {x : StSz} : StSz.ofCode n = .ok x ↔ n = x.code :=
  ⟨by unfold ofCode; split <;> rintro ⟨⟩ <;> rfl, by rintro rfl; cases x <;> rfl⟩
@[simp] theorem AOp.ofCode_eq_ok {n : Nat} {x : AOp} : AOp.ofCode n = .ok x ↔ n = x.code :=
  ⟨by unfold ofCode; split <;> rintro ⟨⟩ <;> rfl, by rintro rfl; cases x <;> rfl⟩
@[simp] theorem CasSize.ofCode_eq_ok {n : Nat} {x : CasSize} : CasSize.ofCode n = .ok x ↔ n = x.code :=
  ⟨by unfold ofCode; split <;> rintro ⟨⟩ <;> rfl, by rintro rfl; cases x <;> rfl⟩
@[simp] theorem Scope.ofCode_eq_ok {n : Nat} {x : Scope} : Scope.ofCode n = .ok x ↔ n = x.code :=
  ⟨by unfold ofCode; split <;> rintro ⟨⟩ <;> rfl, by rintro rfl; cases x <;> rfl⟩
@[simp] theorem SfstatSel.ofCode_eq_ok {n : Nat} {x : SfstatSel} : SfstatSel.ofCode n = .ok x ↔ n = x.code :=
  ⟨by unfold ofCode; split <;> rintro ⟨⟩ <;> rfl, by rintro rfl; cases x <;> rfl⟩
@[simp] theorem Csr.ofCode_eq_ok {n : Nat} {x : Csr} : Csr.ofCode n = .ok x ↔ n = x.code :=
  ⟨by unfold ofCode; split <;> rintro ⟨⟩ <;> rfl, by rintro rfl; cases x <;> rfl⟩
@[simp] theorem CtxqSel.ofCode_eq_ok {n : Nat} {x : CtxqSel} : CtxqSel.ofCode n = .ok x ↔ n = x.code :=
  ⟨by unfold ofCode; split <;> rintro ⟨⟩ <;> rfl, by rintro rfl; cases x <;> rfl⟩

end Sys2Proof
end

