-- ==== Sys2Proof/Proofs/WordModifiers.lean ====
section
/-! PROOF. MOD, the header and the 96-bit word (R14, R15, R18, R19): what each reader of MOD accepts, and that a word is its
fields. -/

namespace Sys2Proof

/-! ### MOD -/

theorem b2n_lt (b : Bool) : b2n b < 2 := by cases b <;> decide
theorem b2n_nbit (n k : Nat) : b2n (nbit n k) = n / 2 ^ k % 2 := by
  unfold b2n nbit; split <;> simp_all
theorem nbit_eq_iff {n k : Nat} {b : Bool} : nbit n k = b ↔ n / 2 ^ k % 2 = b2n b := by
  cases b <;> simp [nbit, b2n]
theorem b2n_beq_one {n : Nat} (h : n < 2) : b2n (n == 1) = n := by
  obtain rfl | rfl : n = 0 ∨ n = 1 := by omega
  all_goals rfl
theorem b2n_getLsbD (v : BitVec 12) (k : Nat) : b2n (v.getLsbD k) = v.toNat / 2 ^ k % 2 := by
  rw [BitVec.getLsbD, ← b2n_nbit, nbit, Nat.testBit_eq_decide_div_mod_eq]; rfl
theorem b2n_inj {a b : Bool} (h : b2n a = b2n b) : a = b := by revert h; cases a <;> cases b <;> decide

theorem mN_toNat {n : Nat} (h : n < 4096) : (mN n).toNat = n := by rw [mN, BitVec.toNat_ofNat, Nat.mod_eq_of_lt h]
theorem eq_mN {v : BitVec 12} {n : Nat} (h : n < 4096) : v = mN n ↔ v.toNat = n := by
  rw [← BitVec.toNat_inj, mN_toNat h]

@[simp] theorem noMod_eq_ok {f : Fields} {u : Unit} : f.noMod = .ok u ↔ f.mod = 0 := by simp [Fields.noMod]

theorem modBelow_eq_ok {f : Fields} {n m : Nat} (h : n ≤ 4096) : f.modBelow n = .ok m ↔ f.mod = mN m ∧ m < n := by
  simp only [Fields.modBelow, DecM.ite_eq_ok, Except.ok.injEq]
  constructor
  · rintro ⟨hlt, rfl⟩
    exact ⟨(eq_mN (by omega)).mpr rfl, hlt⟩
  · rintro ⟨hm, hlt⟩
    rw [eq_mN (by omega)] at hm
    exact ⟨by omega, hm⟩

theorem modW_eq_ok {f : Fields} {n : Nat} {m : Bool × Nat} (h : n ≤ 2048) :
    f.modW n = .ok m ↔ f.mod = mW m.1 m.2 ∧ m.2 < n := by
  obtain ⟨w, m⟩ := m
  have hw := b2n_lt w
  have hv := f.mod.isLt
  have hb := b2n_getLsbD f.mod 11
  simp only [Fields.modW, DecM.ite_eq_ok, Except.ok.injEq, Prod.mk.injEq]
  constructor
  · rintro ⟨hlt, rfl, rfl⟩
    exact ⟨(eq_mN (by omega)).mpr (by omega), hlt⟩
  · rintro ⟨hm, hlt⟩
    replace hm := (eq_mN (by omega)).mp hm
    exact ⟨by omega, b2n_inj (by omega), by omega⟩

theorem mask_eq_ok {f : Fields} {n : Nat} {r : MaskMod × Nat} (h : n ≤ 128) :
    f.mask n = .ok r ↔ f.mod = mMask r.1 r.2 ∧ r.1.wf = true ∧ r.2 < n := by
  obtain ⟨⟨me, mn, ⟨mi, hi⟩⟩, m⟩ := r
  have he := b2n_lt me
  have hn := b2n_lt mn
  have hv := f.mod.isLt
  have h3 := b2n_getLsbD f.mod 3
  have h4 := b2n_getLsbD f.mod 4
  simp only [Fields.mask, DecM.ite_eq_ok, Except.ok.injEq, Prod.mk.injEq, MaskMod.mk.injEq, Fin.mk.injEq]
  constructor
  · rintro ⟨⟨hlt, hwf⟩, ⟨rfl, rfl, rfl⟩, rfl⟩
    exact ⟨(eq_mN (by dsimp only; omega)).mpr (by dsimp only; omega), hwf, hlt⟩
  · rintro ⟨hm, hwf, hlt⟩
    replace hm := (eq_mN (by dsimp only; omega)).mp hm
    dsimp only at hm hlt
    obtain ⟨rfl, rfl, rfl⟩ : f.mod.getLsbD 3 = me ∧ f.mod.getLsbD 4 = mn ∧ f.mod.toNat % 8 = mi :=
      ⟨b2n_inj (by omega), b2n_inj (by omega), by omega⟩
    exact ⟨⟨by omega, hwf⟩, ⟨rfl, rfl, rfl⟩, by omega⟩

theorem maskOn_eq_ok {f : Fields} {n : Nat} {r : MaskMod × Nat} (h : n ≤ 128) :
    f.maskOn n = .ok r ↔ f.mod = mMask r.1 r.2 ∧ r.1.wfOn = true ∧ r.2 < n := by
  simp only [Fields.maskOn, DecM.bind_eq_ok, mask_eq_ok h, DecM.ite_eq_ok, Except.ok.injEq, MaskMod.wfOn]
  constructor
  · rintro ⟨_, ⟨hm, -, hlt⟩, hon, rfl⟩; exact ⟨hm, hon, hlt⟩
  · rintro ⟨hm, hon, hlt⟩; exact ⟨r, ⟨hm, by simp [MaskMod.wf, hon], hlt⟩, hon, rfl⟩

theorem wideFmt_code_lt (w : WideFmt) : w.code < 3 := by cases w <;> decide
theorem fFmt_code_lt (x : FFmt) : x.code < 4 := by cases x <;> decide
theorem fRm_code_lt (x : FRm) : x.code < 5 := by cases x <;> decide

@[simp] theorem scaled_eq_ok {f : Fields} {r : WideFmt × BitVec 4 × BitVec 4} :
    f.scaled = .ok r ↔ f.mod = mScaled r.1 r.2.1 r.2.2 := by
  obtain ⟨wf, seg, part⟩ := r
  have hw := wideFmt_code_lt wf
  have hs := seg.isLt
  have hp := part.isLt
  simp only [Fields.scaled, DecM.bind_eq_ok, DecM.ite_eq_ok, WideFmt.ofCode_eq_ok, Except.ok.injEq, Prod.mk.injEq]
  constructor
  · rintro ⟨_, hc, hlt, rfl, rfl, rfl⟩
    refine (eq_mN (by omega)).mpr ?_
    simp only [BitVec.extractLsb'_toNat]; omega
  · intro hm
    replace hm := (eq_mN (by omega)).mp hm
    refine ⟨wf, by omega, by omega, rfl, BitVec.eq_of_toNat_eq ?_, BitVec.eq_of_toNat_eq ?_⟩
    all_goals rw [BitVec.extractLsb'_toNat]; omega

theorem fp_eq_ok {f : Fields} {n : Nat} {r : FFmt × FRm × Nat} (h : n ≤ 128) :
    f.fp n = .ok r ↔ f.mod = mFp r.1 r.2.1 r.2.2 ∧ r.2.2 < n := by
  obtain ⟨x, rm, m⟩ := r
  have hx := fFmt_code_lt x
  have hr := fRm_code_lt rm
  simp only [Fields.fp, DecM.bind_eq_ok, DecM.ite_eq_ok, FFmt.ofCode_eq_ok, FRm.ofCode_eq_ok, Except.ok.injEq, Prod.mk.injEq]
  constructor
  · rintro ⟨_, hc, _, hd, hlt, rfl, rfl, rfl⟩
    exact ⟨(eq_mN (by omega)).mpr (by omega), hlt⟩
  · rintro ⟨hm, hlt⟩
    replace hm := (eq_mN (by omega)).mp hm
    exact ⟨x, by omega, rm, by omega, by omega, rfl, rfl, by omega⟩

theorem fpNoRm_eq_ok {f : Fields} {n : Nat} {r : FFmt × Nat} (h : n ≤ 128) :
    f.fpNoRm n = .ok r ↔ f.mod = mFp r.1 .dyn r.2 ∧ r.2 < n := by
  obtain ⟨x, m⟩ := r
  have hx := fFmt_code_lt x
  simp only [Fields.fpNoRm, DecM.bind_eq_ok, DecM.ite_eq_ok, FFmt.ofCode_eq_ok, Except.ok.injEq, Prod.mk.injEq]
  have hv := f.mod.isLt
  constructor
  · rintro ⟨_, hc, ⟨hz, hlt⟩, rfl, rfl⟩
    exact ⟨(eq_mN (by simp only [FRm.code]; omega)).mpr (by simp only [FRm.code]; omega), hlt⟩
  · rintro ⟨hm, hlt⟩
    replace hm := (eq_mN (by simp only [FRm.code]; omega)).mp hm
    simp only [FRm.code] at hm hlt
    exact ⟨x, by omega, ⟨by omega, by omega⟩, rfl, by omega⟩

/-! ### The header and the fields -/

/-- The fields of a word with this header, given by its own fields (R14). -/
theorem hdr_eq_ok {f : Fields} {h : Hdr} : f.hdr = .ok h ↔ h.wf = true ∧ f = mk h f.opc.toNat f.mod f.d f.a f.b := by
  obtain ⟨c, gn, gp, stall, hint⟩ := h
  obtain ⟨opc, fc, fgn, fgp, fstall, fhint, mod, d, a, b⟩ := f
  have hh : hint.code < 3 := by cases hint <;> decide
  have hf := fhint.isLt
  have hint_iff : fhint = BitVec.ofNat 2 hint.code ↔ fhint.toNat = hint.code := by
    rw [← BitVec.toNat_inj, BitVec.toNat_ofNat, Nat.mod_eq_of_lt (by omega)]
  have gp_iff : fgp = BitVec.ofFin gp ↔ fgp.toFin = gp := ⟨by rintro rfl; rfl, by rintro rfl; rfl⟩
  simp only [Fields.hdr, DecM.error_bind, DecM.ite_error_eq_ok, DecM.bind_eq_ok, Hint.ofCode_eq_ok, Except.ok.injEq, Hdr.mk.injEq,
    Hdr.wf, mk, Fields.mk.injEq, BitVec.ofNat_toNat, BitVec.setWidth_eq, hint_iff, gp_iff]
  have zero : (gp == 0) = (BitVec.ofFin (w := 4) gp == 0) := by simp [← BitVec.toFin_inj]
  constructor
  · rintro ⟨hg, x, hx, rfl, rfl, rfl, rfl, rfl⟩
    cases fgn <;> simp_all
  · rintro ⟨hg, -, rfl, rfl, rfl, rfl, hx, -⟩
    cases fgn <;> simp_all

theorem append_toNat {m n : Nat} (x : BitVec m) (y : BitVec n) : (x ++ y).toNat = x.toNat * 2 ^ n + y.toNat := by
  rw [BitVec.toNat_append, ← Nat.shiftLeft_add_eq_or_of_lt y.isLt, Nat.shiftLeft_eq]
/-- The fields of a word as one number (R14). -/
theorem toWord_toNat (f : Fields) : f.toWord.toNat = f.opc.toNat * 2 ^ 86 + b2n f.c * 2 ^ 85 + b2n f.gn * 2 ^ 84 + f.gp.toNat * 2 ^ 80
    + f.stall.toNat * 2 ^ 74 + f.hint.toNat * 2 ^ 72 + f.mod.toNat * 2 ^ 60 + f.d.toNat * 2 ^ 40 + f.a.toNat * 2 ^ 20 + f.b.toNat := by
  have bit : ∀ b : Bool, (BitVec.ofBool b).toNat = b2n b := fun b => by cases b <;> rfl
  simp only [Fields.toWord, append_toNat, bit]
  omega

theorem getLsbD_eq_iff {n : Nat} {v : BitVec n} {k : Nat} {b : Bool} : v.getLsbD k = b ↔ v.toNat / 2 ^ k % 2 = b2n b := by
  rw [← nbit_eq_iff, BitVec.getLsbD, nbit, Nat.testBit_eq_decide_div_mod_eq]; rfl

@[simp] theorem ofWord_toWord (f : Fields) : Fields.ofWord f.toWord = f := by
  have h := toWord_toNat f
  obtain ⟨opc, c, gn, gp, stall, hint, mod, d, a, b⟩ := f
  have hc := b2n_lt c
  have hg := b2n_lt gn
  dsimp only at h
  simp only [Fields.ofWord, Fields.mk.injEq, getLsbD_eq_iff, ← BitVec.toNat_inj, BitVec.extractLsb'_toNat, Nat.shiftRight_eq_div_pow, h]
  omega
/-- A number above a bit position, with the digits below it down to another one. -/
theorem digits_below (n k l : Nat) : n / 2 ^ (k + l) * 2 ^ (k + l) + n / 2 ^ k % 2 ^ l * 2 ^ k = n / 2 ^ k * 2 ^ k := by
  rw [pow_add, ← Nat.div_div_eq_div_mul, Nat.mul_comm (2 ^ k), ← Nat.mul_assoc, ← Nat.add_mul, Nat.mul_comm _ (2 ^ l), Nat.div_add_mod]
@[simp] theorem toWord_ofWord (w : IWord) : (Fields.ofWord w).toWord = w := by
  apply BitVec.eq_of_toNat_eq
  have h : ∀ k, b2n (w.getLsbD k) = w.toNat / 2 ^ k % 2 ^ 1 := fun k => (getLsbD_eq_iff.mp rfl).symm
  have top : w.toNat / 2 ^ 86 % 2 ^ 10 = w.toNat / 2 ^ 86 := Nat.mod_eq_of_lt (by omega)
  have low : w.toNat % 2 ^ 20 = w.toNat / 2 ^ 0 % 2 ^ 20 * 2 ^ 0 := by omega
  have d := digits_below w.toNat
  simp only [toWord_toNat, Fields.ofWord, h, BitVec.extractLsb'_toNat, Nat.shiftRight_eq_div_pow, top]
  rw [d 85 1, d 84 1, d 80 4, d 74 6, d 72 2, d 60 12, d 40 20, d 20 20, Nat.pow_zero, Nat.div_one, low, d 0 20]
  omega

/-! ### What the encoder writes is read back -/

@[simp] theorem DecM.ok_bind {α β : Type} (a : α) (f : α → DecM β) : ((.ok a : DecM α) >>= f) = f a := rfl
@[simp] theorem pX_eX (x : XReg) : pX (eX x) = .ok x := pX_eq_ok.mpr rfl
@[simp] theorem pP_eP (x : PReg) : pP (eP x) = .ok x := pP_eq_ok.mpr rfl
@[simp] theorem pSrc_eSrc (x : Src) : pSrc (eSrc x) = .ok x := pSrc_eq_ok.mpr rfl

/-! The bounds of the codes. -/

@[simp] theorem CvtTy.code_lt (x : CvtTy) : x.code < 8 := by cases x <;> decide
@[simp] theorem Cond.code_lt (x : Cond) : x.code < 16 := by cases x <;> decide
@[simp] theorem FCond.code_lt (x : FCond) : x.code < 16 := by cases x <;> decide
@[simp] theorem VCond.code_lt (x : VCond) : x.code < 16 := by cases x <;> decide
@[simp] theorem WCond.code_lt (x : WCond) : x.code < 8 := by cases x <;> decide
@[simp] theorem POp.code_lt (x : POp) : x.code < 8 := by cases x <;> decide
@[simp] theorem ExtSize.code_lt (x : ExtSize) : x.code < 4 := by cases x <;> decide
@[simp] theorem BallotMode.code_lt (x : BallotMode) : x.code < 4 := by cases x <;> decide
@[simp] theorem HidSel.code_lt (x : HidSel) : x.code < 16 := by cases x <;> decide
@[simp] theorem CvtFmt.code_lt (x : CvtFmt) : x.code < 16 := by cases x <;> decide
@[simp] theorem BFmt.code_lt (x : BFmt) : x.code < 16 := by cases x <;> decide
@[simp] theorem AFmt.code_lt (x : AFmt) : x.code < 16 := by cases x <;> decide
@[simp] theorem AccFmt.code_lt (x : AccFmt) : x.code < 16 := by cases x <;> decide
@[simp] theorem LdTy.code_lt (x : LdTy) : x.code < 8 := by cases x <;> decide
@[simp] theorem StSz.code_lt (x : StSz) : x.code < 4 := by cases x <;> decide
@[simp] theorem AOp.code_lt (x : AOp) : x.code < 16 := by cases x <;> decide
@[simp] theorem CasSize.code_lt (x : CasSize) : x.code < 4 := by cases x <;> decide
@[simp] theorem Scope.code_lt (x : Scope) : x.code < 16 := by cases x <;> decide
@[simp] theorem SfstatSel.code_lt (x : SfstatSel) : x.code < 4 := by cases x <;> decide
@[simp] theorem CtxqSel.code_lt (x : CtxqSel) : x.code < 8 := by cases x <;> decide
@[simp] theorem CompSpec.code_lt (x : CompSpec) : x.code < 4 := by cases x <;> simp [code]

/-! The fields of a word that the encoder writes. -/

section
variable (h : Hdr) (o : Nat) (m : BitVec 12) (d a b : BitVec 20)

@[simp] theorem mk_opc : (mk h o m d a b).opc.toNat = o % 2 ^ 10 := BitVec.toNat_ofNat o 10
@[simp] theorem mk_hdr (hh : h.wf = true) : (mk h o m d a b).hdr = .ok h :=
  hdr_eq_ok.mpr ⟨hh, by simp only [mk, BitVec.ofNat_toNat, BitVec.setWidth_eq]⟩

end

@[simp] theorem b2n_beq (b : Bool) : (b2n b == 1) = b := by cases b <;> rfl

end Sys2Proof
end

