-- ==== Sys2Proof/Proofs/WordForms.lean ====
section
/-! PROOF. The forms that families of words share: for each, the four fields of a word that it accepts. -/

namespace Sys2Proof

/-! ### MOD holds one modifier -/

section
variable {α : Type} {f : Fields} {i : Instr}

/-- The four fields of a word that its operands and modifiers fill. -/
structure Fields.Has (f : Fields) (m : BitVec 12) (d a b : BitVec 20) : Prop where
  mod : f.mod = m
  d : f.d = d
  a : f.a = a
  b : f.b = b

theorem Fields.has_iff {m : BitVec 12} {d a b : BitVec 20} : f.Has m d a b ↔ f.mod = m ∧ f.d = d ∧ f.a = a ∧ f.b = b :=
  ⟨fun ⟨hm, hd, ha, hb⟩ => ⟨hm, hd, ha, hb⟩, fun ⟨hm, hd, ha, hb⟩ => ⟨hm, hd, ha, hb⟩⟩

theorem mk_has {h : Hdr} {o : Nat} {m : BitVec 12} {d a b : BitVec 20} : (mk h o m d a b).Has m d a b := ⟨rfl, rfl, rfl, rfl⟩

theorem modBelow_flag {P : Nat → Prop} : (∃ m, f.modBelow 2 = .ok m ∧ P m) ↔ ∃ x, f.mod = mN (b2n x) ∧ P (b2n x) := by
  simp only [modBelow_eq_ok (n := 2) (by decide)]
  constructor
  · rintro ⟨m, ⟨hm, hlt⟩, e⟩
    exact ⟨m == 1, by rw [b2n_beq_one hlt]; exact ⟨hm, e⟩⟩
  · rintro ⟨x, hm, e⟩
    exact ⟨_, ⟨hm, b2n_lt x⟩, e⟩

theorem modBelow_bits (n : Nat) {k : Nat} {P : Nat → Prop} (hk : k = 2 ^ n) (hn : n ≤ 12) :
    (∃ m, f.modBelow k = .ok m ∧ P m) ↔ ∃ x : BitVec n, f.mod = mN x.toNat ∧ P x.toNat := by
  subst hk
  have hle : 2 ^ n ≤ 4096 := Nat.pow_le_pow_right (by decide) hn
  simp only [modBelow_eq_ok hle]
  constructor
  · rintro ⟨m, ⟨hm, hlt⟩, e⟩
    exact ⟨⟨m, hlt⟩, hm, e⟩
  · rintro ⟨x, hm, e⟩
    exact ⟨_, ⟨hm, x.isLt⟩, e⟩

theorem mask_flag {P : MaskMod × Nat → Prop} :
    (∃ m, f.mask 2 = .ok m ∧ P m) ↔ ∃ q x, f.mod = mMask q (b2n x) ∧ q.wf = true ∧ P (q, b2n x) := by
  simp only [mask_eq_ok (n := 2) (by decide)]
  constructor
  · rintro ⟨⟨q, m⟩, ⟨hm, hq, hlt⟩, e⟩
    exact ⟨q, m == 1, by rw [b2n_beq_one hlt]; exact ⟨hm, hq, e⟩⟩
  · rintro ⟨q, x, hm, hq, e⟩
    exact ⟨(q, b2n x), ⟨hm, hq, b2n_lt x⟩, e⟩

/-- A modifier of its own type is read by `ofCode`, the inverse of `code`, whose values are below `n`. -/
structure Codes (ofCode : Nat → DecM α) (code : α → Nat) (n : Nat) : Prop where
  ofCode_eq_ok : ∀ m x, ofCode m = .ok x ↔ m = code x
  code_lt : ∀ x, code x < n

variable {ofCode : Nat → DecM α} {code : α → Nat} {n : Nat}

theorem modBelow_code {P : Nat → α → Prop} (hc : Codes ofCode code n) (hn : n ≤ 4096) :
    (∃ m, f.modBelow n = .ok m ∧ ∃ x, ofCode m = .ok x ∧ P m x) ↔ ∃ x, f.mod = mN (code x) ∧ P (code x) x := by
  simp only [modBelow_eq_ok hn, hc.ofCode_eq_ok]
  constructor
  · rintro ⟨_, ⟨hm, -⟩, x, rfl, e⟩; exact ⟨x, hm, e⟩
  · rintro ⟨x, hm, e⟩; exact ⟨_, ⟨hm, hc.code_lt x⟩, x, rfl, e⟩

theorem modW_code {P : Bool × Nat → α → Prop} (hc : Codes ofCode code n) (hn : n ≤ 2048) :
    (∃ m, f.modW n = .ok m ∧ ∃ x, ofCode m.2 = .ok x ∧ P m x) ↔ ∃ w x, f.mod = mW w (code x) ∧ P (w, code x) x := by
  simp only [modW_eq_ok hn, hc.ofCode_eq_ok]
  constructor
  · rintro ⟨⟨w, _⟩, ⟨hm, -⟩, x, rfl, e⟩; exact ⟨w, x, hm, e⟩
  · rintro ⟨w, x, hm, e⟩; exact ⟨(w, code x), ⟨hm, hc.code_lt x⟩, x, rfl, e⟩

theorem mask_code {P : MaskMod × Nat → α → Prop} (hc : Codes ofCode code n) (hn : n ≤ 128) :
    (∃ m, f.mask n = .ok m ∧ ∃ x, ofCode m.2 = .ok x ∧ P m x)
      ↔ ∃ q x, f.mod = mMask q (code x) ∧ q.wf = true ∧ P (q, code x) x := by
  simp only [mask_eq_ok hn, hc.ofCode_eq_ok]
  constructor
  · rintro ⟨⟨q, _⟩, ⟨hm, hq, -⟩, x, rfl, e⟩; exact ⟨q, x, hm, hq, e⟩
  · rintro ⟨q, x, hm, hq, e⟩; exact ⟨(q, code x), ⟨hm, hq, hc.code_lt x⟩, x, rfl, e⟩

theorem fpNoRm_code {P : FFmt × Nat → α → Prop} (hc : Codes ofCode code n) (hn : n ≤ 128) :
    (∃ m, f.fpNoRm n = .ok m ∧ ∃ x, ofCode m.2 = .ok x ∧ P m x) ↔ ∃ z x, f.mod = mFp z .dyn (code x) ∧ P (z, code x) x := by
  simp only [fpNoRm_eq_ok hn, hc.ofCode_eq_ok]
  constructor
  · rintro ⟨⟨z, _⟩, ⟨hm, -⟩, x, rfl, e⟩; exact ⟨z, x, hm, e⟩
  · rintro ⟨z, x, hm, e⟩; exact ⟨(z, code x), ⟨hm, hc.code_lt x⟩, x, rfl, e⟩

end

theorem Cond.codes : Codes ofCode code 16 := ⟨fun _ _ => ofCode_eq_ok, code_lt⟩
theorem FCond.codes : Codes ofCode code 16 := ⟨fun _ _ => ofCode_eq_ok, code_lt⟩
theorem VCond.codes : Codes ofCode code 16 := ⟨fun _ _ => ofCode_eq_ok, code_lt⟩
theorem WCond.codes : Codes ofCode code 8 := ⟨fun _ _ => ofCode_eq_ok, code_lt⟩
theorem POp.codes : Codes ofCode code 8 := ⟨fun _ _ => ofCode_eq_ok, code_lt⟩
theorem ExtSize.codes : Codes ofCode code 4 := ⟨fun _ _ => ofCode_eq_ok, code_lt⟩
theorem HidSel.codes : Codes ofCode code 16 := ⟨fun _ _ => ofCode_eq_ok, code_lt⟩
theorem Scope.codes : Codes ofCode code 16 := ⟨fun _ _ => ofCode_eq_ok, code_lt⟩
theorem SfstatSel.codes : Codes ofCode code 4 := ⟨fun _ _ => ofCode_eq_ok, code_lt⟩
theorem CtxqSel.codes : Codes ofCode code 8 := ⟨fun _ _ => ofCode_eq_ok, code_lt⟩
theorem AccFmt.codes : Codes ofCode code 16 := ⟨fun _ _ => ofCode_eq_ok, code_lt⟩
theorem AOp.codes : Codes ofCode code 16 := ⟨fun _ _ => ofCode_eq_ok, code_lt⟩
theorem CasSize.codes : Codes ofCode code 4 := ⟨fun _ _ => ofCode_eq_ok, code_lt⟩

/-! ### The forms that families share -/

section
variable {f : Fields} {i : Instr}

theorem two_eq_ok {k : XReg → Src → Src → Instr} :
    two f k = .ok i ↔ ∃ d a b, (f.d = eX d ∧ f.a = eSrc a ∧ f.b = eSrc b) ∧ k d a b = i := by
  simp [two, and_assoc]
theorem twoW_eq_ok {k : Bool → XReg → Src → Src → Instr} :
    twoW f k = .ok i ↔ ∃ w d a b, f.Has (mW w 0) (eX d) (eSrc a) (eSrc b) ∧ k w d a b = i := by
  simp [twoW, two_eq_ok, modW_eq_ok, Fields.has_iff, and_assoc]
theorem two0_eq_ok {k : XReg → Src → Src → Instr} :
    two0 f k = .ok i ↔ ∃ d a b, f.Has 0 (eX d) (eSrc a) (eSrc b) ∧ k d a b = i := by
  simp [two0, two_eq_ok, Fields.has_iff, and_assoc]
theorem oneW_eq_ok {k : Bool → XReg → Src → Instr} :
    oneW f k = .ok i ↔ ∃ w d a, f.Has (mW w 0) (eX d) (eSrc a) 0 ∧ k w d a = i := by
  simp [oneW, modW_eq_ok, Fields.has_iff]; grind
theorem bitField_eq_ok {k : BitVec 6 → BitVec 6 → XReg → Src → Instr} :
    bitField f k = .ok i ↔ ∃ pos len1 d a, f.Has (len1 ++ pos) (eX d) (eSrc a) 0 ∧ bfWf pos len1 = true ∧ k pos len1 d a = i := by
  have h : ∀ pos len1 : BitVec 6, f.mod = len1 ++ pos ↔ f.mod.extractLsb' 0 6 = pos ∧ f.mod.extractLsb' 6 6 = len1 := by
    intro pos len1
    have hv := f.mod.isLt
    have hp := pos.isLt
    have happ : (len1 ++ pos : BitVec 12).toNat = len1.toNat * 2 ^ 6 + pos.toNat := append_toNat len1 pos
    simp only [← BitVec.toNat_inj, BitVec.extractLsb'_toNat, happ, Nat.shiftRight_eq_div_pow]
    omega
  simp [bitField, h, Fields.has_iff]; grind
theorem extend_eq_ok {k : ExtSize → XReg → Src → Instr} :
    extend f k = .ok i ↔ ∃ z d a, f.Has (mN z.code) (eX d) (eSrc a) 0 ∧ k z d a = i := by
  simp only [extend, DecM.bind_eq_ok, modBelow_eq_ok (n := 4) (by decide), pZero_eq_ok, ExtSize.ofCode_eq_ok, pX_eq_ok, pSrc_eq_ok,
    Except.ok.injEq]
  constructor
  · rintro ⟨_, ⟨hm, -⟩, -, hb, z, rfl, d, hd, a, ha, e⟩; exact ⟨z, d, a, ⟨hm, hd, ha, hb⟩, e⟩
  · rintro ⟨z, d, a, ⟨hm, hd, ha, hb⟩, e⟩; exact ⟨_, ⟨hm, z.code_lt⟩, (), hb, z, rfl, d, hd, a, ha, e⟩
theorem fp2_eq_ok {k : FFmt → FRm → XReg → Src → Src → Instr} :
    fp2 f k = .ok i ↔ ∃ x rm d a b, f.Has (mFp x rm 0) (eX d) (eSrc a) (eSrc b) ∧ (a.notImm = true ∧ b.notImm = true)
      ∧ k x rm d a b = i := by
  simp [fp2, fp_eq_ok, Fields.has_iff]; grind
theorem fp1_eq_ok {k : FFmt → FRm → XReg → Src → Instr} :
    fp1 f k = .ok i ↔ ∃ x rm d a, f.Has (mFp x rm 0) (eX d) (eSrc a) 0 ∧ a.notImm = true ∧ k x rm d a = i := by
  simp [fp1, fp_eq_ok, Fields.has_iff]; grind
theorem fpMin_eq_ok {k : FFmt → XReg → Src → Src → Instr} :
    fpMin f k = .ok i ↔ ∃ x d a b, f.Has (mFp x .dyn 0) (eX d) (eSrc a) (eSrc b) ∧ (a.notImm = true ∧ b.notImm = true)
      ∧ k x d a b = i := by
  simp [fpMin, fpNoRm_eq_ok, Fields.has_iff]; grind
theorem fpSign_eq_ok {k : FFmt → XReg → Src → Instr} :
    fpSign f k = .ok i ↔ ∃ x d a, f.Has (mFp x .dyn 0) (eX d) (eSrc a) 0 ∧ a.notImm = true ∧ k x d a = i := by
  simp [fpSign, fpNoRm_eq_ok, Fields.has_iff]; grind
theorem lane2_eq_ok {k : MaskMod → Lat → LOp → LOp → Instr} :
    lane2 f k = .ok i ↔ ∃ q d a b, f.Has (mMask q 0) (eO d) (eLS a) (eLS b) ∧ q.wf = true ∧ k q d a b = i := by
  simp [lane2, mask_eq_ok, Fields.has_iff]; grind
theorem lane1_eq_ok {k : MaskMod → Lat → LOp → Instr} :
    lane1 f k = .ok i ↔ ∃ q d a, f.Has (mMask q 0) (eO d) (eLS a) 0 ∧ q.wf = true ∧ k q d a = i := by
  simp [lane1, mask_eq_ok, Fields.has_iff]; grind
theorem mask2_eq_ok {k : Msk → Msk → Msk → Instr} :
    mask2 f k = .ok i ↔ ∃ d a b, f.Has 0 (eM d) (eM a) (eM b) ∧ k d a b = i := by
  simp [mask2, Fields.has_iff, and_assoc]
theorem maskCount_eq_ok {k : MaskMod → XReg → Msk → Instr} :
    maskCount f k = .ok i ↔ ∃ q d a, f.Has (mMask q 0) (eX d) (eM a) 0 ∧ q.wf = true ∧ k q d a = i := by
  simp [maskCount, mask_eq_ok, Fields.has_iff]; grind
theorem scaledConv_eq_ok {writes : Bool} {k : WideFmt → BitVec 4 → BitVec 4 → Lat → LatRef → Lat → Instr} :
    scaledConv f writes k = .ok i ↔ ∃ wf seg part d a b, f.Has (mScaled wf seg part) (eO d) (eLg a) (eO b)
      ∧ (writes = true → scaleApart d a b = true) ∧ k wf seg part d a b = i := by
  simp [scaledConv, Fields.has_iff, and_assoc]
theorem reduce_eq_ok {k : MaskMod → XReg → LatRef → Src → Instr} :
    reduce f k = .ok i ↔ ∃ q d a b, f.Has (mMask q 0) (eX d) (eLg a) (eSrc b) ∧ q.wf = true ∧ k q d a b = i := by
  simp [reduce, mask_eq_ok, Fields.has_iff]; grind
theorem compress_eq_ok {k : MaskMod → Lat → LatRef → Instr} :
    compress f k = .ok i ↔ ∃ q d a, f.Has (mMask q 0) (eO d) (eLg a) 0 ∧ q.wfOn = true ∧ k q d a = i := by
  simp [compress, maskOn_eq_ok, Fields.has_iff]; grind
theorem bus_eq_ok {k : Lat → Lat → Src → Instr} :
    bus f k = .ok i ↔ ∃ d a b, f.Has 0 (eO d) (eO a) (eSrc b) ∧ k d a b = i := by
  simp [bus, Fields.has_iff, and_assoc]
theorem rowG_eq_ok {k : Lat → Instr} : rowG f k = .ok i ↔ ∃ d, f.Has 0 (eO d) 0 0 ∧ k d = i := by
  simp [rowG, Fields.has_iff]; grind
theorem rowR_eq_ok {k : Lat → Src → Instr} : rowR f k = .ok i ↔ ∃ d a, f.Has 0 (eO d) (eSrc a) 0 ∧ k d a = i := by
  simp [rowR, Fields.has_iff]; grind
theorem eX_inj {r s : XReg} (e : eX r = eX s) : r = s := Except.ok.inj ((pX_eX r).symm.trans (pX_eq_ok.mpr e))
theorem memD_eq_ok {k : XReg → XReg → Src → Instr} :
    memD f k = .ok i ↔ ∃ d a b, (f.d = eX d ∧ f.a = eX a ∧ f.b = eSrc b) ∧ b.notX = true ∧ k d a b = i := by
  simp [memD, and_assoc]
theorem objB_eq_ok {k : XReg → XReg → Src → Instr} :
    objB f k = .ok i ↔ ∃ d a b, f.Has 0 (eX d) (eX a) (eSrc b) ∧ k d a b = i := by
  simp [objB, Fields.has_iff, and_assoc]
theorem bare_eq_ok {k : Instr} : bare f k = .ok i ↔ f.Has 0 0 0 0 ∧ k = i := by
  simp [bare, Fields.has_iff, and_assoc]

theorem csr_code_lt (c : Csr) : c.code < 16384 := by cases c <;> decide
/-- The number of a control register (R380). -/
theorem pReg_csr {v : BitVec 20} {P : Csr → Prop} :
    (∃ n, pReg 5 16384 v = .ok n ∧ ∃ c, n.val = Csr.code c ∧ P c) ↔ ∃ c, v = eC c ∧ P c := by
  simp only [pReg_eq_ok (file := 5) (n := 16384) (by decide)]
  constructor
  · rintro ⟨_, hv, c, hc, e⟩; exact ⟨c, hv.trans (congrArg (eReg 5) hc), e⟩
  · rintro ⟨c, hv, e⟩; exact ⟨⟨c.code, csr_code_lt c⟩, hv, c, rfl, e⟩
theorem csrWrite_eq_ok {k : Csr → Src → Instr} :
    csrWrite f k = .ok i ↔ ∃ c a, f.Has 0 (eC c) (eSrc a) 0 ∧ k c a = i := by
  simp only [csrWrite, DecM.bind_eq_ok, Csr.ofCode_eq_ok, pReg_csr]
  simp [Fields.has_iff]; grind

/-- MOD, A and B of CINV and CWB: everything, or from a base on (R261). -/
def CRange.fields : CRange → BitVec 12 × BitVec 20 × BitVec 20
  | .all => (mN 1, 0, 0)
  | .range base len => (0, eX base, eSrc len)
theorem pRange_eq_ok {r : CRange} : pRange f = .ok r ↔ f.Has r.fields.1 0 r.fields.2.1 r.fields.2.2 := by
  simp only [pRange, DecM.bind_eq_ok, modBelow_eq_ok (n := 2) (by decide), pZero_eq_ok]
  constructor
  · rintro ⟨m, ⟨hm, hlt⟩, -, hd, h⟩
    split at h
    · next h1 =>
      subst h1
      simp only [DecM.ite_eq_ok, Except.ok.injEq] at h
      obtain ⟨⟨ha, hb⟩, rfl⟩ := h
      exact ⟨hm, hd, ha, hb⟩
    · next h1 =>
      simp only [DecM.bind_eq_ok, pX_eq_ok, pSrc_eq_ok, Except.ok.injEq] at h
      obtain ⟨base, ha, len, hb, rfl⟩ := h
      obtain rfl : m = 0 := by omega
      exact ⟨hm, hd, ha, hb⟩
  · rintro ⟨hm, hd, ha, hb⟩
    cases r with
    | all => exact ⟨1, ⟨hm, by decide⟩, (), hd, by rw [ha, hb]; rfl⟩
    | range base len => exact ⟨0, ⟨hm, by decide⟩, (), hd, by rw [ha, hb]; simp [CRange.fields]⟩

@[simp] theorem term_eq_ok {h : Hdr} {u : Unit} : term h = .ok u ↔ h.c = false := by simp [term]
@[simp] theorem plain_eq_ok {h : Hdr} {u : Unit} : plain h = .ok u ↔ h.gn = false ∧ h.gp = 0 := by
  cases hg : h.gn <;> simp [plain, hg]

end
end Sys2Proof
end

