-- ==== Sys2Proof/Proofs/Words.lean ====
section
/-! PROOF. The words of a form of their own whose fields hold one operand or modifier each: the four fields that each of them
accepts. -/

namespace Sys2Proof

/-! ### Words of a form of their own, whose fields hold one operand or modifier each -/

section
variable {f : Fields} {h : Hdr} {i : Instr}

theorem cmp_eq_ok (ho : f.opc.toNat = 0x025) : decInt f h = .ok i ↔
    ∃ w cond d a b, f.Has (mW w cond.code) (eXP d) (eSrc a) (eSrc b) ∧ Instr.cmp h cond w d a b = i := by
  simp only [decInt, ho, modW_code Cond.codes (by decide), DecM.bind_eq_ok]
  simp [Fields.has_iff]; grind
theorem lea_eq_ok (ho : f.opc.toNat = 0x026) : decInt f h = .ok i ↔
    ∃ k d a b, f.Has (mN k.toNat) (eX d) (eSrc a) (eSrc b) ∧ Instr.lea h k d a b = i := by
  simp only [decInt, ho, modBelow_bits 2 (k := 4) rfl (by decide), DecM.bind_eq_ok]
  simp [Fields.has_iff, two_eq_ok]; grind
theorem pand_eq_ok (ho : f.opc.toNat = 0x027) : decInt f h = .ok i ↔
    ∃ op d a b, f.Has (mN op.code) (eP d) (eP a) (eP b) ∧ Instr.pand h op d a b = i := by
  simp only [decInt, ho, modBelow_code POp.codes (by decide), DecM.bind_eq_ok]
  simp [Fields.has_iff]; grind
theorem fcmp_eq_ok (ho : f.opc.toNat = 0x08A) : decFp f h = .ok i ↔
    ∃ z cond d a b, f.Has (mFp z .dyn cond.code) (eXP d) (eSrc a) (eSrc b) ∧ (a.notImm = true ∧ b.notImm = true)
      ∧ Instr.fcmp h z cond d a b = i := by
  simp only [decFp, ho, fpNoRm_code FCond.codes (by decide), DecM.bind_eq_ok]
  simp [Fields.has_iff]; grind
theorem br_eq_ok (ho : f.opc.toNat = 0x0C1) : decControl f h = .ok i ↔
    ∃ disp, f.Has 0 0 (eSrc disp) 0 ∧ (h.c = false ∧ disp.notX = true) ∧ Instr.br h disp = i := by
  simp [decControl, ho, Fields.has_iff]; grind
theorem brx_eq_ok (ho : f.opc.toNat = 0x0C2) : decControl f h = .ok i ↔
    ∃ a b, f.Has 0 0 (eX a) (eSrc b) ∧ (h.c = false ∧ b.notLong = true) ∧ Instr.brx h a b = i := by
  simp [decControl, ho, Fields.has_iff]; grind
theorem call_eq_ok (ho : f.opc.toNat = 0x0C3) : decControl f h = .ok i ↔
    ∃ l disp, f.Has 0 (eX l) (eSrc disp) 0 ∧ (h.c = false ∧ disp.notX = true) ∧ Instr.call h l disp = i := by
  simp [decControl, ho, Fields.has_iff]; grind
theorem callx_eq_ok (ho : f.opc.toNat = 0x0C4) : decControl f h = .ok i ↔
    ∃ l a b, f.Has 0 (eX l) (eX a) (eSrc b) ∧ (h.c = false ∧ b.notLong = true) ∧ Instr.callx h l a b = i := by
  simp [decControl, ho, Fields.has_iff]; grind
theorem ret_eq_ok (ho : f.opc.toNat = 0x0C5) : decControl f h = .ok i ↔
    ∃ a, f.Has 0 0 (eX a) 0 ∧ h.c = false ∧ Instr.ret h a = i := by
  simp [decControl, ho, Fields.has_iff]; grind
theorem subbr_eq_ok (ho : f.opc.toNat = 0x0C6) : decControl f h = .ok i ↔
    ∃ d disp amount, f.Has 0 (eX d) (eSrc disp) (eSrc amount) ∧ (h.c = false ∧ disp.notX = true)
      ∧ Instr.subbr h d disp amount = i := by
  simp [decControl, ho, Fields.has_iff]; grind
theorem brd_eq_ok (ho : f.opc.toNat = 0x0C7) : decControl f h = .ok i ↔
    ∃ target joinAt, f.Has 0 0 (eImm target) (eImm joinAt) ∧ h.c = false ∧ Instr.brd h target joinAt = i := by
  simp [decControl, ho, Fields.has_iff]; grind
theorem join_eq_ok (ho : f.opc.toNat = 0x0C8) : decControl f h = .ok i ↔
    f.Has 0 0 0 0 ∧ (h.c = false ∧ h.gn = false ∧ h.gp = 0) ∧ Instr.join h = i := by
  simp [decControl, ho, Fields.has_iff, bare_eq_ok]; grind
theorem capt_eq_ok (ho : f.opc.toNat = 0x0C9) : decControl f h = .ok i ↔
    ∃ n1 body, f.Has (mN n1.toNat) 0 (eImm body) 0 ∧ Instr.capt h n1 body = i := by
  simp only [decControl, ho, modBelow_bits 6 (k := 64) rfl (by decide), DecM.bind_eq_ok]
  simp [Fields.has_iff]; grind
theorem replay_eq_ok (ho : f.opc.toNat = 0x0CA) : decControl f h = .ok i ↔
    ∃ n1 body stride, f.Has (mN n1.toNat) 0 (eImm body) (eSrc stride) ∧ (h.c = false ∧ h.gn = false ∧ h.gp = 0 ∧ stride.notLong = true)
      ∧ Instr.replay h n1 body stride = i := by
  simp only [decControl, ho, modBelow_bits 6 (k := 64) rfl (by decide), DecM.bind_eq_ok]
  simp [Fields.has_iff]; grind
theorem exit_eq_ok (ho : f.opc.toNat = 0x0CB) : decControl f h = .ok i ↔
    f.Has 0 0 0 0 ∧ h.c = false ∧ Instr.exit h = i := by
  simp [decControl, ho, Fields.has_iff, bare_eq_ok]; grind
theorem yield_eq_ok (ho : f.opc.toNat = 0x0CC) : decControl f h = .ok i ↔
    f.Has 0 0 0 0 ∧ h.c = false ∧ Instr.yield h = i := by
  simp [decControl, ho, Fields.has_iff, bare_eq_ok]; grind
theorem hartid_eq_ok (ho : f.opc.toNat = 0x0CE) : decControl f h = .ok i ↔
    ∃ sel d, f.Has (mN sel.code) (eX d) 0 0 ∧ Instr.hartid h sel d = i := by
  simp [decControl, ho, Fields.has_iff, modBelow_eq_ok]; grind
theorem setvl_eq_ok (ho : f.opc.toNat = 0x140) : decLane f h = .ok i ↔
    ∃ d n, f.Has 0 (eX d) (eSrc n) 0 ∧ Instr.setvl h d n = i := by
  simp [decLane, ho, Fields.has_iff]; grind
theorem setvt_eq_ok (ho : f.opc.toNat = 0x141) : decLane f h = .ok i ↔
    ∃ d v, f.Has 0 (eX d) (eSrc v) 0 ∧ Instr.setvt h d v = i := by
  simp [decLane, ho, Fields.has_iff]; grind
theorem vcmp_eq_ok (ho : f.opc.toNat = 0x162) : decLane f h = .ok i ↔
    ∃ q cond d a b, f.Has (mMask q cond.code) (eM d) (eLS a) (eLS b) ∧ q.wf = true ∧ Instr.vcmp h q cond d a b = i := by
  simp only [decLane, ho, mask_code VCond.codes (by decide), DecM.bind_eq_ok]
  simp [Fields.has_iff]; grind
theorem vfcmp_eq_ok (ho : f.opc.toNat = 0x163) : decLane f h = .ok i ↔
    ∃ q cond d a b, f.Has (mMask q cond.code) (eM d) (eLS a) (eLS b) ∧ q.wf = true ∧ Instr.vfcmp h q cond d a b = i := by
  simp only [decLane, ho, mask_code FCond.codes (by decide), DecM.bind_eq_ok]
  simp [Fields.has_iff]; grind
theorem mnot_eq_ok (ho : f.opc.toNat = 0x167) : decLane f h = .ok i ↔
    ∃ d a, f.Has 0 (eM d) (eM a) 0 ∧ Instr.mnot h d a = i := by
  simp [decLane, ho, Fields.has_iff]; grind
theorem vsel_eq_ok (ho : f.opc.toNat = 0x16A) : decLane f h = .ok i ↔
    ∃ q d a b, f.Has (mMask q 0) (eO d) (eLS a) (eLS b) ∧ q.wfOn = true ∧ Instr.vsel h q d a b = i := by
  simp [decLane, ho, Fields.has_iff, maskOn_eq_ok]; grind
theorem vmov_eq_ok (ho : f.opc.toNat = 0x170) : decLane f h = .ok i ↔
    ∃ q d a, f.Has (mMask q 0) (eO d) (eLg a) 0 ∧ q.wf = true ∧ Instr.vmov h q d a = i := by
  simp [decLane, ho, Fields.has_iff, mask_eq_ok]; grind
theorem vsplat_eq_ok (ho : f.opc.toNat = 0x171) : decLane f h = .ok i ↔
    ∃ q d a, f.Has (mMask q 0) (eO d) (eSrc a) 0 ∧ q.wf = true ∧ Instr.vsplat h q d a = i := by
  simp [decLane, ho, Fields.has_iff, mask_eq_ok]; grind
theorem vext_eq_ok (ho : f.opc.toNat = 0x172) : decLane f h = .ok i ↔
    ∃ d a b, f.Has 0 (eX d) (eLg a) (eSrc b) ∧ Instr.vext h d a b = i := by
  simp [decLane, ho, Fields.has_iff]; grind
theorem vins_eq_ok (ho : f.opc.toNat = 0x173) : decLane f h = .ok i ↔
    ∃ d a b, f.Has 0 (eO d) (eSrc a) (eSrc b) ∧ Instr.vins h d a b = i := by
  simp [decLane, ho, Fields.has_iff]; grind
theorem vperm_eq_ok (ho : f.opc.toNat = 0x174) : decLane f h = .ok i ↔
    ∃ q d a b, f.Has (mMask q 0) (eO d) (eLg a) (eO b) ∧ q.wf = true ∧ Instr.vperm h q d a b = i := by
  simp [decLane, ho, Fields.has_iff, mask_eq_ok]; grind
theorem vslide_eq_ok (ho : f.opc.toNat = 0x175) : decLane f h = .ok i ↔
    ∃ q d a b, f.Has (mMask q 0) (eO d) (eLg a) (eSrc b) ∧ q.wf = true ∧ Instr.vslide h q d a b = i := by
  simp [decLane, ho, Fields.has_iff, mask_eq_ok]; grind
theorem vgath_eq_ok (ho : f.opc.toNat = 0x178) : decLane f h = .ok i ↔
    ∃ q d a b, f.Has (mMask q 0) (eO d) (eO a) (eO b) ∧ q.wf = true ∧ Instr.vgath h q d a b = i := by
  simp [decLane, ho, Fields.has_iff, mask_eq_ok]; grind
theorem viota_eq_ok (ho : f.opc.toNat = 0x179) : decLane f h = .ok i ↔
    ∃ q rank d b, f.Has (mMask q (b2n rank)) (eO d) 0 (eSrc b) ∧ (q.wf = true ∧ (rank = false ∨ q.wfOn = true))
      ∧ Instr.viota h rank q d b = i := by
  simp only [decLane, ho, mask_flag, DecM.bind_eq_ok]
  simp [Fields.has_iff, b2n, MaskMod.wfOn]; grind
theorem vfreds_eq_ok (ho : f.opc.toNat = 0x17D) : decLane f h = .ok i ↔
    ∃ q wide d a b, f.Has (mMask q (b2n wide)) (eX d) (eLg a) (eSrc b) ∧ q.wf = true ∧ Instr.vfreds h q wide d a b = i := by
  simp only [decLane, ho, mask_flag, DecM.bind_eq_ok]
  simp [Fields.has_iff]; grind
theorem vscan_eq_ok (ho : f.opc.toNat = 0x17E) : decLane f h = .ok i ↔
    ∃ q excl d a b, f.Has (mMask q (b2n excl)) (eO d) (eLg a) (eOpt eM b) ∧ q.wf = true ∧ Instr.vscan h q excl d a b = i := by
  simp only [decLane, ho, mask_flag, DecM.bind_eq_ok]
  simp [Fields.has_iff]; grind
theorem vsortk_eq_ok (ho : f.opc.toNat = 0x17F) : decLane f h = .ok i ↔
    ∃ q desc d a b, f.Has (mMask q (b2n desc)) (eO d) (eLg a) (eO b) ∧ (q.wf = true ∧ scaleApart d a b = true)
      ∧ Instr.vsortk h q desc d a b = i := by
  simp only [decLane, ho, mask_flag, DecM.bind_eq_ok]
  simp [Fields.has_iff]; grind
theorem vuniq_eq_ok (ho : f.opc.toNat = 0x180) : decLane f h = .ok i ↔
    ∃ q last d a, f.Has (mMask q (b2n last)) (eM d) (eLg a) 0 ∧ q.wf = true ∧ Instr.vuniq h q last d a = i := by
  simp only [decLane, ho, mask_flag, DecM.bind_eq_ok]
  simp [Fields.has_iff]; grind
theorem rseg_eq_ok (ho : f.opc.toNat = 0x204) : decBus f h = .ok i ↔
    ∃ d a, f.Has 0 (eO d) (eO a) 0 ∧ Instr.rseg h d a = i := by
  simp [decBus, ho, Fields.has_iff]; grind
theorem accz_eq_ok (ho : f.opc.toNat = 0x222) : decMatrix f h = .ok i ↔
    ∃ edge a, f.Has (mN (b2n edge)) (eA a) 0 0 ∧ Instr.accz h edge a = i := by
  simp only [decMatrix, ho, modBelow_flag, DecM.bind_eq_ok]
  simp [Fields.has_iff]; grind
theorem accrd_eq_ok (ho : f.opc.toNat = 0x223) : decMatrix f h = .ok i ↔
    ∃ fmt d a row, f.Has (mN fmt.code) (eO d) (eA a) (eSrc row) ∧ Instr.accrd h fmt d a row = i := by
  simp only [decMatrix, ho, modBelow_code AccFmt.codes (by decide), DecM.bind_eq_ok]
  simp [Fields.has_iff]; grind
theorem accwr_eq_ok (ho : f.opc.toNat = 0x224) : decMatrix f h = .ok i ↔
    ∃ fmt d a row, f.Has (mN fmt.code) (eA d) (eO a) (eSrc row) ∧ Instr.accwr h fmt d a row = i := by
  simp only [decMatrix, ho, modBelow_code AccFmt.codes (by decide), DecM.bind_eq_ok]
  simp [Fields.has_iff]; grind
theorem accclm_eq_ok (ho : f.opc.toNat = 0x225) : decMatrix f h = .ok i ↔
    ∃ int d a, f.Has (mN (b2n int)) (eP d) (eA a) 0 ∧ Instr.accclm h int d a = i := by
  simp only [decMatrix, ho, modBelow_flag, DecM.bind_eq_ok]
  simp [Fields.has_iff]; grind
theorem accrel_eq_ok (ho : f.opc.toNat = 0x226) : decMatrix f h = .ok i ↔
    ∃ a, f.Has 0 (eA a) 0 0 ∧ Instr.accrel h a = i := by
  simp [decMatrix, ho, Fields.has_iff]; grind
theorem accsv_eq_ok (ho : f.opc.toNat = 0x227) : decMatrix f h = .ok i ↔
    ∃ comp addr a, f.Has (mN comp.code) (eX addr) (eA a) (eComp comp) ∧ Instr.accsv h comp addr a = i := by
  simp [decMatrix, ho, Fields.has_iff, modBelow_eq_ok]; grind
theorem accld_eq_ok (ho : f.opc.toNat = 0x228) : decMatrix f h = .ok i ↔
    ∃ comp a addr, f.Has (mN comp.code) (eA a) (eX addr) (eComp comp) ∧ Instr.accld h comp a addr = i := by
  simp [decMatrix, ho, Fields.has_iff, modBelow_eq_ok]; grind
theorem lde_eq_ok (ho : f.opc.toNat = 0x262) : decPool f h = .ok i ↔
    ∃ d base disp, f.Has 0 (eX d) (eX base) (eSrc disp) ∧ disp.notX = true ∧ Instr.lde h d base disp = i := by
  simp [decPool, ho, Fields.has_iff, memD_eq_ok]; grind
theorem ste_eq_ok (ho : f.opc.toNat = 0x263) : decPool f h = .ok i ↔
    ∃ d base disp, f.Has 0 (eX d) (eX base) (eSrc disp) ∧ disp.notX = true ∧ Instr.ste h d base disp = i := by
  simp [decPool, ho, Fields.has_iff, memD_eq_ok]; grind
theorem ldf_eq_ok (ho : f.opc.toNat = 0x264) : decPool f h = .ok i ↔
    ∃ d base disp, f.Has 0 (eX d) (eX base) (eSrc disp) ∧ disp.notX = true ∧ Instr.ldf h d base disp = i := by
  simp [decPool, ho, Fields.has_iff, memD_eq_ok]; grind
theorem stf_eq_ok (ho : f.opc.toNat = 0x265) : decPool f h = .ok i ↔
    ∃ d base disp, f.Has 0 (eX d) (eX base) (eSrc disp) ∧ disp.notX = true ∧ Instr.stf h d base disp = i := by
  simp [decPool, ho, Fields.has_iff, memD_eq_ok]; grind
theorem tagr_eq_ok (ho : f.opc.toNat = 0x266) : decPool f h = .ok i ↔
    ∃ blk d base disp, f.Has (mN (b2n blk)) (eX d) (eX base) (eSrc disp) ∧ disp.notX = true
      ∧ Instr.tagr h blk d base disp = i := by
  simp only [decPool, ho, modBelow_flag, DecM.bind_eq_ok]
  simp [Fields.has_iff, memD_eq_ok]; grind
theorem tagw_eq_ok (ho : f.opc.toNat = 0x267) : decPool f h = .ok i ↔
    ∃ blk d base disp, f.Has (mN (b2n blk)) (eX d) (eX base) (eSrc disp) ∧ disp.notX = true
      ∧ Instr.tagw h blk d base disp = i := by
  simp only [decPool, ho, modBelow_flag, DecM.bind_eq_ok]
  simp [Fields.has_iff, memD_eq_ok]; grind
theorem pref_eq_ok (ho : f.opc.toNat = 0x268) : decPool f h = .ok i ↔
    ∃ ex base disp, f.Has (mN (b2n ex)) 0 (eX base) (eSrc disp) ∧ disp.notX = true ∧ Instr.pref h ex base disp = i := by
  simp only [decPool, ho, modBelow_flag, DecM.bind_eq_ok]
  simp [Fields.has_iff]; grind
theorem ldv_eq_ok (ho : f.opc.toNat = 0x269) : decPool f h = .ok i ↔
    ∃ n1 d base disp, f.Has (mN n1.toNat) (eX d) (eX base) (eSrc disp) ∧ (disp.notX = true ∧ d.val + n1.toNat < 64)
      ∧ Instr.ldv h n1 d base disp = i := by
  simp only [decPool, ho, modBelow_bits 3 (k := 8) rfl (by decide), DecM.bind_eq_ok]
  simp [Fields.has_iff, memD_eq_ok]; grind [eX_inj]
theorem stv_eq_ok (ho : f.opc.toNat = 0x26A) : decPool f h = .ok i ↔
    ∃ n1 d base disp, f.Has (mN n1.toNat) (eX d) (eX base) (eSrc disp) ∧ (disp.notX = true ∧ d.val + n1.toNat < 64)
      ∧ Instr.stv h n1 d base disp = i := by
  simp only [decPool, ho, modBelow_bits 3 (k := 8) rfl (by decide), DecM.bind_eq_ok]
  simp [Fields.has_iff, memD_eq_ok]; grind [eX_inj]
theorem cinv_eq_ok (ho : f.opc.toNat = 0x26B) : decPool f h = .ok i ↔
    ∃ (r : CRange), f.Has r.fields.1 0 r.fields.2.1 r.fields.2.2 ∧ Instr.cinv h r = i := by
  simp [decPool, ho, pRange_eq_ok]
theorem cwb_eq_ok (ho : f.opc.toNat = 0x26C) : decPool f h = .ok i ↔
    ∃ (r : CRange), f.Has r.fields.1 0 r.fields.2.1 r.fields.2.2 ∧ Instr.cwb h r = i := by
  simp [decPool, ho, pRange_eq_ok]
theorem amop_eq_ok (ho : f.opc.toNat = 0x26D) : decPool f h = .ok i ↔
    ∃ w op d a b, f.Has (mW w op.code) (eX d) (eX a) (eSrc b) ∧ Instr.amop h op w d a b = i := by
  simp only [decPool, ho, modW_code AOp.codes (by decide), DecM.bind_eq_ok]
  simp [Fields.has_iff]; grind
theorem amo_eq_ok (ho : f.opc.toNat = 0x2A0) : decGlobal f h = .ok i ↔
    ∃ w op d a b, f.Has (mW w op.code) (eX d) (eX a) (eSrc b) ∧ op.forAmo = true ∧ Instr.amo h op w d a b = i := by
  simp only [decGlobal, ho, modW_code AOp.codes (by decide), DecM.bind_eq_ok]
  simp [Fields.has_iff]; grind
theorem cas_eq_ok (ho : f.opc.toNat = 0x2A1) : decGlobal f h = .ok i ↔
    ∃ size d a b, f.Has (mN size.code) (eX d) (eX a) (eX b) ∧ (size ≠ .q ∨ d.val % 2 = 0 ∧ b.val % 2 = 0)
      ∧ Instr.cas h size d a b = i := by
  simp only [decGlobal, ho, modBelow_code CasSize.codes (by decide), DecM.bind_eq_ok]
  simp [Fields.has_iff]; grind
theorem red_eq_ok (ho : f.opc.toNat = 0x2A2) : decGlobal f h = .ok i ↔
    ∃ w op a b, f.Has (mW w op.code) 0 (eX a) (eSrc b) ∧ op.forRed = true ∧ Instr.red h op w a b = i := by
  simp only [decGlobal, ho, modW_code AOp.codes (by decide), DecM.bind_eq_ok]
  simp [Fields.has_iff]; grind
theorem redf_eq_ok (ho : f.opc.toNat = 0x2A4) : decGlobal f h = .ok i ↔
    ∃ scope, f.Has (mN scope.code) 0 0 0 ∧ Instr.redf h scope = i := by
  simp [decGlobal, ho, Fields.has_iff, modBelow_eq_ok]; grind
theorem pgq_eq_ok (ho : f.opc.toNat = 0x2A5) : decGlobal f h = .ok i ↔
    ∃ pa d base disp, f.Has (mN (b2n pa)) (eX d) (eX base) (eSrc disp) ∧ Instr.pgq h pa d base disp = i := by
  simp only [decGlobal, ho, modBelow_flag, DecM.bind_eq_ok]
  simp [Fields.has_iff]; grind
theorem enq_eq_ok (ho : f.opc.toNat = 0x2D0) : decEngine f h = .ok i ↔
    ∃ q d a n, f.Has (mMask q 0) (eM d) (eO a) (eSrc n) ∧ q.wf = true ∧ Instr.enq h q d a n = i := by
  simp [decEngine, ho, Fields.has_iff, mask_eq_ok]; grind
theorem enq1_eq_ok (ho : f.opc.toNat = 0x2D1) : decEngine f h = .ok i ↔
    ∃ d a, f.Has 0 (eX d) (eX a) 0 ∧ a.val ≤ 56 ∧ Instr.enq1 h d a = i := by
  simp [decEngine, ho, Fields.has_iff]; grind
theorem esusp_eq_ok (ho : f.opc.toNat = 0x2D3) : decEngine f h = .ok i ↔
    ∃ d b, f.Has 0 (eX d) 0 (eSrc b) ∧ Instr.esusp h d b = i := by
  simp [decEngine, ho, Fields.has_iff]; grind
theorem bari_eq_ok (ho : f.opc.toNat = 0x2D4) : decEngine f h = .ok i ↔
    ∃ a b, f.Has 0 0 (eX a) (eSrc b) ∧ Instr.bari h a b = i := by
  simp [decEngine, ho, Fields.has_iff]; grind
theorem wait_eq_ok (ho : f.opc.toNat = 0x2D8) : decEngine f h = .ok i ↔
    ∃ cond d a b, f.Has (mN cond.code) (eX d) (eX a) (eSrc b) ∧ Instr.wait h cond d a b = i := by
  simp only [decEngine, ho, modBelow_code WCond.codes (by decide), DecM.bind_eq_ok]
  simp [Fields.has_iff]; grind
theorem sfcfg_eq_ok (ho : f.opc.toNat = 0x2F0) : decSifter f h = .ok i ↔
    ∃ d a b, f.Has 0 (eP d) (eX a) (eSrc b) ∧ Instr.sfcfg h d a b = i := by
  simp [decSifter, ho, Fields.has_iff]; grind
theorem sfpush_eq_ok (ho : f.opc.toNat = 0x2F1) : decSifter f h = .ok i ↔
    ∃ q d a n, f.Has (mMask q 0) (eX d) (eO a) (eSrc n) ∧ q.wf = true ∧ Instr.sfpush h q d a n = i := by
  simp [decSifter, ho, Fields.has_iff, mask_eq_ok]; grind
theorem sfround_eq_ok (ho : f.opc.toNat = 0x2F2) : decSifter f h = .ok i ↔
    ∃ comp list max, f.Has (mN comp.code) (eX list) (eSrc max) (eComp comp) ∧ Instr.sfround h comp list max = i := by
  simp [decSifter, ho, Fields.has_iff, modBelow_eq_ok]; grind
theorem sfstat_eq_ok (ho : f.opc.toNat = 0x2F4) : decSifter f h = .ok i ↔
    ∃ sel d, f.Has (mN sel.code) (eX d) 0 0 ∧ Instr.sfstat h sel d = i := by
  simp [decSifter, ho, Fields.has_iff, modBelow_eq_ok]; grind
theorem csrr_eq_ok (ho : f.opc.toNat = 0x300) : decSystem f h = .ok i ↔
    ∃ d csr, f.Has 0 (eX d) (eC csr) 0 ∧ Instr.csrr h d csr = i := by
  simp only [decSystem, ho, DecM.bind_eq_ok, noMod_eq_ok, pZero_eq_ok, pX_eq_ok, Csr.ofCode_eq_ok, Except.ok.injEq,
    pReg_eq_ok (file := 5) (n := 16384) (by decide)]
  constructor
  · rintro ⟨-, hm, -, hb, n, ha, d, hd, csr, hc, e⟩
    exact ⟨d, csr, ⟨hm, hd, ha.trans (congrArg (eReg 5) hc), hb⟩, e⟩
  · rintro ⟨d, csr, ⟨hm, hd, ha, hb⟩, e⟩
    exact ⟨(), hm, (), hb, ⟨csr.code, csr_code_lt csr⟩, ha, d, hd, csr, rfl, e⟩
theorem trap_eq_ok (ho : f.opc.toNat = 0x304) : decSystem f h = .ok i ↔
    ∃ code a, f.Has (mN code.toNat) 0 (eSrc a) 0 ∧ (h.c = false ∧ 1 ≤ code.toNat ∧ code.toNat ≤ 0x1A)
      ∧ Instr.trap h code a = i := by
  simp only [decSystem, ho, modBelow_bits 8 (k := 256) rfl (by decide), DecM.bind_eq_ok]
  simp [Fields.has_iff]; grind
theorem eret_eq_ok (ho : f.opc.toNat = 0x305) : decSystem f h = .ok i ↔
    f.Has 0 0 0 0 ∧ (h.c = false ∧ h.gn = false ∧ h.gp = 0) ∧ Instr.eret h = i := by
  simp [decSystem, ho, Fields.has_iff, bare_eq_ok]; grind
theorem halt_eq_ok (ho : f.opc.toNat = 0x306) : decSystem f h = .ok i ↔
    ∃ a, f.Has 0 0 (eSrc a) 0 ∧ h.c = false ∧ Instr.halt h a = i := by
  simp [decSystem, ho, Fields.has_iff]; grind
theorem ctxq_eq_ok (ho : f.opc.toNat = 0x308) : decSystem f h = .ok i ↔
    ∃ sel d, f.Has (mN sel.code) (eX d) 0 0 ∧ Instr.ctxq h sel d = i := by
  simp [decSystem, ho, Fields.has_iff, modBelow_eq_ok]; grind
theorem bkpt_eq_ok (ho : f.opc.toNat = 0x309) : decSystem f h = .ok i ↔
    ∃ a, f.Has 0 0 (eImm a) 0 ∧ h.c = false ∧ Instr.bkpt h a = i := by
  simp [decSystem, ho, Fields.has_iff]; grind
theorem launch_eq_ok (ho : f.opc.toNat = 0x340) : decLaunch f h = .ok i ↔
    ∃ d base disp, f.Has 0 (eX d) (eX base) (eSrc disp) ∧ disp.notX = true ∧ Instr.launch h d base disp = i := by
  simp [decLaunch, ho, Fields.has_iff, memD_eq_ok]; grind
theorem depq_eq_ok (ho : f.opc.toNat = 0x342) : decLaunch f h = .ok i ↔
    ∃ d a, f.Has 0 (eX d) (eX a) 0 ∧ Instr.depq h d a = i := by
  simp [decLaunch, ho, Fields.has_iff]; grind

end
end Sys2Proof
end

