-- ==== Sys2Proof/Proofs/PackedWords.lean ====
section
/-! PROOF. The words that pack several operands in MOD, or have several forms: the four fields that each of them accepts. -/

namespace Sys2Proof

/-! ### Words that pack several operands in MOD, or have several forms -/

section
variable {f : Fields} {h : Hdr} {i : Instr}

theorem sel_eq_ok (ho : f.opc.toNat = 0x021) : decInt f h = .ok i ↔ ∃ p neg d a b,
    f.Has (mN (p.val + 16 * b2n neg)) (eX d) (eSrc a) (eSrc b) ∧ Instr.sel h p neg d a b = i := by
  simp only [decInt, ho, DecM.bind_eq_ok, modBelow_eq_ok (n := 32) (by decide), two_eq_ok]
  constructor
  · rintro ⟨m, ⟨hm, hlt⟩, d, a, b, ⟨hd, ha, hb⟩, rfl⟩
    refine ⟨_, _, d, a, b, ⟨?_, hd, ha, hb⟩, rfl⟩
    rw [hm, b2n_nbit]
    exact congrArg mN (by dsimp only; omega)
  · rintro ⟨⟨p, hp⟩, neg, d, a, b, ⟨hm, hd, ha, hb⟩, rfl⟩
    have hn := b2n_lt neg
    refine ⟨_, ⟨hm, by dsimp only; omega⟩, d, a, b, ⟨hd, ha, hb⟩, ?_⟩
    simp only [Instr.sel.injEq, Fin.mk.injEq, nbit_eq_iff, true_and, and_true]
    omega

/-- The D and A fields of a MOV (R97). -/
def MovForm.fields : MovForm → BitVec 20 × BitVec 20
  | .xs d a => (eX d, eSrc a)
  | .xp d a => (eX d, eP a)
  | .pp d a => (eP d, eP a)
  | .px d a => (eP d, eX a)
theorem mov_eq_ok (ho : f.opc.toNat = 0x022) : decInt f h = .ok i ↔ ∃ m : MovForm,
    f.Has 0 m.fields.1 m.fields.2 0 ∧ Instr.mov h m = i := by
  have hs : ∀ a, ¬ (eSrc a).toNat / 2 ^ 14 = 1 := fun a => by have := eSrc_file a; omega
  simp only [decInt, ho, DecM.bind_eq_ok, noMod_eq_ok, pZero_eq_ok]
  constructor
  · rintro ⟨-, hm, -, hb, e⟩
    split at e <;> simp only [DecM.bind_eq_ok, pP_eq_ok, pX_eq_ok] at e <;> obtain ⟨d, hd, e⟩ := e <;> split at e <;>
      simp only [DecM.bind_eq_ok, pP_eq_ok, pX_eq_ok, pSrc_eq_ok, Except.ok.injEq] at e <;> obtain ⟨a, ha, rfl⟩ := e
    · exact ⟨.pp d a, ⟨hm, hd, ha, hb⟩, rfl⟩
    · exact ⟨.px d a, ⟨hm, hd, ha, hb⟩, rfl⟩
    · exact ⟨.xp d a, ⟨hm, hd, ha, hb⟩, rfl⟩
    · exact ⟨.xs d a, ⟨hm, hd, ha, hb⟩, rfl⟩
  · rintro ⟨m, ⟨hm, hd, ha, hb⟩, rfl⟩
    refine ⟨(), hm, (), hb, ?_⟩
    rw [hd, ha]
    cases m <;> simp only [MovForm.fields, eX_file, eP_file, hs, pX_eX, pP_eP, pSrc_eSrc, DecM.ok_bind, if_true, if_false,
      zero_ne_one]

theorem fma_eq_ok (ho : f.opc.toNat = 0x085) : decFp f h = .ok i ↔ ∃ x rm np na d a b,
    f.Has (mFp x rm (b2n np + 2 * b2n na)) (eX d) (eSrc a) (eSrc b) ∧ (a.notImm = true ∧ b.notImm = true)
      ∧ Instr.fma h x rm np na d a b = i := by
  simp only [decFp, ho, DecM.bind_eq_ok, fp_eq_ok (n := 4) (by decide), pX_eq_ok, pF_eq_ok, Except.ok.injEq]
  constructor
  · rintro ⟨⟨x, rm, m⟩, ⟨hm, hlt⟩, d, hd, a, ⟨ha, ha'⟩, b, ⟨hb, hb'⟩, rfl⟩
    refine ⟨x, rm, _, _, d, a, b, ⟨?_, hd, ha, hb⟩, ⟨ha', hb'⟩, rfl⟩
    rw [hm, b2n_nbit, b2n_nbit]
    exact congrArg (mFp x rm) (by dsimp only at hlt ⊢; omega)
  · rintro ⟨x, rm, np, na, d, a, b, ⟨hm, hd, ha, hb⟩, ⟨ha', hb'⟩, rfl⟩
    have h0 := b2n_lt np
    have h1 := b2n_lt na
    refine ⟨(x, rm, _), ⟨hm, by dsimp only; omega⟩, d, hd, a, ⟨ha, ha'⟩, b, ⟨hb, hb'⟩, ?_⟩
    simp only [Instr.fma.injEq, nbit_eq_iff, true_and, and_true]
    omega

theorem vfma_eq_ok (ho : f.opc.toNat = 0x15A) : decLane f h = .ok i ↔ ∃ q np na d a b,
    f.Has (mMask q (b2n np + 2 * b2n na)) (eO d) (eLS a) (eLS b) ∧ q.wf = true ∧ Instr.vfma h q np na d a b = i := by
  simp only [decLane, ho, DecM.bind_eq_ok, mask_eq_ok (n := 4) (by decide), pO_eq_ok, pLS_eq_ok, Except.ok.injEq]
  constructor
  · rintro ⟨⟨q, m⟩, ⟨hm, hq, hlt⟩, d, hd, a, ha, b, hb, rfl⟩
    refine ⟨q, _, _, d, a, b, ⟨?_, hd, ha, hb⟩, hq, rfl⟩
    rw [hm, b2n_nbit, b2n_nbit]
    exact congrArg (mMask q) (by dsimp only at hlt ⊢; omega)
  · rintro ⟨q, np, na, d, a, b, ⟨hm, hd, ha, hb⟩, hq, rfl⟩
    have h0 := b2n_lt np
    have h1 := b2n_lt na
    refine ⟨(q, _), ⟨hm, hq, by dsimp only; omega⟩, d, hd, a, ha, b, hb, ?_⟩
    simp only [Instr.vfma.injEq, nbit_eq_iff, true_and, and_true]
    omega

theorem fcvt_eq_ok (ho : f.opc.toNat = 0x08B) : decFp f h = .ok i ↔ ∃ dty sty rm d a,
    f.Has (mN (dty.code + 16 * sty.code + 256 * rm.code)) (eX d) (eSrc a) 0
      ∧ ((dty.isInt && sty.isInt) = false ∧ (sty.isInt || a.notImm) = true) ∧ Instr.fcvt h dty sty rm d a = i := by
  simp only [decFp, ho, DecM.bind_eq_ok, modBelow_eq_ok (n := 2048) (by decide), pZero_eq_ok, CvtTy.ofCode_eq_ok, FRm.ofCode_eq_ok,
    DecM.error_bind, DecM.ite_error_eq_ok, pX_eq_ok, pSrcIf_eq_ok, Except.ok.injEq, Bool.not_eq_true]
  constructor
  · rintro ⟨m, ⟨hm, hlt⟩, -, hb, dty, h0, sty, h1, rm, h2, hi, d, hd, a, ⟨ha, ha'⟩, rfl⟩
    exact ⟨dty, sty, rm, d, a, ⟨hm.trans (congrArg mN (by omega)), hd, ha, hb⟩, ⟨hi, ha'⟩, rfl⟩
  · rintro ⟨dty, sty, rm, d, a, ⟨hm, hd, ha, hb⟩, ⟨hi, ha'⟩, rfl⟩
    have h0 := dty.code_lt
    have h1 := sty.code_lt
    have h2 := fRm_code_lt rm
    exact ⟨_, ⟨hm, by omega⟩, (), hb, dty, by omega, sty, by omega, rm, by omega, hi, d, hd, a, ⟨ha, ha'⟩, rfl⟩

/-- MOD and D of a GMASK (R83). -/
def GmaskDst.fields : GmaskDst → BitVec 12 × BitVec 20
  | .x d => (0, eX d)
  | .p d mode => (mN mode.code, eP d)
theorem gmask_eq_ok (ho : f.opc.toNat = 0x0CD) : decControl f h = .ok i ↔ ∃ (d : GmaskDst) (a : PReg),
    f.Has d.fields.1 d.fields.2 (eP a) 0 ∧ Instr.gmask h d a = i := by
  simp only [decControl, ho, DecM.bind_eq_ok, modBelow_eq_ok (n := 4) (by decide), pZero_eq_ok, pP_eq_ok]
  constructor
  · rintro ⟨m, ⟨hm, hlt⟩, -, hb, a, ha, e⟩
    split at e <;> simp only [DecM.bind_eq_ok, pP_eq_ok, BallotMode.ofCode_eq_ok, noMod_eq_ok, pX_eq_ok, Except.ok.injEq] at e
    · obtain ⟨d, hd, mode, rfl, rfl⟩ := e
      exact ⟨.p d mode, a, ⟨hm, hd, ha, hb⟩, rfl⟩
    · obtain ⟨-, h0, d, hd, rfl⟩ := e
      exact ⟨.x d, a, ⟨h0, hd, ha, hb⟩, rfl⟩
  · rintro ⟨d, a, ⟨hm, hd, ha, hb⟩, rfl⟩
    cases d with
    | x d =>
      have hf : ¬ f.d.toNat / 2 ^ 14 = 1 := by rw [hd]; exact (eX_file d).trans_ne (by decide)
      refine ⟨0, ⟨hm, by decide⟩, (), hb, a, ha, ?_⟩
      simp only [if_neg hf, DecM.bind_eq_ok, noMod_eq_ok, pX_eq_ok, Except.ok.injEq]
      exact ⟨(), hm, d, hd, rfl⟩
    | p d mode =>
      have hf : f.d.toNat / 2 ^ 14 = 1 := by rw [hd]; exact eP_file d
      refine ⟨mode.code, ⟨hm, mode.code_lt⟩, (), hb, a, ha, ?_⟩
      simp only [if_pos hf, DecM.bind_eq_ok, pP_eq_ok, BallotMode.ofCode_eq_ok, Except.ok.injEq]
      exact ⟨d, hd, mode, rfl, rfl⟩

/-- MOD and A of a REFQ (R135). -/
def refqFields : Option Lat → BitVec 12 × BitVec 20
  | none => (mN 1, 0)
  | some g => (0, eO g)
theorem refq_eq_ok (ho : f.opc.toNat = 0x107) : decRow f h = .ok i ↔ ∃ d g,
    f.Has (refqFields g).1 (eX d) (refqFields g).2 0 ∧ Instr.refq h d g = i := by
  simp only [decRow, ho, DecM.bind_eq_ok, modBelow_eq_ok (n := 2) (by decide), pZero_eq_ok]
  constructor
  · rintro ⟨m, ⟨hm, hlt⟩, -, hb, e⟩
    split at e <;> simp only [DecM.bind_eq_ok, pZero_eq_ok, pX_eq_ok, pO_eq_ok, Except.ok.injEq] at e
    · next h1 =>
      obtain ⟨-, ha, d, hd, rfl⟩ := e
      subst h1
      exact ⟨d, none, ⟨hm, hd, ha, hb⟩, rfl⟩
    · obtain ⟨d, hd, g, ha, rfl⟩ := e
      obtain rfl : m = 0 := by omega
      exact ⟨d, some g, ⟨hm, hd, ha, hb⟩, rfl⟩
  · rintro ⟨d, g, ⟨hm, hd, ha, hb⟩, rfl⟩
    cases g with
    | none => exact ⟨1, ⟨hm, by decide⟩, (), hb, by simp [hd, ha, refqFields]⟩
    | some g => exact ⟨0, ⟨hm, by decide⟩, (), hb, by simp [hd, ha, refqFields]⟩

/-- MOD and A of a ROWQ (R136). -/
def RowqForm.fields : RowqForm → BitVec 12 × BitVec 20
  | .state g => (0, eO g)
  | .plo g => (mN 1, eO g)
  | .phi g => (mN 2, eO g)
  | .allot => (mN 3, 0)
theorem rowq_eq_ok (ho : f.opc.toNat = 0x108) : decRow f h = .ok i ↔ ∃ d q,
    f.Has (RowqForm.fields q).1 (eX d) (RowqForm.fields q).2 0 ∧ Instr.rowq h d q = i := by
  simp only [decRow, ho, DecM.bind_eq_ok, modBelow_eq_ok (n := 4) (by decide), pZero_eq_ok, pX_eq_ok]
  constructor
  · rintro ⟨m, ⟨hm, hlt⟩, -, hb, d, hd, e⟩
    split at e <;> simp only [DecM.bind_eq_ok, pZero_eq_ok, pO_eq_ok, Except.ok.injEq] at e <;> obtain ⟨g, ha, rfl⟩ := e
    · exact ⟨d, .state g, ⟨hm, hd, ha, hb⟩, rfl⟩
    · exact ⟨d, .plo g, ⟨hm, hd, ha, hb⟩, rfl⟩
    · exact ⟨d, .phi g, ⟨hm, hd, ha, hb⟩, rfl⟩
    · next h0 h1 h2 =>
      obtain rfl : m = 3 := by
        have : m ≠ 0 ∧ m ≠ 1 ∧ m ≠ 2 := ⟨h0, h1, h2⟩
        omega
      exact ⟨d, .allot, ⟨hm, hd, ha, hb⟩, rfl⟩
  · rintro ⟨d, q, ⟨hm, hd, ha, hb⟩, rfl⟩
    cases q with
    | state g => exact ⟨0, ⟨hm, by decide⟩, (), hb, d, hd, by simp [ha, RowqForm.fields]⟩
    | plo g => exact ⟨1, ⟨hm, by decide⟩, (), hb, d, hd, by simp [ha, RowqForm.fields]⟩
    | phi g => exact ⟨2, ⟨hm, by decide⟩, (), hb, d, hd, by simp [ha, RowqForm.fields]⟩
    | allot => exact ⟨3, ⟨hm, by decide⟩, (), hb, d, hd, by simp [ha, RowqForm.fields]⟩

theorem vcvt_eq_ok (ho : f.opc.toNat = 0x16B) : decLane f h = .ok i ↔ ∃ q sty part d a,
    f.Has (mMask q (sty.code + 16 * part.toNat)) (eO d) (eLg a) 0 ∧ q.wf = true ∧ Instr.vcvt h q sty part d a = i := by
  simp only [decLane, ho, DecM.bind_eq_ok, mask_eq_ok (n := 128) (by decide), pZero_eq_ok, CvtFmt.ofCode_eq_ok, pO_eq_ok, pLg_eq_ok,
    Except.ok.injEq]
  constructor
  · rintro ⟨⟨q, m⟩, ⟨hm, hq, hlt⟩, -, hb, sty, hs, d, hd, a, ha, rfl⟩
    refine ⟨q, sty, _, d, a, ⟨?_, hd, ha, hb⟩, hq, rfl⟩
    rw [hm, BitVec.toNat_ofNat]
    exact congrArg (mMask q) (by omega)
  · rintro ⟨q, sty, part, d, a, ⟨hm, hd, ha, hb⟩, hq, rfl⟩
    have h0 := sty.code_lt
    have h1 := part.isLt
    refine ⟨(q, _), ⟨hm, hq, by dsimp only; omega⟩, (), hb, sty, by dsimp only; omega, d, hd, a, ha, ?_⟩
    simp only [Instr.vcvt.injEq, true_and, and_true]
    exact BitVec.eq_of_toNat_eq (by rw [BitVec.toNat_ofNat]; omega)

theorem tload_eq_ok (ho : f.opc.toNat = 0x220) : decMatrix f h = .ok i ↔ ∃ bf half tile scale,
    f.Has (mN (bf.code + 16 * b2n half + 32 * b2n scale.isSome)) 0 (eG tile) (eOpt eG scale)
      ∧ Instr.tload h bf half tile scale = i := by
  simp only [decMatrix, ho, DecM.bind_eq_ok, modBelow_eq_ok (n := 64) (by decide), pZero_eq_ok, BFmt.ofCode_eq_ok, pG_eq_ok,
    pScale_eq_ok, Except.ok.injEq]
  constructor
  · rintro ⟨m, ⟨hm, hlt⟩, -, hd, bf, h0, tile, ha, scale, ⟨h5, hb⟩, rfl⟩
    refine ⟨bf, _, tile, scale, ⟨?_, hd, ha, hb⟩, rfl⟩
    rw [hm, ← h5, b2n_nbit, b2n_nbit]
    exact congrArg mN (by omega)
  · rintro ⟨bf, half, tile, scale, ⟨hm, hd, ha, hb⟩, rfl⟩
    have h0 := bf.code_lt
    have h1 := b2n_lt half
    have h2 := b2n_lt scale.isSome
    refine ⟨_, ⟨hm, by omega⟩, (), hd, bf, by omega, tile, ha, scale, ⟨nbit_eq_iff.mpr (by omega), hb⟩, ?_⟩
    simp only [Instr.tload.injEq, nbit_eq_iff, true_and, and_true]
    omega

theorem tmma_eq_ok (ho : f.opc.toNat = 0x221) : decMatrix f h = .ok i ↔ ∃ af half kq z aseg d a scale,
    f.Has (mN (af.code + 16 * b2n half + 32 * kq.toNat + 128 * b2n scale.isSome + 256 * b2n z + 512 * aseg.toNat)) (eA d) (eG a)
      (eOpt eG scale) ∧ Instr.tmma h af half kq z aseg d a scale = i := by
  have hv := f.mod.isLt
  simp only [decMatrix, ho, DecM.bind_eq_ok, AFmt.ofCode_eq_ok, pA_eq_ok, pG_eq_ok, pScale_eq_ok, Except.ok.injEq]
  constructor
  · rintro ⟨af, h0, d, hd, a, ha, scale, ⟨h7, hb⟩, rfl⟩
    refine ⟨af, _, _, _, _, d, a, scale, ⟨?_, hd, ha, hb⟩, rfl⟩
    rw [← h7, b2n_nbit, b2n_nbit, b2n_nbit]
    simp only [BitVec.extractLsb'_toNat, Nat.shiftRight_eq_div_pow]
    exact (eq_mN (by omega)).mpr (by omega)
  · rintro ⟨af, half, kq, z, aseg, d, a, scale, ⟨hm, hd, ha, hb⟩, rfl⟩
    have h0 := af.code_lt
    have h1 := b2n_lt half
    have h2 := b2n_lt scale.isSome
    have h3 := b2n_lt z
    have h4 := kq.isLt
    have h5 := aseg.isLt
    rw [eq_mN (by omega)] at hm
    refine ⟨af, by omega, d, hd, a, ha, scale, ⟨nbit_eq_iff.mpr (by omega), hb⟩, ?_⟩
    simp only [Instr.tmma.injEq, nbit_eq_iff, true_and, and_true, ← BitVec.toNat_inj, BitVec.extractLsb'_toNat,
      Nat.shiftRight_eq_div_pow]
    omega

/-- MOD and A of a TSTAT (R240). -/
def TstatSel.fields : TstatSel → BitVec 12 × BitVec 20
  | .slot a => (0, eA a)
  | .half => (mN 1, 0)
  | .budget => (mN 2, 0)
  | .satclr a => (mN 3, eA a)
theorem tstat_eq_ok (ho : f.opc.toNat = 0x229) : decMatrix f h = .ok i ↔ ∃ q d,
    f.Has (TstatSel.fields q).1 (eX d) (TstatSel.fields q).2 0 ∧ Instr.tstat h q d = i := by
  simp only [decMatrix, ho, DecM.bind_eq_ok, modBelow_eq_ok (n := 4) (by decide), pZero_eq_ok, pX_eq_ok]
  constructor
  · rintro ⟨m, ⟨hm, hlt⟩, -, hb, d, hd, e⟩
    split at e <;> simp only [DecM.bind_eq_ok, pZero_eq_ok, pA_eq_ok, Except.ok.injEq] at e <;> obtain ⟨a, ha, rfl⟩ := e
    · exact ⟨.slot a, d, ⟨hm, hd, ha, hb⟩, rfl⟩
    · exact ⟨.half, d, ⟨hm, hd, ha, hb⟩, rfl⟩
    · exact ⟨.budget, d, ⟨hm, hd, ha, hb⟩, rfl⟩
    · next h0 h1 h2 =>
      obtain rfl : m = 3 := by
        have : m ≠ 0 ∧ m ≠ 1 ∧ m ≠ 2 := ⟨h0, h1, h2⟩
        omega
      exact ⟨.satclr a, d, ⟨hm, hd, ha, hb⟩, rfl⟩
  · rintro ⟨q, d, ⟨hm, hd, ha, hb⟩, rfl⟩
    cases q with
    | slot a => exact ⟨0, ⟨hm, by decide⟩, (), hb, d, hd, by simp [ha, TstatSel.fields]⟩
    | half => exact ⟨1, ⟨hm, by decide⟩, (), hb, d, hd, by simp [ha, TstatSel.fields]⟩
    | budget => exact ⟨2, ⟨hm, by decide⟩, (), hb, d, hd, by simp [ha, TstatSel.fields]⟩
    | satclr a => exact ⟨3, ⟨hm, by decide⟩, (), hb, d, hd, by simp [ha, TstatSel.fields]⟩

theorem ld_eq_ok (ho : f.opc.toNat = 0x260) : decPool f h = .ok i ↔ ∃ ty na d base disp,
    f.Has (mN (ty.code + 8 * b2n na)) (eX d) (eX base) (eSrc disp) ∧ disp.notX = true ∧ Instr.ld h ty na d base disp = i := by
  simp only [decPool, ho, DecM.bind_eq_ok, modBelow_eq_ok (n := 16) (by decide), LdTy.ofCode_eq_ok, memD_eq_ok]
  constructor
  · rintro ⟨m, ⟨hm, hlt⟩, ty, ht, d, a, b, ⟨hd, ha, hb⟩, hx, rfl⟩
    refine ⟨ty, _, d, a, b, ⟨?_, hd, ha, hb⟩, hx, rfl⟩
    rw [hm, b2n_nbit]
    exact congrArg mN (by omega)
  · rintro ⟨ty, na, d, a, b, ⟨hm, hd, ha, hb⟩, hx, rfl⟩
    have h0 := ty.code_lt
    have h1 := b2n_lt na
    refine ⟨_, ⟨hm, by omega⟩, ty, by omega, d, a, b, ⟨hd, ha, hb⟩, hx, ?_⟩
    simp only [Instr.ld.injEq, nbit_eq_iff, true_and, and_true]
    omega

theorem st_eq_ok (ho : f.opc.toNat = 0x261) : decPool f h = .ok i ↔ ∃ sz na d base disp,
    f.Has (mN (sz.code + 8 * b2n na)) (eX d) (eX base) (eSrc disp) ∧ disp.notX = true ∧ Instr.st h sz na d base disp = i := by
  simp only [decPool, ho, DecM.bind_eq_ok, modBelow_eq_ok (n := 16) (by decide), DecM.error_bind, DecM.ite_error_eq_ok,
    nbit_eq_iff, StSz.ofCode_eq_ok, memD_eq_ok]
  constructor
  · rintro ⟨m, ⟨hm, hlt⟩, h2, sz, ht, d, a, b, ⟨hd, ha, hb⟩, hx, rfl⟩
    refine ⟨sz, _, d, a, b, ⟨?_, hd, ha, hb⟩, hx, rfl⟩
    rw [hm, b2n_nbit]
    rw [show b2n true = 1 from rfl] at h2
    exact congrArg mN (by omega)
  · rintro ⟨sz, na, d, a, b, ⟨hm, hd, ha, hb⟩, hx, rfl⟩
    have h0 := sz.code_lt
    have h1 := b2n_lt na
    refine ⟨_, ⟨hm, by omega⟩, by rw [show b2n true = 1 from rfl]; omega, sz, by omega, d, a, b, ⟨hd, ha, hb⟩, hx, ?_⟩
    simp only [Instr.st.injEq, nbit_eq_iff, true_and, and_true]
    omega

/-- MOD[11:5] and B of a REDV (R291, R295). -/
def RedvForm.fields (op : AOp) : RedvForm → Nat × BitVec 20
  | .disp b => (op.code, eSrc b)
  | .ix oi => (op.code + 16, eO oi)
theorem redv_eq_ok (ho : f.opc.toNat = 0x2A3) : decGlobal f h = .ok i ↔ ∃ q op d a form,
    f.Has (mMask q (RedvForm.fields op form).1) (eO d) (eX a) (RedvForm.fields op form).2 ∧ (q.wf = true ∧ op.forRed = true)
      ∧ Instr.redv h q op d a form = i := by
  simp only [decGlobal, ho, DecM.bind_eq_ok, mask_eq_ok (n := 32) (by decide), AOp.ofCode_eq_ok, DecM.error_bind, DecM.ite_error_eq_ok,
    Bool.not_eq_true', Bool.not_eq_false, pO_eq_ok, pX_eq_ok]
  constructor
  · rintro ⟨⟨q, m⟩, ⟨hm, hq, hlt⟩, op, h0, hr, d, hd, a, ha, e⟩
    dsimp only at *
    split at e <;> simp only [DecM.bind_eq_ok, pO_eq_ok, pSrc_eq_ok, Except.ok.injEq] at e <;> obtain ⟨b, hb, rfl⟩ := e
    · exact ⟨q, op, d, a, .ix b, ⟨hm.trans (congrArg (mMask q) (by simp only [RedvForm.fields]; omega)), hd, ha, hb⟩,
        ⟨hq, hr⟩, rfl⟩
    · exact ⟨q, op, d, a, .disp b, ⟨hm.trans (congrArg (mMask q) (by simp only [RedvForm.fields]; omega)), hd, ha, hb⟩,
        ⟨hq, hr⟩, rfl⟩
  · rintro ⟨q, op, d, a, form, ⟨hm, hd, ha, hb⟩, ⟨hq, hr⟩, rfl⟩
    have h0 := op.code_lt
    cases form with
    | disp b =>
      have h1 : ¬ op.code / 16 = 1 := by omega
      exact ⟨(q, _), ⟨hm, hq, by simp only [RedvForm.fields]; omega⟩, op, by simp only [RedvForm.fields]; omega, hr, d, hd, a, ha,
        by simp [hb, RedvForm.fields, h1]⟩
    | ix b =>
      have h1 : (op.code + 16) / 16 = 1 := by omega
      exact ⟨(q, _), ⟨hm, hq, by simp only [RedvForm.fields]; omega⟩, op, by simp only [RedvForm.fields]; omega, hr, d, hd, a, ha,
        by simp [hb, RedvForm.fields, h1]⟩

/-- The predecessor and successor sets of a FENCE are the bytes of its immediate (R312). -/
theorem fence_eq_ok (ho : f.opc.toNat = 0x2C0) : decFence f h = .ok i ↔ ∃ scope pred succ,
    f.Has (mN scope.code) 0 (eImm (0#2 ++ succ ++ pred)) 0 ∧ Instr.fence h scope pred succ = i := by
  have happ : ∀ pred succ : BitVec 8, (0#2 ++ succ ++ pred : BitVec 18).toNat = succ.toNat * 2 ^ 8 + pred.toNat := fun pred succ => by
    rw [append_toNat, append_toNat]; simp
  have sets : ∀ (v : BitVec 18) (pred succ : BitVec 8), (v.toNat < 2 ^ 16 ∧ v.extractLsb' 0 8 = pred ∧ v.extractLsb' 8 8 = succ)
      ↔ v = 0#2 ++ succ ++ pred := by
    intro v pred succ
    have h0 := pred.isLt
    have h1 := succ.isLt
    rw [← BitVec.toNat_inj, ← BitVec.toNat_inj, ← BitVec.toNat_inj, happ]
    simp only [BitVec.extractLsb'_toNat, Nat.shiftRight_eq_div_pow]
    omega
  simp only [decFence, ho, DecM.bind_eq_ok, modBelow_eq_ok (n := 16) (by decide), pZero_eq_ok, pImm_eq_ok, DecM.ite_eq_ok,
    Scope.ofCode_eq_ok, Except.ok.injEq]
  constructor
  · rintro ⟨_, ⟨hm, -⟩, -, hd, -, hb, v, ha, hv, scope, rfl, rfl⟩
    exact ⟨scope, _, _, ⟨hm, hd, ha.trans (congrArg eImm ((sets v _ _).mp ⟨hv, rfl, rfl⟩)), hb⟩, rfl⟩
  · rintro ⟨scope, pred, succ, ⟨hm, hd, ha, hb⟩, rfl⟩
    obtain ⟨hv, h0, h1⟩ := (sets _ pred succ).mpr rfl
    exact ⟨_, ⟨hm, scope.code_lt⟩, (), hd, (), hb, _, ha, hv, scope, rfl, by rw [h0, h1]⟩

/-- MOD and B of an ESTAT (R337). -/
def EstatForm.fields : EstatForm → BitVec 12 × BitVec 20
  | .slot b => (0, eSrc b)
  | .chan b => (mN 1, eSrc b)
  | .mine => (mN 2, 0)
theorem estat_eq_ok (ho : f.opc.toNat = 0x2D2) : decEngine f h = .ok i ↔ ∃ q d,
    f.Has (EstatForm.fields q).1 (eX d) 0 (EstatForm.fields q).2 ∧ Instr.estat h q d = i := by
  simp only [decEngine, ho, DecM.bind_eq_ok, modBelow_eq_ok (n := 4) (by decide), pZero_eq_ok, pX_eq_ok]
  constructor
  · rintro ⟨m, ⟨hm, hlt⟩, -, ha, d, hd, e⟩
    split at e
    case h_4 => cases e
    all_goals simp only [DecM.bind_eq_ok, pZero_eq_ok, pSrc_eq_ok, Except.ok.injEq] at e
    all_goals obtain ⟨b, hb, rfl⟩ := e
    · exact ⟨.slot b, d, ⟨hm, hd, ha, hb⟩, rfl⟩
    · exact ⟨.chan b, d, ⟨hm, hd, ha, hb⟩, rfl⟩
    · exact ⟨.mine, d, ⟨hm, hd, ha, hb⟩, rfl⟩
  · rintro ⟨q, d, ⟨hm, hd, ha, hb⟩, rfl⟩
    cases q with
    | slot b => exact ⟨0, ⟨hm, by decide⟩, (), ha, d, hd, by simp [hb, EstatForm.fields]⟩
    | chan b => exact ⟨1, ⟨hm, by decide⟩, (), ha, d, hd, by simp [hb, EstatForm.fields]⟩
    | mine => exact ⟨2, ⟨hm, by decide⟩, (), ha, d, hd, by simp [hb, EstatForm.fields]⟩

theorem waitv_eq_ok (ho : f.opc.toNat = 0x2D9) : decEngine f h = .ok i ↔ ∃ all n1 d a,
    f.Has (mN (b2n all + 2 * n1.toNat)) (eX d) (eX a) 0 ∧ Instr.waitv h all n1 d a = i := by
  simp only [decEngine, ho, DecM.bind_eq_ok, modBelow_eq_ok (n := 16) (by decide), pZero_eq_ok, pX_eq_ok, Except.ok.injEq]
  constructor
  · rintro ⟨m, ⟨hm, hlt⟩, -, hb, d, hd, a, ha, rfl⟩
    refine ⟨_, _, d, a, ⟨?_, hd, ha, hb⟩, rfl⟩
    rw [hm, b2n_nbit, BitVec.toNat_ofNat]
    exact congrArg mN (by omega)
  · rintro ⟨all, n1, d, a, ⟨hm, hd, ha, hb⟩, rfl⟩
    have h0 := b2n_lt all
    have h1 := n1.isLt
    refine ⟨_, ⟨hm, by omega⟩, (), hb, d, hd, a, ha, ?_⟩
    simp only [Instr.waitv.injEq, nbit_eq_iff, true_and, and_true, ← BitVec.toNat_inj, BitVec.toNat_ofNat]
    omega

theorem sfdrain_eq_ok (ho : f.opc.toNat = 0x2F3) : decSifter f h = .ok i ↔ ∃ rel comp d a,
    f.Has (mN (comp.code + 4 * b2n rel)) (eX d) (eSrc a) (eComp comp) ∧ Instr.sfdrain h rel comp d a = i := by
  simp only [decSifter, ho, DecM.bind_eq_ok, modBelow_eq_ok (n := 8) (by decide), pComp_eq_ok, pX_eq_ok, pSrc_eq_ok, Except.ok.injEq]
  constructor
  · rintro ⟨m, ⟨hm, hlt⟩, comp, ⟨h0, hb⟩, d, hd, a, ha, rfl⟩
    refine ⟨_, comp, d, a, ⟨?_, hd, ha, hb⟩, rfl⟩
    rw [hm, b2n_nbit]
    exact congrArg mN (by omega)
  · rintro ⟨rel, comp, d, a, ⟨hm, hd, ha, hb⟩, rfl⟩
    have h0 := comp.code_lt
    have h1 := b2n_lt rel
    refine ⟨_, ⟨hm, by omega⟩, comp, ⟨by omega, hb⟩, d, hd, a, ha, ?_⟩
    simp only [Instr.sfdrain.injEq, nbit_eq_iff, true_and, and_true]
    omega

/-- MOD and A of a WDOG (R382). -/
def wdogFields : Option Src → BitVec 12 × BitVec 20
  | none => (0, 0)
  | some a => (mN 1, eSrc a)
theorem wdog_eq_ok (ho : f.opc.toNat = 0x307) : decSystem f h = .ok i ↔ ∃ d a,
    f.Has (wdogFields a).1 (eX d) (wdogFields a).2 0 ∧ Instr.wdog h d a = i := by
  simp only [decSystem, ho, DecM.bind_eq_ok, modBelow_eq_ok (n := 2) (by decide), pZero_eq_ok, pX_eq_ok]
  constructor
  · rintro ⟨m, ⟨hm, hlt⟩, -, hb, d, hd, e⟩
    split at e <;> simp only [DecM.bind_eq_ok, pZero_eq_ok, pSrc_eq_ok, Except.ok.injEq] at e <;> obtain ⟨a, ha, rfl⟩ := e
    · next h1 =>
      subst h1
      exact ⟨d, some a, ⟨hm, hd, ha, hb⟩, rfl⟩
    · obtain rfl : m = 0 := by omega
      exact ⟨d, none, ⟨hm, hd, ha, hb⟩, rfl⟩
  · rintro ⟨d, a, ⟨hm, hd, ha, hb⟩, rfl⟩
    cases a with
    | none => exact ⟨0, ⟨hm, by decide⟩, (), hb, d, hd, by simp [ha, wdogFields]⟩
    | some a => exact ⟨1, ⟨hm, by decide⟩, (), hb, d, hd, by simp [ha, wdogFields]⟩

end
end Sys2Proof
end

