-- ==== Sys2Proof/Proofs/CanonicalWords.lean ====
section
/-! PROOF. Every word of a family that decodes is the encoding of a well-formed instruction (R19, R24, R37). -/

namespace Sys2Proof

/-! ### Every word that decodes is canonical -/

/-- The fields are the encoding of this instruction, which is a well-formed word (R19, R24). -/
structure Canonical (f : Fields) (i : Instr) : Prop where
  isWord : i.isWord = true
  wellFormed : i.wellFormed = true
  fields : encodeFields i = some f

section
variable (h : Hdr)

theorem encodeFields_mov (m : MovForm) : encodeFields (.mov h m) = some (mk h 0x022 0 m.fields.1 m.fields.2 0) := by
  cases m <;> rfl
theorem encodeFields_gmask (d : GmaskDst) (a : PReg) : encodeFields (.gmask h d a) = some (mk h 0x0CD d.fields.1 d.fields.2 (eP a) 0) := by
  cases d <;> rfl
theorem encodeFields_refq (d : XReg) (g : Option Lat) :
    encodeFields (.refq h d g) = some (mk h 0x107 (refqFields g).1 (eX d) (refqFields g).2 0) := by
  cases g <;> rfl
theorem encodeFields_rowq (d : XReg) (q : RowqForm) : encodeFields (.rowq h d q) = some (mk h 0x108 q.fields.1 (eX d) q.fields.2 0) := by
  cases q <;> rfl
theorem encodeFields_tstat (q : TstatSel) (d : XReg) : encodeFields (.tstat h q d) = some (mk h 0x229 q.fields.1 (eX d) q.fields.2 0) := by
  cases q <;> rfl
theorem encodeFields_cinv (r : CRange) : encodeFields (.cinv h r) = some (mk h 0x26B r.fields.1 0 r.fields.2.1 r.fields.2.2) := by
  cases r <;> rfl
theorem encodeFields_cwb (r : CRange) : encodeFields (.cwb h r) = some (mk h 0x26C r.fields.1 0 r.fields.2.1 r.fields.2.2) := by
  cases r <;> rfl
theorem encodeFields_redv (q : MaskMod) (op : AOp) (d : Lat) (a : XReg) (form : RedvForm) : encodeFields (.redv h q op d a form)
    = some (mk h 0x2A3 (mMask q (form.fields op).1) (eO d) (eX a) (form.fields op).2) := by
  cases form <;> rfl
theorem encodeFields_estat (q : EstatForm) (d : XReg) : encodeFields (.estat h q d) = some (mk h 0x2D2 q.fields.1 (eX d) 0 q.fields.2) := by
  cases q <;> rfl
theorem encodeFields_wdog (d : XReg) (a : Option Src) :
    encodeFields (.wdog h d a) = some (mk h 0x307 (wdogFields a).1 (eX d) (wdogFields a).2 0) := by
  cases a <;> rfl

end

section
variable {f : Fields} {h : Hdr} {i : Instr}

theorem canonical_of {o : Nat} {m : BitVec 12} {d a b : BitVec 20} (hd : f.hdr = .ok h) (ho : f.opc.toNat = o) (hf : f.Has m d a b)
    (he : encodeFields i = some (mk h o m d a b)) (hi : i.isWord = true) (hw : i.wellFormed = true) : Canonical f i := by
  refine ⟨hi, hw, ?_⟩
  rw [he, (hdr_eq_ok.mp hd).2, ho, hf.mod, hf.d, hf.a, hf.b]

theorem decInt_canonical (hd : f.hdr = .ok h) (e : decInt f h = .ok i) : Canonical f i := by
  have wf := (hdr_eq_ok.mp hd).1
  have e' := e
  unfold decInt at e'
  split at e'
  case h_1 ho | h_2 ho | h_3 ho | h_6 ho | h_7 ho | h_8 ho | h_9 ho
      | h_14 ho | h_15 ho | h_16 ho | h_17 ho | h_28 ho | h_29 ho | h_30 ho | h_31 ho =>
    obtain ⟨w, d, a, b, hf, rfl⟩ := twoW_eq_ok.mp e'
    exact canonical_of hd ho hf rfl rfl wf
  case h_4 ho | h_5 ho | h_10 ho | h_11 ho | h_12 ho | h_13 ho | h_18 ho | h_19 ho =>
    obtain ⟨d, a, b, hf, rfl⟩ := two0_eq_ok.mp e'
    exact canonical_of hd ho hf rfl rfl wf
  case h_20 ho | h_21 ho | h_22 ho =>
    obtain ⟨pos, len1, d, a, hf, hw, rfl⟩ := bitField_eq_ok.mp e'
    exact canonical_of hd ho hf rfl rfl (by simp [Instr.wellFormed, wf, hw])
  case h_23 ho | h_24 ho | h_25 ho | h_26 ho | h_27 ho | h_32 ho =>
    obtain ⟨w, d, a, hf, rfl⟩ := oneW_eq_ok.mp e'
    exact canonical_of hd ho hf rfl rfl wf
  case h_33 ho =>
    obtain ⟨p, neg, d, a, b, hf, rfl⟩ := (sel_eq_ok ho).mp e
    exact canonical_of hd ho hf rfl rfl wf
  case h_34 ho =>
    obtain ⟨m, hf, rfl⟩ := (mov_eq_ok ho).mp e
    exact canonical_of hd ho hf (encodeFields_mov _ _) rfl wf
  case h_35 ho | h_36 ho =>
    obtain ⟨z, d, a, hf, rfl⟩ := extend_eq_ok.mp e'
    exact canonical_of hd ho hf rfl rfl wf
  case h_37 ho =>
    obtain ⟨w, cond, d, a, b, hf, rfl⟩ := (cmp_eq_ok ho).mp e
    exact canonical_of hd ho hf rfl rfl wf
  case h_38 ho =>
    obtain ⟨k, d, a, b, hf, rfl⟩ := (lea_eq_ok ho).mp e
    exact canonical_of hd ho hf rfl rfl wf
  case h_39 ho =>
    obtain ⟨op, d, a, b, hf, rfl⟩ := (pand_eq_ok ho).mp e
    exact canonical_of hd ho hf rfl rfl wf
  case h_40 => cases e'

theorem decFp_canonical (hd : f.hdr = .ok h) (e : decFp f h = .ok i) : Canonical f i := by
  have wf := (hdr_eq_ok.mp hd).1
  have e' := e
  unfold decFp at e'
  split at e'
  case h_1 ho | h_2 ho | h_3 ho | h_4 ho =>
    obtain ⟨x, rm, d, a, b, hf, hw, rfl⟩ := fp2_eq_ok.mp e'
    exact canonical_of hd ho hf rfl rfl (by simp [Instr.wellFormed, wf, hw])
  case h_5 ho | h_14 ho =>
    obtain ⟨x, rm, d, a, hf, hw, rfl⟩ := fp1_eq_ok.mp e'
    exact canonical_of hd ho hf rfl rfl (by simp [Instr.wellFormed, wf, hw])
  case h_6 ho =>
    obtain ⟨x, rm, np, na, d, a, b, hf, hw, rfl⟩ := (fma_eq_ok ho).mp e
    exact canonical_of hd ho hf rfl rfl (by simp [Instr.wellFormed, wf, hw])
  case h_7 ho | h_8 ho =>
    obtain ⟨x, d, a, b, hf, hw, rfl⟩ := fpMin_eq_ok.mp e'
    exact canonical_of hd ho hf rfl rfl (by simp [Instr.wellFormed, wf, hw])
  case h_9 ho | h_10 ho | h_13 ho =>
    obtain ⟨x, d, a, hf, hw, rfl⟩ := fpSign_eq_ok.mp e'
    exact canonical_of hd ho hf rfl rfl (by simp [Instr.wellFormed, wf, hw])
  case h_11 ho =>
    obtain ⟨z, cond, d, a, b, hf, hw, rfl⟩ := (fcmp_eq_ok ho).mp e
    exact canonical_of hd ho hf rfl rfl (by simp [Instr.wellFormed, wf, hw])
  case h_12 ho =>
    obtain ⟨dty, sty, rm, d, a, hf, hw, rfl⟩ := (fcvt_eq_ok ho).mp e
    exact canonical_of hd ho hf rfl rfl (by simp [Instr.wellFormed, wf, hw])
  case h_15 => cases e'

theorem decControl_canonical (hd : f.hdr = .ok h) (e : decControl f h = .ok i) : Canonical f i := by
  have wf := (hdr_eq_ok.mp hd).1
  have e' := e
  unfold decControl at e'
  split at e'
  case h_1 ho =>
    obtain ⟨hf, rfl⟩ := bare_eq_ok.mp e'
    exact canonical_of hd ho hf rfl rfl wf
  case h_2 ho =>
    obtain ⟨disp, hf, hw, rfl⟩ := (br_eq_ok ho).mp e
    exact canonical_of hd ho hf rfl rfl (by simp [Instr.wellFormed, Hdr.wfTerm, wf, hw])
  case h_3 ho =>
    obtain ⟨a, b, hf, hw, rfl⟩ := (brx_eq_ok ho).mp e
    exact canonical_of hd ho hf rfl rfl (by simp [Instr.wellFormed, Hdr.wfTerm, wf, hw])
  case h_4 ho =>
    obtain ⟨l, disp, hf, hw, rfl⟩ := (call_eq_ok ho).mp e
    exact canonical_of hd ho hf rfl rfl (by simp [Instr.wellFormed, Hdr.wfTerm, wf, hw])
  case h_5 ho =>
    obtain ⟨l, a, b, hf, hw, rfl⟩ := (callx_eq_ok ho).mp e
    exact canonical_of hd ho hf rfl rfl (by simp [Instr.wellFormed, Hdr.wfTerm, wf, hw])
  case h_6 ho =>
    obtain ⟨a, hf, hw, rfl⟩ := (ret_eq_ok ho).mp e
    exact canonical_of hd ho hf rfl rfl (by simp [Instr.wellFormed, Hdr.wfTerm, wf, hw])
  case h_7 ho =>
    obtain ⟨d, disp, amount, hf, hw, rfl⟩ := (subbr_eq_ok ho).mp e
    exact canonical_of hd ho hf rfl rfl (by simp [Instr.wellFormed, Hdr.wfTerm, wf, hw])
  case h_8 ho =>
    obtain ⟨target, joinAt, hf, hw, rfl⟩ := (brd_eq_ok ho).mp e
    exact canonical_of hd ho hf rfl rfl (by simp [Instr.wellFormed, Hdr.wfTerm, wf, hw])
  case h_9 ho =>
    obtain ⟨hf, hw, rfl⟩ := (join_eq_ok ho).mp e
    exact canonical_of hd ho hf rfl rfl (by simp [Instr.wellFormed, Hdr.wfPlain, hw])
  case h_10 ho =>
    obtain ⟨n1, body, hf, rfl⟩ := (capt_eq_ok ho).mp e
    exact canonical_of hd ho hf rfl rfl wf
  case h_11 ho =>
    obtain ⟨n1, body, stride, hf, hw, rfl⟩ := (replay_eq_ok ho).mp e
    exact canonical_of hd ho hf rfl rfl (by simp [Instr.wellFormed, Hdr.wfPlain, hw])
  case h_12 ho =>
    obtain ⟨hf, hw, rfl⟩ := (exit_eq_ok ho).mp e
    exact canonical_of hd ho hf rfl rfl (by simp [Instr.wellFormed, Hdr.wfTerm, wf, hw])
  case h_13 ho =>
    obtain ⟨hf, hw, rfl⟩ := (yield_eq_ok ho).mp e
    exact canonical_of hd ho hf rfl rfl (by simp [Instr.wellFormed, Hdr.wfTerm, wf, hw])
  case h_14 ho =>
    obtain ⟨d, a, hf, rfl⟩ := (gmask_eq_ok ho).mp e
    exact canonical_of hd ho hf (encodeFields_gmask _ _ _) rfl wf
  case h_15 ho =>
    obtain ⟨sel, d, hf, rfl⟩ := (hartid_eq_ok ho).mp e
    exact canonical_of hd ho hf rfl rfl wf
  case h_16 => cases e'

theorem decRow_canonical (hd : f.hdr = .ok h) (e : decRow f h = .ok i) : Canonical f i := by
  have wf := (hdr_eq_ok.mp hd).1
  have e' := e
  unfold decRow at e'
  split at e'
  case h_1 ho | h_3 ho | h_4 ho =>
    obtain ⟨d, a, hf, rfl⟩ := rowR_eq_ok.mp e'
    exact canonical_of hd ho hf rfl rfl wf
  case h_2 ho | h_5 ho | h_7 ho =>
    obtain ⟨d, hf, rfl⟩ := rowG_eq_ok.mp e'
    exact canonical_of hd ho hf rfl rfl wf
  case h_6 ho =>
    obtain ⟨hf, rfl⟩ := bare_eq_ok.mp e'
    exact canonical_of hd ho hf rfl rfl wf
  case h_8 ho =>
    obtain ⟨d, g, hf, rfl⟩ := (refq_eq_ok ho).mp e
    exact canonical_of hd ho hf (encodeFields_refq _ _ _) rfl wf
  case h_9 ho =>
    obtain ⟨d, q, hf, rfl⟩ := (rowq_eq_ok ho).mp e
    exact canonical_of hd ho hf (encodeFields_rowq _ _ _) rfl wf
  case h_10 => cases e'

theorem decLane_canonical (hd : f.hdr = .ok h) (e : decLane f h = .ok i) : Canonical f i := by
  have wf := (hdr_eq_ok.mp hd).1
  have e' := e
  unfold decLane at e'
  split at e'
  case h_1 ho =>
    obtain ⟨d, n, hf, rfl⟩ := (setvl_eq_ok ho).mp e
    exact canonical_of hd ho hf rfl rfl wf
  case h_2 ho =>
    obtain ⟨d, v, hf, rfl⟩ := (setvt_eq_ok ho).mp e
    exact canonical_of hd ho hf rfl rfl wf
  case h_3 ho | h_4 ho | h_5 ho | h_6 ho | h_7 ho | h_8 ho | h_9 ho | h_12 ho | h_13 ho | h_14 ho | h_16 ho
      | h_17 ho | h_18 ho | h_19 ho | h_20 ho | h_21 ho | h_24 ho | h_25 ho | h_26 ho | h_28 ho | h_31 ho | h_32 ho =>
    obtain ⟨q, d, a, b, hf, hw, rfl⟩ := lane2_eq_ok.mp e'
    exact canonical_of hd ho hf rfl rfl (by simp [Instr.wellFormed, wf, hw])
  case h_10 ho | h_11 ho | h_15 ho | h_22 ho | h_23 ho | h_29 ho | h_30 ho | h_33 ho | h_34 ho =>
    obtain ⟨q, d, a, hf, hw, rfl⟩ := lane1_eq_ok.mp e'
    exact canonical_of hd ho hf rfl rfl (by simp [Instr.wellFormed, wf, hw])
  case h_27 ho =>
    obtain ⟨q, np, na, d, a, b, hf, hw, rfl⟩ := (vfma_eq_ok ho).mp e
    exact canonical_of hd ho hf rfl rfl (by simp [Instr.wellFormed, wf, hw])
  case h_35 ho =>
    obtain ⟨q, cond, d, a, b, hf, hw, rfl⟩ := (vcmp_eq_ok ho).mp e
    exact canonical_of hd ho hf rfl rfl (by simp [Instr.wellFormed, wf, hw])
  case h_36 ho =>
    obtain ⟨q, cond, d, a, b, hf, hw, rfl⟩ := (vfcmp_eq_ok ho).mp e
    exact canonical_of hd ho hf rfl rfl (by simp [Instr.wellFormed, wf, hw])
  case h_37 ho | h_38 ho | h_39 ho =>
    obtain ⟨d, a, b, hf, rfl⟩ := mask2_eq_ok.mp e'
    exact canonical_of hd ho hf rfl rfl wf
  case h_40 ho =>
    obtain ⟨d, a, hf, rfl⟩ := (mnot_eq_ok ho).mp e
    exact canonical_of hd ho hf rfl rfl wf
  case h_41 ho | h_42 ho =>
    obtain ⟨q, d, a, hf, hw, rfl⟩ := maskCount_eq_ok.mp e'
    exact canonical_of hd ho hf rfl rfl (by simp [Instr.wellFormed, wf, hw])
  case h_43 ho =>
    obtain ⟨q, d, a, b, hf, hw, rfl⟩ := (vsel_eq_ok ho).mp e
    exact canonical_of hd ho hf rfl rfl (by simp [Instr.wellFormed, wf, hw])
  case h_44 ho =>
    obtain ⟨q, sty, part, d, a, hf, hw, rfl⟩ := (vcvt_eq_ok ho).mp e
    exact canonical_of hd ho hf rfl rfl (by simp [Instr.wellFormed, wf, hw])
  case h_45 ho | h_47 ho =>
    obtain ⟨z, seg, part, d, a, b, hf, hw, rfl⟩ := scaledConv_eq_ok.mp e'
    exact canonical_of hd ho hf rfl rfl (by simp [Instr.wellFormed, wf, hw])
  case h_46 ho | h_48 ho =>
    obtain ⟨z, seg, part, d, a, b, hf, -, rfl⟩ := scaledConv_eq_ok.mp e'
    exact canonical_of hd ho hf rfl rfl wf
  case h_49 ho =>
    obtain ⟨q, d, a, hf, hw, rfl⟩ := (vmov_eq_ok ho).mp e
    exact canonical_of hd ho hf rfl rfl (by simp [Instr.wellFormed, wf, hw])
  case h_50 ho =>
    obtain ⟨q, d, a, hf, hw, rfl⟩ := (vsplat_eq_ok ho).mp e
    exact canonical_of hd ho hf rfl rfl (by simp [Instr.wellFormed, wf, hw])
  case h_51 ho =>
    obtain ⟨d, a, b, hf, rfl⟩ := (vext_eq_ok ho).mp e
    exact canonical_of hd ho hf rfl rfl wf
  case h_52 ho =>
    obtain ⟨d, a, b, hf, rfl⟩ := (vins_eq_ok ho).mp e
    exact canonical_of hd ho hf rfl rfl wf
  case h_53 ho =>
    obtain ⟨q, d, a, b, hf, hw, rfl⟩ := (vperm_eq_ok ho).mp e
    exact canonical_of hd ho hf rfl rfl (by simp [Instr.wellFormed, wf, hw])
  case h_54 ho =>
    obtain ⟨q, d, a, b, hf, hw, rfl⟩ := (vslide_eq_ok ho).mp e
    exact canonical_of hd ho hf rfl rfl (by simp [Instr.wellFormed, wf, hw])
  case h_55 ho | h_56 ho =>
    obtain ⟨q, d, a, hf, hw, rfl⟩ := compress_eq_ok.mp e'
    exact canonical_of hd ho hf rfl rfl (by simp [Instr.wellFormed, wf, hw])
  case h_57 ho =>
    obtain ⟨q, d, a, b, hf, hw, rfl⟩ := (vgath_eq_ok ho).mp e
    exact canonical_of hd ho hf rfl rfl (by simp [Instr.wellFormed, wf, hw])
  case h_58 ho =>
    obtain ⟨q, rank, d, b, hf, hw, rfl⟩ := (viota_eq_ok ho).mp e
    exact canonical_of hd ho hf rfl rfl (by simp [Instr.wellFormed, wf, hw])
  case h_59 ho | h_60 ho | h_61 ho =>
    obtain ⟨q, d, a, b, hf, hw, rfl⟩ := reduce_eq_ok.mp e'
    exact canonical_of hd ho hf rfl rfl (by simp [Instr.wellFormed, wf, hw])
  case h_62 ho =>
    obtain ⟨q, wide, d, a, b, hf, hw, rfl⟩ := (vfreds_eq_ok ho).mp e
    exact canonical_of hd ho hf rfl rfl (by simp [Instr.wellFormed, wf, hw])
  case h_63 ho =>
    obtain ⟨q, excl, d, a, b, hf, hw, rfl⟩ := (vscan_eq_ok ho).mp e
    exact canonical_of hd ho hf rfl rfl (by simp [Instr.wellFormed, wf, hw])
  case h_64 ho =>
    obtain ⟨q, desc, d, a, b, hf, hw, rfl⟩ := (vsortk_eq_ok ho).mp e
    exact canonical_of hd ho hf rfl rfl (by simp [Instr.wellFormed, wf, hw])
  case h_65 ho =>
    obtain ⟨q, last, d, a, hf, hw, rfl⟩ := (vuniq_eq_ok ho).mp e
    exact canonical_of hd ho hf rfl rfl (by simp [Instr.wellFormed, wf, hw])
  case h_66 => cases e'

theorem decBus_canonical (hd : f.hdr = .ok h) (e : decBus f h = .ok i) : Canonical f i := by
  have wf := (hdr_eq_ok.mp hd).1
  have e' := e
  unfold decBus at e'
  split at e'
  case h_1 ho | h_2 ho | h_3 ho | h_4 ho =>
    obtain ⟨d, a, b, hf, rfl⟩ := bus_eq_ok.mp e'
    exact canonical_of hd ho hf rfl rfl wf
  case h_5 ho =>
    obtain ⟨d, a, hf, rfl⟩ := (rseg_eq_ok ho).mp e
    exact canonical_of hd ho hf rfl rfl wf
  case h_6 => cases e'

theorem decMatrix_canonical (hd : f.hdr = .ok h) (e : decMatrix f h = .ok i) : Canonical f i := by
  have wf := (hdr_eq_ok.mp hd).1
  have e' := e
  unfold decMatrix at e'
  split at e'
  case h_1 ho =>
    obtain ⟨bf, half, tile, scale, hf, rfl⟩ := (tload_eq_ok ho).mp e
    exact canonical_of hd ho hf rfl rfl wf
  case h_2 ho =>
    obtain ⟨af, half, kq, z, aseg, d, a, scale, hf, rfl⟩ := (tmma_eq_ok ho).mp e
    exact canonical_of hd ho hf rfl rfl wf
  case h_3 ho =>
    obtain ⟨edge, a, hf, rfl⟩ := (accz_eq_ok ho).mp e
    exact canonical_of hd ho hf rfl rfl wf
  case h_4 ho =>
    obtain ⟨fmt, d, a, row, hf, rfl⟩ := (accrd_eq_ok ho).mp e
    exact canonical_of hd ho hf rfl rfl wf
  case h_5 ho =>
    obtain ⟨fmt, d, a, row, hf, rfl⟩ := (accwr_eq_ok ho).mp e
    exact canonical_of hd ho hf rfl rfl wf
  case h_6 ho =>
    obtain ⟨int, d, a, hf, rfl⟩ := (accclm_eq_ok ho).mp e
    exact canonical_of hd ho hf rfl rfl wf
  case h_7 ho =>
    obtain ⟨a, hf, rfl⟩ := (accrel_eq_ok ho).mp e
    exact canonical_of hd ho hf rfl rfl wf
  case h_8 ho =>
    obtain ⟨comp, addr, a, hf, rfl⟩ := (accsv_eq_ok ho).mp e
    exact canonical_of hd ho hf rfl rfl wf
  case h_9 ho =>
    obtain ⟨comp, a, addr, hf, rfl⟩ := (accld_eq_ok ho).mp e
    exact canonical_of hd ho hf rfl rfl wf
  case h_10 ho =>
    obtain ⟨q, d, hf, rfl⟩ := (tstat_eq_ok ho).mp e
    exact canonical_of hd ho hf (encodeFields_tstat _ _ _) rfl wf
  case h_11 => cases e'

theorem decPool_canonical (hd : f.hdr = .ok h) (e : decPool f h = .ok i) : Canonical f i := by
  have wf := (hdr_eq_ok.mp hd).1
  have e' := e
  unfold decPool at e'
  split at e'
  case h_1 ho =>
    obtain ⟨ty, na, d, base, disp, hf, hw, rfl⟩ := (ld_eq_ok ho).mp e
    exact canonical_of hd ho hf rfl rfl (by simp [Instr.wellFormed, wf, hw])
  case h_2 ho =>
    obtain ⟨sz, na, d, base, disp, hf, hw, rfl⟩ := (st_eq_ok ho).mp e
    exact canonical_of hd ho hf rfl rfl (by simp [Instr.wellFormed, wf, hw])
  case h_3 ho =>
    obtain ⟨d, base, disp, hf, hw, rfl⟩ := (lde_eq_ok ho).mp e
    exact canonical_of hd ho hf rfl rfl (by simp [Instr.wellFormed, wf, hw])
  case h_4 ho =>
    obtain ⟨d, base, disp, hf, hw, rfl⟩ := (ste_eq_ok ho).mp e
    exact canonical_of hd ho hf rfl rfl (by simp [Instr.wellFormed, wf, hw])
  case h_5 ho =>
    obtain ⟨d, base, disp, hf, hw, rfl⟩ := (ldf_eq_ok ho).mp e
    exact canonical_of hd ho hf rfl rfl (by simp [Instr.wellFormed, wf, hw])
  case h_6 ho =>
    obtain ⟨d, base, disp, hf, hw, rfl⟩ := (stf_eq_ok ho).mp e
    exact canonical_of hd ho hf rfl rfl (by simp [Instr.wellFormed, wf, hw])
  case h_7 ho =>
    obtain ⟨blk, d, base, disp, hf, hw, rfl⟩ := (tagr_eq_ok ho).mp e
    exact canonical_of hd ho hf rfl rfl (by simp [Instr.wellFormed, wf, hw])
  case h_8 ho =>
    obtain ⟨blk, d, base, disp, hf, hw, rfl⟩ := (tagw_eq_ok ho).mp e
    exact canonical_of hd ho hf rfl rfl (by simp [Instr.wellFormed, wf, hw])
  case h_9 ho =>
    obtain ⟨ex, base, disp, hf, hw, rfl⟩ := (pref_eq_ok ho).mp e
    exact canonical_of hd ho hf rfl rfl (by simp [Instr.wellFormed, wf, hw])
  case h_10 ho =>
    obtain ⟨n1, d, base, disp, hf, hw, rfl⟩ := (ldv_eq_ok ho).mp e
    exact canonical_of hd ho hf rfl rfl (by simp [Instr.wellFormed, wf, hw])
  case h_11 ho =>
    obtain ⟨n1, d, base, disp, hf, hw, rfl⟩ := (stv_eq_ok ho).mp e
    exact canonical_of hd ho hf rfl rfl (by simp [Instr.wellFormed, wf, hw])
  case h_12 ho =>
    obtain ⟨r, hf, rfl⟩ := (cinv_eq_ok ho).mp e
    exact canonical_of hd ho hf (encodeFields_cinv _ _) rfl wf
  case h_13 ho =>
    obtain ⟨r, hf, rfl⟩ := (cwb_eq_ok ho).mp e
    exact canonical_of hd ho hf (encodeFields_cwb _ _) rfl wf
  case h_14 ho =>
    obtain ⟨w, op, d, a, b, hf, rfl⟩ := (amop_eq_ok ho).mp e
    exact canonical_of hd ho hf rfl rfl wf
  case h_15 => cases e'

theorem decGlobal_canonical (hd : f.hdr = .ok h) (e : decGlobal f h = .ok i) : Canonical f i := by
  have wf := (hdr_eq_ok.mp hd).1
  have e' := e
  unfold decGlobal at e'
  split at e'
  case h_1 ho =>
    obtain ⟨w, op, d, a, b, hf, hw, rfl⟩ := (amo_eq_ok ho).mp e
    exact canonical_of hd ho hf rfl rfl (by simp [Instr.wellFormed, wf, hw])
  case h_2 ho =>
    obtain ⟨size, d, a, b, hf, hw, rfl⟩ := (cas_eq_ok ho).mp e
    exact canonical_of hd ho hf rfl rfl (by simp [Instr.wellFormed, wf, hw])
  case h_3 ho =>
    obtain ⟨w, op, a, b, hf, hw, rfl⟩ := (red_eq_ok ho).mp e
    exact canonical_of hd ho hf rfl rfl (by simp [Instr.wellFormed, wf, hw])
  case h_4 ho =>
    obtain ⟨q, op, d, a, form, hf, hw, rfl⟩ := (redv_eq_ok ho).mp e
    exact canonical_of hd ho hf (encodeFields_redv _ _ _ _ _ _) rfl (by simp [Instr.wellFormed, wf, hw])
  case h_5 ho =>
    obtain ⟨scope, hf, rfl⟩ := (redf_eq_ok ho).mp e
    exact canonical_of hd ho hf rfl rfl wf
  case h_6 ho =>
    obtain ⟨pa, d, base, disp, hf, rfl⟩ := (pgq_eq_ok ho).mp e
    exact canonical_of hd ho hf rfl rfl wf
  case h_7 => cases e'

theorem decFence_canonical (hd : f.hdr = .ok h) (e : decFence f h = .ok i) : Canonical f i := by
  have wf := (hdr_eq_ok.mp hd).1
  have e' := e
  unfold decFence at e'
  split at e'
  case h_1 ho =>
    obtain ⟨scope, pred, succ, hf, rfl⟩ := (fence_eq_ok ho).mp e
    exact canonical_of hd ho hf rfl rfl wf
  case h_2 ho =>
    obtain ⟨hf, rfl⟩ := bare_eq_ok.mp e'
    exact canonical_of hd ho hf rfl rfl wf
  case h_3 => cases e'

theorem decEngine_canonical (hd : f.hdr = .ok h) (e : decEngine f h = .ok i) : Canonical f i := by
  have wf := (hdr_eq_ok.mp hd).1
  have e' := e
  unfold decEngine at e'
  split at e'
  case h_1 ho =>
    obtain ⟨q, d, a, n, hf, hw, rfl⟩ := (enq_eq_ok ho).mp e
    exact canonical_of hd ho hf rfl rfl (by simp [Instr.wellFormed, wf, hw])
  case h_2 ho =>
    obtain ⟨d, a, hf, hw, rfl⟩ := (enq1_eq_ok ho).mp e
    exact canonical_of hd ho hf rfl rfl (by simp [Instr.wellFormed, wf, hw])
  case h_3 ho =>
    obtain ⟨q, d, hf, rfl⟩ := (estat_eq_ok ho).mp e
    exact canonical_of hd ho hf (encodeFields_estat _ _ _) rfl wf
  case h_4 ho =>
    obtain ⟨d, b, hf, rfl⟩ := (esusp_eq_ok ho).mp e
    exact canonical_of hd ho hf rfl rfl wf
  case h_5 ho =>
    obtain ⟨a, b, hf, rfl⟩ := (bari_eq_ok ho).mp e
    exact canonical_of hd ho hf rfl rfl wf
  case h_6 ho | h_7 ho | h_8 ho =>
    obtain ⟨d, a, b, hf, rfl⟩ := objB_eq_ok.mp e'
    exact canonical_of hd ho hf rfl rfl wf
  case h_9 ho =>
    obtain ⟨cond, d, a, b, hf, rfl⟩ := (wait_eq_ok ho).mp e
    exact canonical_of hd ho hf rfl rfl wf
  case h_10 ho =>
    obtain ⟨all, n1, d, a, hf, rfl⟩ := (waitv_eq_ok ho).mp e
    exact canonical_of hd ho hf rfl rfl wf
  case h_11 => cases e'

theorem decSifter_canonical (hd : f.hdr = .ok h) (e : decSifter f h = .ok i) : Canonical f i := by
  have wf := (hdr_eq_ok.mp hd).1
  have e' := e
  unfold decSifter at e'
  split at e'
  case h_1 ho =>
    obtain ⟨d, a, b, hf, rfl⟩ := (sfcfg_eq_ok ho).mp e
    exact canonical_of hd ho hf rfl rfl wf
  case h_2 ho =>
    obtain ⟨q, d, a, n, hf, hw, rfl⟩ := (sfpush_eq_ok ho).mp e
    exact canonical_of hd ho hf rfl rfl (by simp [Instr.wellFormed, wf, hw])
  case h_3 ho =>
    obtain ⟨comp, list, max, hf, rfl⟩ := (sfround_eq_ok ho).mp e
    exact canonical_of hd ho hf rfl rfl wf
  case h_4 ho =>
    obtain ⟨rel, comp, d, a, hf, rfl⟩ := (sfdrain_eq_ok ho).mp e
    exact canonical_of hd ho hf rfl rfl wf
  case h_5 ho =>
    obtain ⟨sel, d, hf, rfl⟩ := (sfstat_eq_ok ho).mp e
    exact canonical_of hd ho hf rfl rfl wf
  case h_6 => cases e'

theorem decSystem_canonical (hd : f.hdr = .ok h) (e : decSystem f h = .ok i) : Canonical f i := by
  have wf := (hdr_eq_ok.mp hd).1
  have e' := e
  unfold decSystem at e'
  split at e'
  case h_1 ho =>
    obtain ⟨d, csr, hf, rfl⟩ := (csrr_eq_ok ho).mp e
    exact canonical_of hd ho hf rfl rfl wf
  case h_2 ho | h_3 ho | h_4 ho =>
    obtain ⟨c, a, hf, rfl⟩ := csrWrite_eq_ok.mp e'
    exact canonical_of hd ho hf rfl rfl wf
  case h_5 ho =>
    obtain ⟨code, a, hf, hw, rfl⟩ := (trap_eq_ok ho).mp e
    exact canonical_of hd ho hf rfl rfl (by simp [Instr.wellFormed, Hdr.wfTerm, wf, hw])
  case h_6 ho =>
    obtain ⟨hf, hw, rfl⟩ := (eret_eq_ok ho).mp e
    exact canonical_of hd ho hf rfl rfl (by simp [Instr.wellFormed, Hdr.wfPlain, hw])
  case h_7 ho =>
    obtain ⟨a, hf, hw, rfl⟩ := (halt_eq_ok ho).mp e
    exact canonical_of hd ho hf rfl rfl (by simp [Instr.wellFormed, Hdr.wfTerm, wf, hw])
  case h_8 ho =>
    obtain ⟨d, a, hf, rfl⟩ := (wdog_eq_ok ho).mp e
    exact canonical_of hd ho hf (encodeFields_wdog _ _ _) rfl wf
  case h_9 ho =>
    obtain ⟨sel, d, hf, rfl⟩ := (ctxq_eq_ok ho).mp e
    exact canonical_of hd ho hf rfl rfl wf
  case h_10 ho =>
    obtain ⟨a, hf, hw, rfl⟩ := (bkpt_eq_ok ho).mp e
    exact canonical_of hd ho hf rfl rfl (by simp [Instr.wellFormed, Hdr.wfTerm, wf, hw])
  case h_11 => cases e'

theorem decLaunch_canonical (hd : f.hdr = .ok h) (e : decLaunch f h = .ok i) : Canonical f i := by
  have wf := (hdr_eq_ok.mp hd).1
  have e' := e
  unfold decLaunch at e'
  split at e'
  case h_1 ho =>
    obtain ⟨d, base, disp, hf, hw, rfl⟩ := (launch_eq_ok ho).mp e
    exact canonical_of hd ho hf rfl rfl (by simp [Instr.wellFormed, wf, hw])
  case h_2 ho =>
    obtain ⟨d, a, b, hf, rfl⟩ := objB_eq_ok.mp e'
    exact canonical_of hd ho hf rfl rfl wf
  case h_3 ho =>
    obtain ⟨d, a, hf, rfl⟩ := (depq_eq_ok ho).mp e
    exact canonical_of hd ho hf rfl rfl wf
  case h_4 => cases e'

end
end Sys2Proof
end

