-- ==== Sys2Proof/Proofs/WordFamilies.lean ====
section
/-! PROOF. PFX (R34), and the family that an opcode names (R40), in both directions. -/

namespace Sys2Proof

/-! ### The families and PFX -/

section
variable {f : Fields} {h : Hdr} {i : Instr}

/-- The immediate of a PFX is cut into [63:60], [59:40], [39:20] and [19:0] (R34). -/
theorem pfx_toNat (m : BitVec 12) (d a b : BitVec 20) (hm : m.toNat < 16) : (m.extractLsb' 0 4 ++ d ++ a ++ b).toNat
    = m.toNat * 2 ^ 60 + d.toNat * 2 ^ 40 + a.toNat * 2 ^ 20 + b.toNat := by
  have h4 : (m.extractLsb' 0 4).toNat = m.toNat := by rw [BitVec.extractLsb'_toNat]; omega
  rw [append_toNat, append_toNat, append_toNat, h4]
  omega

theorem pfx_high_toNat (v : BitVec 64) : (0#8 ++ v.extractLsb' 60 4 : BitVec 12).toNat = v.toNat / 2 ^ 60 := by
  have hv := v.isLt
  rw [append_toNat, BitVec.extractLsb'_toNat, Nat.shiftRight_eq_div_pow, BitVec.toNat_ofNat]
  omega

theorem encodeFields_pfx (v : BitVec 64) : encodeFields (.pfx v) = some ⟨0x350, true, false, 0, 0, 0, 0#8 ++ v.extractLsb' 60 4,
    v.extractLsb' 40 20, v.extractLsb' 20 20, v.extractLsb' 0 20⟩ := rfl

theorem decPfx_canonical (ho : f.opc = 0x350) (e : decPfx f = .ok i) : Canonical f i := by
  obtain ⟨opc, c, gn, gp, stall, hint, m, d, a, b⟩ := f
  simp only [decPfx, DecM.ite_eq_ok, Except.ok.injEq] at e ho
  obtain ⟨⟨rfl, rfl, rfl, rfl, rfl, hlt⟩, rfl⟩ := e
  obtain ⟨hd, ha, hb⟩ := And.intro d.isLt (And.intro a.isLt b.isLt)
  have hv := pfx_toNat m d a b hlt
  generalize m.extractLsb' 0 4 ++ d ++ a ++ b = v at hv
  have hm : 0#8 ++ v.extractLsb' 60 4 = m := BitVec.eq_of_toNat_eq (by rw [pfx_high_toNat]; omega)
  have cut : ∀ (k : Nat) (x : BitVec 20), v.toNat / 2 ^ k % 2 ^ 20 = x.toNat → v.extractLsb' k 20 = x := fun k x hx =>
    BitVec.eq_of_toNat_eq (by rw [BitVec.extractLsb'_toNat, Nat.shiftRight_eq_div_pow, hx])
  refine ⟨rfl, rfl, ?_⟩
  rw [encodeFields_pfx, ho, hm, cut 40 d (by omega), cut 20 a (by omega), cut 0 b (by omega)]

theorem decodeFields_pfx (v : BitVec 64) : decodeFields ⟨0x350, true, false, 0, 0, 0, 0#8 ++ v.extractLsb' 60 4,
    v.extractLsb' 40 20, v.extractLsb' 20 20, v.extractLsb' 0 20⟩ = .ok (.pfx v) := by
  have hm := pfx_high_toNat v
  have hlt : (0#8 ++ v.extractLsb' 60 4 : BitVec 12).toNat < 16 := by omega
  refine (if_pos ⟨rfl, rfl, rfl, rfl, rfl, hlt⟩).trans (congrArg (Except.ok ∘ Instr.pfx) (BitVec.eq_of_toNat_eq ?_))
  rw [pfx_toNat _ _ _ _ hlt, hm]
  simp only [BitVec.extractLsb'_toNat, Nat.shiftRight_eq_div_pow]
  omega

theorem decodeFields_canonical (e : decodeFields f = .ok i) : Canonical f i := by
  simp only [decodeFields, DecM.error_bind, DecM.ite_error_eq_ok] at e
  obtain ⟨-, e⟩ := e
  split at e
  · next ho => exact decPfx_canonical ho e
  · obtain ⟨h, hd, e⟩ := DecM.bind_eq_ok _ _ _ |>.mp e
    split at e
    case h_1 => exact decInt_canonical hd e
    case h_2 => exact decFp_canonical hd e
    case h_3 => exact decControl_canonical hd e
    case h_4 => exact decRow_canonical hd e
    case h_5 | h_6 => exact decLane_canonical hd e
    case h_7 => exact decBus_canonical hd e
    case h_8 => exact decMatrix_canonical hd e
    case h_9 => exact decPool_canonical hd e
    case h_10 => exact decGlobal_canonical hd e
    case h_11 => exact decFence_canonical hd e
    case h_12 => exact decEngine_canonical hd e
    case h_13 => exact decSifter_canonical hd e
    case h_14 => exact decSystem_canonical hd e
    case h_15 => exact decLaunch_canonical hd e
    case h_16 => cases e

end

section
variable {h : Hdr} {i : Instr} {o : Nat} {m : BitVec 12} {d a b : BitVec 20}

theorem decode_encode_of {f : Fields} (he : encodeFields i = some f) (e : decodeFields f = .ok i) : decode (encode i) = .ok i := by
  rw [decode, encode, he, ofWord_toWord, e]

theorem mk_opc_ne {k : Nat} (hk : o % 2 ^ 10 ≠ k % 2 ^ 10) : ¬ (mk h o m d a b).opc = BitVec.ofNat 10 k := fun e =>
  hk (by rw [← mk_opc h o m d a b, e, BitVec.toNat_ofNat])

theorem decodeFields_int (hw : h.wf = true) (ho : 0 < o ∧ o < 0x40)
    (e : decInt (mk h o m d a b) h = .ok i) :
    decodeFields (mk h o m d a b) = .ok i := by
  have h0 : ¬ (mk h o m d a b).opc = 0#10 := mk_opc_ne (by omega)
  have h1 : ¬ (mk h o m d a b).opc = 848#10 := mk_opc_ne (by omega)
  have hq : o % 1024 / 64 = 0 := by omega
  simp [decodeFields, hw, h0, h1, hq, e]
theorem decodeFields_fp (hw : h.wf = true) (ho : 0x80 ≤ o ∧ o < 0xC0)
    (e : decFp (mk h o m d a b) h = .ok i) :
    decodeFields (mk h o m d a b) = .ok i := by
  have h0 : ¬ (mk h o m d a b).opc = 0#10 := mk_opc_ne (by omega)
  have h1 : ¬ (mk h o m d a b).opc = 848#10 := mk_opc_ne (by omega)
  have hq : o % 1024 / 64 = 2 := by omega
  simp [decodeFields, hw, h0, h1, hq, e]
theorem decodeFields_control (hw : h.wf = true) (ho : 0xC0 ≤ o ∧ o < 0x100)
    (e : decControl (mk h o m d a b) h = .ok i) :
    decodeFields (mk h o m d a b) = .ok i := by
  have h0 : ¬ (mk h o m d a b).opc = 0#10 := mk_opc_ne (by omega)
  have h1 : ¬ (mk h o m d a b).opc = 848#10 := mk_opc_ne (by omega)
  have hq : o % 1024 / 64 = 3 := by omega
  simp [decodeFields, hw, h0, h1, hq, e]
theorem decodeFields_row (hw : h.wf = true) (ho : 0x100 ≤ o ∧ o < 0x140)
    (e : decRow (mk h o m d a b) h = .ok i) :
    decodeFields (mk h o m d a b) = .ok i := by
  have h0 : ¬ (mk h o m d a b).opc = 0#10 := mk_opc_ne (by omega)
  have h1 : ¬ (mk h o m d a b).opc = 848#10 := mk_opc_ne (by omega)
  have hq : o % 1024 / 64 = 4 := by omega
  simp [decodeFields, hw, h0, h1, hq, e]
theorem decodeFields_lane (hw : h.wf = true) (ho : 0x140 ≤ o ∧ o < 0x1C0)
    (e : decLane (mk h o m d a b) h = .ok i) :
    decodeFields (mk h o m d a b) = .ok i := by
  have h0 : ¬ (mk h o m d a b).opc = 0#10 := mk_opc_ne (by omega)
  have h1 : ¬ (mk h o m d a b).opc = 848#10 := mk_opc_ne (by omega)
  obtain hq | hq : o % 1024 / 64 = 5 ∨ o % 1024 / 64 = 6 := by omega
  all_goals simp [decodeFields, hw, h0, h1, hq, e]
theorem decodeFields_bus (hw : h.wf = true) (ho : 0x200 ≤ o ∧ o < 0x210)
    (e : decBus (mk h o m d a b) h = .ok i) :
    decodeFields (mk h o m d a b) = .ok i := by
  have h0 : ¬ (mk h o m d a b).opc = 0#10 := mk_opc_ne (by omega)
  have h1 : ¬ (mk h o m d a b).opc = 848#10 := mk_opc_ne (by omega)
  have hq : o % 1024 / 64 = 8 := by omega
  have hr : o % 1024 / 16 = 32 := by omega
  simp [decodeFields, hw, h0, h1, hq, hr, e]
theorem decodeFields_matrix (hw : h.wf = true) (ho : 0x220 ≤ o ∧ o < 0x230)
    (e : decMatrix (mk h o m d a b) h = .ok i) :
    decodeFields (mk h o m d a b) = .ok i := by
  have h0 : ¬ (mk h o m d a b).opc = 0#10 := mk_opc_ne (by omega)
  have h1 : ¬ (mk h o m d a b).opc = 848#10 := mk_opc_ne (by omega)
  have hq : o % 1024 / 64 = 8 := by omega
  have hr : o % 1024 / 16 = 34 := by omega
  simp [decodeFields, hw, h0, h1, hq, hr, e]
theorem decodeFields_pool (hw : h.wf = true) (ho : 0x260 ≤ o ∧ o < 0x280)
    (e : decPool (mk h o m d a b) h = .ok i) :
    decodeFields (mk h o m d a b) = .ok i := by
  have h0 : ¬ (mk h o m d a b).opc = 0#10 := mk_opc_ne (by omega)
  have h1 : ¬ (mk h o m d a b).opc = 848#10 := mk_opc_ne (by omega)
  have hq : o % 1024 / 64 = 9 := by omega
  simp [decodeFields, hw, h0, h1, hq, e]
theorem decodeFields_global (hw : h.wf = true) (ho : 0x280 ≤ o ∧ o < 0x2C0)
    (e : decGlobal (mk h o m d a b) h = .ok i) :
    decodeFields (mk h o m d a b) = .ok i := by
  have h0 : ¬ (mk h o m d a b).opc = 0#10 := mk_opc_ne (by omega)
  have h1 : ¬ (mk h o m d a b).opc = 848#10 := mk_opc_ne (by omega)
  have hq : o % 1024 / 64 = 10 := by omega
  simp [decodeFields, hw, h0, h1, hq, e]
theorem decodeFields_fence (hw : h.wf = true) (ho : 0x2C0 ≤ o ∧ o < 0x2D0)
    (e : decFence (mk h o m d a b) h = .ok i) :
    decodeFields (mk h o m d a b) = .ok i := by
  have h0 : ¬ (mk h o m d a b).opc = 0#10 := mk_opc_ne (by omega)
  have h1 : ¬ (mk h o m d a b).opc = 848#10 := mk_opc_ne (by omega)
  have hq : o % 1024 / 64 = 11 := by omega
  have hr : o % 1024 / 16 = 44 := by omega
  simp [decodeFields, hw, h0, h1, hq, hr, e]
theorem decodeFields_engine (hw : h.wf = true) (ho : 0x2D0 ≤ o ∧ o < 0x2E0)
    (e : decEngine (mk h o m d a b) h = .ok i) :
    decodeFields (mk h o m d a b) = .ok i := by
  have h0 : ¬ (mk h o m d a b).opc = 0#10 := mk_opc_ne (by omega)
  have h1 : ¬ (mk h o m d a b).opc = 848#10 := mk_opc_ne (by omega)
  have hq : o % 1024 / 64 = 11 := by omega
  have hr : o % 1024 / 16 = 45 := by omega
  simp [decodeFields, hw, h0, h1, hq, hr, e]
theorem decodeFields_sifter (hw : h.wf = true) (ho : 0x2F0 ≤ o ∧ o < 0x300)
    (e : decSifter (mk h o m d a b) h = .ok i) :
    decodeFields (mk h o m d a b) = .ok i := by
  have h0 : ¬ (mk h o m d a b).opc = 0#10 := mk_opc_ne (by omega)
  have h1 : ¬ (mk h o m d a b).opc = 848#10 := mk_opc_ne (by omega)
  have hq : o % 1024 / 64 = 11 := by omega
  have hr : o % 1024 / 16 = 47 := by omega
  simp [decodeFields, hw, h0, h1, hq, hr, e]
theorem decodeFields_system (hw : h.wf = true) (ho : 0x300 ≤ o ∧ o < 0x340)
    (e : decSystem (mk h o m d a b) h = .ok i) :
    decodeFields (mk h o m d a b) = .ok i := by
  have h0 : ¬ (mk h o m d a b).opc = 0#10 := mk_opc_ne (by omega)
  have h1 : ¬ (mk h o m d a b).opc = 848#10 := mk_opc_ne (by omega)
  have hq : o % 1024 / 64 = 12 := by omega
  simp [decodeFields, hw, h0, h1, hq, e]
theorem decodeFields_launch (hw : h.wf = true) (ho : 0x340 ≤ o ∧ o < 0x350)
    (e : decLaunch (mk h o m d a b) h = .ok i) :
    decodeFields (mk h o m d a b) = .ok i := by
  have h0 : ¬ (mk h o m d a b).opc = 0#10 := mk_opc_ne (by omega)
  have h1 : ¬ (mk h o m d a b).opc = 848#10 := mk_opc_ne (by omega)
  have hq : o % 1024 / 64 = 13 := by omega
  simp [decodeFields, hw, h0, h1, hq, e]
end
end Sys2Proof
end

