-- ==== Sys2Proof/Proofs/RoundTrip.lean ====
section
/-! PROOF. Decoding and encoding are inverse to each other (R14, R19, R20, R24, R37, R40). -/

namespace Sys2Proof

/-- The encoding of a word, read back as the fields that it has (R14). -/
theorem encode_eq_of_decode {w : IWord} {i : Instr} (e : decode w = .ok i) : encode i = w := by
  rw [encode, (decodeFields_canonical e).fields]
  exact toWord_ofWord w

end Sys2Proof

open Sys2Proof in
/-- Settles O18: a word of each family that decodes has the fields of the instruction it decodes to, so its encoding is that word. -/
theorem decodedWordsAreCanonical : Obligations.DecodedWordsAreCanonical := by
  intro w i e
  obtain ⟨hw, hwf, -⟩ := decodeFields_canonical e
  exact ⟨hw, hwf, encode_eq_of_decode e⟩

open Sys2Proof in
/-- Settles O17, by the form of each word: its fields are those that the form reads. -/
theorem encodedInstructionsDecodeBack : Obligations.EncodedInstructionsDecodeBack := by
  intro i hw hf
  cases i
  case add | sub | mul | div | divn | rem | remn | shl | shr | sar | rol | min | max | minn | maxn =>
    exact decode_encode_of rfl (decodeFields_int hf (by decide) (twoW_eq_ok.mpr ⟨_, _, _, _, mk_has, rfl⟩))
  case mulh | mulhn | and | or | xor | andn | fshl | fshr =>
    exact decode_encode_of rfl (decodeFields_int hf (by decide) (two0_eq_ok.mpr ⟨_, _, _, mk_has, rfl⟩))
  case bfx | bfxn | bfi =>
    simp [Instr.wellFormed] at hf
    exact decode_encode_of rfl (decodeFields_int hf.1 (by decide) (bitField_eq_ok.mpr ⟨_, _, _, _, mk_has, hf.2, rfl⟩))
  case clz | ctz | popc | brev | bswap | abs =>
    exact decode_encode_of rfl (decodeFields_int hf (by decide) (oneW_eq_ok.mpr ⟨_, _, _, mk_has, rfl⟩))
  case sel =>
    exact decode_encode_of rfl (decodeFields_int hf (by decide) ((sel_eq_ok rfl).mpr ⟨_, _, _, _, _, mk_has, rfl⟩))
  case mov =>
    exact decode_encode_of (encodeFields_mov _ _) (decodeFields_int hf (by decide) ((mov_eq_ok rfl).mpr ⟨_, mk_has, rfl⟩))
  case sext | zext =>
    exact decode_encode_of rfl (decodeFields_int hf (by decide) (extend_eq_ok.mpr ⟨_, _, _, mk_has, rfl⟩))
  case cmp =>
    exact decode_encode_of rfl (decodeFields_int hf (by decide) ((cmp_eq_ok rfl).mpr ⟨_, _, _, _, _, mk_has, rfl⟩))
  case lea =>
    exact decode_encode_of rfl (decodeFields_int hf (by decide) ((lea_eq_ok rfl).mpr ⟨_, _, _, _, mk_has, rfl⟩))
  case pand =>
    exact decode_encode_of rfl (decodeFields_int hf (by decide) ((pand_eq_ok rfl).mpr ⟨_, _, _, _, mk_has, rfl⟩))
  case fadd | fsub | fmul | fdiv =>
    simp [Instr.wellFormed, and_assoc] at hf
    exact decode_encode_of rfl (decodeFields_fp hf.1 (by decide) (fp2_eq_ok.mpr ⟨_, _, _, _, _, mk_has, hf.2, rfl⟩))
  case fsqrt | frnd =>
    simp [Instr.wellFormed] at hf
    exact decode_encode_of rfl (decodeFields_fp hf.1 (by decide) (fp1_eq_ok.mpr ⟨_, _, _, _, mk_has, hf.2, rfl⟩))
  case fma =>
    simp [Instr.wellFormed, and_assoc] at hf
    exact decode_encode_of rfl (decodeFields_fp hf.1 (by decide)
      ((fma_eq_ok rfl).mpr ⟨_, _, _, _, _, _, _, mk_has, hf.2, rfl⟩))
  case fmin | fmax =>
    simp [Instr.wellFormed, and_assoc] at hf
    exact decode_encode_of rfl (decodeFields_fp hf.1 (by decide) (fpMin_eq_ok.mpr ⟨_, _, _, _, mk_has, hf.2, rfl⟩))
  case fabs | fneg | fclass =>
    simp [Instr.wellFormed] at hf
    exact decode_encode_of rfl (decodeFields_fp hf.1 (by decide) (fpSign_eq_ok.mpr ⟨_, _, _, mk_has, hf.2, rfl⟩))
  case fcmp =>
    simp [Instr.wellFormed, and_assoc] at hf
    exact decode_encode_of rfl (decodeFields_fp hf.1 (by decide) ((fcmp_eq_ok rfl).mpr ⟨_, _, _, _, _, mk_has, hf.2, rfl⟩))
  case fcvt =>
    simp only [Instr.wellFormed, Bool.and_eq_true, Bool.not_eq_true', and_assoc] at hf
    exact decode_encode_of rfl (decodeFields_fp hf.1 (by decide) ((fcvt_eq_ok rfl).mpr ⟨_, _, _, _, _, mk_has, hf.2, rfl⟩))
  case nop =>
    exact decode_encode_of rfl (decodeFields_control hf (by decide) (bare_eq_ok.mpr ⟨mk_has, rfl⟩))
  case br =>
    simp [Instr.wellFormed, Hdr.wfTerm, and_assoc] at hf
    exact decode_encode_of rfl (decodeFields_control hf.1 (by decide) ((br_eq_ok rfl).mpr ⟨_, mk_has, hf.2, rfl⟩))
  case brx =>
    simp [Instr.wellFormed, Hdr.wfTerm, and_assoc] at hf
    exact decode_encode_of rfl (decodeFields_control hf.1 (by decide) ((brx_eq_ok rfl).mpr ⟨_, _, mk_has, hf.2, rfl⟩))
  case call =>
    simp [Instr.wellFormed, Hdr.wfTerm, and_assoc] at hf
    exact decode_encode_of rfl (decodeFields_control hf.1 (by decide) ((call_eq_ok rfl).mpr ⟨_, _, mk_has, hf.2, rfl⟩))
  case callx =>
    simp [Instr.wellFormed, Hdr.wfTerm, and_assoc] at hf
    exact decode_encode_of rfl (decodeFields_control hf.1 (by decide) ((callx_eq_ok rfl).mpr ⟨_, _, _, mk_has, hf.2, rfl⟩))
  case ret =>
    simp [Instr.wellFormed, Hdr.wfTerm] at hf
    exact decode_encode_of rfl (decodeFields_control hf.1 (by decide) ((ret_eq_ok rfl).mpr ⟨_, mk_has, hf.2, rfl⟩))
  case subbr =>
    simp [Instr.wellFormed, Hdr.wfTerm, and_assoc] at hf
    exact decode_encode_of rfl (decodeFields_control hf.1 (by decide) ((subbr_eq_ok rfl).mpr ⟨_, _, _, mk_has, hf.2, rfl⟩))
  case brd =>
    simp [Instr.wellFormed, Hdr.wfTerm] at hf
    exact decode_encode_of rfl (decodeFields_control hf.1 (by decide) ((brd_eq_ok rfl).mpr ⟨_, _, mk_has, hf.2, rfl⟩))
  case join =>
    simp only [Instr.wellFormed, Hdr.wfPlain, Bool.and_eq_true, Bool.not_eq_true', beq_iff_eq, and_assoc] at hf
    exact decode_encode_of rfl (decodeFields_control (by simp [Hdr.wf, hf]) (by decide)
      ((join_eq_ok rfl).mpr ⟨mk_has, hf, rfl⟩))
  case capt =>
    exact decode_encode_of rfl (decodeFields_control hf (by decide) ((capt_eq_ok rfl).mpr ⟨_, _, mk_has, rfl⟩))
  case replay =>
    simp only [Instr.wellFormed, Hdr.wfPlain, Bool.and_eq_true, Bool.not_eq_true', beq_iff_eq, and_assoc] at hf
    exact decode_encode_of rfl (decodeFields_control (by simp [Hdr.wf, hf]) (by decide)
      ((replay_eq_ok rfl).mpr ⟨_, _, _, mk_has, hf, rfl⟩))
  case exit =>
    simp [Instr.wellFormed, Hdr.wfTerm] at hf
    exact decode_encode_of rfl (decodeFields_control hf.1 (by decide) ((exit_eq_ok rfl).mpr ⟨mk_has, hf.2, rfl⟩))
  case yield =>
    simp [Instr.wellFormed, Hdr.wfTerm] at hf
    exact decode_encode_of rfl (decodeFields_control hf.1 (by decide) ((yield_eq_ok rfl).mpr ⟨mk_has, hf.2, rfl⟩))
  case gmask =>
    exact decode_encode_of (encodeFields_gmask _ _ _) (decodeFields_control hf (by decide)
      ((gmask_eq_ok rfl).mpr ⟨_, _, mk_has, rfl⟩))
  case hartid =>
    exact decode_encode_of rfl (decodeFields_control hf (by decide) ((hartid_eq_ok rfl).mpr ⟨_, _, mk_has, rfl⟩))
  case act | wb | wbp =>
    exact decode_encode_of rfl (decodeFields_row hf (by decide) (rowR_eq_ok.mpr ⟨_, _, mk_has, rfl⟩))
  case actw | pre | ref =>
    exact decode_encode_of rfl (decodeFields_row hf (by decide) (rowG_eq_ok.mpr ⟨_, mk_has, rfl⟩))
  case prea =>
    exact decode_encode_of rfl (decodeFields_row hf (by decide) (bare_eq_ok.mpr ⟨mk_has, rfl⟩))
  case refq =>
    exact decode_encode_of (encodeFields_refq _ _ _) (decodeFields_row hf (by decide)
      ((refq_eq_ok rfl).mpr ⟨_, _, mk_has, rfl⟩))
  case rowq =>
    exact decode_encode_of (encodeFields_rowq _ _ _) (decodeFields_row hf (by decide)
      ((rowq_eq_ok rfl).mpr ⟨_, _, mk_has, rfl⟩))
  case setvl =>
    exact decode_encode_of rfl (decodeFields_lane hf (by decide) ((setvl_eq_ok rfl).mpr ⟨_, _, mk_has, rfl⟩))
  case setvt =>
    exact decode_encode_of rfl (decodeFields_lane hf (by decide) ((setvt_eq_ok rfl).mpr ⟨_, _, mk_has, rfl⟩))
  case vadd | vsub | vmul | vmulh | vmad | vmin | vmax | vand | vor | vxor | vshl | vshr | vsar | vsadd | vssub | vavg
      | vfadd | vfsub | vfmul | vfdiv | vfmin | vfmax =>
    simp [Instr.wellFormed] at hf
    exact decode_encode_of rfl (decodeFields_lane hf.1 (by decide) (lane2_eq_ok.mpr ⟨_, _, _, _, mk_has, hf.2, rfl⟩))
  case vabs | vneg | vnot | vclz | vpopc | vfsqrt | vfrcp | vfabs | vfneg =>
    simp [Instr.wellFormed] at hf
    exact decode_encode_of rfl (decodeFields_lane hf.1 (by decide) (lane1_eq_ok.mpr ⟨_, _, _, mk_has, hf.2, rfl⟩))
  case vfma =>
    simp [Instr.wellFormed] at hf
    exact decode_encode_of rfl (decodeFields_lane hf.1 (by decide)
      ((vfma_eq_ok rfl).mpr ⟨_, _, _, _, _, _, mk_has, hf.2, rfl⟩))
  case vcmp =>
    simp [Instr.wellFormed] at hf
    exact decode_encode_of rfl (decodeFields_lane hf.1 (by decide) ((vcmp_eq_ok rfl).mpr ⟨_, _, _, _, _, mk_has, hf.2, rfl⟩))
  case vfcmp =>
    simp [Instr.wellFormed] at hf
    exact decode_encode_of rfl (decodeFields_lane hf.1 (by decide)
      ((vfcmp_eq_ok rfl).mpr ⟨_, _, _, _, _, mk_has, hf.2, rfl⟩))
  case mand | mor | mxor =>
    exact decode_encode_of rfl (decodeFields_lane hf (by decide) (mask2_eq_ok.mpr ⟨_, _, _, mk_has, rfl⟩))
  case mnot =>
    exact decode_encode_of rfl (decodeFields_lane hf (by decide) ((mnot_eq_ok rfl).mpr ⟨_, _, mk_has, rfl⟩))
  case mpopc | mfirst =>
    simp [Instr.wellFormed] at hf
    exact decode_encode_of rfl (decodeFields_lane hf.1 (by decide) (maskCount_eq_ok.mpr ⟨_, _, _, mk_has, hf.2, rfl⟩))
  case vsel =>
    simp [Instr.wellFormed] at hf
    exact decode_encode_of rfl (decodeFields_lane hf.1 (by decide) ((vsel_eq_ok rfl).mpr ⟨_, _, _, _, mk_has, hf.2, rfl⟩))
  case vcvt =>
    simp [Instr.wellFormed] at hf
    exact decode_encode_of rfl (decodeFields_lane hf.1 (by decide) ((vcvt_eq_ok rfl).mpr ⟨_, _, _, _, _, mk_has, hf.2, rfl⟩))
  case vmxq | vlqq =>
    simp [Instr.wellFormed] at hf
    exact decode_encode_of rfl (decodeFields_lane hf.1 (by decide)
      (scaledConv_eq_ok.mpr ⟨_, _, _, _, _, _, mk_has, fun _ => hf.2, rfl⟩))
  case vmxd | vlqd =>
    exact decode_encode_of rfl (decodeFields_lane hf (by decide)
      (scaledConv_eq_ok.mpr ⟨_, _, _, _, _, _, mk_has, nofun, rfl⟩))
  case vmov =>
    simp [Instr.wellFormed] at hf
    exact decode_encode_of rfl (decodeFields_lane hf.1 (by decide) ((vmov_eq_ok rfl).mpr ⟨_, _, _, mk_has, hf.2, rfl⟩))
  case vsplat =>
    simp [Instr.wellFormed] at hf
    exact decode_encode_of rfl (decodeFields_lane hf.1 (by decide) ((vsplat_eq_ok rfl).mpr ⟨_, _, _, mk_has, hf.2, rfl⟩))
  case vext =>
    exact decode_encode_of rfl (decodeFields_lane hf (by decide) ((vext_eq_ok rfl).mpr ⟨_, _, _, mk_has, rfl⟩))
  case vins =>
    exact decode_encode_of rfl (decodeFields_lane hf (by decide) ((vins_eq_ok rfl).mpr ⟨_, _, _, mk_has, rfl⟩))
  case vperm =>
    simp [Instr.wellFormed] at hf
    exact decode_encode_of rfl (decodeFields_lane hf.1 (by decide) ((vperm_eq_ok rfl).mpr ⟨_, _, _, _, mk_has, hf.2, rfl⟩))
  case vslide =>
    simp [Instr.wellFormed] at hf
    exact decode_encode_of rfl (decodeFields_lane hf.1 (by decide) ((vslide_eq_ok rfl).mpr ⟨_, _, _, _, mk_has, hf.2, rfl⟩))
  case vcomp | vexp =>
    simp [Instr.wellFormed] at hf
    exact decode_encode_of rfl (decodeFields_lane hf.1 (by decide) (compress_eq_ok.mpr ⟨_, _, _, mk_has, hf.2, rfl⟩))
  case vgath =>
    simp [Instr.wellFormed] at hf
    exact decode_encode_of rfl (decodeFields_lane hf.1 (by decide) ((vgath_eq_ok rfl).mpr ⟨_, _, _, _, mk_has, hf.2, rfl⟩))
  case viota =>
    simp [Instr.wellFormed, and_assoc] at hf
    exact decode_encode_of rfl (decodeFields_lane hf.1 (by decide) ((viota_eq_ok rfl).mpr ⟨_, _, _, _, mk_has, hf.2, rfl⟩))
  case vreds | vredmin | vredmax =>
    simp [Instr.wellFormed] at hf
    exact decode_encode_of rfl (decodeFields_lane hf.1 (by decide) (reduce_eq_ok.mpr ⟨_, _, _, _, mk_has, hf.2, rfl⟩))
  case vfreds =>
    simp [Instr.wellFormed] at hf
    exact decode_encode_of rfl (decodeFields_lane hf.1 (by decide)
      ((vfreds_eq_ok rfl).mpr ⟨_, _, _, _, _, mk_has, hf.2, rfl⟩))
  case vscan =>
    simp [Instr.wellFormed] at hf
    exact decode_encode_of rfl (decodeFields_lane hf.1 (by decide)
      ((vscan_eq_ok rfl).mpr ⟨_, _, _, _, _, mk_has, hf.2, rfl⟩))
  case vsortk =>
    simp [Instr.wellFormed, and_assoc] at hf
    exact decode_encode_of rfl (decodeFields_lane hf.1 (by decide)
      ((vsortk_eq_ok rfl).mpr ⟨_, _, _, _, _, mk_has, hf.2, rfl⟩))
  case vuniq =>
    simp [Instr.wellFormed] at hf
    exact decode_encode_of rfl (decodeFields_lane hf.1 (by decide) ((vuniq_eq_ok rfl).mpr ⟨_, _, _, _, mk_has, hf.2, rfl⟩))
  case rshuf | rbcast | rxch | rrot =>
    exact decode_encode_of rfl (decodeFields_bus hf (by decide) (bus_eq_ok.mpr ⟨_, _, _, mk_has, rfl⟩))
  case rseg =>
    exact decode_encode_of rfl (decodeFields_bus hf (by decide) ((rseg_eq_ok rfl).mpr ⟨_, _, mk_has, rfl⟩))
  case tload =>
    exact decode_encode_of rfl (decodeFields_matrix hf (by decide) ((tload_eq_ok rfl).mpr ⟨_, _, _, _, mk_has, rfl⟩))
  case tmma =>
    exact decode_encode_of rfl (decodeFields_matrix hf (by decide)
      ((tmma_eq_ok rfl).mpr ⟨_, _, _, _, _, _, _, _, mk_has, rfl⟩))
  case accz =>
    exact decode_encode_of rfl (decodeFields_matrix hf (by decide) ((accz_eq_ok rfl).mpr ⟨_, _, mk_has, rfl⟩))
  case accrd =>
    exact decode_encode_of rfl (decodeFields_matrix hf (by decide) ((accrd_eq_ok rfl).mpr ⟨_, _, _, _, mk_has, rfl⟩))
  case accwr =>
    exact decode_encode_of rfl (decodeFields_matrix hf (by decide) ((accwr_eq_ok rfl).mpr ⟨_, _, _, _, mk_has, rfl⟩))
  case accclm =>
    exact decode_encode_of rfl (decodeFields_matrix hf (by decide) ((accclm_eq_ok rfl).mpr ⟨_, _, _, mk_has, rfl⟩))
  case accrel =>
    exact decode_encode_of rfl (decodeFields_matrix hf (by decide) ((accrel_eq_ok rfl).mpr ⟨_, mk_has, rfl⟩))
  case accsv =>
    exact decode_encode_of rfl (decodeFields_matrix hf (by decide) ((accsv_eq_ok rfl).mpr ⟨_, _, _, mk_has, rfl⟩))
  case accld =>
    exact decode_encode_of rfl (decodeFields_matrix hf (by decide) ((accld_eq_ok rfl).mpr ⟨_, _, _, mk_has, rfl⟩))
  case tstat =>
    exact decode_encode_of (encodeFields_tstat _ _ _) (decodeFields_matrix hf (by decide)
      ((tstat_eq_ok rfl).mpr ⟨_, _, mk_has, rfl⟩))
  case ld =>
    simp [Instr.wellFormed] at hf
    exact decode_encode_of rfl (decodeFields_pool hf.1 (by decide) ((ld_eq_ok rfl).mpr ⟨_, _, _, _, _, mk_has, hf.2, rfl⟩))
  case st =>
    simp [Instr.wellFormed] at hf
    exact decode_encode_of rfl (decodeFields_pool hf.1 (by decide) ((st_eq_ok rfl).mpr ⟨_, _, _, _, _, mk_has, hf.2, rfl⟩))
  case lde =>
    simp [Instr.wellFormed] at hf
    exact decode_encode_of rfl (decodeFields_pool hf.1 (by decide) ((lde_eq_ok rfl).mpr ⟨_, _, _, mk_has, hf.2, rfl⟩))
  case ste =>
    simp [Instr.wellFormed] at hf
    exact decode_encode_of rfl (decodeFields_pool hf.1 (by decide) ((ste_eq_ok rfl).mpr ⟨_, _, _, mk_has, hf.2, rfl⟩))
  case ldf =>
    simp [Instr.wellFormed] at hf
    exact decode_encode_of rfl (decodeFields_pool hf.1 (by decide) ((ldf_eq_ok rfl).mpr ⟨_, _, _, mk_has, hf.2, rfl⟩))
  case stf =>
    simp [Instr.wellFormed] at hf
    exact decode_encode_of rfl (decodeFields_pool hf.1 (by decide) ((stf_eq_ok rfl).mpr ⟨_, _, _, mk_has, hf.2, rfl⟩))
  case tagr =>
    simp [Instr.wellFormed] at hf
    exact decode_encode_of rfl (decodeFields_pool hf.1 (by decide) ((tagr_eq_ok rfl).mpr ⟨_, _, _, _, mk_has, hf.2, rfl⟩))
  case tagw =>
    simp [Instr.wellFormed] at hf
    exact decode_encode_of rfl (decodeFields_pool hf.1 (by decide) ((tagw_eq_ok rfl).mpr ⟨_, _, _, _, mk_has, hf.2, rfl⟩))
  case pref =>
    simp [Instr.wellFormed] at hf
    exact decode_encode_of rfl (decodeFields_pool hf.1 (by decide) ((pref_eq_ok rfl).mpr ⟨_, _, _, mk_has, hf.2, rfl⟩))
  case ldv =>
    simp [Instr.wellFormed, and_assoc] at hf
    exact decode_encode_of rfl (decodeFields_pool hf.1 (by decide) ((ldv_eq_ok rfl).mpr ⟨_, _, _, _, mk_has, hf.2, rfl⟩))
  case stv =>
    simp [Instr.wellFormed, and_assoc] at hf
    exact decode_encode_of rfl (decodeFields_pool hf.1 (by decide) ((stv_eq_ok rfl).mpr ⟨_, _, _, _, mk_has, hf.2, rfl⟩))
  case cinv =>
    exact decode_encode_of (encodeFields_cinv _ _) (decodeFields_pool hf (by decide) ((cinv_eq_ok rfl).mpr ⟨_, mk_has, rfl⟩))
  case cwb =>
    exact decode_encode_of (encodeFields_cwb _ _) (decodeFields_pool hf (by decide) ((cwb_eq_ok rfl).mpr ⟨_, mk_has, rfl⟩))
  case amop =>
    exact decode_encode_of rfl (decodeFields_pool hf (by decide) ((amop_eq_ok rfl).mpr ⟨_, _, _, _, _, mk_has, rfl⟩))
  case amo =>
    simp [Instr.wellFormed] at hf
    exact decode_encode_of rfl (decodeFields_global hf.1 (by decide)
      ((amo_eq_ok rfl).mpr ⟨_, _, _, _, _, mk_has, hf.2, rfl⟩))
  case cas =>
    simp [Instr.wellFormed] at hf
    exact decode_encode_of rfl (decodeFields_global hf.1 (by decide) ((cas_eq_ok rfl).mpr ⟨_, _, _, _, mk_has, hf.2, rfl⟩))
  case red =>
    simp [Instr.wellFormed] at hf
    exact decode_encode_of rfl (decodeFields_global hf.1 (by decide) ((red_eq_ok rfl).mpr ⟨_, _, _, _, mk_has, hf.2, rfl⟩))
  case redv =>
    simp [Instr.wellFormed, and_assoc] at hf
    exact decode_encode_of (encodeFields_redv _ _ _ _ _ _) (decodeFields_global hf.1 (by decide)
      ((redv_eq_ok rfl).mpr ⟨_, _, _, _, _, mk_has, hf.2, rfl⟩))
  case redf =>
    exact decode_encode_of rfl (decodeFields_global hf (by decide) ((redf_eq_ok rfl).mpr ⟨_, mk_has, rfl⟩))
  case pgq =>
    exact decode_encode_of rfl (decodeFields_global hf (by decide) ((pgq_eq_ok rfl).mpr ⟨_, _, _, _, mk_has, rfl⟩))
  case fence =>
    exact decode_encode_of rfl (decodeFields_fence hf (by decide) ((fence_eq_ok rfl).mpr ⟨_, _, _, mk_has, rfl⟩))
  case ifence =>
    exact decode_encode_of rfl (decodeFields_fence hf (by decide) (bare_eq_ok.mpr ⟨mk_has, rfl⟩))
  case enq =>
    simp [Instr.wellFormed] at hf
    exact decode_encode_of rfl (decodeFields_engine hf.1 (by decide) ((enq_eq_ok rfl).mpr ⟨_, _, _, _, mk_has, hf.2, rfl⟩))
  case enq1 =>
    simp [Instr.wellFormed] at hf
    exact decode_encode_of rfl (decodeFields_engine hf.1 (by decide) ((enq1_eq_ok rfl).mpr ⟨_, _, mk_has, hf.2, rfl⟩))
  case estat =>
    exact decode_encode_of (encodeFields_estat _ _ _) (decodeFields_engine hf (by decide)
      ((estat_eq_ok rfl).mpr ⟨_, _, mk_has, rfl⟩))
  case esusp =>
    exact decode_encode_of rfl (decodeFields_engine hf (by decide) ((esusp_eq_ok rfl).mpr ⟨_, _, mk_has, rfl⟩))
  case bari =>
    exact decode_encode_of rfl (decodeFields_engine hf (by decide) ((bari_eq_ok rfl).mpr ⟨_, _, mk_has, rfl⟩))
  case barp | bara | barw =>
    exact decode_encode_of rfl (decodeFields_engine hf (by decide) (objB_eq_ok.mpr ⟨_, _, _, mk_has, rfl⟩))
  case wait =>
    exact decode_encode_of rfl (decodeFields_engine hf (by decide) ((wait_eq_ok rfl).mpr ⟨_, _, _, _, mk_has, rfl⟩))
  case waitv =>
    exact decode_encode_of rfl (decodeFields_engine hf (by decide) ((waitv_eq_ok rfl).mpr ⟨_, _, _, _, mk_has, rfl⟩))
  case sfcfg =>
    exact decode_encode_of rfl (decodeFields_sifter hf (by decide) ((sfcfg_eq_ok rfl).mpr ⟨_, _, _, mk_has, rfl⟩))
  case sfpush =>
    simp [Instr.wellFormed] at hf
    exact decode_encode_of rfl (decodeFields_sifter hf.1 (by decide)
      ((sfpush_eq_ok rfl).mpr ⟨_, _, _, _, mk_has, hf.2, rfl⟩))
  case sfround =>
    exact decode_encode_of rfl (decodeFields_sifter hf (by decide) ((sfround_eq_ok rfl).mpr ⟨_, _, _, mk_has, rfl⟩))
  case sfdrain =>
    exact decode_encode_of rfl (decodeFields_sifter hf (by decide) ((sfdrain_eq_ok rfl).mpr ⟨_, _, _, _, mk_has, rfl⟩))
  case sfstat =>
    exact decode_encode_of rfl (decodeFields_sifter hf (by decide) ((sfstat_eq_ok rfl).mpr ⟨_, _, mk_has, rfl⟩))
  case csrr =>
    exact decode_encode_of rfl (decodeFields_system hf (by decide) ((csrr_eq_ok rfl).mpr ⟨_, _, mk_has, rfl⟩))
  case csrw | csrs | csrc =>
    exact decode_encode_of rfl (decodeFields_system hf (by decide) (csrWrite_eq_ok.mpr ⟨_, _, mk_has, rfl⟩))
  case trap =>
    simp [Instr.wellFormed, Hdr.wfTerm, and_assoc] at hf
    exact decode_encode_of rfl (decodeFields_system hf.1 (by decide) ((trap_eq_ok rfl).mpr ⟨_, _, mk_has, hf.2, rfl⟩))
  case eret =>
    simp only [Instr.wellFormed, Hdr.wfPlain, Bool.and_eq_true, Bool.not_eq_true', beq_iff_eq, and_assoc] at hf
    exact decode_encode_of rfl (decodeFields_system (by simp [Hdr.wf, hf]) (by decide)
      ((eret_eq_ok rfl).mpr ⟨mk_has, hf, rfl⟩))
  case halt =>
    simp [Instr.wellFormed, Hdr.wfTerm] at hf
    exact decode_encode_of rfl (decodeFields_system hf.1 (by decide) ((halt_eq_ok rfl).mpr ⟨_, mk_has, hf.2, rfl⟩))
  case wdog =>
    exact decode_encode_of (encodeFields_wdog _ _ _) (decodeFields_system hf (by decide)
      ((wdog_eq_ok rfl).mpr ⟨_, _, mk_has, rfl⟩))
  case ctxq =>
    exact decode_encode_of rfl (decodeFields_system hf (by decide) ((ctxq_eq_ok rfl).mpr ⟨_, _, mk_has, rfl⟩))
  case bkpt =>
    simp [Instr.wellFormed, Hdr.wfTerm] at hf
    exact decode_encode_of rfl (decodeFields_system hf.1 (by decide) ((bkpt_eq_ok rfl).mpr ⟨_, mk_has, hf.2, rfl⟩))
  case launch =>
    simp [Instr.wellFormed] at hf
    exact decode_encode_of rfl (decodeFields_launch hf.1 (by decide) ((launch_eq_ok rfl).mpr ⟨_, _, _, mk_has, hf.2, rfl⟩))
  case depdec =>
    exact decode_encode_of rfl (decodeFields_launch hf (by decide) (objB_eq_ok.mpr ⟨_, _, _, mk_has, rfl⟩))
  case depq =>
    exact decode_encode_of rfl (decodeFields_launch hf (by decide) ((depq_eq_ok rfl).mpr ⟨_, _, mk_has, rfl⟩))
  case pfx v => exact decode_encode_of rfl (decodeFields_pfx v)
  all_goals exact absurd hw Bool.false_ne_true
end

