-- ==== Sys2Proof/Proofs/SpecWords.lean ====
section
/-! PROOF. The words that the spec writes out (R21, R34, R37, R41, R81), and the registers that R23 fixes. -/

namespace Sys2Proof
theorem decode_error_of_not_ok {w : IWord} (h : (decode w).isOk = false) : ∃ c, decode w = .error c := by
  cases e : decode w with
  | error c => exact ⟨c, rfl⟩
  | ok i => rw [e] at h; cases h
end Sys2Proof

open Sys2Proof in
/-- Settles O57: the decoder evaluated on each word. -/
theorem specWordsDecode : Obligations.SpecWordsDecode := by
  unfold Obligations.SpecWordsDecode
  dsimp only
  iterate 29 refine ⟨by decide, ?_⟩
  simp only [List.forall_mem_cons]
  exact ⟨decode_error_of_not_ok (by decide), decode_error_of_not_ok (by decide), decode_error_of_not_ok (by decide),
    decode_error_of_not_ok (by decide), nofun⟩

open Sys2Proof Sys2Proof.Machine in
/-- Settles O19: the two registers that R23 fixes. -/
theorem fixedRegisters : Obligations.FixedRegisters := by
  intro t v lat
  exact ⟨rfl, rfl, rfl, rfl, rfl, rfl⟩
end

