-- ==== Sys2Proof/Proofs/Nop.lean ====
section
/-! PROOF. NOP (R41), and a word that only touches registers in a calm convoy. -/

namespace Sys2Proof

/-- The fields below HINT are the low 72 bits of a word (R14). -/
theorem low72_eq_zero {f : Fields} : f.toWord.extractLsb' 0 72 = 0 ↔ f.Has 0 0 0 0 := by
  obtain ⟨hm, hd, ha, hb⟩ := And.intro f.mod.isLt (And.intro f.d.isLt (And.intro f.a.isLt f.b.isLt))
  simp only [Fields.has_iff, ← BitVec.toNat_inj, BitVec.extractLsb'_toNat, Nat.shiftRight_eq_div_pow, toWord_toNat,
    BitVec.ofNat_eq_ofNat, BitVec.toNat_ofNat, Nat.zero_mod]
  omega

/-- A word with the opcode of NOP decodes only without modifiers and operands (R41). -/
theorem decode_nop_opc {w : IWord} {i : Instr} (ho : w.extractLsb' 86 10 = 0x0C0) (e : decode w = .ok i) :
    w.extractLsb' 0 72 = 0 := by
  have hopc : (Fields.ofWord w).opc = 0x0C0 := ho
  obtain ⟨h, -, e⟩ : ∃ h, (Fields.ofWord w).hdr = .ok h ∧ decControl (Fields.ofWord w) h = .ok i := by
    simpa [decode, decodeFields, hopc] using e
  have hf : bare (Fields.ofWord w) (.nop h) = .ok i := by simpa [decControl, hopc] using e
  rw [← toWord_ofWord w, low72_eq_zero]
  exact (bare_eq_ok.mp hf).1

end Sys2Proof

namespace Sys2Proof.Machine

@[simp] theorem begin_target (s : State) (g : Gang) : (s.begin g).iss.target = s.iss.target := by unfold State.begin; split <;> rfl
@[simp] theorem begun_target (s : State) : s.begun.iss.target = s.iss.target := begin_target s _

/-- A word that only touches registers, in a calm convoy: its own part leaves a state with no failed check and no wait. -/
theorem runsTo_plain {h : Hdr} {i : Instr} {u : Uses} {body : List Nat → State → State} {s t : State} (hs : s.Calm)
    (he : exec i s = wordOp h u body s) (hu : u.plain = true)
    (hb : body (s.active.filter (s.begun.guard h)) (s.begun.count h u s.active) = t) (hf : t.iss.fails = []) (hh : t.iss.hold = none) :
    RunsTo s h i t :=
  ⟨by rw [he, wordOp_plain h u body s hu hs, hb], hf, hh⟩

end Sys2Proof.Machine

open Sys2Proof Sys2Proof.Machine in
/-- Settles O58: the body of NOP is empty, and its form reads four zero fields. -/
theorem nopWord : Obligations.NopWord := by
  refine ⟨fun s h hs => ?_, fun h hw => ?_, fun w ho hlow => ?_, by decide, by decide⟩
  · exact ⟨_, runsTo_plain (u := {}) (body := fun _ s => s) hs rfl rfl rfl (by simp [hs.fails]) (by simp [hs.hold]), rfl,
      begun_target s⟩
  · refine ⟨_, rfl, low72_eq_zero.mpr mk_has, ?_, encodedInstructionsDecodeBack _ rfl hw⟩
    exact congrArg Fields.opc (ofWord_toWord (mk h 0x0C0 0 0 0 0))
  · cases e : decode w with
    | error c => exact ⟨c, rfl⟩
    | ok i => exact absurd (decode_nop_opc ho e) hlow
end

