-- ==== Sys2Proof/Proofs/Issue.lean ====
section
/-! PROOF. The step that executes the next word of a convoy, and the issue of a gang with nothing due at its boundary (R30, R38,
R65, R373). -/

namespace Sys2Proof.Machine

/-! ### The issue of a gang with nothing due at its boundary (R65, R373) -/

section
variable {s : State} {c b : Nat} {slot : Fin 3} {r : Residence} {g : Gang} {d : Device}

/-- With the convoy before it over, the gang that the agenda names issues. -/
theorem step_issue {l : List Turn} (h : s.iss.rest = []) (ha : s.agenda = .issue c b :: l) :
    step s = issueGang exec { s with agenda := l } c b := by
  unfold step stepWith; rw [h, ha]

theorem issueGang_fetch (hi : (s.dev.core c).issuing = some slot) (hg : s.dev.gang? (resKey c slot) b = some g)
    (hc : b ∈ s.dev.candidates c) (ht : s.dev.dueTrap (resKey c slot) b g = none) (hr : g.replay = none) :
    issueGang exec s c b = issueFetch exec s c slot b g := by
  simp [issueGang, hi, hg, hc, boundary, ht, hr]

/-- Away from a trap entry or the start of a launch the target is not checked again: the convoy that is fetched begins. -/
theorem issueFetch_begins {ws : List (Word × IWord)} (hr : s.dev.res? (resKey c slot) = some r) (he : g.entry = false)
    (hf : s.dev.fetchConvoy c r.ctx g.pc = (d, .ok ws)) (hw : encodingFail g.size ws = none) :
    issueFetch exec s c slot b g = beginConvoy exec { s with dev := d } c slot b g.pc (ws.map Prod.snd) false := by
  simp [issueFetch, hr, he, hf, hw]
theorem issueFetch_illegal {ws : List (Word × IWord)} {f : Fail} (hr : s.dev.res? (resKey c slot) = some r) (he : g.entry = false)
    (hf : s.dev.fetchConvoy c r.ctx g.pc = (d, .ok ws)) (hw : encodingFail g.size ws = some f) :
    issueFetch exec s c slot b g = failIssue { s with dev := d } (resKey c slot) b g f := by
  simp [issueFetch, hr, he, hf, hw]

end

/-- The next word of a convoy, when it decodes, is executed. -/
theorem runHead_decoded {s : State} {w : IWord} {l : List IWord} {i : Instr} (h : s.iss.rest = w :: l) (e : decode w = .ok i) :
    runHead exec s = exec i { s with iss := { s.iss with rest := l } } := by
  unfold runHead; rw [h]; simp only [e]

end Sys2Proof.Machine

open Sys2Proof Sys2Proof.Machine in
/-- Settles O9: the head of a convoy is executed, the first word of a fetched convoy like any other. -/
theorem stepRunsTheDecodedWord : Obligations.StepRunsTheDecodedWord := by
  refine ⟨fun s w l i h e => ?_, fun s c b l slot r g d a w ws i h ha hi hr hg hc ht hp he hf hw e => ?_⟩
  · rw [← runHead_decoded h e]
    unfold step stepWith; rw [h]
  · rw [step_issue h ha, issueGang_fetch (s := { s with agenda := l }) hi hg hc ht hp,
      issueFetch_begins (s := { s with agenda := l }) hr he hf hw]
    exact runHead_decoded rfl e

open Sys2Proof Sys2Proof.Machine in
/-- Settles O11: the issue of the gang stops at the encoding check. -/
theorem illegalWordFails : Obligations.IllegalWordFails := by
  intro s c b l slot r g d ws a h ha hi hr hg hc ht hp he hf hw
  have hfail : encodingFail g.size ws = some { cause := 0x01, tval := a } := by rw [encodingFail, hw]; rfl
  have hcore : resCore (resKey c slot) = c := by have := slot.isLt; unfold resCore resKey; omega
  rw [step_issue h ha, issueGang_fetch (s := { s with agenda := l }) hi hg hc ht hp,
    issueFetch_illegal (s := { s with agenda := l }) hr he hf hfail]
  simp only [failIssue, hcore]
end

