-- ==== Sys2Proof/Proofs/ConvoyEnd.lean ====
section
/-! PROOF. How a convoy ends (R32, R38, R190): the failures and the waits of a convoy that takes no effect. -/

namespace Sys2Proof.Machine

/-! ### How a convoy ends (R32, R38, R190) -/

/-- The state after the last word of a convoy, with its stall counted. -/
def State.stalled (u : State) (h : Hdr) : State :=
  { u with iss := { u.iss with stall := max u.iss.stall h.stall.toNat, pfx := none } }

section
variable {u : State} {h : Hdr} {d : Device} {w : WaitOn} {fails : List (Nat × Fail)}

theorem endWord_last (hc : h.c = false) : u.endWord h = (u.stalled h).endConvoy := by
  unfold State.endWord; rw [hc]; rfl

theorem tooLong_eq_nil (hs : ∀ p ∈ u.iss.sweeps, p.2.cost ≤ 96) : u.tooLong = [] := by
  have : u.iss.sweeps.filter (fun p => Config.sweepLimit < p.2.cost) = [] :=
    List.filter_eq_nil_iff.mpr fun p hp => by have := hs p hp; simpa [Config.sweepLimit] using this
  rw [State.tooLong, this]; rfl
theorem tooLong_ne_nil (hs : ∃ p ∈ u.iss.sweeps, 96 < p.2.cost) : u.tooLong ≠ [] := by
  obtain ⟨p, hp, hc⟩ := hs
  exact List.ne_nil_of_mem (List.mem_map_of_mem (List.mem_filter.mpr ⟨hp, by simpa [Config.sweepLimit] using hc⟩))

/-- The failed checks that a convoy is judged by: those of its sweeps before all others. -/
def State.judged (u : State) : List (Nat × Fail) := if u.tooLong.isEmpty then u.iss.fails else u.tooLong

theorem endConvoy_fails (hf : u.judged = fails) (hn : fails ≠ []) (hw : ∀ w, u.iss.hold = some w → w.interlock = false) :
    u.endConvoy = u.fallOut fails := by
  unfold State.judged at hf
  unfold State.endConvoy
  simp only [hf]
  cases e : u.iss.hold with
  | none => simp [hn]
  | some w => simp [hn, hw w e]

theorem endConvoy_waits (hh : u.iss.hold = some w) (hf : u.judged = [] ∨ w.interlock = true) : u.endConvoy = u.suspend w := by
  unfold State.judged at hf
  unfold State.endConvoy
  rcases hf with hf | hf <;> simp only [hh, hf, List.isEmpty_nil, Bool.true_or, Bool.or_true, if_true]

theorem fallOut_eq (hu : u.iss.undo = some d) (hr : u.iss.replay = false) : u.fallOut fails
    = { dev := ((((u.walked { d with regs := u.dev.regs, fabric := u.dev.fabric }).takeFails u.rk u.iss.base u.iss.start fails).yielded
          u.rk u.iss.base).modCore u.iss.core fun c => { c with last := u.iss.base }).tick
        iss := {}, agenda := u.agenda } := by
  simp [State.fallOut, State.issued, State.rollback, hu, hr]

end

end Sys2Proof.Machine

open Sys2Proof Sys2Proof.Machine in
/-- Settles O14: the three ways in which `endConvoy` takes no effect. -/
theorem convoyFailures : Obligations.ConvoyFailures := by
  refine ⟨fun u h d hc hf hu hw hr hs => ?_, fun u h d hc hu hw hr hs => ?_, fun u h d w hc hh hf hu ho => ?_⟩
  · have judged : (u.stalled h).judged = u.iss.fails := by
      rw [State.judged, tooLong_eq_nil (u := u.stalled h) hs]; rfl
    rw [endWord_last hc, endConvoy_fails judged hf hw, fallOut_eq (u := u.stalled h) hu hr]
    rfl
  · have long := tooLong_ne_nil (u := u.stalled h) hs
    have judged : (u.stalled h).judged = (u.stalled h).tooLong := by rw [State.judged, if_neg (by simpa using long)]
    rw [endWord_last hc, endConvoy_fails judged long hw, fallOut_eq (u := u.stalled h) hu hr]
    rfl
  · have judged : (u.stalled h).judged = [] ∨ w.interlock = true := hf.imp_left fun ⟨hf, hs⟩ => by
      rw [State.judged, tooLong_eq_nil (u := u.stalled h) hs]; exact hf
    have back : (u.stalled h).rollback = d := by show u.iss.undo.getD u.dev = d; rw [hu]; rfl
    rw [endWord_last hc, endConvoy_waits (u := u.stalled h) hh judged]
    unfold State.suspend
    rw [back]
    cases w with
    | ats | pool | lines => exact ho.elim
    | _ => simp only [WaitOn.atPool, Bool.false_eq_true, if_false, Option.or_none]; rfl
end

