-- ==== Sys2Proof/Proofs/ConvoyEffect.lean ====
section
/-! PROOF. A convoy that takes effect (R32, R61, R66, R67, R70): what its last word and the cycle that passes change. -/

namespace Sys2Proof.Machine

/-! ### A table of which each value is changed by its key -/

theorem lookupK_mapKeyed {α : Type} (f : Nat → α → α) (k : Nat) (l : List (Nat × α)) :
    lookupK k (l.map fun p => (p.1, f p.1 p.2)) = (lookupK k l).map (f k) := by
  induction l with
  | nil => rfl
  | cons p l ih =>
    simp only [List.map_cons, lookupK]
    split
    · next e => simp_all
    · exact ih

namespace Device

theorem mapGangs_gang (d : Device) (rk rk' b : Nat) (f : Gang → Gang) :
    (d.mapGangs rk f).gang? rk' b = (d.gang? rk' b).map fun g => if hartKey rk' b / 16 = rk then f g else g := by
  have keyed : (fun p : Nat × Gang => if p.1 / 16 = rk then (p.1, f p.2) else p)
      = fun p => (p.1, if p.1 / 16 = rk then f p.2 else p.2) := by
    funext p; split <;> rfl
  unfold gang? mapGangs
  rw [keyed]
  exact lookupK_mapKeyed (fun k g => if k / 16 = rk then f g else g) _ _

section
variable {d : Device} {rk b : Nat} {g : Gang}

theorem yielded_gang (hg : d.gang? rk b = some g) (rk' base : Nat) :
    ∃ y, (d.yielded rk' base).gang? rk b = some { g with yieldTo := y } := by
  rw [yielded, mapGangs_gang, hg, Option.map_some]
  split
  · exact ⟨_, rfl⟩
  · exact ⟨g.yieldTo, rfl⟩

theorem wdExpire_gang (hg : d.gang? rk b = some g) (p : Nat × Residence) :
    ∃ w, (d.wdExpire p).gang? rk b = some { g with wdTrap := w } := by
  rw [wdExpire, mapGangs_gang, hg, Option.map_some]
  split
  · by_cases he : g.ended = true
    · exact ⟨g.wdTrap, by rw [if_pos he]⟩
    · exact ⟨_, by rw [if_neg he]⟩
  · exact ⟨g.wdTrap, rfl⟩

theorem foldl_wdExpire_gang (hg : d.gang? rk b = some g) (l : List (Nat × Residence)) :
    ∃ w, (l.foldl wdExpire d).gang? rk b = some { g with wdTrap := w } := by
  induction l generalizing d g with
  | nil => exact ⟨g.wdTrap, hg⟩
  | cons p l ih =>
    obtain ⟨w, hw⟩ := wdExpire_gang hg p
    obtain ⟨v, hv⟩ := ih hw
    exact ⟨v, hv⟩

/-- A ck leaves of a gang all but the watchdog trap that it may make pending (R379). -/
theorem tick_gang (hg : d.gang? rk b = some g) : ∃ w, d.tick.gang? rk b = some { g with wdTrap := w } := by
  unfold tick elapse
  refine foldl_wdExpire_gang ?_ _
  exact hg

/-- A ck leaves the scratchpads as they are. -/
theorem tick_scratch (d : Device) (rk : Nat) : (d.tick.res? rk).map Residence.scratch = (d.res? rk).map Residence.scratch := by
  unfold tick elapse
  rw [wdExpire_frame]
  simp only [res?]
  rw [lookupK_mapKeyed (fun k r =>
    let r' := if d.wdCounts (k, r) then r.wdRun 1 else r
    if d.issues (k, r) then { r' with issued := r'.issued + 1, quantum := r'.quantum + 1, lastIssue := d.now + 1 - 1 } else r'),
    Option.map_map]
  congr 1
  funext r
  simp only [Function.comp]
  split <;> split <;> rfl

end

theorem modRes_res_ne (d : Device) {rk rk' : Nat} (f : Residence → Residence) (h : rk' ≠ rk) :
    (d.modRes rk f).res? rk' = d.res? rk' := by
  unfold modRes
  split
  · exact lookupK_insertK_ne _ _ h
  · rfl

theorem modRes_scratch (d : Device) (rk rk' : Nat) (f : Residence → Residence) (hf : ∀ r, (f r).scratch = r.scratch) :
    ((d.modRes rk f).res? rk').map Residence.scratch = (d.res? rk').map Residence.scratch := by
  by_cases h : rk' = rk
  · subst h; rw [modRes_res_same, Option.map_map]; congr 1; funext r; exact hf r
  · rw [modRes_res_ne d f h]

/-- What a hart is after the harts of a list were changed, each once. -/
theorem foldl_modHart_hart {rk k : Nat} (f : Hart → Hart) (hk : k < 16) (l : List Nat) (hl : ∀ h ∈ l, h < 16) (hn : l.Nodup)
    (d : Device) : (l.foldl (fun d h => d.modHart rk h f) d).hart rk k = if k ∈ l then f (d.hart rk k) else d.hart rk k := by
  induction l generalizing d with
  | nil => rfl
  | cons h l ih =>
    obtain ⟨hh, hl⟩ := List.forall_mem_cons.mp hl
    obtain ⟨hnot, hn⟩ := List.nodup_cons.mp hn
    rw [List.foldl_cons, ih hl hn, modHart_hart d hh hk]
    by_cases e : k = h
    · subst e; simp [hnot]
    · simp [e]

end Device

/-! ### A convoy that takes effect (R32, R61, R66, R67) -/

section
variable {u : State} {g : Gang}

theorem endConvoy_commits (hf : u.judged = []) (hh : u.iss.hold = none)
    (ht : u.rollback.throttled u.iss.core u.rk (u.iss.charge + u.iss.later) = false) : u.endConvoy = u.commit u.gang := by
  unfold State.judged at hf
  unfold State.endConvoy
  simp only [hh, hf, ht, List.isEmpty_nil, Bool.not_true, Bool.false_eq_true, if_false]

/-- The harts of the gang with the register writes of the convoy committed. -/
def State.landedHarts (u : State) (g : Gang) : Device :=
  ((List.range g.size).map (u.iss.base + ·)).foldl (fun d h => d.modHart u.rk h fun t =>
    if u.iss.lands then (t.commit g.n).landAll else t.commit g.n) u.dev

/-- The gang as a convoy leaves it that takes effect. -/
def State.wentOn (u : State) (g : Gang) (d : Device) (x : Gang) : Gang :=
  d.prune u.rk u.iss.base { x with
    n := x.n + 1 + u.iss.stall, wait := none, entry := false, earliest := d.now + 1 + u.iss.stall
    cv := x.cv + 1, window := x.window ++ [u.retiring g], pc := u.iss.target.getD (nextWord u.iss.addr) }

/-- The package as a convoy leaves it that takes effect, before its power is charged. -/
def State.went (u : State) (g : Gang) : Device :=
  ((u.landedHarts g).modGang u.rk u.iss.base (u.wentOn g (u.landedHarts g))).modRes u.rk fun r => { r with fresh := false }

theorem commit_eq (hr : u.iss.replay = false) : u.commit g
    = { dev := (u.issued (if u.iss.charge = 0 then u.went g else (u.went g).charge u.iss.core u.iss.charge)).tick
        iss := {}, agenda := u.agenda } := by
  unfold State.commit
  simp only [hr]
  rfl

theorem landedHarts_frame : u.landedHarts g = { u.dev with harts := (u.landedHarts g).harts } := foldl_modHart_frame ..

theorem landedHarts_hart {k : Nat} (hl : u.iss.base ≤ k) (hk : k < u.iss.base + g.size) (hs : u.iss.base + g.size ≤ 16) :
    (u.landedHarts g).hart u.rk k = if u.iss.lands then ((u.hart k).commit g.n).landAll else (u.hart k).commit g.n := by
  rw [State.landedHarts, Device.foldl_modHart_hart _ (by omega), if_pos]
  · rfl
  · exact List.mem_map.mpr ⟨k - u.iss.base, List.mem_range.mpr (by omega), by omega⟩
  · intro h hm
    obtain ⟨i, hi, rfl⟩ := List.mem_map.mp hm
    have := List.mem_range.mp hi
    omega
  · exact (List.nodup_range).map fun a b e => by simpa using e

/-- The package after a convoy is charged for and its gang's turn is over, but for the core, which `issued` alone changes. -/
def State.charged (u : State) (g : Gang) : Device :=
  u.issued (if u.iss.charge = 0 then u.went g else (u.went g).charge u.iss.core u.iss.charge)

/-- Where a convoy takes effect, the charge and the turn change only cores and gangs. -/
theorem charged_frame : u.charged g = { u.went g with cores := (u.charged g).cores, gangs := (u.charged g).gangs } := by
  unfold State.charged State.issued
  split <;> split <;> rfl

theorem went_frame : u.went g
    = { u.dev with ress := (u.went g).ress, gangs := (u.went g).gangs, harts := (u.landedHarts g).harts } := by
  unfold State.went Device.modRes Device.modGang
  rw [landedHarts_frame]
  split <;> split <;> rfl

theorem charged_gang (hg : u.dev.gang? u.rk u.iss.base = some g) :
    ∃ y, (u.charged g).gang? u.rk u.iss.base = some { u.wentOn g (u.landedHarts g) g with yieldTo := y } := by
  have went : (u.went g).gang? u.rk u.iss.base = some (u.wentOn g (u.landedHarts g) g) := by
    have landed : (u.landedHarts g).gang? u.rk u.iss.base = some g := by rw [landedHarts_frame]; exact hg
    rw [State.went, Device.modRes_gang, Device.modGang_gang_same, landed]; rfl
  have paid : (if u.iss.charge = 0 then u.went g else (u.went g).charge u.iss.core u.iss.charge).gang? u.rk u.iss.base
      = some (u.wentOn g (u.landedHarts g) g) := by split <;> exact went
  obtain ⟨y, hy⟩ := Device.yielded_gang paid u.rk u.iss.base
  refine ⟨y, ?_⟩
  rw [← hy, State.charged, State.issued]
  split <;> rfl

end

end Sys2Proof.Machine

open Sys2Proof Sys2Proof.Machine in
/-- Settles O12: the last word of a convoy that passed its checks ends in `commit`, whose updates are followed one by one. -/
theorem convoyTakesEffect : Obligations.ConvoyTakesEffect := by
  intro u h g hc hf hh hr hs hg hb ht t
  have judged : (u.stalled h).judged = [] := by
    rw [State.judged, tooLong_eq_nil (u := u.stalled h) hs]; exact hf
  have gang : (u.stalled h).gang = g := by
    show (u.dev.gang? u.rk u.iss.base).getD _ = g
    rw [hg]; rfl
  have ends : t = { dev := ((u.stalled h).charged g).tick, iss := {}, agenda := u.agenda } := by
    show u.endWord h = _
    rw [endWord_last hc, endConvoy_commits judged hh ht, gang, commit_eq (u := u.stalled h) hr]; rfl
  rw [ends]
  have frame := charged_frame (u := u.stalled h) (g := g)
  rw [went_frame] at frame
  obtain ⟨y, hy⟩ := charged_gang (u := u.stalled h) hg
  obtain ⟨w, hw⟩ := Device.tick_gang hy
  refine ⟨⟨_, hw, rfl, rfl, rfl, rfl, rfl, rfl⟩, fun k hl hk => ?_, rfl, rfl, ?_, ?_, ?_, ?_, ?_, fun rk => ?_⟩
  · have landed := landedHarts_hart (u := u.stalled h) hl hk hb
    rw [← show (u.stalled h).hart k = u.hart k from rfl]
    refine Eq.trans ?_ landed
    unfold Device.hart
    rw [Device.tick_harts, frame]; rfl
  · rw [Device.tick_mem, frame]; rfl
  · rw [Device.tick_memBad, frame]; rfl
  · rw [Device.tick_vault, frame]; rfl
  · rw [Device.tick_host, frame]; rfl
  · rw [Device.tick_banks, frame]; rfl
  · rw [Device.tick_scratch]
    have res : ((u.stalled h).charged g).res? rk = ((u.stalled h).went g).res? rk := by
      rw [charged_frame]; rfl
    rw [res, State.went, Device.modRes_scratch, Device.modGang_res, landedHarts_frame]
    · rfl
    · intro r; rfl
end

