-- ==== Sys2Proof/Proofs/Threads.lean ====
section
/-! PROOF. What the fetch of code, the caches and the walks of tables leave alone: residences, gangs and harts. -/

namespace Sys2Proof.Machine

/-- The tables that say which code runs: residences, gangs and harts. -/
def Device.threads (d : Device) : List (Nat × Residence) × List (Nat × Gang) × List (Nat × Hart) := (d.ress, d.gangs, d.harts)

namespace Device

/-! ### What reads the tables of the threads -/

theorem threads_res {d e : Device} (h : e.threads = d.threads) (rk : Nat) : e.res? rk = d.res? rk :=
  congrArg (lookupK rk) (congrArg Prod.fst h)
theorem threads_gang {d e : Device} (h : e.threads = d.threads) (rk b : Nat) : e.gang? rk b = d.gang? rk b :=
  congrArg (lookupK (hartKey rk b)) (congrArg (fun t => t.2.1) h)
theorem threads_hart {d e : Device} (h : e.threads = d.threads) (rk k : Nat) : e.hart rk k = d.hart rk k := by
  rw [hart, hart, show e.harts = d.harts from congrArg (fun t => t.2.2) h]

theorem foldl_threads {α : Type} {f : Device → α → Device} (hf : ∀ d a, (f d a).threads = d.threads) (l : List α) (d : Device) :
    (l.foldl f d).threads = d.threads := by
  induction l generalizing d with
  | nil => rfl
  | cons a l ih => rw [List.foldl_cons, ih, hf]

/-! ### Operations on the array, the caches and the translation cache leave the threads alone -/

variable (d : Device)

@[simp] theorem modCore_threads (c : Nat) (f : Core → Core) : (d.modCore c f).threads = d.threads := rfl
@[simp] theorem modBank_threads (c b : Nat) (f : Bank → Bank) : (d.modBank c b f).threads = d.threads := rfl
@[simp] theorem modGroup_threads (c b : Nat) (g : Lat) (f : Group → Group) : (d.modGroup c b g f).threads = d.threads := rfl
@[simp] theorem charge_threads (c n : Nat) : (d.charge c n).threads = d.threads := rfl
@[simp] theorem modSvc_threads (c b : Nat) (g : Lat) (f : SvcCount → SvcCount) : (d.modSvc c b g f).threads = d.threads := rfl
@[simp] theorem sensed_threads (c b : Nat) (g : Lat) (key : Nat) : (d.sensed c b g key).threads = d.threads := rfl
@[simp] theorem setLost_threads : d.setLost.threads = d.threads := rfl
@[simp] theorem dropCopy_threads (core line : Nat) : (d.dropCopy core line).threads = d.threads := rfl
@[simp] theorem dropLine_threads (line : Nat) : (d.dropLine line).threads = d.threads := rfl
@[simp] theorem refresh_threads (c b : Nat) (g : Lat) (t : Nat) : (d.refresh c b g t).threads = d.threads := rfl
@[simp] theorem drive_threads (c b : Nat) (g : Lat) (row t : Nat) : (d.drive c b g row t).threads = d.threads := rfl
@[simp] theorem dieStart_threads (c b t : Nat) : (d.dieStart c b t).threads = d.threads := rfl

@[simp] theorem copyLost_threads (c b : Nat) (g : Lat) : (d.copyLost c b g).threads = d.threads := by
  unfold copyLost; grind [modCore_threads]
@[simp] theorem arrWrite_threads (key n v : Nat) (bad : Bool) : (d.arrWrite key n v bad).threads = d.threads := by
  unfold arrWrite; grind [threads]
@[simp] theorem rowWrite_threads (key : Nat) (v : BitVec 65536) (bad : BitVec 128) :
    (d.rowWrite key v bad).threads = d.threads := by
  unfold rowWrite; grind [threads]
@[simp] theorem performPend_threads (c b : Nat) (g : Lat) : (d.performPend c b g).threads = d.threads := by
  unfold performPend; split <;> rfl
@[simp] theorem closeSense_threads (c b : Nat) (g : Lat) (t : Nat) : (d.closeSense c b g t).threads = d.threads := by
  unfold closeSense; grind [performPend_threads, modGroup_threads]
@[simp] theorem sensedRow_threads (c b : Nat) (g : Lat) (key : Nat) : (d.sensedRow c b g key).threads = d.threads := by
  unfold sensedRow; grind [modSvc_threads, sensed_threads]
@[simp] theorem activate_threads (c b : Nat) (g : Lat) (row t : Nat) (tag : BitVec 4) (src : BitVec 9) :
    (d.activate c b g row t tag src).threads = d.threads := by
  unfold activate; simp [applyRow]
@[simp] theorem startRow_threads (c b : Nat) (r : RowCmd) (t : Nat) : (d.startRow c b r t).threads = d.threads := by
  unfold startRow
  grind [dieStart_threads, activate_threads, charge_threads, copyLost_threads, modGroup_threads, drive_threads, closeSense_threads,
    refresh_threads]
@[simp] theorem startAt_threads (c b : Nat) (p : Nat × RowCmd × Nat) : (d.startAt c b p).threads = d.threads := by
  simp [startAt]
@[simp] theorem ownClose_threads (c b : Nat) (g : Lat) : (d.ownClose c b g).threads = d.threads := by
  unfold ownClose; split <;> simp
@[simp] theorem insertRef_threads (c b : Nat) (g : Lat) : (d.insertRef c b g).threads = d.threads := by
  unfold insertRef; split <;> simp
@[simp] theorem forceRef_threads (c b : Nat) (g : Lat) : (d.forceRef c b g).threads = d.threads := by
  simp only [forceRef, insertRef_threads]; split <;> simp
@[simp] theorem forceAll_threads (c b : Nat) (g : Lat) (n : Nat) : (d.forceAll c b g n).threads = d.threads := by
  induction n generalizing d with
  | zero => rfl
  | succ n ih => unfold forceAll; split <;> simp [ih]
@[simp] theorem release_threads (c b : Nat) (g : Lat) : (d.release c b g).threads = d.threads := by
  unfold release; split
  · split <;> simp
  · simp
@[simp] theorem colUse_threads (c b : Nat) (g : Lat) (key cls : Nat) : (d.colUse c b g key cls).threads = d.threads := by
  have ready : ((d.forceAll c b g 24).release c b g).threads = d.threads := by simp
  unfold colUse
  generalize (d.forceAll c b g 24).release c b g = e at ready
  dsimp only
  split <;> split <;> simp [ready]
@[simp] theorem releaseFor_threads (key cls : Nat) : (d.releaseFor key cls).threads = d.threads := by
  unfold releaseFor; split <;> simp
@[simp] theorem wqClose_threads (key : Nat) : (d.wqClose key).threads = d.threads := by
  unfold wqClose; split <;> simp
@[simp] theorem cleanHome_threads (line : Nat) : (d.cleanHome line).threads = d.threads := by
  unfold cleanHome
  split
  · rfl
  · dsimp only; split
    · simp
    · show ((d.releaseFor (64 * line)).wqClose (64 * line)).threads = d.threads
      simp
@[simp] theorem recallLine_threads (line : Nat) : (d.recallLine line).threads = d.threads := by
  unfold recallLine; split <;> simp
@[simp] theorem evictLine_threads (core line : Nat) : (d.evictLine core line).threads = d.threads := by
  unfold evictLine; split
  · split <;> simp
  · rfl
@[simp] theorem cacheRoom_threads (core line : Nat) : (d.cacheRoom core line).threads = d.threads :=
  foldl_threads (fun d (c : CacheLine) => evictLine_threads d core c.line) _ _
@[simp] theorem holdLine_threads (c : CacheLine) : (d.holdLine c).threads = d.threads :=
  cacheRoom_threads d c.core c.line
@[simp] theorem putMarked_threads (p : Proxy) : (d.putMarked p).threads = d.threads := by
  simp [putMarked]
@[simp] theorem writeHome_threads (p : Proxy) : (d.writeHome p).threads = d.threads := by
  unfold writeHome
  split
  · rfl
  · dsimp only; split
    · exact setLost_threads d
    · exact putMarked_threads d p
@[simp] theorem dropProxy_threads (stand line : Nat) : (d.dropProxy stand line).threads = d.threads := by
  unfold dropProxy; dsimp only; split <;> rfl
@[simp] theorem flushProxy_threads (stand line : Nat) : (d.flushProxy stand line).threads = d.threads := by
  unfold flushProxy; split <;> simp
@[simp] theorem sliceRoom_threads (stand line : Nat) : (d.sliceRoom stand line).threads = d.threads :=
  foldl_threads (fun d (q : Proxy) => flushProxy_threads d q.stand q.line) _ _
@[simp] theorem setProxy_threads (p : Proxy) : (d.setProxy p).threads = d.threads := sliceRoom_threads d p.stand p.line
@[simp] theorem homeFetch_threads (line : Nat) : (d.homeFetch line).1.threads = d.threads := by
  unfold homeFetch
  split
  · rfl
  · dsimp only; split <;> simp
@[simp] theorem homeLoad_threads (core line : Nat) (na : Bool) : (d.homeLoad core line na).1.threads = d.threads := by
  unfold homeLoad
  dsimp only
  split
  · simp
  · split
    · simp
    · split <;> simp
@[simp] theorem fillProxy_threads (stand line : Nat) : (d.fillProxy stand line).1.threads = d.threads := by
  unfold fillProxy; dsimp only; split <;> simp
@[simp] theorem colRead_threads (st : Stor) (n : Nat) : (d.colRead st n).1.threads = d.threads := by
  unfold colRead; split <;> simp
@[simp] theorem cachedRead_threads (core : Nat) (st : Stor) (n : Nat) (na : Bool) :
    (d.cachedRead core st n na).1.threads = d.threads := by
  unfold cachedRead
  split
  · split
    · simp
    · split
      · simp
      · dsimp only; split <;> simp
  · simp
@[simp] theorem physTouch_threads (pa n : Nat) : (d.physTouch pa n).threads = d.threads :=
  foldl_threads (fun d _ => colRead_threads d ..) _ _
@[simp] theorem walkFrom_threads (va level t : Nat) : (d.walkFrom va level t).1.threads = d.threads := by
  induction level generalizing d t with
  | zero => unfold walkFrom; grind [physTouch_threads]
  | succ level ih => unfold walkFrom; grind [physTouch_threads]
@[simp] theorem walked_threads (ctx : BitVec 12) (va : Nat) : (d.walked ctx va).1.threads = d.threads := by
  unfold walked; dsimp only
  split
  · simp
  · split <;> simp
@[simp] theorem putAtc_threads (core : Nat) (e : AtcEntry) : (d.putAtc core e).threads = d.threads := rfl
@[simp] theorem translate_threads (core : Nat) (ctx : BitVec 12) (va : Nat) : (d.translate core ctx va).1.threads = d.threads := by
  unfold translate
  split
  · rfl
  · dsimp only; split <;> simp
@[simp] theorem globalAt_threads (core : Nat) (ctx : BitVec 12) (k : Acc) (va : Nat) :
    (d.globalAt core ctx k va).1.threads = d.threads := translate_threads d core ctx va

/-! ### So do the fetch of code and the loop buffer -/

@[simp] theorem fetchAt_threads (core : Nat) (ctx : BitVec 12) (a : Nat) : (d.fetchAt core ctx a).1.threads = d.threads := by
  unfold fetchAt; split <;> simp
@[simp] theorem fetchBytes_threads (core : Nat) (p : Place) (n : Nat) : (d.fetchBytes core p n).1.threads = d.threads := by
  unfold fetchBytes; split <;> simp
@[simp] theorem fetchWord_threads (core : Nat) (ctx : BitVec 12) (a : Nat) : (d.fetchWord core ctx a).1.threads = d.threads := by
  unfold fetchWord; dsimp only; split <;> simp
@[simp] theorem fetchFrom_threads (core : Nat) (ctx : BitVec 12) (k : Nat) (a : Word) :
    (d.fetchFrom core ctx k a).1.threads = d.threads := by
  induction k generalizing d a with
  | zero => rfl
  | succ k ih => unfold fetchFrom; grind [fetchWord_threads]
@[simp] theorem targetCheck_threads (core : Nat) (ctx : BitVec 12) (a : Word) :
    (d.targetCheck core ctx a).1.threads = d.threads := by
  unfold targetCheck; grind [fetchAt_threads, fetchBytes_threads]
@[simp] theorem fetchBody_threads (core : Nat) (ctx : BitVec 12) (size n : Nat) (a : Word) :
    (d.fetchBody core ctx size n a).1.threads = d.threads := by
  induction n generalizing d a with
  | zero => rfl
  | succ n ih => unfold fetchBody; grind [fetchConvoy, fetchFrom_threads]
@[simp] theorem makeRoom_threads (core need n : Nat) : (d.makeRoom core need n).threads = d.threads := by
  induction n generalizing d with
  | zero => rfl
  | succ n ih => unfold makeRoom; grind [modCore_threads]
theorem capture_threads {d e : Device} {core rk size n : Nat} {ctx : BitVec 12} {body : Word}
    (h : d.capture core rk ctx size body n = .ok e) : e.threads = d.threads := by
  unfold capture at h; grind [modCore_threads, makeRoom_threads, fetchBody_threads]

end Device

end Sys2Proof.Machine
end

