-- ==== Sys2Proof/Proofs/GangWords.lean ====
section
/-! PROOF. Words that the whole gang decides on, in a calm convoy: the harts that run them, failed checks and transfer targets
(R31, R38). -/

namespace Sys2Proof.Machine

/-! ### Masks and lists of banks -/

theorem mem_banksOf {m : Mask16} {k : Nat} : k ∈ banksOf m ↔ k < 16 ∧ m.getLsbD k = true := by
  simp [banksOf]

theorem mem_active {s : State} {k : Nat} : k ∈ s.active ↔ k < 16 ∧ s.gang.gm.getLsbD k = true := mem_banksOf

theorem maskOf_getLsbD (l : List Nat) {k : Nat} (hk : k < 16) : (maskOf l).getLsbD k = decide (k ∈ l) := by
  suffices H : ∀ m : Mask16, (l.foldl (fun m h => m ||| bitOf h) m).getLsbD k = (m.getLsbD k || decide (k ∈ l)) by
    simpa [maskOf] using H 0
  induction l with
  | nil => simp
  | cons b l ih =>
    intro m
    have bit : (bitOf b).getLsbD k = decide (k = b) := by
      simp only [bitOf, BitVec.getLsbD_shiftLeft, BitVec.getLsbD_one]
      grind
    rw [List.foldl_cons, ih, BitVec.getLsbD_or, bit]
    simp [Bool.or_assoc, List.mem_cons]

/-! ### The same failed check on several harts -/

section
variable {s : State} {run : List Nat}

theorem sound_eq_self (hf : s.iss.fails = []) (l : List Nat) : s.sound l = l := by
  simp [State.sound, State.failed, hf]

theorem foldl_addFail (f : Fail) (hn : run.Nodup) (hs : ∀ k ∈ run, s.failed k = false) :
    run.foldl (fun t k => t.addFail k f) s = { s with iss := { s.iss with fails := s.iss.fails ++ run.map fun k => (k, f) } } := by
  induction run generalizing s with
  | nil => simp
  | cons k run ih =>
    obtain ⟨hk, hn⟩ := List.nodup_cons.mp hn
    have first : s.addFail k f = { s with iss := { s.iss with fails := s.iss.fails ++ [(k, f)] } } := by
      simp [State.addFail, hs k (by simp)]
    have rest : ∀ j ∈ run, (s.addFail k f).failed j = false := by
      intro j hj
      have other : k ≠ j := fun e => hk (e ▸ hj)
      have old := hs j (by simp [hj])
      rw [first]
      simp only [State.failed, List.any_append] at old ⊢
      simp [old, other]
    rw [List.foldl_cons, ih hn rest, first]
    simp

/-- The state with the same failed check on the harts of a list, when none has failed before. -/
def State.failOn (s : State) (run : List Nat) (f : Fail) : State := { s with iss := { s.iss with fails := run.map fun k => (k, f) } }

theorem foldl_addFail_of_none (f : Fail) (hn : run.Nodup) (hf : s.iss.fails = []) :
    run.foldl (fun t k => t.addFail k f) s = s.failOn run f := by
  rw [foldl_addFail f hn fun k _ => by simp [State.failed, hf], hf, List.nil_append]; rfl

theorem failAll_of_none (f : Fail) (hf : s.iss.fails = []) : s.failAll f = s.failOn (banksOf s.gang.gm) f :=
  foldl_addFail_of_none f (banksOf_nodup _) hf

/-! ### Transfer targets (R31) -/

variable {d : Device} {a : Word} {f : Fail}

theorem jumpOf_passed (ht : s.dev.targetCheck s.iss.core s.ctx a = (d, none)) :
    s.jumpOf run a = { s with dev := d }.goto a := by simp [State.jumpOf, ht]

theorem jumpOf_failed (hn : run.Nodup) (hf : s.iss.fails = []) (ht : s.dev.targetCheck s.iss.core s.ctx a = (d, some f)) :
    s.jumpOf run a = { s with dev := d }.failOn run f := by
  simp only [State.jumpOf, ht]
  exact foldl_addFail_of_none (s := { s with dev := d }) f hn hf

theorem threads_of_targetCheck {e : Device} {core : Nat} {ctx : BitVec 12} {r : Option Fail}
    (ht : e.targetCheck core ctx a = (d, r)) : d.threads = e.threads := by
  rw [← show (e.targetCheck core ctx a).1 = d by rw [ht], Device.targetCheck_threads]

end

/-! ### A word that the whole gang decides on, in a calm convoy -/

section
variable {s t : State} {h : Hdr} {i : Instr} {u : Uses} {body : List Nat → State → State} {d : Device} {a : Option Word}

/-- The active harts whose guard is true. -/
def State.runners (s : State) (h : Hdr) : List Nat := s.active.filter (s.begun.guard h)
/-- The state in which the part of a word runs: the convoy has begun and the word's costs are counted. -/
def State.counted (s : State) (h : Hdr) (u : Uses) : State := s.begun.count h u s.active

theorem mem_runners {k : Nat} : k ∈ s.runners h ↔ k ∈ s.active ∧ s.begun.guard h k = true := List.mem_filter
theorem runners_nodup : (s.runners h).Nodup := (banksOf_nodup _).filter _
theorem runners_all (hg : ∀ k ∈ s.active, s.begun.guard h k = true) : s.runners h = s.active := List.filter_eq_self.mpr hg
theorem runners_none (hg : ∀ k ∈ s.active, s.begun.guard h k = false) : s.runners h = [] :=
  List.filter_eq_nil_iff.mpr fun k hk => by simp [hg k hk]
theorem runners_ne_nil (hg : ∃ k ∈ s.active, s.begun.guard h k = true) : s.runners h ≠ [] := by
  obtain ⟨k, hk, hg⟩ := hg
  exact List.ne_nil_of_mem (mem_runners.mpr ⟨hk, hg⟩)

@[simp] theorem counted_dev : (s.counted h u).dev = s.begun.dev := rfl
@[simp] theorem counted_ctx : (s.counted h u).ctx = s.begun.ctx := rfl
@[simp] theorem counted_core : (s.counted h u).iss.core = s.iss.core := begun_core s
@[simp] theorem counted_base : (s.counted h u).iss.base = s.iss.base := begun_base s
@[simp] theorem counted_addr : (s.counted h u).iss.addr = s.begun.iss.addr := rfl
@[simp] theorem counted_target : (s.counted h u).iss.target = s.iss.target := begun_target s
@[simp] theorem counted_gang : (s.counted h u).gang = s.gang := begun_gang s
@[simp] theorem counted_rk : (s.counted h u).rk = s.rk := begun_rk s
@[simp] theorem counted_hart (k : Nat) : (s.counted h u).hart k = s.begun.hart k := rfl
@[simp] theorem counted_src (k : Nat) (v : Src) : (s.counted h u).src k v = s.begun.src k v := rfl
theorem counted_fails (hs : s.Calm) : (s.counted h u).iss.fails = [] := (begun_fails s).trans hs.fails
theorem counted_hold (hs : s.Calm) : (s.counted h u).iss.hold = none := (begun_hold s).trans hs.hold

theorem begun_gang? (hs : s.Runs) : s.begun.dev.gang? s.rk s.iss.base = some s.gang := by
  rw [State.begun, begin_dev]; exact hs.gang_eq

theorem exec_whole (hs : s.Calm) (he : exec i s = wordOp h u (wholeGang body) s) (hu : u.plain = true)
    (hb : body (s.runners h) (s.counted h u) = t) : exec i s = .next (t.endWord h) := by
  rw [he, wordOp_plain h u _ s hu hs, ← hb]
  exact congrArg (fun l => Host.Outcome.next ((body l (s.counted h u)).endWord h)) (sound_eq_self (counted_fails hs) _)

theorem runsInto_whole (hs : s.Calm) (he : exec i s = wordOp h u (wholeGang body) s) (hu : u.plain = true)
    (hb : body (s.runners h) (s.counted h u) = t) (hf : t.iss.fails = []) (hh : t.iss.hold = none) (hd : t.dev = d)
    (ha : t.iss.target = a) : RunsInto s h i d a :=
  ⟨t, ⟨exec_whole hs he hu hb, hf, hh⟩, hd, ha⟩

theorem failsWith_whole {l : List (Nat × Fail)} (hs : s.Calm) (he : exec i s = wordOp h u (wholeGang body) s) (hu : u.plain = true)
    (hb : body (s.runners h) (s.counted h u) = t) (hf : t.iss.fails = l) (hh : t.iss.hold = none) : FailsWith s h i l :=
  ⟨t, exec_whole hs he hu hb, hf, hh⟩

/-- The one failed check of every hart that runs a word. -/
theorem failing_const (f : Fail) : s.failing h (fun _ => some f) = (s.runners h).map fun k => (k, f) := by
  simp [State.failing, State.runners]

end

end Sys2Proof.Machine
end

