-- ==== Sys2Proof/Proofs/Transfers.lean ====
section
/-! PROOF. The transfers (R108, R109). -/

namespace Sys2Proof.Machine

/-! ### One write on each hart of a list -/

section
variable {s : State} {run : List Nat} {w : Nat → State → State}

theorem foldl_keeps_iss (hw : ∀ k t, (w k t).iss = t.iss) (run : List Nat) (s : State) :
    (run.foldl (fun t k => w k t) s).iss = s.iss := by
  induction run generalizing s with
  | nil => rfl
  | cons k run ih => rw [List.foldl_cons, ih, hw]

/-- The harts of a list changed in turn, each by what it was at the start: nothing else changes. -/
theorem foldl_modHart_effect (f : Nat → Hart → Hart) (hn : run.Nodup) (hl : ∀ k ∈ run, k < 16)
    (hw : ∀ t, ∀ k ∈ run, s.Near t → t.hart k = s.hart k → w k t = t.modHart k (f k)) :
    s.Near (run.foldl (fun t k => w k t) s)
      ∧ ∀ k < 16, (run.foldl (fun t k => w k t) s).hart k = if k ∈ run then f k (s.hart k) else s.hart k := by
  induction run generalizing s with
  | nil => exact ⟨State.Near.refl s, fun k _ => rfl⟩
  | cons b run ih =>
    obtain ⟨hb, hn⟩ := List.nodup_cons.mp hn
    obtain ⟨hb16, hl⟩ := List.forall_mem_cons.mp hl
    have first : w b s = s.modHart b (f b) := hw s b (by simp) (State.Near.refl s) rfl
    have near := State.near_modHart s b (f b)
    have harts : ∀ k < 16, (s.modHart b (f b)).hart k = if k = b then f b (s.hart b) else s.hart k := by
      intro k hk; rw [State.modHart_hart s hb16 hk]; split
      · next e => rw [e]
      · rfl
    have other : ∀ k ∈ run, (s.modHart b (f b)).hart k = s.hart k := by
      intro k hk
      rw [harts k (hl k hk), if_neg]; rintro rfl; exact hb hk
    obtain ⟨hN, hH⟩ := ih (s := s.modHart b (f b)) hn hl fun t k hk ht he =>
      hw t k (by simp [hk]) (near.trans ht) (he.trans (other k hk))
    rw [List.foldl_cons, first]
    refine ⟨near.trans hN, fun k hk => ?_⟩
    rw [hH k hk]
    by_cases e : k = b
    · subst e; simp [hb, harts k hk]
    · simp [e, harts k hk]

end

/-! ### What the harts of a gang decide on (R109) -/

section
variable {s : State} {takers : List (Nat × Word)} {a : Word}

theorem transfer_agreed (hf : s.iss.fails = []) (hne : banksOf s.gang.gm ≠ [])
    (ht : takers = (banksOf s.gang.gm).map fun k => (k, a)) : s.transfer takers = s.jump a := by
  subst ht
  cases hb : banksOf s.gang.gm with
  | nil => exact absurd hb hne
  | cons k l => simp [State.transfer, sound_eq_self hf, hb]

theorem transfer_disagreed (hf : s.iss.fails = []) (hne : takers ≠ [])
    (hd : takers.length ≠ (banksOf s.gang.gm).length ∨ ∃ p ∈ takers, ∃ q ∈ takers, p.2 ≠ q.2) :
    s.transfer takers = s.disagree := by
  cases takers with
  | nil => exact absurd rfl hne
  | cons p l =>
    have no : ((p :: l).length = (s.sound (banksOf s.gang.gm)).length && l.all fun q => q.2 == p.2) = false := by
      rw [sound_eq_self hf, Bool.and_eq_false_iff]
      rcases hd with hd | ⟨x, hx, y, hy, hxy⟩
      · exact .inl (by simpa using hd)
      · refine .inr (Bool.eq_false_iff.mpr fun all => hxy ?_)
        have same : ∀ q ∈ p :: l, q.2 = p.2 := by simpa [List.all_eq_true] using all
        rw [same x hx, same y hy]
    simp only [State.transfer, no, Bool.false_eq_true, if_false]

end

/-! ### Transfer words (R108) -/

theorem sint64_eq_toInt (v : Word) : sint64 v = v.toInt := sintN_64 v
theorem dispTarget_eq (disp : Src) (s : State) (k : Nat) : dispTarget disp s k = wordDisp s.iss.addr (s.src k disp).toInt := by
  rw [dispTarget, sint64_eq_toInt]

section
variable {s : State} {h : Hdr} {i : Instr} {u : Uses} {target : State → Nat → Option Word} {write : Nat → State → State} {a : Word}
  {d : Device}

/-- The state in which a transfer word has sent control to its target. -/
def State.sent (s : State) (h : Hdr) (u : Uses) (d : Device) (a : Word) : State := { s.counted h u with dev := d }.goto a

theorem sent_fails (hs : s.Calm) : (s.sent h u d a).iss.fails = [] := counted_fails (u := u) (h := h) hs
theorem sent_hold (hs : s.Calm) : (s.sent h u d a).iss.hold = none := counted_hold (u := u) (h := h) hs
theorem sent_hart (hc : s.begun.dev.targetCheck s.iss.core s.begun.ctx a = (d, none)) (k : Nat) :
    (s.sent h u d a).hart k = s.begun.hart k := by
  show d.hart s.begun.rk k = s.begun.dev.hart s.begun.rk k
  exact Device.threads_hart (threads_of_targetCheck hc) _ _

theorem sent_src (hc : s.begun.dev.targetCheck s.iss.core s.begun.ctx a = (d, none)) (k : Nat) (v : Src) :
    (s.sent h u d a).src k v = s.begun.src k v := by
  cases v with
  | x r => exact congrArg (fun t : Hart => t.getX r) (sent_hart hc k)
  | imm _ | long _ => rfl

theorem takers_eq (hg : ∀ k ∈ s.active, s.begun.guard h k = true) (ht : ∀ k ∈ s.active, target (s.counted h u) k = some a) :
    (s.runners h).filterMap (fun b => (target (s.counted h u) b).map fun a => (b, a)) = s.active.map fun k => (k, a) := by
  rw [runners_all hg, ← List.filterMap_eq_map]
  exact List.filterMap_congr fun k hk => by simp [ht k hk]

/-- A transfer word on whose target every active hart agrees: it goes there, and then its own writes are made. -/
theorem exec_sent (hs : s.Calm) (he : exec i s = transferWord h u target write s) (hu : u.plain = true) (hne : s.active ≠ [])
    (hg : ∀ k ∈ s.active, s.begun.guard h k = true) (ht : ∀ k ∈ s.active, target (s.counted h u) k = some a)
    (hc : s.begun.dev.targetCheck s.iss.core s.begun.ctx a = (d, none)) :
    exec i s = .next ((s.active.foldl (fun t k => write k t) (s.sent h u d a)).endWord h) := by
  refine exec_whole hs he hu ?_
  have gang : banksOf (s.counted h u).gang.gm = s.active := by rw [counted_gang]; rfl
  dsimp only
  rw [takers_eq hg ht, transfer_agreed (a := a) (counted_fails hs) (by rwa [gang]) (by rw [gang]), State.jump,
    jumpOf_passed (d := d) (by simpa using hc), runners_all hg]
  rfl

theorem runsInto_sent (hs : s.Calm) (he : exec i s = transferWord h u target (fun _ t => t) s) (hu : u.plain = true)
    (hne : s.active ≠ []) (hg : ∀ k ∈ s.active, s.begun.guard h k = true)
    (ht : ∀ k ∈ s.active, target (s.counted h u) k = some a)
    (hc : s.begun.dev.targetCheck s.iss.core s.begun.ctx a = (d, none)) : RunsInto s h i d (some a) := by
  have ends := exec_sent hs he hu hne hg ht hc
  rw [List.foldl_fixed] at ends
  exact ⟨_, ⟨ends, sent_fails hs, sent_hold hs⟩, rfl, rfl⟩

/-- A transfer word that no hart takes. -/
theorem exec_untaken (hs : s.Calm) (he : exec i s = transferWord h u target write s) (hu : u.plain = true)
    (hg : ∀ k ∈ s.active, s.begun.guard h k = true) (ht : ∀ k ∈ s.active, target (s.counted h u) k = none) :
    exec i s = .next ((s.active.foldl (fun t k => write k t) (s.counted h u)).endWord h) := by
  refine exec_whole hs he hu ?_
  have none_ : s.active.filterMap (fun b => (target (s.counted h u) b).map fun a => (b, a)) = [] :=
    List.filterMap_eq_nil_iff.mpr fun k hk => by simp [ht k hk]
  dsimp only
  rw [runners_all hg, none_]; rfl

/-- A transfer word on which the harts of its gang disagree (R109). -/
theorem failsWith_disagreed (hs : s.Calm) (he : exec i s = transferWord h u target write s) (hu : u.plain = true)
    (hw : ∀ k t, (write k t).iss = t.iss) {takers : List (Nat × Word)}
    (ht : (s.runners h).filterMap (fun b => (target (s.counted h u) b).map fun a => (b, a)) = takers) (hne : takers ≠ [])
    (hd : takers.length ≠ s.active.length ∨ ∃ p ∈ takers, ∃ q ∈ takers, p.2 ≠ q.2) :
    FailsWith s h i (s.active.map fun k => (k, { cause := 0x01, tval := s.begun.iss.addr })) := by
  have gang : banksOf (s.counted h u).gang.gm = s.active := by rw [counted_gang]; rfl
  have fails : ((s.counted h u).transfer takers).iss = { (s.counted h u).iss with
      fails := s.active.map fun k => (k, { cause := 0x01, tval := s.begun.iss.addr }) } := by
    rw [transfer_disagreed (counted_fails hs) hne (by rwa [gang]), State.disagree, failAll_of_none _ (counted_fails hs), gang]; rfl
  refine failsWith_whole hs he hu rfl ?_ ?_
  · dsimp only; rw [foldl_keeps_iss hw, ht, fails]
  · dsimp only; rw [foldl_keeps_iss hw, ht, fails]; exact counted_hold (u := u) (h := h) hs

/-- The writes of a word on every active hart, each of the same register. -/
theorem runsLinked_of {j : State} {goal : Option Word} {r : Reg} {v : Nat → Word}
    (he : exec i s = .next ((s.active.foldl (fun t k => write k t) j).endWord h)) (hf : j.iss.fails = []) (hh : j.iss.hold = none)
    (ha : j.iss.target = goal) (hj : ∀ k, j.hart k = s.begun.hart k) (hi : ∀ k t, (write k t).iss = t.iss)
    (hw : ∀ t, ∀ k ∈ s.active, j.Near t → t.hart k = j.hart k → write k t = writeReg k r (v k) (some 1) t) :
    RunsLinked s h i j.dev goal r v := by
  obtain ⟨hN, hH⟩ := foldl_modHart_effect (run := s.active) (fun k x => x.put r (v k) (some 1)) (banksOf_nodup _)
    (fun k hk => banksOf_lt hk) hw
  have iss := foldl_keeps_iss hi s.active j
  refine ⟨_, ⟨he, ?_, ?_⟩, ?_, hN.2.2, fun k hk hr => ?_, fun k hk q hq => ?_⟩
  · rw [iss, hf]
  · rw [iss, hh]
  · rw [iss, ha]
  · rw [hH k (banksOf_lt hk), if_pos hk, Hart.get_put, if_pos ⟨rfl, hr⟩]
  · rw [hH k hk, hj]
    split
    · next active =>
      rw [Hart.get_put, if_neg]
      rintro ⟨rfl, hr⟩
      rcases hq with q | q | q
      · exact q rfl
      · rw [hr] at q; cases q
      · exact q active
    · rfl

/-- A transfer word on whose target every active hart agrees, and which writes one register on each of them. -/
theorem runsLinked_sent {r : Reg} {v : Nat → Word} (hs : s.Calm) (he : exec i s = transferWord h u target write s)
    (hu : u.plain = true) (hne : s.active ≠ []) (hg : ∀ k ∈ s.active, s.begun.guard h k = true)
    (ht : ∀ k ∈ s.active, target (s.counted h u) k = some a)
    (hc : s.begun.dev.targetCheck s.iss.core s.begun.ctx a = (d, none)) (hi : ∀ k t, (write k t).iss = t.iss)
    (hw : ∀ t, ∀ k ∈ s.active, (s.sent h u d a).Near t → t.hart k = (s.sent h u d a).hart k →
      write k t = writeReg k r (v k) (some 1) t) : RunsLinked s h i d (some a) r v :=
  runsLinked_of (j := s.sent h u d a) (exec_sent hs he hu hne hg ht hc) (sent_fails hs) (sent_hold hs) rfl (sent_hart hc) hi hw

theorem putLink_sent {l : XReg} {k : Nat} {t : State} (hN : (s.sent h u d a).Near t) :
    putLink l k t = writeReg k (.x l) (nextWord s.begun.iss.addr) (some 1) t := by
  unfold putLink; rw [hN.addr]; rfl

theorem subbr_write {x : XReg} {amount : Src} {k : Nat} {j t : State} (hj : j.hart k = s.begun.hart k)
    (hr : j.src k amount = s.begun.src k amount) (hN : j.Near t) (he : t.hart k = j.hart k) :
    writeReg k (.x x) (subbrRes x amount t k) (some 1) t
      = writeReg k (.x x) ((s.begun.hart k).getX x - s.begun.src k amount) (some 1) t := by
  have read : subbrRes x amount t k = (s.begun.hart k).getX x - s.begun.src k amount := by
    rw [subbrRes, hN.src he, hr, he, hj]
  rw [read]

end

/-! ### The transfers of R108 and their disagreements -/

section
variable {s : State} {h : Hdr} {l a x : XReg} {b disp amount : Src} {t : Word} {d : Device} (hs : s.Calm)
include hs

theorem br_call_runs (hne : s.active ≠ []) (hg : ∀ k ∈ s.active, s.begun.guard h k = true)
    (hc : s.begun.dev.targetCheck s.iss.core s.begun.ctx t = (d, none))
    (ht : ∀ k ∈ s.active, wordDisp s.begun.iss.addr (s.begun.src k b).toInt = t) :
    RunsInto s h (.br h b) d (some t) ∧ RunsLinked s h (.call h l b) d (some t) (.x l) fun _ => nextWord s.begun.iss.addr := by
  have target : ∀ k ∈ s.active, some (dispTarget b s.begun k) = some t := fun k hk =>
    congrArg some ((dispTarget_eq ..).trans (ht k hk))
  exact ⟨runsInto_sent hs rfl rfl hne hg target hc,
    runsLinked_sent hs rfl rfl hne hg target hc (fun _ _ => rfl) fun _ _ _ hN _ => putLink_sent hN⟩

theorem brx_callx_runs (hne : s.active ≠ []) (hg : ∀ k ∈ s.active, s.begun.guard h k = true)
    (hc : s.begun.dev.targetCheck s.iss.core s.begun.ctx t = (d, none))
    (ht : ∀ k ∈ s.active, (s.begun.hart k).getX a + s.begun.src k b = t) :
    RunsInto s h (.brx h a b) d (some t)
      ∧ RunsLinked s h (.callx h l a b) d (some t) (.x l) fun _ => nextWord s.begun.iss.addr := by
  have target : ∀ k ∈ s.active, some ((s.begun.hart k).getX a + s.begun.src k b) = some t := fun k hk => congrArg some (ht k hk)
  have plain : ∀ wr, ({ rd := .x a :: srcRegs b, wr := wr } : Uses).plain = true := fun _ => rfl
  exact ⟨runsInto_sent hs rfl (plain _) hne hg target hc,
    runsLinked_sent hs rfl (plain _) hne hg target hc (fun _ _ => rfl) fun _ _ _ hN _ => putLink_sent hN⟩

theorem subbr_stays (hg : ∀ k ∈ s.active, s.begun.guard h k = true)
    (hv : ∀ k ∈ s.active, ((s.begun.hart k).getX x - s.begun.src k amount).toInt ≤ 0) :
    RunsLinked s h (.subbr h x disp amount) s.begun.dev s.iss.target (.x x)
      fun k => (s.begun.hart k).getX x - s.begun.src k amount := by
  have untaken : ∀ k ∈ s.active, (if 0 < sint64 (subbrRes x amount s.begun k) then some (dispTarget disp s.begun k) else none) = none :=
    fun k hk => if_neg (Int.not_lt.mpr ((sint64_eq_toInt _).trans_le (hv k hk)))
  have linked := runsLinked_of (r := .x x) (exec_untaken (i := .subbr h x disp amount) hs rfl rfl hg untaken) (counted_fails hs)
    (counted_hold hs) counted_target (fun _ => rfl) (fun _ _ => rfl) fun _ _ _ hN he => subbr_write rfl rfl hN he
  exact linked

theorem subbr_goes (hne : s.active ≠ []) (hg : ∀ k ∈ s.active, s.begun.guard h k = true)
    (hc : s.begun.dev.targetCheck s.iss.core s.begun.ctx t = (d, none))
    (hv : ∀ k ∈ s.active, 0 < ((s.begun.hart k).getX x - s.begun.src k amount).toInt
      ∧ wordDisp s.begun.iss.addr (s.begun.src k disp).toInt = t) :
    RunsLinked s h (.subbr h x disp amount) d (some t) (.x x) fun k => (s.begun.hart k).getX x - s.begun.src k amount := by
  have target : ∀ k ∈ s.active,
      (if 0 < sint64 (subbrRes x amount s.begun k) then some (dispTarget disp s.begun k) else none) = some t := fun k hk => by
    obtain ⟨pos, goes⟩ := hv k hk
    exact (if_pos ((sint64_eq_toInt _).symm ▸ pos)).trans (congrArg some ((dispTarget_eq ..).trans goes))
  exact runsLinked_sent hs rfl rfl hne hg target hc (fun _ _ => rfl) fun _ _ _ hN he =>
    subbr_write (sent_hart hc _) (sent_src hc _ _) hN he

theorem br_call_disagree (hon : ∃ k ∈ s.active, s.begun.guard h k = true) (hoff : ∃ k ∈ s.active, s.begun.guard h k = false) :
    FailsWith s h (.br h b) (s.active.map fun k => (k, { cause := 0x01, tval := s.begun.iss.addr }))
      ∧ FailsWith s h (.call h l b) (s.active.map fun k => (k, { cause := 0x01, tval := s.begun.iss.addr })) := by
  have fewer : (s.runners h).length < s.active.length :=
    List.length_filter_lt_length_iff_exists.mpr (hoff.imp fun k hk => by simp [hk])
  have some_ : (s.runners h).map (fun k => (k, dispTarget b s.begun k)) ≠ [] := by simpa using runners_ne_nil hon
  have takers : (s.runners h).filterMap (fun k => (some (dispTarget b s.begun k)).map fun a => (k, a))
      = (s.runners h).map fun k => (k, dispTarget b s.begun k) := by simp
  have short : ((s.runners h).map fun k => (k, dispTarget b s.begun k)).length ≠ s.active.length := by
    rw [List.length_map]; exact fewer.ne
  exact ⟨failsWith_disagreed hs rfl rfl (fun _ _ => rfl) takers some_ (.inl short),
    failsWith_disagreed hs rfl rfl (fun _ _ => rfl) takers some_ (.inl short)⟩

theorem ret_disagree (hg : ∀ k ∈ s.active, s.begun.guard h k = true)
    (hd : ∃ j ∈ s.active, ∃ k ∈ s.active, (s.begun.hart j).getX a ≠ (s.begun.hart k).getX a) :
    FailsWith s h (.ret h a) (s.active.map fun k => (k, { cause := 0x01, tval := s.begun.iss.addr })) := by
  obtain ⟨j, hj, k, hk, hjk⟩ := hd
  have takers : (s.runners h).filterMap (fun k => (some ((s.begun.hart k).getX a)).map fun a => (k, a))
      = s.active.map fun k => (k, (s.begun.hart k).getX a) := by rw [runners_all hg]; simp
  have some_ : s.active.map (fun k => (k, (s.begun.hart k).getX a)) ≠ [] := by simpa using List.ne_nil_of_mem hj
  exact failsWith_disagreed hs rfl rfl (fun _ _ => rfl) takers some_
    (.inr ⟨_, List.mem_map_of_mem hj, _, List.mem_map_of_mem hk, hjk⟩)

end

end Sys2Proof.Machine

open Sys2Proof Sys2Proof.Machine in
/-- Settles O22: the harts of a transfer agree on one target, or `transfer` finds that they do not. -/
theorem transfers : Obligations.Transfers :=
  ⟨fun _ _ _ _ _ _ _ hs hne hg hc => ⟨br_call_runs hs hne hg hc, brx_callx_runs hs hne hg hc,
      fun ht => runsInto_sent hs rfl rfl hne hg (fun k hk => congrArg some (ht k hk)) hc⟩,
    fun _ _ _ _ _ _ _ hs hne hg => ⟨subbr_stays hs hg, fun hv hc => subbr_goes hs hne hg hc hv⟩,
    fun _ _ _ _ _ hs => ⟨br_call_disagree hs, ret_disagree hs⟩⟩
end

