-- ==== Sys2Proof/Proofs/Divergence.lean ====
section
/-! PROOF. BRD and JOIN (R55, R76, R77). -/

namespace Sys2Proof.Machine

/-! ### BRD (R76) -/

theorem Device.modGang_congr {d : Device} {rk b : Nat} {g : Gang} {f f' : Gang → Gang} (hg : d.gang? rk b = some g)
    (hf : f g = f' g) : d.modGang rk b f = d.modGang rk b f' := by
  simp [Device.modGang, hg, hf]

section
variable {s : State} {h : Hdr} {d : Device} {target joinAt : BitVec 18} {f : Fail}

/-- The record that a BRD at `a` pushes when the harts of `tk` go to its target (R76). -/
def brdGang (joinAt : BitVec 18) (a : Word) (tk : Mask16) (g : Gang) : Gang :=
  { g with gm := tk, ds := { j := wordDisp a joinAt.toInt, ma := g.gm, mw := g.gm &&& ~~~ tk, pw := nextWord a } :: g.ds }

/-- The active harts that do not run a word. -/
theorem stay_eq_zero_iff : s.gang.gm &&& ~~~ maskOf (s.runners h) = 0 ↔ ∀ k ∈ s.active, s.begun.guard h k = true := by
  constructor
  · intro e k hk
    obtain ⟨k16, on⟩ := mem_active.mp hk
    have bit := congrArg (fun m : Mask16 => m.getLsbD k) e
    simp only [BitVec.getLsbD_and, BitVec.getLsbD_not, maskOf_getLsbD _ k16, on, k16, mem_runners, hk, true_and] at bit
    simpa using bit
  · intro hg
    refine BitVec.eq_of_getLsbD_eq fun k hk => ?_
    simp only [BitVec.getLsbD_and, BitVec.getLsbD_not, maskOf_getLsbD _ hk, hk, runners_all hg, mem_active, decide_true, true_and,
      Bool.true_and]
    cases s.gang.gm.getLsbD k <;> simp

theorem maskOf_runners {k : Nat} (hk : k < 16) : (maskOf (s.runners h)).getLsbD k = (s.gang.gm.getLsbD k && s.begun.guard h k) := by
  rw [maskOf_getLsbD _ hk, Bool.eq_iff_iff]
  simp [mem_runners, mem_active, hk]

theorem brd_jumps (hc : s.begun.dev.targetCheck s.iss.core s.begun.ctx (wordDisp s.begun.iss.addr target.toInt) = (d, none)) :
    (s.counted h {}).jumpOf (s.runners h) (wordDisp s.begun.iss.addr target.toInt)
      = s.sent h {} d (wordDisp s.begun.iss.addr target.toInt) := jumpOf_passed (by simpa using hc)

theorem brd_whole (hs : s.Calm) (hon : ∃ k ∈ s.active, s.begun.guard h k = true) (hg : ∀ k ∈ s.active, s.begun.guard h k = true)
    (hc : s.begun.dev.targetCheck s.iss.core s.begun.ctx (wordDisp s.begun.iss.addr target.toInt) = (d, none)) :
    RunsInto s h (.brd h target joinAt) d (some (wordDisp s.begun.iss.addr target.toInt)) := by
  refine runsInto_whole (t := s.sent h {} d (wordDisp s.begun.iss.addr target.toInt)) hs rfl rfl ?_ (sent_fails hs) (sent_hold hs) rfl rfl
  have empty : (s.runners h).isEmpty = false := by simpa using runners_ne_nil hon
  simp only [empty, counted_addr, brd_jumps hc, counted_gang, sent_fails hs, stay_eq_zero_iff.mpr hg, List.isEmpty_nil, bne_self_eq_false,
    Bool.true_and, Bool.false_eq_true, if_false]

theorem brd_splits (hs : s.Calm) (hon : ∃ k ∈ s.active, s.begun.guard h k = true) (hoff : ∃ k ∈ s.active, s.begun.guard h k = false)
    (hc : s.begun.dev.targetCheck s.iss.core s.begun.ctx (wordDisp s.begun.iss.addr target.toInt) = (d, none)) :
    RunsInto s h (.brd h target joinAt) (d.modGang s.rk s.iss.base (brdGang joinAt s.begun.iss.addr (maskOf (s.runners h))))
      (some (wordDisp s.begun.iss.addr target.toInt)) := by
  have empty : (s.runners h).isEmpty = false := by simpa using runners_ne_nil hon
  have stay : s.gang.gm &&& ~~~ maskOf (s.runners h) ≠ 0 := fun e => by
    obtain ⟨k, hk, off⟩ := hoff
    rw [stay_eq_zero_iff.mp e k hk] at off; cases off
  have gang : d.gang? s.rk s.iss.base = some s.gang := by
    rw [Device.threads_gang (threads_of_targetCheck hc), begun_gang? hs.toRuns]
  refine runsInto_whole (t := (s.sent h {} d (wordDisp s.begun.iss.addr target.toInt)).modGang fun g =>
    { g with gm := maskOf (s.runners h)
             ds := { j := wordDisp s.begun.iss.addr joinAt.toInt, ma := s.gang.gm, mw := s.gang.gm &&& ~~~ maskOf (s.runners h)
                     pw := nextWord s.begun.iss.addr } :: g.ds }) hs rfl rfl ?_ (sent_fails hs) (sent_hold hs) ?_ rfl
  · simp only [empty, brd_jumps hc, counted_gang, counted_addr, sent_fails hs, bne_iff_ne.mpr stay, List.isEmpty_nil, Bool.and_self,
      Bool.false_eq_true, if_false, if_true]
  · show d.modGang s.begun.rk s.begun.iss.base _ = _
    rw [begun_rk, begun_base]
    exact Device.modGang_congr gang rfl

theorem brd_fails (hs : s.Calm)
    (hc : s.begun.dev.targetCheck s.iss.core s.begun.ctx (wordDisp s.begun.iss.addr target.toInt) = (d, some f)) :
    FailsWith s h (.brd h target joinAt) (s.failing h fun _ => some f) := by
  rw [failing_const]
  by_cases hr : s.runners h = []
  · exact failsWith_whole (t := s.counted h {}) hs rfl rfl (by simp [hr]) (by rw [hr, counted_fails hs]; rfl) (counted_hold hs)
  · have empty : (s.runners h).isEmpty = false := by simpa using hr
    have jump : (s.counted h {}).jumpOf (s.runners h) (wordDisp s.begun.iss.addr target.toInt)
        = State.failOn { s.counted h {} with dev := d } (s.runners h) f :=
      jumpOf_failed runners_nodup (counted_fails hs) (by simpa using hc)
    have fails : ((s.runners h).map fun k => (k, f)).isEmpty = false := by simpa using hr
    refine failsWith_whole (t := State.failOn { s.counted h {} with dev := d } (s.runners h) f) hs rfl rfl ?_ rfl
      (counted_hold (u := {}) (h := h) hs)
    simp only [empty, counted_addr, jump, State.failOn, fails, Bool.false_and, Bool.false_eq_true, if_false]

/-! ### JOIN (R55, R77) -/

/-- The records that have arrived at a JOIN are popped, and the mask of the last of them is taken (R55). -/
theorem arrive_arrived (j : Word) (gm : Mask16) (arrived l : List DsRec) (ha : ∀ r ∈ arrived, r.j = j ∧ r.mw = 0) :
    arrive j gm (arrived ++ l) = arrive j ((arrived.getLast?.map DsRec.ma).getD gm) l := by
  induction arrived generalizing gm with
  | nil => rfl
  | cons r arrived ih =>
    obtain ⟨⟨hj, hw⟩, ha⟩ := List.forall_mem_cons.mp ha
    rw [List.cons_append, arrive, if_pos hj, if_neg (by simp [hw]), ih _ ha]
    cases arrived with
    | nil => rfl
    | cons q arrived =>
      rw [List.getLast?_cons_cons]
      cases last : (q :: arrived).getLast? with
      | none => simp at last
      | some w => rfl

theorem arrive_past (j : Word) (gm : Mask16) (l : List DsRec) (hl : ∀ r, l.head? = some r → r.j ≠ j) :
    arrive j gm l = { ds := l, gm := gm, pc := nextWord j } := by
  cases l with
  | nil => rfl
  | cons r l => rw [arrive, if_neg (hl r rfl)]

theorem arrive_waiting {j : Word} (gm : Mask16) {r : DsRec} (l : List DsRec) (hj : r.j = j) (hw : r.mw ≠ 0) :
    arrive j gm (r :: l) = { ds := { r with mw := 0 } :: l, gm := r.mw, pc := r.pw } := by
  rw [arrive, if_pos hj, if_pos hw]

/-- The gang as a course leaves it. -/
def Course.gang (c : Course) (g : Gang) : Gang := { g with ds := c.ds, gm := c.gm }

theorem join_runs {c : Course} (hs : s.Calm) (ha : arrive s.begun.iss.addr s.gang.gm s.gang.ds = c)
    (hc : if c.pc = nextWord s.begun.iss.addr then d = s.begun.dev
      else s.begun.dev.targetCheck s.iss.core s.begun.ctx c.pc = (d, none)) :
    RunsInto s h (.join h) (d.modGang s.rk s.iss.base c.gang) (some c.pc) := by
  have follow : (s.counted h {}).follow (s.runners h) c = (s.sent h {} d c.pc).modGang c.gang := by
    unfold State.follow
    rw [counted_addr]
    split at hc
    · next next_ => rw [if_pos next_, hc]; rfl
    · next other => rw [if_neg other, jumpOf_passed (d := d) (by simpa using hc)]; rfl
  refine runsInto_whole (t := (s.sent h {} d c.pc).modGang c.gang) hs rfl rfl ?_ (sent_fails hs) (sent_hold hs) ?_ rfl
  · simp only [counted_addr, counted_gang, ha, follow]
  · show d.modGang s.begun.rk s.begun.iss.base _ = _
    rw [begun_rk, begun_base]

theorem join_fails {c : Course} (hs : s.Calm) (ha : arrive s.begun.iss.addr s.gang.gm s.gang.ds = c)
    (hn : c.pc ≠ nextWord s.begun.iss.addr) (hc : s.begun.dev.targetCheck s.iss.core s.begun.ctx c.pc = (d, some f)) :
    FailsWith s h (.join h) (s.failing h fun _ => some f) := by
  have follow : (s.counted h {}).follow (s.runners h) c
      = (State.failOn { s.counted h {} with dev := d } (s.runners h) f).modGang c.gang := by
    unfold State.follow
    rw [counted_addr, if_neg hn, jumpOf_failed (d := d) (f := f) runners_nodup (counted_fails hs) (by simpa using hc)]; rfl
  refine failsWith_whole (t := (State.failOn { s.counted h {} with dev := d } (s.runners h) f).modGang c.gang) hs rfl rfl ?_
    (failing_const f).symm (counted_hold (u := {}) (h := h) hs)
  simp only [counted_addr, counted_gang, ha, follow]

end

end Sys2Proof.Machine

open Sys2Proof Sys2Proof.Machine in
/-- Settles O23: BRD by the harts that its guard selects, JOIN by the records that have arrived. -/
theorem divergence : Obligations.Divergence := by
  refine ⟨fun s h target joinAt d hs => ⟨fun hoff => ?_, fun hc hon => ⟨fun hg => brd_whole hs hon hg hc, fun hoff =>
    ⟨maskOf (s.runners h), fun k hk => maskOf_runners hk, brd_splits hs hon hoff hc⟩⟩, fun f hc => brd_fails hs hc⟩, ?_⟩
  · exact runsInto_whole (t := s.counted h {}) hs rfl rfl (by simp [runners_none hoff]) (counted_fails hs) (counted_hold hs) rfl
      counted_target
  · intro s h arrived l d hs hds ha gm
    have course := arrive_arrived s.begun.iss.addr s.gang.gm arrived l ha
    rw [← hds] at course
    refine ⟨fun hl => ?_, fun r l' hl hj hw => ?_⟩
    · exact join_runs hs (course.trans (arrive_past _ _ _ hl)) (by rw [if_pos rfl])
    · subst hl
      have waits := course.trans (arrive_waiting _ l' hj hw)
      exact ⟨fun hc => join_runs hs waits hc, fun f hn hc => join_fails hs waits hn hc⟩
end

