-- ==== Sys2Proof/Proofs/LoopRoom.lean ====
section
/-! PROOF. Room in the loop buffer (R72), and the capture of a body. -/

namespace Sys2Proof.Machine

/-! ### Room in the loop buffer (R72) -/

/-- Slots of captures. -/
def slotsOf (l : List Capture) : Nat := (l.map Capture.n).sum

theorem foldl_slots (l : List Capture) : l.foldl (fun acc c => acc + c.n) 0 = slotsOf l := by
  rw [slotsOf, List.sum_eq_foldl, List.foldl_map]

/-- A fold that keeps one of two candidates at each step ends with a member of the list, unless that is empty. -/
theorem foldl_choice {α : Type} {f : Option α → α → Option α} (h0 : ∀ a, f none a = some a)
    (h1 : ∀ a b, f (some a) b = some a ∨ f (some a) b = some b) (l : List α) :
    (l.foldl f none = none → l = []) ∧ ∀ v, l.foldl f none = some v → v ∈ l := by
  have from_ : ∀ (l : List α) (a : α), ∃ v, l.foldl f (some a) = some v ∧ v ∈ a :: l := by
    intro l
    induction l with
    | nil => exact fun a => ⟨a, rfl, by simp⟩
    | cons b l ih =>
      intro a
      rcases h1 a b with e | e
      · obtain ⟨v, hv, hm⟩ := ih a
        exact ⟨v, by rw [List.foldl_cons, e, hv], by grind⟩
      · obtain ⟨v, hv, hm⟩ := ih b
        exact ⟨v, by rw [List.foldl_cons, e, hv], by grind⟩
  cases l with
  | nil => simp
  | cons a l =>
    obtain ⟨v, hv, hm⟩ := from_ l a
    rw [List.foldl_cons, h0, hv]
    exact ⟨nofun, fun w e => Option.some.inj e ▸ hm⟩

namespace Device

/-- The captures of a core that gangs replay. -/
def keptLoops (d : Device) (core : Nat) : List Capture := (d.core core).loops.filter fun c => d.pinned core c

/-- The package without a capture. -/
def discardLoop (d : Device) (core : Nat) (v : Capture) : Device :=
  d.modCore core fun x => { x with loops := x.loops.filter fun c => c != v }

theorem discardLoop_loops (d : Device) (core : Nat) (v : Capture) :
    ((d.discardLoop core v).core core).loops = (d.core core).loops.filter fun c => c != v := by simp [discardLoop]

theorem discardLoop_pinned (d : Device) (core : Nat) (v : Capture) : (d.discardLoop core v).pinned core = d.pinned core := by
  funext c; simp [pinned, discardLoop]

/-- The discarding of a capture that no gang replays keeps all the others that one does. -/
theorem discardLoop_kept {d : Device} {core : Nat} {v : Capture} (hv : d.pinned core v = false) :
    (d.discardLoop core v).keptLoops core = d.keptLoops core := by
  unfold keptLoops
  rw [discardLoop_loops, discardLoop_pinned, List.filter_filter]
  refine List.filter_congr fun c _ => ?_
  by_cases e : c = v
  · subst e; simp [hv]
  · simp [e]

/-- What `makeRoom` leaves of the loop buffer of a core. -/
structure Roomed (d e : Device) (core need : Nat) : Prop where
  frame : e = { d with cores := e.cores }
  sublist : (e.core core).loops.Sublist (d.core core).loops
  kept : (d.keptLoops core).Sublist (e.core core).loops
  fits : slotsOf (e.core core).loops + need ≤ 64
  still : slotsOf (d.core core).loops + need ≤ 64 → (e.core core).loops = (d.core core).loops
  others : ∀ c, c ≠ core → e.core c = d.core c

theorem Roomed.of_fits {d : Device} {core need : Nat} (h : slotsOf (d.core core).loops + need ≤ 64) : Roomed d d core need :=
  ⟨rfl, List.Sublist.refl _, List.filter_sublist, h, fun _ => rfl, fun _ _ => rfl⟩

theorem Roomed.of_discard {d e : Device} {core need : Nat} {v : Capture} (hv : d.pinned core v = false)
    (hn : ¬ slotsOf (d.core core).loops + need ≤ 64) (h : Roomed (d.discardLoop core v) e core need) : Roomed d e core need where
  frame := by rw [h.frame]; rfl
  sublist := h.sublist.trans (by rw [discardLoop_loops]; exact List.filter_sublist)
  kept := by rw [← discardLoop_kept hv]; exact h.kept
  fits := h.fits
  still := fun fits => absurd fits hn
  others := fun c hc => (h.others c hc).trans (setCore_core_ne _ _ hc)

/-- Room is made by discarding captures that no gang replays, when those that gangs replay leave it (R72). -/
theorem makeRoom_roomed {d : Device} {core need fuel : Nat} (hl : (d.core core).loops.length ≤ fuel)
    (hk : slotsOf (d.keptLoops core) + need ≤ 64) : Roomed d (d.makeRoom core need fuel) core need := by
  induction fuel generalizing d with
  | zero =>
    have none_ : (d.core core).loops = [] := List.length_eq_zero_iff.mp (Nat.le_zero.mp hl)
    refine Roomed.of_fits ?_
    simpa [keptLoops, none_] using hk
  | succ fuel ih =>
    unfold makeRoom
    simp only [foldl_slots, Config.loopSlots]
    split
    · next fits => exact Roomed.of_fits fits
    · next full =>
      obtain ⟨hnone, hsome⟩ := foldl_choice (f := fun (best : Option Capture) c => match best with
          | none => some c
          | some b => if c.used < b.used then some c else some b) (fun _ => rfl)
        (fun a b => by dsimp only; split <;> simp) ((d.core core).loops.filter fun c => !d.pinned core c)
      split
      · next e =>
        have all : d.keptLoops core = (d.core core).loops := List.filter_eq_self.mpr fun c hc => by
          have := List.filter_eq_nil_iff.mp (hnone e) c hc
          simpa using this
        rw [all] at hk
        exact absurd hk full
      · next v e =>
        obtain ⟨hm, hv⟩ := List.mem_filter.mp (hsome v e)
        have hv : d.pinned core v = false := by simpa using hv
        refine Roomed.of_discard hv full (ih ?_ ?_)
        · rw [discardLoop_loops]
          have : ((d.core core).loops.filter fun c => c != v).length < (d.core core).loops.length :=
            List.length_filter_lt_length_iff_exists.mpr ⟨v, hm, by simp⟩
          omega
        · rwa [discardLoop_kept hv]

/-! ### The capture of a body (R72, R73) -/

section
variable {d e : Device} {core rk size n : Nat} {ctx : BitVec 12} {body : Word} {convoys : List (Word × List IWord)}

theorem capture_held (h : (d.capture? core rk body n).isSome = true) : d.capture core rk ctx size body n = .ok d := by
  rw [capture, if_pos h]

theorem capture_fails {f : Fail} (h : d.capture? core rk body n = none) (hb : d.fetchBody core ctx size n body = (e, .error f)) :
    d.capture core rk ctx size body n = .fail f := by
  simp [capture, h, hb]

theorem capture_full (h : d.capture? core rk body n = none) (hb : d.fetchBody core ctx size n body = (e, .ok convoys))
    (hk : 64 < slotsOf (e.keptLoops core) + n) : d.capture core rk ctx size body n = .full := by
  have tight : Config.loopSlots < slotsOf ((e.core core).loops.filter fun c => e.pinned core c) + n := hk
  simp [capture, h, hb, foldl_slots, tight]

theorem capture_brings (h : d.capture? core rk body n = none) (hb : d.fetchBody core ctx size n body = (e, .ok convoys))
    (hk : slotsOf (e.keptLoops core) + n ≤ 64) : d.capture core rk ctx size body n
      = .ok ((e.makeRoom core n (e.core core).loops.length).modCore core fun x =>
          { x with loops := { res := rk, body := body, n := n, convoys := convoys, used := 0 } :: x.loops }) := by
  have fits : ¬ Config.loopSlots < slotsOf ((e.core core).loops.filter fun c => e.pinned core c) + n := Nat.not_lt.mpr hk
  simp [capture, h, hb, foldl_slots, fits]

theorem capture_room (h : d.capture? core rk body n = none) (hb : d.fetchBody core ctx size n body = (e, .ok convoys))
    (hk : slotsOf (e.keptLoops core) + n ≤ 64) : ∃ e' l, d.capture core rk ctx size body n = .ok e'
      ∧ e' = { e with cores := e'.cores }
      ∧ (e'.core core).loops = { res := rk, body := body, n := n, convoys := convoys, used := 0 } :: l
      ∧ l.Sublist (e.core core).loops ∧ (e.keptLoops core).Sublist l ∧ slotsOf l + n ≤ 64
      ∧ (slotsOf (e.core core).loops + n ≤ 64 → l = (e.core core).loops) ∧ ∀ c, c ≠ core → e'.core c = e.core c := by
  obtain ⟨frame, sublist, kept, fits, still, others⟩ := makeRoom_roomed (Nat.le_refl _) hk
  refine ⟨_, _, capture_brings h hb hk, ?_, ?_, sublist, kept, fits, still, fun c hc => ?_⟩
  · rw [frame]; rfl
  · rw [modCore_core_same]
  · exact (setCore_core_ne _ _ hc).trans (others c hc)

end

end Device

end Sys2Proof.Machine
end

