-- ==== Sys2Proof/Proofs/LoopWords.lean ====
section
/-! PROOF. CAPT and REPLAY (R72 to R74, R78 to R80). -/

namespace Sys2Proof.Machine

section
variable {s t : State} {h : Hdr} {i : Instr} {u : Uses} {body : List Nat → State → State} {run : List Nat} {d e : Device} {f : Fail}
  {b : Word} {n : Nat}

theorem holdsOn_whole {w : WaitOn} (hs : s.Calm) (he : exec i s = wordOp h u (wholeGang body) s) (hu : u.plain = true)
    (hb : body (s.runners h) (s.counted h u) = t) (hf : t.iss.fails = []) (hh : t.iss.hold = some w) : HoldsOn s h i w :=
  ⟨t, exec_whole hs he hu hb, hf, hh⟩

/-! ### A body brought into the loop buffer (R72, R73) -/

theorem ensureCapture_ok (hc : s.dev.capture s.iss.core s.rk s.ctx s.gang.size b n = .ok e) :
    s.ensureCapture run b n = { s with dev := e } := by simp only [State.ensureCapture, hc]

theorem ensureCapture_fail (hn : run.Nodup) (hf : s.iss.fails = [])
    (hc : s.dev.capture s.iss.core s.rk s.ctx s.gang.size b n = .fail f) : s.ensureCapture run b n = s.failOn run f := by
  simp only [State.ensureCapture, hc]
  exact foldl_addFail_of_none f hn hf

theorem ensureCapture_full (hh : s.iss.hold = none) (hc : s.dev.capture s.iss.core s.rk s.ctx s.gang.size b n = .full) :
    s.ensureCapture run b n = { s with iss := { s.iss with hold := some .buffer } } := by
  simp [State.ensureCapture, hc, State.holdOn, hh]

/-! ### CAPT (R78) -/

section
variable {n1 : BitVec 6} {target : BitVec 18}

theorem capt_off (hs : s.Calm) (hoff : ∀ k ∈ s.active, s.begun.guard h k = false) :
    RunsInto s h (.capt h n1 target) s.begun.dev s.iss.target :=
  runsInto_whole (t := s.counted h {}) hs rfl rfl (by simp [runners_none hoff]) (counted_fails hs) (counted_hold hs) rfl counted_target

/-- The part of a CAPT on the gang, where its guard is true on some hart. -/
theorem capt_body (hon : ∃ k ∈ s.active, s.begun.guard h k = true) {t : State}
    (ht : (s.counted h {}).ensureCapture (s.runners h) (wordDisp s.begun.iss.addr target.toInt) (n1.toNat + 1) = t) :
    (if (s.runners h).isEmpty then s.counted h {}
      else (s.counted h {}).ensureCapture (s.runners h) (wordDisp (s.counted h {}).iss.addr target.toInt) (n1.toNat + 1)) = t := by
  rw [if_neg (by simpa using runners_ne_nil hon), counted_addr, ht]

theorem capt_ok (hs : s.Calm) (hon : ∃ k ∈ s.active, s.begun.guard h k = true)
    (hc : s.begun.dev.capture s.iss.core s.rk s.begun.ctx s.gang.size (wordDisp s.begun.iss.addr target.toInt) (n1.toNat + 1) = .ok e) :
    RunsInto s h (.capt h n1 target) e s.iss.target :=
  runsInto_whole (t := { s.counted h {} with dev := e }) hs rfl rfl (capt_body hon (ensureCapture_ok (by simpa using hc)))
    (counted_fails (u := {}) (h := h) hs) (counted_hold (u := {}) (h := h) hs) rfl (counted_target (u := {}) (h := h))

theorem capt_fails (hs : s.Calm) (hon : ∃ k ∈ s.active, s.begun.guard h k = true)
    (hc : s.begun.dev.capture s.iss.core s.rk s.begun.ctx s.gang.size (wordDisp s.begun.iss.addr target.toInt) (n1.toNat + 1) = .fail f) :
    FailsWith s h (.capt h n1 target) (s.failing h fun _ => some f) :=
  failsWith_whole hs rfl rfl (capt_body hon (ensureCapture_fail runners_nodup (counted_fails hs) (by simpa using hc)))
    (failing_const f).symm (counted_hold (u := {}) (h := h) hs)

theorem capt_waits (hs : s.Calm) (hon : ∃ k ∈ s.active, s.begun.guard h k = true)
    (hc : s.begun.dev.capture s.iss.core s.rk s.begun.ctx s.gang.size (wordDisp s.begun.iss.addr target.toInt) (n1.toNat + 1) = .full) :
    HoldsOn s h (.capt h n1 target) .buffer :=
  holdsOn_whole hs rfl rfl (capt_body hon (ensureCapture_full (counted_hold hs) (by simpa using hc)))
    (counted_fails (u := {}) (h := h) hs) rfl

end

/-! ### Where a REPLAY goes on (R74, R79, R80) -/

section
variable {ei rc : Word}

theorem replayStart_fresh (ha : ei.getLsbD 38 = false) (hn : 0 < n) :
    replayStart n ei rc = if 0 < (rc.extractLsb' 0 32).toNat then some (0, 0) else none := by
  have inside : ¬ n ≤ 0 := Nat.not_le.mpr hn
  simp only [replayStart, ha, Bool.false_eq_true, if_false, inside, decide_false, Bool.and_false]

theorem replayStart_over (ha : ei.getLsbD 38 = true) (hi : (rc.extractLsb' 0 32).toNat ≤ (ei.extractLsb' 0 32).toNat) :
    replayStart n ei rc = none := by
  have past : ¬ (ei.extractLsb' 0 32).toNat < (rc.extractLsb' 0 32).toNat := Nat.not_lt.mpr hi
  simp only [replayStart, ha, if_true, past, decide_false, Bool.false_and, Bool.false_eq_true, if_false]

theorem replayStart_within (ha : ei.getLsbD 38 = true) (hi : (ei.extractLsb' 0 32).toNat < (rc.extractLsb' 0 32).toNat)
    (hp : (ei.extractLsb' 32 6).toNat < n) :
    replayStart n ei rc = some ((ei.extractLsb' 0 32).toNat, (ei.extractLsb' 32 6).toNat) := by
  have inside : ¬ n ≤ (ei.extractLsb' 32 6).toNat := Nat.not_le.mpr hp
  simp only [replayStart, ha, if_true, hi, inside, decide_false, Bool.and_false, Bool.false_eq_true, if_false]

theorem replayStart_next (ha : ei.getLsbD 38 = true) (hi : (ei.extractLsb' 0 32).toNat < (rc.extractLsb' 0 32).toNat)
    (hp : n ≤ (ei.extractLsb' 32 6).toNat) :
    replayStart n ei rc = if (ei.extractLsb' 0 32).toNat + 1 < (rc.extractLsb' 0 32).toNat
      then some ((ei.extractLsb' 0 32).toNat + 1, 0) else none := by
  simp only [replayStart, ha, if_true, hi, hp, decide_true, Bool.and_self]

/-- A REPLAY goes on at an iteration below RC.COUNT. -/
theorem replayStart_lt {p : Nat × Nat} (h : replayStart n ei rc = some p) : p.1 < 2 ^ 32 := by
  have count := (rc.extractLsb' 0 32).isLt
  unfold replayStart at h
  grind

theorem eiAt_of_lt {p : Nat × Nat} (h : p.1 < 2 ^ 32) : eiAt p = BitVec.ofNat 64 (p.1 + p.2 * 2 ^ 32 + 2 ^ 38) := by
  rw [eiAt, Nat.mod_eq_of_lt h]

end

/-! ### REPLAY (R79, R80) -/

section
variable {k : Nat} {n1 : BitVec 6} {target : BitVec 18} {stride : Src}

/-- What a REPLAY reads: its stride. -/
def replayUses (stride : Src) : Uses := { rd := srcRegs stride }

theorem solo_runners (hs : s.Solo h k) : s.runners h = [k] := by
  rw [State.runners, hs.only]; simp [hs.on]

/-- The state in which a word has found the package `d`, with its threads as they were. -/
def State.found (s : State) (h : Hdr) (u : Uses) (d : Device) : State := { s.counted h u with dev := d }

theorem found_fails (hs : s.Calm) (h : Hdr) (u : Uses) (d : Device) : (s.found h u d).iss.fails = [] := counted_fails (u := u) (h := h) hs
theorem found_hold (hs : s.Calm) (h : Hdr) (u : Uses) (d : Device) : (s.found h u d).iss.hold = none := counted_hold (u := u) (h := h) hs
theorem found_rk : (s.found h u d).rk = s.rk := begun_rk s
theorem found_gang (hs : s.Runs) (hd : d.threads = s.begun.dev.threads) : (s.found h u d).gang = s.gang := by
  show (d.gang? s.begun.rk s.begun.iss.base).getD noGang = s.gang
  rw [Device.threads_gang hd, begun_rk, begun_base, begun_gang? hs]; rfl
theorem found_ctx (hd : d.threads = s.begun.dev.threads) : (s.found h u d).ctx = s.begun.ctx := by
  have res : (s.found h u d).res? = s.begun.res? := Device.threads_res hd s.begun.rk
  unfold State.ctx; rw [res]
theorem found_hart (hd : d.threads = s.begun.dev.threads) (k : Nat) : (s.found h u d).hart k = s.begun.hart k :=
  Device.threads_hart hd s.begun.rk k

theorem found_capture (hs : s.Runs) (hd : d.threads = s.begun.dev.threads) :
    (s.found h u d).dev.capture (s.found h u d).iss.core (s.found h u d).rk (s.found h u d).ctx (s.found h u d).gang.size b n
      = d.capture s.iss.core s.rk s.begun.ctx s.gang.size b n := by
  rw [found_gang hs hd, found_ctx hd, found_rk, show (s.found h u d).iss.core = s.iss.core from begun_core s]; rfl

theorem replay_target_fails (hs : s.Solo h k)
    (hc : s.begun.dev.targetCheck s.iss.core s.begun.ctx (wordDisp s.begun.iss.addr target.toInt) = (d, some f)) :
    FailsWith s h (.replay h n1 target stride) [(k, f)] := by
  have gang : banksOf (s.found h (replayUses stride) d).gang.gm = [k] := by
    rw [found_gang hs.toRuns (threads_of_targetCheck hc)]; exact hs.only
  refine failsWith_whole (t := (s.found h (replayUses stride) d).failAll f) hs.toCalm rfl rfl ?_ ?_ ?_
  · simp only [counted_dev, counted_core, counted_ctx, counted_addr, hc]; rfl
  · rw [failAll_of_none f (found_fails hs.toCalm ..), gang]; rfl
  · rw [failAll_of_none f (found_fails hs.toCalm ..)]; exact found_hold hs.toCalm h (replayUses stride) d

/-- A gang of one active hart that stands at a REPLAY with its body to be issued at a position. -/
def State.replaying (s : State) (k : Nat) (p : Nat × Nat) (a b : Word) (n : Nat) (stride : Src) : State :=
  let s := s.modHart k fun t => { t with ei := eiAt p }
  let s := s.modDev fun d => d.modCore s.iss.core fun c =>
    { c with loops := c.loops.map fun o => if o.res == s.rk && o.body == b && o.n == n then { o with used := d.now + 1 } else o }
  (s.modGang fun g => { g with replay := some { at_ := a, body := b, n := n, stride := stride } }).goto a
/-- The part of a REPLAY on one active hart, once its body is in the loop buffer: the gang goes on past it, or stands at it. -/
def State.replayed (s : State) (k : Nat) (a b : Word) (n : Nat) (stride : Src) : State :=
  match replayStart n (s.hart k).ei (s.hart k).rc with
  | none => s.modHart k fun t => { t with ei := 0 }
  | some p => s.replaying k p a b n stride

theorem replaying_dev (s : State) (k : Nat) (p : Nat × Nat) (a b : Word) (n : Nat) (stride : Src) :
    ∃ used : Core → Core, (s.replaying k p a b n stride).dev
      = ((s.dev.modHart s.rk k fun t => { t with ei := eiAt p }).modCore s.iss.core used).modGang s.rk s.iss.base fun g =>
          { g with replay := some { at_ := a, body := b, n := n, stride := stride } } := ⟨_, rfl⟩

theorem replaying_ei {p : Nat × Nat} {a : Word} : ((s.replaying k p a b n stride).hart k).ei = eiAt p := by
  obtain ⟨used, dev⟩ := replaying_dev s k p a b n stride
  show ((s.replaying k p a b n stride).dev.hart s.rk k).ei = _
  rw [dev, Device.modGang_hart, Device.modCore_hart, Device.modHart_hart_same]

theorem replaying_gang {p : Nat × Nat} {a : Word} {g : Gang} (hg : s.dev.gang? s.rk s.iss.base = some g) :
    (s.replaying k p a b n stride).dev.gang? s.rk s.iss.base
      = some { g with replay := some { at_ := a, body := b, n := n, stride := stride } } := by
  obtain ⟨used, dev⟩ := replaying_dev s k p a b n stride
  rw [dev, Device.modGang_gang_same, Device.modCore_gang, Device.modHart_gang, hg]; rfl

theorem exec_replay (hs : s.Solo h k) (hb : wordDisp s.begun.iss.addr target.toInt = b)
    (hc : s.begun.dev.targetCheck s.iss.core s.begun.ctx b = (d, none)) {t : State}
    (ht : (s.found h (replayUses stride) d).ensureCapture [k] b (n1.toNat + 1) = t) :
    exec (.replay h n1 target stride) s = .next (State.endWord (if !t.iss.fails.isEmpty || t.iss.hold.isSome then t
      else t.replayed k s.begun.iss.addr b (n1.toNat + 1) stride) h) := by
  refine exec_whole (u := replayUses stride) hs.toCalm rfl rfl ?_
  have made : State.ensureCapture { s.counted h (replayUses stride) with dev := d } [k] b (n1.toNat + 1) = t := ht
  simp only [counted_dev, counted_core, counted_ctx, counted_addr, hb, hc, solo_runners hs, made]
  split
  · rfl
  · unfold State.replayed
    cases replayStart (n1.toNat + 1) (t.hart k).ei (t.hart k).rc <;> rfl

theorem replay_body_fails (hs : s.Solo h k) (hb : wordDisp s.begun.iss.addr target.toInt = b)
    (hc : s.begun.dev.targetCheck s.iss.core s.begun.ctx b = (d, none))
    (hm : d.capture s.iss.core s.rk s.begun.ctx s.gang.size b (n1.toNat + 1) = .fail f) :
    FailsWith s h (.replay h n1 target stride) [(k, f)] := by
  have ends := exec_replay (stride := stride) hs hb hc (ensureCapture_fail (List.nodup_singleton k) (found_fails hs.toCalm ..)
    ((found_capture hs.toRuns (threads_of_targetCheck hc)).trans hm))
  rw [if_pos (by simp [State.failOn])] at ends
  exact ⟨_, ends, rfl, found_hold hs.toCalm h (replayUses stride) d⟩

theorem replay_waits (hs : s.Solo h k) (hb : wordDisp s.begun.iss.addr target.toInt = b)
    (hc : s.begun.dev.targetCheck s.iss.core s.begun.ctx b = (d, none))
    (hm : d.capture s.iss.core s.rk s.begun.ctx s.gang.size b (n1.toNat + 1) = .full) :
    HoldsOn s h (.replay h n1 target stride) .buffer := by
  have ends := exec_replay (stride := stride) hs hb hc (ensureCapture_full (found_hold hs.toCalm ..)
    ((found_capture hs.toRuns (threads_of_targetCheck hc)).trans hm))
  rw [if_pos (by simp)] at ends
  exact ⟨_, ends, found_fails hs.toCalm h (replayUses stride) d, rfl⟩

theorem exec_replay_ok (hs : s.Solo h k) (hb : wordDisp s.begun.iss.addr target.toInt = b)
    (hc : s.begun.dev.targetCheck s.iss.core s.begun.ctx b = (d, none))
    (hm : d.capture s.iss.core s.rk s.begun.ctx s.gang.size b (n1.toNat + 1) = .ok e) :
    exec (.replay h n1 target stride) s
      = .next (((s.found h (replayUses stride) e).replayed k s.begun.iss.addr b (n1.toNat + 1) stride).endWord h) := by
  have ends := exec_replay (stride := stride) hs hb hc (ensureCapture_ok
    ((found_capture hs.toRuns (threads_of_targetCheck hc)).trans hm))
  have open_ : { s.found h (replayUses stride) d with dev := e } = s.found h (replayUses stride) e := rfl
  rwa [open_, found_fails hs.toCalm .., found_hold hs.toCalm .., if_neg (by simp)] at ends

theorem threads_of_passed (hc : s.begun.dev.targetCheck s.iss.core s.begun.ctx b = (d, none))
    (hm : d.capture s.iss.core s.rk s.begun.ctx s.gang.size b n = .ok e) : e.threads = s.begun.dev.threads :=
  (Device.capture_threads hm).trans (threads_of_targetCheck hc)

theorem replay_ends (hs : s.Solo h k) (hb : wordDisp s.begun.iss.addr target.toInt = b)
    (hc : s.begun.dev.targetCheck s.iss.core s.begun.ctx b = (d, none))
    (hm : d.capture s.iss.core s.rk s.begun.ctx s.gang.size b (n1.toNat + 1) = .ok e)
    (hr : replayStart (n1.toNat + 1) (s.begun.hart k).ei (s.begun.hart k).rc = none) :
    RunsInto s h (.replay h n1 target stride) (e.modHart s.rk k fun t => { t with ei := 0 }) s.iss.target := by
  have done : (s.found h (replayUses stride) e).replayed k s.begun.iss.addr b (n1.toNat + 1) stride
      = (s.found h (replayUses stride) e).modHart k fun t => { t with ei := 0 } := by
    rw [State.replayed, found_hart (threads_of_passed hc hm), hr]
  have ends := exec_replay_ok (stride := stride) hs hb hc hm
  rw [done] at ends
  refine ⟨_, ⟨ends, found_fails hs.toCalm h (replayUses stride) e, found_hold hs.toCalm h (replayUses stride) e⟩, ?_,
    begun_target s⟩
  rw [State.modHart_dev, found_rk]; rfl

theorem replay_goes (hs : s.Solo h k) (hb : wordDisp s.begun.iss.addr target.toInt = b)
    (hc : s.begun.dev.targetCheck s.iss.core s.begun.ctx b = (d, none))
    (hm : d.capture s.iss.core s.rk s.begun.ctx s.gang.size b (n1.toNat + 1) = .ok e) {p : Nat × Nat}
    (hr : replayStart (n1.toNat + 1) (s.begun.hart k).ei (s.begun.hart k).rc = some p) :
    ∃ u g, RunsTo s h (.replay h n1 target stride) u
      ∧ (u.hart k).ei = BitVec.ofNat 64 (p.1 + p.2 * 2 ^ 32 + 2 ^ 38) ∧ u.iss.target = some s.begun.iss.addr
      ∧ u.dev.gang? s.rk s.iss.base = some g
      ∧ g.replay = some { at_ := s.begun.iss.addr, body := b, n := n1.toNat + 1, stride := stride } := by
  have threads := threads_of_passed hc hm
  have gang : e.gang? s.rk s.iss.base = some s.gang := by rw [Device.threads_gang threads, begun_gang? hs.toRuns]
  have stands : (s.found h (replayUses stride) e).replayed k s.begun.iss.addr b (n1.toNat + 1) stride
      = (s.found h (replayUses stride) e).replaying k p s.begun.iss.addr b (n1.toNat + 1) stride := by
    rw [State.replayed, found_hart threads, hr]
  have ends := exec_replay_ok (stride := stride) hs hb hc hm
  rw [stands] at ends
  have found : (s.found h (replayUses stride) e).dev.gang? (s.found h (replayUses stride) e).rk (s.found h (replayUses stride) e).iss.base
      = some s.gang := by
    rw [found_rk, show (s.found h (replayUses stride) e).iss.base = s.iss.base from begun_base s]; exact gang
  have goes := replaying_gang (k := k) (b := b) (n := n1.toNat + 1) (stride := stride) (p := p) (a := s.begun.iss.addr) found
  rw [found_rk, show (s.found h (replayUses stride) e).iss.base = s.iss.base from begun_base s] at goes
  exact ⟨_, _, ⟨ends, found_fails hs.toCalm h (replayUses stride) e, found_hold hs.toCalm h (replayUses stride) e⟩,
    replaying_ei.trans (eiAt_of_lt (replayStart_lt hr)), rfl, goes, rfl⟩

end

end

end Sys2Proof.Machine

open Sys2Proof Sys2Proof.Machine in
/-- Settles O26: the room that `makeRoom` makes, and the position at which `replayStart` has a REPLAY go on. -/
theorem captureAndReplay : Obligations.CaptureAndReplay := by
  refine ⟨fun d core rk size n ctx body => ⟨Device.capture_held, fun h => ⟨fun e f hb => Device.capture_fails h hb, fun e convoys hb =>
    ⟨Device.capture_full h hb, Device.capture_room h hb⟩⟩⟩, fun s h n1 body hs => ⟨capt_off hs, fun hon =>
    ⟨fun e he => capt_ok hs hon he, fun f hf => capt_fails hs hon hf, capt_waits hs hon⟩⟩, ?_⟩
  intro s h k n1 body stride d hs i b n t count iter pos
  refine ⟨fun f hc => replay_target_fails hs hc, fun hc => ⟨fun f hm => replay_body_fails hs rfl hc hm, replay_waits hs rfl hc,
    fun e hm => ?_⟩⟩
  have ends := replay_ends (stride := stride) hs rfl hc hm
  have goes := fun (p : Nat × Nat) => replay_goes (stride := stride) (p := p) hs rfl hc hm
  refine ⟨fun ha => ⟨fun h0 => ends ?_, fun h0 => goes _ ?_⟩, fun ha => ⟨fun hi => ends (replayStart_over ha hi),
    fun hi hp => goes _ (replayStart_within ha hi hp), fun hi hp => goes _ ?_, fun hi hp => ends ?_⟩⟩
  · exact (replayStart_fresh ha n1.toNat.succ_pos).trans (if_neg (Nat.not_lt.mpr (Nat.le_of_eq h0)))
  · exact (replayStart_fresh ha n1.toNat.succ_pos).trans (if_pos h0)
  · exact (replayStart_next ha (Nat.lt_of_succ_lt hi) hp).trans (if_pos hi)
  · exact (replayStart_next ha (Nat.lt_of_succ_le (Nat.le_of_eq hi)) hp).trans (if_neg (Nat.not_lt.mpr (Nat.le_of_eq hi.symm)))
end

