-- ==== Sys2Proof/Proofs/RestingBanks.lean ====
section
/-! PROOF. A bank with nothing queued stays so along the operations on the array (R137, R286). -/

namespace Sys2Proof.Machine
namespace Device

/-! ### A bank with nothing queued, on a core without matrix operations -/

/-- Nothing is queued on a bank, and no matrix operation on its core. -/
structure Resting (d : Device) (c b : Nat) : Prop where
  bank : ∀ x, lookupK (bankKey c b) d.banks = some x → x.rowQ = [] ∧ x.segs = []
  core : ∀ x, lookupK c d.cores = some x → x.mx = []

variable {d : Device} {c b : Nat}

/-- It is a matter of two tables. -/
theorem Resting.congr {e : Device} (h : d.Resting c b) (hb : e.banks = d.banks) (hc : e.cores = d.cores) : e.Resting c b :=
  ⟨by rw [hb]; exact h.bank, by rw [hc]; exact h.core⟩

theorem Resting.queues (h : d.Resting c b) {c' b' : Nat} (e : bankKey c' b' = bankKey c b) :
    (d.bank c' b').rowQ = [] ∧ (d.bank c' b').segs = [] := by
  unfold Device.bank lookupD
  rw [e]
  cases l : lookupK (bankKey c b) d.banks with
  | none => exact ⟨rfl, rfl⟩
  | some x => exact h.bank x l
theorem Resting.rowQ (h : d.Resting c b) : (d.bank c b).rowQ = [] := (h.queues rfl).1
theorem Resting.segs (h : d.Resting c b) : (d.bank c b).segs = [] := (h.queues rfl).2
theorem Resting.mx (h : d.Resting c b) : (d.core c).mx = [] := by
  unfold Device.core lookupD
  cases l : lookupK c d.cores with
  | none => rfl
  | some x => exact h.core x l

/-- A bank that differs from one with nothing queued. -/
theorem Resting.of_other {c' b' : Nat} (h : d.Resting c b) (hk : bankKey c' b' ≠ bankKey c b) (f : Bank → Bank) :
    (d.modBank c' b' f).Resting c b := by
  refine ⟨fun x hx => h.bank x ?_, h.core⟩
  rw [← hx]; exact (lookupK_insertK_ne _ _ hk.symm).symm

theorem Resting.modBank (h : d.Resting c b) (c' b' : Nat) {f : Bank → Bank}
    (hf : ∀ x : Bank, x.rowQ = [] → x.segs = [] → (f x).rowQ = [] ∧ (f x).segs = []) : (d.modBank c' b' f).Resting c b := by
  by_cases hk : bankKey c' b' = bankKey c b
  · refine ⟨fun x hx => ?_, h.core⟩
    have same : lookupK (bankKey c b) (d.modBank c' b' f).banks = some (f (d.bank c' b')) := by
      rw [← hk]; exact lookupK_insertK_same _ _ _
    obtain ⟨hr, hs⟩ := h.queues hk
    rw [same] at hx
    cases hx
    exact hf _ hr hs
  · exact h.of_other hk f

theorem Resting.modGroup (h : d.Resting c b) (c' b' : Nat) (g : Lat) (f : Group → Group) : (d.modGroup c' b' g f).Resting c b :=
  h.modBank c' b' fun _ hr hs => ⟨hr, hs⟩

theorem Resting.modCore (h : d.Resting c b) (c' : Nat) {f : Core → Core} (hf : ∀ x : Core, (f x).mx = x.mx) :
    (d.modCore c' f).Resting c b := by
  refine ⟨h.bank, fun x hx => ?_⟩
  by_cases hk : c = c'
  · subst hk
    have same : lookupK c (d.modCore c f).cores = some (f (d.core c)) := lookupK_insertK_same _ _ _
    rw [same] at hx
    cases hx
    exact (hf _).trans h.mx
  · exact h.core x (by rw [← hx]; exact (lookupK_insertK_ne _ _ hk).symm)

theorem Resting.foldl {α : Type} {f : Device → α → Device} (hf : ∀ d a, d.Resting c b → (f d a).Resting c b) (l : List α)
    (h : d.Resting c b) : (l.foldl f d).Resting c b := by
  induction l generalizing d with
  | nil => exact h
  | cons a l ih => exact ih (hf d a h)

/-! ### Operations on the array keep a bank with nothing queued as it is -/

theorem Resting.copyLost (h : d.Resting c b) (c' b' : Nat) (g : Lat) : (d.copyLost c' b' g).Resting c b := by
  unfold Device.copyLost
  dsimp only
  split
  · exact h.modCore c' fun _ => rfl
  · exact h
theorem Resting.charge (h : d.Resting c b) (c' n : Nat) : (d.charge c' n).Resting c b := h.modCore c' fun _ => rfl
theorem Resting.modSvc (h : d.Resting c b) (c' b' : Nat) (g : Lat) (f : SvcCount → SvcCount) : (d.modSvc c' b' g f).Resting c b :=
  ⟨h.bank, h.core⟩
theorem Resting.performPend (h : d.Resting c b) (c' b' : Nat) (g : Lat) : (d.performPend c' b' g).Resting c b := by
  unfold Device.performPend
  split
  · exact h
  · refine Resting.modGroup (Resting.modBank ?_ _ _ ?_) ..
    · exact h.congr rfl rfl
    · exact fun _ hr hs => ⟨hr, hs⟩
theorem Resting.closeSense (h : d.Resting c b) (c' b' : Nat) (g : Lat) (t : Nat) : (d.closeSense c' b' g t).Resting c b :=
  (h.performPend ..).modGroup ..
theorem Resting.ownClose (h : d.Resting c b) (c' b' : Nat) (g : Lat) : (d.ownClose c' b' g).Resting c b := by
  unfold Device.ownClose
  split
  · exact h.closeSense ..
  · exact h
theorem Resting.insertRef (h : d.Resting c b) (c' b' : Nat) (g : Lat) : (d.insertRef c' b' g).Resting c b := by
  unfold Device.insertRef
  split
  · exact h.ownClose ..
  · exact (h.modGroup ..).charge ..
theorem Resting.forceRef (h : d.Resting c b) (c' b' : Nat) (g : Lat) : (d.forceRef c' b' g).Resting c b := by
  unfold Device.forceRef
  dsimp only
  split
  · exact h.insertRef ..
  · exact ((h.modGroup ..).modSvc ..).insertRef ..
theorem Resting.forceAll (h : d.Resting c b) (c' b' : Nat) (g : Lat) (n : Nat) : (d.forceAll c' b' g n).Resting c b := by
  induction n generalizing d with
  | zero => exact h
  | succ n ih =>
    unfold Device.forceAll
    split
    · exact ih (h.forceRef ..)
    · exact h
theorem Resting.sensedRow (h : d.Resting c b) (c' b' : Nat) (g : Lat) (key : Nat) : (d.sensedRow c' b' g key).Resting c b := by
  unfold Device.sensedRow
  dsimp only
  split
  · exact h.modSvc ..
  · exact (h.modSvc ..).modSvc ..
theorem Resting.activate (h : d.Resting c b) (c' b' : Nat) (g : Lat) (row t : Nat) (tag : BitVec 4) (src : BitVec 9) :
    (d.activate c' b' g row t tag src).Resting c b := by
  have applied : (d.applyRow c' b' (rowKey c' b' g.val row)).Resting c b := h.modBank c' b' fun _ hr hs => ⟨hr, hs⟩
  unfold Device.activate
  exact ((applied.sensedRow ..).copyLost ..).modGroup ..
theorem Resting.startRow (h : d.Resting c b) (c' b' : Nat) (r : RowCmd) (t : Nat) : (d.startRow c' b' r t).Resting c b := by
  have started : (if r.op.slot then d.dieStart c' b' t else d).Resting c b := by
    split
    · exact ⟨h.bank, h.core⟩
    · exact h
  unfold Device.startRow
  generalize (if r.op.slot then d.dieStart c' b' t else d) = e at started
  have closed : (if (e.group c' b' r.g).phy then e.closeSense c' b' r.g t else e).Resting c b := by
    split
    · exact started.closeSense ..
    · exact started
  dsimp only
  split
  · exact started.activate ..
  · exact (started.activate ..).charge ..
  · exact (started.copyLost ..).modGroup ..
  · exact started.modGroup ..
  · exact started.modGroup ..
  · exact (started.modGroup ..).charge ..
  · exact closed
  · exact closed
  · exact started.modGroup ..
theorem Resting.release (h : d.Resting c b) (c' b' : Nat) (g : Lat) : (d.release c' b' g).Resting c b := by
  unfold Device.release
  split
  · next p first =>
    have other : bankKey c' b' ≠ bankKey c b := by
      intro e
      rw [Device.firstOn, (h.queues e).1] at first
      cases first
    split
    · exact (((h.startRow ..).of_other other _).ownClose ..).of_other other _
    · exact h.ownClose ..
  · exact h.ownClose ..
theorem Resting.colUse (h : d.Resting c b) (c' b' : Nat) (g : Lat) (key cls : Nat) : (d.colUse c' b' g key cls).Resting c b := by
  have ready := (h.forceAll c' b' g 24).release c' b' g
  unfold Device.colUse
  generalize (d.forceAll c' b' g 24).release c' b' g = e at ready
  have used : ∀ f, ((e.sensed c' b' g key).modGroup c' b' g f).Resting c b := fun f =>
    (Resting.congr (e := e.sensed c' b' g key) ready rfl rfl).modGroup c' b' g f
  dsimp only
  split <;> split
  · exact ready
  · exact used _
  · exact ready
  · exact used _
theorem Resting.releaseFor (h : d.Resting c b) (key cls : Nat) : (d.releaseFor key cls).Resting c b := by
  unfold Device.releaseFor
  split
  · exact h.colUse ..
  · exact h
theorem Resting.wqClose (h : d.Resting c b) (key : Nat) : (d.wqClose key).Resting c b := by
  unfold Device.wqClose
  split
  · exact h.modBank _ _ fun _ hr hs => ⟨hr, hs⟩
  · exact h
theorem Resting.arrWrite (h : d.Resting c b) (key n v : Nat) (bad : Bool) : (d.arrWrite key n v bad).Resting c b := h.congr rfl rfl
theorem Resting.recallLine (h : d.Resting c b) (line : Nat) : (d.recallLine line).Resting c b := by
  have clean : (d.cleanHome line).Resting c b := by
    unfold Device.cleanHome
    split
    · exact h
    · dsimp only
      split
      · exact h.releaseFor ..
      · exact ((h.releaseFor (64 * line) 4).wqClose (64 * line)).congr rfl rfl
  unfold Device.recallLine
  split
  · exact clean.congr rfl rfl
  · exact h
theorem Resting.bankWrite (h : d.Resting c b) (key n v : Nat) (bad : Bool) : (d.bankWrite key n v bad).Resting c b := by
  have ready := (h.releaseFor key 4).wqClose key
  unfold Device.bankWrite
  dsimp only
  split
  · exact ready.congr rfl rfl
  · exact (ready.recallLine (key / 64)).congr rfl rfl
theorem Resting.colWrite (h : d.Resting c b) (st : Stor) (n v : Nat) (bad : Bool) : (d.colWrite st n v bad).Resting c b := by
  cases st with
  | dram key => exact h.bankWrite ..
  | vault _ | nothing | dropped _ => exact h.congr rfl rfl
theorem Resting.colRead (h : d.Resting c b) (st : Stor) (n : Nat) : (d.colRead st n).1.Resting c b := by
  cases st with
  | dram key => exact h.releaseFor ..
  | vault _ | nothing | dropped _ => exact h.congr rfl rfl

end Device

end Sys2Proof.Machine
end

