-- ==== Sys2Proof/Proofs/Drains.lean ====
section
/-! PROOF. What the acceptance of reductions leaves of gangs, harts and banks (R286, R287, R296). -/

namespace Sys2Proof.Machine
namespace Device

/-! ### What time and the ports leave of gangs and harts -/

/-- The gangs are as before but for watchdog traps, and the harts take part in the same barriers and have the same traps of engines. -/
structure Serves (d e : Device) : Prop where
  gang : ∀ rk b g, d.gang? rk b = some g → ∃ w, e.gang? rk b = some { g with wdTrap := w }
  bars : ∀ rk k, (e.hart rk k).bars = (d.hart rk k).bars
  engTraps : ∀ rk k, (e.hart rk k).engTraps = (d.hart rk k).engTraps

theorem Serves.trans {d e f : Device} (a : Serves d e) (b : Serves e f) : Serves d f where
  gang rk k g hg := by
    obtain ⟨w, hw⟩ := a.gang rk k g hg
    obtain ⟨v, hv⟩ := b.gang rk k _ hw
    exact ⟨v, hv⟩
  bars rk k := (b.bars rk k).trans (a.bars rk k)
  engTraps rk k := (b.engTraps rk k).trans (a.engTraps rk k)

theorem Serves.of_threads {d e : Device} (h : e.threads = d.threads) : Serves d e where
  gang rk b g hg := ⟨g.wdTrap, by rw [threads_gang h, hg]⟩
  bars rk k := by rw [threads_hart h]
  engTraps rk k := by rw [threads_hart h]

theorem Serves.refl (d : Device) : Serves d d := of_threads rfl

theorem hartKey_inj_right {rk k j : Nat} : hartKey rk k = hartKey rk j ↔ k = j := by unfold hartKey; omega

/-- A hart changed in what it keeps neither of its barriers nor of the traps of engines. -/
theorem Serves.modHart (d : Device) (rk k : Nat) {f : Hart → Hart} (hb : ∀ t, (f t).bars = t.bars)
    (he : ∀ t, (f t).engTraps = t.engTraps) : Serves d (d.modHart rk k f) := by
  have harts : ∀ rk' k', (d.modHart rk k f).hart rk' k' = d.hart rk' k' ∨ (d.modHart rk k f).hart rk' k' = f (d.hart rk' k') := by
    intro rk' k'
    simp only [Device.modHart, setHart, hart, lookupD_insertK]
    split
    · next e => rw [e]; exact .inr rfl
    · exact .inl rfl
  refine ⟨fun _ _ g hg => ⟨g.wdTrap, hg⟩, fun rk' k' => ?_, fun rk' k' => ?_⟩
  · rcases harts rk' k' with e | e <;> rw [e]
    exact hb _
  · rcases harts rk' k' with e | e <;> rw [e]
    exact he _

theorem Serves.advanceTo (d : Device) (t : Nat) : Serves d (d.advanceTo t) := by
  unfold Device.advanceTo
  split
  · exact refl d
  · have harts : (d.elapse (t - d.now)).harts = d.harts := by unfold elapse; rw [wdExpire_frame]
    refine ⟨fun rk b g hg => ?_, fun rk k => ?_, fun rk k => ?_⟩
    · unfold elapse
      refine foldl_wdExpire_gang ?_ _
      exact hg
    · rw [hart, hart, harts]
    · rw [hart, hart, harts]

theorem Resting.advanceTo {d : Device} {c b : Nat} (h : d.Resting c b) (t : Nat) : (d.advanceTo t).Resting c b := by
  unfold Device.advanceTo
  split
  · exact h
  · have tables : (d.elapse (t - d.now)).banks = d.banks ∧ (d.elapse (t - d.now)).cores = d.cores := by
      unfold elapse; rw [wdExpire_frame]; exact ⟨rfl, rfl⟩
    exact h.congr tables.1 tables.2

/-! ### Operations at a bank (R286 to R290) leave the threads alone -/

section
variable (d : Device)

@[simp] theorem bankWrite_threads (key n v : Nat) (bad : Bool) : (d.bankWrite key n v bad).threads = d.threads := by
  unfold bankWrite; dsimp only; split <;> simp
@[simp] theorem colWrite_threads (st : Stor) (n v : Nat) (bad : Bool) : (d.colWrite st n v bad).threads = d.threads := by
  cases st with
  | dram key => exact bankWrite_threads ..
  | vault _ | nothing | dropped _ => rfl
@[simp] theorem wqFresh_threads (st : Stor) : (d.wqFresh st).threads = d.threads := by
  unfold wqFresh
  split
  · split <;> simp
  · rfl
@[simp] theorem wqEnter_threads (st : Stor) (red : Option (AOp × RedElt)) (rank : Nat) :
    (d.wqEnter st red rank).threads = d.threads := by
  unfold wqEnter; split
  · exact wqFresh_threads ..
  · rfl
@[simp] theorem atomicAt_threads (st : Stor) (n : Nat) (f : Nat → Nat) : (d.atomicAt st n f).1.threads = d.threads := by
  unfold atomicAt
  split
  · dsimp only; split <;> simp
  · dsimp only; split <;> simp
@[simp] theorem redOne_threads (op : AOp) (e : RedElt) (p : Nat × Nat) : (redOne op e d p).threads = d.threads := by
  have done := atomicAt_threads d (d.stor p.1) e.bytes fun v => e.apply op v p.2
  unfold redOne
  generalize d.atomicAt (d.stor p.1) e.bytes (fun v => e.apply op v p.2) = r at done
  dsimp only
  split <;> split <;> exact done
@[simp] theorem ownWrite_threads (rk bank : Nat) (st : Stor) : (d.ownWrite rk bank st).threads = d.threads := by
  unfold ownWrite
  split
  · split <;> split <;> simp
  · rfl
@[simp] theorem wqSpace_threads (st : Stor) : (d.wqSpace st).threads = d.threads := by
  unfold wqSpace; split <;> rfl

end

/-! ### They leave a bank with nothing queued as it is -/

section
variable {d : Device} {c b : Nat}

theorem Resting.wqFresh (h : d.Resting c b) (st : Stor) : (d.wqFresh st).Resting c b := by
  unfold Device.wqFresh
  split
  · split
    · exact (h.wqClose ..).arrWrite ..
    · exact h
  · exact h
theorem Resting.wqEnter (h : d.Resting c b) (st : Stor) (red : Option (AOp × RedElt)) (rank : Nat) :
    (d.wqEnter st red rank).Resting c b := by
  unfold Device.wqEnter
  split
  · exact (h.wqFresh _).modBank _ _ fun _ hr hs => ⟨hr, hs⟩
  · exact h
theorem Resting.atomicAt (h : d.Resting c b) (st : Stor) (n : Nat) (f : Nat → Nat) : (d.atomicAt st n f).1.Resting c b := by
  unfold Device.atomicAt
  split
  · next key =>
    have ready : ((d.wqFresh (.dram key)).dropLine (key / 64)).Resting c b := (h.wqFresh _).congr rfl rfl
    dsimp only
    split
    · exact ready
    · exact ready.arrWrite ..
  · dsimp only
    split
    · exact h.colRead ..
    · exact (h.colRead ..).colWrite ..
theorem Resting.redOne (h : d.Resting c b) (op : AOp) (e : RedElt) (p : Nat × Nat) : (Device.redOne op e d p).Resting c b := by
  have done := h.atomicAt (d.stor p.1) e.bytes fun v => e.apply op v p.2
  unfold Device.redOne
  generalize d.atomicAt (d.stor p.1) e.bytes (fun v => e.apply op v p.2) = r at done
  dsimp only
  split <;> split <;> exact ⟨done.bank, done.core⟩
theorem Resting.ownWrite (h : d.Resting c b) (rk bank : Nat) (st : Stor) : (d.ownWrite rk bank st).Resting c b := by
  have either : ∀ (p : Prop) [Decidable p] key, (if p then d.releaseFor key else d).Resting c b := by
    intro p _ key
    split
    · exact h.releaseFor ..
    · exact h
  unfold Device.ownWrite
  split
  · exact either ..
  · exact h
theorem Resting.wqSpace (h : d.Resting c b) (st : Stor) : (d.wqSpace st).Resting c b := by
  unfold Device.wqSpace
  split
  · exact h.modBank _ _ fun _ hr hs => ⟨hr, hs⟩
  · exact h
theorem Resting.redCounted (h : d.Resting c b) (rk bank : Nat) : (d.redCounted rk bank).Resting c b := by
  unfold Device.redCounted
  split
  · exact h
  · dsimp only
    split <;> exact h.congr rfl rfl

end

/-! ### Reductions accepted (R286, R296) -/

theorem Serves.setRes (d : Device) (rk : Nat) (r : Residence) : Serves d (d.setRes rk r) :=
  ⟨fun _ _ g hg => ⟨g.wdTrap, hg⟩, fun _ _ => rfl, fun _ _ => rfl⟩

theorem Serves.redCounted (d : Device) (rk bank : Nat) : Serves d (d.redCounted rk bank) := by
  unfold Device.redCounted
  split
  · exact refl d
  · dsimp only
    split
    · exact (Serves.setRes ..).trans (Serves.modHart _ rk bank (fun _ => rfl) fun _ => rfl)
    · exact Serves.modHart _ rk bank (fun _ => rfl) fun _ => rfl

/-- What accepting reductions leaves: the gangs and harts, and every bank with nothing queued. -/
def Drains (d e : Device) : Prop := Serves d e ∧ ∀ c b, d.Resting c b → e.Resting c b

theorem Drains.refl (d : Device) : Drains d d := ⟨Serves.refl d, fun _ _ h => h⟩
theorem Drains.trans {d e f : Device} (a : Drains d e) (b : Drains e f) : Drains d f :=
  ⟨a.1.trans b.1, fun c k h => b.2 c k (a.2 c k h)⟩
theorem Drains.of_threads {d e : Device} (h : e.threads = d.threads) (hr : ∀ c b, d.Resting c b → e.Resting c b) : Drains d e :=
  ⟨Serves.of_threads h, hr⟩

theorem redAccept_drains (d : Device) (q : RedReq) : Drains d (d.redAccept q) := by
  have counted : ∀ e : Device, Drains e (e.redCounted q.res q.bank) := fun e => ⟨Serves.redCounted .., fun _ _ h => h.redCounted ..⟩
  have entered : ∀ st, Drains d ((d.ownWrite q.res q.bank st).wqEnter st (redKind q) q.rank) := fun st =>
    Drains.of_threads (by simp) fun _ _ h => (h.ownWrite ..).wqEnter ..
  have applied : ∀ (l : List (Nat × Nat)) (e : Device), Drains e (l.foldl (fun d p =>
      if q.atomic then (d.atomicAt (d.stor p.1) q.elt.bytes fun v => q.elt.apply q.op v p.2).1 else redOne q.op q.elt d p) e) := by
    intro l e
    refine Drains.of_threads (foldl_threads (fun d p => ?_) l e) fun _ _ h => h.foldl (fun d p hd => ?_) l
    · split <;> simp
    · split
      · exact hd.atomicAt ..
      · exact hd.redOne ..
  unfold redAccept
  dsimp only
  split
  · exact (Drains.of_threads rfl fun _ _ h => h.congr rfl rfl : Drains d d.setLost).trans (counted _)
  · exact ((entered _).trans (applied ..)).trans (counted _)

theorem portQ_drains (d : Device) (l : List RedReq) : Drains d { d with portQ := l } :=
  Drains.of_threads rfl fun _ _ h => ⟨h.bank, h.core⟩

theorem wqSpace_drains (d : Device) (st : Stor) : Drains d (d.wqSpace st) :=
  Drains.of_threads (wqSpace_threads ..) fun _ _ h => h.wqSpace st

theorem redCome_drains (d : Device) (k : Nat) : Drains d (d.redCome k) := by
  have later : ∀ t, Drains d (d.advanceTo t) := fun t => ⟨Serves.advanceTo .., fun _ _ h => h.advanceTo ..⟩
  unfold redCome
  split
  · exact Drains.refl d
  · split
    · exact Drains.refl d
    · dsimp only
      split
      · exact (later _).trans (portQ_drains ..)
      · exact portQ_drains ..

theorem drainSome_drains (d : Device) (rk bank most n : Nat) : Drains d (d.drainSome rk bank most n) := by
  induction n generalizing d with
  | zero => exact Drains.refl d
  | succ n ih =>
    unfold drainSome
    split
    · exact Drains.refl d
    · split
      · exact Drains.refl d
      · next k _ =>
        dsimp only
        split
        · exact redCome_drains d k
        · next i q _ =>
          exact (((redCome_drains d k).trans (portQ_drains ..)).trans (wqSpace_drains ..)).trans ((redAccept_drains ..).trans (ih _))

theorem drainReds_drains (d : Device) (rk bank most : Nat) : Drains d (d.drainReds rk bank most) := drainSome_drains ..

end Device

end Sys2Proof.Machine
end

