-- ==== Sys2Proof/Proofs/EndedBanks.lean ====
section
/-! PROOF. The bank of a hart that ends (R81, R145). -/

namespace Sys2Proof.Machine
namespace Device

/-! ### The bank of a hart that ends (R81, R145) -/

theorem Resting.of_queues {d : Device} {c b : Nat} (hr : (d.bank c b).rowQ = []) (hs : (d.bank c b).segs = [])
    (hm : (d.core c).mx = []) : d.Resting c b := by
  refine ⟨fun x hx => ?_, fun x hx => ?_⟩
  · have same : d.bank c b = x := by unfold Device.bank lookupD; rw [hx]; rfl
    exact ⟨same ▸ hr, same ▸ hs⟩
  · have same : d.core c = x := by unfold Device.core lookupD; rw [hx]; rfl
    exact same ▸ hm

/-- Every group of a bank is free, and every latch of it invalid. -/
def Shut (d : Device) (c b : Nat) : Prop := ∀ q, (d.group c b q).gs = .free ∧ (d.latch c b q).valid = false

section
variable (d : Device) {c b b' : Nat} (x : b < 16) (y : b' < 16) (hne : b' ≠ b)
include x y hne

theorem modBank_bank_ne (f : Bank → Bank) : (d.modBank c b f).bank c b' = d.bank c b' := by
  rw [modBank, setBank_bank d x y, if_neg fun e => hne e.2]
theorem ownClose_bank_ne (g : Lat) : (d.ownClose c b g).bank c b' = d.bank c b' := by
  unfold ownClose
  split
  · unfold closeSense
    rw [modGroup, modBank_bank_ne _ x y hne]
    unfold performPend
    split
    · rfl
    · dsimp only
      rw [modGroup, modBank_bank_ne _ x y hne, modBank_bank_ne _ x y hne]
      rfl
  · rfl
theorem closeBank_bank_ne : (d.closeBank c b).bank c b' = d.bank c b' := by
  have fold : ∀ (l : List Lat) (e : Device), (l.foldl (fun d g => (d.ownClose c b g).modGroup c b g fun x => { x with gs := .free }) e).bank
      c b' = e.bank c b' := by
    intro l
    induction l with
    | nil => exact fun _ => rfl
    | cons g l ih => intro e; rw [List.foldl_cons, ih, modGroup, modBank_bank_ne _ x y hne, ownClose_bank_ne _ x y hne]
  rw [closeBank, fold, modBank_bank_ne _ x y hne]

end

theorem modGroup_gs {d : Device} {c b : Nat} {g q : Lat} {f : Group → Group} (hf : ∀ x, (f x).gs = x.gs) :
    ((d.modGroup c b g f).group c b q).gs = (d.group c b q).gs := by
  by_cases e : q = g
  · subst e; rw [modGroup_group_same, hf]
  · rw [modGroup_group_ne _ _ _ _ e]

theorem performPend_gs (d : Device) (c b : Nat) (g q : Lat) : ((d.performPend c b g).group c b q).gs = (d.group c b q).gs := by
  unfold performPend
  split
  · rfl
  · dsimp only
    rw [modGroup_gs]
    · simp only [group, modBank_bank_same]
      rfl
    · intro _; rfl

theorem ownClose_gs (d : Device) (c b : Nat) (g q : Lat) : ((d.ownClose c b g).group c b q).gs = (d.group c b q).gs := by
  unfold ownClose
  split
  · unfold closeSense
    rw [modGroup_gs, performPend_gs]
    intro _; rfl
  · rfl

/-- The closing of the groups of a list leaves them free, and those that were free before. -/
theorem foldl_close_gs (c b : Nat) (l : List Lat) (d : Device) (q : Lat) (h : q ∈ l ∨ (d.group c b q).gs = .free) :
    ((l.foldl (fun d g => (d.ownClose c b g).modGroup c b g fun x => { x with gs := .free }) d).group c b q).gs = .free := by
  induction l generalizing d with
  | nil => exact h.resolve_left (by simp)
  | cons g l ih =>
    refine ih _ ?_
    by_cases e : q = g
    · subst e; exact .inr (by rw [modGroup_group_same])
    · rw [modGroup_group_ne _ _ _ _ e, ownClose_gs]
      exact h.imp_left fun m => (List.mem_cons.mp m).resolve_left e

theorem closeBank_gs (d : Device) (c b : Nat) (q : Lat) : ((d.closeBank c b).group c b q).gs = .free :=
  foldl_close_gs c b _ _ q (.inl (List.mem_finRange q))

theorem closeBank_threads (d : Device) (c b : Nat) : (d.closeBank c b).threads = d.threads := by
  have each : ∀ (d : Device) (g : Lat), ((d.ownClose c b g).modGroup c b g fun x => { x with gs := .free }).threads = d.threads :=
    fun d g => by rw [modGroup_threads, ownClose_threads]
  rw [closeBank, foldl_threads each, modBank_threads]

/-- The bank of a hart that ends: closed, with its latches invalid. -/
def endBank (d : Device) (c b : Nat) : Device :=
  (d.closeBank c b).modBank c b fun k => { k with groups := k.groups.map fun g => { g with latch := { g.latch with valid := false } } }

theorem endBank_threads (d : Device) (c b : Nat) : (d.endBank c b).threads = d.threads := by
  rw [endBank, modBank_threads, closeBank_threads]

theorem endBank_shut (d : Device) (c b : Nat) : (d.endBank c b).Shut c b := by
  intro q
  have closed := closeBank_gs d c b q
  have ended : (d.endBank c b).group c b q
      = { (d.closeBank c b).group c b q with latch := { ((d.closeBank c b).group c b q).latch with valid := false } } := by
    simp [endBank, Device.group]
  rw [latch, ended]
  generalize (d.closeBank c b).group c b q = x at closed
  exact ⟨closed, rfl⟩

theorem Shut.endBank {d : Device} {c b b' : Nat} (h : d.Shut c b') (x : b < 16) (y : b' < 16) (hne : b' ≠ b) :
    (d.endBank c b).Shut c b' := by
  intro q
  have same : (d.endBank c b).bank c b' = d.bank c b' := by
    rw [Device.endBank, modBank_bank_ne _ x y hne, closeBank_bank_ne _ x y hne]
  rw [latch, group, same]
  exact h q

end Device

end Sys2Proof.Machine
end

