-- ==== Sys2Proof/Proofs/EndedHarts.lean ====
section
/-! PROOF. Harts that end, and the gang that they leave (R81). -/

namespace Sys2Proof.Machine

section
variable {s : State} {h : Hdr} {run : List Nat}

/-! ### What the convoy of harts that end has left on its way (R81, R303) -/

theorem settleRows_resting {b : Nat} (hr : s.dev.Resting s.iss.core b) :
    s.settleRows b = { s with iss := { s.iss with acted := true } } := by
  have settled : ∀ n, s.dev.settleBank s.iss.core b n = s.dev := by
    intro n
    cases n with
    | zero => rfl
    | succ n => simp [Device.settleBank, hr.rowQ, hr.segs]
  exact congrArg (fun d => ({ s with dev := d, iss := { s.iss with acted := true } } : State)) (settled _)

/-- A state that differs in its package, and in that words of the convoy have acted. -/
structure State.Wound (s t : State) : Prop where
  iss : t.iss = { s.iss with acted := t.iss.acted }
  drains : s.dev.Drains t.dev

theorem State.Wound.refl (s : State) : s.Wound s := ⟨rfl, Device.Drains.refl _⟩
theorem State.Wound.trans {s t u : State} (a : s.Wound t) (b : t.Wound u) : s.Wound u :=
  ⟨by rw [b.iss, a.iss], a.drains.trans b.drains⟩
theorem State.Wound.core {s t : State} (a : s.Wound t) : t.iss.core = s.iss.core := by rw [a.iss]
theorem State.Wound.rk {s t : State} (a : s.Wound t) : t.rk = s.rk := by unfold State.rk; rw [a.iss]

theorem foldl_wound (hr : ∀ b ∈ run, s.dev.Resting s.iss.core b) :
    s.Wound (run.foldl (fun s b => (s.modDev fun d => d.drainReds s.rk b 0).settleRows b) s) := by
  induction run generalizing s with
  | nil => exact State.Wound.refl s
  | cons b run ih =>
    have drains := Device.drainReds_drains s.dev s.rk b 0
    have first : s.Wound ((s.modDev fun d => d.drainReds s.rk b 0).settleRows b) := by
      rw [settleRows_resting (drains.2 _ _ (hr b (by simp)))]
      exact ⟨rfl, drains⟩
    refine first.trans (ih fun k hk => ?_)
    rw [first.core]
    exact first.drains.2 _ _ (hr k (by simp [hk]))

theorem windUp_wound (hne : run ≠ []) (hr : ∀ b ∈ run, s.dev.Resting s.iss.core b) : s.Wound (s.windUp run) := by
  have wound := foldl_wound hr
  obtain ⟨b, hb⟩ := List.exists_mem_of_ne_nil run hne
  have mx := (wound.drains.2 _ _ (hr b hb)).mx
  have queue : ∀ t : State, (t.dev.core t.iss.core).mx = [] → t.settleQueue = t := by
    intro t ht
    simp [State.settleQueue, Device.mxWaits, ht]
  rw [State.windUp, queue _ (by rw [wound.core]; exact mx)]
  exact wound

/-! ### Harts that end (R81) -/

/-- A hart that ends in no barrier and with no trap of an engine. -/
theorem endHart_eq {b : Nat} (hb : (s.hart b).bars = Vector.replicate 4 none) (he : (s.hart b).engTraps = []) :
    s.endHart b = s.modDev fun d => (d.endBank s.iss.core b).setHart s.rk b {} := by
  have hart : (s.dev.endBank s.iss.core b).hart s.rk b = s.hart b := Device.threads_hart (Device.endBank_threads ..) _ _
  have traps : (s.dev.endBank s.iss.core b).lostTraps s.rk b = s.dev.endBank s.iss.core b := by
    rw [Device.lostTraps, hart, he]
  unfold Device.endBank at traps
  unfold State.endHart
  simp only [hb, Vector.toList_replicate, List.replicate_succ, List.replicate_zero, List.foldl_cons, List.foldl_nil, State.modDev,
    Device.endBank, traps]

theorem Device.threads_gangs {d e : Device} (h : e.threads = d.threads) : e.gangs = d.gangs := congrArg (fun t => t.2.1) h

@[simp] theorem modDev_hart (f : Device → Device) (k : Nat) : (s.modDev f).hart k = (f s.dev).hart s.rk k := rfl

theorem Device.Shut.of_banks {d e : Device} {c b : Nat} (h : d.Shut c b) (hb : ∀ q, e.group c b q = d.group c b q) : e.Shut c b :=
  fun q => by rw [Device.latch, hb]; exact h q

theorem Device.Shut.setHart {d : Device} {c b : Nat} (h : d.Shut c b) (rk k : Nat) (t : Hart) : (d.setHart rk k t).Shut c b :=
  h.of_banks fun _ => rfl

/-- What the ends of the harts of a list leave. -/
structure State.Ends (s t : State) (run : List Nat) : Prop where
  iss : t.iss = s.iss
  gangs : t.dev.gangs = s.dev.gangs
  gone : ∀ k ∈ run, t.hart k = {} ∧ t.dev.Shut s.iss.core k
  left : ∀ k < 16, k ∉ run → t.hart k = s.hart k ∧ (s.dev.Shut s.iss.core k → t.dev.Shut s.iss.core k)

theorem endHart_ends {b : Nat} (h16 : b < 16) (hb : (s.hart b).bars = Vector.replicate 4 none) (he : (s.hart b).engTraps = []) :
    s.Ends (s.endHart b) [b] := by
  have threads := Device.endBank_threads s.dev s.iss.core b
  rw [endHart_eq hb he]
  refine ⟨State.modDev_iss .., ?_, fun k hk => ?_, fun k hk hn => ⟨?_, fun shut => ?_⟩⟩
  · rw [State.modDev_dev, Device.setHart_gangs, Device.threads_gangs threads]
  · obtain rfl := List.mem_singleton.mp hk
    have shut : ((s.dev.endBank s.iss.core k).setHart s.rk k {}).Shut s.iss.core k := 
      (Device.endBank_shut s.dev s.iss.core k).setHart _ _ _
    rw [modDev_hart, State.modDev_dev]
    exact ⟨Device.setHart_hart_same .., shut⟩
  · have other : k ≠ b := fun e => hn (by simp [e])
    rw [modDev_hart, Device.setHart_hart _ h16 hk, if_neg fun e => other e.2]
    exact Device.threads_hart threads _ _
  · rw [State.modDev_dev]
    exact (Device.Shut.endBank shut h16 hk fun e => hn (by simp [e])).setHart _ _ _

theorem foldl_ends (hn : run.Nodup) (hl : ∀ k ∈ run, k < 16) (hb : ∀ k ∈ run, (s.hart k).bars = Vector.replicate 4 none)
    (he : ∀ k ∈ run, (s.hart k).engTraps = []) : s.Ends (run.foldl State.endHart s) run := by
  induction run generalizing s with
  | nil => exact ⟨rfl, rfl, by simp, fun k _ _ => ⟨rfl, id⟩⟩
  | cons b run ih =>
    obtain ⟨hnot, hn⟩ := List.nodup_cons.mp hn
    obtain ⟨h16, hl⟩ := List.forall_mem_cons.mp hl
    obtain ⟨hb, hbs⟩ := List.forall_mem_cons.mp hb
    obtain ⟨he, hes⟩ := List.forall_mem_cons.mp he
    have first := endHart_ends h16 hb he
    have other : ∀ k ∈ run, k ∉ [b] := fun k hk e => hnot (List.mem_singleton.mp e ▸ hk)
    have rest := ih (s := s.endHart b) hn hl (fun k hk => by rw [(first.left k (hl k hk) (other k hk)).1, hbs k hk])
      fun k hk => by rw [(first.left k (hl k hk) (other k hk)).1, hes k hk]
    have core : (s.endHart b).iss.core = s.iss.core := by rw [first.iss]
    refine ⟨rest.iss.trans first.iss, rest.gangs.trans first.gangs, fun k hk => ?_, fun k hk hn => ?_⟩
    · rcases List.mem_cons.mp hk with rfl | hk
      · obtain ⟨gone, shut⟩ := first.gone k (by simp)
        obtain ⟨hart, stays⟩ := rest.left k h16 hnot
        exact ⟨hart.trans gone, core ▸ stays (core ▸ shut)⟩
      · obtain ⟨gone, shut⟩ := rest.gone k hk
        exact ⟨gone, core ▸ shut⟩
    · obtain ⟨hb', hr'⟩ : k ∉ [b] ∧ k ∉ run := by simpa using hn
      obtain ⟨hart, stays⟩ := first.left k hk hb'
      obtain ⟨hart', stays'⟩ := rest.left k hk hr'
      exact ⟨hart'.trans hart, fun shut => core ▸ stays' (core ▸ stays shut)⟩

/-! ### The gang that harts of it leave (R81) -/

/-- The gang without harts that have ended. -/
def Gang.without (g : Gang) (e : Mask16) : Gang :=
  { g with gm := g.gm &&& ~~~ e, live := g.live &&& ~~~ e
           ds := g.ds.map fun r => { r with ma := r.ma &&& ~~~ e, mw := r.mw &&& ~~~ e } }

/-- The shadow masks of the gang's harts without harts that have ended. -/
def State.unshadow (s : State) (e : Mask16) : State :=
  s.modDev fun d => ((List.range s.gang.size).map (s.iss.base + ·)).foldl (fun d b =>
    d.modHart s.rk b fun t => { t with shGm := t.shGm &&& ~~~ e }) d

/-- A hart that a change of each hart of a list leaves as it is. -/
theorem foldl_modHart_fixed {f : Hart → Hart} {rk k : Nat} {t : Hart} (hf : f t = t) (l : List Nat) (d : Device)
    (h : d.hart rk k = t) : (l.foldl (fun d b => d.modHart rk b f) d).hart rk k = t := by
  induction l generalizing d with
  | nil => exact h
  | cons b l ih =>
    refine ih _ ?_
    by_cases e : k = b
    · subst e; rw [Device.modHart_hart_same, h, hf]
    · have other : (d.modHart rk b f).hart rk k = d.hart rk k := by
        simp only [Device.modHart, Device.hart, Device.setHart, lookupD_insertK, Device.hartKey_inj_right, e, if_false]
      exact other.trans h

theorem unshadow_dev (s : State) (e : Mask16) : (s.unshadow e).dev = { s.dev with harts := (s.unshadow e).dev.harts } :=
  foldl_modHart_frame ..

theorem unshadow_gang (s : State) (e : Mask16) (rk b : Nat) : (s.unshadow e).dev.gang? rk b = s.dev.gang? rk b := by
  rw [unshadow_dev]; rfl
theorem unshadow_group (s : State) (e : Mask16) (c b : Nat) (q : Lat) : (s.unshadow e).dev.group c b q = s.dev.group c b q := by
  rw [unshadow_dev]; rfl
theorem unshadow_gone {k : Nat} (h : s.hart k = {}) (e : Mask16) : (s.unshadow e).hart k = {} := by
  have fixed : ({ ({} : Hart) with shGm := ({} : Hart).shGm &&& ~~~ e } : Hart) = {} := by
    rw [show ({} : Hart).shGm &&& ~~~ e = 0 from BitVec.zero_and]
  exact foldl_modHart_fixed (f := fun t => { t with shGm := t.shGm &&& ~~~ e }) fixed _ _ h

theorem modGang_group (s : State) (f : Gang → Gang) (c b : Nat) (q : Lat) : (s.modGang f).dev.group c b q = s.dev.group c b q := by
  unfold State.modGang Device.group; rw [State.modDev_dev, Device.modGang_bank]
theorem modGang_hart (s : State) (f : Gang → Gang) (k : Nat) : (s.modGang f).hart k = s.hart k := by
  unfold State.modGang; rw [modDev_hart, Device.modGang_hart]; rfl
theorem modGang_gang {g : Gang} (hg : s.dev.gang? s.rk s.iss.base = some g) (f : Gang → Gang) :
    (s.modGang f).dev.gang? s.rk s.iss.base = some (f g) := by
  unfold State.modGang; rw [State.modDev_dev, Device.modGang_gang_same, hg]; rfl

theorem endHarts_effect {g : Gang} (hn : run.Nodup) (hl : ∀ k ∈ run, k < 16)
    (hb : ∀ k ∈ run, (s.hart k).bars = Vector.replicate 4 none) (he : ∀ k ∈ run, (s.hart k).engTraps = [])
    (hg : s.dev.gang? s.rk s.iss.base = some g) :
    (s.endHarts run).iss = s.iss ∧ (s.endHarts run).dev.gang? s.rk s.iss.base = some (g.without (maskOf run))
      ∧ ∀ k ∈ run, (s.endHarts run).hart k = {} ∧ (s.endHarts run).dev.Shut s.iss.core k := by
  obtain ⟨iss, gangs, gone, -⟩ := foldl_ends hn hl hb he
  have ends : s.endHarts run = ((run.foldl State.endHart s).modGang fun g => g.without (maskOf run)).unshadow (maskOf run) := rfl
  generalize run.foldl State.endHart s = t at iss gangs gone ends
  have rk : t.rk = s.rk := by unfold State.rk; rw [iss]
  have base : t.iss.base = s.iss.base := by rw [iss]
  have gang : t.dev.gang? t.rk t.iss.base = some g := by rw [rk, base, Device.gang?, gangs]; exact hg
  rw [ends]
  refine ⟨iss, ?_, fun k hk => ⟨?_, ?_⟩⟩
  · rw [unshadow_gang, ← rk, ← base, modGang_gang gang]
  · exact unshadow_gone (by rw [modGang_hart]; exact (gone k hk).1) _
  · exact (gone k hk).2.of_banks fun q => by rw [unshadow_group, modGang_group]

end

end Sys2Proof.Machine
end

