-- ==== Sys2Proof/Proofs/Exit.lean ====
section
/-! PROOF. EXIT (R56, R81). -/

namespace Sys2Proof.Machine

section
variable {s : State} {h : Hdr} {run : List Nat}

theorem leave_of_left (hg : s.gang.gm ≠ 0) : s.leave run = s := by
  unfold State.leave; rw [if_pos (bne_iff_ne.mpr hg)]
theorem leave_of_none (hg : s.gang.gm = 0) (hd : s.gang.ds = []) :
    s.leave run = s.modGang fun g => { g with ended := true, ds := [] } := by
  simp only [State.leave, hg, hd, resume, bne_self_eq_false, Bool.false_eq_true, if_false]

/-- What EXIT is to the shared checks: a word that acts. -/
def exitUses : Uses := { acts := true }

theorem quiet_resting (hs : s.Quiet) {k : Nat} (hk : k < 16) : (s.counted h exitUses).dev.Resting (s.counted h exitUses).iss.core k := by
  rw [counted_core, counted_dev]
  exact Device.Resting.of_queues (hs.rows k hk) (hs.segs k hk) hs.matrix

theorem quiet_finished (hs : s.Quiet) {k : Nat} (hk : k ∈ s.active) (hr : (s.begun.rollback.hart s.rk k).redOut = 0) :
    (s.counted h exitUses).unfinished k = false := by
  have retired : s.begun.rollback.unretired s.rk k = false := by
    have := hs.retired k hk
    rwa [State.unretired, begun_rk] at this
  have rows := hs.rowsFirst k (banksOf_lt hk)
  show s.begun.rollback.unfinished s.begun.rk s.begun.iss.base k = false
  rw [begun_rk, begun_base]
  simp [Device.unfinished, Device.mxWaits, rows, retired, hs.matrixFirst, hr]

/-- EXIT on harts of which nothing is outstanding. -/
theorem exec_exit (hs : s.Quiet) (hon : ∃ k ∈ s.active, s.begun.guard h k = true)
    (hr : ∀ k ∈ s.runners h, (s.begun.rollback.hart s.rk k).redOut = 0) :
    exec (.exit h) s
      = .next (((((s.counted h exitUses).windUp (s.runners h)).endHarts (s.runners h)).leave (s.runners h)).endWord h) := by
  refine exec_whole (u := exitUses) hs.toCalm rfl rfl ?_
  have resting : ∀ k ∈ s.runners h, (s.counted h exitUses).dev.Resting (s.counted h exitUses).iss.core k := fun k hk =>
    quiet_resting hs (banksOf_lt (mem_runners.mp hk).1)
  have finished : (s.runners h).find? (s.counted h exitUses).unfinished = none :=
    List.find?_eq_none.mpr fun k hk => by simp [quiet_finished (h := h) hs (mem_runners.mp hk).1 (hr k hk)]
  have wound := windUp_wound (runners_ne_nil hon) resting
  have rows : (s.runners h).find? (fun b =>
      !(((s.counted h exitUses).windUp (s.runners h)).dev.bank ((s.counted h exitUses).windUp (s.runners h)).iss.core b).rowQ.isEmpty)
      = none := List.find?_eq_none.mpr fun k hk => by
    rw [wound.core, (wound.drains.2 _ _ (resting k hk)).rowQ]; simp
  have empty : (s.runners h).isEmpty = false := by simpa using runners_ne_nil hon
  simp only [empty, finished, rows, Bool.false_eq_true, if_false]

/-- What is left when harts of a gang have ended: the convoy goes on, and the gang is without them. -/
theorem exit_effect (hs : s.Quiet) (hon : ∃ k ∈ s.active, s.begun.guard h k = true)
    (hb : ∀ k ∈ s.runners h, (s.begun.hart k).bars = Vector.replicate 4 none)
    (he : ∀ k ∈ s.runners h, (s.begun.hart k).engTraps = []) :
    ∃ (t : State) (w : Option Word), ((s.counted h exitUses).windUp (s.runners h)).endHarts (s.runners h) = t
      ∧ t.iss.fails = [] ∧ t.iss.hold = none ∧ t.rk = s.rk ∧ t.iss.base = s.iss.base ∧ t.iss.core = s.iss.core
      ∧ t.dev.gang? s.rk s.iss.base = some ({ s.gang with wdTrap := w }.without (maskOf (s.runners h)))
      ∧ ∀ k ∈ s.runners h, t.hart k = {} ∧ t.dev.Shut s.iss.core k := by
  have resting : ∀ k ∈ s.runners h, (s.counted h exitUses).dev.Resting (s.counted h exitUses).iss.core k := fun k hk =>
    quiet_resting hs (banksOf_lt (mem_runners.mp hk).1)
  have wound := windUp_wound (runners_ne_nil hon) resting
  have rk := wound.rk.trans counted_rk
  have base : ((s.counted h exitUses).windUp (s.runners h)).iss.base = s.iss.base := by rw [wound.iss]; exact begun_base s
  have core := wound.core.trans counted_core
  have fails : ((s.counted h exitUses).windUp (s.runners h)).iss.fails = [] := by
    rw [wound.iss]; exact counted_fails (u := exitUses) (h := h) hs.toCalm
  have hold : ((s.counted h exitUses).windUp (s.runners h)).iss.hold = none := by
    rw [wound.iss]; exact counted_hold (u := exitUses) (h := h) hs.toCalm
  obtain ⟨w, hg⟩ := wound.drains.1.gang _ _ _ (begun_gang? hs.toRuns)
  have hart : ∀ k, ((s.counted h exitUses).windUp (s.runners h)).hart k
      = ((s.counted h exitUses).windUp (s.runners h)).dev.hart s.begun.rk k := fun k => by rw [State.hart, rk, begun_rk]
  generalize (s.counted h exitUses).windUp (s.runners h) = v at *
  have bars : ∀ k ∈ s.runners h, (v.hart k).bars = Vector.replicate 4 none := fun k hk => by
    rw [hart, wound.drains.1.bars]; exact hb k hk
  have traps : ∀ k ∈ s.runners h, (v.hart k).engTraps = [] := fun k hk => by
    rw [hart, wound.drains.1.engTraps]; exact he k hk
  obtain ⟨iss, gang, gone⟩ := endHarts_effect runners_nodup (fun k hk => banksOf_lt (mem_runners.mp hk).1) bars traps
    (by rw [rk, base]; exact hg)
  refine ⟨_, w, rfl, by rw [iss, fails], by rw [iss, hold], ?_, by rw [iss, base], by rw [iss, core], ?_, fun k hk => ?_⟩
  · unfold State.rk at rk ⊢; rw [iss]; exact rk
  · rw [← rk, ← base]; exact gang
  · rw [← core]; exact gone k hk

theorem modGang_iss (f : Gang → Gang) : (s.modGang f).iss = s.iss := rfl

/-- The banks of a mask that do not run a word. -/
theorem stay_getLsbD {m : Mask16} {k : Nat} (hk : k < 16) :
    (m &&& ~~~ maskOf (s.runners h)).getLsbD k = true ↔ m.getLsbD k = true ∧ ¬ (k ∈ s.active ∧ s.begun.guard h k = true) := by
  rw [BitVec.getLsbD_and, BitVec.getLsbD_not, maskOf_getLsbD _ hk]
  simp only [hk, mem_runners, decide_true, Bool.true_and, Bool.and_eq_true, Bool.not_eq_true', decide_eq_false_iff_not]

end

end Sys2Proof.Machine

open Sys2Proof Sys2Proof.Machine in
/-- Settles O60: the harts that run EXIT end one after the other, and the gang is left with the others or ends. -/
theorem exitCompletes : Obligations.ExitCompletes := by
  refine ⟨fun s h hs hoff => ?_, ?_⟩
  · exact runsInto_whole (u := exitUses) (t := s.counted h exitUses) hs rfl rfl (by simp [runners_none hoff]) (counted_fails hs)
      (counted_hold hs) rfl counted_target
  · intro s h hs ends hsome hall hds
    have exits : ∀ k, k ∈ s.runners h ↔ ends k := fun k => mem_runners
    have hon : ∃ k ∈ s.active, s.begun.guard h k = true := hsome
    have ran := exec_exit hs hon fun k hk => (hall k ((exits k).mp hk)).2.1
    obtain ⟨t, w, ht, fails, hold, rk, base, core, gang, gone⟩ := exit_effect hs hon (fun k hk => (hall k ((exits k).mp hk)).1)
      fun k hk => (hall k ((exits k).mp hk)).2.2.1
    rw [ht] at ran
    have tgang : t.gang = { s.gang with wdTrap := w }.without (maskOf (s.runners h)) := by
      rw [State.gang, rk, base, gang]; rfl
    have latches : ∀ k, ends k → ∀ q, (t.latch k q).valid = false ∧ (t.dev.group s.iss.core k q).gs = .free := by
      intro k hk q
      obtain ⟨gs, valid⟩ := (gone k ((exits k).mpr hk)).2 q
      exact ⟨by rw [State.latch, core]; exact valid, gs⟩
    by_cases hg : ∀ k ∈ s.active, s.begun.guard h k = true
    · have empty : t.gang.gm = 0 := by rw [tgang]; exact stay_eq_zero_iff.mpr hg
      have bare : t.gang.ds = [] := by rw [tgang, Gang.without, hds hg]; rfl
      rw [leave_of_none empty bare] at ran
      have ended := modGang_gang (s := t) (by rw [rk, base]; exact gang) fun g => { g with ended := true, ds := [] }
      rw [rk, base] at ended
      refine ⟨_, _, ⟨ran, fails, hold⟩, ended, fun k hk => ⟨?_, fun q => ?_⟩, fun k hk => ⟨stay_getLsbD hk, stay_getLsbD hk⟩,
        fun ⟨k, hk, off⟩ => ?_, fun _ => rfl⟩
      · rw [modGang_hart]; exact (gone k ((exits k).mpr hk)).1
      · rw [State.latch, modGang_iss, Device.latch, modGang_group, modGang_group]; exact latches k hk q
      · rw [hg k hk] at off; cases off
    · have left : t.gang.gm ≠ 0 := by rw [tgang]; exact fun e => hg (stay_eq_zero_iff.mp e)
      rw [leave_of_left left] at ran
      exact ⟨t, _, ⟨ran, fails, hold⟩, gang, fun k hk => ⟨(gone k ((exits k).mpr hk)).1, latches k hk⟩,
        fun k hk => ⟨stay_getLsbD hk, stay_getLsbD hk⟩, fun _ => rfl, fun all => absurd all hg⟩
end

