-- ==== Sys2Proof/Proofs/FixedLatency.lean ====
section
/-! PROOF. When a fixed-latency result lands (R67). -/

namespace Sys2Proof.Machine

/-- What a register reads as once a value has landed in it: a predicate holds true or false. -/
def Reg.holds (r : Reg) (v : Word) : Word :=
  match r with
  | .x _ => v
  | .p _ => boolWord (v != 0)

namespace Hart
variable {t : Hart} {r : Reg} {v : Word}

theorem get_of_conv_nil (h : t.conv = []) : t.get r = t.landed r := by
  unfold get; rw [h]; split <;> rfl

theorem landed_setReg_same (hr : r.fixed = false) : (t.setReg r v).landed r = r.holds v := by
  cases r with
  | x r | p r =>
    have nonzero : r ≠ 0 := by simpa [Reg.fixed] using hr
    simp [setReg, landed, Reg.holds, nonzero]

/-- What is in flight and what the convoy has written do not show in the landed values. -/
theorem landed_queues (c : List ConvWrite) (l : List Due) : { t with conv := c, due := l }.landed r = t.landed r := by
  cases r <;> rfl

theorem setReg_due : (t.setReg r v).due = t.due := by
  cases r <;> unfold setReg <;> dsimp only <;> split <;> rfl

theorem land_of_due_nil (h : t.due = []) (M : Nat) : t.land M = t := by
  unfold land; rw [h]; exact congrArg (fun l => { t with due := l }) h.symm

variable {N M L : Nat} (hd : t.due = [])
include hd

/-- A convoy that writes one fixed-latency result puts it in flight. -/
theorem commit_fixed (hc : t.conv = [{ reg := r, val := v, lat := some L }]) :
    t.commit N = { t with conv := [], due := [{ reg := r, val := v, due := N + L }] } := by
  simp [commit, hc, commitWrite, hd, insertDue]

/-- A convoy that writes one interlocked result puts it in its register. -/
theorem commit_interlocked (hf : t.flight = none) (hc : t.conv = [{ reg := r, val := v, lat := none }]) :
    t.commit N = { t with conv := [] }.setReg r v := by
  simp [commit, hc, commitWrite, hd, hf]

end Hart

/-- The one result in flight lands by the nominal time at which it is due, and not before. -/
theorem Hart.landed_land_one {t : Hart} {r : Reg} {v : Word} {n : Nat} (hr : r.fixed = false)
    (hd : t.due = [{ reg := r, val := v, due := n }]) (M : Nat) :
    (t.land M).landed r = if n ≤ M then r.holds v else t.landed r := by
  unfold Hart.land
  rw [hd]
  by_cases h : n ≤ M
  · simp [h, Hart.landDue, Hart.landed_setReg_same hr]
  · simp [h, Hart.landed_queues t.conv]

end Sys2Proof.Machine

open Sys2Proof Sys2Proof.Machine in
/-- Settles O13: a fixed-latency result is in flight until it is due, an interlocked one is in its register at once. -/
theorem fixedLatency : Obligations.FixedLatency := by
  intro t r v N M L hr hd hf
  refine ⟨fun hc => ?_, fun hc => ?_⟩
  · dsimp only
    rw [Hart.get_of_conv_nil rfl, Hart.get_of_conv_nil rfl, Hart.commit_fixed hd hc]
    refine (Hart.landed_queues [] _).trans ((Hart.landed_land_one hr rfl M).trans ?_)
    simp only [Hart.landed_queues]
    cases r <;> rfl
  · dsimp only
    have landed : (t.commit N).due = [] := by rw [Hart.commit_interlocked hd hf hc, Hart.setReg_due]; exact hd
    rw [Hart.get_of_conv_nil rfl, Hart.land_of_due_nil landed, Hart.commit_interlocked hd hf hc]
    refine (Hart.landed_queues [] _).trans ((Hart.landed_setReg_same hr).trans ?_)
    cases r <;> rfl
end

