-- ==== Sys2Proof/Proofs/ScalarSelection.lean ====
section
/-! PROOF. Selection, moves, comparison, predicate logic and the identity of a hart (R84, R97 to R99). -/

namespace Sys2Proof.Machine

theorem boolWord_eq (b : Bool) : boolWord b = if b then 1 else 0 := rfl

/-! ### Comparison (R98) -/

/-- A comparison by the numbers that two values of one width stand for. -/
theorem condSays_eq {n : Nat} (c : Cond) (x y : BitVec n) : condSays c x y = match c with
    | .eq => decide (x.toNat = y.toNat)
    | .ne => decide (x.toNat ≠ y.toNat)
    | .lt => decide (x.toInt < y.toInt)
    | .ge => decide (y.toInt ≤ x.toInt)
    | .ltn => decide (x.toNat < y.toNat)
    | .gen => decide (y.toNat ≤ x.toNat)
    | .le => decide (x.toInt ≤ y.toInt)
    | .gt => decide (y.toInt < x.toInt)
    | .len => decide (x.toNat ≤ y.toNat)
    | .gtn => decide (y.toNat < x.toNat)
    | .tst => decide ((x &&& y).toNat ≠ 0)
    | .ntst => decide ((x &&& y).toNat = 0) := by
  have zero : ∀ z : BitVec n, (z == 0) = decide (z.toNat = 0) := fun z => by
    rw [Bool.eq_iff_iff]; simp [← BitVec.toNat_inj]
  have same : (x == y) = decide (x.toNat = y.toNat) := by rw [Bool.eq_iff_iff]; simp [← BitVec.toNat_inj]
  cases c with
  | eq => exact same
  | ne => simp only [condSays, bne, same, decide_not]
  | tst => simp only [condSays, bne, zero, decide_not]
  | ntst => exact zero _
  | lt | ge | ltn | gen | le | gt | len | gtn => rfl

/-- CMP compares its sources at the width that it names. -/
theorem cmpRes_eq (c : Cond) (w : Bool) (a b : Word) :
    cmpRes c w a b = if w then condSays c (a.setWidth 32) (b.setWidth 32) else condSays c a b := by
  have low : (a &&& b).setWidth 32 = a.setWidth 32 &&& b.setWidth 32 := BitVec.setWidth_and
  cases w
  · cases c <;> simp only [condSays_eq, cmpRes, widthOf, uintN_64, sintN_64, Bool.false_eq_true, if_false]
  · cases c <;> simp only [condSays_eq, cmpRes, widthOf, uintN_32, sintN_32, low, if_true]

/-- CMP writes whether its comparison holds, in an `x` register or in a predicate. -/
theorem cmp_writes {s : State} (hs : s.Calm) (h : Hdr) (c : Cond) (w : Bool) (d : XP) (a b : Src) :
    WritesReg s h (.cmp h c w d a b) (xpReg d) fun k =>
      boolWord (if w then condSays c ((s.begun.src k a).setWidth 32) ((s.begun.src k b).setWidth 32)
        else condSays c (s.begun.src k a) (s.begun.src k b)) :=
  writes_of (i := .cmp h c w d a b) rfl hs (fun t k n hk => by simp only [n.src hk]) _ fun _ =>
    congrArg boolWord (cmpRes_eq c w _ _)

/-! ### The identity of a hart (R53, R84) -/

theorem begun_fabric (s : State) : s.begun.dev.fabric = s.dev.fabric := by rw [State.begun, begin_dev]

/-- The size of a gang of at most sixteen harts fits in its field of HID (R53). -/
theorem log2_size_lt {n : Nat} (h : n ≤ 16) : Nat.log2 n < 8 := by
  rcases Nat.eq_zero_or_pos n with rfl | pos
  · decide
  · exact (Nat.log2_lt pos.ne').mpr (by omega)

/-- HARTID selects its field of the fields of HID. -/
theorem hidSel_eq (sel : HidSel) {bank base log core dev : Nat} (hl : log < 8) :
    hidSel sel (BitVec.ofNat 64 (bank % 16 + base % 16 * 2 ^ 4 + log * 2 ^ 8 + core % 2048 * 2 ^ 12 + dev % 2 ^ 21 * 2 ^ 23))
      = BitVec.ofNat 64 (match sel with
        | .bank => bank % 16
        | .gbase => base % 16
        | .gsize => 2 ^ log
        | .rank => bank % 16 - base % 16
        | .core => core % 128
        | .cluster => core / 16 % 8
        | .stand => core / 128 % 16
        | .dev => dev % 2 ^ 21
        | .pcore => core % 2048
        | .phart => core % 2048 * 16 + bank % 16
        | .hid => bank % 16 + base % 16 * 2 ^ 4 + log * 2 ^ 8 + core % 2048 * 2 ^ 12 + dev % 2 ^ 21 * 2 ^ 23) := by
  have value : (BitVec.ofNat 64 (bank % 16 + base % 16 * 2 ^ 4 + log * 2 ^ 8 + core % 2048 * 2 ^ 12 + dev % 2 ^ 21 * 2 ^ 23)).toNat
      = bank % 16 + base % 16 * 2 ^ 4 + log * 2 ^ 8 + core % 2048 * 2 ^ 12 + dev % 2 ^ 21 * 2 ^ 23 := by
    rw [BitVec.toNat_ofNat, Nat.mod_eq_of_lt (by omega)]
  unfold hidSel
  rw [value]
  refine congrArg (BitVec.ofNat 64) ?_
  cases sel with
  | gsize => exact congrArg (2 ^ ·) (show _ / 2 ^ 8 % 2 ^ 3 = log by omega)
  | hid => rfl
  | bank | gbase | rank | core | cluster | stand | dev | pcore | phart => dsimp only; omega

end Sys2Proof.Machine

open Sys2Proof Sys2Proof.Machine in
/-- Settles O3: each word is a register word, so what is left is that its value is the one that the spec gives. -/
theorem scalarSelection : Obligations.ScalarSelection := by
  intro s h w neg c op d q p r e a b sel hs
  refine ⟨?_, ?_, ?_, ?_, ?_, ?_, ?_, ?_, ?_⟩
  · refine writes_of (i := .sel h p neg d a b) rfl hs (fun t k n hk => by simp only [n.src hk, hk]) _ fun k => ?_
    by_cases h : (s.begun.hart k).getP p = neg <;> simp [h]
  · exact writes1 (i := .mov h (.xs d a)) id rfl hs fun _ => rfl
  · exact writes_of (i := .mov h (.xp d p)) rfl hs (fun t k n hk => by simp only [hk]) _ fun k => rfl
  · exact writes_of (i := .mov h (.pp q p)) rfl hs (fun t k n hk => by simp only [hk]) _ fun k => rfl
  · refine writes_of (i := .mov h (.px q e)) rfl hs (fun t k n hk => by simp only [hk]) _ fun k => ?_
    by_cases h : (s.begun.hart k).getX e = 0 <;> simp [h, boolWord_eq]
  · exact cmp_writes hs h c w (.x d) a b
  · exact cmp_writes hs h c w (.p q) a b
  · rintro f rfl
    refine writes_of (i := .pand h op q p r) rfl hs (fun t k n hk => by simp only [hk]) _ fun k => ?_
    generalize (s.begun.hart k).getP p = u
    generalize (s.begun.hart k).getP r = v
    cases op <;> cases u <;> cases v <;> rfl
  · intro size
    refine writes_of (i := .hartid h sel d) rfl hs (fun t k n hk => ?_) _ fun k => ?_
    · unfold hidOf; rw [n.gang, n.2.1, n.2.2]
    · rw [hidOf, begun_base, begun_gang, begun_core, begun_fabric, hidSel_eq sel (log2_size_lt size)]
      cases sel <;> rfl
end

