-- ==== Sys2Proof/Proofs/GangDecisions.lean ====
section
/-! PROOF. YIELD, PFX and GMASK (R34, R82, R83). -/

namespace Sys2Proof.Machine

section
variable {s : State} {h : Hdr}

/-! ### YIELD (R82) -/

/-- The other gangs of a context that are ready. -/
def State.readyOthers (s : State) : List Nat :=
  ((s.dev.gangsOf s.rk).filter fun p => p.1 != s.iss.base && s.dev.ready s.rk p.1 p.2).map Prod.fst

theorem mem_readyOthers {b : Nat} :
    b ∈ s.readyOthers ↔ b ≠ s.iss.base ∧ ∃ g, (b, g) ∈ s.dev.gangsOf s.rk ∧ s.dev.ready s.rk b g = true := by
  simp only [State.readyOthers, List.mem_map, List.mem_filter, Bool.and_eq_true, bne_iff_ne]
  constructor
  · rintro ⟨⟨_, g⟩, ⟨mem, other, ready⟩, rfl⟩
    exact ⟨other, g, mem, ready⟩
  · rintro ⟨other, g, mem, ready⟩
    exact ⟨(b, g), ⟨mem, other, ready⟩, rfl⟩

theorem yield_off (hs : s.Calm) (hoff : ∀ k ∈ s.active, s.begun.guard h k = false) :
    RunsInto s h (.yield h) s.begun.dev s.iss.target :=
  runsInto_whole (t := s.counted h {}) hs rfl rfl (by simp [runners_none hoff]) (counted_fails hs) (counted_hold hs) rfl counted_target

theorem yield_on (hs : s.Calm) (hon : ∃ k ∈ s.active, s.begun.guard h k = true) :
    RunsInto s h (.yield h)
      (s.begun.dev.modGang s.rk s.iss.base fun g => { g with yieldTo := some (s.begun.readyOthers, s.begun.dev.now + 64) })
      s.iss.target := by
  have some_ : (s.runners h).isEmpty = false := by simpa using runners_ne_nil hon
  refine runsInto_whole (t := (s.counted h {}).modGang fun g => { g with yieldTo := some (s.begun.readyOthers, s.begun.dev.now + 64) })
    hs rfl rfl ?_ (counted_fails (h := h) (u := {}) hs) (counted_hold (h := h) (u := {}) hs) ?_
    (counted_target (h := h) (u := {}))
  · simp only [some_, Bool.false_eq_true, if_false]; rfl
  · show s.begun.dev.modGang s.begun.rk s.begun.iss.base _ = _
    rw [begun_rk, begun_base]

/-! ### PFX (R34) -/

theorem begun_agenda (s : State) : s.begun.agenda = s.agenda := by
  unfold State.begun State.begin; split <;> rfl

theorem pfx_runs (hs : s.Runs) (imm : Word) :
    exec (.pfx imm) s
      = .next { s.begun with iss := { s.begun.iss with pfx := some imm, addr := nextWord s.begun.iss.addr } } := by
  show execPfx imm s = _
  unfold execPfx
  rw [hs.gang_eq]; rfl

/-- The halves of an immediate, as the next word may take them (R35). -/
theorem high_half (v : Word) : (v.extractLsb' 32 32).signExtend 64 = v.sshiftRight 32 := by
  refine BitVec.eq_of_getLsbD_eq fun i hi => ?_
  simp only [BitVec.getLsbD_signExtend, BitVec.getLsbD_sshiftRight, BitVec.getLsbD_extractLsb', BitVec.msb_eq_getLsbD_last]
  by_cases low : i < 32
  · simp [low, show i < 64 by omega, show 32 + i < 64 by omega]
  · simp [low, hi, show ¬ 32 + i < 64 by omega]

theorem low_half (v : Word) : (v.extractLsb' 0 32).zeroExtend 64 = v &&& 0xFFFFFFFF := by
  apply BitVec.eq_of_toNat_eq
  have mask : v.toNat &&& 0xFFFFFFFF = v.toNat % 2 ^ 32 := Nat.and_two_pow_sub_one_eq_mod v.toNat 32
  simp only [BitVec.truncate_eq_setWidth, BitVec.toNat_setWidth, BitVec.extractLsb'_toNat, BitVec.toNat_and, Nat.shiftRight_zero]
  exact (Nat.mod_eq_of_lt (by omega)).trans mask.symm

/-! ### GMASK (R83) -/

/-- A word that writes one value, which the gang makes, on every hart that runs it. -/
theorem gangReg_writes {i : Instr} {u : Uses} {d : Reg} {lat : Option Nat} {v : State → Word} (hs : s.Calm) (hu : u.plain = true)
    (he : exec i s = wordOp h u (fun run s => perHart (fun k t => .ok (writeReg k d (v s) lat t)) run s) s) :
    WritesReg s h i d fun _ => v (s.counted h u) := by
  obtain ⟨near, fails, harts⟩ := perHart_modHart (fun k t => .ok (writeReg k d (v (s.counted h u)) lat t)) (fun _ => none)
    (fun _ x => x.put d (v (s.counted h u)) lat) (s.runners h) (s.counted h u) (counted_fails hs) runners_nodup
    (fun k hk => banksOf_lt (mem_runners.mp hk).1) fun _ _ _ _ _ => rfl
  refine ⟨_, ⟨he.trans (wordOp_plain h u _ s hu hs), ?_, ?_⟩, ?_⟩
  · exact fails.trans (by simp)
  · exact near.hold.trans (counted_hold hs)
  · refine regEffect_of s h d _ lat _ ((State.near_count s.begun h u s.active).trans near) fun k hk => ?_
    exact (harts k hk).trans (by simp only [mem_runners, and_true, counted_hart])

/-- The register that GMASK writes. -/
def gmaskReg : GmaskDst → Reg
  | .x r => .x r
  | .p r _ => .p r

/-- The active harts on which a predicate is true. -/
def State.ballot (s : State) (p : PReg) : Mask16 := maskOf ((banksOf s.gang.gm).filter fun k => (s.hart k).getP p)

/-- What GMASK makes of its ballot. -/
def gmaskVal (d : GmaskDst) (ballot gm : Mask16) : Word :=
  match d with
  | .x _ => ballot.zeroExtend 64
  | .p _ .any => boolWord (ballot != 0)
  | .p _ .all => boolWord (ballot == gm)
  | .p _ .none => boolWord (ballot == 0)

theorem gmask_writes (hs : s.Calm) (d : GmaskDst) (p : PReg) :
    WritesReg s h (.gmask h d p) (gmaskReg d) fun _ => gmaskVal d (s.begun.ballot p) s.gang.gm := by
  have writes := gangReg_writes (h := h) (i := .gmask h d p) (u := { rd := [.p p], wr := [gmaskReg d], all := true })
    (d := gmaskReg d) (lat := some 2) (v := fun s => gmaskVal d (s.ballot p) s.gang.gm) hs rfl rfl
  rw [counted_gang] at writes
  exact writes

/-- The ballot holds the harts that vote, and no other bank. -/
theorem ballot_getLsbD {p : PReg} {k : Nat} :
    (s.begun.ballot p).getLsbD k = true ↔ k ∈ s.active ∧ (s.begun.hart k).getP p = true := by
  by_cases hk : k < 16
  · rw [State.ballot, maskOf_getLsbD _ hk, begun_gang, decide_eq_true_iff, List.mem_filter]; rfl
  · rw [BitVec.getLsbD_of_ge _ _ (Nat.not_lt.mp hk), mem_active]
    simp [hk]

theorem ballot_eq_zero_iff {p : PReg} : s.begun.ballot p = 0 ↔ ¬ ∃ k, k ∈ s.active ∧ (s.begun.hart k).getP p = true := by
  constructor
  · rintro none_ ⟨k, vote⟩
    rw [← ballot_getLsbD, none_] at vote
    simp at vote
  · intro none_
    refine BitVec.eq_of_getLsbD_eq fun k _ => ?_
    rw [Bool.eq_false_iff.mpr fun vote => none_ ⟨k, ballot_getLsbD.mp vote⟩]
    simp

theorem ballot_eq_active_iff {p : PReg} :
    s.begun.ballot p = s.gang.gm ↔ ∀ k ∈ s.active, k ∈ s.active ∧ (s.begun.hart k).getP p = true := by
  constructor
  · intro all k hk
    rw [← ballot_getLsbD, all]
    exact (mem_active.mp hk).2
  · intro all
    refine BitVec.eq_of_getLsbD_eq fun k hk => Bool.eq_iff_iff.mpr ?_
    rw [ballot_getLsbD]
    exact ⟨fun vote => (mem_active.mp vote.1).2, fun on => all k (mem_active.mpr ⟨hk, on⟩)⟩

theorem boolWord_eq_one_iff {b : Bool} : boolWord b = 1 ↔ b = true := by cases b <;> decide
theorem boolWord_bit (b : Bool) : boolWord b = 0 ∨ boolWord b = 1 := by cases b <;> decide

end

end Sys2Proof.Machine

open Sys2Proof Sys2Proof.Machine in
/-- Settles O25: the gangs that a YIELD waits for, the state that PFX leaves, and the ballot of GMASK as it is written. -/
theorem gangWords : Obligations.GangWords := by
  refine ⟨fun s h hs => ⟨yield_off hs, fun hon => ⟨s.begun.readyOthers, fun b => ?_, yield_on hs hon⟩⟩, fun s imm hs => ?_,
    fun s h d p q hs => ?_⟩
  · rw [mem_readyOthers, begun_base, begun_rk]
  · refine ⟨_, pfx_runs hs.toRuns imm, rfl, rfl, rfl, begun_agenda s, fun k => ⟨rfl, high_half imm, low_half imm⟩⟩
  · refine ⟨⟨_, gmask_writes hs (.x d) p, fun k hk => ?_⟩, ⟨_, gmask_writes hs (.p q .any) p, ?_, boolWord_bit _⟩,
      ⟨_, gmask_writes hs (.p q .all) p, ?_, boolWord_bit _⟩, ⟨_, gmask_writes hs (.p q .none) p, ?_, boolWord_bit _⟩⟩
    · rw [gmaskVal, BitVec.zeroExtend, BitVec.getLsbD_setWidth, decide_eq_true hk, Bool.true_and, ballot_getLsbD]
    · rw [gmaskVal, boolWord_eq_one_iff, bne_iff_ne, ne_eq, ballot_eq_zero_iff, not_not]
    · rw [gmaskVal, boolWord_eq_one_iff, beq_iff_eq, ballot_eq_active_iff]
    · rw [gmaskVal, boolWord_eq_one_iff, beq_iff_eq, ballot_eq_zero_iff]
end

