-- ==== Sys2Proof/Proofs/CodePorts.lean ====
section
/-! PROOF. The fetch of code reaches a bank by column accesses alone (R27, R31, R137, R252, R272). -/

namespace Sys2Proof.Machine
namespace Device

/-- A property of the banks of a package that column accesses keep. -/
structure Ported (P : Device → Prop) : Prop where
  congr : ∀ {d e : Device}, P d → e.banks = d.banks → P e
  releaseFor : ∀ {d : Device} (key cls : Nat), P d → P (d.releaseFor key cls)
  wqClose : ∀ {d : Device} (key : Nat), P d → P (d.wqClose key)

section
variable {P : Device → Prop}

theorem foldl_keeps {α : Type} {f : Device → α → Device} (hf : ∀ d a, P d → P (f d a)) (l : List α) {d : Device} (h : P d) :
    P (l.foldl f d) := by
  induction l generalizing d with
  | nil => exact h
  | cons a l ih => exact ih (hf _ _ h)

variable (p : Ported P) {d : Device} (h : P d)
include p h

/-! ### Caches and slices -/

theorem Ported.recallLine (line : Nat) : P (d.recallLine line) := by
  have clean : P (d.cleanHome line) := by
    unfold Device.cleanHome
    split
    · exact h
    · dsimp only
      split
      · exact p.releaseFor _ _ h
      · exact p.congr (p.wqClose (64 * line) (p.releaseFor (64 * line) 4 h)) rfl
  unfold Device.recallLine
  split
  · exact p.congr clean rfl
  · exact h
theorem Ported.evictLine (core line : Nat) : P (d.evictLine core line) := by
  unfold Device.evictLine
  split
  · split
    · exact p.recallLine h line
    · exact p.congr h rfl
  · exact h
theorem Ported.cacheRoom (core line : Nat) : P (d.cacheRoom core line) := by
  unfold Device.cacheRoom
  exact foldl_keeps (P := P) (fun _ _ h => p.evictLine h ..) _ h
theorem Ported.holdLine (c : CacheLine) : P (d.holdLine c) := p.congr (p.cacheRoom h c.core c.line) rfl
theorem Ported.putMarked (q : Proxy) : P (d.putMarked q) :=
  p.congr (p.wqClose (64 * q.line) (p.releaseFor (64 * q.line) 4 h)) rfl
theorem Ported.writeHome (q : Proxy) : P (d.writeHome q) := by
  unfold Device.writeHome
  split
  · exact h
  · dsimp only
    split
    · exact p.congr h rfl
    · exact p.congr (p.putMarked h q) rfl
theorem Ported.dropProxy (stand line : Nat) : P (d.dropProxy stand line) := by
  unfold Device.dropProxy
  dsimp only
  split <;> exact p.congr h rfl
theorem Ported.flushProxy (stand line : Nat) : P (d.flushProxy stand line) := by
  unfold Device.flushProxy
  split
  · exact p.dropProxy (p.writeHome h _) stand line
  · exact h
theorem Ported.sliceRoom (stand line : Nat) : P (d.sliceRoom stand line) := by
  unfold Device.sliceRoom
  exact foldl_keeps (P := P) (fun _ _ h => p.flushProxy h ..) _ h
theorem Ported.setProxy (q : Proxy) : P (d.setProxy q) := p.congr (p.sliceRoom h q.stand q.line) rfl
theorem Ported.homeFetch (line : Nat) : P (d.homeFetch line).1 := by
  unfold Device.homeFetch
  split
  · exact h
  · next stand _ =>
    dsimp only
    have room := p.sliceRoom h stand line
    split
    · exact p.setProxy room _
    · exact p.setProxy (p.releaseFor _ _ room) _
theorem Ported.homeLoad (core line : Nat) (na : Bool) : P (d.homeLoad core line na).1 := by
  have room := p.cacheRoom h core line
  have fetched := p.homeFetch room line
  unfold Device.homeLoad
  dsimp only
  split
  · exact p.holdLine room _
  · split
    · exact room
    · split
      · exact fetched
      · exact p.holdLine fetched _
theorem Ported.fillProxy (stand line : Nat) : P (d.fillProxy stand line).1 := by
  have room := p.sliceRoom h stand line
  unfold Device.fillProxy
  dsimp only
  split
  · exact room
  · exact p.homeFetch (p.recallLine room line) line
theorem Ported.colRead (st : Stor) (n : Nat) : P (d.colRead st n).1 := by
  cases st with
  | dram key => exact p.releaseFor key 4 h
  | vault _ | nothing | dropped _ => exact p.congr h rfl
theorem Ported.cachedRead (core : Nat) (st : Stor) (n : Nat) (na : Bool) : P (d.cachedRead core st n na).1 := by
  unfold Device.cachedRead
  split
  · next key _ =>
    split
    · exact p.colRead h st n
    · split
      · exact p.homeLoad h ..
      · have filled : ∀ {e : Device}, P e →
            P ((e.fillProxy (core / 128) (key / 64)).1.setProxy (e.fillProxy (core / 128) (key / 64)).2) := fun h =>
            p.setProxy (p.fillProxy h ..) _
        dsimp only
        split
        · exact filled h
        · exact p.holdLine (filled (p.cacheRoom h ..)) _
  · exact p.colRead h _ n
theorem Ported.physTouch (pa n : Nat) : P (d.physTouch pa n) := by
  unfold Device.physTouch
  exact foldl_keeps (P := P) (fun _ _ h => p.colRead h ..) _ h

/-! ### Walks and translations -/

theorem Ported.walkFrom (va level t : Nat) : P (d.walkFrom va level t).1 := by
  induction level generalizing d t with
  | zero =>
    have touched := p.physTouch h (t + 16 * walkIndex 0 va) 16
    unfold Device.walkFrom
    dsimp only
    repeat' split
    all_goals exact touched
  | succ level ih =>
    have touched := p.physTouch h (t + 16 * walkIndex (level + 1) va) 16
    unfold Device.walkFrom
    dsimp only
    split
    · exact touched
    · split
      · exact touched
      · split
        · exact touched
        · split
          · exact touched
          · split
            · exact touched
            · exact ih touched _
theorem Ported.walked (ctx : BitVec 12) (va : Nat) : P (d.walked ctx va).1 := by
  have touched := p.physTouch h (d.regs.rtbase.toNat + 8 * ctx.toNat) 8
  unfold Device.walked
  dsimp only
  split
  · exact touched
  · split
    · exact touched
    · exact p.walkFrom touched ..
theorem Ported.translate (core : Nat) (ctx : BitVec 12) (va : Nat) : P (d.translate core ctx va).1 := by
  have walked := p.walked h ctx va
  unfold Device.translate
  split
  · exact p.congr h rfl
  · dsimp only
    split
    · exact walked
    · exact p.congr walked rfl

/-! ### The checks of a transfer target (R31) -/

theorem Ported.fetchAt (core : Nat) (ctx : BitVec 12) (a : Nat) : P (d.fetchAt core ctx a).1 := by
  unfold Device.fetchAt
  split
  · exact p.translate h core ctx a
  · exact h
theorem Ported.fetchBytes (core : Nat) (q : Place) (n : Nat) : P (d.fetchBytes core q n).1 := by
  cases q with
  | mem st => exact p.cachedRead h core st n false
  | host _ | pool _ => exact h
theorem Ported.targetCheck (core : Nat) (ctx : BitVec 12) (a : Word) : P (d.targetCheck core ctx a).1 := by
  have first := p.fetchAt h core ctx a.toNat
  have second := p.fetchAt first core ctx (if a.toNat % 64 = 0 then a.toNat + 60 else a.toNat - 2)
  unfold Device.targetCheck
  split
  · exact h
  · dsimp only
    split
    · exact first
    · exact first
    · split
      · exact p.fetchBytes second ..
      · exact second

end

end Device
end Sys2Proof.Machine
end

