-- ==== Sys2Proof/Proofs/BareBanks.lean ====
section
/-! PROOF. A bank of which nothing is claimed and no latch is valid stays so along the column accesses of others (R116, R137). -/

namespace Sys2Proof.Machine

/-- Nothing is queued on a bank, its groups are free, and its latches invalid. -/
def Bank.Bare (x : Bank) : Prop := x.rowQ = [] ∧ ∀ q : Lat, x.groups[q.val].gs = .free ∧ x.groups[q.val].latch.valid = false

theorem Bank.Bare.setGroup {x : Bank} (h : x.Bare) (g : Lat) {f : Group → Group} (hg : ∀ y, (f y).gs = y.gs)
    (hl : ∀ y, (f y).latch = y.latch) : Bank.Bare { x with groups := x.groups.set g.val (f x.groups[g.val]) } := by
  refine ⟨h.1, fun q => ?_⟩
  dsimp only
  rw [Vector.getElem_set]
  split
  · next e =>
    obtain ⟨gs, valid⟩ := h.2 g
    exact ⟨(hg _).trans gs, (congrArg LatchRec.valid (hl _)).trans valid⟩
  · exact h.2 q

theorem Device.idleBank_bare (d : Device) (key : Nat) : (d.idleBank key).Bare := by
  refine ⟨rfl, fun q => ?_⟩
  match q with
  | 0 | 1 | 2 | 3 => exact ⟨rfl, rfl⟩

namespace Device

/-- Nothing is queued on a bank, its groups are free, and its latches invalid. -/
structure Bare (d : Device) (c b : Nat) : Prop where
  listed : ∀ x, lookupK (bankKey c b) d.banks = some x → x.Bare

section
variable {d : Device} {c b c' b' : Nat}

theorem Bare.congr {e : Device} (h : d.Bare c b) (hb : e.banks = d.banks) : e.Bare c b := ⟨by rw [hb]; exact h.listed⟩

theorem Bare.bank (h : d.Bare c b) (hk : bankKey c' b' = bankKey c b) : (d.bank c' b').Bare := by
  unfold Device.bank lookupD
  rw [hk]
  cases l : lookupK (bankKey c b) d.banks with
  | none => exact d.idleBank_bare _
  | some x => exact h.listed x l

theorem Bare.of_bank (h : (d.bank c b).Bare) : d.Bare c b := by
  refine ⟨fun x hx => ?_⟩
  have same : d.bank c b = x := by unfold Device.bank lookupD; rw [hx]; rfl
  exact same ▸ h

theorem Bare.shut (h : d.Bare c b) : d.Shut c b := (h.bank rfl).2

theorem Bare.of_other (h : d.Bare c b) (hk : bankKey c' b' ≠ bankKey c b) (f : Bank → Bank) : (d.modBank c' b' f).Bare c b := by
  refine ⟨fun x hx => h.listed x ?_⟩
  rw [← hx]; exact (lookupK_insertK_ne _ _ hk.symm).symm

theorem Bare.of_other_group (h : d.Bare c b) (hk : bankKey c' b' ≠ bankKey c b) (g : Lat) (f : Group → Group) :
    (d.modGroup c' b' g f).Bare c b := h.of_other hk _

theorem Bare.modBank (h : d.Bare c b) (c' b' : Nat) {f : Bank → Bank} (hf : ∀ x : Bank, x.Bare → (f x).Bare) :
    (d.modBank c' b' f).Bare c b := by
  by_cases hk : bankKey c' b' = bankKey c b
  · refine ⟨fun x hx => ?_⟩
    have same : lookupK (bankKey c b) (d.modBank c' b' f).banks = some (f (d.bank c' b')) := by
      rw [← hk]; exact lookupK_insertK_same _ _ _
    rw [same] at hx
    cases hx
    exact hf _ (h.bank hk)
  · exact h.of_other hk f

theorem Bare.modGroup (h : d.Bare c b) (c' b' : Nat) (g : Lat) {f : Group → Group} (hg : ∀ y, (f y).gs = y.gs)
    (hl : ∀ y, (f y).latch = y.latch) : (d.modGroup c' b' g f).Bare c b :=
  h.modBank c' b' fun _ bare => bare.setGroup g hg hl

/-! ### Precharges and refresh of a bank's own -/

theorem Bare.performPend (h : d.Bare c b) (c' b' : Nat) (g : Lat) : (d.performPend c' b' g).Bare c b := by
  unfold Device.performPend
  split
  · exact h
  · refine Bare.modGroup (Bare.modBank ?_ _ _ ?_) _ _ _ (fun _ => rfl) fun _ => rfl
    · exact h.congr rfl
    · exact fun _ bare => bare
theorem Bare.closeSense (h : d.Bare c b) (c' b' : Nat) (g : Lat) (t : Nat) : (d.closeSense c' b' g t).Bare c b :=
  (h.performPend c' b' g).modGroup _ _ _ (fun _ => rfl) fun _ => rfl
theorem Bare.ownClose (h : d.Bare c b) (c' b' : Nat) (g : Lat) : (d.ownClose c' b' g).Bare c b := by
  unfold Device.ownClose
  split
  · exact h.closeSense ..
  · exact h
theorem Bare.refresh (h : d.Bare c b) (c' b' : Nat) (g : Lat) (t : Nat) : (d.refresh c' b' g t).Bare c b :=
  h.modGroup c' b' g (fun _ => rfl) fun _ => rfl
theorem Bare.insertRef (h : d.Bare c b) (c' b' : Nat) (g : Lat) : (d.insertRef c' b' g).Bare c b := by
  unfold Device.insertRef
  split
  · exact h.ownClose ..
  · exact (h.refresh ..).congr rfl
theorem Bare.modSvc (h : d.Bare c b) (c' b' : Nat) (g : Lat) (f : SvcCount → SvcCount) : (d.modSvc c' b' g f).Bare c b :=
  h.congr rfl
theorem Bare.charge (h : d.Bare c b) (c' n : Nat) : (d.charge c' n).Bare c b := h.congr rfl
theorem Bare.forceRef (h : d.Bare c b) (c' b' : Nat) (g : Lat) : (d.forceRef c' b' g).Bare c b := by
  unfold Device.forceRef
  dsimp only
  split
  · exact h.insertRef ..
  · refine Bare.insertRef (h.modGroup c' b' g ?_ ?_ |>.modSvc ..) .. <;> exact fun _ => rfl
theorem Bare.forceAll (h : d.Bare c b) (c' b' : Nat) (g : Lat) (n : Nat) : (d.forceAll c' b' g n).Bare c b := by
  induction n generalizing d with
  | zero => exact h
  | succ n ih =>
    unfold Device.forceAll
    split
    · exact ih (h.forceRef ..)
    · exact h

/-! ### Commands of another bank -/

theorem copyLost_banks (d : Device) (c b : Nat) (g : Lat) : (d.copyLost c b g).banks = d.banks := by
  unfold copyLost; dsimp only; split <;> rfl
theorem sensedRow_banks (d : Device) (c b : Nat) (g : Lat) (key : Nat) : (d.sensedRow c b g key).banks = d.banks := by
  unfold sensedRow; dsimp only; split <;> rfl

theorem Bare.activate (h : d.Bare c b) (hk : bankKey c' b' ≠ bankKey c b) (g : Lat) (row t : Nat) (tag : BitVec 4) (src : BitVec 9) :
    (d.activate c' b' g row t tag src).Bare c b := by
  have applied : (d.applyRow c' b' (rowKey c' b' g.val row)).Bare c b := h.of_other hk _
  unfold Device.activate
  refine Bare.of_other_group (applied.congr ?_) hk ..
  exact (copyLost_banks ..).trans (sensedRow_banks ..)

theorem Bare.startRow (h : d.Bare c b) (hk : bankKey c' b' ≠ bankKey c b) (r : RowCmd) (t : Nat) :
    (d.startRow c' b' r t).Bare c b := by
  have started : (if r.op.slot then d.dieStart c' b' t else d).Bare c b := by
    split
    · exact h.congr rfl
    · exact h
  unfold Device.startRow
  generalize (if r.op.slot then d.dieStart c' b' t else d) = e at started
  have closed : (if (e.group c' b' r.g).phy then e.closeSense c' b' r.g t else e).Bare c b := by
    split
    · exact started.closeSense ..
    · exact started
  dsimp only
  split
  · exact started.activate hk ..
  · exact (started.activate hk ..).congr rfl
  · exact (started.congr (copyLost_banks ..)).of_other_group hk ..
  · exact started.of_other_group hk ..
  · exact started.of_other_group hk ..
  · exact (Bare.of_other_group started hk ..).charge ..
  · exact closed
  · exact closed
  · exact started.refresh ..

theorem Bare.release (h : d.Bare c b) (c' b' : Nat) (g : Lat) : (d.release c' b' g).Bare c b := by
  unfold Device.release
  split
  · next p first =>
    have other : bankKey c' b' ≠ bankKey c b := by
      intro e
      rw [Device.firstOn, (h.bank e).1] at first
      cases first
    split
    · exact (((h.startRow other ..).of_other other _).ownClose ..).of_other other _
    · exact h.ownClose ..
  · exact h.ownClose ..

theorem Bare.colUse (h : d.Bare c b) (c' b' : Nat) (g : Lat) (key cls : Nat) : (d.colUse c' b' g key cls).Bare c b := by
  have ready := (h.forceAll c' b' g 24).release c' b' g
  unfold Device.colUse
  generalize (d.forceAll c' b' g 24).release c' b' g = e at ready
  have taken : ∀ now t row y, (colTake now t cls row y).gs = y.gs ∧ (colTake now t cls row y).latch = y.latch := by
    intro now t row y
    unfold colTake
    dsimp only
    split <;> exact ⟨rfl, rfl⟩
  have used : ∀ now t row, ((e.sensed c' b' g key).modGroup c' b' g (colTake now t cls row)).Bare c b := fun now t row =>
    Bare.modGroup (d := e.sensed c' b' g key) (ready.congr rfl) c' b' g (fun y => (taken now t row y).1) fun y => (taken now t row y).2
  dsimp only
  split <;> split
  · exact ready
  · exact used ..
  · exact ready
  · exact used ..

end

/-- Column accesses keep a bare bank bare. -/
theorem bare_ported (c b : Nat) : Ported fun d => d.Bare c b where
  congr := Bare.congr
  releaseFor key cls h := by
    unfold Device.releaseFor
    split
    · exact h.colUse ..
    · exact h
  wqClose key h := by
    unfold Device.wqClose
    split
    · exact h.modBank _ _ fun _ bare => bare
    · exact h

end Device
end Sys2Proof.Machine
end

