-- ==== Sys2Proof/Proofs/LastExit.lean ====
section
/-! PROOF. EXIT of the last active hart of a gang (R55, R56, R81). -/

namespace Sys2Proof.Machine
namespace Device

/-! ### The identifier of a context, which no operation on its way changes -/

/-- The context identifier of a residence. -/
def ctxOf (d : Device) (rk : Nat) : Option (BitVec 12) := (d.res? rk).map Residence.ctx

theorem threads_ress {d e : Device} (h : e.threads = d.threads) : e.ress = d.ress := congrArg Prod.fst h

theorem ctxOf_of_ress {d e : Device} (h : e.ress = d.ress) (rk : Nat) : e.ctxOf rk = d.ctxOf rk := by
  unfold ctxOf res?; rw [h]

theorem ctxOf_of_threads {d e : Device} (h : e.threads = d.threads) (rk : Nat) : e.ctxOf rk = d.ctxOf rk :=
  ctxOf_of_ress (threads_ress h) rk

theorem elapse_ctxOf (d : Device) (n rk : Nat) : (d.elapse n).ctxOf rk = d.ctxOf rk := by
  unfold elapse ctxOf
  rw [wdExpire_frame]
  simp only [res?]
  rw [lookupK_mapKeyed (fun k r =>
    let r' := if d.wdCounts (k, r) then r.wdRun n else r
    if d.issues (k, r) then { r' with issued := r'.issued + n, quantum := r'.quantum + n, lastIssue := d.now + n - 1 } else r'),
    Option.map_map]
  congr 1
  funext r
  simp only [Function.comp]
  split <;> split <;> rfl

theorem advanceTo_ctxOf (d : Device) (t rk : Nat) : (d.advanceTo t).ctxOf rk = d.ctxOf rk := by
  unfold advanceTo
  split
  · rfl
  · exact elapse_ctxOf ..

theorem setRes_ctxOf {d : Device} {rk : Nat} {r x : Residence} (hr : d.res? rk = some r) (hx : x.ctx = r.ctx) (rk' : Nat) :
    (d.setRes rk x).ctxOf rk' = d.ctxOf rk' := by
  unfold ctxOf
  by_cases e : rk' = rk
  · subst e
    have same : (d.setRes rk' x).res? rk' = some x := lookupK_insertK_same _ _ _
    rw [same, hr, Option.map_some, Option.map_some, hx]
  · have other : (d.setRes rk x).res? rk' = d.res? rk' := lookupK_insertK_ne _ _ e
    rw [other]

theorem redCounted_ctxOf (d : Device) (rk bank rk' : Nat) : (d.redCounted rk bank).ctxOf rk' = d.ctxOf rk' := by
  unfold redCounted
  split
  · rfl
  · next r hr =>
    dsimp only
    split
    · exact setRes_ctxOf (x := resCountDown r bank) hr rfl rk'
    · rfl

theorem redAccept_ctxOf (d : Device) (q : RedReq) (rk : Nat) : (d.redAccept q).ctxOf rk = d.ctxOf rk := by
  have applied : ∀ (l : List (Nat × Nat)) (e : Device), (l.foldl (fun d p =>
      if q.atomic then (d.atomicAt (d.stor p.1) q.elt.bytes fun v => q.elt.apply q.op v p.2).1 else redOne q.op q.elt d p) e).threads
      = e.threads := foldl_threads fun d p => by split <;> simp
  unfold redAccept
  dsimp only
  split
  · exact redCounted_ctxOf ..
  · exact (redCounted_ctxOf ..).trans (ctxOf_of_threads ((applied _ _).trans (by simp)) rk)

theorem redCome_ctxOf (d : Device) (k rk : Nat) : (d.redCome k).ctxOf rk = d.ctxOf rk := by
  unfold redCome
  split
  · rfl
  · split
    · rfl
    · dsimp only
      split
      · exact advanceTo_ctxOf ..
      · rfl

theorem drainSome_ctxOf (d : Device) (rk bank most n rk' : Nat) : (d.drainSome rk bank most n).ctxOf rk' = d.ctxOf rk' := by
  induction n generalizing d with
  | zero => rfl
  | succ n ih =>
    unfold drainSome
    split
    · rfl
    · split
      · rfl
      · next k _ =>
        dsimp only
        split
        · exact redCome_ctxOf ..
        · exact (ih _).trans ((redAccept_ctxOf ..).trans
            ((ctxOf_of_threads (wqSpace_threads ..) rk').trans (redCome_ctxOf d k rk')))

/-! ### The bank of a hart that ends has nothing queued (R81) -/

theorem Resting.closeBank {d : Device} {c b : Nat} (h : d.Resting c b) (c' b' : Nat) : (d.closeBank c' b').Resting c b := by
  have cleared : (d.modBank c' b' fun k => { k with rowQ := [] }).Resting c b := h.modBank c' b' fun _ _ hs => ⟨rfl, hs⟩
  unfold Device.closeBank
  exact Resting.foldl (fun _ _ h => (h.ownClose ..).modGroup ..) _ cleared

theorem Bare.of_shut {d : Device} {c b : Nat} (hq : (d.bank c b).rowQ = []) (hs : d.Shut c b) : d.Bare c b :=
  Bare.of_bank ⟨hq, hs⟩

theorem Resting.endBank {d : Device} {c b : Nat} (h : d.Resting c b) (c' b' : Nat) : (d.endBank c' b').Resting c b :=
  (h.closeBank c' b').modBank c' b' fun _ hr hs => ⟨hr, hs⟩

end Device

section
variable {s : State} {h : Hdr} {k : Nat}

theorem solo_active (hs : s.Solo h k) : k ∈ s.active := by rw [hs.only]; exact List.mem_singleton_self k

/-- What is said of every hart that runs a word is said of the lone one. -/
theorem solo_all {P : Nat → Prop} (hs : s.Solo h k) (hp : P k) : ∀ j ∈ s.runners h, P j := by
  rw [solo_runners hs]
  exact List.forall_mem_singleton.mpr hp

theorem maskOf_singleton (k : Nat) : maskOf [k] = 1#16 <<< k := by simp [maskOf, bitOf]

/-! ### The package when the hart has ended (R81) -/

theorem windUp_one (hr : s.dev.Resting s.iss.core k) :
    s.windUp [k] = { s with dev := s.dev.drainReds s.rk k 0, iss := { s.iss with acted := true } } := by
  have rests := (Device.drainReds_drains s.dev s.rk k 0).2 _ _ hr
  have idle : ∀ t : State, (t.dev.core t.iss.core).mx = [] → t.settleQueue = t := fun t ht => by
    simp [State.settleQueue, Device.mxWaits, ht]
  unfold State.windUp
  rw [List.foldl_cons, List.foldl_nil, settleRows_resting (s := s.modDev fun d => d.drainReds s.rk k 0) rests]
  exact idle _ rests.mx

theorem endHarts_one (hb : (s.hart k).bars = Vector.replicate 4 none) (he : (s.hart k).engTraps = []) :
    s.endHarts [k] = (((s.modDev fun d => (d.endBank s.iss.core k).setHart s.rk k {}).modGang
      fun g => g.without (maskOf [k])).unshadow (maskOf [k])) := by
  rw [← endHart_eq hb he]; rfl

theorem setHart_bank (d : Device) (rk b : Nat) (t : Hart) (c k : Nat) : (d.setHart rk b t).bank c k = d.bank c k := rfl

theorem modGang_ress (s : State) (f : Gang → Gang) : (s.modGang f).dev.ress = s.dev.ress := by
  unfold State.modGang; rw [State.modDev_dev]; unfold Device.modGang; split <;> rfl

theorem modGang_bank (s : State) (f : Gang → Gang) (c b : Nat) : (s.modGang f).dev.bank c b = s.dev.bank c b := by
  unfold State.modGang; rw [State.modDev_dev, Device.modGang_bank]

theorem unshadow_iss (s : State) (e : Mask16) : (s.unshadow e).iss = s.iss := rfl

theorem unshadow_ress (s : State) (e : Mask16) : (s.unshadow e).dev.ress = s.dev.ress := by rw [unshadow_dev]

theorem unshadow_bank (s : State) (e : Mask16) (c b : Nat) : (s.unshadow e).dev.bank c b = s.dev.bank c b := by
  rw [unshadow_dev]; rfl

/-- An end changes no residence, and leaves nothing queued on the bank of the hart. -/
theorem endHarts_leaves (hb : (s.hart k).bars = Vector.replicate 4 none) (he : (s.hart k).engTraps = [])
    (hr : s.dev.Resting s.iss.core k) :
    (s.endHarts [k]).dev.ress = s.dev.ress ∧ ((s.endHarts [k]).dev.bank s.iss.core k).rowQ = [] := by
  have ress := Device.threads_ress (Device.endBank_threads s.dev s.iss.core k)
  have queue := (hr.endBank s.iss.core k).rowQ
  rw [← Device.setHart_ress _ s.rk k {}] at ress
  rw [← setHart_bank _ s.rk k {}] at queue
  rw [endHarts_one hb he]
  refine ⟨(unshadow_ress ..).trans ((modGang_ress ..).trans ress), ?_⟩
  rw [← queue]
  exact congrArg Bank.rowQ ((unshadow_bank ..).trans (modGang_bank ..))

/-- An end depends on the package and on which convoy it is of. -/
theorem endHarts_dev_congr {t : State} (hd : t.dev = s.dev) (hc : t.iss.core = s.iss.core) (hs : t.iss.slot = s.iss.slot)
    (hbase : t.iss.base = s.iss.base) (hb : (s.hart k).bars = Vector.replicate 4 none) (he : (s.hart k).engTraps = []) :
    (t.endHarts [k]).dev = (s.endHarts [k]).dev := by
  have rk : t.rk = s.rk := by rw [State.rk, hc, hs]; rfl
  have hart : t.hart k = s.hart k := by rw [State.hart, hd, rk]; rfl
  rw [endHarts_one hb he, endHarts_one (hart ▸ hb) (hart ▸ he), hc, rk]
  generalize hf : (fun d : Device => (d.endBank s.iss.core k).setHart s.rk k {}) = f
  simp only [State.unshadow, State.modGang, State.modDev, State.gang, State.rk, hd, hc, hs, hbase]

theorem endHarts_iss (hb : (s.hart k).bars = Vector.replicate 4 none) (he : (s.hart k).engTraps = []) :
    (s.endHarts [k]).iss = s.iss := by
  rw [endHarts_one hb he]
  exact (unshadow_iss ..).trans ((modGang_iss ..).trans (State.modDev_iss ..))

/-- The state of EXIT once its one hart has ended. -/
def State.exited (s : State) (h : Hdr) (k : Nat) : State := ((s.counted h exitUses).windUp [k]).endHarts [k]

theorem exited_dev (hr : s.begun.dev.Resting s.begun.iss.core k) (hb : (s.begun.hart k).bars = Vector.replicate 4 none)
    (he : (s.begun.hart k).engTraps = []) : (s.exited h k).dev = ((s.begun.windUp [k]).endHarts [k]).dev := by
  have drains := Device.drainReds_drains s.begun.dev s.begun.rk k 0
  have first := windUp_one (s := s.counted h exitUses) hr
  have other := windUp_one (s := s.begun) hr
  unfold State.exited
  rw [first, other]
  refine endHarts_dev_congr rfl rfl rfl rfl ?_ ?_
  · rw [← hb]; exact drains.1.bars ..
  · rw [← he]; exact drains.1.engTraps ..

/-- A record of the stack without an ended hart. -/
def DsRec.without (r : DsRec) (k : Nat) : DsRec := { r with ma := r.ma &&& ~~~ (1#16 <<< k), mw := r.mw &&& ~~~ (1#16 <<< k) }

/-- What EXIT of a lone hart leaves before the gang goes on: the hart gone, and the gang without it. -/
structure State.Exited (s t : State) (k : Nat) (g : Gang) : Prop where
  fails : t.iss.fails = []
  hold : t.iss.hold = none
  rk : t.rk = s.rk
  base : t.iss.base = s.iss.base
  core : t.iss.core = s.iss.core
  addr : t.iss.addr = s.begun.iss.addr
  ctx : t.ctx = s.begun.ctx
  hart : t.hart k = {}
  bare : t.dev.Bare s.iss.core k
  gang : t.dev.gang? s.rk s.iss.base = some g
  gm : g.gm = s.gang.gm &&& ~~~ (1#16 <<< k)
  live : g.live = s.gang.live &&& ~~~ (1#16 <<< k)
  ds : g.ds = s.gang.ds.map (DsRec.without · k)
  ended : g.ended = s.gang.ended

theorem ctx_eq (s : State) : s.ctx = (s.dev.ctxOf s.rk).getD 0 := by
  unfold State.ctx State.res? Device.ctxOf
  cases s.dev.res? s.rk <;> rfl

theorem exited_exited (hs : s.Solo h k) (hb : (s.begun.hart k).bars = Vector.replicate 4 none)
    (he : (s.begun.hart k).engTraps = []) : ∃ g, s.Exited (s.exited h k) k g := by
  have alone := solo_runners hs
  have active := solo_active hs
  obtain ⟨t, w, ht, fails, hold, rk, base, core, gang, gone⟩ := exit_effect hs.toQuiet ⟨k, active, hs.on⟩ (solo_all hs hb) (solo_all hs he)
  rw [alone] at ht gang gone
  obtain ⟨hart, shut⟩ := gone k (List.mem_singleton_self k)
  rw [maskOf_singleton] at gang
  obtain rfl : s.exited h k = t := ht
  have resting : (s.counted h exitUses).dev.Resting (s.counted h exitUses).iss.core k :=
    quiet_resting hs.toQuiet (banksOf_lt active)
  have drains := Device.drainReds_drains s.begun.dev s.begun.rk k 0
  have wound := windUp_one resting
  have bars : (((s.counted h exitUses).windUp [k]).hart k).bars = Vector.replicate 4 none := by
    rw [wound, ← hb]; exact drains.1.bars ..
  have traps : (((s.counted h exitUses).windUp [k]).hart k).engTraps = [] := by rw [wound, ← he]; exact drains.1.engTraps ..
  obtain ⟨ress, queue⟩ := endHarts_leaves bars traps (by rw [wound]; exact drains.2 _ _ resting)
  have iss := endHarts_iss bars traps
  have woundCtx : ((s.counted h exitUses).windUp [k]).dev.ctxOf s.rk = s.begun.dev.ctxOf s.rk := by
    rw [wound]; exact Device.drainSome_ctxOf ..
  have woundCore : ((s.counted h exitUses).windUp [k]).iss.core = s.iss.core := by
    rw [wound]; exact counted_core (h := h) (u := exitUses)
  rw [woundCore] at queue
  have ctx := (Device.ctxOf_of_ress ress s.rk).trans woundCtx
  refine ⟨_, fails, hold, rk, base, core, ?_, ?_, hart, Device.Bare.of_shut queue shut, gang, rfl, rfl, rfl, rfl⟩
  · rw [State.exited, iss, wound, ← counted_addr (h := h) (u := exitUses)]
  · rw [ctx_eq, ctx_eq, rk, begun_rk, State.exited, ctx]

/-! ### Where the gang goes on (R31, R55, R56) -/

/-- What the gang that takes a course leaves of an ended hart `k`, which alone is one of those that go there. -/
structure State.Follows (t u : State) (k : Nat) (c : Course) : Prop where
  hold : u.iss.hold = t.iss.hold
  core : u.iss.core = t.iss.core
  hart : u.hart k = t.hart k
  bare : t.dev.Bare t.iss.core k → u.dev.Bare t.iss.core k
  gang : ∀ g, t.dev.gang? t.rk t.iss.base = some g → u.dev.gang? t.rk t.iss.base = some (c.gang g)
  next : c.pc = nextWord t.iss.addr → u.iss.fails = [] ∧ u.iss.target = some c.pc
  passes : c.pc ≠ nextWord t.iss.addr → (t.dev.targetCheck t.iss.core t.ctx c.pc).2 = none →
    u.iss.fails = [] ∧ u.iss.target = some c.pc
  fails : ∀ f, c.pc ≠ nextWord t.iss.addr → (t.dev.targetCheck t.iss.core t.ctx c.pc).2 = some f → u.iss.fails = [(k, f)]

theorem Device.Bare.modGang {d : Device} {c b : Nat} (h : d.Bare c b) (rk base : Nat) (f : Gang → Gang) :
    (d.modGang rk base f).Bare c b := h.congr (by unfold Device.modGang; split <;> rfl)

/-- A state with the same gangs and harts, in which the gang then takes its course. -/
theorem gang_follows {t v : State} {c : Course} (rk : v.rk = t.rk) (base : v.iss.base = t.iss.base)
    (threads : v.dev.threads = t.dev.threads) :
    (v.modGang c.gang).hart k = t.hart k
      ∧ ∀ g, t.dev.gang? t.rk t.iss.base = some g → (v.modGang c.gang).dev.gang? t.rk t.iss.base = some (c.gang g) := by
  refine ⟨?_, fun g hg => ?_⟩
  · rw [modGang_hart, State.hart, rk, Device.threads_hart threads]; rfl
  · rw [← rk, ← base]
    exact modGang_gang (by rw [rk, base, Device.threads_gang threads, hg]) _

theorem follow_follows {t : State} (hf : t.iss.fails = []) (k : Nat) (c : Course) : t.Follows (t.follow [k] c) k c := by
  unfold State.follow
  by_cases stays : c.pc = nextWord t.iss.addr
  · obtain ⟨hart, gang⟩ := gang_follows (t := t) (v := t.goto c.pc) (c := c) (k := k) rfl rfl rfl
    rw [if_pos stays]
    exact ⟨rfl, rfl, hart, fun bare => bare.modGang .., gang, fun _ => ⟨hf, rfl⟩, fun other => absurd stays other,
      fun _ other => absurd stays other⟩
  · rw [if_neg stays]
    have bare := fun bare : t.dev.Bare t.iss.core k => (Device.bare_ported t.iss.core k).targetCheck bare t.iss.core t.ctx c.pc
    rcases hc : t.dev.targetCheck t.iss.core t.ctx c.pc with ⟨d, failed⟩
    rw [hc] at bare
    have threads := threads_of_targetCheck hc
    cases failed with
    | none =>
      obtain ⟨hart, gang⟩ := gang_follows (t := t) (v := { t with dev := d }.goto c.pc) (c := c) (k := k) rfl rfl threads
      rw [jumpOf_passed hc]
      refine ⟨rfl, rfl, hart, fun h => (bare h).modGang .., gang, fun e => absurd e stays, fun _ _ => ⟨hf, rfl⟩, fun _ _ e => ?_⟩
      rw [hc] at e; cases e
    | some f =>
      obtain ⟨hart, gang⟩ := gang_follows (t := t) (v := { t with dev := d }.failOn [k] f) (c := c) (k := k) rfl rfl threads
      rw [jumpOf_failed (List.nodup_singleton k) hf hc]
      refine ⟨rfl, rfl, hart, fun h => (bare h).modGang .., gang, fun e => absurd e stays, fun _ e => ?_, fun _ _ e => ?_⟩
      · rw [hc] at e; cases e
      · rw [hc] at e; cases e; rfl

/-- Records that have nothing left are dropped (R56). -/
theorem resume_dropped {gone : List DsRec} (hg : ∀ r ∈ gone, r.ma = 0 ∧ r.mw = 0) (l : List DsRec) :
    resume (gone ++ l) = resume l := by
  induction gone with
  | nil => rfl
  | cons r gone ih =>
    obtain ⟨⟨ma, mw⟩, rest⟩ := List.forall_mem_cons.mp hg
    rw [List.cons_append, resume, if_neg (not_not_intro mw), if_neg (not_not_intro ma), ih rest]

theorem leave_of_course {t : State} {run : List Nat} {c : Course} (hg : t.gang.gm = 0) (hc : resume t.gang.ds = some c) :
    t.leave run = t.follow run c := by
  simp only [State.leave, hg, hc, bne_self_eq_false, Bool.false_eq_true, if_false]

/-- A gang of which nothing is left (R56). -/
def Gang.finished (g : Gang) : Gang := { g with ended := true, ds := [] }

theorem leave_of_finished {t : State} {run : List Nat} (hg : t.gang.gm = 0) (hc : resume t.gang.ds = none) :
    t.leave run = t.modGang Gang.finished := by
  simp only [State.leave, hg, hc, bne_self_eq_false, Bool.false_eq_true, if_false]; rfl

theorem resume_waiting {r : DsRec} (hw : r.mw ≠ 0) (l : List DsRec) :
    resume (r :: l) = some { ds := { r with mw := 0 } :: l, gm := r.mw, pc := r.pw } := by rw [resume, if_pos hw]

theorem resume_arrived {r : DsRec} (hw : r.mw = 0) (ha : r.ma ≠ 0) (l : List DsRec) :
    resume (r :: l) = some (arrive r.j r.ma l) := by
  rw [resume, if_neg (not_not_intro hw), if_pos ha]

theorem arrive_after {k : Nat} {j : Word} (gm : Mask16) {arrived : List DsRec} (rest : List DsRec)
    (ha : ∀ q ∈ arrived, q.j = j ∧ (q.without k).mw = 0) :
    arrive j gm ((arrived ++ rest).map (DsRec.without · k))
      = arrive j ((arrived.getLast?.map fun q => (q.without k).ma).getD gm) (rest.map (DsRec.without · k)) := by
  rw [List.map_append, arrive_arrived, List.getLast?_map, Option.map_map]
  · rfl
  · intro q hq
    obtain ⟨p, hp, rfl⟩ := List.mem_map.mp hq
    exact ha p hp

theorem arrive_beyond {k : Nat} {j : Word} (gm : Mask16) {l : List DsRec} (hl : ∀ q, l.head? = some q → q.j ≠ j) :
    arrive j gm (l.map (DsRec.without · k)) = { ds := l.map (DsRec.without · k), gm := gm, pc := nextWord j } := by
  refine arrive_past j gm _ fun q hq => ?_
  rw [List.head?_map] at hq
  obtain ⟨p, hp, rfl⟩ := Option.map_eq_some_iff.mp hq
  exact hl p hp

/-- EXIT of a lone hart, and what its gang then stands at. -/
theorem exit_lone (hs : s.Solo h k) (hr : (s.begun.rollback.hart s.rk k).redOut = 0) :
    exec (.exit h) s = .next (((s.exited h k).leave [k]).endWord h) := by
  have ran := exec_exit hs.toQuiet ⟨k, solo_active hs, hs.on⟩ (solo_all hs hr)
  rwa [solo_runners hs] at ran

theorem lone_mask (hs : s.Solo h k) : s.gang.gm &&& ~~~ (1#16 <<< k) = 0 := by
  rw [← maskOf_singleton, ← solo_runners hs]
  exact stay_eq_zero_iff.mpr (by rw [hs.only]; exact List.forall_mem_singleton.mpr hs.on)

end

end Sys2Proof.Machine

open Sys2Proof Sys2Proof.Machine in
/-- Settles O24: by the course that the stack without the hart gives, if any. -/
theorem exitEndsTheHart : Obligations.ExitEndsTheHart := by
  intro s h k hs hb hr he _ _ e m
  obtain ⟨g, exited⟩ := exited_exited hs hb he
  have dev : (s.exited h k).dev = e := exited_dev (quiet_resting (h := h) hs.toQuiet (banksOf_lt (solo_active hs))) hb he
  have ran := exit_lone hs hr
  generalize s.exited h k = t at exited dev ran
  obtain ⟨fails, hold, rk, base, core, addr, ctx, hart, bare, gang, gm, live, ds, ended⟩ := exited
  rw [← rk, ← base] at gang
  have tgang : t.gang = g := by rw [State.gang, gang]; rfl
  have empty : t.gang.gm = 0 := by rw [tgang, gm]; exact lone_mask hs
  have after : ∀ gone l, s.gang.ds = gone ++ l → (∀ r ∈ gone, (m r).ma = 0 ∧ (m r).mw = 0) →
      resume t.gang.ds = resume (l.map m) := by
    intro gone l hl hgone
    rw [tgang, ds, hl, List.map_append]
    exact resume_dropped (fun r hr => by obtain ⟨q, hq, rfl⟩ := List.mem_map.mp hr; exact hgone q hq) _
  cases course : resume t.gang.ds with
  | none =>
    rw [leave_of_finished empty course] at ran
    have left := modGang_gang gang Gang.finished
    rw [rk, base] at left
    refine ⟨t.modGang Gang.finished, g.finished, ran, hold, ?_, fun q => ?_, left, live, fun gone l hl hgone => ?_⟩
    · rw [modGang_hart]; exact hart
    · obtain ⟨gs, valid⟩ := bare.shut q
      rw [State.latch, modGang_iss, core, Device.latch, modGang_group]
      exact ⟨valid, gs⟩
    · have none_ := (after gone l hl hgone).symm.trans course
      refine ⟨fun _ => ⟨fails, rfl, ?_, rfl⟩, ?_⟩
      · exact gm.trans (lone_mask hs)
      · rintro r rest rfl
        refine ⟨fun hw => ?_, fun hw ha => ?_⟩
        · rw [List.map_cons, resume_waiting hw] at none_; cases none_
        · rw [List.map_cons, resume_arrived hw ha] at none_; cases none_
  | some c =>
    rw [leave_of_course empty course] at ran
    have follows := follow_follows fails k c
    generalize t.follow [k] c = u at ran follows
    have left := follows.gang g gang
    rw [rk, base] at left
    refine ⟨u, c.gang g, ran, follows.hold.trans hold, follows.hart.trans hart, fun q => ?_, left, live, ?_⟩
    · obtain ⟨gs, valid⟩ := (follows.bare (core ▸ bare)).shut q
      rw [core] at gs valid
      rw [State.latch, follows.core, core]
      exact ⟨valid, gs⟩
    · intro goes gone l hl hgone
      have some_ := (after gone l hl hgone).symm.trans course
      have going : goes c.ds c.gm c.pc := by
        refine ⟨rfl, rfl, ended, fun e => follows.next (by rw [addr]; exact e), fun ne => ?_⟩
        rw [← addr] at ne
        rw [← dev, ← core, ← ctx]
        cases check : (t.dev.targetCheck t.iss.core t.ctx c.pc).2 with
        | none => exact follows.passes ne check
        | some f => exact follows.fails f ne check
      refine ⟨?_, ?_⟩
      · rintro rfl; cases some_
      · rintro r rest rfl
        refine ⟨fun hw => ?_, fun hw ha arrived rest' hrest harrived => ?_⟩
        · rw [List.map_cons, resume_waiting hw] at some_
          cases some_
          exact going
        · rw [List.map_cons, resume_arrived hw ha, hrest] at some_
          have arrives := (arrive_after (k := k) (m r).ma rest' harrived).symm.trans (Option.some.inj some_)
          refine ⟨fun past => ?_, ?_⟩
          · rw [arrive_beyond _ past] at arrives
            cases arrives
            exact going
          · rintro q rest'' rfl hj hw
            rw [List.map_cons, arrive_waiting (r := q.without k) _ _ hj hw] at arrives
            cases arrives
            exact going
end

