-- ==== Sys2Proof/Proofs/SpilledFrames.lean ====
section
/-! PROOF. The frames of a context that is switched out (R366, R367 step 4) take the pc of a hart from the first gang in the table that
covers the hart. The statement knows a gang by its key alone, and a table that lists one key twice has a gang that the key does not
give. -/

namespace Sys2Proof.Machine

/-! ### A package that lists a key of its gangs twice -/

namespace TwiceListed

/-- The residence of context 0 in slot 0 of core 0. -/
def residence : Residence :=
  { seq := 0, k := 0, ctx := 0, cls := 1, hmask := 3, gl := 0, fb := 0, sb := 0, cb := 0, abase := 0, acount := 0, twl := 0
    lwdt := false, ltvec := false }
/-- The gang at bank 0 that its key gives. -/
def first : Gang := { size := 1, gm := 1, pc := 0, live := 1 }
/-- The gang that the table lists after it under the same key: it covers bank 1 too. -/
def hidden : Gang := { size := 2, gm := 3, pc := 1, live := 3 }
/-- The gang at bank 1, the only one that a key gives for hart 1. -/
def second : Gang := { size := 1, gm := 2, pc := 2, live := 2 }
/-- The switch of core 0 to no context, whose spill is over. -/
def switch : SwitchReq := { dest := none, at_ := 0, class0 := false, phase := .spill }
/-- Slot 0 of core 0 switches out, with its latches in the spill rows. -/
def package : Device :=
  { cores := [(0, { issuing := some 0, switch := some switch })]
    ress := [(0, residence)]
    gangs := [(0, first), (0, hidden), (1, second)] }

theorem banks_idle : package.banksBusy 0 = false := by decide

theorem second_listed : package.gang? 0 1 = some second := by decide

/-- No other key gives a gang that covers hart 1. -/
theorem second_alone : ∀ b < 16, ∀ g, package.gang? 0 b = some g → b ≤ 1 → 1 < b + g.size → b = 1 := by
  intro b _ g hg hb h1
  obtain rfl | rfl : b = 0 ∨ b = 1 := by omega
  · cases (show some first = some g from hg)
    exact absurd h1 (by decide)
  · rfl

/-- The frame of hart 1 holds the pc of the gang that no key gives. -/
theorem frame_pc : ((package.switchStep 0).res? 0).map (fun r => r.frames.read (1024 * 1 + 0x200) 8) = some 1 := by decide +kernel

end TwiceListed

theorem contextSwitch_leaves {s : State} {c : Fin 2048} {d : Device} (h : RunsEvent s (.contextSwitch c) d) :
    d = s.dev.switchStep c := by
  have ran : Host.Outcome.next (s.modDev fun d => d.switchStep c) = Host.Outcome.next { s with dev := d } := h
  exact (congrArg State.dev (Host.Outcome.next.inj ran)).symm

end Sys2Proof.Machine

open Sys2Proof Sys2Proof.Machine in
/-- Refutes O54: in `TwiceListed.package` the context of slot 0 leaves, and the frame of hart 1, which the gang at bank 1 alone covers
by the keys, takes the pc 1 of the gang that is listed second under the key of bank 0, and not the pc 2 of its own. -/
theorem not_schedulerEvents : ¬ Obligations.SchedulerEvents := by
  intro holds
  obtain ⟨-, -, -, -, -, -, -, -, -, -, -, moves, -⟩ := holds { dev := TwiceListed.package } 0 0 0 false
  obtain ⟨-, -, -, spilled, -⟩ := moves TwiceListed.switch rfl
  obtain ⟨e, r, ran, -, -, found, -, -, frames⟩ := spilled 0 TwiceListed.residence rfl TwiceListed.banks_idle rfl rfl rfl
  obtain ⟨-, pc, -⟩ := frames (by decide) 1 (by decide) 1 (by decide) TwiceListed.second TwiceListed.second_listed (by decide)
    (by decide) TwiceListed.second_alone
  have written := TwiceListed.frame_pc
  rw [contextSwitch_leaves ran] at found
  rw [show (TwiceListed.package.switchStep 0).res? 0 = some r from found, Option.map_some, Option.some.injEq] at written
  have other : BitVec.ofNat 64 1 = TwiceListed.second.pc := written ▸ pc
  exact absurd other (by decide)
end

