-- ==== Sys2Proof/Proofs/ResetMemories.lean ====
section
/-! PROOF. The memories after reset (R121, R244, R247). -/

open Sys2Proof Sys2Proof.Machine in
/-- Settles O21: every table of the package after reset is the empty list. -/
theorem resetMemoriesCanonical : Obligations.ResetMemoriesCanonical :=
  ⟨rfl, rfl, rfl, rfl, rfl, rfl, rfl⟩

end

