-- ==== Sys2Proof/Proofs/SoloWords.lean ====
section
/-! PROOF. A word on the one active hart of its gang with nothing outstanding: it runs, fails, or writes one register, as its part on
that hart says (R32, R38). -/

namespace Sys2Proof.Machine

section
variable {s t : State} {h : Hdr} {i : Instr} {u : Uses} {part : Nat → State → HRes} {k : Nat}

theorem solo_lt (hs : s.Solo h k) : k < 16 := banksOf_lt (hs.only ▸ List.mem_singleton_self k : k ∈ s.active)

theorem exec_solo (hs : s.Solo h k) (he : exec i s = wordOp h u (perHart part) s) (hl : u.latch = []) :
    exec i s = .next ((perHart part [k] (s.counted h u)).endWord h) := by
  rw [he, wordOp_solo h u (perHart part) s k hs (by simp [hl]), State.counted, hs.only]

/-- The part on the hart goes on. -/
theorem runsTo_solo (hs : s.Solo h k) (he : exec i s = wordOp h u (perHart part) s) (hl : u.latch = [])
    (hp : part k (s.counted h u) = .ok t) (hi : t.iss = (s.counted h u).iss) : RunsTo s h i t := by
  have sound : (s.counted h u).failed k = false := by simp [State.failed, counted_fails hs.toCalm]
  refine ⟨?_, hi ▸ counted_fails hs.toCalm, hi ▸ counted_hold hs.toCalm⟩
  rw [exec_solo hs he hl, perHart_one part k _ t sound hp]

/-- The part on the hart fails a check. -/
theorem failsWith_solo {e : Fail} (hs : s.Solo h k) (he : exec i s = wordOp h u (perHart part) s) (hl : u.latch = [])
    (hp : part k (s.counted h u) = .fail e) : FailsWith s h i [(k, e)] := by
  obtain ⟨fails, hold⟩ := perHart_one_fail part k (s.counted h u) (counted_fails hs.toCalm) hp
  exact ⟨_, exec_solo hs he hl, fails, hold.trans (counted_hold hs.toCalm)⟩

/-- The part on the hart writes one register. -/
theorem writesReg_solo {r : Reg} {v : Word} {lat : Option Nat} (hs : s.Solo h k) (he : exec i s = wordOp h u (perHart part) s)
    (hl : u.latch = []) (hp : part k (s.counted h u) = .ok (writeReg k r v lat (s.counted h u))) :
    WritesReg s h i r fun _ => v := by
  refine ⟨_, runsTo_solo hs he hl hp rfl, regEffect_of s h r _ lat _ ?_ fun j hj => ?_⟩
  · exact (State.near_count ..).trans (State.near_modHart ..)
  · rw [writeReg, State.modHart_hart _ (solo_lt hs) hj, counted_hart]
    by_cases e : j = k
    · subst e; rw [if_pos rfl, if_pos ⟨solo_active hs, hs.on⟩]
    · rw [if_neg e, if_neg fun q => e (by simpa [hs.only] using q.1)]

end

end Sys2Proof.Machine
end

