-- ==== Sys2Proof/Proofs/RowQueries.lean ====
section
/-! PROOF. REFQ and ROWQ (R135, R136): the fields of the words that they write. -/

namespace Sys2Proof.Machine

/-! ### Fields of a word -/

theorem extract_ofNat {n v a l : Nat} (hl : a + l ≤ 64) (e : n / 2 ^ a % 2 ^ l = v % 2 ^ l) :
    (BitVec.ofNat 64 n).extractLsb' a l = BitVec.ofNat l v := by
  have cut : n % 2 ^ 64 / 2 ^ a % 2 ^ l = n / 2 ^ a % 2 ^ l := by
    rw [show (64 : Nat) = a + (64 - a) by omega, Nat.pow_add, Nat.mod_mul_right_div_self,
      Nat.mod_mod_of_dvd _ (Nat.pow_dvd_pow 2 (by omega))]
  apply BitVec.eq_of_toNat_eq
  simp only [BitVec.extractLsb'_toNat, BitVec.toNat_ofNat, Nat.shiftRight_eq_div_pow, cut, e]

theorem extract_toNat {n a l : Nat} {v : BitVec l} (hl : a + l ≤ 64) (e : n / 2 ^ a % 2 ^ l = v.toNat) :
    (BitVec.ofNat 64 n).extractLsb' a l = v := by
  rw [extract_ofNat hl (e.trans (Nat.mod_eq_of_lt v.isLt).symm), BitVec.ofNat_toNat, BitVec.setWidth_eq]

theorem extract_zero {n a l : Nat} (hl : a + l ≤ 64) (e : n / 2 ^ a % 2 ^ l = 0) : (BitVec.ofNat 64 n).extractLsb' a l = 0 :=
  extract_ofNat (v := 0) hl (by rw [e, Nat.zero_mod])

theorem getLsbD_ofNat {n i : Nat} {b : Bool} (hi : i < 64) (e : n / 2 ^ i % 2 = b.toNat) : (BitVec.ofNat 64 n).getLsbD i = b := by
  rw [BitVec.getLsbD_ofNat, decide_eq_true hi, Bool.true_and, Nat.testBit_eq_decide_div_mod_eq, e]
  cases b <;> rfl

theorem debtByte_lt (x : Group) : debtByte x < 2 ^ 8 := by unfold debtByte wrapTo; omega
theorem debtByte_ofInt (x : Group) : BitVec.ofNat 8 (debtByte x) = BitVec.ofInt 8 x.debt := by
  apply BitVec.eq_of_toNat_eq
  rw [BitVec.toNat_ofNat, Nat.mod_eq_of_lt (debtByte_lt x), BitVec.toNat_ofInt]
  rfl

/-! ### The word of REFQ (R135) -/

/-- The fields of what REFQ reads of a group. -/
theorem refq_group_fields {x : Group} {hot : Bool} {left : Nat} (hleft : left < 2 ^ 21) {v : Word}
    (hv : v = BitVec.ofNat 64 (debtByte x + x.dlp.isSome.toNat * 2 ^ 8 + hot.toNat * 2 ^ 9 + x.force.toNat * 2 ^ 10
      + x.rptr.val * 2 ^ 16 + left * 2 ^ 32)) :
    v.extractLsb' 0 8 = BitVec.ofInt 8 x.debt ∧ v.getLsbD 8 = x.dlp.isSome ∧ v.getLsbD 9 = hot ∧ v.getLsbD 10 = x.force
      ∧ v.extractLsb' 11 5 = 0 ∧ (v.extractLsb' 16 6).toNat = x.rptr.val ∧ v.extractLsb' 22 10 = 0
      ∧ (v.extractLsb' 32 21).toNat = left ∧ v.extractLsb' 53 11 = 0 := by
  have hdebt := debtByte_lt x
  have hdlp := x.dlp.isSome.toNat_lt
  have hhot := hot.toNat_lt
  have hforce := x.force.toNat_lt
  have hrptr := x.rptr.isLt
  rw [← debtByte_ofInt]
  subst hv
  generalize debtByte x = debt at *
  generalize e : x.dlp.isSome.toNat = dlp at *
  generalize e' : hot.toNat = hot' at *
  generalize e'' : x.force.toNat = force at *
  generalize x.rptr.val = rptr at *
  refine ⟨extract_ofNat (by omega) (by omega), getLsbD_ofNat (by omega) (by omega), getLsbD_ofNat (by omega) (by omega),
    getLsbD_ofNat (by omega) (by omega), extract_zero (by omega) (by omega), ?_, extract_zero (by omega) (by omega), ?_,
    extract_zero (by omega) (by omega)⟩
  · rw [extract_ofNat (v := rptr) (by omega) (by omega), BitVec.toNat_ofNat]; omega
  · rw [extract_ofNat (v := left) (by omega) (by omega), BitVec.toNat_ofNat]; omega

/-- The debts and deadlines of the four groups that REFQ reads of a bank. -/
def debtSum (x : Nat → Group) : Nat :=
  (List.range 4).foldl (fun acc k => acc + debtByte (x k) * 2 ^ (8 * k) + (x k).dlp.isSome.toNat * 2 ^ (32 + k)) 0

theorem debtSum_eq (x : Nat → Group) : debtSum x
    = debtByte (x 0) + (x 0).dlp.isSome.toNat * 2 ^ 32 + debtByte (x 1) * 2 ^ 8 + (x 1).dlp.isSome.toNat * 2 ^ 33
      + debtByte (x 2) * 2 ^ 16 + (x 2).dlp.isSome.toNat * 2 ^ 34 + debtByte (x 3) * 2 ^ 24 + (x 3).dlp.isSome.toNat * 2 ^ 35 := by
  rw [debtSum, show List.range 4 = [0, 1, 2, 3] from rfl, List.foldl_cons, List.foldl_cons, List.foldl_cons, List.foldl_cons,
    List.foldl_nil]
  omega

section
variable {n a b c d p q r t hot : Nat}
  (hn : n = a + p * 2 ^ 32 + b * 2 ^ 8 + q * 2 ^ 33 + c * 2 ^ 16 + r * 2 ^ 34 + d * 2 ^ 24 + t * 2 ^ 35 + hot * 2 ^ 36)
  (ha : a < 256) (hb : b < 256) (hc : c < 256) (hd : d < 256)
include hn ha hb hc hd

/-- The bytes of four bytes and five bits packed as in the word of REFQ. -/
theorem packed_bytes : n / 2 ^ 0 % 2 ^ 8 = a ∧ n / 2 ^ 8 % 2 ^ 8 = b ∧ n / 2 ^ 16 % 2 ^ 8 = c ∧ n / 2 ^ 24 % 2 ^ 8 = d := by
  refine ⟨?_, ?_, ?_, ?_⟩ <;> omega

/-- The bits of four bytes and five bits packed as in the word of REFQ. -/
theorem packed_bits (hp : p < 2) (hq : q < 2) (hr : r < 2) (ht : t < 2) (hh : hot < 2) :
    n / 2 ^ 32 % 2 = p ∧ n / 2 ^ 33 % 2 = q ∧ n / 2 ^ 34 % 2 = r ∧ n / 2 ^ 35 % 2 = t ∧ n / 2 ^ 36 % 2 = hot ∧ n / 2 ^ 37 = 0 := by
  have high : n / 2 ^ 32 = p + q * 2 + r * 4 + t * 8 + hot * 16 := by omega
  have up : ∀ k, n / 2 ^ (32 + k) = n / 2 ^ 32 / 2 ^ k := fun k => by rw [Nat.pow_add, Nat.div_div_eq_div_mul]
  rw [up 1, up 2, up 3, up 4, up 5, high]
  refine ⟨?_, ?_, ?_, ?_, ?_, ?_⟩ <;> omega

end

/-- The fields of what REFQ reads of a bank. -/
theorem refq_bank_fields (x : Nat → Group) (hot : Bool) {v : Word} (hv : v = BitVec.ofNat 64 (debtSum x + hot.toNat * 2 ^ 36)) :
    v.getLsbD 36 = hot ∧ v.extractLsb' 37 27 = 0
      ∧ ∀ q : Lat, v.extractLsb' (8 * q.val) 8 = BitVec.ofInt 8 (x q.val).debt ∧ v.getLsbD (32 + q.val) = (x q.val).dlp.isSome := by
  have byte := fun q => debtByte_lt (x q)
  have bit := fun q => (x q).dlp.isSome.toNat_lt
  have sum := congrArg (· + hot.toNat * 2 ^ 36) (debtSum_eq x)
  obtain ⟨b0, b1, b2, b3⟩ := packed_bytes sum (byte 0) (byte 1) (byte 2) (byte 3)
  obtain ⟨p0, p1, p2, p3, top, rest⟩ := packed_bits sum (byte 0) (byte 1) (byte 2) (byte 3) (bit 0) (bit 1) (bit 2) (bit 3) hot.toNat_lt
  have field : ∀ {n : Nat} (q : Lat), n / 2 ^ (8 * q.val) % 2 ^ 8 = debtByte (x q.val) →
      n / 2 ^ (32 + q.val) % 2 = (x q.val).dlp.isSome.toNat →
      (BitVec.ofNat 64 n).extractLsb' (8 * q.val) 8 = BitVec.ofInt 8 (x q.val).debt
        ∧ (BitVec.ofNat 64 n).getLsbD (32 + q.val) = (x q.val).dlp.isSome := fun q eb ep =>
    ⟨debtByte_ofInt (x q.val) ▸ extract_ofNat (by omega) (by rw [eb, Nat.mod_eq_of_lt (byte q)]), getLsbD_ofNat (by omega) ep⟩
  subst hv
  refine ⟨getLsbD_ofNat (by omega) top, extract_zero (by omega) (by rw [rest, Nat.zero_mod]), fun q => ?_⟩
  match q with
  | 0 => exact field 0 b0 p0
  | 1 => exact field 1 b1 p1
  | 2 => exact field 2 b2 p2
  | 3 => exact field 3 b3 p3

/-! ### The words of ROWQ (R136) -/

theorem poisoned_lt (x : Group) : ((List.range 128).filter fun k => x.latch.poison.getLsbD k).length < 2 ^ 8 :=
  Nat.lt_of_le_of_lt (List.length_filter_le ..) (by simp)

theorem gsCode_lt (gs : GroupState) : (gsCode gs).1 < 4 := by cases gs <;> simp [gsCode]

/-- The fields of what ROWQ reads of a group. -/
theorem rowqState_fields (x : Group) :
    (rowqState x).getLsbD 0 = x.latch.valid ∧ (rowqState x).extractLsb' 1 4 = x.latch.tag ∧ (rowqState x).getLsbD 7 = x.phy
      ∧ (rowqState x).extractLsb' 17 9 = x.latch.src
      ∧ (rowqState x).extractLsb' 5 2 = BitVec.ofNat 2 (gsCode x.gs).1 ∧ (rowqState x).extractLsb' 8 9 = BitVec.ofNat 9 (gsCode x.gs).2
      ∧ (rowqState x).extractLsb' 26 8 = BitVec.ofNat 8 ((List.range 128).filter fun k => x.latch.poison.getLsbD k).length
      ∧ (rowqState x).extractLsb' 34 30 = 0 := by
  have hn := poisoned_lt x
  have hv := x.latch.valid.toNat_lt
  have ht := x.latch.tag.isLt
  have hc := gsCode_lt x.gs
  have hp := x.phy.toNat_lt
  have hs := x.latch.src.isLt
  unfold rowqState
  dsimp only
  generalize ((List.range 128).filter fun k => x.latch.poison.getLsbD k).length = n at *
  generalize (gsCode x.gs).1 = a at *
  generalize (gsCode x.gs).2 = b at *
  refine ⟨getLsbD_ofNat (by omega) ?_, extract_toNat (by omega) ?_, getLsbD_ofNat (by omega) ?_, extract_toNat (by omega) ?_,
    extract_ofNat (by omega) ?_, extract_ofNat (by omega) ?_, extract_ofNat (by omega) ?_, extract_zero (by omega) ?_⟩ <;> omega

theorem count_poisoned (x : Group) : ((List.range 128).map x.latch.poison.getLsbD).count true
    = ((List.range 128).filter fun k => x.latch.poison.getLsbD k).length := by
  rw [List.count, List.countP_map, List.countP_eq_length_filter]
  congr 2
  funext k
  simp

/-! ### The words -/

section
variable {s : State} {h : Hdr} {k : Nat}

/-- With nothing queued at the bank, a query reads at once. -/
theorem drained_solo (hs : s.Solo h k) (u : Uses) (f : State → HRes) : drained k (s.counted h u) f = f (s.counted h u) := by
  have first : ((s.counted h u).rollback.bank (s.counted h u).iss.core k).rowQ = [] := by
    rw [counted_core]; exact hs.rowsFirst k (solo_lt hs)
  have now : ((s.counted h u).dev.bank (s.counted h u).iss.core k).rowQ = [] := by
    rw [counted_core]; exact hs.rows k (solo_lt hs)
  rw [drained, first]
  simp only [now, List.isEmpty_nil, Bool.not_true, Bool.false_eq_true, if_false, if_true]

/-- Nothing but the harts is at once at the first word of a convoy other than before it. -/
theorem begun_hot (s : State) : s.begun.dev.hot = s.dev.hot := by rw [State.begun, begin_dev]
theorem counted_grp (s : State) (h : Hdr) (u : Uses) (k : Nat) (g : Lat) : (s.counted h u).grp k g = s.begun.grp k g := by
  rw [State.grp, State.grp, counted_core, begun_core, counted_dev]
theorem counted_res (s : State) (h : Hdr) (u : Uses) : (s.counted h u).res? = s.begun.res? := rfl

theorem refqRes_some (s : State) (h : Hdr) (u : Uses) (k : Nat) (g : Lat) : refqRes (s.counted h u) k (some g)
    = let x := s.begun.grp k g
      BitVec.ofNat 64 (debtByte x + x.dlp.isSome.toNat * 2 ^ 8 + (s.dev.hot.getLsbD (s.iss.core / 128)).toNat * 2 ^ 9
        + x.force.toNat * 2 ^ 10 + x.rptr.val * 2 ^ 16
        + (s.begun.dev.nextTick s.iss.core k - s.begun.dev.now) % 2 ^ 21 * 2 ^ 32) := by
  rw [refqRes, counted_grp, counted_core, counted_dev, begun_hot]

theorem refqRes_none (s : State) (h : Hdr) (u : Uses) (k : Nat) : refqRes (s.counted h u) k none
    = BitVec.ofNat 64 (debtSum (fun j => s.begun.grp k ⟨j % 4, Nat.mod_lt _ (by decide)⟩)
        + (s.dev.hot.getLsbD (s.iss.core / 128)).toNat * 2 ^ 36) := by
  rw [refqRes, counted_core, counted_dev, begun_hot, debtSum]
  simp only [State.grp, Device.group, begun_core]

theorem refq_writes (hs : s.Solo h k) (d : XReg) (g : Option Lat) :
    WritesReg s h (.refq h d g) (.x d) fun _ => refqRes (s.counted h { wr := [.x d] }) k g :=
  writesReg_solo (u := { wr := [.x d] })
    (part := fun b s => drained b s fun s => .ok (writeReg b (.x d) (refqRes s b g) none s)) hs rfl rfl (drained_solo hs ..)

/-- The part of a ROWQ word on a hart, once the bank has drained. -/
def rowqReads (k : Nat) : RowqForm → State → Word
  | .allot, s => allotWord s
  | .state g, s => rowqState (s.grp k g)
  | .plo g, s => (s.grp k g).latch.poison.extractLsb' 0 64
  | .phi g, s => (s.grp k g).latch.poison.extractLsb' 64 64

theorem rowq_writes (hs : s.Solo h k) (d : XReg) (form : RowqForm) :
    WritesReg s h (.rowq h d form) (.x d) fun _ => rowqReads k form (s.counted h { wr := [.x d], mx := form != .allot }) := by
  refine writesReg_solo (lat := none) hs (rfl : _ = execRowq h d form s) rfl ?_
  cases form with
  | allot => rfl
  | state g | plo g | phi g => exact drained_solo hs ..

end

end Sys2Proof.Machine

open Sys2Proof Sys2Proof.Machine in
/-- Settles O28: the queries find the bank drained, and the fields are those of the words that they write. -/
theorem rowQueries : Obligations.RowQueries := by
  intro s h k d g r hs hr ha hc x hot
  refine ⟨⟨_, refq_writes hs d (some g), refq_group_fields (Nat.mod_lt _ (by decide)) (refqRes_some ..)⟩,
    ⟨_, refq_writes hs d none, ?_⟩, ⟨_, rowq_writes hs d (.state g), ?_⟩, ?_, ?_, ?_⟩
  · obtain ⟨top, rest, each⟩ := refq_bank_fields _ _ (refqRes_none s h { wr := [.x d] } k)
    refine ⟨top, rest, fun q => ?_⟩
    have same : (⟨q.val % 4, Nat.mod_lt _ (by decide)⟩ : Sys2Proof.Lat) = q := Fin.ext (Nat.mod_eq_of_lt q.isLt)
    simpa only [same] using each q
  · simp only [rowqReads, counted_grp]
    obtain ⟨valid, tag, phy, src, code, row, poisoned, rest⟩ := rowqState_fields x
    refine ⟨valid, tag, phy, src, fun e => ?_, fun i e => ?_, fun i e => ?_, ?_, rest⟩
    · rw [code, row, e]; exact ⟨rfl, rfl⟩
    · rw [code, row, e]; exact ⟨rfl, rfl⟩
    · rw [code, row, e]; exact ⟨rfl, rfl⟩
    · rw [poisoned, count_poisoned, BitVec.toNat_ofNat, Nat.mod_eq_of_lt (poisoned_lt x)]
  · convert rowq_writes hs d (.plo g) using 2
    rw [rowqReads, counted_grp, ← BitVec.setWidth_ushiftRight_eq_extractLsb, BitVec.ushiftRight_zero]
  · convert rowq_writes hs d (.phi g) using 2
    rw [rowqReads, counted_grp, BitVec.setWidth_ushiftRight_eq_extractLsb]
  · convert rowq_writes hs d .allot using 2
    rw [rowqReads, allotWord, counted_res, hr]
    dsimp only
    rw [Nat.mod_eq_of_lt ha, Nat.mod_eq_of_lt hc]
end

