-- ==== Sys2Proof/Proofs/RowCommands.lean ====
section
/-! PROOF. The words that queue row commands (R128 to R134): what a command that is queued leaves of its bank, and PREA as the
PRE of one claimed group after the other. -/

namespace Sys2Proof.Machine

/-! ### A command queued at a bank -/

/-- A row command queued at a bank (R60, R119). -/
def Bank.push (k : Bank) (now cv : Nat) (g : Lat) (op : RowOp) (joined : Bool) : Bank :=
  Bank.arrive now { k with rowQ := k.rowQ ++ [{ g := g, op := op, cv := cv, n := k.nextPlace, joined := joined }] }

section
variable {k : Bank} {now cv : Nat} {g : Lat} {op : RowOp} {joined : Bool}

@[simp] theorem push_groups : (k.push now cv g op joined).groups = k.groups := rfl
@[simp] theorem push_segs : (k.push now cv g op joined).segs = k.segs := rfl

/-- The commands that are at the bank already stay as they are when another comes. -/
theorem arrive_keeps {l : List RowCmd} (at_ : List RowCmd → RowCmd → Bool) (hl : ∀ r ∈ l, r.t0.isSome = true) (acc : List RowCmd) :
    l.foldl (fun l r => l ++ [if r.t0.isNone && at_ l r then { r with t0 := some now } else r]) acc = acc ++ l := by
  induction l generalizing acc with
  | nil => simp
  | cons r l ih =>
    have here : r.t0.isNone = false := by simpa using hl r (List.mem_cons_self ..)
    rw [List.foldl_cons, ih fun q hq => hl q (List.mem_cons_of_mem _ hq)]
    simp [here]

/-- A command that comes behind those of one PREA, or first, is at the bank at once. -/
theorem push_rowQ (hs : k.segs = []) (hq : ∀ r ∈ k.rowQ, r.t0.isSome = true) (hj : k.rowQ = [] ∨ joined = true) :
    (k.push now cv g op joined).rowQ
      = k.rowQ ++ [{ g := g, op := op, t0 := some now, cv := cv, n := k.nextPlace, joined := joined }] := by
  have all : ∀ q, (k.rowQ.filter fun e => e.op.queue == q).all (fun e => e.t0.isSome) = true := fun q =>
    List.all_eq_true.mpr fun r hr => hq r (List.mem_of_mem_filter hr)
  have head : ∀ k' : Bank, k'.segs = [] →
      k'.atHead k.rowQ { g := g, op := op, cv := cv, n := k.nextPlace, joined := joined } = true := by
    intro k' hk'
    rcases hj with hj | hj
    · simp [Bank.atHead, hk', hj]
    · simp [Bank.atHead, hk', hj, all]
  rw [Bank.push, Bank.arrive]
  dsimp only
  rw [List.foldl_append, arrive_keeps _ hq, List.nil_append, List.foldl_cons, List.foldl_nil]
  exact congrArg (fun r => k.rowQ ++ [r]) (if_pos (Bool.and_eq_true_iff.mpr ⟨rfl, head _ hs⟩))

theorem nextPlace_push (hs : k.segs = []) (hq : ∀ r ∈ k.rowQ, r.t0.isSome = true) (hj : k.rowQ = [] ∨ joined = true) :
    (k.push now cv g op joined).nextPlace = k.nextPlace + 1 := by
  have place : ∀ x : Bank, x.segs = [] → x.nextPlace = x.rowQ.foldl (fun m r => max m (r.n + 1)) 0 := fun x hx => by
    rw [Bank.nextPlace, hx, List.foldl_nil]
  rw [place (k.push now cv g op joined) hs, push_rowQ hs hq hj, List.foldl_append, ← place k hs]
  simp

theorem push_rowQ_empty (hs : k.segs = []) (hq : k.rowQ = []) :
    (k.push now cv g op false).rowQ = [{ g := g, op := op, t0 := some now, cv := cv }] := by
  rw [push_rowQ hs (by simp [hq]) (.inl hq), hq, Bank.nextPlace, hs, hq]
  rfl

end

/-! ### A bank changed for a word on one hart -/

/-- A group of a bank changed. -/
def Bank.modGroup (k : Bank) (g : Lat) (f : Group → Group) : Bank := { k with groups := k.groups.set g.val (f k.groups[g.val]) }

@[simp] theorem Bank.modGroup_same (k : Bank) (g : Lat) (f : Group → Group) : (k.modGroup g f).groups[g.val] = f k.groups[g.val] := by
  simp [Bank.modGroup]
theorem Bank.modGroup_ne (k : Bank) {g j : Lat} (f : Group → Group) (hj : j ≠ g) : (k.modGroup g f).groups[j.val] = k.groups[j.val] := by
  have : ¬ g.val = j.val := fun e => hj (Fin.ext e.symm)
  simp [Bank.modGroup, this]

theorem modBank_modBank (d : Device) (c b : Nat) (f f' : Bank → Bank) :
    (d.modBank c b f).modBank c b f' = d.modBank c b fun x => f' (f x) := by
  rw [Device.modBank, Device.modBank_bank_same, Device.modBank, Device.modBank, Device.setBank, Device.setBank, Device.setBank,
    insertK_insertK]

section
variable {s t : State} {h : Hdr} {u : Uses} {k : Nat} {g : Lat} {op : RowOp}

theorem pushRow_dev (s : State) (b : Nat) (g : Lat) (op : RowOp) (joined : Bool) : (s.pushRow b g op joined).dev
    = s.dev.modBank s.iss.core b fun x => x.push s.dev.now s.gang.cv g op joined := rfl

/-- A group changed and a command queued at its bank, as one change of the bank. -/
theorem modGrp_pushRow (s : State) (b : Nat) (g : Lat) (f : Group → Group) (op : RowOp) (joined : Bool) :
    ((s.modGrp b g f).pushRow b g op joined).dev
      = s.dev.modBank s.iss.core b fun x => (x.modGroup g f).push s.dev.now s.gang.cv g op joined :=
  modBank_modBank s.dev s.iss.core b (fun x => x.modGroup g f) fun x => x.push s.dev.now s.gang.cv g op joined

/-- A change of a bank that queues one command there is the effect of a row word. -/
theorem rowEffect_of (hk : k < 16) {f : Bank → Bank} {x : Group} (hc : t.iss.core = s.iss.core)
    (ht : t.dev = s.begun.dev.modBank s.iss.core k f) (hx : (f (s.begun.dev.bank s.iss.core k)).groups[g.val] = x)
    (hne : ∀ j : Lat, j ≠ g → (f (s.begun.dev.bank s.iss.core k)).groups[j.val] = (s.begun.dev.bank s.iss.core k).groups[j.val])
    (hq : (f (s.begun.dev.bank s.iss.core k)).rowQ = [{ g := g, op := op, t0 := some s.begun.dev.now, cv := s.gang.cv }]) :
    RowEffect s k g op x t := by
  have own : t.dev.bank s.iss.core k = f (s.begun.dev.bank s.iss.core k) := by rw [ht, Device.modBank_bank_same]
  have banks : ∀ b < 16, b ≠ k → t.dev.bank s.iss.core b = s.begun.dev.bank s.iss.core b := fun b hb hbk => by
    rw [ht, Device.modBank_bank_ne _ hk hb hbk]
  refine ⟨?_, own ▸ hq, fun b hb j hj => ?_, banks, by rw [ht]; rfl⟩
  · rw [State.grp, hc, Device.group, own, hx]
  · rw [State.grp, State.grp, hc, begun_core, Device.group, Device.group]
    by_cases e : b = k
    · subst e; rw [own]; exact hne j (hj.resolve_left fun h => h rfl)
    · rw [banks b hb e]

/-- A group changed and a command queued at the bank of the lone hart. -/
theorem rowEffect_modGrp (hs : s.Solo h k) (f : Group → Group) :
    RowEffect s k g op (f (s.begun.grp k g)) (((s.counted h u).modGrp k g f).pushRow k g op) := by
  refine rowEffect_of (solo_lt hs) (counted_core ..) ((modGrp_pushRow ..).trans (by rw [counted_core, counted_dev])) ?_ ?_ ?_
  · rw [push_groups, Bank.modGroup_same, State.grp, begun_core]; rfl
  · exact fun j hj => Bank.modGroup_ne _ _ hj
  · rw [counted_gang]
    exact push_rowQ_empty (hs.segs k (solo_lt hs)) (hs.rows k (solo_lt hs))

/-- A command queued at the bank of the lone hart, with its group as it was. -/
theorem rowEffect_pushRow (hs : s.Solo h k) : RowEffect s k g op (s.begun.grp k g) ((s.counted h u).pushRow k g op) := by
  refine rowEffect_of (solo_lt hs) (counted_core ..) ((pushRow_dev ..).trans (by rw [counted_core, counted_dev])) ?_ ?_ ?_
  · rw [push_groups, State.grp, begun_core]; rfl
  · exact fun j _ => rfl
  · rw [counted_gang]
    exact push_rowQ_empty (hs.segs k (solo_lt hs)) (hs.rows k (solo_lt hs))

end

/-! ### The row of a word (R122) -/

section
variable {s : State} {h : Hdr} {u : Uses} {k : Nat} {g : Lat} {row : Src} {r : Residence} {i : Int}

theorem counted_rowIndex (s : State) (h : Hdr) (u : Uses) (k : Nat) (row : Src) :
    (s.counted h u).rowIndex k row = s.begun.rowIndex k row := rfl
theorem begun_regs (s : State) : s.begun.dev.regs = s.dev.regs := by rw [State.begun, begin_dev]

theorem physRow_allotted (hr : s.begun.res? = some r) (hv : s.dev.regs.rsvc = false) (lo : 0 ≤ i) (hi : i < r.acount) :
    (s.counted h u).physRow i = some (r.abase + i.toNat) := by
  rw [State.physRow, counted_res, hr, counted_dev, begun_regs, hv]
  simp [not_lt.mpr lo, not_le.mpr hi]
theorem physRow_outside (hr : s.begun.res? = some r) (hi : i < 0 ∨ (r.acount : Int) ≤ i) : (s.counted h u).physRow i = none := by
  rw [State.physRow, counted_res, hr]
  rcases hi with hi | hi <;> simp [hi]

/-! ### The parts of the words on the lone hart -/

/-- A word whose part on the hart changes a group and queues a command. -/
theorem queues_of_part {w : Instr} {part : Nat → State → HRes} {f : Group → Group} {op : RowOp} (hs : s.Solo h k)
    (he : exec w s = wordOp h u (perHart part) s) (hl : u.latch = [])
    (hp : part k (s.counted h u) = .ok (((s.counted h u).modGrp k g f).pushRow k g op)) :
    ∃ t, RunsTo s h w t ∧ RowEffect s k g op (f (s.begun.grp k g)) t :=
  ⟨_, runsTo_solo hs he hl hp rfl, rowEffect_modGrp hs f⟩

theorem actOn_free {p : Nat} (hp : (s.counted h u).physRow (s.begun.rowIndex k row) = some p) (hf : (s.begun.grp k g).gs = .free) :
    actOn g row k (s.counted h u) = .ok (((s.counted h u).modGrp k g fun x =>
      { x with gs := .opened (s.begun.rowIndex k row).toNat, latch := { x.latch with valid := true } }).pushRow k g
        (.act p (s.begun.rowIndex k row).toNat)) := by
  simp [actOn, counted_rowIndex, hp, counted_grp, hf]
theorem actOn_claimed {p : Nat} (hp : (s.counted h u).physRow (s.begun.rowIndex k row) = some p) (hf : (s.begun.grp k g).gs ≠ .free) :
    actOn g row k (s.counted h u) = (s.counted h u).badState := by
  simp [actOn, counted_rowIndex, hp, counted_grp, hf]
theorem actOn_outside (hp : (s.counted h u).physRow (s.begun.rowIndex k row) = none) :
    actOn g row k (s.counted h u) = State.badRow (s.begun.rowIndex k row) := by
  simp [actOn, counted_rowIndex, hp]

section
variable {op : Nat → Bool → RowOp} {after : Nat → GroupState}

theorem wbOn_legal {p : Nat} (hp : (s.counted h u).physRow (s.begun.rowIndex k row) = some p)
    (hf : wbLegal (s.begun.grp k g).gs (s.begun.rowIndex k row).toNat = true) (hv : (s.begun.grp k g).latch.valid = true) :
    wbOn op after g row k (s.counted h u) = .ok (((s.counted h u).modGrp k g fun x =>
      { x with gs := after (s.begun.rowIndex k row).toNat }).pushRow k g
        (op p ((s.begun.grp k g).gs == .opened (s.begun.rowIndex k row).toNat))) := by
  simp [wbOn, counted_rowIndex, hp, counted_grp, hf, hv]
theorem wbOn_illegal {p : Nat} (hp : (s.counted h u).physRow (s.begun.rowIndex k row) = some p)
    (hf : wbLegal (s.begun.grp k g).gs (s.begun.rowIndex k row).toNat = false ∨ (s.begun.grp k g).latch.valid = false) :
    wbOn op after g row k (s.counted h u) = (s.counted h u).badState := by
  rcases hf with hf | hf <;> simp [wbOn, counted_rowIndex, hp, counted_grp, hf]
theorem wbOn_outside (hp : (s.counted h u).physRow (s.begun.rowIndex k row) = none) :
    wbOn op after g row k (s.counted h u) = State.badRow (s.begun.rowIndex k row) := by
  simp [wbOn, counted_rowIndex, hp]

end

theorem wbLegal_iff (gs : GroupState) (i : Nat) : wbLegal gs i = true ↔ gs = .free ∨ gs = .opened i := by
  cases gs <;> simp [wbLegal]
theorem wbLegal_not {gs : GroupState} {i : Nat} (hg : (∃ j, gs = .writing j) ∨ ∃ j, gs = .opened j ∧ j ≠ i) : wbLegal gs i = false := by
  rcases hg with ⟨j, rfl⟩ | ⟨j, rfl, hj⟩ <;> simp [wbLegal, *]

theorem preOf_free (hf : (s.grp k g).gs = .free) (joined : Bool) : preOf k g joined s = s := by simp [preOf, hf]
theorem preOf_claimed (hf : (s.grp k g).gs ≠ .free) (joined : Bool) :
    preOf k g joined s = (s.modGrp k g fun x => { x with gs := .free }).pushRow k g .pre joined := by simp [preOf, hf]

theorem refOn_free (hv : s.dev.regs.rsvc = false) (hf : (s.begun.grp k g).gs = .free) :
    refOn g k (s.counted h u) = .ok ((s.counted h u).pushRow k g .ref) := by
  simp [refOn, begun_regs, hv, counted_grp, hf]
theorem refOn_claimed (hv : s.dev.regs.rsvc = false) (hf : (s.begun.grp k g).gs ≠ .free) :
    refOn g k (s.counted h u) = (s.counted h u).badState := by
  simp [refOn, begun_regs, hv, counted_grp, hf]

/-! ### PREA, one claimed group after the other (R133) -/

/-- The commands of a PREA that has closed the groups of a list. -/
def preaQ (cv now : Nat) (l : List Lat) : List RowCmd :=
  l.zipIdx.map fun p => { g := p.1, op := .pre, cv := cv, t0 := some now, n := p.2, joined := decide (p.2 ≠ 0) }

theorem preaQ_snoc (cv now : Nat) (l : List Lat) (g : Lat) : preaQ cv now (l ++ [g])
    = preaQ cv now l ++ [{ g := g, op := .pre, cv := cv, t0 := some now, n := l.length, joined := decide (l.length ≠ 0) }] := by
  simp [preaQ, List.zipIdx_append]
theorem preaQ_here (cv now : Nat) (l : List Lat) : ∀ r ∈ preaQ cv now l, r.t0.isSome = true := by
  intro r hr
  obtain ⟨p, -, rfl⟩ := List.mem_map.mp hr
  rfl

/-- A bank after PREA has closed the groups of a list, and what it was. -/
structure Closed (l : List Lat) (now cv : Nat) (x y : Bank) : Prop where
  groups : ∀ g : Lat, y.groups[g.val] = if g ∈ l then { x.groups[g.val] with gs := .free } else x.groups[g.val]
  queue : y.rowQ = preaQ cv now l
  segs : y.segs = []
  place : y.nextPlace = l.length

theorem Closed.push {l : List Lat} {now cv : Nat} {x y : Bank} (hc : Closed l now cv x y) {g : Lat} (hg : g ∉ l) :
    Closed (l ++ [g]) now cv x ((y.modGroup g fun x => { x with gs := .free }).push now cv g .pre (decide (l.length ≠ 0))) := by
  obtain ⟨groups, queue, segs, place⟩ := hc
  have here : ∀ r ∈ y.rowQ, r.t0.isSome = true := queue ▸ preaQ_here cv now l
  have joined : y.rowQ = [] ∨ decide (l.length ≠ 0) = true := by
    rw [queue]
    cases l with
    | nil => exact .inl rfl
    | cons a l => exact .inr (by simp)
  refine ⟨fun q => ?_, ?_, segs, ?_⟩
  · rw [push_groups]
    by_cases e : q = g
    · subst e; rw [Bank.modGroup_same, groups, if_neg hg, if_pos (by simp)]
    · rw [Bank.modGroup_ne _ _ e, groups]; simp [e]
  · exact (push_rowQ (k := y.modGroup g _) segs here joined).trans
      (by rw [preaQ_snoc, ← place, ← queue]; rfl)
  · rw [nextPlace_push (k := y.modGroup g _) segs here joined, List.length_append]
    exact congrArg (· + 1) place

/-- A state after PREA has closed the groups of a list on hart b, and what it was. -/
structure Preaed (b : Nat) (l : List Lat) (s t : State) : Prop where
  own : Closed l s.dev.now s.gang.cv (s.dev.bank s.iss.core b) (t.dev.bank s.iss.core b)
  banks : ∀ j < 16, j ≠ b → t.dev.bank s.iss.core j = s.dev.bank s.iss.core j
  rest : t.dev = { s.dev with banks := t.dev.banks }
  iss : t.iss = s.iss

theorem Preaed.grp {b : Nat} {l : List Lat} {s t : State} (ht : Preaed b l s t) (g : Lat) :
    t.grp b g = if g ∈ l then { s.grp b g with gs := .free } else s.grp b g := by
  rw [State.grp, ht.iss, Device.group, ht.own.groups]; rfl

/-- One group more. -/
theorem Preaed.push {b : Nat} {l : List Lat} {s t : State} (ht : Preaed b l s t) (hb : b < 16) {g : Lat} (hg : g ∉ l)
    (hf : (s.grp b g).gs ≠ .free) : Preaed b (l ++ [g]) s (preOf b g (decide (l.length ≠ 0)) t) := by
  have claimed : (t.grp b g).gs ≠ .free := by rw [ht.grp, if_neg hg]; exact hf
  have now : t.dev.now = s.dev.now := by rw [ht.rest]
  have gang : t.gang = s.gang := by
    have gangs : t.dev.gangs = s.dev.gangs := by rw [ht.rest]
    rw [State.gang, State.gang, State.rk, State.rk, ht.iss, Device.gang?, Device.gang?, gangs]
  have dev : (preOf b g (decide (l.length ≠ 0)) t).dev = t.dev.modBank s.iss.core b fun x =>
      (x.modGroup g fun y => { y with gs := .free }).push s.dev.now s.gang.cv g .pre (decide (l.length ≠ 0)) := by
    rw [preOf_claimed claimed, modGrp_pushRow, ht.iss, now, gang]
  refine ⟨?_, fun j hj hne => ?_, ?_, ?_⟩
  · rw [dev, Device.modBank_bank_same]; exact ht.own.push hg
  · rw [dev, Device.modBank_bank_ne _ hb hj hne, ht.banks j hj hne]
  · rw [dev]; exact ht.rest ▸ rfl
  · rw [preOf_claimed claimed]; exact ht.iss

/-- The groups of a bank that are claimed, in rising order. -/
def State.claimed (s : State) (b : Nat) : List Lat := (List.finRange 4).filter fun g => (s.grp b g).gs ≠ .free

/-- PREA closes the claimed groups one after the other, the first alone and the others joined to it. -/
theorem prea_prefix {s : State} {b : Nat} (hb : b < 16) (hq : (s.dev.bank s.iss.core b).rowQ = [])
    (hs : (s.dev.bank s.iss.core b).segs = []) (l : List Lat) (hl : l <+: s.claimed b) :
    Preaed b l s (l.foldl (fun t g => preOf b g ((s.claimed b).head? != some g) t) s) := by
  have nodup : (s.claimed b).Nodup := (List.nodup_finRange 4).filter _
  induction l using List.reverseRecOn with
  | nil =>
    have place : (s.dev.bank s.iss.core b).nextPlace = 0 := by rw [Bank.nextPlace, hs, hq]; rfl
    exact ⟨⟨fun g => by simp, hq, hs, place⟩, fun _ _ _ => rfl, rfl, rfl⟩
  | append_singleton l g ih =>
    obtain ⟨rest, hrest⟩ := hl
    have mem : g ∈ s.claimed b := hrest ▸ by simp
    have out : g ∉ l := fun hg => by
      rw [← hrest] at nodup
      exact (List.nodup_append.mp (List.nodup_append.mp nodup).1).2.2 g hg g (by simp) rfl
    have first : ((s.claimed b).head? != some g) = decide (l.length ≠ 0) := by
      rw [← hrest]
      cases l with
      | nil => simp
      | cons a l => simpa using fun e : a = g => out (e ▸ List.mem_cons_self ..)
    rw [List.foldl_append, List.foldl_cons, List.foldl_nil, first]
    exact (ih ⟨g :: rest, by rw [← hrest]; simp⟩).push hb out (of_decide_eq_true (List.mem_filter.mp mem).2)

theorem counted_claimed (s : State) (h : Hdr) (u : Uses) (k : Nat) : (s.counted h u).claimed k = s.begun.claimed k := by
  simp only [State.claimed, counted_grp]

/-- Every group is free once the claimed ones are. -/
theorem claimed_freed (s : State) (h : Hdr) (u : Uses) (k : Nat) (g : Lat) :
    (if g ∈ (s.counted h u).claimed k then { (s.counted h u).grp k g with gs := .free } else (s.counted h u).grp k g)
      = { s.begun.grp k g with gs := .free } := by
  have mem : g ∈ s.begun.claimed k ↔ (s.begun.grp k g).gs ≠ .free := by simp [State.claimed]
  rw [counted_claimed, counted_grp]
  by_cases e : (s.begun.grp k g).gs = .free
  · rw [if_neg fun hg => mem.mp hg e, ← e]
  · rw [if_pos (mem.mpr e)]

end

end Sys2Proof.Machine

open Sys2Proof Sys2Proof.Machine in
/-- Settles O27: each word's part on the lone hart changes its group and queues its command, or fails. -/
theorem rowCommandWords : Obligations.RowCommandWords := by
  refine ⟨fun s h k g row r hs hr hv => ?_, fun s h k hs => ?_, fun s h k g row r hs hr hv => ?_⟩
  · intro i x phys valid
    have wb : ∀ {op : Nat → Bool → RowOp} {after : Nat → GroupState} {w : Instr} {u : Uses},
        exec w s = wordOp h u (perHart (wbOn op after g row)) s → u.latch = [] → 0 ≤ i → i < r.acount →
        x.gs = .free ∨ x.gs = .opened i.toNat → x.latch.valid = true →
        ∃ t, RunsTo s h w t ∧ RowEffect s k g (op phys (x.gs == .opened i.toNat)) { x with gs := after i.toNat } t :=
      fun he hl lo hi hf hv' => queues_of_part (f := fun x => { x with gs := _ }) hs he hl
        (wbOn_legal (physRow_allotted hr hv lo hi) ((wbLegal_iff ..).mpr hf) hv')
    refine ⟨fun lo hi hf => ?_, ?_, fun lo hi hf hv' => ⟨?_, ?_⟩, fun hf => ⟨?_, ?_⟩, fun hf => ?_⟩
    · exact queues_of_part (f := fun x => { x with gs := _, latch := { x.latch with valid := true } }) hs rfl rfl
        (actOn_free (physRow_allotted hr hv lo hi) hf)
    · exact queues_of_part (part := actwOn g) (f := fun x => { x with latch := { x.latch with valid := true } }) hs rfl rfl rfl
    · exact wb (after := .writing) rfl rfl lo hi hf hv'
    · exact wb (after := fun _ => .free) rfl rfl lo hi hf hv'
    · exact ⟨_, runsTo_solo (part := fun b s => .ok (preOf b g false s)) (u := { row := true }) hs rfl rfl
        (congrArg HRes.ok (preOf_free ((congrArg Group.gs (counted_grp ..)).trans hf) false)) rfl, rfl, counted_target⟩
    · exact ⟨_, runsTo_solo hs rfl rfl (refOn_free hv hf) rfl, rowEffect_pushRow hs⟩
    · exact queues_of_part (part := fun b s => .ok (preOf b g false s)) (f := fun x => { x with gs := .free }) hs rfl rfl
        (congrArg HRes.ok (preOf_claimed (fun e => hf ((congrArg Group.gs (counted_grp ..)).symm.trans e)) false))
  · have quiet := prea_prefix (s := s.counted h { row := true }) (solo_lt hs) (by rw [counted_core]; exact hs.rows k (solo_lt hs))
      (by rw [counted_core]; exact hs.segs k (solo_lt hs)) _ (List.prefix_refl _)
    refine ⟨_, runsTo_solo (part := preaOn) (u := { row := true }) hs rfl rfl rfl quiet.iss, fun g => ?_, ?_, ?_, quiet.rest⟩
    · exact (quiet.grp g).trans (claimed_freed ..)
    · have queue := quiet.own.queue
      rw [counted_core, counted_gang, counted_claimed] at queue
      exact queue
    · intro b hb hbk
      have bank := quiet.banks b hb hbk
      rw [counted_core] at bank
      exact bank
  · intro i x bad state
    have wbFails : ∀ {op : Nat → Bool → RowOp} {after : Nat → GroupState} {w : Instr} {u : Uses},
        exec w s = wordOp h u (perHart (wbOn op after g row)) s → u.latch = [] →
        (i < 0 ∨ (r.acount : Int) ≤ i → FailsWith s h w bad)
          ∧ (0 ≤ i → i < r.acount → (∃ j, x.gs = .writing j) ∨ (∃ j, x.gs = .opened j ∧ j ≠ i.toNat) ∨ x.latch.valid = false →
            FailsWith s h w state) := fun he hl =>
      ⟨fun out => failsWith_solo hs he hl (wbOn_outside (physRow_outside hr out)), fun lo hi hf =>
        failsWith_solo hs he hl (wbOn_illegal (physRow_allotted hr hv lo hi) ((or_assoc.mpr hf).imp_left wbLegal_not))⟩
    obtain ⟨wbOut, wbState⟩ := wbFails (op := .wb) (after := .writing) (w := .wb h g row) rfl rfl
    obtain ⟨wbpOut, wbpState⟩ := wbFails (op := .wbp) (after := fun _ => .free) (w := .wbp h g row) rfl rfl
    refine ⟨fun out => ⟨?_, wbOut out, wbpOut out⟩, fun hf => ⟨?_, fun lo hi => ?_⟩,
      fun lo hi hf => ⟨wbState lo hi hf, wbpState lo hi hf⟩⟩
    · exact failsWith_solo hs rfl rfl (actOn_outside (physRow_outside hr out))
    · exact failsWith_solo hs rfl rfl (refOn_claimed hv hf)
    · exact failsWith_solo hs rfl rfl (actOn_claimed (physRow_allotted hr hv lo hi) hf)
end

