-- ==== Sys2Proof/Proofs/ArrayWork.lean ====
section
/-! PROOF. What the work of the row banks leaves alone: the starts of row commands, the bank's own precharges and refreshes and the
column accesses change the array, the banks, the cores' weight halves and credits, the die windows and the counters of the service
unit, and of these last not what the measurements of retention keep. -/

namespace Sys2Proof.Machine

/-- A package after work of row banks, and what it was. -/
structure Worked (d e : Device) : Prop where
  frame : e = { d with
    mem := e.mem, memBad := e.memBad, lines := e.lines, proxies := e.proxies, cores := e.cores, banks := e.banks, svc := e.svc
    dies := e.dies, dieLast := e.dieLast }
  weak : ∀ key, (lookupD {} key e.svc).weak = (lookupD {} key d.svc).weak
  history : ∀ key, (lookupD {} key e.svc).history = (lookupD {} key d.svc).history

namespace Worked

variable {d e : Device} (c b : Nat) (g : Lat)

theorem refl (d : Device) : Worked d d := ⟨rfl, fun _ => rfl, fun _ => rfl⟩
theorem trans {f : Device} (h : Worked d e) (h' : Worked e f) : Worked d f := by
  refine ⟨?_, fun key => (h'.weak key).trans (h.weak key), fun key => (h'.history key).trans (h.history key)⟩
  rw [h'.frame, h.frame]

/-- A change of the tables named that leaves the counters. -/
theorem of_frame {e' : Device} (h : Worked d e) (hs : e'.svc = e.svc)
    (he : e' = { e with
      mem := e'.mem, memBad := e'.memBad, lines := e'.lines, proxies := e'.proxies, cores := e'.cores, banks := e'.banks
      svc := e'.svc, dies := e'.dies, dieLast := e'.dieLast }) : Worked d e' :=
  h.trans ⟨he, fun _ => by rw [hs], fun _ => by rw [hs]⟩

theorem modBank (h : Worked d e) (f : Bank → Bank) : Worked d (e.modBank c b f) := h.of_frame rfl rfl
theorem modGroup (h : Worked d e) (f : Group → Group) : Worked d (e.modGroup c b g f) := h.of_frame rfl rfl
theorem modCore (h : Worked d e) (f : Core → Core) : Worked d (e.modCore c f) := h.of_frame rfl rfl
theorem charge (h : Worked d e) (n : Nat) : Worked d (e.charge c n) := h.of_frame rfl rfl
theorem dieStart (h : Worked d e) (t : Nat) : Worked d (e.dieStart c b t) := h.of_frame rfl rfl
theorem applyRow (h : Worked d e) (key : Nat) : Worked d (e.applyRow c b key) := h.of_frame rfl rfl
theorem refresh (h : Worked d e) (t : Nat) : Worked d (e.refresh c b g t) := h.of_frame rfl rfl
theorem drive (h : Worked d e) (row t : Nat) : Worked d (e.drive c b g row t) := h.of_frame rfl rfl

theorem modSvc (h : Worked d e) {f : SvcCount → SvcCount} (hw : ∀ v, (f v).weak = v.weak) (hh : ∀ v, (f v).history = v.history) :
    Worked d (e.modSvc c b g f) := by
  refine h.trans ⟨rfl, fun key => ?_, fun key => ?_⟩ <;> rw [Device.modSvc, lookupD_insertK] <;> split
  · next same => rw [hw, same]
  · rfl
  · next same => rw [hh, same]
  · rfl

theorem sensed (h : Worked d e) (key : Nat) : Worked d (e.sensed c b g key) := h.modSvc c b g (fun _ => rfl) fun _ => rfl
theorem sensedRow (h : Worked d e) (key : Nat) : Worked d (e.sensedRow c b g key) := by
  unfold Device.sensedRow
  dsimp only
  split
  · exact h.sensed c b g key
  · exact (h.sensed c b g key).modSvc c b g (fun _ => rfl) fun _ => rfl
theorem copyLost (h : Worked d e) : Worked d (e.copyLost c b g) := by
  unfold Device.copyLost
  dsimp only
  split
  · exact h.modCore c _
  · exact h
theorem activate (h : Worked d e) (row t : Nat) (tag : BitVec 4) (src : BitVec 9) : Worked d (e.activate c b g row t tag src) := by
  unfold Device.activate
  exact (((h.applyRow c b _).sensedRow c b g _).copyLost c b g).modGroup c b g _
theorem performPend (h : Worked d e) : Worked d (e.performPend c b g) := by
  unfold Device.performPend
  split
  · exact h
  · exact h.of_frame rfl rfl
theorem closeSense (h : Worked d e) (t : Nat) : Worked d (e.closeSense c b g t) := (h.performPend c b g).modGroup c b g _
theorem ownClose (h : Worked d e) : Worked d (e.ownClose c b g) := by
  unfold Device.ownClose
  split
  · exact h.closeSense c b g _
  · exact h

theorem startRow (h : Worked d e) (r : RowCmd) (t : Nat) : Worked d (e.startRow c b r t) := by
  have slot : Worked d (if r.op.slot then e.dieStart c b t else e) := by
    split
    · exact h.dieStart c b t
    · exact h
  unfold Device.startRow
  generalize (if r.op.slot then e.dieStart c b t else e) = e' at slot
  dsimp only
  split
  · exact slot.activate c b _ ..
  · exact (slot.activate c b _ ..).charge c _
  · exact (slot.copyLost c b _).modGroup c b _ _
  · exact slot.drive c b _ ..
  · exact slot.drive c b _ ..
  · exact (slot.drive c b _ ..).charge c _
  · split
    · exact slot.closeSense c b _ t
    · exact slot
  · split
    · exact slot.closeSense c b _ t
    · exact slot
  · exact slot.refresh c b _ t

theorem startAt (h : Worked d e) (p : Nat × RowCmd × Nat) : Worked d (e.startAt c b p) := by
  unfold Device.startAt
  exact (h.startRow c b _ _).modBank c b _

theorem insertRef (h : Worked d e) : Worked d (e.insertRef c b g) := by
  unfold Device.insertRef
  split
  · exact h.ownClose c b g
  · exact (h.refresh c b g _).charge c _
theorem forceRef (h : Worked d e) : Worked d (e.forceRef c b g) := by
  unfold Device.forceRef
  refine insertRef c b g ?_
  split
  · exact h
  · exact (h.modGroup c b g _).modSvc c b g (fun _ => rfl) fun _ => rfl
theorem forceAll (h : Worked d e) (n : Nat) : Worked d (e.forceAll c b g n) := by
  induction n generalizing e with
  | zero => exact h
  | succ n ih =>
    unfold Device.forceAll
    split
    · exact ih (h.forceRef c b g)
    · exact h
theorem release (h : Worked d e) : Worked d (e.release c b g) := by
  unfold Device.release
  split
  · split
    · exact ((h.startAt c b _).ownClose c b g).modBank c b _
    · exact h.ownClose c b g
  · exact h.ownClose c b g

theorem colUse (h : Worked d e) (key cls : Nat) : Worked d (e.colUse c b g key cls) := by
  have ready := (h.forceAll c b g 24).release c b g
  unfold Device.colUse
  generalize (e.forceAll c b g 24).release c b g = f at ready
  dsimp only
  split <;> split
  · exact ready
  · exact (ready.sensed c b g key).modGroup c b g _
  · exact ready
  · exact (ready.sensed c b g key).modGroup c b g _
theorem releaseFor (h : Worked d e) (key cls : Nat) : Worked d (e.releaseFor key cls) := by
  unfold Device.releaseFor
  split
  · exact h.colUse _ _ _ key cls
  · exact h

end Worked

end Sys2Proof.Machine
end

