-- ==== Sys2Proof/Proofs/RowStarts.lean ====
section
/-! PROOF. What the work of a row bank on one group leaves of its bank, and with it the start of a row command (R119, R123 to R125,
R128 to R134, R144). -/

namespace Sys2Proof.Machine

/-- A group whose latch is driven into a row (R130). -/
def Group.driven (x : Group) (row t : Nat) : Group :=
  { x with pend := some { row := row, data := x.latch.data, poison := x.latch.poison }, phy := true
           pr := max x.pr (t + 44), lw := max x.lw (t + 16), ro := t + 4 }
/-- A group into whose latch a row is activated (R128). -/
def Group.activated (x : Group) (record : LatchRec) (t : Nat) : Group :=
  { x with latch := record, phy := true, lr := t + 24, lw := t + 24, pr := t + 56, ro := t + 4 }

/-- A group after one REF (R134). -/
def Group.refreshed (x : Group) (t : Nat) : Group :=
  { x with rptr := x.rptr + 1, debt := max (x.debt - 1) (-8), sa := t + 96, ro := t + 4
           dlp := if max (x.debt - 1) (-8) < 8 then none else x.dlp, force := x.force && decide (4 < max (x.debt - 1) (-8)) }
theorem refreshed_debt (x : Group) (t : Nat) : (x.refreshed t).debt = if x.debt ≤ -8 then -8 else x.debt - 1 := by
  rw [Group.refreshed]
  dsimp only
  split <;> omega

/-- Work on one group of a bank: the group is `y` after it, and the other groups and the queue of row commands are as before. -/
structure GroupWork (c b : Nat) (g : Lat) (y : Group) (d e : Device) : Prop where
  own : e.group c b g = y
  others : ∀ q, q ≠ g → e.group c b q = d.group c b q
  queue : (e.bank c b).rowQ = (d.bank c b).rowQ

namespace GroupWork

variable {c b : Nat} {g : Lat} {y : Group} {d e e' : Device}

theorem refl (c b : Nat) (g : Lat) (d : Device) : GroupWork c b g (d.group c b g) d d := ⟨rfl, fun _ _ => rfl, rfl⟩

/-- What keeps the groups and the queue of the bank. -/
theorem of_bank (h : GroupWork c b g y d e) (hg : (e'.bank c b).groups = (e.bank c b).groups)
    (hq : (e'.bank c b).rowQ = (e.bank c b).rowQ) : GroupWork c b g y d e' := by
  have same : ∀ q, e'.group c b q = e.group c b q := fun q => by rw [Device.group, hg]; rfl
  exact ⟨(same g).trans h.own, fun q hne => (same q).trans (h.others q hne), hq.trans h.queue⟩
theorem modGroup (h : GroupWork c b g y d e) (f : Group → Group) : GroupWork c b g (f y) d (e.modGroup c b g f) := by
  refine ⟨?_, fun q hne => ?_, ?_⟩
  · rw [Device.modGroup_group_same, h.own]
  · rw [Device.modGroup_group_ne _ _ _ _ hne, h.others q hne]
  · rw [Device.modGroup, Device.modBank_bank_same]; exact h.queue

theorem trans {z : Group} (h : GroupWork c b g y d e) (h' : GroupWork c b g z e e') : GroupWork c b g z d e' :=
  ⟨h'.own, fun q hne => (h'.others q hne).trans (h.others q hne), h'.queue.trans h.queue⟩

theorem performPend (h : GroupWork c b g y d e) : GroupWork c b g { y with pend := none } d (e.performPend c b g) := by
  unfold Device.performPend
  split
  · next none =>
    have same : ({ y with pend := .none } : Group) = y := by rw [h.own] at none; rw [← none]
    exact same ▸ h
  · refine modGroup (h.of_bank ?_ ?_) fun x => { x with pend := .none }
    · rw [Device.modBank_bank_same]; rfl
    · rw [Device.modBank_bank_same]; rfl
theorem closeSense (h : GroupWork c b g y d e) (t : Nat) :
    GroupWork c b g { y with pend := none, phy := false, sa := t + 24 } d (e.closeSense c b g t) :=
  h.performPend.modGroup fun x => { x with phy := false, sa := t + 24 }
theorem drive (h : GroupWork c b g y d e) (row t : Nat) : GroupWork c b g (y.driven row t) d (e.drive c b g row t) :=
  h.modGroup fun x => x.driven row t
theorem charge (h : GroupWork c b g y d e) (c' n : Nat) : GroupWork c b g y d (e.charge c' n) := h.of_bank rfl rfl
theorem copyLost (h : GroupWork c b g y d e) : GroupWork c b g y d (e.copyLost c b g) := by
  unfold Device.copyLost
  dsimp only
  split
  · exact h.of_bank rfl rfl
  · exact h
theorem sensedRow (h : GroupWork c b g y d e) (key : Nat) : GroupWork c b g y d (e.sensedRow c b g key) := by
  unfold Device.sensedRow
  dsimp only
  split <;> exact h.of_bank rfl rfl

end GroupWork

namespace Device

variable {c b : Nat} {g : Lat} {d : Device}

/-! ### The array -/

theorem copyLost_mem (d : Device) (c b : Nat) (g : Lat) : (d.copyLost c b g).mem = d.mem := by
  unfold copyLost; dsimp only; split <;> rfl
theorem sensedRow_mem (d : Device) (c b : Nat) (g : Lat) (key : Nat) : (d.sensedRow c b g key).mem = d.mem := by
  unfold sensedRow; dsimp only; split <;> rfl
theorem sensedRow_memBad (d : Device) (c b : Nat) (g : Lat) (key : Nat) : (d.sensedRow c b g key).memBad = d.memBad := by
  unfold sensedRow; dsimp only; split <;> rfl
theorem sensedRow_now (d : Device) (c b : Nat) (g : Lat) (key : Nat) : (d.sensedRow c b g key).now = d.now := by
  unfold sensedRow; dsimp only; split <;> rfl

theorem performPend_mem_none (h : (d.group c b g).pend = none) : (d.performPend c b g).mem = d.mem := by
  unfold performPend; rw [h]
theorem performPend_mem_some {w : ArrayWrite} (h : (d.group c b g).pend = some w) :
    (d.performPend c b g).mem = d.mem.write (rowKey c b g.val w.row) 8192 w.data.toNat := by
  unfold performPend; rw [h]; rfl

/-- A row without poison is read as it stands. -/
theorem rowRead_clean {key : Nat} (h : d.rowPoison key = 0) : d.rowRead key = BitVec.ofNat 65536 (d.mem.read key 8192) := by
  have clean : ∀ k, (0 : BitVec 128).getLsbD k = false := fun k => BitVec.getLsbD_zero
  simp only [rowRead, h, clean, Bool.false_eq_true, if_false, List.foldl_fixed]

/-! ### A row activated -/

/-- The record that a row leaves in its latch. -/
def rowRecord (d : Device) (key : Nat) (tag : BitVec 4) (src : BitVec 9) : LatchRec :=
  { valid := true, tag := tag, src := src, poison := d.rowPoison key, data := d.rowRead key }

theorem activate_work (d : Device) (c b : Nat) (g : Lat) (row t : Nat) (tag : BitVec 4) (src : BitVec 9) : GroupWork c b g
    ((d.group c b g).activated (d.rowRecord (rowKey c b g.val row) tag src) t) d (d.activate c b g row t tag src) := by
  have applied : GroupWork c b g (d.group c b g) d (d.applyRow c b (rowKey c b g.val row)) :=
    (GroupWork.refl c b g d).of_bank (by rw [applyRow, modBank_bank_same]) (by rw [applyRow, modBank_bank_same])
  have record : ((d.applyRow c b (rowKey c b g.val row)).sensedRow c b g (rowKey c b g.val row)).rowRecord (rowKey c b g.val row) tag src
      = d.rowRecord (rowKey c b g.val row) tag src := by
    simp only [rowRecord, rowRead, rowPoison, sensedRow_mem, sensedRow_memBad, sensedRow_now]
    rfl
  rw [← record]
  exact (applied.sensedRow _).copyLost.modGroup fun x => x.activated _ t

theorem activate_mem (d : Device) (c b : Nat) (g : Lat) (row t : Nat) (tag : BitVec 4) (src : BitVec 9) :
    (d.activate c b g row t tag src).mem = d.mem := by
  unfold activate
  dsimp only
  rw [modGroup_mem, copyLost_mem, sensedRow_mem]
  rfl

/-! ### The commands -/

variable {r : RowCmd} {t n : Nat}

theorem dieStart_work (d : Device) (c b : Nat) (g : Lat) (t : Nat) : GroupWork c b g (d.group c b g) d (d.dieStart c b t) :=
  (GroupWork.refl c b g d).of_bank rfl rfl

theorem startRow_act {row i : Nat} (h : r.op = .act row i) : d.startRow c b r t
    = (d.dieStart c b t).activate c b r.g row t (d.rowTag c b r.g row) (BitVec.ofNat 9 i) := by
  unfold startRow; rw [h]; rfl
theorem startRow_restore {row : Nat} {tag : BitVec 4} {src : BitVec 9} (h : r.op = .restore row tag src) : d.startRow c b r t
    = ((d.dieStart c b t).activate c b r.g row t tag src).charge c 16 := by
  unfold startRow; rw [h]; rfl
theorem startRow_spill {row : Nat} (h : r.op = .spill row) : d.startRow c b r t = ((d.dieStart c b t).drive c b r.g row t).charge c 16 := by
  unfold startRow; rw [h]; rfl
theorem startRow_wb {row : Nat} {held : Bool} (h : r.op = .wb row held ∨ r.op = .wbp row held) : d.startRow c b r t
    = (d.dieStart c b t).drive c b r.g row t := by
  rcases h with h | h <;> unfold startRow <;> rw [h] <;> rfl
theorem startRow_actw (h : r.op = .actw) : d.startRow c b r t
    = ((d.dieStart c b t).copyLost c b r.g).modGroup c b r.g fun x =>
        { x with latch := { valid := true }, lr := t + 4, lw := t + 4, ro := t + 4 } := by
  unfold startRow; rw [h]; rfl
theorem startRow_pre (h : r.op = .pre ∨ r.op = .close) : d.startRow c b r t
    = if (d.group c b r.g).phy then d.closeSense c b r.g t else d := by
  rcases h with h | h <;> unfold startRow <;> rw [h] <;> rfl
theorem startRow_ref (h : r.op = .ref) : d.startRow c b r t = d.refresh c b r.g t := by
  unfold startRow; rw [h]; rfl

theorem startAt_bank (d : Device) (c b : Nat) (p : Nat × RowCmd × Nat) :
    (d.startAt c b p).bank c b = Bank.arrive (d.startRow c b p.2.1 p.2.2).now { (d.startRow c b p.2.1 p.2.2).bank c b with
      rowQ := ((d.startRow c b p.2.1 p.2.2).bank c b).rowQ.take p.1
        ++ (if p.2.1.op.closes then [{ p.2.1 with op := .close, t0 := none }] else [])
        ++ ((d.startRow c b p.2.1 p.2.2).bank c b).rowQ.drop (p.1 + 1) } := by
  rw [startAt, modBank_bank_same]
theorem startAt_group (d : Device) (c b : Nat) (p : Nat × RowCmd × Nat) (q : Lat) :
    (d.startAt c b p).group c b q = (d.startRow c b p.2.1 p.2.2).group c b q := by
  rw [group, startAt_bank]; rfl

theorem charge_mem (d : Device) (c n : Nat) : (d.charge c n).mem = d.mem := rfl
theorem startAt_mem (d : Device) (c b : Nat) (p : Nat × RowCmd × Nat) : (d.startAt c b p).mem = (d.startRow c b p.2.1 p.2.2).mem := rfl

/-! ### What each command leaves -/

theorem act_work {row i : Nat} (h : r.op = .act row i) : GroupWork c b r.g
    ((d.group c b r.g).activated (d.rowRecord (rowKey c b r.g row) (d.rowTag c b r.g row) (BitVec.ofNat 9 i)) t) d
    (d.startRow c b r t) := by
  rw [startRow_act h]
  exact (dieStart_work d c b r.g t).trans (activate_work (d.dieStart c b t) c b r.g row t (d.rowTag c b r.g row) (BitVec.ofNat 9 i))
theorem restore_work {row : Nat} {tag : BitVec 4} {src : BitVec 9} (h : r.op = .restore row tag src) : GroupWork c b r.g
    ((d.group c b r.g).activated (d.rowRecord (rowKey c b r.g row) tag src) t) d (d.startRow c b r t) := by
  rw [startRow_restore h]
  exact ((dieStart_work d c b r.g t).trans (activate_work (d.dieStart c b t) c b r.g row t tag src)).charge c 16
theorem spill_work {row : Nat} (h : r.op = .spill row) :
    GroupWork c b r.g ((d.group c b r.g).driven row t) d (d.startRow c b r t) := by
  rw [startRow_spill h]
  exact ((dieStart_work ..).drive row t).charge c 16
theorem wb_work {row : Nat} {held : Bool} (h : r.op = .wb row held ∨ r.op = .wbp row held) :
    GroupWork c b r.g ((d.group c b r.g).driven row t) d (d.startRow c b r t) := by
  rw [startRow_wb h]
  exact (dieStart_work ..).drive row t
theorem actw_work (h : r.op = .actw) : GroupWork c b r.g
    { d.group c b r.g with latch := { valid := true }, lr := t + 4, lw := t + 4, ro := t + 4 } d (d.startRow c b r t) := by
  rw [startRow_actw h]
  exact (dieStart_work ..).copyLost.modGroup fun x => { x with latch := { valid := true }, lr := t + 4, lw := t + 4, ro := t + 4 }
theorem pre_work_held (h : r.op = .pre ∨ r.op = .close) (hp : (d.group c b r.g).phy = true) : GroupWork c b r.g
    { d.group c b r.g with pend := none, phy := false, sa := t + 24 } d (d.startRow c b r t) := by
  rw [startRow_pre h, if_pos hp]
  exact (GroupWork.refl ..).closeSense t
theorem pre_work_free (h : r.op = .pre ∨ r.op = .close) (hp : (d.group c b r.g).phy = false) :
    GroupWork c b r.g (d.group c b r.g) d (d.startRow c b r t) := by
  rw [startRow_pre h, if_neg (by simp [hp])]
  exact GroupWork.refl ..

theorem refresh_work (d : Device) (c b : Nat) (g : Lat) (t : Nat) :
    GroupWork c b g ((d.group c b g).refreshed t) d (d.refresh c b g t) := (GroupWork.refl c b g d).modGroup fun x => x.refreshed t

theorem act_mem {row i : Nat} (h : r.op = .act row i) : (d.startAt c b (n, r, t)).mem = d.mem := by
  rw [startAt_mem, startRow_act h, activate_mem]; rfl
theorem restore_mem {row : Nat} {tag : BitVec 4} {src : BitVec 9} (h : r.op = .restore row tag src) :
    (d.startAt c b (n, r, t)).mem = d.mem := by
  rw [startAt_mem, startRow_restore h, charge_mem, activate_mem]; rfl
theorem spill_mem {row : Nat} (h : r.op = .spill row) : (d.startAt c b (n, r, t)).mem = d.mem := by
  rw [startAt_mem, startRow_spill h]; rfl
theorem wb_mem {row : Nat} {held : Bool} (h : r.op = .wb row held ∨ r.op = .wbp row held) : (d.startAt c b (n, r, t)).mem = d.mem := by
  rw [startAt_mem, startRow_wb h]; rfl
theorem actw_mem (h : r.op = .actw) : (d.startAt c b (n, r, t)).mem = d.mem := by
  rw [startAt_mem, startRow_actw h, modGroup_mem, copyLost_mem]; rfl
theorem ref_mem (h : r.op = .ref) : (d.startAt c b (n, r, t)).mem = d.mem := by
  rw [startAt_mem, startRow_ref h]; rfl
theorem pre_mem {w : ArrayWrite} (h : r.op = .pre) (hp : (d.group c b r.g).phy = true) (hw : (d.group c b r.g).pend = some w) :
    (d.startAt c b (n, r, t)).mem = d.mem.write (rowKey c b r.g w.row) 8192 w.data.toNat := by
  rw [startAt_mem, startRow_pre (.inl h), if_pos hp, closeSense, modGroup_mem, performPend_mem_some hw]

/-- Every command works on its own group. -/
theorem startRow_works (d : Device) (c b : Nat) (r : RowCmd) (t : Nat) : ∃ y, GroupWork c b r.g y d (d.startRow c b r t) := by
  have precharge (h : r.op = .pre ∨ r.op = .close) : ∃ y, GroupWork c b r.g y d (d.startRow c b r t) := by
    cases hp : (d.group c b r.g).phy with
    | true => exact ⟨_, pre_work_held h hp⟩
    | false => exact ⟨_, pre_work_free h hp⟩
  cases h : r.op with
  | act row i => exact ⟨_, act_work h⟩
  | actw => exact ⟨_, actw_work h⟩
  | wb row held => exact ⟨_, wb_work (.inl h)⟩
  | wbp row held => exact ⟨_, wb_work (.inr h)⟩
  | pre => exact precharge (.inl h)
  | close => exact precharge (.inr h)
  | ref => exact ⟨_, startRow_ref h ▸ refresh_work d c b r.g t⟩
  | spill row => exact ⟨_, spill_work h⟩
  | restore row tag src => exact ⟨_, restore_work h⟩

/-- A command that starts alone leaves its precharge, if it has one, and nothing else. -/
theorem startAt_rowQ (hq : (d.bank c b).rowQ = [r]) : ((d.startAt c b (0, r, t)).bank c b).rowQ
    = if r.op.closes then [{ r with op := .close, t0 := some d.now }] else [] := by
  obtain ⟨y, work⟩ := startRow_works d c b r t
  have now : (d.startRow c b r t).now = d.now := by rw [((Worked.refl d).startRow c b r t).frame]
  rw [startAt_bank, work.queue, hq, now]
  cases r.op.closes with
  | true => rfl
  | false => rfl

/-- The command that starts next starts now. -/
theorem rowNext_now {p : Nat × RowCmd × Nat} (h : d.rowNext c b = some p) : p.2.2 = d.now := by
  obtain ⟨q, -, rfl⟩ := Option.map_eq_some_iff.mp h
  rfl

end Device

end Sys2Proof.Machine

open Sys2Proof Sys2Proof.Machine in
/-- Settles O29: the start of a command is its work on its own group, with the array as that work leaves it. -/
theorem rowCommandStarts : Obligations.RowCommandStarts := by
  intro s c b cmd t hn hq
  have ht : t = s.dev.now := Device.rowNext_now hn
  subst ht
  have start : exec (.rowCommandStart c b) s = .next { s with dev := s.dev.startAt c b (0, cmd, s.dev.now) } := by
    refine (rfl : _ = execRowCommandStart c b s).trans ?_
    rw [execRowCommandStart, State.modDev, hn]
  have frame := ((Worked.refl s.dev).startAt c b (0, cmd, s.dev.now)).frame
  obtain ⟨_, work⟩ := Device.startRow_works s.dev c b cmd s.dev.now
  refine ⟨_, start, rfl, rfl, ?_, ?_, ?_, ?_, ?_, fun hc => ?_, fun hc => ?_, fun q hne => ?_, ?_⟩
  · dsimp only; rw [frame]
  · dsimp only; rw [frame]
  · dsimp only; rw [frame]
  · dsimp only; rw [frame]
  · dsimp only; rw [frame]
  · exact (Device.startAt_rowQ hq).trans (if_neg (by simp [hc]))
  · exact (Device.startAt_rowQ hq).trans (if_pos hc)
  · exact congrArg Group.latch ((Device.startAt_group ..).trans (work.others q hne))
  have own := Device.startAt_group s.dev c b (0, cmd, s.dev.now) cmd.g
  refine ⟨fun row i h => ?_, fun row tag src h => ?_, fun row h => ?_, fun h => ?_, fun row held h => ?_, fun h => ?_, fun h => ?_⟩
  · rw [own, (Device.act_work h).own]
    exact ⟨rfl, rfl, Device.act_mem h, rfl, rfl, Device.rowRead_clean⟩
  · rw [own, (Device.restore_work h).own]
    exact ⟨rfl, rfl, rfl, Device.restore_mem h, rfl, Device.rowRead_clean⟩
  · rw [own, (Device.spill_work h).own]
    exact ⟨rfl, rfl, Device.spill_mem h⟩
  · rw [own, (Device.actw_work h).own]
    exact ⟨rfl, rfl, rfl, rfl, Device.actw_mem h⟩
  · rw [own, (Device.wb_work h).own]
    exact ⟨rfl, rfl, Device.wb_mem h⟩
  · rw [own]
    cases hp : (s.dev.group c b cmd.g).phy with
    | true =>
      rw [(Device.pre_work_held (.inl h) hp).own]
      exact ⟨rfl, fun _ => ⟨rfl, rfl, fun w hw => Device.pre_mem h hp hw⟩⟩
    | false =>
      rw [(Device.pre_work_free (.inl h) hp).own]
      exact ⟨rfl, fun held => nomatch held⟩
  · rw [own, Device.startRow_ref h, (Device.refresh_work ..).own]
    exact ⟨rfl, rfl, Device.ref_mem h, refreshed_debt ..⟩
end

