-- ==== Sys2Proof/Proofs/PoolWaitEvents.lean ====
section
/-! PROOF. The ends of a convoy's wait at the pool (R258, R260, R339, R341, R342): it is tried again, shows at a barrier, or traps at
the limit. -/

namespace Sys2Proof.Machine

/-! ### The failed checks of a convoy that reaches the limit -/

/-- A condition that fails a hart at the limit: it does not hold, and it is not that of a barrier, which has no limit. -/
def WaitCond.unmet (r : Residence) (x : WaitCond) : Prop := x.holds r = false ∧ x.on.isBarrier = false

/-- The failed checks with those of one condition more. -/
def addFail (r : Residence) (fs : List (Nat × Fail)) (x : WaitCond) : List (Nat × Fail) :=
  if x.holds r || x.on.isBarrier || fs.any fun p => p.1 == x.bank then fs else fs ++ [(x.bank, failAt 0x1A (poolWindow + x.off))]

/-- What a list of failed checks says of the conditions: each hart with an unmet condition once, at its first one. -/
structure FailsOf (r : Residence) (l : List WaitCond) (fs : List (Nat × Fail)) : Prop where
  harts : ∀ q, q ∈ fs.map Prod.fst ↔ ∃ x ∈ l, x.bank = q ∧ x.unmet r
  once : fs.Pairwise fun p q => p.1 ≠ q.1
  first : ∀ p ∈ fs, ∃ before x after, l = before ++ x :: after ∧ x.bank = p.1 ∧ x.unmet r
    ∧ (∀ y ∈ before, y.bank = p.1 → ¬ y.unmet r) ∧ p.2 = failAt 0x1A (poolWindow + x.off)

section
variable {r : Residence} {l : List WaitCond} {fs : List (Nat × Fail)} {x : WaitCond}

theorem FailsOf.seen_iff (h : FailsOf r l fs) : (fs.any fun p => p.1 == x.bank) = true ↔ ∃ y ∈ l, y.bank = x.bank ∧ y.unmet r := by
  rw [← h.harts x.bank]; simp

/-- A condition more that fails no hart anew. -/
theorem FailsOf.keep (h : FailsOf r l fs) (hx : x.unmet r → ∃ y ∈ l, y.bank = x.bank ∧ y.unmet r) : FailsOf r (l ++ [x]) fs := by
  refine ⟨fun q => (h.harts q).trans ⟨?_, ?_⟩, h.once, fun p hp => ?_⟩
  · rintro ⟨y, hy, own⟩; exact ⟨y, List.mem_append_left _ hy, own⟩
  · rintro ⟨y, hy, rfl, own⟩
    rcases List.mem_append.mp hy with hy | hy
    · exact ⟨y, hy, rfl, own⟩
    · cases List.mem_singleton.mp hy; exact hx own
  · obtain ⟨before, y, after, rfl, own⟩ := h.first p hp
    exact ⟨before, y, after ++ [x], by simp, own⟩

/-- The first unmet condition of a hart. -/
theorem FailsOf.add (h : FailsOf r l fs) (own : x.unmet r) (hx : ¬ ∃ y ∈ l, y.bank = x.bank ∧ y.unmet r) :
    FailsOf r (l ++ [x]) (fs ++ [(x.bank, failAt 0x1A (poolWindow + x.off))]) := by
  have fresh : ∀ p ∈ fs, p.1 ≠ x.bank := fun p hp e => hx ((h.harts x.bank).mp (e ▸ List.mem_map_of_mem hp))
  refine ⟨fun q => ?_, ?_, fun p hp => ?_⟩
  · rw [List.map_append, List.mem_append, h.harts]
    constructor
    · rintro (⟨y, hy, own'⟩ | hq)
      · exact ⟨y, List.mem_append_left _ hy, own'⟩
      · exact ⟨x, by simp, by simpa using (List.mem_singleton.mp hq).symm, own⟩
    · rintro ⟨y, hy, e, own'⟩
      rcases List.mem_append.mp hy with hy | hy
      · exact .inl ⟨y, hy, e, own'⟩
      · cases List.mem_singleton.mp hy; exact .inr (by simp [e])
  · exact List.pairwise_append.mpr ⟨h.once, List.pairwise_singleton .., fun p hp q hq => by
      cases List.mem_singleton.mp hq; exact fresh p hp⟩
  · rcases List.mem_append.mp hp with hp | hp
    · obtain ⟨before, y, after, rfl, own'⟩ := h.first p hp
      exact ⟨before, y, after ++ [x], by simp, own'⟩
    · cases List.mem_singleton.mp hp
      exact ⟨l, x, [], rfl, rfl, own, fun y hy e own' => hx ⟨y, hy, e, own'⟩, rfl⟩

theorem FailsOf.addFail (h : FailsOf r l fs) (x : WaitCond) : FailsOf r (l ++ [x]) (addFail r fs x) := by
  unfold Machine.addFail
  split
  · next c =>
    refine h.keep fun own => h.seen_iff.mp ?_
    simpa [own.1, own.2] using c
  · next c =>
    simp only [Bool.or_eq_true, not_or, Bool.not_eq_true] at c
    exact h.add c.1 fun seen => by simpa [c.2] using h.seen_iff.mpr seen

theorem failsOf_foldl (r : Residence) (l : List WaitCond) : FailsOf r l (l.foldl (addFail r) []) := by
  induction l using List.reverseRecOn with
  | nil => exact ⟨fun q => by simp, .nil, fun p hp => (List.not_mem_nil hp).elim⟩
  | append_singleton l x ih => rw [List.foldl_append]; exact ih.addFail x

end

/-! ### The events -/

section
variable {d : Device} {rk base since : Nat} {l : List WaitCond} {r : Residence} {c b : Nat}

theorem limitFails_eq (hr : d.res? rk = some r) (l : List WaitCond) : d.limitFails rk l = l.foldl (addFail r) [] := by
  rw [Device.limitFails, hr]; rfl
theorem failsOf_limit (hr : d.res? rk = some r) (l : List WaitCond) : FailsOf r l (d.limitFails rk l) :=
  limitFails_eq hr l ▸ failsOf_foldl r l
theorem limitFails_nil (hr : d.res? rk = some r) (hl : ∀ x ∈ l, ¬ x.unmet r) : d.limitFails rk l = [] := by
  have none := (failsOf_limit hr l).harts
  refine List.eq_nil_iff_forall_not_mem.mpr fun p hp => ?_
  obtain ⟨x, hx, -, own⟩ := (none p.1).mp (List.mem_map_of_mem hp)
  exact hl x hx own

/-- No barrier condition, and none shows. -/
theorem showWaits_none (hl : ∀ x ∈ l, x.on.isBarrier = false) : d.showWaits rk l = d := by
  unfold Device.showWaits
  induction l with
  | nil => rfl
  | cons x l ih =>
    rw [List.foldl_cons]
    have own := hl x (List.mem_cons_self ..)
    split
    · next e => rw [e] at own; cases own
    · exact ih fun y hy => hl y (List.mem_cons_of_mem _ hy)
theorem showWaits_one {x : WaitCond} (hr : d.res? rk = some r) (hx : x.on.isBarrier = true) : d.showWaits rk [x]
    = d.setRes rk (r.setBar x.off { r.bar x.off with waitm := (r.bar x.off).waitm ||| (1#16 <<< x.bank) }) := by
  rw [Device.showWaits, List.foldl_cons, List.foldl_nil]
  split
  · rw [Device.modRes, hr]; rfl
  · next e => cases h : x.on with
    | barrier ph => exact absurd h (e ph)
    | _ => rw [h] at hx; cases hx

variable {kind : PoolCond → Bool}

theorem wakePool_none (h : d.poolWait c b = none) : d.wakePool c b kind = d := by rw [Device.wakePool, h]
theorem wakePool_some (h : d.poolWait c b = some (rk, base, since, l)) : d.wakePool c b kind
    = if !l.any (fun q => kind q.on) then d
      else if d.allHold rk l then (if d.poolTurn rk base l then d else d.retryGang rk base) else d.showWaits rk l := by
  rw [Device.wakePool, h]

/-- The gang tried again, unless another one goes first. -/
theorem wakePool_again (h : d.poolWait c b = some (rk, base, since, l)) (hr : d.res? rk = some r) (all : ∀ x ∈ l, x.holds r = true)
    (some_ : ∃ x ∈ l, kind x.on = true) : d.wakePool c b kind = if d.poolTurn rk base l = true then d else d.retryGang rk base := by
  have hold : d.allHold rk l = true := by rw [Device.allHold, hr]; exact List.all_eq_true.mpr all
  have any : l.any (fun q => kind q.on) = true := List.any_eq_true.mpr some_
  rw [wakePool_some h, any, hold]
  rfl

theorem allHold_unmet (hr : d.res? rk = some r) (ex : ∃ x ∈ l, x.holds r = false) : d.allHold rk l = false := by
  obtain ⟨x, hx, own⟩ := ex
  rw [Device.allHold, hr]
  exact List.all_eq_false.mpr ⟨x, hx, by simp [own]⟩
theorem wakePool_still (h : d.poolWait c b = some (rk, base, since, l)) (hr : d.res? rk = some r) (ex : ∃ x ∈ l, x.holds r = false)
    (hl : ∀ x ∈ l, x.on.isBarrier = false) : d.wakePool c b kind = d := by
  rw [wakePool_some h, allHold_unmet hr ex, showWaits_none hl]
  simp
theorem wakePool_shows {x : WaitCond} (h : d.poolWait c b = some (rk, base, since, [x])) (hr : d.res? rk = some r)
    (hx : x.holds r = false) (hb : x.on.isBarrier = true) : d.wakePool c b PoolCond.isBarrier
    = d.setRes rk (r.setBar x.off { r.bar x.off with waitm := (r.bar x.off).waitm ||| (1#16 <<< x.bank) }) := by
  rw [wakePool_some h, allHold_unmet hr ⟨x, by simp, hx⟩, showWaits_one hr hb]
  simp [hb]

/-- What the limit does to a gang that waits at the pool (R260). -/
def Device.limited (d : Device) (c b : Nat) : Device :=
  match d.poolWait c b with
  | some (rk, base, since, l) =>
    let fs := d.limitFails rk l
    if d.now < since + d.tagLimit rk || fs.isEmpty then d
    else match d.gang? rk base with
      | some g => d.takeFails rk base g.pc fs
      | none => d
  | none => d

theorem limited_none (h : d.poolWait c b = none) : d.limited c b = d := by rw [Device.limited, h]
theorem limited_early (h : d.poolWait c b = some (rk, base, since, l)) (hr : d.res? rk = some r) (hn : d.now < since + 2 ^ (r.twl + 10)) :
    d.limited c b = d := by
  have limit : d.tagLimit rk = 2 ^ (r.twl + 10) := by rw [Device.tagLimit, hr]
  rw [Device.limited, h]
  exact if_pos (by simp [limit, hn])
theorem limited_met (h : d.poolWait c b = some (rk, base, since, l)) (hr : d.res? rk = some r) (hl : ∀ x ∈ l, ¬ x.unmet r) :
    d.limited c b = d := by
  rw [Device.limited, h]
  exact if_pos (by simp [limitFails_nil hr hl])
theorem limited_late {g : Gang} (h : d.poolWait c b = some (rk, base, since, l)) (hr : d.res? rk = some r)
    (hn : since + 2 ^ (r.twl + 10) ≤ d.now) (hg : d.gang? rk base = some g) (hl : ∃ x ∈ l, x.unmet r) :
    d.limited c b = d.takeFails rk base g.pc (d.limitFails rk l) := by
  have limit : d.tagLimit rk = 2 ^ (r.twl + 10) := by rw [Device.tagLimit, hr]
  have some_ : (d.limitFails rk l).isEmpty = false := by
    obtain ⟨x, hx, own⟩ := hl
    have mem := ((failsOf_limit hr l).harts x.bank).mpr ⟨x, hx, rfl, own⟩
    cases e : d.limitFails rk l with
    | nil => rw [e] at mem; cases mem
    | cons p fs => rfl
  rw [Device.limited, h]
  dsimp only
  rw [limit, some_, hg, if_neg (by simpa using hn)]

end

/-- What ends the wait of a gang at the pool, and what it leaves. -/
theorem poolWait_ends (s : State) (c : Fin 2048) (b : Fin 16) {rk base since : Nat} {l : List WaitCond} {r : Residence}
    (h : s.dev.poolWait c b = some (rk, base, since, l)) (hr : s.dev.res? rk = some r) :
    let d := s.dev
    let again := if d.poolTurn rk base l = true then d
      else d.modGang rk base fun g => { g with wait := g.wait.map fun w => { w with retry := true } }
    ((∀ x ∈ l, x.holds r = true) →
      ((∃ x ∈ l, x.on.isTag = true) → RunsEvent s (.tagWaitRetry c b) again)
      ∧ ((∃ x ∈ l, x.on.isBarrier = true) → RunsEvent s (.barrierWaitWake c b) again)
      ∧ ((∃ x ∈ l, x.on.isWord = true) → RunsEvent s (.wordWaitSatisfied c b) again)
      ∧ RunsEvent s (.tagWaitTimeout c b) d)
    ∧ ((∃ x ∈ l, x.holds r = false) →
      ((∀ x ∈ l, x.on.isBarrier = false) → RunsEvent s (.tagWaitRetry c b) d ∧ RunsEvent s (.barrierWaitWake c b) d
        ∧ RunsEvent s (.wordWaitSatisfied c b) d)
      ∧ ∀ x, l = [x] → x.on.isBarrier = true →
          RunsEvent s (.barrierWaitWake c b) (d.setRes rk (r.setBar x.off
            { r.bar x.off with waitm := (r.bar x.off).waitm ||| (1#16 <<< x.bank) })))
    ∧ (d.now < since + 2 ^ (r.twl + 10) → RunsEvent s (.tagWaitTimeout c b) d) := by
  have tag : exec (.tagWaitRetry c b) s = .next (s.modDev fun d => d.wakePool c b PoolCond.isTag) := rfl
  have bar : exec (.barrierWaitWake c b) s = .next (s.modDev fun d => d.wakePool c b PoolCond.isBarrier) := rfl
  have word : exec (.wordWaitSatisfied c b) s = .next (s.modDev fun d => d.wakePool c b PoolCond.isWord) := rfl
  have limit : exec (.tagWaitTimeout c b) s = .next (s.modDev fun d => d.limited c b) := rfl
  refine ⟨fun all => ⟨?_, ?_, ?_, ?_⟩, fun ex => ⟨fun hl => ⟨?_, ?_, ?_⟩, ?_⟩, fun hn => ?_⟩
  · exact fun k => runsEvent_modDev _ tag (wakePool_again h hr all k)
  · exact fun k => runsEvent_modDev _ bar (wakePool_again h hr all k)
  · exact fun k => runsEvent_modDev _ word (wakePool_again h hr all k)
  · exact runsEvent_modDev _ limit (limited_met h hr fun x hx own => by simpa [all x hx] using own.1)
  · exact runsEvent_modDev _ tag (wakePool_still h hr ex hl)
  · exact runsEvent_modDev _ bar (wakePool_still h hr ex hl)
  · exact runsEvent_modDev _ word (wakePool_still h hr ex hl)
  · rintro x rfl hb
    exact runsEvent_modDev _ bar (wakePool_shows h hr (by simpa using ex) hb)
  · exact runsEvent_modDev _ limit (limited_early h hr hn)

/-- A convoy that has waited to the limit traps, each hart at its first unmet condition (R260). -/
theorem poolWait_limit (s : State) (c : Fin 2048) (b : Fin 16) {rk base since : Nat} {l : List WaitCond} {r : Residence} {g : Gang}
    (h : s.dev.poolWait c b = some (rk, base, since, l)) (hr : s.dev.res? rk = some r) (hn : since + 2 ^ (r.twl + 10) ≤ s.dev.now)
    (hg : s.dev.gang? rk base = some g) (hl : ∃ x ∈ l, x.unmet r) :
    RunsEvent s (.tagWaitTimeout c b) (s.dev.takeFails rk base g.pc (s.dev.limitFails rk l)) :=
  runsEvent_modDev (fun d => d.limited c b) rfl (limited_late h hr hn hg hl)

/-- No wait at the pool, and nothing to end. -/
theorem poolWait_none (s : State) (c : Fin 2048) (b : Fin 16) (h : s.dev.poolWait c b = none) :
    RunsEvent s (.tagWaitRetry c b) s.dev ∧ RunsEvent s (.barrierWaitWake c b) s.dev ∧ RunsEvent s (.wordWaitSatisfied c b) s.dev
      ∧ RunsEvent s (.tagWaitTimeout c b) s.dev :=
  ⟨runsEvent_modDev _ rfl (wakePool_none h), runsEvent_modDev _ rfl (wakePool_none h), runsEvent_modDev _ rfl (wakePool_none h),
    runsEvent_modDev (fun d => d.limited c b) rfl (limited_none h)⟩

end Sys2Proof.Machine
end

