-- ==== Sys2Proof/Proofs/BoundaryTraps.lean ====
section
/-! PROOF. The traps that a gang takes at a convoy boundary, in their order (R143, R327, R373, R379, R384). -/

namespace Sys2Proof.Machine

section
variable {d : Device} {rk base c k : Nat} {g : Gang}

/-! ### The refresh deadline (R143) -/

theorem dlpMask_eq (d : Device) (c b : Nat) : d.dlpMask c b
    = (d.group c b 0).dlp.isSome.toNat + (d.group c b 1).dlp.isSome.toNat * 2 + (d.group c b 2).dlp.isSome.toNat * 4
      + (d.group c b 3).dlp.isSome.toNat * 8 := by
  have step : ∀ (p : Bool) (v n : Nat), (if p = true then v + n else v) = v + p.toNat * n := fun p v n => by cases p <;> simp
  rw [Device.dlpMask, show List.finRange 4 = [0, 1, 2, 3] from rfl, List.foldl_cons, List.foldl_cons, List.foldl_cons,
    List.foldl_cons, List.foldl_nil, step, step, step, step]
  simp

/-- A bit of TVAL stands for a group with DLP set. -/
theorem dlpMask_bit (d : Device) (c b : Nat) (q : Lat) :
    (BitVec.ofNat 64 (d.dlpMask c b)).getLsbD q.val = (d.group c b q).dlp.isSome := by
  have bit := fun q => (d.group c b q).dlp.isSome.toNat_lt
  have b0 := bit 0; have b1 := bit 1; have b2 := bit 2; have b3 := bit 3
  refine getLsbD_ofNat (by omega) ?_
  rw [dlpMask_eq]
  match q with
  | 0 => dsimp only [Fin.val_zero]; omega
  | 1 => dsimp only [Fin.val_one]; omega
  | 2 => dsimp only [Fin.val_two]; omega
  | 3 => show _ / 2 ^ 3 % 2 = _; omega

theorem dlpAny_iff (d : Device) (c b : Nat) : d.dlpAny c b = true ↔ ∃ q, (d.group c b q).dlp.isSome = true := by
  rw [Device.dlpAny, List.any_eq_true]
  constructor
  · rintro ⟨x, hx, own⟩
    obtain ⟨i, hi, rfl⟩ := List.getElem_of_mem hx
    rw [Vector.length_toList] at hi
    rw [Vector.getElem_toList] at own
    exact ⟨⟨i, hi⟩, own⟩
  · rintro ⟨q, own⟩
    exact ⟨_, Vector.mem_toList_iff.mpr (Vector.getElem_mem q.isLt), own⟩

/-- The harts that a refresh-deadline trap fails, each with its TVAL. -/
def deadlineFails (d : Device) (rk : Nat) (g : Gang) : List (Nat × Fail) :=
  ((banksOf g.gm).filter fun h => (d.hart rk h).refTrap || d.dlpAny (resCore rk) h).map fun h =>
    (h, failAt 0x0A (d.dlpMask (resCore rk) h))

theorem mem_deadlineFails {p : Nat × Fail} : p ∈ deadlineFails d rk g ↔ (p.1 ∈ banksOf g.gm
    ∧ ((d.hart rk p.1).refTrap = true ∨ ∃ q, (d.group (rk / 3) p.1 q).dlp.isSome = true))
    ∧ p.2 = failAt 0x0A (d.dlpMask (rk / 3) p.1) := by
  rw [deadlineFails, List.mem_map]
  constructor
  · rintro ⟨h, hh, rfl⟩
    obtain ⟨act, due⟩ := List.mem_filter.mp hh
    exact ⟨⟨act, by simpa [dlpAny_iff, resCore] using due⟩, rfl⟩
  · rintro ⟨⟨act, due⟩, e⟩
    exact ⟨p.1, List.mem_filter.mpr ⟨act, by simpa [dlpAny_iff, resCore] using due⟩, by rw [resCore, ← e]⟩

theorem trapRefresh_due (h : ∃ k ∈ banksOf g.gm, (d.hart rk k).refTrap = true) : d.trapRefresh rk base g
    = some (((banksOf g.gm).foldl (fun d k => d.modHart rk k fun t => { t with refTrap := false }) d).takeTrap rk base g.pc
        (deadlineFails d rk g)) := if_pos (List.any_eq_true.mpr h)
theorem trapRefresh_none (h : ∀ k ∈ banksOf g.gm, (d.hart rk k).refTrap = false) : d.trapRefresh rk base g = none :=
  if_neg (by simpa using h)

/-! ### The other traps, and their order (R373) -/

/-- The oldest pending software trap of each active hart. -/
def softTraps (d : Device) (rk : Nat) (g : Gang) : List (Nat × SwTrap) :=
  (banksOf g.gm).filterMap fun k => (d.hart rk k).swTraps.head?.map fun t => (k, t)

theorem trapSoft_none (h : softTraps d rk g = []) : d.trapSoft rk base g = none := by
  rw [Device.trapSoft, ← softTraps, h]
theorem trapSoft_some {p : Nat × SwTrap} {l : List (Nat × SwTrap)} (h : softTraps d rk g = p :: l) : d.trapSoft rk base g
    = some (((banksOf g.gm).foldl (fun d k => d.modHart rk k fun t => { t with swTraps := t.swTraps.drop 1 }) d).takeTrap rk base p.2.tpc
        ((softTraps d rk g).map fun q => (q.1, { cause := q.2.cause, tval := q.2.tval, sw := q.2.sw }))) := by
  rw [Device.trapSoft, ← softTraps, h]
theorem trapDog_none (h : g.wdTrap = none) : d.trapDog rk base g = none := by rw [Device.trapDog, h]; rfl
theorem trapDog_some {v : Word} (h : g.wdTrap = some v) : d.trapDog rk base g
    = some ((d.setGang rk base { g with wdTrap := none }).takeTrap rk base g.pc
        ((banksOf g.gm).map fun k => (k, { cause := 0x13, tval := v }))) := by rw [Device.trapDog, h]; rfl
theorem trapEngine_first {l : List Nat} {t : EngTrap} {x : List EngTrap} (ha : banksOf g.gm = k :: l)
    (ht : (d.hart rk k).engTraps = t :: x) : d.trapEngine rk base g
    = some ((d.modHart rk k fun t => { t with engTraps := x }).takeTrap rk base g.pc [(k, { cause := t.cause, tval := t.tval })]) := by
  rw [Device.trapEngine, ha, List.findSome?_cons, ht]
  simp [Device.modHart, ht]

theorem clearOf_soft {p : Nat × SwTrap} {l : List (Nat × SwTrap)} (h : softTraps d rk g = p :: l) : d.clearOf rk base g = false := by
  rw [Device.clearOf, trapSoft_some h]; rfl
theorem clearOf_dog {v : Word} (h : g.wdTrap = some v) : d.clearOf rk base g = false := by
  rw [Device.clearOf, trapDog_some h]; simp
theorem clearOf_handling (h : ∃ k ∈ banksOf g.gm, (d.hart rk k).tcause.getLsbD 10 = true) : d.clearOf rk base g = false := by
  rw [Device.clearOf, show d.handling rk g = true from List.any_eq_true.mpr h]; simp
theorem clearOf_clear (hs : softTraps d rk g = []) (hw : g.wdTrap = none)
    (hh : ∀ k ∈ banksOf g.gm, (d.hart rk k).tcause.getLsbD 10 = false) : d.clearOf rk base g = true := by
  have free : d.handling rk g = false := List.any_eq_false.mpr fun k hk => by rw [Hart.hm, hh k hk]; decide
  rw [Device.clearOf, trapSoft_none hs, trapDog_none hw, free]; rfl

end

/-! ### The events -/

section
variable {s : State} {c : Fin 2048} {b : Fin 16} {rk base : Nat} {g : Gang}

/-- A trap event at a gang that may trap. -/
theorem trapEvent_runs {i : Instr} {f : Device → Nat → Nat → Gang → Option Device} {e : Device} (he : exec i s = trapEvent c b f s)
    (hg : s.dev.gangAt c b = some (rk, base, g)) (ht : s.dev.canTrap rk g = true) (hf : (f s.dev rk base g).getD s.dev = e) :
    RunsEvent s i e := by
  refine runsEvent_modDev _ he ?_
  simp only [hg, ht, if_true, hf]

variable (hg : s.dev.gangAt c b = some (rk, base, g)) (ht : s.dev.canTrap rk g = true)
include hg ht

theorem softwareTrap_runs {o : Option Device} (h : s.dev.trapSoft rk base g = o) :
    RunsEvent s (.softwareTrapTaken c b) (o.getD s.dev) := trapEvent_runs rfl hg ht (by rw [h])
theorem watchdogTrap_still (h : (s.dev.trapSoft rk base g).isSome = true) : RunsEvent s (.watchdogTrapTaken c b) s.dev :=
  trapEvent_runs rfl hg ht (by rw [if_pos h]; rfl)
theorem watchdogTrap_runs {o : Option Device} (hs : s.dev.trapSoft rk base g = none) (h : s.dev.trapDog rk base g = o) :
    RunsEvent s (.watchdogTrapTaken c b) (o.getD s.dev) := trapEvent_runs rfl hg ht (by rw [hs, h]; rfl)
/-- Behind a software or a watchdog trap, and under a handler, neither of the other two is due. -/
theorem lastTraps_still (h : s.dev.clearOf rk base g = false) :
    RunsEvent s (.refreshDeadlineTrap c b) s.dev ∧ RunsEvent s (.engineTrapTaken c b) s.dev :=
  ⟨trapEvent_runs rfl hg ht (by rw [h]; rfl), trapEvent_runs rfl hg ht (by rw [h]; rfl)⟩
theorem refreshTrap_runs {o : Option Device} (hc : s.dev.clearOf rk base g = true) (h : s.dev.trapRefresh rk base g = o) :
    RunsEvent s (.refreshDeadlineTrap c b) (o.getD s.dev) := trapEvent_runs rfl hg ht (by rw [if_pos hc, h])
theorem engineTrap_still (h : (s.dev.trapRefresh rk base g).isSome = true) : RunsEvent s (.engineTrapTaken c b) s.dev :=
  trapEvent_runs rfl hg ht (by rw [if_neg (by simp [Option.isNone_iff_eq_none, Option.isSome_iff_ne_none.mp h])]; rfl)
theorem engineTrap_runs {o : Option Device} (hc : s.dev.clearOf rk base g = true) (hr : s.dev.trapRefresh rk base g = none)
    (h : s.dev.trapEngine rk base g = o) : RunsEvent s (.engineTrapTaken c b) (o.getD s.dev) :=
  trapEvent_runs rfl hg ht (by rw [hc, hr, h]; rfl)

end

end Sys2Proof.Machine
end

