-- ==== Sys2Proof/Proofs/Watchdogs.lean ====
section
/-! PROOF. The watchdogs of the residences (R379), and with them the ends of waits and the traps of a boundary. -/

namespace Sys2Proof.Machine

/-! ### A table in the order of its keys -/

theorem lookupK_only {α : Type} {k : Nat} {a : α} {l : List (Nat × α)} (ho : l.Pairwise fun p q => p.1 < q.1)
    (h : lookupK k l = some a) : ∀ p ∈ l, p.1 = k → p.2 = a := by
  intro p hp e
  have mem := lookupK_mem h
  by_contra ne
  have keys := List.Pairwise.forall_of_forall_of_flip (R := fun p q : Nat × α => p.1 = q.1 → p = q) (fun _ _ _ => rfl)
    (ho.imp fun lt e => absurd e (Nat.ne_of_lt lt)) (ho.imp fun lt e => absurd e.symm (Nat.ne_of_lt lt))
  exact ne (congrArg Prod.snd (keys hp mem e))

/-! ### A watchdog that expires -/

/-- A gang with a watchdog trap pending, if it has not ended. -/
def Gang.dogged (g : Gang) (n : Nat) : Gang := if g.ended then g else { g with wdTrap := some (BitVec.ofNat 64 n) }

theorem Gang.dogged_dogged (g : Gang) (n : Nat) : (g.dogged n).dogged n = g.dogged n := by
  unfold Gang.dogged
  by_cases h : g.ended = true
  · rw [if_pos h, if_pos h]
  · rw [if_neg h, if_neg h]

section
variable {d : Device} {rk q : Nat} {r : Residence}

theorem wdExpire_gangs (hq : q < 16) (p : Nat × Residence) : (d.wdExpire p).gang? rk q
    = if p.1 = rk then (d.gang? rk q).map fun g => g.dogged (wdPeriod p.2.wdt) else d.gang? rk q := by
  have key : hartKey rk q / 16 = rk := by unfold hartKey; omega
  rw [Device.wdExpire, Device.mapGangs_gang, key]
  by_cases e : rk = p.1
  · simp only [e, if_true]; rfl
  · rw [if_neg fun h => e h.symm]
    simp [e]

/-- Among residences that expire, one of them or none, a gang of that one gets its trap once. -/
theorem foldl_wdExpire_gangs (hq : q < 16) {l : List (Nat × Residence)} (hl : ∀ p ∈ l, p.1 = rk → p.2 = r) :
    (l.foldl Device.wdExpire d).gang? rk q
      = if (∃ p ∈ l, p.1 = rk) then (d.gang? rk q).map fun g => g.dogged (wdPeriod r.wdt) else d.gang? rk q := by
  induction l generalizing d with
  | nil => simp
  | cons p l ih =>
    rw [List.foldl_cons, ih fun x hx => hl x (List.mem_cons_of_mem _ hx), wdExpire_gangs hq]
    by_cases e : p.1 = rk
    · rw [hl p (List.mem_cons_self ..) e]
      simp [e, Option.map_map, Function.comp_def, Gang.dogged_dogged]
    · rw [if_neg e]; exact if_congr (by simp [e]) rfl rfl

/-! ### A ck -/

/-- The residences whose watchdogs reach 0 in a ck. -/
def expiring (d : Device) : List (Nat × Residence) := d.ress.filter fun p => d.wdCounts p && p.2.wdPasses 1

theorem tick_gangs (ho : d.ress.Pairwise fun a b => a.1 < b.1) (hr : d.res? rk = some r) (hq : q < 16) : d.tick.gang? rk q
    = if d.wdCounts (rk, r) && r.wdPasses 1 then (d.gang? rk q).map fun g => g.dogged (wdPeriod r.wdt) else d.gang? rk q := by
  have only := lookupK_only ho hr
  have here : (∃ p ∈ expiring d, p.1 = rk) ↔ (d.wdCounts (rk, r) && r.wdPasses 1) = true := by
    constructor
    · rintro ⟨⟨k, x⟩, hp, rfl⟩
      obtain ⟨mem, due⟩ := List.mem_filter.mp hp
      cases only _ mem rfl
      exact due
    · exact fun due => ⟨(rk, r), List.mem_filter.mpr ⟨lookupK_mem hr, due⟩, rfl⟩
  unfold Device.tick Device.elapse
  refine (foldl_wdExpire_gangs hq (r := r) fun p hp => only p (List.mem_of_mem_filter hp)).trans ?_
  exact if_congr here rfl rfl

theorem tick_res (hr : d.res? rk = some r) (hc : d.wdCounts (rk, r) = true) :
    (d.tick.res? rk).map Residence.wdCount = some (r.wdRun 1).wdCount := by
  unfold Device.tick Device.elapse
  rw [Device.wdExpire_frame]
  simp only [Device.res?]
  rw [lookupK_mapKeyed (fun k r =>
    let r' := if d.wdCounts (k, r) then r.wdRun 1 else r
    if d.issues (k, r) then { r' with issued := r'.issued + 1, quantum := r'.quantum + 1, lastIssue := d.now + 1 - 1 } else r'),
    show lookupK rk d.ress = some r from hr]
  simp only [hc, if_true, Option.map_some]
  split <;> rfl

theorem wdCounts_of (h : r.state = .faultWaiting ∨ (r.state = .resident ∧ (d.core (rk / 3)).issuing = some (resSlot rk))) :
    d.wdCounts (rk, r) = true := by
  rcases h with h | ⟨h, hi⟩
  · simp [Device.wdCounts, h]
  · simp [Device.wdCounts, Device.issues, h, hi]

/-- What a ck does to a watchdog that counts, and to the gangs of its context. -/
theorem tick_watchdog (ho : d.ress.Pairwise fun a b => a.1 < b.1) (hr : d.res? rk = some r) (hp : r.wdt.toNat % 2 ^ 32 ≠ 0)
    (hs : r.state = .faultWaiting ∨ (r.state = .resident ∧ (d.core (rk / 3)).issuing = some (resSlot rk))) :
    (1 < r.wdCount → (d.tick.res? rk).map Residence.wdCount = some (r.wdCount - 1) ∧ ∀ q < 16, d.tick.gang? rk q = d.gang? rk q)
    ∧ (r.wdCount = 1 → (d.tick.res? rk).map Residence.wdCount = some (r.wdt.toNat % 2 ^ 32 * 1024)
      ∧ ∀ q < 16, d.tick.gang? rk q = (d.gang? rk q).map fun g => g.dogged (r.wdt.toNat % 2 ^ 32)) := by
  have counts := wdCounts_of hs
  have passes : r.wdPasses 1 = decide (r.wdCount ≤ 1) := by
    have on : (wdPeriod r.wdt != 0) = true := by simpa [wdPeriod] using hp
    rw [Residence.wdPasses, on]; rfl
  refine ⟨fun h => ⟨?_, fun q hq => ?_⟩, fun h => ⟨?_, fun q hq => ?_⟩⟩
  · rw [tick_res hr counts, Residence.wdRun, passes, if_neg (by simpa using h)]
  · rw [tick_gangs ho hr hq, passes, if_neg (by simp [h])]
  · rw [tick_res hr counts, Residence.wdRun, passes, if_pos (by simp [h]), h]
    simp [wdPeriod]
  · rw [tick_gangs ho hr hq, counts, passes, if_pos (by simp [h])]; rfl

end

/-- The event that loads a watchdog anew which the host has written at 0 (R379). -/
theorem watchdogExpiry_runs {s : State} {c : Fin 2048} {slot : Fin 3} {r : Residence} (hr : s.dev.res? (resKey c slot) = some r) :
    RunsEvent s (.watchdogExpiry c slot)
      (if r.wdOut then (s.dev.setRes (resKey c slot) (r.setWdt r.wdt)).wdExpire (resKey c slot, r) else s.dev) := by
  refine runsEvent_modDev _ rfl ?_
  simp only [hr]

theorem wdOut_iff (r : Residence) : r.wdOut = true ↔ r.wdt.toNat % 2 ^ 32 ≠ 0 ∧ r.wdCount = 0 := by
  simp [Residence.wdOut, wdPeriod]

/-- What that event leaves, and when it leaves everything. -/
theorem watchdogExpiry_ends {s : State} {c : Fin 2048} {slot : Fin 3} {r : Residence} (hr : s.dev.res? (resKey c slot) = some r) :
    (r.wdt.toNat % 2 ^ 32 = 0 ∨ 0 < r.wdCount → RunsEvent s (.watchdogExpiry c slot) s.dev)
    ∧ (r.wdt.toNat % 2 ^ 32 ≠ 0 → r.wdCount = 0 → ∃ e, RunsEvent s (.watchdogExpiry c slot) e
      ∧ e.res? (resKey c slot) = some { r with wdCount := r.wdt.toNat % 2 ^ 32 * 1024 }
      ∧ (∀ q < 16, ∀ g, s.dev.gang? (resKey c slot) q = some g →
          e.gang? (resKey c slot) q = some (g.dogged (r.wdt.toNat % 2 ^ 32)))
      ∧ e = { s.dev with ress := e.ress, gangs := e.gangs }) := by
  have runs := watchdogExpiry_runs hr
  refine ⟨fun h => ?_, fun hp hz => ⟨_, if_pos ((wdOut_iff r).mpr ⟨hp, hz⟩) ▸ runs, ?_, fun q hq g hg => ?_, rfl⟩⟩
  · rwa [if_neg fun out => ?_] at runs
    obtain ⟨hp, hz⟩ := (wdOut_iff r).mp out
    omega
  · exact lookupK_insertK_same ..
  · rw [wdExpire_gangs hq, if_pos rfl, show (s.dev.setRes (resKey c slot) (r.setWdt r.wdt)).gang? (resKey c slot) q = some g from hg]
    rfl

end Sys2Proof.Machine

open Sys2Proof Sys2Proof.Machine in
/-- Settles O51: the waits, the traps in their order, the watchdog that counts, and the one that stands at 0. -/
theorem waitAndTrapEvents : Obligations.WaitAndTrapEvents := by
  intro s c b d
  refine ⟨fun rk base since l r h hr => ?_, poolWait_none s c b, fun rk base g hg ht => ?_, fun rk r ho hr hp hs => tick_watchdog ho hr hp hs,
    fun slot r hr => ?_⟩
  · obtain ⟨again, shows, early⟩ := poolWait_ends s c b h hr
    refine ⟨again, shows, early, fun g hn hg ex => ⟨d.limitFails rk l, poolWait_limit s c b h hr hn hg ex, ?_⟩⟩
    obtain ⟨harts, once, first⟩ := failsOf_limit hr l
    refine ⟨harts, once, fun p hp => ?_⟩
    obtain ⟨before, x, after, hl, hb, ⟨unmet, limit⟩, none, fail⟩ := first p hp
    refine ⟨before, x, after, hl, hb, unmet, limit, fun y hy e => ?_, fail⟩
    by_contra own
    rw [not_or, Bool.not_eq_true, Bool.not_eq_true] at own
    exact none y hy e own
  · intro act soft here
    refine ⟨fun p l hl => ?_, fun hl => ?_⟩
    · have still := lastTraps_still hg ht (clearOf_soft hl)
      refine ⟨?_, watchdogTrap_still hg ht (by rw [trapSoft_some hl]; rfl), still⟩
      exact softwareTrap_runs hg ht (trapSoft_some hl)
    · refine ⟨?_, fun v hv => ?_, fun hw => ?_⟩
      · exact softwareTrap_runs hg ht (trapSoft_none hl)
      · refine ⟨?_, lastTraps_still hg ht (clearOf_dog hv)⟩
        exact watchdogTrap_runs hg ht (trapSoft_none hl) (trapDog_some hv)
      · refine ⟨?_, fun hh => lastTraps_still hg ht (clearOf_handling hh), fun hh => ?_⟩
        · exact watchdogTrap_runs hg ht (trapSoft_none hl) (trapDog_none hw)
        · intro dlp
          have clear := clearOf_clear (base := base) hl hw hh
          refine ⟨fun hr => ⟨?_, fun k l t x ha he => ?_⟩, fun hr => ⟨?_, deadlineFails d rk g, ?_, fun k hk due => ?_, fun p hp => ?_⟩⟩
          · exact refreshTrap_runs hg ht clear (trapRefresh_none hr)
          · exact engineTrap_runs hg ht clear (trapRefresh_none hr) (trapEngine_first ha he)
          · exact engineTrap_still hg ht (by rw [trapRefresh_due hr]; rfl)
          · exact refreshTrap_runs hg ht clear (trapRefresh_due hr)
          · exact ⟨failAt 0x0A (d.dlpMask (rk / 3) k), mem_deadlineFails.mpr ⟨⟨hk, due⟩, rfl⟩, rfl, fun q => dlpMask_bit ..⟩
          · exact (mem_deadlineFails.mp hp).1
  · exact watchdogExpiry_ends hr
end

