-- ==== Sys2Proof/Proofs/RefreshEvents.lean ====
section
/-! PROOF. The refresh of a bank's own and its own precharges (R6, R137, R140 to R143, R418): the debt ticks, the temperature of a
stand, the inserted and the forced refreshes. -/

namespace Sys2Proof.Machine

section
variable {s : State} {c : Fin 2048} {b : Fin 16} {g : Lat}

/-! ### The debt tick (R140, R143) -/

theorem raiseDebt_debt (now : Nat) (program : Bool) (x : Group) : (Device.raiseDebt now program x).debt = min 8 (x.debt + 1) := by
  unfold Device.raiseDebt
  split
  · next h => rw [h.1]; rfl
  · rfl
theorem raiseDebt_full {x : Group} (now : Nat) (h : x.debt = 7) : Device.raiseDebt now true x = { x with debt := 8, dlp := some now } :=
  if_pos ⟨h, rfl⟩
theorem raiseDebt_else {program : Bool} {x : Group} (now : Nat) (h : x.debt ≠ 7 ∨ program = false) :
    Device.raiseDebt now program x = { x with debt := (Device.raiseDebt now program x).debt } := by
  rw [raiseDebt_debt]
  exact if_neg fun both => h.elim (fun ne => ne both.1) fun off => by simp [off] at both

/-- In program mode some group of the bank reaches debt 8 with the next tick. -/
def debtRises (d : Device) (c b : Nat) : Bool := (d.refThreshold c b).isNone && (d.bank c b).groups.toList.any fun x => x.debt == 7
theorem debtRises_iff (d : Device) (c b : Nat) :
    debtRises d c b = true ↔ d.refThreshold c b = none ∧ ∃ q : Lat, (d.bank c b).groups[q.val].debt = 7 := by
  rw [debtRises, Bool.and_eq_true, Option.isNone_iff_eq_none, List.any_eq_true]
  refine and_congr_right fun _ => ⟨?_, ?_⟩
  · rintro ⟨x, hx, own⟩
    obtain ⟨i, hi, rfl⟩ := List.getElem_of_mem hx
    rw [Vector.length_toList] at hi
    rw [Vector.getElem_toList] at own
    exact ⟨⟨i, hi⟩, by simpa using own⟩
  · rintro ⟨q, own⟩
    exact ⟨_, Vector.mem_toList_iff.mpr (Vector.getElem_mem q.isLt), by simpa using own⟩

/-- The bank after a tick. -/
def tickedBank (d : Device) (c b : Nat) : Bank :=
  { d.bank c b with groups := (d.bank c b).groups.map (Device.raiseDebt d.now (d.refThreshold c b).isNone), lastTick := d.nextTick c b
                    ticks := (d.bank c b).ticks + 1 }

theorem refPend_now (d : Device) (c b : Nat) : (d.refPend c b).now = d.now := by unfold Device.refPend; split <;> rfl
theorem refPend_bank (d : Device) (c b : Nat) : (d.refPend c b).bank c b = d.bank c b := by unfold Device.refPend; split <;> rfl

theorem debtTick_eq (d : Device) (c b : Nat) :
    d.debtTick c b = (if debtRises d c b then d.refPend c b else d).setBank c b (tickedBank d c b) := by
  have now : (if debtRises d c b then d.refPend c b else d).now = d.now := by
    split
    · exact refPend_now ..
    · rfl
  have bank : (if debtRises d c b then d.refPend c b else d).bank c b = d.bank c b := by
    split
    · exact refPend_bank ..
    · rfl
  unfold Device.debtTick
  dsimp only
  rw [← debtRises, Device.modBank, bank, now]
  rfl

theorem debtTick_early (h : s.dev.now < s.dev.nextTick c b) : RunsEvent s (.debtTick c b) s.dev :=
  runsEvent_modDev _ rfl (if_neg (Nat.not_le.mpr h))

theorem debtTick_due (h : s.dev.nextTick c b ≤ s.dev.now) : ∃ (e : Device) (k' : Bank), RunsEvent s (.debtTick c b) (e.setBank c b k')
    ∧ (let rises := s.dev.refThreshold c b = none ∧ ∃ q : Lat, (s.dev.bank c b).groups[q.val].debt = 7
       (∀ slot, rises → (s.dev.core c).issuing = some slot → e = s.dev.modHart (resKey c slot) b fun t => { t with refTrap := true })
       ∧ (¬ rises → e = s.dev))
    ∧ k' = { s.dev.bank c b with groups := k'.groups, lastTick := s.dev.nextTick c b, ticks := (s.dev.bank c b).ticks + 1 }
    ∧ ∀ q : Lat, let y := (s.dev.bank c b).groups[q.val]
      let z := k'.groups[q.val]
      z.debt = min 8 (y.debt + 1)
      ∧ (y.debt = 7 → s.dev.refThreshold c b = none → z = { y with debt := 8, dlp := some s.dev.now })
      ∧ (y.debt ≠ 7 ∨ (s.dev.refThreshold c b).isSome = true → z = { y with debt := z.debt }) := by
  refine ⟨_, _, runsEvent_modDev _ rfl ((if_pos h).trans (debtTick_eq ..)), ⟨fun slot rises hi => ?_, fun still => ?_⟩, rfl, fun q => ?_⟩
  · rw [if_pos ((debtRises_iff ..).mpr rises), Device.refPend, hi]
  · exact if_neg fun rises => still ((debtRises_iff ..).mp rises)
  · have group : (tickedBank s.dev c b).groups[q.val]
        = Device.raiseDebt s.dev.now (s.dev.refThreshold c b).isNone (s.dev.bank c b).groups[q.val] := by simp [tickedBank]
    dsimp only
    rw [group]
    refine ⟨raiseDebt_debt .., fun full none => ?_, fun other => raiseDebt_else _ (other.imp_right fun some_ => ?_)⟩
    · rw [none]; exact raiseDebt_full _ full
    · simpa [Option.isSome_iff_ne_none] using some_

/-! ### The temperature of a stand (R140, R418) -/

theorem bitOf_bit {i j : Nat} (hj : j < 16) : (bitOf i).getLsbD j = decide (j = i) := by
  unfold bitOf
  rw [BitVec.getLsbD_shiftLeft, BitVec.getLsbD_one, decide_eq_true hj]
  by_cases e : j = i
  · simp [e]
  · have : ¬ (i ≤ j ∧ j - i = 0) := by omega
    simp [e]; omega

/-- A bit of a mask set or cleared. -/
theorem setBit_bit (m : Mask16) (i : Nat) (on : Bool) {j : Nat} (hj : j < 16) :
    (if on then m ||| bitOf i else m &&& ~~~ bitOf i).getLsbD j = if j = i then on else m.getLsbD j := by
  have bit := bitOf_bit (i := i) hj
  cases on with
  | true =>
    rw [if_pos rfl, BitVec.getLsbD_or, bit]
    by_cases e : j = i
    · rw [decide_eq_true e, if_pos e, Bool.or_true]
    · rw [decide_eq_false e, if_neg e, Bool.or_false]
  | false =>
    rw [if_neg Bool.false_ne_true, BitVec.getLsbD_and, BitVec.getLsbD_not, bit, decide_eq_true hj]
    by_cases e : j = i
    · rw [decide_eq_true e, if_pos e]; simp
    · rw [decide_eq_false e, if_neg e]; simp

theorem setHot_hot (d : Device) (stand : Nat) (hot : Bool) {j : Nat} (hj : j < 16) :
    (d.setHot stand hot).hot.getLsbD j = if j = stand then hot else d.hot.getLsbD j := by
  unfold Device.setHot
  split
  · next h =>
    by_cases e : j = stand
    · rw [e, if_pos rfl, h]
    · rw [if_neg e]
  · exact setBit_bit d.hot stand hot hj
theorem setHot_frame (d : Device) (stand : Nat) (hot : Bool) : d.setHot stand hot
    = { d with hot := (d.setHot stand hot).hot, paces := (d.setHot stand hot).paces, banks := (d.setHot stand hot).banks } := by
  unfold Device.setHot; split <;> rfl

theorem planHot_hot (d : Device) (stand : Nat) {j : Nat} (hj : j < 16) :
    (d.planHot stand).hot.getLsbD j = if j = stand then d.warm.getLsbD j || d.planned j else d.hot.getLsbD j := by
  rw [Device.planHot, setHot_hot _ _ _ hj]
  by_cases e : j = stand
  · rw [if_pos e, if_pos e, e]
  · rw [if_neg e, if_neg e]

theorem hotChange_runs (s : State) (stand : Fin 16) (warm : Bool) : ∃ e, RunsEvent s (.hotChange stand warm) e
    ∧ e = { s.dev with hot := e.hot, warm := e.warm, paces := e.paces, banks := e.banks }
    ∧ ∀ j < 16, e.warm.getLsbD j = (if j = stand.val then warm else s.dev.warm.getLsbD j)
      ∧ e.hot.getLsbD j = if j = stand.val then warm || s.dev.planned j else s.dev.hot.getLsbD j := by
  refine ⟨_, runsEvent_modDev _ rfl rfl, ?_, fun j hj => ?_⟩
  · unfold Device.setWarm Device.planHot
    rw [setHot_frame]
  · have warmed := setBit_bit s.dev.warm stand.val warm hj
    unfold Device.setWarm Device.planHot
    refine ⟨?_, ?_⟩
    · rw [setHot_frame]; exact warmed
    · refine (planHot_hot _ _ hj).trans ?_
      by_cases e : j = stand.val
      · rw [if_pos e, if_pos e]
        exact congrArg (· || s.dev.planned j) (warmed.trans (if_pos e))
      · rw [if_neg e, if_neg e]

/-! ### The refreshes of a bank's own (R134, R142, R143) -/

/-- One refresh less to pay of a group, and nothing else of what programs see. -/
structure PaidOne (d : Device) (c b : Nat) (g : Lat) (e : Device) : Prop where
  work : ∃ y : Group, GroupWork c b g y d e ∧ y.debt = max ((d.group c b g).debt - 1) (-8) ∧ y.rptr = (d.group c b g).rptr + 1
    ∧ y.latch = (d.group c b g).latch ∧ y.gs = (d.group c b g).gs
  mem : e.mem = d.mem
  harts : e.harts = d.harts
  core : ∀ j, e.core j = { d.core j with credit := (e.core j).credit }

theorem charge_core (d : Device) (c n j : Nat) : (d.charge c n).core j = { d.core j with credit := ((d.charge c n).core j).credit } := by
  by_cases e : j = c
  · subst e; rw [Device.charge, Device.modCore_core_same]
  · rw [Device.charge, Device.modCore, Device.setCore_core_ne _ _ e]

/-- With the sense amplifiers free, an inserted refresh pays its unit. -/
theorem insertRef_free {d : Device} {c b : Nat} (h : d.ampsHeld c b g = false) :
    ∃ t, d.insertRef c b g = (d.refresh c b g t).charge c 8 := ⟨_, if_neg (by simp [h])⟩
theorem paid_refresh (d : Device) (c b : Nat) (g : Lat) (t : Nat) : PaidOne d c b g ((d.refresh c b g t).charge c 8) :=
  ⟨⟨_, (Device.refresh_work d c b g t).charge c 8, rfl, rfl, rfl, rfl⟩, rfl, rfl, charge_core (d.refresh c b g t) c 8⟩

/-- What a refresh paid leaves, field by field. -/
theorem PaidOne.fields {d e : Device} {c b : Nat} (h : PaidOne d c b g e) :
    (e.group c b g).debt = max ((d.group c b g).debt - 1) (-8) ∧ (e.group c b g).rptr = (d.group c b g).rptr + 1
    ∧ (e.group c b g).latch = (d.group c b g).latch ∧ (e.group c b g).gs = (d.group c b g).gs
    ∧ (∀ q, q ≠ g → e.group c b q = d.group c b q) ∧ e.mem = d.mem ∧ e.harts = d.harts
    ∧ ∀ j, e.core j = { d.core j with credit := (e.core j).credit } := by
  obtain ⟨y, work, debt, rptr, latch, gs⟩ := h.work
  rw [work.own]
  exact ⟨debt, rptr, latch, gs, work.others, h.mem, h.harts, h.core⟩

/-- The first move of a forced refresh marks its group, and is counted (R143, R418). -/
def forceBegun (d : Device) (c b : Nat) (g : Lat) : Device :=
  (d.modGroup c b g fun x => { x with force := true }).modSvc c b g fun v => { v with forced := v.forced + 1 }

theorem forceRef_begun {d : Device} {c b : Nat} (h : (d.group c b g).force = true) : d.forceRef c b g = d.insertRef c b g := by
  rw [Device.forceRef, if_pos h]
theorem forceRef_begins {d : Device} {c b : Nat} (h : (d.group c b g).force = false) :
    d.forceRef c b g = (forceBegun d c b g).insertRef c b g := by
  rw [Device.forceRef, if_neg (by simp [h])]; rfl
theorem forceBegun_work (d : Device) (c b : Nat) (g : Lat) :
    GroupWork c b g { d.group c b g with force := true } d (forceBegun d c b g) :=
  ((GroupWork.refl c b g d).modGroup fun x => { x with force := true }).of_bank rfl rfl

theorem ampsHeld_free {d : Device} {c b : Nat} (hp : (d.group c b g).phy = false) (hn : (d.group c b g).pend = none) :
    d.ampsHeld c b g = false := by rw [Device.ampsHeld, hp, hn]; rfl
theorem ampsHeld_held {d : Device} {c b : Nat} (h : (d.group c b g).phy = true ∨ (d.group c b g).pend ≠ none) :
    d.ampsHeld c b g = true := by
  rw [Device.ampsHeld, Bool.or_eq_true, Option.isSome_iff_ne_none]; exact h

theorem paid_insertRef {d : Device} {c b : Nat} (hp : (d.group c b g).phy = false) (hn : (d.group c b g).pend = none) :
    PaidOne d c b g (d.insertRef c b g) ∧ (d.insertRef c b g).svc = d.svc := by
  obtain ⟨t, e⟩ := insertRef_free (ampsHeld_free hp hn)
  rw [e]
  exact ⟨paid_refresh .., rfl⟩

theorem paid_forceRef {d : Device} {c b : Nat} (hp : (d.group c b g).phy = false) (hn : (d.group c b g).pend = none) :
    PaidOne d c b g (d.forceRef c b g) ∧ ((d.group c b g).force = true → (d.forceRef c b g).svc = d.svc)
    ∧ ((d.group c b g).force = false → ∃ v, (d.forceRef c b g).svc = insertK (groupKey c b g) v d.svc
      ∧ v = { lookupD {} (groupKey c b g) d.svc with forced := v.forced }
      ∧ v.forced = (lookupD {} (groupKey c b g) d.svc).forced + 1) := by
  cases h : (d.group c b g).force with
  | true =>
    rw [forceRef_begun h]
    obtain ⟨paid, svc⟩ := paid_insertRef hp hn
    exact ⟨paid, fun _ => svc, (nomatch ·)⟩
  | false =>
    have begun := forceBegun_work d c b g
    have group := begun.own
    rw [forceRef_begins h]
    obtain ⟨t, e⟩ := insertRef_free (ampsHeld_free (d := forceBegun d c b g) (by rw [group]; exact hp) (by rw [group]; exact hn))
    have work := (begun.trans (Device.refresh_work (forceBegun d c b g) c b g t)).charge c 8
    rw [group] at work
    rw [e]
    exact ⟨⟨⟨_, work, rfl, rfl, rfl, rfl⟩, rfl, rfl, charge_core ((forceBegun d c b g).refresh c b g t) c 8⟩, (nomatch ·),
      fun _ => ⟨_, rfl, rfl, rfl⟩⟩

/-- Held sense amplifiers are released first. -/
theorem insertRef_held {d : Device} {c b : Nat} (h : (d.group c b g).phy = true ∨ (d.group c b g).pend ≠ none) :
    let e := d.insertRef c b g
    (e.group c b g).phy = false ∧ (e.group c b g).pend = none ∧ (e.group c b g).debt = (d.group c b g).debt
      ∧ (e.group c b g).rptr = (d.group c b g).rptr := by
  have held := ampsHeld_held h
  have e : d.insertRef c b g = d.closeSense c b g (max d.now (d.group c b g).pr) := by
    rw [Device.insertRef, if_pos held, Device.ownClose, if_pos held]
  have work := (GroupWork.refl c b g d).closeSense (max d.now (d.group c b g).pr)
  dsimp only
  rw [e, work.own]
  exact ⟨rfl, rfl, rfl, rfl⟩

theorem autoRef_still (h : s.dev.autoRefDue c b g = false ∨ s.dev.now < s.dev.insertTime c b g) :
    RunsEvent s (.autoRefInsert c b g) s.dev :=
  runsEvent_modDev _ rfl (if_neg (by rcases h with h | h <;> simp [h]))
theorem autoRef_runs (hd : s.dev.autoRefDue c b g = true) (ht : s.dev.insertTime c b g ≤ s.dev.now) :
    RunsEvent s (.autoRefInsert c b g) (s.dev.insertRef c b g) := runsEvent_modDev _ rfl (if_pos (by simp [hd, ht]))
theorem forcedRef_still (h : s.dev.forcedDue c b g = false ∨ s.dev.now < s.dev.insertTime c b g) :
    RunsEvent s (.forcedRefresh c b g) s.dev :=
  runsEvent_modDev _ rfl (if_neg (by rcases h with h | h <;> simp [h]))
theorem forcedRef_runs (hd : s.dev.forcedDue c b g = true) (ht : s.dev.insertTime c b g ≤ s.dev.now) :
    RunsEvent s (.forcedRefresh c b g) (s.dev.forceRef c b g) := runsEvent_modDev _ rfl (if_pos (by simp [hd, ht]))

/-! ### The precharges of a bank's own (R116, R132, R137) -/

theorem ownPre_still (h : s.dev.ownPreDue c b g = false) : RunsEvent s (.bankOwnPrecharge c b g) s.dev :=
  runsEvent_modDev _ rfl (if_neg (by simp [h]))

theorem ownPre_group (d : Device) (c b : Nat) (g q : Lat) : (d.ownPre c b g).group c b q = (d.closeSense c b g d.now).group c b q := by
  unfold Device.ownPre
  dsimp only
  split
  · rw [Device.group, Device.modBank_bank_same]; rfl
  · rfl
theorem ownPre_mem (d : Device) (c b : Nat) (g : Lat) : (d.ownPre c b g).mem = (d.performPend c b g).mem := by
  unfold Device.ownPre
  dsimp only
  split <;> rfl

theorem ownPre_runs (h : s.dev.ownPreDue c b g = true) : ∃ e, RunsEvent s (.bankOwnPrecharge c b g) e
    ∧ (e.group c b g).phy = false ∧ (e.group c b g).pend = none ∧ (e.group c b g).latch = (s.dev.group c b g).latch
    ∧ (e.group c b g).gs = (s.dev.group c b g).gs ∧ (∀ q, q ≠ g → e.group c b q = s.dev.group c b q)
    ∧ ((s.dev.group c b g).pend = none → e.mem = s.dev.mem)
    ∧ ∀ w, (s.dev.group c b g).pend = some w → e.mem = s.dev.mem.write (rowKey c b g.val w.row) 8192 w.data.toNat := by
  have work := (GroupWork.refl (↑c) (↑b) g s.dev).closeSense s.dev.now
  refine ⟨_, runsEvent_modDev _ rfl (if_pos h), ?_⟩
  rw [ownPre_group, work.own, ownPre_mem]
  exact ⟨rfl, rfl, rfl, rfl, fun q hq => (ownPre_group ..).trans (work.others q hq), Device.performPend_mem_none,
    fun w hw => Device.performPend_mem_some hw⟩

end

end Sys2Proof.Machine
end

