-- ==== Sys2Proof/Proofs/SegmentStarts.lean ====
section
/-! PROOF. An entry of the vector queues that starts (R119, R189, R211, R214): its latches are busy to its end. -/

namespace Sys2Proof.Machine

/-- What one step of a fold establishes and every step keeps holds after it. -/
theorem foldl_holds {α β : Type} {P : β → Prop} {f : β → α → β} {l : List α} {a : α} (ha : a ∈ l) (here : ∀ x, P (f x a))
    (keep : ∀ x y, P x → P (f x y)) (x : β) : P (l.foldl f x) := by
  obtain ⟨before, after, rfl⟩ := List.append_of_mem ha
  rw [List.foldl_append, List.foldl_cons]
  generalize before.foldl f x = y
  have start := here y
  generalize f y a = z at start
  clear ha
  induction after generalizing z with
  | nil => exact start
  | cons b after ih => exact ih _ (keep z b start)

section
variable {d e : Device} {c : Nat}

theorem modBank_bank_at (d : Device) (c b h : Nat) (f : Bank → Bank) :
    (d.modBank c b f).bank c h = if h = b then f (d.bank c b) else d.bank c h := by
  by_cases e : h = b
  · subst e; rw [if_pos rfl, Device.modBank_bank_same]
  · have key : bankKey c h ≠ bankKey c b := by unfold bankKey; omega
    rw [if_neg e]
    simp only [Device.modBank, Device.setBank, Device.bank, lookupD_insertK, if_neg key]
    rfl

/-! ### The banks of the entries that start -/

/-- The banks of a core from which entries have started. -/
def startedAll (d : Device) (c e : Nat) (l : List (Nat × VecSeg)) : Device :=
  l.foldl (fun d p => d.modBank c p.1 fun k => k.started d.now e p.2) d

theorem startedAll_frame (d : Device) (c e : Nat) (l : List (Nat × VecSeg)) :
    startedAll d c e l = { d with banks := (startedAll d c e l).banks } := by
  unfold startedAll
  induction l generalizing d with
  | nil => rfl
  | cons p l ih => rw [List.foldl_cons, ih]; rfl
theorem startedAll_groups (d : Device) (c e h : Nat) (l : List (Nat × VecSeg)) :
    ((startedAll d c e l).bank c h).groups = (d.bank c h).groups := by
  unfold startedAll
  induction l generalizing d with
  | nil => rfl
  | cons p l ih =>
    rw [List.foldl_cons, ih, modBank_bank_at]
    split
    · next same => rw [same]; rfl
    · rfl

/-- The lane of a bank from which an entry of the vector-arithmetic queue has started is busy to the end. -/
theorem startedAll_lane {b : Nat} {q : VecSeg} {l : List (Nat × VecSeg)} (hq : (b, q) ∈ l) (hs : q.store = false) (e : Nat) :
    ((startedAll d c e l).bank c b).lane = e ∧ ((startedAll d c e l).bank c b).laneAt = d.now := by
  have all : ∀ x : Device, x.now = d.now → (l.foldl (fun d p => d.modBank c p.1 fun k => k.started d.now e p.2) x)
      = l.foldl (fun x p => x.modBank c p.1 fun k => k.started d.now e p.2) x := by
    clear hq
    induction l with
    | nil => exact fun _ _ => rfl
    | cons p l ih => intro x hx; rw [List.foldl_cons, List.foldl_cons, hx]; exact ih _ hx
  rw [startedAll, all d rfl]
  refine foldl_holds (P := fun x : Device => (x.bank c b).lane = e ∧ (x.bank c b).laneAt = d.now) hq (fun x => ?_) (fun x p hx => ?_) d
  · rw [modBank_bank_at, if_pos rfl]
    simp [Bank.started, Bank.arrive, hs]
  · rw [modBank_bank_at]
    split
    · next same => subst same; cases h : p.2.store <;> simp [Bank.started, Bank.arrive, h, hx]
    · exact hx
theorem startedAll_out {b : Nat} {q : VecSeg} {l : List (Nat × VecSeg)} (hq : (b, q) ∈ l) (hs : q.store = true) (e : Nat) :
    ((startedAll d c e l).bank c b).out = e := by
  refine foldl_holds (P := fun x : Device => (x.bank c b).out = e) hq (fun x => ?_) (fun x p hx => ?_) d
  · rw [modBank_bank_at, if_pos rfl]
    simp [Bank.started, Bank.arrive, hs]
  · rw [modBank_bank_at]
    split
    · next same => subst same; cases h : p.2.store <;> simp [Bank.started, Bank.arrive, h, hx]
    · exact hx

/-! ### Their latches -/

/-- The scoreboard of a core's latches later, and the latches, the queues and the lanes of its banks as they were. -/
structure Later (c : Nat) (d e : Device) : Prop where
  frame : e = { d with banks := e.banks }
  bank : ∀ h, e.bank c h = { d.bank c h with groups := (e.bank c h).groups }
  latch : ∀ h p, e.latch c h p = d.latch c h p
  lr : ∀ h p, (d.group c h p).lr ≤ (e.group c h p).lr
  lw : ∀ h p, (d.group c h p).lw ≤ (e.group c h p).lw

namespace Later

theorem refl (c : Nat) (d : Device) : Later c d d := ⟨rfl, fun _ => rfl, fun _ _ => rfl, fun _ _ => le_rfl, fun _ _ => le_rfl⟩
theorem trans {f : Device} (x : Later c d e) (y : Later c e f) : Later c d f := by
  refine ⟨?_, fun h => ?_, fun h p => (y.latch h p).trans (x.latch h p), fun h p => (x.lr h p).trans (y.lr h p),
    fun h p => (x.lw h p).trans (y.lw h p)⟩
  · rw [y.frame, x.frame]
  · rw [y.bank h, x.bank h]
theorem foldl {α : Type} {f : Device → α → Device} (hf : ∀ d a, Later c d (f d a)) (l : List α) (d : Device) :
    Later c d (l.foldl f d) := by
  induction l generalizing d with
  | nil => exact refl c d
  | cons a l ih => exact (hf d a).trans (ih _)

end Later

theorem modGroup_group_at (d : Device) (c b h : Nat) (g p : Lat) (f : Group → Group) :
    (d.modGroup c b g f).group c h p = if h = b ∧ p = g then f (d.group c b g) else d.group c h p := by
  by_cases eb : h = b
  · subst eb
    by_cases eg : p = g
    · subst eg; rw [if_pos ⟨rfl, rfl⟩, Device.modGroup_group_same]
    · rw [if_neg fun e => eg e.2, Device.modGroup_group_ne _ _ _ _ eg]
  · rw [if_neg fun e => eb e.1, Device.modGroup, Device.group, modBank_bank_at, if_neg eb]; rfl

/-- A group of the core with a later scoreboard. -/
theorem later_modGroup (d : Device) (c b : Nat) (g : Lat) {f : Group → Group} (hl : ∀ x, (f x).latch = x.latch)
    (hr : ∀ x, x.lr ≤ (f x).lr) (hw : ∀ x, x.lw ≤ (f x).lw) : Later c d (d.modGroup c b g f) := by
  have latch : ∀ h p, ((d.modGroup c b g f).group c h p).latch = (d.group c h p).latch := fun h p => by
    rw [modGroup_group_at]
    split
    · next e => rw [e.1, e.2]; exact hl _
    · rfl
  refine ⟨rfl, fun h => ?_, latch, fun h p => ?_, fun h p => ?_⟩
  · rw [Device.modGroup, modBank_bank_at]
    split
    · next e => rw [e]
    · rfl
  · rw [modGroup_group_at]
    split
    · next e => rw [e.1, e.2]; exact hr _
    · exact le_rfl
  · rw [modGroup_group_at]
    split
    · next e => rw [e.1, e.2]; exact hw _
    · exact le_rfl

/-- A latch that an entry reads, busy for writers to its end. -/
def busyRead (c t : Nat) (d : Device) (n : Nat) : Device :=
  d.modGroup c (latchOf n).1 (latchOf n).2 fun x => { x with lw := max x.lw t }
/-- A latch that an entry writes, busy for readers and writers to its end. -/
def busyWrite (c t : Nat) (d : Device) (n : Nat) : Device :=
  d.modGroup c (latchOf n).1 (latchOf n).2 fun x => { x with lr := max x.lr t, lw := max x.lw t }

theorem later_busyRead (c t : Nat) (d : Device) (n : Nat) : Later c d (busyRead c t d n) :=
  later_modGroup d c _ _ (fun _ => rfl) (fun _ => le_rfl) fun x => le_max_left x.lw t
theorem later_busyWrite (c t : Nat) (d : Device) (n : Nat) : Later c d (busyWrite c t d n) :=
  later_modGroup d c _ _ (fun _ => rfl) (fun x => le_max_left x.lr t) fun x => le_max_left x.lw t

theorem segLatches_eq (d : Device) (c t : Nat) (q : VecSeg) :
    d.segLatches c t q = q.wr.foldl (busyWrite c t) (q.rd.foldl (busyRead c t) d) := rfl
theorem later_segLatches (d : Device) (c t : Nat) (q : VecSeg) : Later c d (d.segLatches c t q) :=
  (Later.foldl (later_busyRead c t) q.rd d).trans (Later.foldl (later_busyWrite c t) q.wr _)

theorem segLatches_rd {q : VecSeg} {n : Nat} (hn : n ∈ q.rd) (d : Device) (c t : Nat) :
    t ≤ ((d.segLatches c t q).group c (latchOf n).1 (latchOf n).2).lw := by
  rw [segLatches_eq]
  refine le_trans ?_ ((Later.foldl (later_busyWrite c t) q.wr _).lw _ _)
  refine foldl_holds (P := fun x : Device => t ≤ (x.group c (latchOf n).1 (latchOf n).2).lw) hn (fun x => ?_) (fun x m hx => ?_) d
  · rw [busyRead, Device.modGroup_group_same]; exact le_max_right ..
  · exact hx.trans ((later_busyRead c t x m).lw _ _)
theorem segLatches_wr {q : VecSeg} {n : Nat} (hn : n ∈ q.wr) (d : Device) (c t : Nat) :
    t ≤ ((d.segLatches c t q).group c (latchOf n).1 (latchOf n).2).lr
      ∧ t ≤ ((d.segLatches c t q).group c (latchOf n).1 (latchOf n).2).lw := by
  rw [segLatches_eq]
  refine foldl_holds (P := fun x : Device => t ≤ (x.group c (latchOf n).1 (latchOf n).2).lr
    ∧ t ≤ (x.group c (latchOf n).1 (latchOf n).2).lw) hn (fun x => ?_) (fun x m hx => ?_) _
  · rw [busyWrite, Device.modGroup_group_same]; exact ⟨le_max_right .., le_max_right ..⟩
  · exact ⟨hx.1.trans ((later_busyWrite c t x m).lr _ _), hx.2.trans ((later_busyWrite c t x m).lw _ _)⟩

/-- The latches of the entries that start. -/
def busyAll (d : Device) (c t : Nat) (l : List (Nat × VecSeg)) : Device := l.foldl (fun d p => d.segLatches c t p.2) d

theorem later_busyAll (d : Device) (c t : Nat) (l : List (Nat × VecSeg)) : Later c d (busyAll d c t l) :=
  Later.foldl (f := fun d p => d.segLatches c t p.2) (fun d p => later_segLatches d c t p.2) l d

section
variable {b n : Nat} {q : VecSeg} {l : List (Nat × VecSeg)} (hq : (b, q) ∈ l)
include hq

theorem busyAll_rd (hn : n ∈ q.rd) (d : Device) (c t : Nat) : t ≤ ((busyAll d c t l).group c (latchOf n).1 (latchOf n).2).lw := by
  rw [busyAll]
  refine foldl_holds (P := fun x : Device => t ≤ (x.group c (latchOf n).1 (latchOf n).2).lw) hq (fun x => ?_) (fun x p hx => ?_) d
  · exact segLatches_rd hn x c t
  · exact hx.trans ((later_segLatches x c t p.2).lw _ _)
theorem busyAll_wr (hn : n ∈ q.wr) (d : Device) (c t : Nat) :
    t ≤ ((busyAll d c t l).group c (latchOf n).1 (latchOf n).2).lr
      ∧ t ≤ ((busyAll d c t l).group c (latchOf n).1 (latchOf n).2).lw := by
  rw [busyAll]
  refine foldl_holds (P := fun x : Device => t ≤ (x.group c (latchOf n).1 (latchOf n).2).lr
    ∧ t ≤ (x.group c (latchOf n).1 (latchOf n).2).lw) hq (fun x => ?_) (fun x p hx => ?_) d
  · exact segLatches_wr hn x c t
  · have later := later_segLatches x c t p.2
    exact ⟨hx.1.trans (later.lr _ _), hx.2.trans (later.lw _ _)⟩

end

/-! ### The event -/

/-- The entries that start with the next one of a bank: those of its word on every bank for a bus word (R214). -/
def starting (d : Device) (c b : Nat) (q : VecSeg) : List (Nat × VecSeg) :=
  if q.stream then q.reqs.flatMap (d.segsOf c) else [(b, q)]

theorem startSeg_none {b : Nat} (h : d.segNext c b = none) : d.startSeg c b = d := by rw [Device.startSeg, h]
theorem startSeg_some {b : Nat} {q : VecSeg} (h : d.segNext c b = some q) : d.startSeg c b
    = (busyAll (startedAll d c (d.segEnd c b q) (starting d c b q)) c (d.segEnd c b q) (starting d c b q)).segReqs c
        (d.segEnd c b q) q := by
  rw [Device.startSeg, h]; rfl

theorem segReqs_frame (d : Device) (c e : Nat) (q : VecSeg) : d.segReqs c e q = { d with cores := (d.segReqs c e q).cores } := by
  unfold Device.segReqs
  generalize q.reqs = l
  induction l generalizing d with
  | nil => rfl
  | cons id l ih => rw [List.foldl_cons, ih]; rfl
theorem segReqs_bank (d : Device) (c e : Nat) (q : VecSeg) (c' h : Nat) : (d.segReqs c e q).bank c' h = d.bank c' h := by
  rw [segReqs_frame]; rfl

section
variable {b : Nat} {q : VecSeg} (h : d.segNext c b = some q)
include h

theorem segNext_mem : q ∈ (d.bank c b).segs := List.mem_of_find?_eq_some h
theorem segNext_may : d.segGranted c q = true ∧ d.segOpen c b q = true :=
  Bool.and_eq_true_iff.mp (List.find?_some (p := fun q => d.segGranted c q && d.segOpen c b q) h)
theorem segNext_open : d.segBarred c q = false ∧ d.segReady c b q ≤ d.now := by
  have open_ := (segNext_may h).2
  simp only [Device.segOpen, Bool.and_eq_true, Bool.not_eq_true', decide_eq_true_eq] at open_
  exact ⟨open_.1.2, open_.2⟩
theorem segNext_unbarred : ∀ j < 16, ∀ p ∈ (d.bank c j).segs, p.bars q = false := by
  have barred := (segNext_open h).1
  intro j hj p hp
  simp only [Device.segBarred, List.any_eq_false, List.mem_range] at barred
  have bank := barred j hj
  simp only [List.any_eq_true, not_exists, not_and, Bool.not_eq_true] at bank
  exact bank p hp

/-- The entry itself is among those that start. -/
theorem starting_mem (hb : b < 16) (hs : q.stream = true → q.reqs ≠ []) : (b, q) ∈ starting d c b q := by
  unfold starting
  split
  · next stream =>
    obtain ⟨id, hid⟩ := List.exists_mem_of_ne_nil _ (hs stream)
    refine List.mem_flatMap.mpr ⟨id, hid, List.mem_flatMap.mpr ⟨b, List.mem_range.mpr hb, List.mem_map.mpr ⟨q, ?_, rfl⟩⟩⟩
    exact List.mem_filter.mpr ⟨segNext_mem h, by simpa using hid⟩
  · exact List.mem_singleton_self _

end

theorem segEnd_sweep {b : Nat} {q : VecSeg} (hs : q.stream = false) : d.segEnd c b q
    = if q.chain = true then max (d.bank c b).lane (d.now + q.time) else d.now + q.time := by
  rw [Device.segEnd, if_neg (by simp [hs])]
theorem segEnd_stream {b id t : Nat} {q : VecSeg} (hs : q.stream = true) (hid : id ∈ q.reqs) (ht : d.busAt c id = some t) :
    t + 20 ≤ d.segEnd c b q := by
  rw [Device.segEnd, if_pos hs]
  refine foldl_holds (P := fun e : Nat => t + 20 ≤ e) hid (fun e => ?_) (fun e _ he => he.trans (le_max_left ..)) _
  rw [ht]; exact le_max_right ..

/-- A sweep that starts alone leaves its queue. -/
theorem started_segs {b e : Nat} {q : VecSeg} (hs : q.stream = false) :
    ((startedAll d c e (starting d c b q)).bank c b).segs = (d.bank c b).segs.erase q := by
  rw [starting, if_neg (by simp [hs]), startedAll, List.foldl_cons, List.foldl_nil, Device.modBank_bank_same]
  rfl

end

theorem segmentStart_none {s : State} {c : Fin 2048} {b : Fin 16} (h : s.dev.segNext c b = none) :
    RunsEvent s (.vectorSegmentStart c b) s.dev := runsEvent_modDev _ rfl (startSeg_none h)

/-- What the start of an entry leaves (R189, R214). -/
theorem segmentStart_some {s : State} {c : Fin 2048} {b : Fin 16} {q : VecSeg} (h : s.dev.segNext c b = some q)
    (hs : q.stream = true → q.reqs ≠ []) :
    let d := s.dev
    let k := d.bank c b
    let fin := d.segEnd c b q
    ∃ e, RunsEvent s (.vectorSegmentStart c b) e
      ∧ e = { d with banks := e.banks, cores := e.cores } ∧ (q.stream = false → (e.bank c b).segs = k.segs.erase q)
      ∧ (q.store = false → (e.bank c b).lane = fin ∧ (e.bank c b).laneAt = d.now) ∧ (q.store = true → (e.bank c b).out = fin)
      ∧ (q.stream = false → fin = if q.chain = true then max k.lane (d.now + q.time) else d.now + q.time)
      ∧ (q.stream = true → ∀ id ∈ q.reqs, ∀ t, d.busAt c id = some t → t + 20 ≤ fin)
      ∧ (∀ n ∈ q.rd, ∀ p : Lat, p.val = n % 4 → fin ≤ (e.group c (n / 4) p).lw)
      ∧ (∀ n ∈ q.wr, ∀ p : Lat, p.val = n % 4 → fin ≤ (e.group c (n / 4) p).lr ∧ fin ≤ (e.group c (n / 4) p).lw)
      ∧ ∀ h p, e.latch c h p = d.latch c h p := by
  intro d k fin
  have mem := starting_mem h b.isLt hs
  have later := later_busyAll (startedAll d c fin (starting d c b q)) c fin (starting d c b q)
  have bank := fun h' => segReqs_bank (busyAll (startedAll d c fin (starting d c b q)) c fin (starting d c b q)) c fin q c h'
  have group : ∀ h' p, ((busyAll (startedAll d c fin (starting d c b q)) c fin (starting d c b q)).segReqs c fin q).group c h' p
      = (busyAll (startedAll d c fin (starting d c b q)) c fin (starting d c b q)).group c h' p := fun h' p => by
    rw [Device.group, bank]; rfl
  have latOf : ∀ (n : Nat) (p : Lat), p.val = n % 4 → (latchOf n).2 = p := fun n p hp => Fin.ext hp.symm
  refine ⟨_, runsEvent_modDev _ rfl (startSeg_some h), ?_, fun hst => ?_, fun hst => ?_, fun hst => ?_, segEnd_sweep,
    fun hst id hid t ht => segEnd_stream hst hid ht, fun n hn p hp => ?_, fun n hn p hp => ?_, fun h' p => ?_⟩
  · rw [segReqs_frame, later.frame, startedAll_frame]
  · rw [bank, later.bank]; exact started_segs hst
  · rw [bank, later.bank]; exact startedAll_lane mem hst _
  · rw [bank, later.bank]; exact startedAll_out mem hst _
  · rw [group, ← latOf n p hp]; exact busyAll_rd mem hn _ _ _
  · rw [group, ← latOf n p hp]; exact busyAll_wr mem hn _ _ _
  · rw [Device.latch, group]
    refine (later.latch h' p).trans ?_
    rw [Device.latch, Device.group, startedAll_groups]; rfl

end Sys2Proof.Machine
end

