-- ==== Sys2Proof/Proofs/BusGrants.lean ====
section
/-! PROOF. The grant of bus slots (R210 to R212): the request that goes first, and the slots that it takes. -/

namespace Sys2Proof.Machine

/-! ### The request that goes first -/

/-- A request is not after another: it is older, or as old and not behind one of the matrix unit. -/
def BusReq.first (q r : BusReq) : Prop := q.age ≤ r.age ∧ (r.age = q.age → r.matrix = true → q.matrix = true)

theorem BusReq.first_refl (q : BusReq) : q.first q := ⟨le_rfl, fun _ h => h⟩
theorem BusReq.first_trans {p q r : BusReq} (x : p.first q) (y : q.first r) : p.first r :=
  ⟨x.1.trans y.1, fun e m => by
    have eq : r.age = q.age := le_antisymm (e ▸ x.1) y.1
    exact x.2 (eq.symm.trans e) (y.2 eq m)⟩
theorem BusReq.first_of_before {p q : BusReq} (h : BusReq.before p q = true) : p.first q := by
  simp only [BusReq.before, Bool.or_eq_true, Bool.and_eq_true, decide_eq_true_eq, beq_iff_eq] at h
  rcases h with h | ⟨⟨e, m⟩, -⟩
  · exact ⟨Nat.le_of_lt h, fun e => absurd e.symm (Nat.ne_of_lt h)⟩
  · exact ⟨Nat.le_of_eq e, fun _ _ => m⟩
theorem BusReq.first_of_not_before {p q : BusReq} (h : ¬ BusReq.before p q = true) : q.first p := by
  simp only [BusReq.before, Bool.or_eq_true, Bool.and_eq_true, decide_eq_true_eq, beq_iff_eq, not_or, not_and] at h
  refine ⟨Nat.not_lt.mp h.1, fun e m => ?_⟩
  simpa using h.2 ⟨e, m⟩

/-- The choice between the request found first so far and another. -/
def busPick (o : Option BusReq) (q : BusReq) : Option BusReq :=
  match o with
  | none => some q
  | some p => if BusReq.before q p then some q else some p

theorem busPick_foldl (l : List BusReq) (p : BusReq) :
    ∃ q, l.foldl busPick (some p) = some q ∧ (q = p ∨ q ∈ l) ∧ q.first p ∧ ∀ r ∈ l, q.first r := by
  induction l generalizing p with
  | nil => exact ⟨p, rfl, .inl rfl, p.first_refl, fun r hr => (List.not_mem_nil hr).elim⟩
  | cons a l ih =>
    rw [List.foldl_cons, busPick]
    split
    · next before =>
      obtain ⟨q, found, from_, own, all⟩ := ih a
      refine ⟨q, found, .inr (from_.elim (fun e => e ▸ List.mem_cons_self ..) (List.mem_cons_of_mem _)),
        BusReq.first_trans own (BusReq.first_of_before before), fun r hr => ?_⟩
      rcases List.mem_cons.mp hr with rfl | hr
      · exact own
      · exact all r hr
    · next before =>
      obtain ⟨q, found, from_, own, all⟩ := ih p
      refine ⟨q, found, from_.imp_right (List.mem_cons_of_mem _), own, fun r hr => ?_⟩
      rcases List.mem_cons.mp hr with rfl | hr
      · exact BusReq.first_trans own (BusReq.first_of_not_before before)
      · exact all r hr

theorem busPick_some {l : List BusReq} {q : BusReq} (h : l.foldl busPick none = some q) : q ∈ l ∧ ∀ r ∈ l, q.first r := by
  cases l with
  | nil => cases h
  | cons a l =>
    obtain ⟨p, found, from_, own, all⟩ := busPick_foldl l a
    cases (show some p = some q from found.symm.trans h)
    refine ⟨from_.elim (fun e => e ▸ List.mem_cons_self ..) (List.mem_cons_of_mem _), fun r hr => ?_⟩
    rcases List.mem_cons.mp hr with rfl | hr
    · exact own
    · exact all r hr

section
variable {d : Device} {c : Nat} {q : BusReq}

/-- A request that a broadcast's limit does not keep off (R212). -/
def busMay (d : Device) (c : Nat) (r : BusReq) : Prop :=
  r.matrix = false ∨ ((d.busMatrix c).length < 2 ∧ (d.core c).switch = none)

theorem mem_busReady {r : BusReq} : r ∈ ((d.core c).busQ.filter fun q =>
    !(q.matrix && (2 ≤ (d.busMatrix c).length || (d.core c).switch.isSome)) && d.busOpen c q)
      ↔ r ∈ (d.core c).busQ ∧ busMay d c r ∧ d.busOpen c r = true := by
  rw [List.mem_filter]
  refine and_congr_right fun _ => ?_
  unfold busMay
  cases r.matrix with
  | false => simp
  | true => cases (d.core c).switch <;> simp

theorem busFirst_first (h : d.busFirst c = some q) : q ∈ (d.core c).busQ ∧ busMay d c q
    ∧ ∀ r ∈ (d.core c).busQ, busMay d c r → d.busOpen c r = true → q.first r := by
  obtain ⟨mem, first⟩ := busPick_some (show _ = some q from h)
  obtain ⟨queued, may, -⟩ := mem_busReady.mp mem
  exact ⟨queued, may, fun r hr hm ho => first r (mem_busReady.mpr ⟨hr, hm, ho⟩)⟩

/-! ### The slots that it takes -/

theorem mem_busFree {i : Fin 4} : i ∈ d.busFree c ↔ (d.core c).bus[i.val].owner = none ∧ (d.core c).bus[i.val].free ≤ d.now := by
  rw [Device.busFree, List.mem_filter]
  simp [BusSlot.isFree]
theorem mem_busMatrix {i : Fin 4} :
    i ∈ d.busMatrix c ↔ d.now < (d.core c).bus[i.val].free ∧ (d.core c).bus[i.val].matrix = true := by
  rw [Device.busMatrix, List.mem_filter]
  simp

theorem busTake_free {i : Fin 4} (h : i ∈ d.busTake c q) : i ∈ d.busFree c := by
  unfold Device.busTake at h
  dsimp only at h
  split at h
  · split at h
    · exact h
    · cases h
  · exact List.mem_of_mem_take h

/-- A broadcast takes every slot that the matrix unit does not hold. -/
theorem busTake_all (ha : q.all = true) (ht : d.busTake c q ≠ []) (i : Fin 4) : i ∈ d.busTake c q ∨ i ∈ d.busMatrix c := by
  have four : (d.busFree c).length + (d.busMatrix c).length = 4 := by
    by_contra ne
    exact ht (by rw [Device.busTake]; simp [ha, ne])
  have take : d.busTake c q = d.busFree c := by rw [Device.busTake]; simp [ha, four]
  have apart : ∀ j ∈ d.busFree c, j ∉ d.busMatrix c := fun j hj hm =>
    absurd (mem_busFree.mp hj).2 (Nat.not_le.mpr (mem_busMatrix.mp hm).1)
  have nodup : (d.busFree c ++ d.busMatrix c).Nodup := List.nodup_append.mpr
    ⟨(List.nodup_finRange 4).filter _, (List.nodup_finRange 4).filter _, fun a ha b hb e => apart a ha (e ▸ hb)⟩
  have full : (d.busFree c ++ d.busMatrix c).toFinset = Finset.univ := by
    refine Finset.eq_univ_of_card _ ?_
    rw [List.toFinset_card_of_nodup nodup, List.length_append, four, Fintype.card_fin]
  have here : i ∈ (d.busFree c ++ d.busMatrix c).toFinset := full ▸ Finset.mem_univ i
  rw [take]
  exact List.mem_append.mp (List.mem_toFinset.mp here)

theorem setSlots_get (l : List (Fin 4)) (slot : BusSlot) (v : Vector BusSlot 4) (i : Fin 4) :
    (l.foldl (fun v i => v.set i.val slot) v)[i.val] = if i ∈ l then slot else v[i.val] := by
  induction l generalizing v with
  | nil => simp
  | cons a l ih =>
    rw [List.foldl_cons, ih]
    by_cases e : i = a
    · subst e; simp
    · have : ¬ a.val = i.val := fun h => e (Fin.ext h.symm)
      simp [e, this]

/-! ### The event -/

/-- The core after a grant. -/
def granted (d : Device) (c : Nat) (q : BusReq) : Core :=
  { d.core c with
    bus := (d.busTake c q).foldl (fun v i => v.set i.val
      (if q.held then { free := d.now, owner := some q.id } else { free := d.now + q.time, matrix := q.matrix })) (d.core c).bus
    busQ := if q.all || q.need ≤ 1 then (d.core c).busQ.filter fun r => r.id != q.id
            else (d.core c).busQ.map fun r => if r.id = q.id then { r with need := r.need - 1 } else r
    busDone := if q.all || q.need ≤ 1 then insertK q.id d.now (d.core c).busDone else (d.core c).busDone }

theorem busGrant_none (h : d.busFirst c = none) : d.busGrant c = d := by rw [Device.busGrant, h]
theorem busGrant_nothing (h : d.busFirst c = some q) (ht : d.busTake c q = []) : d.busGrant c = d := by
  rw [Device.busGrant, h]; exact if_pos (by simp [ht])
theorem busGrant_some (h : d.busFirst c = some q) (ht : d.busTake c q ≠ []) : d.busGrant c = d.setCore c (granted d c q) := by
  rw [Device.busGrant, h]; exact if_neg (by simpa using ht)

end

/-- What a grant leaves of the core. -/
theorem busGrant_runs {s : State} {c : Fin 2048} {q : BusReq} (h : s.dev.busFirst c = some q) (ht : s.dev.busTake c q ≠ []) :
    let d := s.dev
    let y := d.core c
    let take := d.busTake c q
    ∃ z, RunsEvent s (.busSlotGrant c) (d.setCore c z)
      ∧ z = { y with bus := z.bus, busQ := z.busQ, busDone := z.busDone }
      ∧ (∀ i : Fin 4, z.bus[i.val] = if i ∈ take then
          (if q.held = true then { free := d.now, owner := some q.id } else { free := d.now + q.time, matrix := q.matrix })
        else y.bus[i.val])
      ∧ (q.all = true ∨ q.need ≤ 1 → z.busQ = y.busQ.filter (fun r => r.id ≠ q.id) ∧ lookupK q.id z.busDone = some d.now)
      ∧ (q.all = false → 1 < q.need → z.busDone = y.busDone
        ∧ z.busQ = y.busQ.map fun r => if r.id = q.id then { r with need := r.need - 1 } else r) := by
  intro d y take
  refine ⟨granted d c q, runsEvent_modDev _ rfl (busGrant_some h ht), rfl, fun i => setSlots_get .., fun done => ?_, fun all more => ?_⟩
  · have last : (q.all || decide (q.need ≤ 1)) = true := by simpa using done
    refine ⟨?_, ?_⟩
    · refine (if_pos last).trans (List.filter_congr fun r _ => ?_)
      by_cases e : r.id = q.id <;> simp [e]
    · exact (congrArg (lookupK q.id) (if_pos last)).trans (lookupK_insertK_same ..)
  · have last : ¬ (q.all || decide (q.need ≤ 1)) = true := by simp [all, more]
    exact ⟨if_neg last, if_neg last⟩

end Sys2Proof.Machine
end

