-- ==== Sys2Proof/Proofs/RowTagsAndMeasures.lean ====
section
/-! PROOF. The tags of rows as the host sets them, and the measurements of retention (R121, R123, R137, R418). -/

namespace Sys2Proof.Machine

section
variable {s : State} {c : Fin 2048} {b : Fin 16} {g : Lat}

/-! ### Row tags (R121, R123) -/

theorem lookupK_eraseK_ne {α : Type} {k n : Nat} (l : List (Nat × α)) (h : n ≠ k) : lookupK n (eraseK k l) = lookupK n l := by
  unfold eraseK
  simpa [h] using lookupK_filter n (fun j => j != k) l

theorem setRowTag_tag (d : Device) (c b : Nat) (g : Lat) {row : Nat} (hr : row < 508) (tag : BitVec 4) (r : Nat) :
    (d.setRowTag c b g row tag).rowTag c b g r = if r = row then tag else d.rowTag c b g r := by
  have low : ¬ Config.allottable ≤ row := Nat.not_le.mpr hr
  rw [Device.setRowTag, if_neg low, Device.rowTag, Device.rowTag]
  dsimp only
  by_cases e : r = row
  · subst e
    rw [if_pos rfl, lookupD]
    split
    · next raw => rw [lookupK_eraseK_same, raw]; rfl
    · rw [lookupK_insertK_same]; exact (BitVec.ofNat_toNat ..).trans (BitVec.setWidth_eq ..)
  · have key : groupKey c b g * 512 + r ≠ groupKey c b g * 512 + row := fun h => e (Nat.add_left_cancel h)
    rw [if_neg e, lookupD, lookupD]
    split
    · rw [lookupK_eraseK_ne _ key]
    · rw [lookupK_insertK_ne _ _ key]

theorem rowTagWrite_high {row : Fin 512} (tag : BitVec 4) (h : 508 ≤ row.val) :
    RunsEvent s (.rowTagWrite c b g row tag) s.dev.setHwd := runsEvent_modDev _ rfl (if_pos h)
theorem rowTagWrite_low {row : Fin 512} (tag : BitVec 4) (h : row.val < 508) : ∃ e, RunsEvent s (.rowTagWrite c b g row tag) e
    ∧ e = { s.dev with rowTags := e.rowTags }
    ∧ ∀ r, e.rowTag c b g r = if r = row.val then tag else s.dev.rowTag c b g r := by
  refine ⟨_, runsEvent_modDev _ rfl rfl, ?_, setRowTag_tag s.dev c b g h tag⟩
  have low : ¬ Config.allottable ≤ row.val := Nat.not_le.mpr h
  rw [Device.setRowTag, if_neg low]

/-! ### A column access at a group that is free (R137) -/

section
variable {d : Device} {c b : Nat}

theorem forceAll_none (h : d.forcedDue c b g = false) (n : Nat) : d.forceAll c b g n = d := by
  cases n with
  | zero => rfl
  | succ n => unfold Device.forceAll; rw [if_neg (by simp [h])]
theorem release_free (hp : (d.group c b g).phy = false) (hn : (d.group c b g).pend = none) : d.release c b g = d := by
  have own : d.ownClose c b g = d := by rw [Device.ownClose, if_neg (by simp [ampsHeld_free hp hn])]
  unfold Device.release
  split
  · rw [if_neg (by simp [hp]), own]
  · exact own

/-- With the sense amplifiers free and no forced refresh due, a column access shares an activation or makes its own. -/
theorem colUse_free (hf : d.forcedDue c b g = false) (hp : (d.group c b g).phy = false) (hn : (d.group c b g).pend = none)
    (key cls : Nat) : d.colUse c b g key cls = d
      ∨ d.colUse c b g key cls = (d.sensed c b g key).modGroup c b g
          (Device.colTake d.now (max ((d.bank c b).spaced g d.now) (Device.colFrom d.now cls (d.group c b g))) cls (keyRow key)) := by
  unfold Device.colUse
  rw [forceAll_none hf, release_free hp hn]
  dsimp only
  split <;> split
  · exact .inl rfl
  · exact .inr rfl
  · exact .inl rfl
  · exact .inr rfl
theorem colUse_fresh (hf : d.forcedDue c b g = false) (hp : (d.group c b g).phy = false) (hn : (d.group c b g).pend = none)
    (hc : (d.group c b g).col = none) (key cls : Nat) : d.colUse c b g key cls = (d.sensed c b g key).modGroup c b g
      (Device.colTake d.now (max ((d.bank c b).spaced g d.now) (Device.colFrom d.now cls (d.group c b g))) cls (keyRow key)) := by
  unfold Device.colUse
  rw [forceAll_none hf, release_free hp hn]
  dsimp only
  rw [hc]
  exact if_neg (by simp)

theorem colTake_latch (now t cls row : Nat) (x : Group) : (Device.colTake now t cls row x).latch = x.latch := by
  unfold Device.colTake; dsimp only; split <;> rfl

theorem colUse_latch (hf : d.forcedDue c b g = false) (hp : (d.group c b g).phy = false) (hn : (d.group c b g).pend = none)
    (key cls : Nat) : (d.colUse c b g key cls).mem = d.mem ∧ ∀ p, (d.colUse c b g key cls).latch c b p = d.latch c b p := by
  rcases colUse_free hf hp hn key cls with e | e <;> rw [e]
  · exact ⟨rfl, fun p => rfl⟩
  · refine ⟨rfl, fun p => ?_⟩
    have work := ((GroupWork.refl c b g d).of_bank (e' := d.sensed c b g key) rfl rfl).modGroup
      (Device.colTake d.now (max ((d.bank c b).spaced g d.now) (Device.colFrom d.now cls (d.group c b g))) cls (keyRow key))
    by_cases e : p = g
    · subst e; exact (congrArg Group.latch work.own).trans (colTake_latch ..)
    · exact congrArg Group.latch (work.others p e)

end

/-! ### A change of the pace leaves the latches (R140) -/

theorem idleBank_latch (d : Device) (key : Nat) (p : Lat) : (d.idleBank key).groups[p.val].latch = {} := by
  match p with
  | 0 | 1 | 2 | 3 => rfl

/-- A bank whose last tick the new interval puts later. -/
def repaced (d e : Device) (key : Nat) (k : Bank) : Bank :=
  if d.debtInterval (key / 16) ≠ e.debtInterval (key / 16) ∧ k.ticks ≠ 0 then
    { k with lastTick := max k.lastTick (d.now - e.debtInterval (key / 16)) }
  else k
theorem repaced_groups (d e : Device) (key : Nat) (k : Bank) : (repaced d e key k).groups = k.groups := by
  unfold repaced; split <;> rfl

/-- Banks changed by their keys, each with the groups that it had, have the latches that they had. -/
theorem mappedBanks_latch {d e : Device} {f : Nat → Bank → Bank} (hf : ∀ key k, (f key k).groups = k.groups)
    (he : e.banks = d.banks.map fun q => (q.1, f q.1 q.2)) (c b : Nat) (p : Lat) : e.latch c b p = d.latch c b p := by
  rw [Device.latch, Device.latch, Device.group, Device.group, Device.bank, Device.bank, lookupD, lookupD, he, lookupK_mapKeyed]
  cases lookupK (bankKey c b) d.banks with
  | none => exact (idleBank_latch ..).trans (idleBank_latch ..).symm
  | some k => simp only [Option.map_some, Option.getD_some, hf]

theorem repace_banks (d e : Device) : (d.repace e).banks = e.banks.map fun q => (q.1, repaced d e q.1 q.2) := by
  unfold Device.repace repaced
  dsimp only
  refine List.map_congr_left fun q _ => ?_
  split <;> rfl

theorem repace_latch {d e d' : Device} (h : e.banks = d'.banks) (c b : Nat) (p : Lat) : (d.repace e).latch c b p = d'.latch c b p :=
  mappedBanks_latch (repaced_groups d e) (h ▸ repace_banks d e) c b p

theorem setHot_latch (d : Device) (stand : Nat) (hot : Bool) (c b : Nat) (p : Lat) :
    (d.setHot stand hot).latch c b p = d.latch c b p := by
  unfold Device.setHot
  split
  · rfl
  · refine repace_latch ?_ c b p; rfl

/-! ### A measurement of retention (R137, R418) -/

theorem rowKey_place (c : Fin 2048) (b : Fin 16) (g : Lat) {row : Nat} (hr : row < 512) : rowKey c b g row < 2 ^ 39
    ∧ keyCore (rowKey c b g row) = c.val ∧ keyBank (rowKey c b g row) = b.val ∧ keyGroup (rowKey c b g row) = g := by
  have hc := c.isLt
  have hb := b.isLt
  have hg := g.isLt
  unfold rowKey keyCore keyBank keyGroup
  refine ⟨by omega, by omega, by omega, Fin.ext ?_⟩
  dsimp only
  omega

/-- Where a column access is free, no forced refresh of its group is due. -/
theorem colFree_due {d : Device} {c b : Nat} {a : ColAccess} (h : d.colFree c b a = true) : d.forcedDue c b (keyGroup a.pa) = false := by
  unfold Device.colFree at h
  dsimp only at h
  obtain ⟨-, due⟩ := Bool.and_eq_true_iff.mp h
  exact Bool.not_eq_true' _ ▸ due

theorem releaseFor_latch {d : Device} {c b key : Nat} (low : key < 2 ^ 39) (core : keyCore key = c) (bank : keyBank key = b)
    (group : keyGroup key = g) (hf : d.forcedDue c b g = false) (hp : (d.group c b g).phy = false)
    (hn : (d.group c b g).pend = none) (cls : Nat) :
    (d.releaseFor key cls).mem = d.mem ∧ ∀ p, (d.releaseFor key cls).latch c b p = d.latch c b p := by
  have used : d.releaseFor key cls = d.colUse c b g key cls := by
    rw [Device.releaseFor, if_pos low, core, bank, group]
  rw [used]
  exact colUse_latch hf hp hn key cls

theorem planHot_frame (d : Device) (stand : Nat) : d.planHot stand
    = { d with hot := (d.planHot stand).hot, paces := (d.planHot stand).paces, banks := (d.planHot stand).banks } :=
  setHot_frame d stand _
theorem planHot_svc (d : Device) (stand : Nat) : (d.planHot stand).svc = d.svc := by rw [planHot_frame]
theorem planHot_mem (d : Device) (stand : Nat) : (d.planHot stand).mem = d.mem := by rw [planHot_frame]
theorem planHot_latch (d : Device) (stand c b : Nat) (p : Lat) : (d.planHot stand).latch c b p = d.latch c b p :=
  setHot_latch d stand _ c b p
theorem planHot_planned (d : Device) (stand j : Nat) : (d.planHot stand).planned j = d.planned j := by
  rw [Device.planned, Device.planned, planHot_svc]

theorem modSvc_hot (d : Device) (c b : Nat) (g : Lat) (f : SvcCount → SvcCount) : (d.modSvc c b g f).hot = d.hot := rfl
theorem modSvc_warm (d : Device) (c b : Nat) (g : Lat) (f : SvcCount → SvcCount) : (d.modSvc c b g f).warm = d.warm := rfl
theorem releaseFor_hot (d : Device) (key cls : Nat) : (d.releaseFor key cls).hot = d.hot := by
  rw [((Worked.refl d).releaseFor key cls).frame]
theorem releaseFor_warm (d : Device) (key cls : Nat) : (d.releaseFor key cls).warm = d.warm := by
  rw [((Worked.refl d).releaseFor key cls).frame]

/-- What a measurement leaves of the counters of its group. -/
def measured (d : Device) (c b : Nat) (g : Lat) (weak : Bool) : Device :=
  (d.releaseFor (rowKey c b g.val 511) 3).modSvc c b g fun v => { v with weak := weak, history := weak :: v.history }

theorem measure_eq (d : Device) (c b : Nat) (g : Lat) (weak : Bool) :
    d.measure c b g weak = (measured d c b g weak).planHot (c / 128) := rfl

theorem measured_count (d : Device) (c b : Nat) (g : Lat) (weak : Bool) :
    lookupD {} (groupKey c b g) (measured d c b g weak).svc
      = { lookupD {} (groupKey c b g) (d.releaseFor (rowKey c b g.val 511) 3).svc with
          weak := weak, history := weak :: (lookupD {} (groupKey c b g) d.svc).history } := by
  rw [measured, Device.modSvc, lookupD_insertK, if_pos rfl, ((Worked.refl d).releaseFor (rowKey c b g.val 511) 3).history]

theorem modSvc_mem (d : Device) (c b : Nat) (g : Lat) (f : SvcCount → SvcCount) : (d.modSvc c b g f).mem = d.mem := rfl
theorem modSvc_latch (d : Device) (c b : Nat) (g : Lat) (f : SvcCount → SvcCount) (c' b' : Nat) (p : Lat) :
    (d.modSvc c b g f).latch c' b' p = d.latch c' b' p := rfl

/-- A group that was found weak has its stand planned as HOT. -/
theorem modSvc_planned (d : Device) (c : Fin 2048) (b : Fin 16) (g : Lat) {f : SvcCount → SvcCount} (hf : ∀ v, (f v).weak = true) :
    (d.modSvc c b g f).planned (c / 128) = true := by
  have stand : groupKey c b g / 8192 = c.val / 128 := by
    have hb := b.isLt
    have hg := g.isLt
    unfold groupKey
    omega
  refine List.any_eq_true.mpr ⟨_, lookupK_mem (lookupK_insertK_same (groupKey c b g) _ _), ?_⟩
  rw [Bool.and_eq_true, beq_iff_eq]
  exact ⟨stand, hf _⟩

theorem retention_still {weak : Bool} (h : s.dev.colFree c b { pa := rowKey c b g.val 511, kind := .read 64, cls := 3 } = false) :
    RunsEvent s (.retentionMeasurement c b g weak) s.dev := runsEvent_modDev _ rfl (if_neg (by simp [h]))

theorem measured_hot (d : Device) (c b : Nat) (g : Lat) (weak : Bool) : (measured d c b g weak).hot = d.hot := by
  rw [measured, modSvc_hot, releaseFor_hot]
theorem measured_warm (d : Device) (c b : Nat) (g : Lat) (weak : Bool) : (measured d c b g weak).warm = d.warm := by
  rw [measured, modSvc_warm, releaseFor_warm]

theorem measure_svc (d : Device) (c b : Nat) (g : Lat) (weak : Bool) : (d.measure c b g weak).svc = (measured d c b g weak).svc := by
  rw [measure_eq, planHot_svc]
theorem measure_planned (d : Device) (c b : Nat) (g : Lat) (weak : Bool) (j : Nat) :
    (d.measure c b g weak).planned j = (measured d c b g weak).planned j := by
  rw [measure_eq, planHot_planned]
theorem measure_hot (d : Device) (c b : Nat) (g : Lat) (weak : Bool) {j : Nat} (hj : j < 16) : (d.measure c b g weak).hot.getLsbD j
    = if j = c / 128 then d.warm.getLsbD j || (d.measure c b g weak).planned j else d.hot.getLsbD j := by
  rw [measure_planned, measure_eq, planHot_hot _ _ hj, measured_hot, measured_warm]

/-- A measurement of a group with its sense amplifiers free leaves memory and the latches. -/
theorem measure_latch {d : Device} {weak : Bool} (h : d.colFree c b { pa := rowKey c b g.val 511, kind := .read 64, cls := 3 } = true)
    (hp : (d.group c b g).phy = false) (hn : (d.group c b g).pend = none) :
    (d.measure c b g weak).mem = d.mem ∧ ∀ p, (d.measure c b g weak).latch c b p = d.latch c b p := by
  obtain ⟨low, core, bank, group⟩ := rowKey_place c b g (row := 511) (by decide)
  have due := colFree_due h
  dsimp only at due
  rw [group] at due
  obtain ⟨mem, latch⟩ := releaseFor_latch low core bank group due hp hn 3
  rw [measure_eq]
  refine ⟨?_, fun p => ?_⟩
  · rw [planHot_mem, measured, modSvc_mem, mem]
  · rw [planHot_latch, measured, modSvc_latch, latch]

theorem retention_runs {weak : Bool} (h : s.dev.colFree c b { pa := rowKey c b g.val 511, kind := .read 64, cls := 3 } = true) :
    let d := s.dev
    let x := d.group c b g
    ∃ e, RunsEvent s (.retentionMeasurement c b g weak) e
      ∧ (lookupD {} (groupKey c b g) e.svc).weak = weak
      ∧ (lookupD {} (groupKey c b g) e.svc).history = weak :: (lookupD {} (groupKey c b g) d.svc).history
      ∧ (∀ j < 16, e.hot.getLsbD j = if j = c.val / 128 then d.warm.getLsbD j || e.planned j else d.hot.getLsbD j)
      ∧ (weak = true → e.planned (c.val / 128) = true)
      ∧ (x.phy = false → x.pend = none → e.mem = d.mem ∧ ∀ p, e.latch c b p = d.latch c b p) := by
  intro d x
  refine ⟨d.measure c b g weak, runsEvent_modDev _ rfl (if_pos h), ?_, ?_, fun j hj => measure_hot d c b g weak hj, fun hw => ?_,
    fun hp hn => measure_latch h hp hn⟩
  · rw [measure_svc, measured_count]
  · rw [measure_svc, measured_count]
  · subst hw
    rw [measure_planned]
    exact modSvc_planned _ c b g fun _ => rfl

end

end Sys2Proof.Machine
end

