-- ==== Sys2Proof/Proofs/PortEvents.lean ====
section
/-! PROOF. What comes back to harts and what comes to the ports of banks (R137, R138, R286 to R288, R293, R296, R297): results of
atomics, reductions, write queues and column accesses. -/

namespace Sys2Proof.Machine

section
variable {s : State} {c : Fin 2048} {b : Fin 16}

/-! ### The result of an atomic (R297) -/

theorem gangAt_none {d : Device} {c b : Nat} (h : (d.core c).issuing = none) : d.gangAt c b = none := by rw [Device.gangAt, h]

theorem atomicResult_none (h : (s.dev.core c).issuing = none) : RunsEvent s (.atomicResultReturn c b) s.dev := by
  refine runsEvent_modDev _ rfl ?_
  simp only [gangAt_none h]

theorem landFlight_some {t : Hart} {f : Flight} (h : t.flight = some f) :
    t.landFlight = { t.setReg (.x f.reg) f.val with flight := none } := by rw [Hart.landFlight, h]

theorem modFound_frame (d : Device) (rk base cv k : Nat) (f : Hart → Hart) :
    d.modFound rk base cv k f = { d with gangs := (d.modFound rk base cv k f).gangs } := by
  unfold Device.modFound Device.modGang
  split <;> rfl

theorem atomicResult_some {rk base : Nat} {g : Gang} {f : Flight} (hg : s.dev.gangAt c b = some (rk, base, g))
    (hf : (s.dev.hart rk b).flight = some f) :
    let d := s.dev
    ∃ e, RunsEvent s (.atomicResultReturn c b) e
      ∧ e = { d with harts := e.harts, gangs := e.gangs }
      ∧ e.hart rk b = { (d.hart rk b).setReg (.x f.reg) f.val with flight := none } ∧ (∀ h < 16, h ≠ b → e.hart rk h = d.hart rk h)
      ∧ ∀ q, d.gang? rk base = some q → ∃ w : List Retiring, e.gang? rk base = some { q with window := w }
        ∧ w = q.window.map fun r => if f.cv < r.id then { r with harts := r.harts.map fun p =>
            if p.1 = b.val then (p.1, p.2.landFlight) else p } else r := by
  intro d
  have runs : RunsEvent s (.atomicResultReturn c b) (d.returnFlight rk base b) := by
    refine runsEvent_modDev _ rfl ?_
    simp only [hg]; rfl
  have eq : d.returnFlight rk base b = (d.modHart rk b Hart.landFlight).modFound rk base f.cv b Hart.landFlight := by
    rw [Device.returnFlight, hf]; rfl
  have hart : ∀ h, (d.returnFlight rk base b).hart rk h = (d.modHart rk b Hart.landFlight).hart rk h := fun h => by
    rw [eq, modFound_frame]; rfl
  refine ⟨_, runs, ?_, ?_, fun h _ hne => ?_, fun q hq => ⟨_, ?_, rfl⟩⟩
  · rw [eq, modFound_frame]; rfl
  · rw [hart, Device.modHart, Device.setHart_hart_same, landFlight_some hf]
  · rw [hart, Device.modHart, Device.setHart_hart _ b.isLt h.isLt, if_neg fun e => hne (Fin.ext e.2)]
  · rw [eq, Device.modFound, Device.modGang, show (d.modHart rk b Hart.landFlight).gang? rk base = some q from hq]
    exact lookupK_insertK_same ..

/-! ### Reductions that come to their ports (R286 to R288, R293, R296) -/

theorem ownWrite_keeps (d : Device) (rk k : Nat) (st : Stor) :
    (d.ownWrite rk k st).regs = d.regs ∧ (d.ownWrite rk k st).fabric = d.fabric := by
  have worked : Worked d (d.ownWrite rk k st) := by
    unfold Device.ownWrite
    split
    · split
      · split
        · exact (Worked.refl d).releaseFor _ _
        · exact Worked.refl d
      · split
        · exact (Worked.refl d).releaseFor _ _
        · exact Worked.refl d
    · exact Worked.refl d
  rw [worked.frame]
  exact ⟨rfl, rfl⟩

section
variable {d e : Device} {q : RedReq} {pa v old : Nat} {bad : Bool}

/-- The package in which a request of one element is performed: its entry is in the write queue. -/
def entered (d : Device) (q : RedReq) (pa : Nat) : Device :=
  (d.ownWrite q.res q.bank (d.stor pa)).wqEnter (d.stor pa) (Device.redKind q) q.rank

theorem entered_stor (d : Device) (q : RedReq) (pa : Nat) : (entered d q pa).stor pa = d.stor pa := by
  obtain ⟨regs, fabric⟩ := ownWrite_keeps d q.res q.bank (d.stor pa)
  obtain ⟨-, regs', fabric'⟩ := Device.wqEnter_keeps (d.ownWrite q.res q.bank (d.stor pa)) (d.stor pa) (Device.redKind q) q.rank
  exact Device.stor_congr (regs'.trans regs) (fabric'.trans fabric) pa

variable (hp : q.parts = [(pa, v)]) (hd : ∀ x, d.stor pa ≠ .dropped x)
  (he : (entered d q pa).atomicAt (d.stor pa) q.elt.bytes (fun x => q.elt.apply q.op x v) = (e, old, bad))
include hp hd he

/-- A request of one element is performed and counted, and on a poisoned sector a reduction is discarded and counted in REDP. -/
theorem redAccept_one :
    (bad = false ∨ q.atomic = true → d.redAccept q = e.redCounted q.res q.bank)
    ∧ (bad = true → q.atomic = false → d.redAccept q
        = Device.redCounted { e with regs := { e.regs with redp := min 0xFFFF (e.regs.redp + 1) } } q.res q.bank) := by
  have stor : d.redStor q = d.stor pa := by rw [Device.redStor, hp]
  have done : d.redAccept q = Device.redCounted (if q.atomic then e else Device.redOne q.op q.elt (entered d q pa) (pa, v)) q.res q.bank := by
    rw [Device.redAccept_there d q (by rw [stor]; exact hd), stor, hp, List.foldl_cons, List.foldl_nil, ← entered, entered_stor, he]
  have one : Device.redOne q.op q.elt (entered d q pa) (pa, v)
      = if bad = true then { e with regs := { e.regs with redp := min 0xFFFF (e.regs.redp + 1) } } else e := by
    unfold Device.redOne
    simp only [entered_stor, he]
    generalize d.stor pa = st at hd
    cases st with
    | dropped x => exact absurd rfl (hd x)
    | _ => simp only [Bool.not_false, Bool.and_true]
  rw [done, one]
  refine ⟨fun h => ?_, fun hb ha => ?_⟩
  · rcases h with h | h
    · simp [h]
    · simp [h]
  · simp [hb, ha]

end

theorem redCounted_here {d : Device} {rk k : Nat} {r : Residence} (hr : d.res? rk = some r) (hs : r.spilled = false)
    (hn : r.state ≠ .stopped) : d.redCounted rk k = d.modHart rk k fun t => { t with redOut := t.redOut - 1 } := by
  rw [Device.redCounted, hr]
  simp [hs, hn]

theorem accept_none {i : Nat} (h : s.dev.redComes i = none) : RunsEvent s (.writeQueueAccept i) s.dev := by
  refine runsEvent_modDev _ rfl ?_
  simp only [h]
theorem accept_waits {i : Nat} {q : RedReq} (h : s.dev.redComes i = some q) (ht : s.dev.redTakes q = false) :
    RunsEvent s (.writeQueueAccept i) { s.dev with portQ := s.dev.portQ.set i q } := by
  refine runsEvent_modDev _ rfl ?_
  simp only [h, ht]; rfl
theorem accept_takes {i : Nat} {q : RedReq} (h : s.dev.redComes i = some q) (ht : s.dev.redTakes q = true) :
    RunsEvent s (.writeQueueAccept i)
      (Device.redAccept { s.dev with portQ := s.dev.portQ.take i ++ s.dev.portQ.drop (i + 1) } q) := by
  refine runsEvent_modDev _ rfl ?_
  simp only [h, ht]; rfl

/-! ### Write queues and column accesses (R137, R138, R286) -/

theorem apply_none (h : (s.dev.bank c b).wq = []) : RunsEvent s (.writeQueueApply c b) s.dev := by
  refine runsEvent_modDev _ rfl ?_
  simp only [h]
theorem apply_oldest {e : WqEntry} {l : List WqEntry} (h : (s.dev.bank c b).wq = e :: l) : RunsEvent s (.writeQueueApply c b)
    ((s.dev.setBank c b { s.dev.bank c b with wq := l }).releaseFor e.pa) := by
  refine runsEvent_modDev _ rfl ?_
  simp only [h, Device.modBank, List.tail_cons]

theorem arrival_runs {pa : BitVec 60} {kind : ColKind} {by_ : ColSource} {key : Nat} (h : s.dev.stor pa.toNat = .dram key)
    (hk : key < 2 ^ 39) : RunsEvent s (.columnAccessArrival pa kind by_) (s.dev.setBank (keyCore key) (keyBank key)
      { s.dev.bank (keyCore key) (keyBank key) with cols := (s.dev.bank (keyCore key) (keyBank key)).cols
          ++ [{ pa := key, kind := kind, cls := s.dev.colClass by_, host := by_ == .host }] }) := by
  refine runsEvent_modDev _ rfl ?_
  simp only [h, Device.modPort, if_pos hk]
  rfl

/-- The package with a column access taken from the port of a bank. -/
def colTaken (d : Device) (c b i : Nat) : Device := d.modBank c b fun k => { k with cols := k.cols.take i ++ k.cols.drop (i + 1) }

theorem serve_none (h : s.dev.colNext c b = none) : RunsEvent s (.columnAccessServe c b) s.dev := by
  refine runsEvent_modDev _ rfl ?_
  simp only [h]
theorem serve_read {a : ColAccess} {i n : Nat} (h : s.dev.colNext c b = some (a, i)) (hk : a.kind = .read n) :
    RunsEvent s (.columnAccessServe c b) ((colTaken s.dev c b i).releaseFor a.pa a.cls) := by
  refine runsEvent_modDev _ rfl ?_
  simp only [h, Device.colServe, hk]; rfl
theorem serve_write {a : ColAccess} {i : Nat} {bytes : List Byte} (h : s.dev.colNext c b = some (a, i)) (hk : a.kind = .write bytes) :
    RunsEvent s (.columnAccessServe c b) (((colTaken s.dev c b i).releaseFor a.pa a.cls).physWrite
      (s.dev.fabric.dev * 2 ^ 39 + a.pa) bytes.length (bytesNat bytes)) := by
  refine runsEvent_modDev _ rfl ?_
  have fabric : ((colTaken s.dev c b i).releaseFor a.pa a.cls).fabric = s.dev.fabric := by
    rw [((Worked.refl (colTaken s.dev c b i)).releaseFor a.pa a.cls).frame]; rfl
  simp only [h, Device.colServe, hk]
  rw [← fabric]
  rfl

/-- What is served next is free. -/
theorem colNext_free {d : Device} {c b i : Nat} {a : ColAccess} (h : d.colNext c b = some (a, i)) : d.colFree c b a = true := by
  have mem : (a, i) ∈ (d.bank c b).cols.zipIdx.filter fun p => d.colFree c b p.1 := by
    unfold Device.colNext at h
    dsimp only at h
    split at h
    · next p found =>
      cases h
      exact List.mem_of_find?_eq_some found
    · exact List.mem_of_mem_head? h
  exact (List.mem_filter.mp mem).2

theorem colTake_now {now cls row : Nat} {x : Group} (h : x.sa ≤ now) : Device.colTake now now cls row x
    = { x with sa := now + 80, ro := now + 4, col := some (row, now + 56), stack := (Device.colTake now now cls row x).stack } := by
  unfold Device.colTake
  dsimp only
  rw [if_neg (Nat.not_lt.mpr h)]

/-- An access to a free group holds it for its own activation and precharge. -/
theorem served_holds {d : Device} {c b i : Nat} {a : ColAccess} {g : Lat} (h : d.colNext c b = some (a, i)) (hg : keyGroup a.pa = g)
    (low : a.pa < 2 ^ 39) (core : keyCore a.pa = c) (bank : keyBank a.pa = b) (hp : (d.group c b g).phy = false)
    (hn : (d.group c b g).pend = none) (hc : (d.group c b g).col = none) (hs : (d.group c b g).sa ≤ d.now)
    (spaced : (d.bank c b).spaced g d.now = d.now) :
    let busy := (colTaken d c b i).releaseFor a.pa a.cls
    busy.group c b g = { d.group c b g with sa := d.now + 80, ro := d.now + 4, col := some (keyRow a.pa, d.now + 56)
                                            stack := (busy.group c b g).stack }
      ∧ busy = { colTaken d c b i with banks := busy.banks, svc := busy.svc } := by
  subst hg
  have free := colNext_free h
  have group : (colTaken d c b i).group c b (keyGroup a.pa) = d.group c b (keyGroup a.pa) := by
    rw [colTaken, Device.group, Device.modBank_bank_same]; rfl
  have away : ((colTaken d c b i).bank c b).spaced (keyGroup a.pa) d.now = d.now := by
    rw [colTaken, Device.modBank_bank_same]; exact spaced
  have due : (colTaken d c b i).forcedDue c b (keyGroup a.pa) = false := by
    have kept : (colTaken d c b i).forcedDue c b (keyGroup a.pa) = d.forcedDue c b (keyGroup a.pa) := by
      unfold Device.forcedDue
      rw [group]
      rfl
    rw [kept]
    simpa using (Bool.and_eq_true_iff.mp free).2
  have from_ : Device.colFrom d.now a.cls (d.group c b (keyGroup a.pa)) ≤ d.now := by
    have first := (Bool.and_eq_true_iff.mp free).1
    simpa [hp, hn, hc] using first
  have used : (colTaken d c b i).releaseFor a.pa a.cls = ((colTaken d c b i).sensed c b (keyGroup a.pa) a.pa).modGroup c b (keyGroup a.pa)
      (Device.colTake d.now d.now a.cls (keyRow a.pa)) := by
    rw [Device.releaseFor, if_pos low, core, bank,
      colUse_fresh due (by rw [group]; exact hp) (by rw [group]; exact hn) (by rw [group]; exact hc), group,
      show (colTaken d c b i).now = d.now from rfl, away, max_eq_left from_]
  have work := ((GroupWork.refl c b (keyGroup a.pa) (colTaken d c b i)).of_bank
    (e' := (colTaken d c b i).sensed c b (keyGroup a.pa) a.pa) rfl rfl).modGroup (Device.colTake d.now d.now a.cls (keyRow a.pa))
  dsimp only
  rw [used, work.own, group]
  exact ⟨colTake_now hs, rfl⟩

end

end Sys2Proof.Machine
end

