-- ==== Sys2Proof/Proofs/TranslationEvents.lean ====
section
/-! PROOF. Walks, the host's answers and invalidations (R279 to R281), and with them the events of banks and ports. -/

namespace Sys2Proof.Machine

section
variable {s : State} {c : Fin 2048} {b : Fin 16}

/-! ### Walks (R279) -/

theorem pageWalk_runs {slot : Fin 3} {r : Residence} {va : Word} (hi : (s.dev.core c).issuing = some slot)
    (hr : s.dev.res? (resKey c slot) = some r) (hv : va.toNat < 2 ^ 56) :
    RunsEvent s (.pageWalk c b va) (s.dev.translate c r.ctx va.toNat).1 := by
  refine runsEvent_modDev _ rfl ?_
  simp only [hi, hr, if_pos hv]

section
variable {d e : Device} {core va : Nat} {ctx : BitVec 12} (hf : (d.core core).atc.find? (fun e => e.covers ctx va) = none)
include hf

theorem translate_fault {f : Nat} (hw : d.walked ctx va = (e, .fault f)) : (d.translate core ctx va).1 = e := by
  unfold Device.translate
  simp only [hf, hw]
theorem translate_ok {l : Leaf} (hw : d.walked ctx va = (e, .ok l)) : (d.translate core ctx va).1
    = e.putAtc core { ctx := ctx, va := va / 2 ^ l.log * 2 ^ l.log, log := l.log, leaf := (l.low, l.oa) } := by
  unfold Device.translate
  simp only [hf, hw]

end

/-! ### The host's answers (R281) -/

/-- An entry of a translation cache with the host's answer, where it awaits one for a page. -/
def answered (ctx : BitVec 12) (page : Nat) (answer : AtsAnswer) (e : AtcEntry) : AtcEntry :=
  if e.covers ctx page = true ∧ nbit e.leaf.1 5 = true ∧ e.ats = none then { e with ats := some (match answer with
    | .refused => (0, false, false)
    | .granted h r w => (h - BitVec.ofNat 64 (page - e.va), r, w)) }
  else e

theorem answered_eq (ctx : BitVec 12) (page : Nat) (answer : AtsAnswer) (e : AtcEntry) : answered ctx page answer e
    = if e.covers ctx page && nbit e.leaf.1 5 && e.ats.isNone then e.answer page answer else e := by
  have same : e.answer page answer = { e with ats := some (match answer with
    | .refused => (0, false, false)
    | .granted h r w => (h - BitVec.ofNat 64 (page - e.va), r, w)) } := by cases answer <;> rfl
  rw [same]
  exact if_congr (by simp [and_assoc]) rfl rfl

/-- A gang that waits for a translation of a page is tried again. -/
def retried (core : Nat) (ctx : BitVec 12) (page : Nat) (key : Nat) (g : Gang) : Gang :=
  match g.wait with
  | some w => match w.on with
    | .ats x a => if key / 16 / 3 = core ∧ x = ctx ∧ a / 2 ^ 16 * 2 ^ 16 = page then { g with wait := some { w with retry := true } } else g
    | _ => g
  | none => g

/-- The package with the host's answer in the translation cache of a core, and its waiters tried again. -/
def hostAnswers (d : Device) (core : Nat) (ctx : BitVec 12) (page : Nat) (answer : AtsAnswer) : Device :=
  let e := d.modCore core fun x => { x with atc := x.atc.map (answered ctx page answer) }
  { e with gangs := e.gangs.map fun p => (p.1, retried core ctx page p.1 p.2) }

theorem atsCompletion_none {ctx : BitVec 12} {va : Word} {answer : AtsAnswer}
    (h : ({ core := c.val, ctx := ctx, va := va.toNat / 2 ^ 16 * 2 ^ 16 } : AtsReq) ∉ s.dev.ats) :
    RunsEvent s (.atsCompletion c ctx va answer) s.dev := runsEvent_modDev _ rfl (if_pos (by simpa using h))

theorem atsCompletion_runs {ctx : BitVec 12} {va : Word} {answer : AtsAnswer}
    (h : ({ core := c.val, ctx := ctx, va := va.toNat / 2 ^ 16 * 2 ^ 16 } : AtsReq) ∈ s.dev.ats) :
    RunsEvent s (.atsCompletion c ctx va answer) (hostAnswers
      (({ s.dev with ats := s.dev.ats.filter (· ≠ ({ core := c.val, ctx := ctx, va := va.toNat / 2 ^ 16 * 2 ^ 16 } : AtsReq)) } : Device).translate
        c ctx (va.toNat / 2 ^ 16 * 2 ^ 16)).1 c ctx (va.toNat / 2 ^ 16 * 2 ^ 16) answer) := by
  refine runsEvent_modDev _ rfl ((if_neg (by simpa using h)).trans ?_)
  have others : ∀ q : AtsReq, s.dev.ats.filter (· != q) = s.dev.ats.filter (· ≠ q) := fun q =>
    List.filter_congr fun x _ => by by_cases e : x = q <;> simp [e]
  have entries := funext (answered_eq ctx (va.toNat / 2 ^ 16 * 2 ^ 16) answer)
  dsimp only
  rw [others, ← entries, hostAnswers]
  generalize (Device.translate _ _ _ _).1 = e
  refine congrArg (fun g => { Device.modCore e c _ with gangs := g }) (List.map_congr_left fun p _ => ?_)
  unfold retried
  cases p.2.wait with
  | none => rfl
  | some w =>
    dsimp only
    cases w.on with
    | ats x a => dsimp only; split <;> rfl
    | _ => rfl

/-- What the host's answer leaves. -/
theorem hostAnswers_leaves (f : Device) (c : Nat) (ctx : BitVec 12) (page : Nat) (answer : AtsAnswer) :
    let e := hostAnswers f c ctx page answer
    e = { f with cores := e.cores, gangs := e.gangs }
      ∧ (e.core c).atc = (f.core c).atc.map (answered ctx page answer)
      ∧ (∀ j ≠ c, e.core j = f.core j)
      ∧ ∀ rk < 6144, ∀ h < 16, ∀ g w a, f.gang? rk h = some g → g.wait = some w → w.on = .ats ctx a → rk / 3 = c →
          a / 2 ^ 16 * 2 ^ 16 = page → e.gang? rk h = some { g with wait := some { w with retry := true } } := by
  have core : ∀ j, (hostAnswers f c ctx page answer).core j
      = (f.modCore c fun x => { x with atc := x.atc.map (answered ctx page answer) }).core j := fun _ => rfl
  refine ⟨rfl, ?_, fun j hj => ?_, fun rk _ h hh g w a hg hw ho hc hp => ?_⟩
  · rw [core, Device.modCore_core_same]
  · rw [core, Device.modCore, Device.setCore_core_ne _ _ hj]
  · have key : hartKey rk h / 16 / 3 = c := by unfold hartKey; omega
    have waits : retried c ctx page (hartKey rk h) g = { g with wait := some { w with retry := true } } := by
      unfold retried
      rw [hw]
      dsimp only
      rw [ho]
      exact if_pos ⟨key, rfl, hp⟩
    rw [Device.gang?, hostAnswers]
    exact (lookupK_mapKeyed (retried c ctx page) _ _).trans ((congrArg _ hg).trans (congrArg some waits))

/-! ### Invalidations (R281) -/

/-- A translation cache without the entries of HOST leaves that meet a range. -/
def unmet (host len : Word) (l : List AtcEntry) : List AtcEntry := l.filter fun e => !e.meets host.toNat len.toNat
/-- The package with an invalidation received. -/
def invalidated (d : Device) (host len : Word) : Device :=
  { d with cores := d.cores.map fun p => (p.1, { p.2 with atc := unmet host len p.2.atc }), atsInv := d.atsInv ++ [(host, len)] }

theorem invalidated_busy (d : Device) (host len : Word) (v : Word × Word) : (invalidated d host len).atsBusy v = d.atsBusy v := by
  have transfers : (invalidated d host len).transfers = d.transfers := by
    unfold Device.transfers invalidated
    dsimp only
    rw [List.flatMap_map]
  rw [Device.atsBusy, transfers]; rfl

theorem atsInvalidation_runs (s : State) (host len : Word) : ∃ e, RunsEvent s (.atsInvalidation host len) e
    ∧ e = { s.dev with cores := e.cores, atsInv := e.atsInv, atsDone := e.atsDone }
    ∧ (s.dev.atsBusy (host, len) = false → (host, len) ∈ e.atsDone) ∧ (s.dev.atsBusy (host, len) = true → (host, len) ∈ e.atsInv)
    ∧ ∀ j, e.core j = { s.dev.core j with atc := (s.dev.core j).atc.filter fun x =>
        !(nbit x.leaf.1 5 && x.leaf.2 < host.toNat + len.toNat && host.toNat < x.leaf.2 + 2 ^ x.log) } := by
  have last : (host, len) ∈ (invalidated s.dev host len).atsInv := List.mem_append_right _ (List.mem_singleton_self _)
  refine ⟨(invalidated s.dev host len).sendAts, runsEvent_modDev _ rfl rfl, rfl, fun hb => ?_, fun hb => ?_, fun j => ?_⟩
  · exact List.mem_append_right _ (List.mem_filter.mpr ⟨last, by rw [invalidated_busy, hb]; rfl⟩)
  · exact List.mem_filter.mpr ⟨last, by rw [invalidated_busy, hb]⟩
  · exact lookupD_map (fun x => { x with atc := unmet host len x.atc }) {} rfl j s.dev.cores

end

end Sys2Proof.Machine

open Sys2Proof Sys2Proof.Machine in
/-- Settles O52: refresh, precharges, segments, the bus, tags and measurements first, then ports and translations. -/
theorem bankAndPortEvents : Obligations.BankAndPortEvents := by
  refine ⟨fun s c b g => ?_, fun s c b => ?_⟩
  · intro d k x less
    refine ⟨debtTick_early, debtTick_due, hotChange_runs s, autoRef_still, forcedRef_still, ownPre_still, fun held due ht => ?_,
      fun hp hn ht => ⟨fun due => ?_, fun due => ?_⟩, ownPre_runs, segmentStart_none, fun q h hs => ?_, fun h => ?_, fun q h => ?_,
      fun row tag => ⟨rowTagWrite_high tag, rowTagWrite_low tag⟩, fun weak => ⟨retention_still, retention_runs⟩⟩
    · exact ⟨_, autoRef_runs due ht, insertRef_held held⟩
    · obtain ⟨paid, svc⟩ := paid_insertRef hp hn
      exact ⟨_, autoRef_runs due ht, paid.fields, svc⟩
    · obtain ⟨paid, begun, begins⟩ := paid_forceRef hp hn
      exact ⟨_, forcedRef_runs due ht, paid.fields, begun, begins⟩
    · obtain ⟨-, ready⟩ := segNext_open h
      exact ⟨segNext_mem h, (segNext_may h).1, ready, segNext_unbarred h, segmentStart_some h hs⟩
    · exact runsEvent_modDev _ rfl (busGrant_none h)
    · obtain ⟨queued, may, first⟩ := busFirst_first h
      exact ⟨queued, may, first, fun i hi => mem_busFree.mp (busTake_free hi),
        fun ha ht i => (busTake_all ha ht i).imp_right mem_busMatrix.mp,
        fun ht => runsEvent_modDev _ rfl (busGrant_nothing h ht), busGrant_runs h⟩
  · intro d k
    refine ⟨fun rk base g f hg hf => atomicResult_some hg hf, atomicResult_none, fun i => accept_none, fun i q h => ?_,
      fun rk r hr hs hn => redCounted_here hr hs hn, apply_none, fun e l => apply_oldest, fun pa kind by_ key h hk => arrival_runs h hk,
      serve_none, fun a i h => ?_, fun slot r va hi hr hv hf e => ?_, fun ctx va answer => ?_, atsInvalidation_runs s⟩
    · intro rest taken
      exact ⟨accept_waits h, accept_takes h, fun pa v old bad e hp hd he => redAccept_one hp hd he⟩
    · exact ⟨fun n hk => serve_read h hk, fun bytes hk => serve_write h hk,
        fun low core bank hp hn hc hs spaced => served_holds h rfl low core bank hp hn hc hs spaced⟩
    · exact ⟨fun f hw => translate_fault hf hw ▸ pageWalk_runs hi hr hv, fun l hw => translate_ok hf hw ▸ pageWalk_runs hi hr hv⟩
    · intro page q
      exact ⟨atsCompletion_none, fun h => ⟨_, atsCompletion_runs h, hostAnswers_leaves _ c ctx page answer⟩⟩
end
